-- ==== Sys2Proof/Word.lean ====
section
/-! DEFINITION. Widths and the two sparse containers of the model: a map with Nat keys kept as a list of
pairs (keys strictly rising) and a store of words whose unlisted cells read as zero. Their operations are in
Machine/Store.lean. -/

namespace Sys2Proof

/-- A 32-bit register word. -/
abbrev Word := BitVec 32
/-- A byte. -/
abbrev Byte := BitVec 8
/-- A 57-bit virtual address or PC (R41, R137). -/
abbrev VAddr := BitVec 57

/-- A map with Nat keys: a list of pairs, keys strictly rising, no key twice. -/
abbrev SMap (α : Type) := List (Nat × α)

/-- A sparse store of `w`-bit cells: an `SMap` with no cell equal to zero, since an unlisted cell reads as zero. -/
abbrev Store (w : Nat) := SMap (BitVec w)

end Sys2Proof
end

