-- ==== Sys2Proof/Syntax.lean ====
section
/-! DEFINITION. The instructions and events of the part: one constructor of `Instr` for every row of
spec/opcode_table.json. The 159 word forms carry the fields of their encoding (chapters 14 to 19); the device, host,
firmware, debugger and peer events carry what the message, command or input carries. -/

namespace Sys2Proof

/-! ## Operands of instruction words -/

/-- The guard of an instruction: predicate GP, inverted when GN (R324, R326). -/
structure Guard where
  gp : BitVec 3
  gn : Bool
deriving DecidableEq, Repr

/-- The five constants of R330. -/
inductive Const
  | zero | one | negOne | half | two
deriving DecidableEq, Repr

/-- A source operand (R329), or the literal that replaces the last source (R327). -/
inductive Src
  | v (n : BitVec 8)
  | s (n : BitVec 7)
  | c (k : Const)
  | l (n : BitVec 2)
  | p (n : BitVec 3)
  | x (n : BitVec 2)
  | vx (i : BitVec 2) (k : BitVec 6)
  | lit (v : BitVec 32)
deriving DecidableEq, Repr

/-- A destination operand (R332). -/
inductive Dst
  | v (n : BitVec 8)
  | s (n : BitVec 7)
  | p (n : BitVec 3)
  | x (n : BitVec 2)
  | vx (i : BitVec 2) (k : BitVec 6)
deriving DecidableEq, Repr

/-- Where a result goes: the destination (none with WBS set) and the latch captured (with LDE set) (R336). -/
structure Out where
  dst : Option Dst
  latch : Option (BitVec 2)
deriving DecidableEq, Repr

/-- What every word of the blocks 0x001 to 0x0FF carries beside its sources: guard, last-use flags, result. -/
structure Alu where
  g : Guard
  lu : BitVec 3
  out : Out
deriving DecidableEq, Repr

/-- Guard and last-use flags of a form without a latch-capable result. -/
structure Ctl where
  g : Guard
  lu : BitVec 3
deriving DecidableEq, Repr

/-- A memory operand [qn + off + imm] (R364). -/
structure MemOp where
  q : BitVec 4
  off : Src
  imm : BitVec 22
deriving DecidableEq, Repr

/-- .S32 or .Z32. -/
inductive Sgn | s32 | z32
deriving DecidableEq, Repr
/-- .F32 or .F64. -/
inductive FTy | f32 | f64
deriving DecidableEq, Repr
/-- .F16 or .BF16. -/
inductive HTy | f16 | bf16
deriving DecidableEq, Repr
/-- Rounding suffixes and FMODE.RM values (R180, R360). -/
inductive Rnd | rn | rz | ru | rd
deriving DecidableEq, Repr
/-- Comparison codes of R273 and R402. -/
inductive Cmp | eq | ne | le | ge | lt | gt
deriving DecidableEq, Repr
/-- Types of LEA: .B32, .B64.S32, .B64.Z32 (R417). -/
inductive LeaTy | b32 | s64 | z64
deriving DecidableEq, Repr
/-- Types of MOV (R425). -/
inductive MovTy | b32 | b64 | b128
deriving DecidableEq, Repr
/-- Types of CVT (R389). -/
inductive NumTy | s8 | z8 | s16 | z16 | s32 | z32 | f16 | bf16 | f32 | f64
deriving DecidableEq, Repr
/-- Operations with their types of GRED (R404). -/
inductive GredOp
  | addS | addZ | addF | minS | minZ | minF | maxS | maxZ | maxF | and | or | xor
deriving DecidableEq, Repr
/-- Access types of LD (R413). -/
inductive LdTy | s8 | z8 | s16 | z16 | b32 | b64 | b128
deriving DecidableEq, Repr
/-- Access types of ST, RLD and RST (R456, R442, R444). -/
inductive StTy | z8 | z16 | b32 | b64 | b128
deriving DecidableEq, Repr
/-- Orderings of ATOM and CAS (R360). -/
inductive MOrd | relaxed | acq | rel | acqrel
deriving DecidableEq, Repr
/-- Orderings of RED (R436). -/
inductive ROrd | relaxed | rel
deriving DecidableEq, Repr
/-- Scopes (R153). -/
inductive Scope | group | team | cluster | die | device | tenant | system
deriving DecidableEq, Repr
/-- Types of LDF and STF (R415). -/
inductive FragTy | bf16 | f16 | s8 | z8 | c4
deriving DecidableEq, Repr
/-- Types of ACC.LD and ACC.ST (R211, R366). -/
inductive AccTy | f32 | bf16 | f16 | s32 | s16 | s8 | z8
deriving DecidableEq, Repr
/-- Types of ACC.DRAIN: those of ACC.LD without .S16. -/
inductive DrainTy | f32 | bf16 | f16 | s32 | s8 | z8
deriving DecidableEq, Repr
/-- Kinds of QSET (R433). -/
inductive LocalKind | prv | scr | clu | dsp
deriving DecidableEq, Repr
/-- Element types of COLL (R385). -/
inductive CollTy | f32 | bf16 | s32
deriving DecidableEq, Repr
/-- Reductions of COLL (R385). -/
inductive CollOp | sum | min | max
deriving DecidableEq, Repr
/-- The special registers of R339. -/
inductive SReg
  | lane | group | ngroups | team | core | sect | die | crew | role | vf | part | clock | time | fmode | status | xlim
  | frag | parent | sibs | cause | trappc | skid | faddr
deriving DecidableEq, Repr
/-- The special registers that WRSR may write (R467). -/
inductive WReg | fmode | status | xlim
deriving DecidableEq, Repr
/-- Kinds of a held borrow. -/
inductive HeldKind | x | s | a
deriving DecidableEq, Repr

/-! ## What device events carry

Groups are named by the 48-bit context identifier of R111 as a Nat; a team by that number without its GROUP field
(divided by 2^16), a launch by its VF and LTAG (divided by 2^23). Cores are numbered die * 16 + core. Functions are
numbered 0 to 1,023 for the VFs and 1,024 for the PF. -/

/-- A CLAIM message (R113). -/
structure ClaimMsg where
  base : Nat
  len : Nat
  kind : HeldKind
  try_ : Bool
  ctx : Nat
  vf : Nat
  core : Nat
  q : BitVec 4
  /-- connection * 4096 + export of a peer's claim, none for a claim of this device (R111, R114) -/
  peer : Option Nat
  /-- index of the import for a claim that goes to a peer device (R114) -/
  importIdx : Option Nat
deriving DecidableEq, Repr

/-- Reasons of a REFUSE message (R113), with the PEER answer of R100. -/
inductive RefuseReason | busy | self_ | full | timeout | peer
deriving DecidableEq, Repr

/-- The command word of a host command (R270). -/
structure CmdWord where
  irq : Bool
  vec : BitVec 5
  tag : BitVec 32
deriving DecidableEq, Repr

/-- The LAUNCH descriptor after its command word (R275). -/
structure LaunchDesc where
  code : BitVec 64
  ctxBase : BitVec 64
  ctxLen : BitVec 64
  sigAddr : BitVec 64
  gd : BitVec 32
  prod : BitVec 32
  crewN : BitVec 8
  crewC : BitVec 24
  regsP : BitVec 9
  regsC : BitVec 9
  ss : BitVec 32
  lp : BitVec 32
  cs : BitVec 32
  ds : BitVec 32
  x : BitVec 32
  y : BitVec 32
  z : BitVec 32
  grouped : Bool
  w : BitVec 16
  igd : BitVec 64
  ix : BitVec 64
  iy : BitVec 64
  iz : BitVec 64
  cores : BitVec 8
  det : Bool
  deadtrap : Bool
  prodfirst : Bool
  bpol : BitVec 2
  budget : BitVec 64
  wdog : BitVec 32
  btime : BitVec 32
deriving DecidableEq, Repr

/-- Causes of a throttle step (R27). -/
inductive ThrottleCause | power | temperature | current
deriving DecidableEq, Repr

/-- One leaf of a partition configuration (R278). Capacities per stack and per die are lists indexed by stack or die. -/
structure LeafConf where
  parent : Nat
  cores : List Nat
  hbm : List Nat
  l2ways : List Nat
  dsp : List Nat
  bandwidth : Nat
  time : Nat
  pool : Nat
deriving DecidableEq, Repr

/-- A first-level partition (R278). -/
structure PartConf where
  cores : List Nat
  hbm : List Nat
  l2ways : List Nat
  dsp : List Nat
  bandwidth : Nat
  time : Nat
  pool : Nat
deriving DecidableEq, Repr

/-- A partition configuration: first-level partitions and leaves by number (R278). -/
structure PartitionConf where
  parts : List (Nat × PartConf)
  leaves : List (Nat × LeafConf)
deriving DecidableEq, Repr

/-- An audit record as firmware supplies it (R308): type, source, VF, partition and the 40 payload bytes. -/
structure AuditReq where
  typ : BitVec 8
  src : BitVec 4
  vf : BitVec 11
  part : BitVec 7
  payload : BitVec 320
deriving DecidableEq, Repr

/-- Units that an error names (R316, R317). -/
inductive UnitId
  | sram (bank : Nat)
  | lane (link lane : Nat)
  | array (core : Nat)
  | weighbridge (tile : Nat)
deriving DecidableEq, Repr

/-- Firmware images (R306, R287). -/
inductive FwImage
  | function (n : Nat)
  | policy (version : Nat)
deriving DecidableEq, Repr

/-- What a peer request asks for (R288, R297, R299, R300, R302). -/
inductive PeerOp
  | read (addr len : Nat)
  | write (addr : Nat) (data : List Byte)
  | atomic (addr : Nat) (wide : Bool) (op : Nat) (a b : BitVec 64)
  | flush
  | claim (m : ClaimMsg)
  | release (entry gen : Nat) (ctx : Nat)
  | fill (addr len : Nat)
  | writeBack (addr : Nat) (mask : List Bool) (data : List Byte)
  | notice (win : Nat)
  /-- the WITHDRAW of a claim (R113, R263) -/
  | withdraw (ctx : Nat) (q : BitVec 4)
  /-- the claim sweep of a launch of the sender, or of all of them (R117) -/
  | sweep (launch : Option Nat)
deriving DecidableEq, Repr

/-- How a peer answers (R295, R296). -/
inductive PeerStatus
  | ok
  | nak
  | fault (reason : Nat)
  | granted (entry gen : Nat) (orphan : Bool)
  | refused (r : RefuseReason)
deriving DecidableEq, Repr

/-- An entry of an export (R289) as the PF registers it. -/
structure ExportReq where
  base : VAddr
  len : BitVec 40
  held : Bool
  rd : Bool
  wr : Bool
  at_ : Bool
  pdev : BitVec 10
  pvf : BitVec 10
deriving DecidableEq, Repr

/-- What the exporter of a peer window offers, as the fabric firmware learns it for an import (R290). -/
structure ImportReq where
  rdev : BitVec 10
  rvf : BitVec 10
  rwin : BitVec 12
  held : Bool
  perm : BitVec 3
  grain : BitVec 2
  pgsz : BitVec 2
  len : BitVec 40
  tmo : BitVec 24
  /-- the export is ACTIVE and names this device and VF -/
  named : Bool
deriving DecidableEq, Repr

/-- A member record of a multicast group (R298). -/
structure Member where
  dev : BitVec 10
  vf : BitVec 10
  win : BitVec 12
deriving DecidableEq, Repr

/-- One member's arrival at a collective, as the collective die sees it (R302). -/
structure CollPart where
  rank : Nat
  form : Nat
  op : CollOp
  ty : CollTy
  fo : Bool
  e : Nat
  data : List Byte
  /-- a failure of the member under R296: its cause -/
  failed : Option (BitVec 8)
deriving DecidableEq, Repr

/-- A change of stage 2 by the monitor (R141): the table entry written. -/
structure Stage2Write where
  table : Nat
  index : Nat
  entry : BitVec 64
deriving DecidableEq, Repr

/-- A deferred page request of the memory firmware (R72, R116). -/
structure MapReq where
  vf : Nat
  page : Nat
  table : Nat
  index : Nat
  entry : BitVec 64
  /-- a request from the PF that cannot wait ends the VF's launches (R116) -/
  force : Bool
deriving DecidableEq, Repr

/-- Who a debugger stop names (R260). -/
inductive DebugScope
  | group (grp : Nat)
  | team (team : Nat)
  | launch (launch : Nat)
deriving DecidableEq, Repr

/-! ## Inputs -/

/-- What reaches the part from outside: management requests of the PF, firmware and the monitor, register writes, SPDM and
TDISP messages, debugger commands, and what peer devices send. It carries what the request, write or message carries; the
event of the same name (`Input.instr`) acts on it. -/
inductive Input
  | doorbell (fn q : Nat) (tail : BitVec 16)
  | queueEnable (fn q : Nat) (en : Bool)
  | sharedCosts (perStack perCore : List Nat) (uncore firmware : Nat)
  | reconciliation (em : Nat)
  | throttleStep (die : Nat) (down : Bool) (cause : ThrottleCause)
  | thermalShutdown (dies : List Nat)
  | replayAll (fn die part : Nat)
  | inval (fn : Nat) (va npg : Nat) (irq : Bool) (vec : BitVec 5) (tvf : Nat)
  | mappingRequest (r : MapReq)
  | quotaWrite (vf : Nat) (quota : BitVec 64)
  | checkpoint (vf : Nat)
  | residentWrite (vf : Nat) (on : Bool)
  | supvWrite (vf : Nat) (va : VAddr) (len : Nat) (key : BitVec 1064) (r s : BitVec 528)
  | registerWrite (fn : Nat) (off : Nat) (v : BitVec 32)
  | drainedWrite (v : BitVec 64)
  | sealreq
  | deviceReset
  | unitBringup (bit : Nat)
  | firmwareUpdate (w : FwImage) (image : List Byte)
  | partitionConfiguration (c : PartitionConf)
  | vfCreation (vf leaf policy s2root : Nat)
  | vfReset (vf policy : Nat)
  | vfRelease (vf : Nat)
  | stage2Change (vf : Nat) (ws : List Stage2Write)
  | errorDetected (unit : UnitId) (kind : BitVec 8) (syndrome : BitVec 64) (bad : List Nat)
  | selfTest (unit : UnitId) (lasting : Bool)
  | getVersion
  | getCapabilities (ver : BitVec 8) (flags : BitVec 32)
  | negotiateAlgorithms (asym hash : BitVec 32) (dhe aead : BitVec 16)
  | getDigests
  | getCertificate (slot : BitVec 8) (off len : BitVec 16)
  | challenge (slot : BitVec 8) (nonce : BitVec 256)
  | getMeasurements (op : BitVec 8) (sign : Bool) (nonce : BitVec 256)
  | keyExchange (ses : BitVec 16) (random : BitVec 256) (point : List Byte)
  | sessionFinish (ses : BitVec 32) (verify : BitVec 512)
  | endSession (ses : BitVec 32)
  | vendorDefinedMessage (ses : BitVec 32) (payload : List Byte)
  | ideKmKeyProgramming (stream : Nat) (first last : Nat) (key : BitVec 256)
  | lockInterface (vf : Nat)
  | stopInterface (vf : Nat)
  | ideIntegrityFailure (stream : Nat)
  | debugStop (byPf : Bool) (who : DebugScope)
  | debugRead (byPf : Bool) (grp off len : Nat)
  | debugWrite (byPf : Bool) (grp off : Nat) (data : List Byte)
  | debugStep (byPf : Bool) (grp : Nat) (frag : BitVec 5)
  | debugCancel (byPf : Bool) (grp : Nat) (frag : BitVec 5)
  | debugCancelBor (byPf : Bool) (grp : Nat) (frag : BitVec 5)
  | debugResume (byPf : Bool) (who : DebugScope)
  | exportWindow (vf win : Nat) (e : ExportReq)
  | importWindow (vf idx : Nat) (e : ImportReq)
  | revoke (vf win : Nat)
  | revocationNotice (vf : Nat) (dev rvf rwin : Nat)
  /-- the list of `n` member records lies in device memory at `table`; `named`: every export of another device that it names is
  ACTIVE and open to the owner -/
  | multicastGroupRegistration (grp vf tmo table n : Nat) (named : Bool)
  | peerRequest (vf dev rvf win : Nat) (seq : BitVec 32) (op : PeerOp)
  | peerAnswer (vf dev rvf : Nat) (seq : BitVec 32) (st : PeerStatus) (data : List Byte)
  | connectionRefill (vf dev rvf : Nat) (ok : Bool)
  | deviceLeavesPod (dev : Nat)
  | startInterface (vf : Nat)
  | importFree (vf idx : Nat)
  /-- the arrivals of every member of the oldest collective of a group, in order of arrival, reach the reduction units -/
  | collective (vf grp : Nat) (parts : List CollPart)
  -- what happens outside the part, with no event of the table
  /-- the host writes bytes of its memory (R165) -/
  | hostWrite (off : Nat) (data : List Byte)
  /-- the host begins, or ends, to answer requests for a range of its memory with completion errors (R140) -/
  | hostError (off len : Nat) (on : Bool)
  /-- the PF gives the device its number (R288) -/
  | deviceNumber (n : BitVec 10)
  /-- the PF names the area of host memory for spilled connections (R294) -/
  | spillArea (off : Nat)
deriving DecidableEq, Repr

/-! ## Instructions and events -/

/-- One constructor per row of spec/opcode_table.json. -/
inductive Instr
  -- NOP, integer and logic
  | nop
  | iadd (c : Alu) (t : Sgn) (a b : Src)
  | iaddCc (c : Alu) (pco : BitVec 3) (a b ci : Src)
  | isub (c : Alu) (t : Sgn) (a b : Src)
  | imad (c : Alu) (t : Sgn) (a b d : Src)
  | imadWide (c : Alu) (t : Sgn) (a b d : Src)
  | imul (c : Alu) (t : Sgn) (hi : Bool) (a b : Src)
  | imnmx (c : Alu) (t : Sgn) (max : Bool) (a b : Src)
  | isetp (c : Ctl) (pd : BitVec 3) (t : Sgn) (cmp : Cmp) (a b : Src)
  | idp4 (c : Alu) (az bz : Bool) (a b d : Src)
  | lop3 (c : Alu) (lut : BitVec 8) (a b d : Src)
  | shl (c : Alu) (a b : Src)
  | shr (c : Alu) (t : Sgn) (a b : Src)
  | bfe (c : Alu) (t : Sgn) (a b d : Src)
  | bfi (c : Alu) (a b d : Src)
  | brev (c : Alu) (a : Src)
  | clz (c : Alu) (a : Src)
  | popc (c : Alu) (a : Src)
  | lea (c : Alu) (t : LeaTy) (a b n : Src)
  | prmt (c : Alu) (a b d : Src)
  | sel (c : Alu) (wide : Bool) (neg : Bool) (pc : BitVec 3) (a b : Src)
  | mov (c : Alu) (t : MovTy) (a : Src)
  -- floating point
  | fadd (c : Alu) (t : FTy) (r : Option Rnd) (a b : Src)
  | fsub (c : Alu) (t : FTy) (r : Option Rnd) (a b : Src)
  | fmul (c : Alu) (t : FTy) (r : Option Rnd) (a b : Src)
  | ffma (c : Alu) (t : FTy) (r : Option Rnd) (a b d : Src)
  | fmnmx (c : Alu) (t : FTy) (max : Bool) (a b : Src)
  | fsetp (c : Ctl) (pd : BitVec 3) (t : FTy) (cmp : Cmp) (a b : Src)
  | fclass (c : Alu) (t : FTy) (a m : Src)
  | fdot2 (c : Alu) (t : HTy) (a b d : Src)
  | sfnRcp (c : Alu) (a : Src)
  | sfnRsq (c : Alu) (a : Src)
  | sfnSqrt (c : Alu) (a : Src)
  | sfnExp2 (c : Alu) (a : Src)
  | sfnLog2 (c : Alu) (a : Src)
  | sfnSin (c : Alu) (a : Src)
  | sfnCos (c : Alu) (a : Src)
  | sfnTanh (c : Alu) (a : Src)
  -- packed, narrow and codebook
  | hadd2 (c : Alu) (t : HTy) (a b : Src)
  | hmul2 (c : Alu) (t : HTy) (a b : Src)
  | hfma2 (c : Alu) (t : HTy) (a b d : Src)
  | cvt (c : Alu) (dt st : NumTy) (r : Option Rnd) (a : Src)
  | cbenc (c : Alu) (bf : Bool) (a k : Src)
  | cbdec (c : Alu) (a k : Src)
  -- group operations
  | shflIdx (c : Alu) (z : Bool) (wc : BitVec 3) (pd : Option (BitVec 3)) (a b : Src)
  | shflUp (c : Alu) (z : Bool) (wc : BitVec 3) (pd : Option (BitVec 3)) (a b : Src)
  | shflDown (c : Alu) (z : Bool) (wc : BitVec 3) (pd : Option (BitVec 3)) (a b : Src)
  | shflXor (c : Alu) (z : Bool) (wc : BitVec 3) (pd : Option (BitVec 3)) (a b : Src)
  | voteAll (c : Ctl) (pd : BitVec 3) (neg : Bool) (pa : BitVec 3)
  | voteAny (c : Ctl) (pd : BitVec 3) (neg : Bool) (pa : BitVec 3)
  | voteUni (c : Ctl) (pd : BitVec 3) (neg : Bool) (pa : BitVec 3)
  | ballot (c : Alu) (neg : Bool) (pa : BitVec 3)
  | matchAny (c : Alu) (wide : Bool) (a : Src)
  | matchAll (c : Alu) (wide : Bool) (pd : BitVec 3) (a : Src)
  | gred (c : Alu) (op : GredOp) (a : Src)
  | elect (g : Guard) (d : Dst)
  -- control
  | bra (g : Guard) (target : BitVec 22) (prio : BitVec 8)
  | brx (c : Ctl) (a : Src) (prio : BitVec 8)
  | call (g : Guard) (d : Dst) (target : BitVec 22) (prio : BitVec 8)
  | ret (g : Guard) (a : Src)
  | exit (g : Guard)
  | conv
  | yield (g : Guard)
  | bkpt (g : Guard)
  | trap (g : Guard) (sv : Src)
  | tret
  | tretSkip
  -- memory
  | ld (c : Ctl) (t : LdTy) (d : Option Dst) (m : MemOp)
  | ldSupv (c : Ctl) (t : LdTy) (d : Option Dst) (off : Src) (imm : BitVec 22)
  | st (c : Ctl) (t : StTy) (m : MemOp) (b : Src)
  | stSupv (c : Ctl) (t : StTy) (off : Src) (imm : BitVec 22) (b : Src)
  | ldf (g : Guard) (t : FragTy) (d : BitVec 8) (m : MemOp) (sl : BitVec 7) (sk : Src)
  | stf (g : Guard) (t : FragTy) (d : BitVec 8) (m : MemOp) (sl : BitVec 7) (sk : Src)
  | prefL1 (c : Ctl) (m : MemOp)
  | prefL2 (c : Ctl) (m : MemOp)
  | cbld (c : Ctl) (m : MemOp) (k : Src)
  | atomAdd (c : Ctl) (o : MOrd) (sc : Scope) (wide : Bool) (d : Option Dst) (m : MemOp) (b : Src)
  | atomMin (c : Ctl) (o : MOrd) (sc : Scope) (uns : Bool) (d : Option Dst) (m : MemOp) (b : Src)
  | atomMax (c : Ctl) (o : MOrd) (sc : Scope) (uns : Bool) (d : Option Dst) (m : MemOp) (b : Src)
  | atomAnd (c : Ctl) (o : MOrd) (sc : Scope) (wide : Bool) (d : Option Dst) (m : MemOp) (b : Src)
  | atomOr (c : Ctl) (o : MOrd) (sc : Scope) (wide : Bool) (d : Option Dst) (m : MemOp) (b : Src)
  | atomXor (c : Ctl) (o : MOrd) (sc : Scope) (wide : Bool) (d : Option Dst) (m : MemOp) (b : Src)
  | atomExch (c : Ctl) (o : MOrd) (sc : Scope) (wide : Bool) (d : Option Dst) (m : MemOp) (b : Src)
  | atomAddf (c : Ctl) (o : MOrd) (sc : Scope) (d : Option Dst) (m : MemOp) (b : Src)
  | redAdd (c : Ctl) (o : ROrd) (sc : Scope) (wide : Bool) (m : MemOp) (b : Src)
  | redMin (c : Ctl) (o : ROrd) (sc : Scope) (uns : Bool) (m : MemOp) (b : Src)
  | redMax (c : Ctl) (o : ROrd) (sc : Scope) (uns : Bool) (m : MemOp) (b : Src)
  | redAnd (c : Ctl) (o : ROrd) (sc : Scope) (wide : Bool) (m : MemOp) (b : Src)
  | redOr (c : Ctl) (o : ROrd) (sc : Scope) (wide : Bool) (m : MemOp) (b : Src)
  | redXor (c : Ctl) (o : ROrd) (sc : Scope) (wide : Bool) (m : MemOp) (b : Src)
  | redAddf (c : Ctl) (o : ROrd) (sc : Scope) (m : MemOp) (b : Src)
  | cas (c : Ctl) (o : MOrd) (sc : Scope) (wide : Bool) (d : Option Dst) (m : MemOp) (cv nv : Src)
  -- borrows
  | borX (c : Ctl) (sd : BitVec 7) (q : BitVec 4) (sa : BitVec 7) (sl : Src)
  | borS (c : Ctl) (sd : BitVec 7) (q : BitVec 4) (sa : BitVec 7) (sl : Src)
  | borA (c : Ctl) (sd : BitVec 7) (q : BitVec 4) (sa : BitVec 7) (sl : Src)
  | borO (c : Ctl) (sd : BitVec 7) (q : BitVec 4) (sa : BitVec 7) (sl : Src)
  | borXTry (c : Ctl) (sd : BitVec 7) (q : BitVec 4) (sa : BitVec 7) (sl : Src)
  | borSTry (c : Ctl) (sd : BitVec 7) (q : BitVec 4) (sa : BitVec 7) (sl : Src)
  | borATry (c : Ctl) (sd : BitVec 7) (q : BitVec 4) (sa : BitVec 7) (sl : Src)
  | borOTry (c : Ctl) (sd : BitVec 7) (q : BitVec 4) (sa : BitVec 7) (sl : Src)
  | rebor (c : Ctl) (qd qs : BitVec 4) (so sl : Src)
  | reborS (c : Ctl) (qd qs : BitVec 4) (so sl : Src)
  | split (g : Guard) (qd qs : BitVec 4) (sg sn sm : Src)
  | join (g : Guard) (qs : BitVec 4)
  | retb (g : Guard) (q : BitVec 4)
  | qset (c : Ctl) (k : LocalKind) (q : BitVec 4) (so sl : Src)
  | qsetEmpty (g : Guard) (q : BitVec 4)
  | qinfo (g : Guard) (sd : BitVec 7) (q : BitVec 4) (sel : BitVec 3)
  -- synchronisation
  | barArrive (c : Ctl) (sd : Option (BitVec 7)) (sk sn : Src)
  | barWait (c : Ctl) (sk sp : Src)
  | barSync (c : Ctl) (sk sn : Src)
  | mbarInit (g : Guard) (m : MemOp) (sc : Src)
  | mbarExpect (g : Guard) (m : MemOp) (sx : Src)
  | mbarArrive (g : Guard) (sd : Option (BitVec 7)) (m : MemOp)
  | mbarTrywait (g : Guard) (pd : BitVec 3) (m : MemOp) (sp : Src)
  | mbarWait (g : Guard) (m : MemOp) (sp : Src)
  | fence (g : Guard) (sc : Scope)
  | fenceLayout (g : Guard)
  | sigDec (g : Guard) (sc : Scope) (m : MemOp) (sv : Src)
  | sigAdd (g : Guard) (sc : Scope) (m : MemOp) (sv : Src)
  | sigSet (g : Guard) (sc : Scope) (m : MemOp) (sv : Src)
  | sigw (g : Guard) (cmp : Cmp) (sc : Scope) (m : MemOp) (c : Src)
  | ftile (g : Guard) (sd : BitVec 7)
  | yardAnswer (who : List (Nat × BitVec 7))
  -- engines
  | mma (g : Guard) (q : BitVec 4) (so : Src)
  | capture (team : Nat) (crew : Nat)
  | mmaComplete (core : Nat)
  | rendezvousWithdrawal (grp : Nat)
  | accZero (g : Guard) (st : Src)
  | accLd (g : Guard) (t : AccTy) (d : BitVec 8) (st sb : Src)
  | accSt (g : Guard) (t : AccTy) (vs : BitVec 8) (st sb : Src)
  | accDrain (g : Guard) (t : DrainTy) (m : MemOp) (st sl sm : Src)
  | copyLin (c : Ctl) (sd : BitVec 7) (qd qs : BitVec 4) (sa sb sl : Src)
  | copyTileLd (c : Ctl) (sd : BitVec 7) (ql qg : BitVec 4) (so : Src) (sc : BitVec 7)
  | copyTileSt (c : Ctl) (sd : BitVec 7) (ql qg : BitVec 4) (so : Src) (sc : BitVec 7)
  | copyGather (c : Ctl) (sd : BitVec 7) (ql qg : BitVec 4) (so sb : Src) (sc : BitVec 7)
  | copyLinMb (c : Ctl) (sm : Src) (qd qs : BitVec 4) (sa sb sl : Src)
  | copyTileLdMb (c : Ctl) (ql qg : BitVec 4) (so : Src) (sc : BitVec 7)
  | copyTileStMb (c : Ctl) (ql qg : BitVec 4) (so : Src) (sc : BitVec 7)
  | copyGatherMb (c : Ctl) (ql qg : BitVec 4) (so sb : Src) (sc : BitVec 7)
  | copyComplete (core : Nat) (cmd : Nat)
  | sweepWb (g : Guard) (sd : BitVec 7) (q : BitVec 4) (so sl : Src)
  | sweepInv (g : Guard) (sd : BitVec 7) (q : BitVec 4) (so sl : Src)
  | sweepWbinv (g : Guard) (sd : BitVec 7) (q : BitVec 4) (so sl : Src)
  | sweepWbMb (g : Guard) (sm : Src) (q : BitVec 4) (so sl : Src)
  | sweepInvMb (g : Guard) (sm : Src) (q : BitVec 4) (so sl : Src)
  | sweepWbinvMb (g : Guard) (sm : Src) (q : BitVec 4) (so sl : Src)
  | sweepComplete (core : Nat) (cmd : Nat)
  -- remote and migration
  | rld (c : Ctl) (t : StTy) (sd : BitVec 7) (d : BitVec 8) (q : BitVec 4) (vo : Src)
  | rst (c : Ctl) (t : StTy) (sd : BitVec 7) (q : BitVec 4) (vo : Src) (vs : BitVec 8)
  | rmst (c : Ctl) (sd : BitVec 7) (sg : Src) (q : BitVec 4) (sb : Src) (sc : BitVec 7)
  | rflush (g : Guard) (sd : BitVec 7) (q : BitVec 4)
  | rflushMc (c : Ctl) (sd : BitVec 7) (sg so : Src)
  | migrateAddr (lu : BitVec 3) (m : MemOp)
  | migrateHome
  | landing (grp : Nat)
  | flushByContextTag (grp : Nat) (old new : Nat) (ranges : List (Nat × Nat))
  | flushAcknowledge (grp : Nat) (new : Nat)
  | collAllred (c : Ctl) (sd : BitVec 7) (op : CollOp) (ty : CollTy) (fo : Bool) (qd qs : BitVec 4) (sc : BitVec 7)
  | collRedsc (c : Ctl) (sd : BitVec 7) (op : CollOp) (ty : CollTy) (fo : Bool) (qd qs : BitVec 4) (sc : BitVec 7)
  | collAllga (c : Ctl) (sd : BitVec 7) (ty : CollTy) (fo : Bool) (qd qs : BitVec 4) (sc : BitVec 7)
  | collBcast (c : Ctl) (sd : BitVec 7) (ty : CollTy) (fo : Bool) (qd qs : BitVec 4) (sc : BitVec 7)
  | inNetworkReduction (vf grp : Nat) (parts : List CollPart)
  -- system
  | rdsr (c : Alu) (r : SReg)
  | wrsr (c : Ctl) (r : WReg) (a : Src)
  | mtrVf (g : Guard) (sd : BitVec 7)
  | mtrLaunch (g : Guard) (sd : BitVec 7)
  | mtrTeam (g : Guard) (sd : BitVec 7)
  | mtrQuota (g : Guard) (sd : BitVec 7)
  -- contexts, loads and fetch
  | groupActivation (core sect : Nat)
  | swapOut (grp : Nat)
  | registerFill (grp : Nat) (n : Nat)
  | loadComplete (acc : Nat)
  | impreciseFault (acc : Nat)
  | lineFill (core : Nat) (vf : Nat) (line : Nat) (transient : Bool)
  -- borrows: messages and answers
  | claim (die : Nat) (m : ClaimMsg)
  | grant (ctx : Nat) (q : BitVec 4) (handle : BitVec 24) (orphan : Bool)
  | refuse (ctx : Nat) (q : BitVec 4) (r : RefuseReason)
  | release (die : Nat) (entry gen : Nat) (ctx : Nat)
  | withdraw (die : Nat) (ctx : Nat) (q : BitVec 4)
  | writeBackResponse (core : Nat) (ret : Nat)
  | borrowTimeout (die : Nat) (entry : Nat)
  | claimSweep (launch : Nat)
  -- translation and faults
  | walkComplete (acc : Nat)
  | pageMissEntryTake (acc : Nat)
  | faultBufferMove (die part : Nat)
  | reportingRound
  -- host commands and dispatch
  | launch (w : CmdWord) (d : LaunchDesc)
  | waitsig (w : CmdWord) (addr c : BitVec 64) (cmp : Cmp)
  | setsigSet (w : CmdWord) (addr v : BitVec 64)
  | setsigAdd (w : CmdWord) (addr v : BitVec 64)
  | setsigDec (w : CmdWord) (addr v : BitVec 64)
  | hcopy (w : CmdWord) (dst src len sig : BitVec 64)
  | hcopyComplete (job : Nat)
  | mark (w : CmdWord) (v : BitVec 64)
  | resume (w : CmdWord) (ltag budget : BitVec 64)
  | dispatch
  | coreGrant (wait : Nat)
  | teamPlacement (team : Nat)
  | teamCompletion (team : Nat)
  | completionRecord (fn q : Nat)
  | periodStart
  | sliceEnd (leaf : Nat)
  | sliceEndEviction (launch : Nat)
  | blockingPointEviction (team : Nat)
  | teamRestore (team : Nat)
  -- energy and stops
  | posting
  | forcedFullSave (grp : Nat)
  | stopComplete (launch : Nat)
  | hang (team : Nat)
  | signalPoll (vf : Nat) (addr : Nat)
  -- registers of functions, firmware and monitor
  | invalComplete (fn : Nat)
  | auditAppend
  | scrub (core : Nat)
  | scrubComplete (core : Nat)
  -- SPDM, TDISP and IDE
  -- debugger
  -- peers
  | revocationComplete (vf win : Nat)
  | peerGrantTimeout (vf win : Nat)
  | multicastReplication (op : Nat)
  | flushNotice (vf dev rvf win : Nat) (seq : BitVec 32)
  | resend (vf dev rvf : Nat) (seq : BitVec 32)
  | peerTimeout (vf dev rvf : Nat) (seq : BitVec 32)
  -- further events
  | unassignedOpc (w : BitVec 96)
  | l1WriteBack (core : Nat) (line : Nat)
  | atomicAcknowledgement (core : Nat) (grp : Nat) (handle : BitVec 24)
  | rateLimiterWindow (leaf : Nat)
  -- events on an input: the datum stands in State
  | doorbell
  | queueEnable
  | sharedCosts
  | reconciliation
  | throttleStep
  | thermalShutdown
  | replayAll
  | inval
  | mappingRequest
  | quotaWrite
  | checkpoint
  | residentWrite
  | supvWrite
  | registerWrite
  | drainedWrite
  | sealreq
  | deviceReset
  | unitBringup
  | firmwareUpdate
  | partitionConfiguration
  | vfCreation
  | vfReset
  | vfRelease
  | stage2Change
  | errorDetected
  | selfTest
  | getVersion
  | getCapabilities
  | negotiateAlgorithms
  | getDigests
  | getCertificate
  | challenge
  | getMeasurements
  | keyExchange
  | sessionFinish
  | endSession
  | vendorDefinedMessage
  | ideKmKeyProgramming
  | lockInterface
  | stopInterface
  | ideIntegrityFailure
  | debugStop
  | debugRead
  | debugWrite
  | debugStep
  | debugCancel
  | debugCancelBor
  | debugResume
  | exportWindow
  | importWindow
  | revoke
  | revocationNotice
  | multicastGroupRegistration
  | peerRequest
  | peerAnswer
  | connectionRefill
  | deviceLeavesPod
  | startInterface
  | importFree
deriving DecidableEq, Repr

/-- An input that asks a device under shutdown for work: it has none of its effect (R28). -/
def Input.fromPeer : Input → Bool
  | .peerRequest .. => true
  | .peerAnswer .. => true
  | .collective .. => true
  | _ => false

/-- The event that an input triggers; none where the table has no event for it. -/
def Input.instr : Input → Option Instr
  | .collective vf grp parts => some (.inNetworkReduction vf grp parts)
  | .doorbell .. => some .doorbell
  | .queueEnable .. => some .queueEnable
  | .sharedCosts .. => some .sharedCosts
  | .reconciliation .. => some .reconciliation
  | .throttleStep .. => some .throttleStep
  | .thermalShutdown .. => some .thermalShutdown
  | .replayAll .. => some .replayAll
  | .inval .. => some .inval
  | .mappingRequest .. => some .mappingRequest
  | .quotaWrite .. => some .quotaWrite
  | .checkpoint .. => some .checkpoint
  | .residentWrite .. => some .residentWrite
  | .supvWrite .. => some .supvWrite
  | .registerWrite .. => some .registerWrite
  | .drainedWrite .. => some .drainedWrite
  | .sealreq => some .sealreq
  | .deviceReset => some .deviceReset
  | .unitBringup .. => some .unitBringup
  | .firmwareUpdate .. => some .firmwareUpdate
  | .partitionConfiguration .. => some .partitionConfiguration
  | .vfCreation .. => some .vfCreation
  | .vfReset .. => some .vfReset
  | .vfRelease .. => some .vfRelease
  | .stage2Change .. => some .stage2Change
  | .errorDetected .. => some .errorDetected
  | .selfTest .. => some .selfTest
  | .getVersion => some .getVersion
  | .getCapabilities .. => some .getCapabilities
  | .negotiateAlgorithms .. => some .negotiateAlgorithms
  | .getDigests => some .getDigests
  | .getCertificate .. => some .getCertificate
  | .challenge .. => some .challenge
  | .getMeasurements .. => some .getMeasurements
  | .keyExchange .. => some .keyExchange
  | .sessionFinish .. => some .sessionFinish
  | .endSession .. => some .endSession
  | .vendorDefinedMessage .. => some .vendorDefinedMessage
  | .ideKmKeyProgramming .. => some .ideKmKeyProgramming
  | .lockInterface .. => some .lockInterface
  | .stopInterface .. => some .stopInterface
  | .ideIntegrityFailure .. => some .ideIntegrityFailure
  | .debugStop .. => some .debugStop
  | .debugRead .. => some .debugRead
  | .debugWrite .. => some .debugWrite
  | .debugStep .. => some .debugStep
  | .debugCancel .. => some .debugCancel
  | .debugCancelBor .. => some .debugCancelBor
  | .debugResume .. => some .debugResume
  | .exportWindow .. => some .exportWindow
  | .importWindow .. => some .importWindow
  | .revoke .. => some .revoke
  | .revocationNotice .. => some .revocationNotice
  | .multicastGroupRegistration .. => some .multicastGroupRegistration
  | .peerRequest .. => some .peerRequest
  | .peerAnswer .. => some .peerAnswer
  | .connectionRefill .. => some .connectionRefill
  | .deviceLeavesPod .. => some .deviceLeavesPod
  | .startInterface .. => some .startInterface
  | .importFree .. => some .importFree
  | .hostWrite .. => none
  | .hostError .. => none
  | .deviceNumber .. => none
  | .spillArea .. => none

end Sys2Proof
end

