-- ==== Sys2Proof/WellFormed.lean ====
section
/-! DEFINITION. Which instruction terms an instruction word can hold: the conditions of R338 that are decided from the
word alone and that the fields of a constructor do not already exclude. The role budget (R31) is the one condition
left to the issue. Events have no word and are well formed. -/

namespace Sys2Proof

/-- GP = 7 with GN = 1 is no guard (R326). -/
def Guard.ok (g : Guard) : Bool := !(g.gp == 7 && g.gn)

/-- A source read as `w` registers of a floating (`fp`) or other type (R329 to R331): alignment, no wide latch,
predicate or x register, 0.5 only in a floating type, no 128-bit literal (R328). -/
def Src.ok (w : Nat) (fp : Bool) : Src → Bool
  | .v n => n.toNat % w == 0
  | .s n => n.toNat % w == 0
  | .c k => k != .half || fp
  | .l _ => w == 1
  | .p _ => w == 1
  | .x _ => w == 1
  | .vx _ _ => true
  | .lit _ => decide (w ≤ 2)

/-- A source that is no literal. -/
def Src.noLit : Src → Bool
  | .lit _ => false
  | _ => true

/-- A uniform operand: s register, constant or literal (R363). -/
def Src.uniform : Src → Bool
  | .s _ => true
  | .c _ => true
  | .lit _ => true
  | _ => false

/-- A uniform operand of a 32-bit integer, literal admitted. -/
def Src.uniInt (s : Src) : Bool := s.uniform && s.ok 1 false

/-- A uniform operand of a 32-bit integer, no literal. -/
def Src.uniReg (s : Src) : Bool := s.uniInt && s.noLit

/-- The offset field of a per-lane memory operand: v or s register, or 0x180 (R364). -/
def Src.offLane : Src → Bool
  | .v _ => true
  | .s _ => true
  | .c k => k == .zero
  | _ => false

/-- The offset field of a per-group memory operand: s register or 0x180. -/
def Src.offUni : Src → Bool
  | .s _ => true
  | .c k => k == .zero
  | _ => false

/-- A value stored or combined by a memory-class instruction: direct or indexed v, s, constant or literal (R368). -/
def Src.memVal (w : Nat) (fp : Bool) : Src → Bool
  | .v n => Src.ok w fp (.v n)
  | .s n => Src.ok w fp (.s n)
  | .c k => Src.ok w fp (.c k)
  | .vx _ _ => true
  | .lit _ => decide (w ≤ 2)
  | _ => false

/-- A destination of `w` registers of the blocks 0x001 to 0x0FF: an s register only where every source is uniform or the
entry says so (`sOk`), a predicate only where the entry says so (R331, R332). -/
def Dst.ok (w : Nat) (pOk sOk : Bool) : Dst → Bool
  | .v n => n.toNat % w == 0
  | .s n => sOk && n.toNat % w == 0
  | .p _ => pOk
  | .x _ => w == 1
  | .vx _ _ => true

/-- A v destination, direct or indexed. -/
def Dst.vec (w : Nat) : Dst → Bool
  | .v n => n.toNat % w == 0
  | .vx _ _ => true
  | _ => false

/-- Latch capture asks for one 32-bit result per lane and a v destination or WBS (R337). -/
def Out.latchOk (o : Out) (w : Nat) : Bool :=
  match o.latch with
  | none => true
  | some _ => w == 1 && (match o.dst with
    | none => true
    | some d => d.vec 1)

/-- The destination holds under `f`; with WBS there is none. -/
def Out.dstOk (o : Out) (f : Dst → Bool) : Bool :=
  match o.dst with
  | none => true
  | some d => f d

/-- Last-use flags only on the sources the form has (R324, R325). -/
def luOk (lu : BitVec 3) (n : Nat) : Bool := decide (lu.toNat < 2 ^ n)

/-- Every source but the last is no literal (R327). -/
def onlyLastLit : List Src → Bool
  | [] => true
  | [_] => true
  | a :: rest => a.noLit && onlyLastLit rest

/-- The common conditions of the blocks 0x001 to 0x0FF, for sources `ss` and a result of `w` registers. -/
def Alu.ok (c : Alu) (w : Nat) (pOk : Bool) (ss : List Src) : Bool :=
  c.g.ok && luOk c.lu ss.length && onlyLastLit ss &&
    c.out.dstOk (Dst.ok w pOk (ss.all Src.uniform)) && c.out.latchOk w

/-- As `Alu.ok` for a form whose destination is a v register, direct or indexed. -/
def Alu.okVec (c : Alu) (w : Nat) (ss : List Src) : Bool :=
  c.g.ok && luOk c.lu ss.length && onlyLastLit ss && c.out.dstOk (Dst.vec w) && c.out.latchOk w

/-- As `Alu.okVec`, an s register being admitted too (GRED, BALLOT). -/
def Alu.okGroup (c : Alu) (n : Nat) : Bool :=
  c.g.ok && luOk c.lu n && c.out.dstOk (Dst.ok 1 false true) &&
    c.out.dstOk (fun d => match d with | .x _ => false | _ => true) && c.out.latchOk 1

def Ctl.ok (c : Ctl) (n : Nat) : Bool := c.g.ok && luOk c.lu n

def FTy.width : FTy → Nat
  | .f32 => 1
  | .f64 => 2

def LeaTy.width : LeaTy → Nat
  | .b32 => 1
  | _ => 2

def MovTy.width : MovTy → Nat
  | .b32 => 1
  | .b64 => 2
  | .b128 => 4

def NumTy.width : NumTy → Nat
  | .f64 => 2
  | _ => 1

def NumTy.floating : NumTy → Bool
  | .f16 | .bf16 | .f32 | .f64 => true
  | _ => false

/-- Registers of a loaded value. -/
def LdTy.width : LdTy → Nat
  | .b64 => 2
  | .b128 => 4
  | _ => 1

def StTy.width : StTy → Nat
  | .b64 => 2
  | .b128 => 4
  | _ => 1

def wideN (b : Bool) : Nat := if b then 2 else 1

/-- Where CVT admits a rounding suffix (R389). -/
def cvtRoundOk (dt st : NumTy) : Bool :=
  match st.floating, dt with
  | false, .f16 | false, .bf16 | false, .f32 | false, .f64 => true
  | true, .s16 | true, .z16 | true, .s32 | true, .z32 => true
  | true, .f16 | true, .bf16 => true
  | true, .f32 => st == .f64
  | _, _ => false

def Option.okBy {α : Type} (o : Option α) (f : α → Bool) : Bool :=
  match o with
  | none => true
  | some a => f a

/-- A rounding suffix and a literal exclude each other (R393). -/
def rndLit (r : Option Rnd) (last : Src) : Bool := r.isNone || last.noLit

/-- A memory operand of a per-lane form beside a value that may be a literal: under LIT imm is zero (R364). -/
def MemOp.okLane (m : MemOp) (last : Src) : Bool := m.off.offLane && (last.noLit || m.imm == 0)

def MemOp.okUni (m : MemOp) (last : Src) : Bool := m.off.offUni && (last.noLit || m.imm == 0)

def shflOk (wc : BitVec 3) (pd : Option (BitVec 3)) (b : Src) : Bool :=
  decide (wc.toNat ≤ 5) && (b.noLit || (wc == 0 && pd.isNone))

/-- SHFL's second source: v, s, constant or literal (R447). -/
def shflIdxOk : Src → Bool
  | .v _ | .s _ | .lit _ => true
  | .c k => k != .half
  | _ => false

def isV : Src → Bool
  | .v _ => true
  | _ => false

def atomOk (c : Ctl) (w : Nat) (fp : Bool) (d : Option Dst) (m : MemOp) (b : Src) : Bool :=
  c.ok 2 && Option.okBy d (Dst.vec w) && m.okLane b && b.memVal w fp

def redOk (c : Ctl) (w : Nat) (fp : Bool) (m : MemOp) (b : Src) : Bool :=
  c.ok 2 && m.okLane b && b.memVal w fp

def borOk (c : Ctl) (sa : BitVec 7) (sl : Src) : Bool :=
  c.ok 2 && sa.toNat % 2 == 0 && sl.uniInt

/-- The 64-bit operand of SIG and SIGW: even s register, constant or literal (R450, R452). -/
def sigVal (s : Src) : Bool := s.uniform && s.ok 2 false

/-- A PC pair: even v or s register (R378, R438). -/
def pcPair : Src → Bool
  | .v n => n.toNat % 2 == 0
  | .s n => n.toNat % 2 == 0
  | _ => false

def collOk (c : Ctl) (sc : BitVec 7) : Bool := c.ok 1 && sc.toNat % 4 == 0

def SReg.is64 : SReg → Bool
  | .clock | .time | .trappc | .faddr => true
  | _ => false

/-- RDSR names a direct v or s register, a pair for a 64-bit register, a v register for sr.lane (R339, R434). -/
def rdsrOk (c : Alu) (r : SReg) : Bool :=
  let w := wideN r.is64
  c.g.ok && luOk c.lu 0 && c.out.latchOk w &&
    c.out.dstOk (fun d => match d with
      | .v n => n.toNat % w == 0
      | .s n => n.toNat % w == 0 && r != .lane
      | _ => false)

/-- The conditions of R338 that are decided from the word. -/
def Instr.wf : Instr → Bool
  | .nop => true
  | .iadd c _ a b => c.ok 1 false [a, b] && a.ok 1 false && b.ok 1 false
  | .iaddCc c _ a b ci => c.ok 1 false [a, b, ci] && a.ok 1 false && b.ok 1 false && b.noLit &&
      (match ci with | .p _ => true | .c k => k == .zero || k == .one | _ => false)
  | .isub c _ a b => c.ok 1 false [a, b] && a.ok 1 false && b.ok 1 false
  | .imad c _ a b d => c.ok 1 false [a, b, d] && a.ok 1 false && b.ok 1 false && d.ok 1 false
  | .imadWide c _ a b d => c.ok 2 false [a, b, d] && a.ok 1 false && b.ok 1 false && d.ok 2 false
  | .imul c _ _ a b => c.ok 1 false [a, b] && a.ok 1 false && b.ok 1 false
  | .imnmx c _ _ a b => c.ok 1 false [a, b] && a.ok 1 false && b.ok 1 false
  | .isetp c _ _ _ a b => c.ok 2 && a.noLit && a.ok 1 false && b.ok 1 false
  | .idp4 c _ _ a b d => c.ok 1 false [a, b, d] && a.ok 1 false && b.ok 1 false && d.ok 1 false
  | .lop3 c _ a b d => c.ok 1 true [a, b, d] && a.ok 1 false && b.ok 1 false && d.ok 1 false && d.noLit
  | .shl c a b => c.ok 1 false [a, b] && a.ok 1 false && b.ok 1 false
  | .shr c _ a b => c.ok 1 false [a, b] && a.ok 1 false && b.ok 1 false
  | .bfe c _ a b d => c.ok 1 false [a, b, d] && a.ok 1 false && b.ok 1 false && d.ok 1 false
  | .bfi c a b d => c.ok 1 false [a, b, d] && a.ok 1 false && b.ok 1 false && d.ok 1 false
  | .brev c a => c.ok 1 false [a] && a.ok 1 false
  | .clz c a => c.ok 1 false [a] && a.ok 1 false
  | .popc c a => c.ok 1 false [a] && a.ok 1 false
  | .lea c t a b n => c.ok t.width false [a, b, n] && a.ok t.width false && b.ok 1 false && n.ok 1 false
  | .prmt c a b d => c.ok 1 false [a, b, d] && a.ok 1 false && b.ok 1 false && d.ok 1 false
  | .sel c w _ pc a b => c.ok (wideN w) false [.p pc, a, b] && a.ok (wideN w) false && b.ok (wideN w) false
  | .mov c t a => c.g.ok && luOk c.lu 1 && a.ok t.width false && c.out.latchOk t.width &&
      c.out.dstOk (Dst.ok t.width (t == .b32) (t == .b32))
  | .fadd c t r a b => c.ok t.width false [a, b] && a.ok t.width true && b.ok t.width true && rndLit r b
  | .fsub c t r a b => c.ok t.width false [a, b] && a.ok t.width true && b.ok t.width true && rndLit r b
  | .fmul c t r a b => c.ok t.width false [a, b] && a.ok t.width true && b.ok t.width true && rndLit r b
  | .ffma c t r a b d => c.ok t.width false [a, b, d] && a.ok t.width true && b.ok t.width true &&
      d.ok t.width true && rndLit r d
  | .fmnmx c t _ a b => c.ok t.width false [a, b] && a.ok t.width true && b.ok t.width true
  | .fsetp c _ t _ a b => c.ok 2 && a.noLit && a.ok t.width true && b.ok t.width true
  | .fclass c t a m => c.ok 1 true [a, m] && a.ok t.width true && m.ok 1 false
  | .fdot2 c _ a b d => c.ok 1 false [a, b, d] && a.ok 1 true && b.ok 1 true && d.ok 1 true
  | .sfnRcp c a => c.ok 1 false [a] && a.ok 1 true
  | .sfnRsq c a => c.ok 1 false [a] && a.ok 1 true
  | .sfnSqrt c a => c.ok 1 false [a] && a.ok 1 true
  | .sfnExp2 c a => c.ok 1 false [a] && a.ok 1 true
  | .sfnLog2 c a => c.ok 1 false [a] && a.ok 1 true
  | .sfnSin c a => c.ok 1 false [a] && a.ok 1 true
  | .sfnCos c a => c.ok 1 false [a] && a.ok 1 true
  | .sfnTanh c a => c.ok 1 false [a] && a.ok 1 true
  | .hadd2 c _ a b => c.ok 1 false [a, b] && a.ok 1 true && b.ok 1 true
  | .hmul2 c _ a b => c.ok 1 false [a, b] && a.ok 1 true && b.ok 1 true
  | .hfma2 c _ a b d => c.ok 1 false [a, b, d] && a.ok 1 true && b.ok 1 true && d.ok 1 true
  | .cvt c dt ty r a => c.ok dt.width false [a] && a.ok ty.width ty.floating && a.noLit && dt != ty &&
      (r.isNone || cvtRoundOk dt ty)
  | .cbenc c _ a k => c.ok 1 false [a, k] && a.ok 1 false && k.uniInt
  | .cbdec c a k => c.g.ok && luOk c.lu 2 && a.noLit && a.ok 1 false && k.uniInt && c.out.latch.isNone &&
      c.out.dstOk (fun d => match d with | .v n => n.toNat % 4 == 0 | _ => false)
  | .shflIdx c _ wc pd a b => c.okVec 1 [a, b] && a.ok 1 false && shflIdxOk b && shflOk wc pd b
  | .shflUp c _ wc pd a b => c.okVec 1 [a, b] && a.ok 1 false && shflIdxOk b && shflOk wc pd b
  | .shflDown c _ wc pd a b => c.okVec 1 [a, b] && a.ok 1 false && shflIdxOk b && shflOk wc pd b
  | .shflXor c _ wc pd a b => c.okVec 1 [a, b] && a.ok 1 false && shflIdxOk b && shflOk wc pd b
  | .voteAll c _ _ _ => c.ok 1
  | .voteAny c _ _ _ => c.ok 1
  | .voteUni c _ _ _ => c.ok 1
  | .ballot c _ _ => c.okGroup 1
  | .matchAny c w a => c.okVec 1 [a] && a.ok (wideN w) false && a.noLit
  | .matchAll c w _ a => c.okVec 1 [a] && a.ok (wideN w) false && a.noLit
  | .gred c _ a => c.okGroup 1 && (match a with | .v _ | .vx _ _ => true | _ => false)
  | .elect g d => g.ok && (match d with | .p _ | .s _ => true | _ => false)
  | .bra g _ _ => g.ok
  | .brx c a _ => c.ok 1 && pcPair a
  | .call g d _ _ => g.ok && (match d with | .v n => n.toNat % 2 == 0 | .s n => n.toNat % 2 == 0 | _ => false)
  | .ret g a => g.ok && pcPair a
  | .exit g => g.ok
  | .conv => true
  | .yield g => g.ok
  | .bkpt g => g.ok
  | .trap g sv => g.ok && sv.uniInt
  | .tret => true
  | .tretSkip => true
  | .ld c t d m => c.ok 1 && Option.okBy d (Dst.vec t.width) && m.off.offLane
  | .ldSupv c t d off _ => c.ok 1 && Option.okBy d (Dst.vec t.width) && off.offLane
  | .st c t m b => c.ok 2 && m.okLane b && b.memVal t.width false &&
      (b.noLit || t == .b32 || t == .b64)
  | .stSupv c t off imm b => c.ok 2 && off.offLane && b.memVal t.width false &&
      (b.noLit || (imm == 0 && (t == .b32 || t == .b64)))
  | .ldf g _ _ m _ sk => g.ok && m.okUni sk && sk.uniInt
  | .stf g _ _ m _ sk => g.ok && m.okUni sk && sk.uniInt
  | .prefL1 c m => c.ok 1 && m.off.offLane
  | .prefL2 c m => c.ok 1 && m.off.offLane
  | .cbld c m k => c.ok 2 && m.okUni k && k.uniInt
  | .atomAdd c _ _ w d m b => atomOk c (wideN w) false d m b
  | .atomMin c _ _ _ d m b => atomOk c 1 false d m b
  | .atomMax c _ _ _ d m b => atomOk c 1 false d m b
  | .atomAnd c _ _ w d m b => atomOk c (wideN w) false d m b
  | .atomOr c _ _ w d m b => atomOk c (wideN w) false d m b
  | .atomXor c _ _ w d m b => atomOk c (wideN w) false d m b
  | .atomExch c _ _ w d m b => atomOk c (wideN w) false d m b
  | .atomAddf c _ _ d m b => atomOk c 1 true d m b
  | .redAdd c _ _ w m b => redOk c (wideN w) false m b
  | .redMin c _ _ _ m b => redOk c 1 false m b
  | .redMax c _ _ _ m b => redOk c 1 false m b
  | .redAnd c _ _ w m b => redOk c (wideN w) false m b
  | .redOr c _ _ w m b => redOk c (wideN w) false m b
  | .redXor c _ _ w m b => redOk c (wideN w) false m b
  | .redAddf c _ _ m b => redOk c 1 true m b
  | .cas c _ _ w d m cv nv => c.ok 3 && Option.okBy d (Dst.vec (wideN w)) && m.okLane nv &&
      cv.memVal (wideN w) false && cv.noLit && nv.memVal (wideN w) false
  | .borX c _ _ sa sl => borOk c sa sl
  | .borS c _ _ sa sl => borOk c sa sl
  | .borA c _ _ sa sl => borOk c sa sl
  | .borO c _ _ sa sl => borOk c sa sl
  | .borXTry c _ _ sa sl => borOk c sa sl
  | .borSTry c _ _ sa sl => borOk c sa sl
  | .borATry c _ _ sa sl => borOk c sa sl
  | .borOTry c _ _ sa sl => borOk c sa sl
  | .rebor c _ _ so sl => c.ok 2 && so.uniReg && sl.uniInt
  | .reborS c _ _ so sl => c.ok 2 && so.uniReg && sl.uniInt
  | .split g _ _ sg sn sm => g.ok && sg.uniReg && sn.uniReg && sm.uniInt
  | .join g _ => g.ok
  | .retb g _ => g.ok
  | .qset c _ _ so sl => c.ok 2 && so.uniReg && sl.uniInt
  | .qsetEmpty g _ => g.ok
  | .qinfo g _ _ _ => g.ok
  | .barArrive c _ sk sn => c.ok 2 && sk.uniReg && sn.uniInt
  | .barWait c sk sp => c.ok 2 && sk.uniReg && sp.uniInt
  | .barSync c sk sn => c.ok 2 && sk.uniReg && sn.uniInt
  | .mbarInit g m sc => g.ok && m.okUni sc && sc.uniInt
  | .mbarExpect g m sx => g.ok && m.okUni sx && sx.uniInt
  | .mbarArrive g _ m => g.ok && m.off.offUni
  | .mbarTrywait g _ m sp => g.ok && m.okUni sp && sp.uniInt
  | .mbarWait g m sp => g.ok && m.okUni sp && sp.uniInt
  | .fence g _ => g.ok
  | .fenceLayout g => g.ok
  | .sigDec g _ m sv => g.ok && m.okUni sv && sigVal sv
  | .sigAdd g _ m sv => g.ok && m.okUni sv && sigVal sv
  | .sigSet g _ m sv => g.ok && m.okUni sv && sigVal sv
  | .sigw g _ _ m c => g.ok && m.okUni c && sigVal c
  | .ftile g sd => g.ok && sd.toNat % 4 == 0
  | .mma g _ so => g.ok && (so.uniInt || isV so)
  | .accZero g ti => g.ok && ti.uniInt
  | .accLd g _ _ ti sb => g.ok && ti.uniReg && sb.uniInt
  | .accSt g _ _ ti sb => g.ok && ti.uniReg && sb.uniInt
  | .accDrain g _ m ti sl sm => g.ok && m.okUni sl && ti.uniReg && sl.uniInt && sm.uniReg
  | .copyLin c _ _ _ sa sb sl => c.ok 3 && sa.uniReg && sb.uniReg && sl.uniReg
  | .copyTileLd c _ _ _ so sc => c.ok 2 && so.uniReg && sc.toNat % 8 == 0
  | .copyTileSt c _ _ _ so sc => c.ok 2 && so.uniReg && sc.toNat % 8 == 0
  | .copyGather c _ _ _ so sb sc => c.ok 3 && so.uniReg && sb.uniReg && sc.toNat % 4 == 0
  | .copyLinMb c sm _ _ sa sb sl => c.ok 3 && sm.uniReg && sa.uniReg && sb.uniReg && sl.uniReg
  | .copyTileLdMb c _ _ so sc => c.ok 2 && so.uniReg && sc.toNat % 8 == 0
  | .copyTileStMb c _ _ so sc => c.ok 2 && so.uniReg && sc.toNat % 8 == 0
  | .copyGatherMb c _ _ so sb sc => c.ok 3 && so.uniReg && sb.uniReg && sc.toNat % 8 == 0
  | .sweepWb g _ _ so sl => g.ok && so.offUni && sl.uniInt
  | .sweepInv g _ _ so sl => g.ok && so.offUni && sl.uniInt
  | .sweepWbinv g _ _ so sl => g.ok && so.offUni && sl.uniInt
  | .sweepWbMb g sm _ so sl => g.ok && sm.uniReg && so.offUni && sl.uniInt
  | .sweepInvMb g sm _ so sl => g.ok && sm.uniReg && so.offUni && sl.uniInt
  | .sweepWbinvMb g sm _ so sl => g.ok && sm.uniReg && so.offUni && sl.uniInt
  | .rld c t _ d _ vo => c.ok 1 && d.toNat % t.width == 0 && vo.offLane
  | .rst c t _ _ vo vs => c.ok 2 && vs.toNat % t.width == 0 && vo.offLane
  | .rmst c _ sg _ sb sc => c.ok 3 && sg.uniReg && sb.uniReg && sc.toNat % 4 == 0
  | .rflush g _ _ => g.ok
  | .rflushMc c _ sg so => c.ok 2 && sg.uniReg && so.uniInt
  | .migrateAddr lu m => luOk lu 1 && (match m.off with
      | .s _ => true | .c k => k == .zero | .lit _ => m.imm == 0 | _ => false)
  | .migrateHome => true
  | .collAllred c _ _ _ _ _ _ sc => collOk c sc
  | .collRedsc c _ _ _ _ _ _ sc => collOk c sc
  | .collAllga c _ _ _ _ _ sc => collOk c sc
  | .collBcast c _ _ _ _ _ sc => collOk c sc
  | .rdsr c r => rdsrOk c r
  | .wrsr c _ a => c.ok 1 && a.noLit && a.ok 1 false && (match a with | .v _ | .s _ | .c _ => true | _ => false)
  | .mtrVf g sd => g.ok && sd.toNat % 2 == 0
  | .mtrLaunch g sd => g.ok && sd.toNat % 2 == 0
  | .mtrTeam g sd => g.ok && sd.toNat % 2 == 0
  | .mtrQuota g sd => g.ok && sd.toNat % 2 == 0
  | .yardAnswer .. => true
  | .capture .. => true
  | .mmaComplete .. => true
  | .rendezvousWithdrawal .. => true
  | .copyComplete .. => true
  | .sweepComplete .. => true
  | .landing .. => true
  | .flushByContextTag .. => true
  | .flushAcknowledge .. => true
  | .inNetworkReduction .. => true
  | .groupActivation .. => true
  | .swapOut .. => true
  | .registerFill .. => true
  | .loadComplete .. => true
  | .impreciseFault .. => true
  | .lineFill .. => true
  | .claim .. => true
  | .grant .. => true
  | .refuse .. => true
  | .release .. => true
  | .withdraw .. => true
  | .writeBackResponse .. => true
  | .borrowTimeout .. => true
  | .claimSweep .. => true
  | .walkComplete .. => true
  | .pageMissEntryTake .. => true
  | .faultBufferMove .. => true
  | .reportingRound => true
  | .launch .. => true
  | .waitsig .. => true
  | .setsigSet .. => true
  | .setsigAdd .. => true
  | .setsigDec .. => true
  | .hcopy .. => true
  | .hcopyComplete .. => true
  | .mark .. => true
  | .resume .. => true
  | .doorbell => true
  | .queueEnable => true
  | .dispatch => true
  | .coreGrant .. => true
  | .teamPlacement .. => true
  | .teamCompletion .. => true
  | .completionRecord .. => true
  | .periodStart => true
  | .sliceEnd .. => true
  | .sliceEndEviction .. => true
  | .blockingPointEviction .. => true
  | .teamRestore .. => true
  | .posting => true
  | .forcedFullSave .. => true
  | .stopComplete .. => true
  | .sharedCosts => true
  | .reconciliation => true
  | .hang .. => true
  | .signalPoll .. => true
  | .throttleStep => true
  | .thermalShutdown => true
  | .replayAll => true
  | .inval => true
  | .invalComplete .. => true
  | .mappingRequest => true
  | .quotaWrite => true
  | .checkpoint => true
  | .residentWrite => true
  | .supvWrite => true
  | .registerWrite => true
  | .drainedWrite => true
  | .sealreq => true
  | .auditAppend => true
  | .scrub .. => true
  | .scrubComplete .. => true
  | .deviceReset => true
  | .unitBringup => true
  | .firmwareUpdate => true
  | .partitionConfiguration => true
  | .vfCreation => true
  | .vfReset => true
  | .vfRelease => true
  | .stage2Change => true
  | .errorDetected => true
  | .selfTest => true
  | .getVersion => true
  | .getCapabilities => true
  | .negotiateAlgorithms => true
  | .getDigests => true
  | .getCertificate => true
  | .challenge => true
  | .getMeasurements => true
  | .keyExchange => true
  | .sessionFinish => true
  | .endSession => true
  | .vendorDefinedMessage => true
  | .ideKmKeyProgramming => true
  | .lockInterface => true
  | .stopInterface => true
  | .ideIntegrityFailure => true
  | .debugStop => true
  | .debugRead => true
  | .debugWrite => true
  | .debugStep => true
  | .debugCancel => true
  | .debugCancelBor => true
  | .debugResume => true
  | .exportWindow => true
  | .importWindow => true
  | .revoke => true
  | .revocationNotice => true
  | .revocationComplete .. => true
  | .peerGrantTimeout .. => true
  | .multicastGroupRegistration => true
  | .multicastReplication .. => true
  | .peerRequest => true
  | .peerAnswer => true
  | .flushNotice .. => true
  | .resend .. => true
  | .peerTimeout .. => true
  | .connectionRefill => true
  | .deviceLeavesPod => true
  | .unassignedOpc .. => true
  | .l1WriteBack .. => true
  | .atomicAcknowledgement .. => true
  | .startInterface => true
  | .rateLimiterWindow .. => true
  | .importFree => true

end Sys2Proof
end

