-- ==== Sys2Proof/Decode.lean ====
section
/-! DEFINITION. The instruction word of R324, its decoder and its encoder; the entry formats of the host commands
(R270, R274, R275); the fetch line (R318, R319). A word is accepted only if the instruction it decodes to encodes back to
it, which is R325's rule that every unused field and bit is zero. -/

namespace Sys2Proof

/-! ## The fields of a word -/

/-- The fields of an instruction word (R324). Under LIT the literal lies in src2 and aux (R327). -/
structure Raw where
  opc : BitVec 10
  lit : Bool := false
  gp : BitVec 3 := 0
  gn : Bool := false
  dst : BitVec 10 := 0
  wbs : Bool := false
  src0 : BitVec 10 := 0
  src1 : BitVec 10 := 0
  src2 : BitVec 10 := 0
  aux : BitVec 22 := 0
  lu : BitVec 3 := 0
  qs : BitVec 4 := 0
  mod : BitVec 6 := 0
  ld : BitVec 2 := 0
  lde : Bool := false
  res : BitVec 2 := 0
deriving DecidableEq, Repr

def Raw.toWord (r : Raw) : BitVec 96 :=
  r.res ++ (BitVec.ofBool r.lde ++ (r.ld ++ (r.mod ++ (r.qs ++ (r.lu ++ (r.aux ++ (r.src2 ++ (r.src1 ++ (r.src0 ++
    (BitVec.ofBool r.wbs ++ (r.dst ++ (BitVec.ofBool r.gn ++ (r.gp ++ (BitVec.ofBool r.lit ++ r.opc))))))))))))))

def Raw.ofWord (w : BitVec 96) : Raw where
  opc := w.extractLsb' 0 10
  lit := w.getLsbD 10
  gp := w.extractLsb' 11 3
  gn := w.getLsbD 14
  dst := w.extractLsb' 15 10
  wbs := w.getLsbD 25
  src0 := w.extractLsb' 26 10
  src1 := w.extractLsb' 36 10
  src2 := w.extractLsb' 46 10
  aux := w.extractLsb' 56 22
  lu := w.extractLsb' 78 3
  qs := w.extractLsb' 81 4
  mod := w.extractLsb' 85 6
  ld := w.extractLsb' 91 2
  lde := w.getLsbD 93
  res := w.extractLsb' 94 2

/-- The literal of R327, bits [77:46]. -/
def Raw.imm (r : Raw) : BitVec 32 := r.aux ++ r.src2

/-! ## Operand fields -/

/-- The encoding of a source (R329); a literal leaves its field zero (R327). -/
def Src.enc : Src → BitVec 10
  | .v n => 0b00#2 ++ n
  | .s n => 0b010#3 ++ n
  | .c .zero => 0x180
  | .c .one => 0x181
  | .c .negOne => 0x182
  | .c .half => 0x183
  | .c .two => 0x184
  | .l n => 0b10000000#8 ++ n
  | .p n => 0b1000010#7 ++ n
  | .x n => 0b10001000#8 ++ n
  | .vx i k => 0b11#2 ++ i ++ k
  | .lit _ => 0

/-- A source field (R329); none for a reserved encoding. -/
def Src.dec (f : BitVec 10) : Option Src :=
  if f.toNat < 0x100 then some (.v (f.extractLsb' 0 8))
  else if f.toNat < 0x180 then some (.s (f.extractLsb' 0 7))
  else if f == 0x180 then some (.c .zero)
  else if f == 0x181 then some (.c .one)
  else if f == 0x182 then some (.c .negOne)
  else if f == 0x183 then some (.c .half)
  else if f == 0x184 then some (.c .two)
  else if f.toNat < 0x200 then none
  else if f.toNat < 0x204 then some (.l (f.extractLsb' 0 2))
  else if f.toNat < 0x210 then none
  else if f.toNat < 0x218 then some (.p (f.extractLsb' 0 3))
  else if f.toNat < 0x220 then none
  else if f.toNat < 0x224 then some (.x (f.extractLsb' 0 2))
  else if f.toNat < 0x300 then none
  else some (.vx (f.extractLsb' 6 2) (f.extractLsb' 0 6))

/-- The encoding of a destination (R332). -/
def Dst.enc : Dst → BitVec 10
  | .v n => 0b00#2 ++ n
  | .s n => 0b010#3 ++ n
  | .p n => 0b1000010#7 ++ n
  | .x n => 0b10001000#8 ++ n
  | .vx i k => 0b11#2 ++ i ++ k

/-- A destination field (R332); none for every other encoding, latches and constants included. -/
def Dst.dec (f : BitVec 10) : Option Dst :=
  if f.toNat < 0x100 then some (.v (f.extractLsb' 0 8))
  else if f.toNat < 0x180 then some (.s (f.extractLsb' 0 7))
  else if f.toNat < 0x210 then none
  else if f.toNat < 0x218 then some (.p (f.extractLsb' 0 3))
  else if f.toNat < 0x220 then none
  else if f.toNat < 0x224 then some (.x (f.extractLsb' 0 2))
  else if f.toNat < 0x300 then none
  else some (.vx (f.extractLsb' 6 2) (f.extractLsb' 0 6))

/-! ## Code tables (R153, R273, R339, R360) -/

def Sgn.enc : Sgn → BitVec 4
  | .s32 => 4
  | .z32 => 5

def Sgn.dec (c : BitVec 4) : Option Sgn := if c == 4 then some .s32 else if c == 5 then some .z32 else none

def Sgn.bit : Sgn → Bool
  | .s32 => false
  | .z32 => true

def Sgn.ofBit (b : Bool) : Sgn := if b then .z32 else .s32

def FTy.enc : FTy → BitVec 4
  | .f32 => 11
  | .f64 => 12

def FTy.dec (c : BitVec 4) : Option FTy := if c == 11 then some .f32 else if c == 12 then some .f64 else none

def FTy.bit : FTy → Bool
  | .f32 => false
  | .f64 => true

def FTy.ofBit (b : Bool) : FTy := if b then .f64 else .f32

def HTy.enc : HTy → BitVec 4
  | .f16 => 9
  | .bf16 => 10

def HTy.dec (c : BitVec 4) : Option HTy := if c == 9 then some .f16 else if c == 10 then some .bf16 else none

def Rnd.enc : Rnd → BitVec 2
  | .rn => 0
  | .rz => 1
  | .ru => 2
  | .rd => 3

def Rnd.dec (c : BitVec 2) : Rnd := if c == 0 then .rn else if c == 1 then .rz else if c == 2 then .ru else .rd

/-- The RE bit with its rounding code: the code is read only with RE set (R389, R393). -/
def Rnd.decRE (re : Bool) (c : BitVec 2) : Option Rnd := if re then some (Rnd.dec c) else none

def Rnd.encRE : Option Rnd → BitVec 2
  | none => 0
  | some r => r.enc

def Cmp.enc : Cmp → BitVec 3
  | .eq => 0
  | .ne => 1
  | .le => 2
  | .ge => 3
  | .lt => 4
  | .gt => 5

def Cmp.dec (c : BitVec 3) : Option Cmp :=
  if c == 0 then some .eq else if c == 1 then some .ne else if c == 2 then some .le
  else if c == 3 then some .ge else if c == 4 then some .lt else if c == 5 then some .gt else none

def LeaTy.enc : LeaTy → BitVec 6
  | .b32 => 6
  | .s64 => 7
  | .z64 => 0x17

def LeaTy.dec (c : BitVec 6) : Option LeaTy :=
  if c == 6 then some .b32 else if c == 7 then some .s64 else if c == 0x17 then some .z64 else none

def MovTy.enc : MovTy → BitVec 6
  | .b32 => 6
  | .b64 => 7
  | .b128 => 8

def MovTy.dec (c : BitVec 6) : Option MovTy :=
  if c == 6 then some .b32 else if c == 7 then some .b64 else if c == 8 then some .b128 else none

def NumTy.enc : NumTy → BitVec 4
  | .s8 => 0
  | .z8 => 1
  | .s16 => 2
  | .z16 => 3
  | .s32 => 4
  | .z32 => 5
  | .f16 => 9
  | .bf16 => 10
  | .f32 => 11
  | .f64 => 12

def NumTy.dec (c : BitVec 4) : Option NumTy :=
  if c == 0 then some .s8 else if c == 1 then some .z8 else if c == 2 then some .s16
  else if c == 3 then some .z16 else if c == 4 then some .s32 else if c == 5 then some .z32
  else if c == 9 then some .f16 else if c == 10 then some .bf16 else if c == 11 then some .f32
  else if c == 12 then some .f64 else none

/-- AUX[2:0] and MOD[3:0] of GRED (R404). -/
def GredOp.enc : GredOp → BitVec 3 × BitVec 4
  | .addS => (0, 4)
  | .addZ => (0, 5)
  | .addF => (0, 11)
  | .minS => (1, 4)
  | .minZ => (1, 5)
  | .minF => (1, 11)
  | .maxS => (2, 4)
  | .maxZ => (2, 5)
  | .maxF => (2, 11)
  | .and => (3, 6)
  | .or => (4, 6)
  | .xor => (5, 6)

def GredOp.dec (o : BitVec 3) (t : BitVec 4) : Option GredOp :=
  if o == 0 then (if t == 4 then some .addS else if t == 5 then some .addZ else if t == 11 then some .addF else none)
  else if o == 1 then (if t == 4 then some .minS else if t == 5 then some .minZ else if t == 11 then some .minF else none)
  else if o == 2 then (if t == 4 then some .maxS else if t == 5 then some .maxZ else if t == 11 then some .maxF else none)
  else if t == 6 then (if o == 3 then some .and else if o == 4 then some .or else if o == 5 then some .xor else none)
  else none

def LdTy.enc : LdTy → BitVec 4
  | .s8 => 0
  | .z8 => 1
  | .s16 => 2
  | .z16 => 3
  | .b32 => 6
  | .b64 => 7
  | .b128 => 8

def LdTy.dec (c : BitVec 4) : Option LdTy :=
  if c == 0 then some .s8 else if c == 1 then some .z8 else if c == 2 then some .s16 else if c == 3 then some .z16
  else if c == 6 then some .b32 else if c == 7 then some .b64 else if c == 8 then some .b128 else none

def StTy.enc : StTy → BitVec 4
  | .z8 => 1
  | .z16 => 3
  | .b32 => 6
  | .b64 => 7
  | .b128 => 8

def StTy.dec (c : BitVec 4) : Option StTy :=
  if c == 1 then some .z8 else if c == 3 then some .z16 else if c == 6 then some .b32 else if c == 7 then some .b64
  else if c == 8 then some .b128 else none

def MOrd.enc : MOrd → BitVec 2
  | .relaxed => 0
  | .acq => 1
  | .rel => 2
  | .acqrel => 3

def MOrd.dec (c : BitVec 2) : MOrd := if c == 0 then .relaxed else if c == 1 then .acq else if c == 2 then .rel else .acqrel

def ROrd.enc : ROrd → BitVec 2
  | .relaxed => 0
  | .rel => 2

def ROrd.dec (c : BitVec 2) : Option ROrd := if c == 0 then some .relaxed else if c == 2 then some .rel else none

def Scope.enc : Scope → BitVec 3
  | .group => 0
  | .team => 1
  | .cluster => 2
  | .die => 3
  | .device => 4
  | .tenant => 5
  | .system => 6

def Scope.dec (c : BitVec 3) : Option Scope :=
  if c == 0 then some .group else if c == 1 then some .team else if c == 2 then some .cluster
  else if c == 3 then some .die else if c == 4 then some .device else if c == 5 then some .tenant
  else if c == 6 then some .system else none

def FragTy.enc : FragTy → BitVec 4
  | .bf16 => 10
  | .f16 => 9
  | .s8 => 0
  | .z8 => 1
  | .c4 => 13

def FragTy.dec (c : BitVec 4) : Option FragTy :=
  if c == 10 then some .bf16 else if c == 9 then some .f16 else if c == 0 then some .s8 else if c == 1 then some .z8
  else if c == 13 then some .c4 else none

def AccTy.enc : AccTy → BitVec 4
  | .f32 => 11
  | .bf16 => 10
  | .f16 => 9
  | .s32 => 4
  | .s16 => 2
  | .s8 => 0
  | .z8 => 1

def AccTy.dec (c : BitVec 4) : Option AccTy :=
  if c == 11 then some .f32 else if c == 10 then some .bf16 else if c == 9 then some .f16 else if c == 4 then some .s32
  else if c == 2 then some .s16 else if c == 0 then some .s8 else if c == 1 then some .z8 else none

def DrainTy.enc : DrainTy → BitVec 4
  | .f32 => 11
  | .bf16 => 10
  | .f16 => 9
  | .s32 => 4
  | .s8 => 0
  | .z8 => 1

def DrainTy.dec (c : BitVec 4) : Option DrainTy :=
  if c == 11 then some .f32 else if c == 10 then some .bf16 else if c == 9 then some .f16 else if c == 4 then some .s32
  else if c == 0 then some .s8 else if c == 1 then some .z8 else none

def LocalKind.enc : LocalKind → BitVec 4
  | .prv => 8
  | .scr => 9
  | .clu => 10
  | .dsp => 11

def LocalKind.dec (c : BitVec 4) : Option LocalKind :=
  if c == 8 then some .prv else if c == 9 then some .scr else if c == 10 then some .clu else if c == 11 then some .dsp
  else none

def CollTy.enc : CollTy → BitVec 4
  | .f32 => 11
  | .bf16 => 10
  | .s32 => 4

def CollTy.dec (c : BitVec 4) : Option CollTy :=
  if c == 11 then some .f32 else if c == 10 then some .bf16 else if c == 4 then some .s32 else none

def CollOp.enc : CollOp → BitVec 2
  | .sum => 0
  | .min => 1
  | .max => 2

def CollOp.dec (c : BitVec 2) : Option CollOp :=
  if c == 0 then some .sum else if c == 1 then some .min else if c == 2 then some .max else none

def SReg.enc : SReg → BitVec 8
  | .lane => 0x00
  | .group => 0x01
  | .ngroups => 0x02
  | .team => 0x03
  | .core => 0x04
  | .sect => 0x05
  | .die => 0x06
  | .crew => 0x07
  | .role => 0x08
  | .vf => 0x09
  | .part => 0x0A
  | .clock => 0x10
  | .time => 0x11
  | .fmode => 0x18
  | .status => 0x19
  | .xlim => 0x1A
  | .frag => 0x20
  | .parent => 0x21
  | .sibs => 0x22
  | .cause => 0x28
  | .trappc => 0x29
  | .skid => 0x2A
  | .faddr => 0x2B

/-- Every special register with its number (R339). -/
def SReg.all : List SReg :=
  [.lane, .group, .ngroups, .team, .core, .sect, .die, .crew, .role, .vf, .part, .clock, .time, .fmode, .status, .xlim,
   .frag, .parent, .sibs, .cause, .trappc, .skid, .faddr]

def SReg.dec (c : BitVec 8) : Option SReg := SReg.all.find? (fun r => r.enc == c)

def WReg.enc : WReg → BitVec 8
  | .fmode => 0x18
  | .status => 0x19
  | .xlim => 0x1A

def WReg.dec (c : BitVec 8) : Option WReg :=
  if c == 0x18 then some .fmode else if c == 0x19 then some .status else if c == 0x1A then some .xlim else none

/-! ## Shared pieces of the encoder -/

def Raw.withGuard (r : Raw) (g : Guard) : Raw := { r with gp := g.gp, gn := g.gn }

def Raw.withOut (r : Raw) (o : Out) : Raw :=
  { r with
    dst := match o.dst with | some d => d.enc | none => 0
    wbs := o.dst.isNone
    ld := match o.latch with | some n => n | none => 0
    lde := o.latch.isSome }

/-- The last source the form uses sits in field `k`, or is the literal of bits [77:46] (R327). -/
def Raw.withLast (r : Raw) (k : Fin 3) (s : Src) : Raw :=
  match s with
  | .lit l => { r with lit := true, src2 := l.extractLsb' 0 10, aux := l.extractLsb' 10 22 }
  | _ =>
    match k with
    | 0 => { r with src0 := s.enc }
    | 1 => { r with src1 := s.enc }
    | 2 => { r with src2 := s.enc }

def Raw.ofAlu (opc : BitVec 10) (c : Alu) : Raw := (({ opc := opc, lu := c.lu } : Raw).withGuard c.g).withOut c.out

def Raw.ofCtl (opc : BitVec 10) (c : Ctl) : Raw := ({ opc := opc, lu := c.lu } : Raw).withGuard c.g

def Raw.ofG (opc : BitVec 10) (g : Guard) : Raw := ({ opc := opc } : Raw).withGuard g

/-- One source, in SRC0. -/
def Raw.src (r : Raw) (a : Src) : Raw := r.withLast 0 a
/-- Two sources. -/
def Raw.srcs (r : Raw) (a b : Src) : Raw := { r with src0 := a.enc }.withLast 1 b
/-- Three sources. -/
def Raw.srcs3 (r : Raw) (a b d : Src) : Raw := { r with src0 := a.enc, src1 := b.enc }.withLast 2 d

/-- A memory operand: QS, SRC0 and AUX. -/
def Raw.mem (r : Raw) (m : MemOp) : Raw := { r with qs := m.q, src0 := m.off.enc, aux := m.imm }

/-- A destination with WBS for none. -/
def Raw.optDst (r : Raw) (d : Option Dst) : Raw :=
  { r with dst := (match d with | some x => x.enc | none => 0), wbs := d.isNone }

def Raw.sDst (r : Raw) (sd : BitVec 7) : Raw := { r with dst := Dst.enc (.s sd) }

def Raw.optS (r : Raw) (d : Option (BitVec 7)) : Raw := r.optDst (d.map Dst.s)

def Raw.fRnd (r : Raw) (t : FTy) (rn : Option Rnd) : Raw :=
  { r with aux := (if rn.isSome then 1 else 0), mod := Rnd.encRE rn ++ t.enc }

def Raw.withMod (r : Raw) (m : BitVec 6) : Raw := { r with mod := m }
def Raw.withAux (r : Raw) (a : BitVec 22) : Raw := { r with aux := a }
def Raw.withQ (r : Raw) (q : BitVec 4) : Raw := { r with qs := q }

/-- AUX of SHFL (R447). -/
def shflAux (wc : BitVec 3) (pd : Option (BitVec 3)) : BitVec 22 :=
  0#15 ++ (BitVec.ofBool pd.isSome ++ ((match pd with | some p => p | none => 0#3) ++ wc))

/-- MOD of ATOM and CAS (R368): T, scope, ordering. -/
def atomMod (o : MOrd) (sc : Scope) (t : Bool) : BitVec 6 := BitVec.ofBool t ++ (sc.enc ++ o.enc)
def redMod (o : ROrd) (sc : Scope) (t : Bool) : BitVec 6 := BitVec.ofBool t ++ (sc.enc ++ o.enc)

def Raw.atom (r : Raw) (d : Option Dst) (m : MemOp) (b : Src) : Raw := ((r.optDst d).mem m).withLast 1 b

def Raw.shfl (r : Raw) (z : Bool) (wc : BitVec 3) (pd : Option (BitVec 3)) (a b : Src) : Raw :=
  (({ r with aux := shflAux wc pd, mod := 0#1 ++ (BitVec.ofBool z ++ 6#4) }).srcs a b)

def Raw.bor (r : Raw) (sd : BitVec 7) (q : BitVec 4) (sa : BitVec 7) (sl : Src) : Raw :=
  ((r.sDst sd).withQ q).srcs (.s sa) sl

def Raw.coll (r : Raw) (sd : BitVec 7) (op : BitVec 2) (ty : CollTy) (fo : Bool) (qd qs : BitVec 4) (sc : BitVec 7) : Raw :=
  { (r.sDst sd).withQ qd with src0 := Src.enc (.s sc), aux := 0#17 ++ (BitVec.ofBool fo ++ qs), mod := op ++ ty.enc }

def unguarded : Guard := { gp := 7, gn := false }

/-! ## The encoder, from the encoding tables of the entries -/

/-- The fields of the word of a word form (R361 and the entries R366 to R469); none for an event. -/
def Instr.raw : Instr → Option Raw
  | .nop => some { opc := 0x000 }
  | .iadd c t a b => some (((Raw.ofAlu 0x001 c).withMod (0#2 ++ t.enc)).srcs a b)
  | .iaddCc c pco a b ci => some ((((Raw.ofAlu 0x001 c).withMod 0x15).withAux (0#19 ++ pco)).srcs3 a b ci)
  | .isub c t a b => some (((Raw.ofAlu 0x002 c).withMod (0#2 ++ t.enc)).srcs a b)
  | .imad c t a b d => some (((Raw.ofAlu 0x003 c).withMod (0#2 ++ t.enc)).srcs3 a b d)
  | .imadWide c t a b d => some (((Raw.ofAlu 0x003 c).withMod (1#2 ++ t.enc)).srcs3 a b d)
  | .imul c t hi a b => some (((Raw.ofAlu 0x004 c).withMod (0#1 ++ (BitVec.ofBool hi ++ t.enc))).srcs a b)
  | .imnmx c t mx a b => some (((Raw.ofAlu 0x005 c).withMod (0#1 ++ (BitVec.ofBool mx ++ t.enc))).srcs a b)
  | .isetp c pd t cmp a b =>
    some (({ Raw.ofCtl 0x006 c with dst := Dst.enc (.p pd), mod := 0#2 ++ (BitVec.ofBool t.bit ++ cmp.enc) }).srcs a b)
  | .idp4 c az bz a b d => some (((Raw.ofAlu 0x007 c).withMod (0#4 ++ (BitVec.ofBool bz ++ BitVec.ofBool az))).srcs3 a b d)
  | .lop3 c lut a b d => some ((((Raw.ofAlu 0x008 c).withMod 6).withAux (0#14 ++ lut)).srcs3 a b d)
  | .shl c a b => some (((Raw.ofAlu 0x009 c).withMod 6).srcs a b)
  | .shr c t a b => some (((Raw.ofAlu 0x00A c).withMod (0#2 ++ t.enc)).srcs a b)
  | .bfe c t a b d => some (((Raw.ofAlu 0x00B c).withMod (0#2 ++ t.enc)).srcs3 a b d)
  | .bfi c a b d => some (((Raw.ofAlu 0x00C c).withMod 6).srcs3 a b d)
  | .brev c a => some (((Raw.ofAlu 0x00D c).withMod 6).src a)
  | .clz c a => some (((Raw.ofAlu 0x00E c).withMod 6).src a)
  | .popc c a => some (((Raw.ofAlu 0x00F c).withMod 6).src a)
  | .lea c t a b n => some (((Raw.ofAlu 0x010 c).withMod t.enc).srcs3 a b n)
  | .prmt c a b d => some (((Raw.ofAlu 0x011 c).withMod 6).srcs3 a b d)
  | .sel c w neg pc a b =>
    some (((Raw.ofAlu 0x012 c).withMod (0#1 ++ (BitVec.ofBool neg ++ (if w then 7#4 else 6#4)))).srcs3 (.p pc) a b)
  | .mov c t a => some (((Raw.ofAlu 0x013 c).withMod t.enc).src a)
  | .fadd c t r a b => some (((Raw.ofAlu 0x040 c).fRnd t r).srcs a b)
  | .fsub c t r a b => some (((Raw.ofAlu 0x041 c).fRnd t r).srcs a b)
  | .fmul c t r a b => some (((Raw.ofAlu 0x042 c).fRnd t r).srcs a b)
  | .ffma c t r a b d => some (((Raw.ofAlu 0x043 c).fRnd t r).srcs3 a b d)
  | .fmnmx c t mx a b => some (((Raw.ofAlu 0x044 c).withMod (0#1 ++ (BitVec.ofBool mx ++ t.enc))).srcs a b)
  | .fsetp c pd t cmp a b =>
    some (({ Raw.ofCtl 0x045 c with dst := Dst.enc (.p pd), mod := 0#2 ++ (BitVec.ofBool t.bit ++ cmp.enc) }).srcs a b)
  | .fclass c t a m => some (((Raw.ofAlu 0x046 c).withMod (0#2 ++ t.enc)).srcs a m)
  | .fdot2 c t a b d => some (((Raw.ofAlu 0x047 c).withMod (0#2 ++ t.enc)).srcs3 a b d)
  | .sfnRcp c a => some (((Raw.ofAlu 0x048 c).withMod 11).src a)
  | .sfnRsq c a => some (((Raw.ofAlu 0x049 c).withMod 11).src a)
  | .sfnSqrt c a => some (((Raw.ofAlu 0x04A c).withMod 11).src a)
  | .sfnExp2 c a => some (((Raw.ofAlu 0x04B c).withMod 11).src a)
  | .sfnLog2 c a => some (((Raw.ofAlu 0x04C c).withMod 11).src a)
  | .sfnSin c a => some (((Raw.ofAlu 0x04D c).withMod 11).src a)
  | .sfnCos c a => some (((Raw.ofAlu 0x04E c).withMod 11).src a)
  | .sfnTanh c a => some (((Raw.ofAlu 0x04F c).withMod 11).src a)
  | .hadd2 c t a b => some (((Raw.ofAlu 0x050 c).withMod (0#2 ++ t.enc)).srcs a b)
  | .hmul2 c t a b => some (((Raw.ofAlu 0x051 c).withMod (0#2 ++ t.enc)).srcs a b)
  | .hfma2 c t a b d => some (((Raw.ofAlu 0x052 c).withMod (0#2 ++ t.enc)).srcs3 a b d)
  | .cvt c dt ty r a =>
    some (((Raw.ofAlu 0x080 c).withAux (0#11 ++ (BitVec.ofBool r.isSome ++ (Rnd.encRE r ++ (ty.enc ++ dt.enc))))).src a)
  | .cbenc c bf a k => some (((Raw.ofAlu 0x081 c).withMod (if bf then 10 else 11)).srcs a k)
  | .cbdec c a k => some (((Raw.ofAlu 0x082 c).withMod 10).srcs a k)
  | .shflIdx c z wc pd a b => some ((Raw.ofAlu 0x0C0 c).shfl z wc pd a b)
  | .shflUp c z wc pd a b => some ((Raw.ofAlu 0x0C1 c).shfl z wc pd a b)
  | .shflDown c z wc pd a b => some ((Raw.ofAlu 0x0C2 c).shfl z wc pd a b)
  | .shflXor c z wc pd a b => some ((Raw.ofAlu 0x0C3 c).shfl z wc pd a b)
  | .voteAll c pd neg pa =>
    some { Raw.ofCtl 0x0C4 c with dst := Dst.enc (.p pd), src0 := Src.enc (.p pa), mod := 0#5 ++ BitVec.ofBool neg }
  | .voteAny c pd neg pa =>
    some { Raw.ofCtl 0x0C5 c with dst := Dst.enc (.p pd), src0 := Src.enc (.p pa), mod := 0#5 ++ BitVec.ofBool neg }
  | .voteUni c pd neg pa =>
    some { Raw.ofCtl 0x0C6 c with dst := Dst.enc (.p pd), src0 := Src.enc (.p pa), mod := 0#5 ++ BitVec.ofBool neg }
  | .ballot c neg pa => some { Raw.ofAlu 0x0C7 c with src0 := Src.enc (.p pa), mod := 0#5 ++ BitVec.ofBool neg }
  | .matchAny c w a => some (((Raw.ofAlu 0x0C8 c).withMod (if w then 7 else 6)).src a)
  | .matchAll c w pd a => some ((((Raw.ofAlu 0x0C9 c).withMod (if w then 7 else 6)).withAux (0#19 ++ pd)).src a)
  | .gred c op a => some ((((Raw.ofAlu 0x0CA c).withMod (0#2 ++ op.enc.2)).withAux (0#19 ++ op.enc.1)).src a)
  | .elect g d => some { Raw.ofG 0x0CB g with dst := d.enc }
  | .bra g tg pr => some { Raw.ofG 0x100 g with aux := tg, src2 := 0#2 ++ pr }
  | .brx c a pr => some { Raw.ofCtl 0x101 c with src0 := a.enc, src2 := 0#2 ++ pr }
  | .call g d tg pr => some { Raw.ofG 0x102 g with dst := d.enc, aux := tg, src2 := 0#2 ++ pr }
  | .ret g a => some { Raw.ofG 0x103 g with src0 := a.enc }
  | .exit g => some (Raw.ofG 0x104 g)
  | .conv => some (Raw.ofG 0x105 unguarded)
  | .yield g => some (Raw.ofG 0x106 g)
  | .bkpt g => some (Raw.ofG 0x107 g)
  | .trap g sv => some ((Raw.ofG 0x108 g).src sv)
  | .tret => some (Raw.ofG 0x109 unguarded)
  | .tretSkip => some ((Raw.ofG 0x109 unguarded).withMod 1)
  | .ld c t d m => some ((((Raw.ofCtl 0x140 c).optDst d).mem m).withMod (0#2 ++ t.enc))
  | .ldSupv c t d off imm =>
    some { ((Raw.ofCtl 0x140 c).optDst d).withMod (1#2 ++ t.enc) with src0 := off.enc, aux := imm }
  | .st c t m b => some ((((Raw.ofCtl 0x141 c).mem m).withMod (0#2 ++ t.enc)).withLast 1 b)
  | .stSupv c t off imm b =>
    some (({ (Raw.ofCtl 0x141 c).withMod (1#2 ++ t.enc) with src0 := off.enc, aux := imm } : Raw).withLast 1 b)
  | .ldf g t d m sl sk =>
    some ((({ (Raw.ofG 0x142 g).mem m with dst := 0#2 ++ d, src1 := Src.enc (.s sl) } : Raw).withMod
      (0#2 ++ t.enc)).withLast 2 sk)
  | .stf g t d m sl sk =>
    some ((({ (Raw.ofG 0x143 g).mem m with dst := 0#2 ++ d, src1 := Src.enc (.s sl) } : Raw).withMod
      (0#2 ++ t.enc)).withLast 2 sk)
  | .prefL1 c m => some ((Raw.ofCtl 0x144 c).mem m)
  | .prefL2 c m => some (((Raw.ofCtl 0x144 c).mem m).withMod 1)
  | .cbld c m k => some (((Raw.ofCtl 0x148 c).mem m).withLast 1 k)
  | .atomAdd c o sc w d m b => some (((Raw.ofCtl 0x150 c).withMod (atomMod o sc w)).atom d m b)
  | .atomMin c o sc u d m b => some (((Raw.ofCtl 0x151 c).withMod (atomMod o sc u)).atom d m b)
  | .atomMax c o sc u d m b => some (((Raw.ofCtl 0x152 c).withMod (atomMod o sc u)).atom d m b)
  | .atomAnd c o sc w d m b => some (((Raw.ofCtl 0x153 c).withMod (atomMod o sc w)).atom d m b)
  | .atomOr c o sc w d m b => some (((Raw.ofCtl 0x154 c).withMod (atomMod o sc w)).atom d m b)
  | .atomXor c o sc w d m b => some (((Raw.ofCtl 0x155 c).withMod (atomMod o sc w)).atom d m b)
  | .atomExch c o sc w d m b => some (((Raw.ofCtl 0x156 c).withMod (atomMod o sc w)).atom d m b)
  | .atomAddf c o sc d m b => some (((Raw.ofCtl 0x157 c).withMod (atomMod o sc false)).atom d m b)
  | .redAdd c o sc w m b => some ((((Raw.ofCtl 0x158 c).withMod (redMod o sc w)).mem m).withLast 1 b)
  | .redMin c o sc u m b => some ((((Raw.ofCtl 0x159 c).withMod (redMod o sc u)).mem m).withLast 1 b)
  | .redMax c o sc u m b => some ((((Raw.ofCtl 0x15A c).withMod (redMod o sc u)).mem m).withLast 1 b)
  | .redAnd c o sc w m b => some ((((Raw.ofCtl 0x15B c).withMod (redMod o sc w)).mem m).withLast 1 b)
  | .redOr c o sc w m b => some ((((Raw.ofCtl 0x15C c).withMod (redMod o sc w)).mem m).withLast 1 b)
  | .redXor c o sc w m b => some ((((Raw.ofCtl 0x15D c).withMod (redMod o sc w)).mem m).withLast 1 b)
  | .redAddf c o sc m b => some ((((Raw.ofCtl 0x15F c).withMod (redMod o sc false)).mem m).withLast 1 b)
  | .cas c o sc w d m cv nv =>
    some (({ (((Raw.ofCtl 0x160 c).withMod (atomMod o sc w)).optDst d).mem m with src1 := cv.enc } : Raw).withLast 2 nv)
  | .borX c sd q sa sl => some ((Raw.ofCtl 0x180 c).bor sd q sa sl)
  | .borS c sd q sa sl => some ((Raw.ofCtl 0x181 c).bor sd q sa sl)
  | .borA c sd q sa sl => some ((Raw.ofCtl 0x182 c).bor sd q sa sl)
  | .borO c sd q sa sl => some ((Raw.ofCtl 0x183 c).bor sd q sa sl)
  | .borXTry c sd q sa sl => some ((Raw.ofCtl 0x184 c).bor sd q sa sl)
  | .borSTry c sd q sa sl => some ((Raw.ofCtl 0x185 c).bor sd q sa sl)
  | .borATry c sd q sa sl => some ((Raw.ofCtl 0x186 c).bor sd q sa sl)
  | .borOTry c sd q sa sl => some ((Raw.ofCtl 0x187 c).bor sd q sa sl)
  | .rebor c qd qs so sl => some ((((Raw.ofCtl 0x188 c).withQ qd).withMod (0#2 ++ qs)).srcs so sl)
  | .reborS c qd qs so sl => some ((((Raw.ofCtl 0x189 c).withQ qd).withMod (0#2 ++ qs)).srcs so sl)
  | .split g qd qs sg sn sm => some ((((Raw.ofG 0x18A g).withQ qd).withMod (0#2 ++ qs)).srcs3 sg sn sm)
  | .join g qs => some ((Raw.ofG 0x18B g).withQ qs)
  | .retb g q => some ((Raw.ofG 0x18C g).withQ q)
  | .qset c k q so sl => some ((((Raw.ofCtl 0x18D c).withQ q).withMod (0#2 ++ k.enc)).srcs so sl)
  | .qsetEmpty g q => some ((Raw.ofG 0x18D g).withQ q)
  | .qinfo g sd q sl => some ((((Raw.ofG 0x18E g).sDst sd).withQ q).withAux (0#19 ++ sl))
  | .barArrive c sd sk sn => some (((Raw.ofCtl 0x1C0 c).optS sd).srcs sk sn)
  | .barWait c sk sp => some ((Raw.ofCtl 0x1C1 c).srcs sk sp)
  | .barSync c sk sn => some ((Raw.ofCtl 0x1C2 c).srcs sk sn)
  | .mbarInit g m sc => some (((Raw.ofG 0x1C3 g).mem m).withLast 1 sc)
  | .mbarExpect g m sx => some (((Raw.ofG 0x1C4 g).mem m).withLast 1 sx)
  | .mbarArrive g sd m => some (((Raw.ofG 0x1C5 g).optS sd).mem m)
  | .mbarTrywait g pd m sp => some (({ (Raw.ofG 0x1C6 g).mem m with dst := Dst.enc (.p pd) } : Raw).withLast 1 sp)
  | .mbarWait g m sp => some (((Raw.ofG 0x1C7 g).mem m).withLast 1 sp)
  | .fence g sc => some ((Raw.ofG 0x1C8 g).withMod (0#1 ++ (sc.enc ++ 0#2)))
  | .fenceLayout g => some (Raw.ofG 0x1C9 g)
  | .sigDec g sc m sv => some ((((Raw.ofG 0x1CA g).withMod (0#1 ++ (sc.enc ++ 0#2))).mem m).withLast 1 sv)
  | .sigAdd g sc m sv => some ((((Raw.ofG 0x1CB g).withMod (0#1 ++ (sc.enc ++ 0#2))).mem m).withLast 1 sv)
  | .sigSet g sc m sv => some ((((Raw.ofG 0x1CC g).withMod (0#1 ++ (sc.enc ++ 0#2))).mem m).withLast 1 sv)
  | .sigw g cmp sc m c => some ((((Raw.ofG 0x1CD g).withMod (sc.enc ++ cmp.enc)).mem m).withLast 1 c)
  | .ftile g sd => some ((Raw.ofG 0x1CE g).sDst sd)
  | .mma g q so => some (((Raw.ofG 0x200 g).withQ q).src so)
  | .accZero g ti => some ((Raw.ofG 0x201 g).src ti)
  | .accLd g t d ti sb =>
    some (({ (Raw.ofG 0x202 g).withMod (0#2 ++ t.enc) with dst := 0#2 ++ d } : Raw).srcs ti sb)
  | .accSt g t vs ti sb => some (((Raw.ofG 0x203 g).withMod (0#2 ++ t.enc)).srcs3 (.v vs) ti sb)
  | .accDrain g t m ti sl sm =>
    some (({ ((Raw.ofG 0x204 g).withMod (0#2 ++ t.enc)).mem m with src1 := ti.enc, dst := sm.enc } : Raw).withLast 2 sl)
  | .copyLin c sd qd qs sa sb sl =>
    some { ((Raw.ofCtl 0x205 c).sDst sd).withQ qd with
      src0 := sa.enc, src1 := sb.enc, src2 := sl.enc, aux := 0#18 ++ qs }
  | .copyTileLd c sd ql qg so sc =>
    some { ((Raw.ofCtl 0x206 c).sDst sd).withQ ql with src0 := so.enc, src1 := Src.enc (.s sc), aux := 0#18 ++ qg }
  | .copyTileSt c sd ql qg so sc =>
    some { ((Raw.ofCtl 0x207 c).sDst sd).withQ ql with src0 := so.enc, src1 := Src.enc (.s sc), aux := 0#18 ++ qg }
  | .copyGather c sd ql qg so sb sc =>
    some { ((Raw.ofCtl 0x208 c).sDst sd).withQ ql with
      src0 := so.enc, src1 := sb.enc, src2 := Src.enc (.s sc), aux := 0#18 ++ qg }
  | .copyLinMb c sm qd qs sa sb sl =>
    some { (Raw.ofCtl 0x215 c).withQ qd with
      dst := sm.enc, src0 := sa.enc, src1 := sb.enc, src2 := sl.enc, aux := 0#18 ++ qs }
  | .copyTileLdMb c ql qg so sc =>
    some { (Raw.ofCtl 0x216 c).withQ ql with src0 := so.enc, src1 := Src.enc (.s sc), aux := 0#18 ++ qg }
  | .copyTileStMb c ql qg so sc =>
    some { (Raw.ofCtl 0x217 c).withQ ql with src0 := so.enc, src1 := Src.enc (.s sc), aux := 0#18 ++ qg }
  | .copyGatherMb c ql qg so sb sc =>
    some { (Raw.ofCtl 0x218 c).withQ ql with
      src0 := so.enc, src1 := sb.enc, src2 := Src.enc (.s sc), aux := 0#18 ++ qg }
  | .sweepWb g sd q so sl => some ((((Raw.ofG 0x209 g).sDst sd).withQ q).srcs so sl)
  | .sweepInv g sd q so sl => some ((((Raw.ofG 0x20A g).sDst sd).withQ q).srcs so sl)
  | .sweepWbinv g sd q so sl => some ((((Raw.ofG 0x20B g).sDst sd).withQ q).srcs so sl)
  | .sweepWbMb g sm q so sl => some (({ (Raw.ofG 0x219 g).withQ q with dst := sm.enc } : Raw).srcs so sl)
  | .sweepInvMb g sm q so sl => some (({ (Raw.ofG 0x21A g).withQ q with dst := sm.enc } : Raw).srcs so sl)
  | .sweepWbinvMb g sm q so sl => some (({ (Raw.ofG 0x21B g).withQ q with dst := sm.enc } : Raw).srcs so sl)
  | .rld c t sd d q vo =>
    some { ((Raw.ofCtl 0x240 c).withQ q).withMod (0#2 ++ t.enc) with dst := 0#2 ++ d, src0 := vo.enc, aux := 0#15 ++ sd }
  | .rst c t sd q vo vs =>
    some { (((Raw.ofCtl 0x241 c).withQ q).withMod (0#2 ++ t.enc)).sDst sd with src0 := vo.enc, src1 := 0#2 ++ vs }
  | .rmst c sd sg q sb sc =>
    some { ((Raw.ofCtl 0x242 c).withQ q).sDst sd with src0 := sg.enc, src1 := sb.enc, src2 := Src.enc (.s sc) }
  | .rflush g sd q => some (((Raw.ofG 0x243 g).sDst sd).withQ q)
  | .rflushMc c sd sg so => some (((Raw.ofCtl 0x244 c).sDst sd).srcs sg so)
  | .migrateAddr lu m =>
    some (({ (Raw.ofG 0x245 unguarded).withQ m.q with lu := lu, aux := m.imm } : Raw).src m.off)
  | .migrateHome => some (Raw.ofG 0x246 unguarded)
  | .collAllred c sd op ty fo qd qs sc => some ((Raw.ofCtl 0x248 c).coll sd op.enc ty fo qd qs sc)
  | .collRedsc c sd op ty fo qd qs sc => some ((Raw.ofCtl 0x249 c).coll sd op.enc ty fo qd qs sc)
  | .collAllga c sd ty fo qd qs sc => some ((Raw.ofCtl 0x24A c).coll sd 0 ty fo qd qs sc)
  | .collBcast c sd ty fo qd qs sc => some ((Raw.ofCtl 0x24B c).coll sd 0 ty fo qd qs sc)
  | .rdsr c r => some ((Raw.ofAlu 0x280 c).withAux (0#14 ++ r.enc))
  | .wrsr c r a => some (((Raw.ofCtl 0x281 c).withAux (0#14 ++ r.enc)).src a)
  | .mtrVf g sd => some ((Raw.ofG 0x282 g).sDst sd)
  | .mtrLaunch g sd => some ((Raw.ofG 0x283 g).sDst sd)
  | .mtrTeam g sd => some ((Raw.ofG 0x284 g).sDst sd)
  | .mtrQuota g sd => some ((Raw.ofG 0x285 g).sDst sd)
  | .unassignedOpc _ => none
  | .yardAnswer .. => none
  | .capture .. => none
  | .mmaComplete .. => none
  | .rendezvousWithdrawal .. => none
  | .copyComplete .. => none
  | .sweepComplete .. => none
  | .landing .. => none
  | .flushByContextTag .. => none
  | .flushAcknowledge .. => none
  | .inNetworkReduction .. => none
  | .groupActivation .. => none
  | .swapOut .. => none
  | .registerFill .. => none
  | .loadComplete .. => none
  | .impreciseFault .. => none
  | .lineFill .. => none
  | .claim .. => none
  | .grant .. => none
  | .refuse .. => none
  | .release .. => none
  | .withdraw .. => none
  | .writeBackResponse .. => none
  | .borrowTimeout .. => none
  | .claimSweep .. => none
  | .walkComplete .. => none
  | .pageMissEntryTake .. => none
  | .faultBufferMove .. => none
  | .reportingRound => none
  | .launch .. => none
  | .waitsig .. => none
  | .setsigSet .. => none
  | .setsigAdd .. => none
  | .setsigDec .. => none
  | .hcopy .. => none
  | .hcopyComplete .. => none
  | .mark .. => none
  | .resume .. => none
  | .doorbell => none
  | .queueEnable => none
  | .dispatch => none
  | .coreGrant .. => none
  | .teamPlacement .. => none
  | .teamCompletion .. => none
  | .completionRecord .. => none
  | .periodStart => none
  | .sliceEnd .. => none
  | .sliceEndEviction .. => none
  | .blockingPointEviction .. => none
  | .teamRestore .. => none
  | .posting => none
  | .forcedFullSave .. => none
  | .stopComplete .. => none
  | .sharedCosts => none
  | .reconciliation => none
  | .hang .. => none
  | .signalPoll .. => none
  | .throttleStep => none
  | .thermalShutdown => none
  | .replayAll => none
  | .inval => none
  | .invalComplete .. => none
  | .mappingRequest => none
  | .quotaWrite => none
  | .checkpoint => none
  | .residentWrite => none
  | .supvWrite => none
  | .registerWrite => none
  | .drainedWrite => none
  | .sealreq => none
  | .auditAppend => none
  | .scrub .. => none
  | .scrubComplete .. => none
  | .deviceReset => none
  | .unitBringup => none
  | .firmwareUpdate => none
  | .partitionConfiguration => none
  | .vfCreation => none
  | .vfReset => none
  | .vfRelease => none
  | .stage2Change => none
  | .errorDetected => none
  | .selfTest => none
  | .getVersion => none
  | .getCapabilities => none
  | .negotiateAlgorithms => none
  | .getDigests => none
  | .getCertificate => none
  | .challenge => none
  | .getMeasurements => none
  | .keyExchange => none
  | .sessionFinish => none
  | .endSession => none
  | .vendorDefinedMessage => none
  | .ideKmKeyProgramming => none
  | .lockInterface => none
  | .stopInterface => none
  | .ideIntegrityFailure => none
  | .debugStop => none
  | .debugRead => none
  | .debugWrite => none
  | .debugStep => none
  | .debugCancel => none
  | .debugCancelBor => none
  | .debugResume => none
  | .exportWindow => none
  | .importWindow => none
  | .revoke => none
  | .revocationNotice => none
  | .revocationComplete .. => none
  | .peerGrantTimeout .. => none
  | .multicastGroupRegistration => none
  | .multicastReplication .. => none
  | .peerRequest => none
  | .peerAnswer => none
  | .flushNotice .. => none
  | .resend .. => none
  | .peerTimeout .. => none
  | .connectionRefill => none
  | .deviceLeavesPod => none
  | .l1WriteBack .. => none
  | .atomicAcknowledgement .. => none
  | .startInterface => none
  | .rateLimiterWindow .. => none
  | .importFree => none

/-- The word of a word form; an unassigned slot keeps its word. -/
def Instr.encode (i : Instr) : Option (BitVec 96) :=
  match i with
  | .unassignedOpc w => some w
  | _ => i.raw.map Raw.toWord

/-! ## The decoder -/

/-- Why a word is no instruction: every one of these raises ILLEGAL_INSTR (R338). -/
inductive DecodeError
  /-- a reserved operand, type, ordering, scope, comparison or special-register code -/
  | reservedCode
  /-- a condition of `Instr.wf` fails -/
  | illFormed
  /-- a field or bit that the form does not use is nonzero (R325) -/
  | unusedField
  /-- the entry is too short, or no host command has this OP (R270) -/
  | badCommand
deriving DecidableEq, Repr

def Raw.guard (r : Raw) : Guard := { gp := r.gp, gn := r.gn }
def Raw.ctl (r : Raw) : Ctl := { g := r.guard, lu := r.lu }

/-- AUX as an operand: zero under LIT (R327). -/
def Raw.auxv (r : Raw) : BitVec 22 := if r.lit then 0 else r.aux

def Raw.optDstOf (r : Raw) : Option (Option Dst) := if r.wbs then some none else (Dst.dec r.dst).map some

def Raw.out (r : Raw) : Option Out :=
  r.optDstOf.map fun d => { dst := d, latch := if r.lde then some r.ld else none }

def Raw.alu (r : Raw) : Option Alu := r.out.map fun o => { g := r.guard, lu := r.lu, out := o }

/-- The last source, in field `k` or the literal. -/
def Raw.lastSrc (r : Raw) (k : Fin 3) : Option Src :=
  if r.lit then some (.lit r.imm)
  else match k with
    | 0 => Src.dec r.src0
    | 1 => Src.dec r.src1
    | 2 => Src.dec r.src2

def Raw.sReg (f : BitVec 10) : Option (BitVec 7) :=
  match Dst.dec f with
  | some (.s n) => some n
  | _ => none

def Raw.pReg (f : BitVec 10) : Option (BitVec 3) :=
  match Dst.dec f with
  | some (.p n) => some n
  | _ => none

def Raw.vReg (f : BitVec 10) : Option (BitVec 8) :=
  match Dst.dec f with
  | some (.v n) => some n
  | _ => none

def Raw.optSOf (r : Raw) : Option (Option (BitVec 7)) := if r.wbs then some none else (Raw.sReg r.dst).map some

def Raw.memOp (r : Raw) : Option MemOp := (Src.dec r.src0).map fun o => { q := r.qs, off := o, imm := r.auxv }

def Raw.ty (r : Raw) : BitVec 4 := r.mod.extractLsb' 0 4
def Raw.scope (r : Raw) : Option Scope := Scope.dec (r.mod.extractLsb' 2 3)

/-- NOP and integer and logic, 0x000 to 0x03F. -/
def Raw.parseInt (r : Raw) : Option Instr :=
  match r.opc.toNat with
  | 0x000 => some .nop
  | 0x001 => do
    let c ← r.alu
    let a ← Src.dec r.src0
    if r.mod.getLsbD 4 then
      let b ← Src.dec r.src1
      let ci ← Src.dec r.src2
      pure (.iaddCc c (r.aux.extractLsb' 0 3) a b ci)
    else
      let t ← Sgn.dec r.ty
      let b ← r.lastSrc 1
      pure (.iadd c t a b)
  | 0x002 => do return .isub (← r.alu) (← Sgn.dec r.ty) (← Src.dec r.src0) (← r.lastSrc 1)
  | 0x003 => do
    let c ← r.alu
    let t ← Sgn.dec r.ty
    let a ← Src.dec r.src0
    let b ← Src.dec r.src1
    let d ← r.lastSrc 2
    pure (if r.mod.getLsbD 4 then .imadWide c t a b d else .imad c t a b d)
  | 0x004 => do return .imul (← r.alu) (← Sgn.dec r.ty) (r.mod.getLsbD 4) (← Src.dec r.src0) (← r.lastSrc 1)
  | 0x005 => do return .imnmx (← r.alu) (← Sgn.dec r.ty) (r.mod.getLsbD 4) (← Src.dec r.src0) (← r.lastSrc 1)
  | 0x006 => do
    return .isetp r.ctl (← Raw.pReg r.dst) (Sgn.ofBit (r.mod.getLsbD 3)) (← Cmp.dec (r.mod.extractLsb' 0 3))
      (← Src.dec r.src0) (← r.lastSrc 1)
  | 0x007 => do
    return .idp4 (← r.alu) (r.mod.getLsbD 0) (r.mod.getLsbD 1) (← Src.dec r.src0) (← Src.dec r.src1) (← r.lastSrc 2)
  | 0x008 => do
    return .lop3 (← r.alu) (r.aux.extractLsb' 0 8) (← Src.dec r.src0) (← Src.dec r.src1) (← Src.dec r.src2)
  | 0x009 => do return .shl (← r.alu) (← Src.dec r.src0) (← r.lastSrc 1)
  | 0x00A => do return .shr (← r.alu) (← Sgn.dec r.ty) (← Src.dec r.src0) (← r.lastSrc 1)
  | 0x00B => do return .bfe (← r.alu) (← Sgn.dec r.ty) (← Src.dec r.src0) (← Src.dec r.src1) (← r.lastSrc 2)
  | 0x00C => do return .bfi (← r.alu) (← Src.dec r.src0) (← Src.dec r.src1) (← r.lastSrc 2)
  | 0x00D => do return .brev (← r.alu) (← r.lastSrc 0)
  | 0x00E => do return .clz (← r.alu) (← r.lastSrc 0)
  | 0x00F => do return .popc (← r.alu) (← r.lastSrc 0)
  | 0x010 => do return .lea (← r.alu) (← LeaTy.dec r.mod) (← Src.dec r.src0) (← Src.dec r.src1) (← r.lastSrc 2)
  | 0x011 => do return .prmt (← r.alu) (← Src.dec r.src0) (← Src.dec r.src1) (← r.lastSrc 2)
  | 0x012 => do
    return .sel (← r.alu) (r.mod.getLsbD 0) (r.mod.getLsbD 4) (← Raw.pReg r.src0) (← Src.dec r.src1) (← r.lastSrc 2)
  | 0x013 => do return .mov (← r.alu) (← MovTy.dec r.mod) (← r.lastSrc 0)
  | _ => none

/-- The rounding of the rounded FP family (R393). -/
def Raw.fRndOf (r : Raw) : Option Rnd := Rnd.decRE (r.auxv.getLsbD 0) (r.mod.extractLsb' 4 2)

/-- Floating point, 0x040 to 0x07F. -/
def Raw.parseFp (r : Raw) : Option Instr :=
  match r.opc.toNat with
  | 0x040 => do return .fadd (← r.alu) (← FTy.dec r.ty) r.fRndOf (← Src.dec r.src0) (← r.lastSrc 1)
  | 0x041 => do return .fsub (← r.alu) (← FTy.dec r.ty) r.fRndOf (← Src.dec r.src0) (← r.lastSrc 1)
  | 0x042 => do return .fmul (← r.alu) (← FTy.dec r.ty) r.fRndOf (← Src.dec r.src0) (← r.lastSrc 1)
  | 0x043 => do
    return .ffma (← r.alu) (← FTy.dec r.ty) r.fRndOf (← Src.dec r.src0) (← Src.dec r.src1) (← r.lastSrc 2)
  | 0x044 => do return .fmnmx (← r.alu) (← FTy.dec r.ty) (r.mod.getLsbD 4) (← Src.dec r.src0) (← r.lastSrc 1)
  | 0x045 => do
    return .fsetp r.ctl (← Raw.pReg r.dst) (FTy.ofBit (r.mod.getLsbD 3)) (← Cmp.dec (r.mod.extractLsb' 0 3))
      (← Src.dec r.src0) (← r.lastSrc 1)
  | 0x046 => do return .fclass (← r.alu) (← FTy.dec r.ty) (← Src.dec r.src0) (← r.lastSrc 1)
  | 0x047 => do return .fdot2 (← r.alu) (← HTy.dec r.ty) (← Src.dec r.src0) (← Src.dec r.src1) (← r.lastSrc 2)
  | 0x048 => do return .sfnRcp (← r.alu) (← r.lastSrc 0)
  | 0x049 => do return .sfnRsq (← r.alu) (← r.lastSrc 0)
  | 0x04A => do return .sfnSqrt (← r.alu) (← r.lastSrc 0)
  | 0x04B => do return .sfnExp2 (← r.alu) (← r.lastSrc 0)
  | 0x04C => do return .sfnLog2 (← r.alu) (← r.lastSrc 0)
  | 0x04D => do return .sfnSin (← r.alu) (← r.lastSrc 0)
  | 0x04E => do return .sfnCos (← r.alu) (← r.lastSrc 0)
  | 0x04F => do return .sfnTanh (← r.alu) (← r.lastSrc 0)
  | 0x050 => do return .hadd2 (← r.alu) (← HTy.dec r.ty) (← Src.dec r.src0) (← r.lastSrc 1)
  | 0x051 => do return .hmul2 (← r.alu) (← HTy.dec r.ty) (← Src.dec r.src0) (← r.lastSrc 1)
  | 0x052 => do return .hfma2 (← r.alu) (← HTy.dec r.ty) (← Src.dec r.src0) (← Src.dec r.src1) (← r.lastSrc 2)
  | _ => none

/-- AUX[5:3] with PE, AUX[6] (R447). -/
def Raw.shflPd (r : Raw) : Option (BitVec 3) := if r.auxv.getLsbD 6 then some (r.auxv.extractLsb' 3 3) else none

/-- Packed, narrow and codebook, 0x080 to 0x0BF, and group operations, 0x0C0 to 0x0FF. -/
def Raw.parseGrp (r : Raw) : Option Instr :=
  match r.opc.toNat with
  | 0x080 => do
    return .cvt (← r.alu) (← NumTy.dec (r.aux.extractLsb' 0 4)) (← NumTy.dec (r.aux.extractLsb' 4 4))
      (Rnd.decRE (r.aux.getLsbD 10) (r.aux.extractLsb' 8 2)) (← Src.dec r.src0)
  | 0x081 => do return .cbenc (← r.alu) (r.mod == 10) (← Src.dec r.src0) (← r.lastSrc 1)
  | 0x082 => do return .cbdec (← r.alu) (← Src.dec r.src0) (← r.lastSrc 1)
  | 0x0C0 => do
    return .shflIdx (← r.alu) (r.mod.getLsbD 4) (r.auxv.extractLsb' 0 3) r.shflPd (← Src.dec r.src0) (← r.lastSrc 1)
  | 0x0C1 => do
    return .shflUp (← r.alu) (r.mod.getLsbD 4) (r.auxv.extractLsb' 0 3) r.shflPd (← Src.dec r.src0) (← r.lastSrc 1)
  | 0x0C2 => do
    return .shflDown (← r.alu) (r.mod.getLsbD 4) (r.auxv.extractLsb' 0 3) r.shflPd (← Src.dec r.src0) (← r.lastSrc 1)
  | 0x0C3 => do
    return .shflXor (← r.alu) (r.mod.getLsbD 4) (r.auxv.extractLsb' 0 3) r.shflPd (← Src.dec r.src0) (← r.lastSrc 1)
  | 0x0C4 => do return .voteAll r.ctl (← Raw.pReg r.dst) (r.mod.getLsbD 0) (← Raw.pReg r.src0)
  | 0x0C5 => do return .voteAny r.ctl (← Raw.pReg r.dst) (r.mod.getLsbD 0) (← Raw.pReg r.src0)
  | 0x0C6 => do return .voteUni r.ctl (← Raw.pReg r.dst) (r.mod.getLsbD 0) (← Raw.pReg r.src0)
  | 0x0C7 => do return .ballot (← r.alu) (r.mod.getLsbD 0) (← Raw.pReg r.src0)
  | 0x0C8 => do return .matchAny (← r.alu) (r.mod.getLsbD 0) (← Src.dec r.src0)
  | 0x0C9 => do return .matchAll (← r.alu) (r.mod.getLsbD 0) (r.aux.extractLsb' 0 3) (← Src.dec r.src0)
  | 0x0CA => do return .gred (← r.alu) (← GredOp.dec (r.aux.extractLsb' 0 3) r.ty) (← Src.dec r.src0)
  | 0x0CB => do return .elect r.guard (← Dst.dec r.dst)
  | _ => none

/-- Control, 0x100 to 0x13F. -/
def Raw.parseCtl (r : Raw) : Option Instr :=
  match r.opc.toNat with
  | 0x100 => some (.bra r.guard r.aux (r.src2.extractLsb' 0 8))
  | 0x101 => do return .brx r.ctl (← Src.dec r.src0) (r.src2.extractLsb' 0 8)
  | 0x102 => do return .call r.guard (← Dst.dec r.dst) r.aux (r.src2.extractLsb' 0 8)
  | 0x103 => do return .ret r.guard (← Src.dec r.src0)
  | 0x104 => some (.exit r.guard)
  | 0x105 => some .conv
  | 0x106 => some (.yield r.guard)
  | 0x107 => some (.bkpt r.guard)
  | 0x108 => do return .trap r.guard (← r.lastSrc 0)
  | 0x109 => some (if r.mod.getLsbD 0 then .tretSkip else .tret)
  | _ => none

def Raw.mord (r : Raw) : MOrd := MOrd.dec (r.mod.extractLsb' 0 2)
def Raw.rord (r : Raw) : Option ROrd := ROrd.dec (r.mod.extractLsb' 0 2)

/-- Memory, 0x140 to 0x17F. -/
def Raw.parseMem (r : Raw) : Option Instr :=
  match r.opc.toNat with
  | 0x140 => do
    let t ← LdTy.dec r.ty
    let d ← r.optDstOf
    let m ← r.memOp
    pure (if r.mod.getLsbD 4 then .ldSupv r.ctl t d m.off m.imm else .ld r.ctl t d m)
  | 0x141 => do
    let t ← StTy.dec r.ty
    let m ← r.memOp
    let b ← r.lastSrc 1
    pure (if r.mod.getLsbD 4 then .stSupv r.ctl t m.off m.imm b else .st r.ctl t m b)
  | 0x142 => do
    return .ldf r.guard (← FragTy.dec r.ty) (← Raw.vReg r.dst) (← r.memOp) (← Raw.sReg r.src1) (← r.lastSrc 2)
  | 0x143 => do
    return .stf r.guard (← FragTy.dec r.ty) (← Raw.vReg r.dst) (← r.memOp) (← Raw.sReg r.src1) (← r.lastSrc 2)
  | 0x144 => do
    let m ← r.memOp
    pure (if r.mod.getLsbD 0 then .prefL2 r.ctl m else .prefL1 r.ctl m)
  | 0x148 => do return .cbld r.ctl (← r.memOp) (← r.lastSrc 1)
  | 0x150 => do
    return .atomAdd r.ctl r.mord (← r.scope) (r.mod.getLsbD 5) (← r.optDstOf) (← r.memOp) (← r.lastSrc 1)
  | 0x151 => do
    return .atomMin r.ctl r.mord (← r.scope) (r.mod.getLsbD 5) (← r.optDstOf) (← r.memOp) (← r.lastSrc 1)
  | 0x152 => do
    return .atomMax r.ctl r.mord (← r.scope) (r.mod.getLsbD 5) (← r.optDstOf) (← r.memOp) (← r.lastSrc 1)
  | 0x153 => do
    return .atomAnd r.ctl r.mord (← r.scope) (r.mod.getLsbD 5) (← r.optDstOf) (← r.memOp) (← r.lastSrc 1)
  | 0x154 => do
    return .atomOr r.ctl r.mord (← r.scope) (r.mod.getLsbD 5) (← r.optDstOf) (← r.memOp) (← r.lastSrc 1)
  | 0x155 => do
    return .atomXor r.ctl r.mord (← r.scope) (r.mod.getLsbD 5) (← r.optDstOf) (← r.memOp) (← r.lastSrc 1)
  | 0x156 => do
    return .atomExch r.ctl r.mord (← r.scope) (r.mod.getLsbD 5) (← r.optDstOf) (← r.memOp) (← r.lastSrc 1)
  | 0x157 => do return .atomAddf r.ctl r.mord (← r.scope) (← r.optDstOf) (← r.memOp) (← r.lastSrc 1)
  | 0x158 => do return .redAdd r.ctl (← r.rord) (← r.scope) (r.mod.getLsbD 5) (← r.memOp) (← r.lastSrc 1)
  | 0x159 => do return .redMin r.ctl (← r.rord) (← r.scope) (r.mod.getLsbD 5) (← r.memOp) (← r.lastSrc 1)
  | 0x15A => do return .redMax r.ctl (← r.rord) (← r.scope) (r.mod.getLsbD 5) (← r.memOp) (← r.lastSrc 1)
  | 0x15B => do return .redAnd r.ctl (← r.rord) (← r.scope) (r.mod.getLsbD 5) (← r.memOp) (← r.lastSrc 1)
  | 0x15C => do return .redOr r.ctl (← r.rord) (← r.scope) (r.mod.getLsbD 5) (← r.memOp) (← r.lastSrc 1)
  | 0x15D => do return .redXor r.ctl (← r.rord) (← r.scope) (r.mod.getLsbD 5) (← r.memOp) (← r.lastSrc 1)
  | 0x15F => do return .redAddf r.ctl (← r.rord) (← r.scope) (← r.memOp) (← r.lastSrc 1)
  | 0x160 => do
    return .cas r.ctl r.mord (← r.scope) (r.mod.getLsbD 5) (← r.optDstOf) (← r.memOp) (← Src.dec r.src1) (← r.lastSrc 2)
  | _ => none

def Raw.modQ (r : Raw) : BitVec 4 := r.mod.extractLsb' 0 4

/-- Borrow, 0x180 to 0x1BF. -/
def Raw.parseBor (r : Raw) : Option Instr :=
  match r.opc.toNat with
  | 0x180 => do return .borX r.ctl (← Raw.sReg r.dst) r.qs (← Raw.sReg r.src0) (← r.lastSrc 1)
  | 0x181 => do return .borS r.ctl (← Raw.sReg r.dst) r.qs (← Raw.sReg r.src0) (← r.lastSrc 1)
  | 0x182 => do return .borA r.ctl (← Raw.sReg r.dst) r.qs (← Raw.sReg r.src0) (← r.lastSrc 1)
  | 0x183 => do return .borO r.ctl (← Raw.sReg r.dst) r.qs (← Raw.sReg r.src0) (← r.lastSrc 1)
  | 0x184 => do return .borXTry r.ctl (← Raw.sReg r.dst) r.qs (← Raw.sReg r.src0) (← r.lastSrc 1)
  | 0x185 => do return .borSTry r.ctl (← Raw.sReg r.dst) r.qs (← Raw.sReg r.src0) (← r.lastSrc 1)
  | 0x186 => do return .borATry r.ctl (← Raw.sReg r.dst) r.qs (← Raw.sReg r.src0) (← r.lastSrc 1)
  | 0x187 => do return .borOTry r.ctl (← Raw.sReg r.dst) r.qs (← Raw.sReg r.src0) (← r.lastSrc 1)
  | 0x188 => do return .rebor r.ctl r.qs r.modQ (← Src.dec r.src0) (← r.lastSrc 1)
  | 0x189 => do return .reborS r.ctl r.qs r.modQ (← Src.dec r.src0) (← r.lastSrc 1)
  | 0x18A => do return .split r.guard r.qs r.modQ (← Src.dec r.src0) (← Src.dec r.src1) (← r.lastSrc 2)
  | 0x18B => some (.join r.guard r.qs)
  | 0x18C => some (.retb r.guard r.qs)
  | 0x18D =>
    if r.modQ == 0 then some (.qsetEmpty r.guard r.qs)
    else do return .qset r.ctl (← LocalKind.dec r.modQ) r.qs (← Src.dec r.src0) (← r.lastSrc 1)
  | 0x18E => do return .qinfo r.guard (← Raw.sReg r.dst) r.qs (r.aux.extractLsb' 0 3)
  | _ => none

/-- Synchronisation, 0x1C0 to 0x1FF. -/
def Raw.parseSync (r : Raw) : Option Instr :=
  match r.opc.toNat with
  | 0x1C0 => do return .barArrive r.ctl (← r.optSOf) (← Src.dec r.src0) (← r.lastSrc 1)
  | 0x1C1 => do return .barWait r.ctl (← Src.dec r.src0) (← r.lastSrc 1)
  | 0x1C2 => do return .barSync r.ctl (← Src.dec r.src0) (← r.lastSrc 1)
  | 0x1C3 => do return .mbarInit r.guard (← r.memOp) (← r.lastSrc 1)
  | 0x1C4 => do return .mbarExpect r.guard (← r.memOp) (← r.lastSrc 1)
  | 0x1C5 => do return .mbarArrive r.guard (← r.optSOf) (← r.memOp)
  | 0x1C6 => do return .mbarTrywait r.guard (← Raw.pReg r.dst) (← r.memOp) (← r.lastSrc 1)
  | 0x1C7 => do return .mbarWait r.guard (← r.memOp) (← r.lastSrc 1)
  | 0x1C8 => do return .fence r.guard (← r.scope)
  | 0x1C9 => some (.fenceLayout r.guard)
  | 0x1CA => do return .sigDec r.guard (← r.scope) (← r.memOp) (← r.lastSrc 1)
  | 0x1CB => do return .sigAdd r.guard (← r.scope) (← r.memOp) (← r.lastSrc 1)
  | 0x1CC => do return .sigSet r.guard (← r.scope) (← r.memOp) (← r.lastSrc 1)
  | 0x1CD => do
    return .sigw r.guard (← Cmp.dec (r.mod.extractLsb' 0 3)) (← Scope.dec (r.mod.extractLsb' 3 3)) (← r.memOp)
      (← r.lastSrc 1)
  | 0x1CE => do return .ftile r.guard (← Raw.sReg r.dst)
  | _ => none

/-- Engines, 0x200 to 0x23F. -/
def Raw.parseEng (r : Raw) : Option Instr :=
  let q2 : BitVec 4 := r.aux.extractLsb' 0 4
  match r.opc.toNat with
  | 0x200 => do return .mma r.guard r.qs (← r.lastSrc 0)
  | 0x201 => do return .accZero r.guard (← r.lastSrc 0)
  | 0x202 => do return .accLd r.guard (← AccTy.dec r.ty) (← Raw.vReg r.dst) (← Src.dec r.src0) (← r.lastSrc 1)
  | 0x203 => do return .accSt r.guard (← AccTy.dec r.ty) (← Raw.vReg r.src0) (← Src.dec r.src1) (← r.lastSrc 2)
  | 0x204 => do
    return .accDrain r.guard (← DrainTy.dec r.ty) (← r.memOp) (← Src.dec r.src1) (← r.lastSrc 2) (← Src.dec r.dst)
  | 0x205 => do
    return .copyLin r.ctl (← Raw.sReg r.dst) r.qs q2 (← Src.dec r.src0) (← Src.dec r.src1) (← Src.dec r.src2)
  | 0x206 => do return .copyTileLd r.ctl (← Raw.sReg r.dst) r.qs q2 (← Src.dec r.src0) (← Raw.sReg r.src1)
  | 0x207 => do return .copyTileSt r.ctl (← Raw.sReg r.dst) r.qs q2 (← Src.dec r.src0) (← Raw.sReg r.src1)
  | 0x208 => do
    return .copyGather r.ctl (← Raw.sReg r.dst) r.qs q2 (← Src.dec r.src0) (← Src.dec r.src1) (← Raw.sReg r.src2)
  | 0x209 => do return .sweepWb r.guard (← Raw.sReg r.dst) r.qs (← Src.dec r.src0) (← r.lastSrc 1)
  | 0x20A => do return .sweepInv r.guard (← Raw.sReg r.dst) r.qs (← Src.dec r.src0) (← r.lastSrc 1)
  | 0x20B => do return .sweepWbinv r.guard (← Raw.sReg r.dst) r.qs (← Src.dec r.src0) (← r.lastSrc 1)
  | 0x215 => do
    return .copyLinMb r.ctl (← Src.dec r.dst) r.qs q2 (← Src.dec r.src0) (← Src.dec r.src1) (← Src.dec r.src2)
  | 0x216 => do return .copyTileLdMb r.ctl r.qs q2 (← Src.dec r.src0) (← Raw.sReg r.src1)
  | 0x217 => do return .copyTileStMb r.ctl r.qs q2 (← Src.dec r.src0) (← Raw.sReg r.src1)
  | 0x218 => do return .copyGatherMb r.ctl r.qs q2 (← Src.dec r.src0) (← Src.dec r.src1) (← Raw.sReg r.src2)
  | 0x219 => do return .sweepWbMb r.guard (← Src.dec r.dst) r.qs (← Src.dec r.src0) (← r.lastSrc 1)
  | 0x21A => do return .sweepInvMb r.guard (← Src.dec r.dst) r.qs (← Src.dec r.src0) (← r.lastSrc 1)
  | 0x21B => do return .sweepWbinvMb r.guard (← Src.dec r.dst) r.qs (← Src.dec r.src0) (← r.lastSrc 1)
  | _ => none

/-- Remote and migration, 0x240 to 0x27F. -/
def Raw.parseRem (r : Raw) : Option Instr :=
  let q2 : BitVec 4 := r.aux.extractLsb' 0 4
  let fo := r.aux.getLsbD 4
  match r.opc.toNat with
  | 0x240 => do
    return .rld r.ctl (← StTy.dec r.ty) (r.aux.extractLsb' 0 7) (← Raw.vReg r.dst) r.qs (← Src.dec r.src0)
  | 0x241 => do return .rst r.ctl (← StTy.dec r.ty) (← Raw.sReg r.dst) r.qs (← Src.dec r.src0) (← Raw.vReg r.src1)
  | 0x242 => do return .rmst r.ctl (← Raw.sReg r.dst) (← Src.dec r.src0) r.qs (← Src.dec r.src1) (← Raw.sReg r.src2)
  | 0x243 => do return .rflush r.guard (← Raw.sReg r.dst) r.qs
  | 0x244 => do return .rflushMc r.ctl (← Raw.sReg r.dst) (← Src.dec r.src0) (← r.lastSrc 1)
  | 0x245 => do return .migrateAddr r.lu { q := r.qs, off := ← r.lastSrc 0, imm := r.auxv }
  | 0x246 => some .migrateHome
  | 0x248 => do
    return .collAllred r.ctl (← Raw.sReg r.dst) (← CollOp.dec (r.mod.extractLsb' 4 2)) (← CollTy.dec r.ty) fo r.qs q2
      (← Raw.sReg r.src0)
  | 0x249 => do
    return .collRedsc r.ctl (← Raw.sReg r.dst) (← CollOp.dec (r.mod.extractLsb' 4 2)) (← CollTy.dec r.ty) fo r.qs q2
      (← Raw.sReg r.src0)
  | 0x24A => do return .collAllga r.ctl (← Raw.sReg r.dst) (← CollTy.dec r.ty) fo r.qs q2 (← Raw.sReg r.src0)
  | 0x24B => do return .collBcast r.ctl (← Raw.sReg r.dst) (← CollTy.dec r.ty) fo r.qs q2 (← Raw.sReg r.src0)
  | _ => none

/-- System, 0x280 to 0x2BF. -/
def Raw.parseSys (r : Raw) : Option Instr :=
  match r.opc.toNat with
  | 0x280 => do return .rdsr (← r.alu) (← SReg.dec (r.aux.extractLsb' 0 8))
  | 0x281 => do return .wrsr r.ctl (← WReg.dec (r.aux.extractLsb' 0 8)) (← Src.dec r.src0)
  | 0x282 => do return .mtrVf r.guard (← Raw.sReg r.dst)
  | 0x283 => do return .mtrLaunch r.guard (← Raw.sReg r.dst)
  | 0x284 => do return .mtrTeam r.guard (← Raw.sReg r.dst)
  | 0x285 => do return .mtrQuota r.guard (← Raw.sReg r.dst)
  | _ => none

/-- The instruction that the fields name, before the checks of unused fields and of `Instr.wf`. -/
def Raw.parse (r : Raw) : Option Instr :=
  match (r.opc.extractLsb' 6 4).toNat with
  | 0 => r.parseInt
  | 1 => r.parseFp
  | 2 => r.parseGrp
  | 3 => r.parseGrp
  | 4 => r.parseCtl
  | 5 => r.parseMem
  | 6 => r.parseBor
  | 7 => r.parseSync
  | 8 => r.parseEng
  | 9 => r.parseRem
  | 10 => r.parseSys
  | _ => none

/-- The opcode values that the opcode map assigns (R361). -/
def assignedOpc (o : Nat) : Bool :=
  decide (o ≤ 0x013) || (decide (0x040 ≤ o) && decide (o ≤ 0x052)) || (decide (0x080 ≤ o) && decide (o ≤ 0x082)) ||
  (decide (0x0C0 ≤ o) && decide (o ≤ 0x0CB)) || (decide (0x100 ≤ o) && decide (o ≤ 0x109)) ||
  (decide (0x140 ≤ o) && decide (o ≤ 0x144)) || o == 0x148 || (decide (0x150 ≤ o) && decide (o ≤ 0x15D)) ||
  o == 0x15F || o == 0x160 || (decide (0x180 ≤ o) && decide (o ≤ 0x18E)) || (decide (0x1C0 ≤ o) && decide (o ≤ 0x1CE)) ||
  (decide (0x200 ≤ o) && decide (o ≤ 0x20B)) || (decide (0x215 ≤ o) && decide (o ≤ 0x21B)) ||
  (decide (0x240 ≤ o) && decide (o ≤ 0x246)) || (decide (0x248 ≤ o) && decide (o ≤ 0x24B)) ||
  (decide (0x280 ≤ o) && decide (o ≤ 0x285))

/-- The instruction of a slot, or why the word raises ILLEGAL_INSTR (R338). An unassigned OPC is an event of its own,
decided from OPC alone (R362). -/
def decodeSlot (w : BitVec 96) : Except DecodeError Instr :=
  let r := Raw.ofWord w
  if assignedOpc r.opc.toNat then
    match r.parse with
    | none => .error .reservedCode
    | some i =>
      if i.wf then (if i.encode = some w then .ok i else .error .unusedField)
      else .error .illFormed
  else .ok (.unassignedOpc w)

/-! ## Host command entries (R270, R274, R275) -/

/-- Bits of a queue entry, by byte offset and width. -/
def entryField (w : BitVec 2048) (off n : Nat) : BitVec n := w.extractLsb' (8 * off) n

/-- The command word of R270. -/
def CmdWord.enc (c : CmdWord) (op : BitVec 8) : BitVec 64 :=
  c.tag ++ (0#18 ++ (c.vec ++ (BitVec.ofBool c.irq ++ op)))

def CmdWord.dec (w : BitVec 2048) : CmdWord :=
  { irq := w.getLsbD 8, vec := w.extractLsb' 9 5, tag := w.extractLsb' 32 32 }

/-- The 256 bytes of a LAUNCH descriptor (R275), as one little-endian number. -/
def LaunchDesc.enc (d : LaunchDesc) (cw : BitVec 64) : BitVec 2048 :=
  let z n := (0 : BitVec n)
  (z 896 ++ (d.btime ++ (d.wdog ++ (d.budget ++
    ((z 27 ++ (d.bpol ++ (BitVec.ofBool d.prodfirst ++ (BitVec.ofBool d.deadtrap ++ BitVec.ofBool d.det)))) ++
    ((z 24 ++ d.cores) ++ (d.iz ++ (d.iy ++ (d.ix ++ (d.igd ++
    ((d.w ++ (z 15 ++ BitVec.ofBool d.grouped)) ++ (d.z ++ (d.y ++ (d.x ++ (d.ds ++ (d.cs ++ (d.lp ++ (d.ss ++
    ((z 7 ++ (d.regsC ++ (z 7 ++ d.regsP))) ++ ((d.crewC ++ d.crewN) ++ (d.prod ++ (d.gd ++
    (d.sigAddr ++ (d.ctxLen ++ (d.ctxBase ++ (d.code ++ cw))))))))))))))))))))))))))

def LaunchDesc.dec (w : BitVec 2048) : LaunchDesc :=
  { code := entryField w 0x08 64, ctxBase := entryField w 0x10 64, ctxLen := entryField w 0x18 64,
    sigAddr := entryField w 0x20 64, gd := entryField w 0x28 32, prod := entryField w 0x2C 32,
    crewN := entryField w 0x30 8, crewC := entryField w 0x31 24, regsP := entryField w 0x34 9,
    regsC := entryField w 0x36 9, ss := entryField w 0x38 32, lp := entryField w 0x3C 32, cs := entryField w 0x40 32,
    ds := entryField w 0x44 32, x := entryField w 0x48 32, y := entryField w 0x4C 32, z := entryField w 0x50 32,
    grouped := (entryField w 0x54 1).getLsbD 0, w := entryField w 0x56 16, igd := entryField w 0x58 64,
    ix := entryField w 0x60 64, iy := entryField w 0x68 64, iz := entryField w 0x70 64, cores := entryField w 0x78 8,
    det := w.getLsbD (8 * 0x7C), deadtrap := w.getLsbD (8 * 0x7C + 1), prodfirst := w.getLsbD (8 * 0x7C + 2),
    bpol := w.extractLsb' (8 * 0x7C + 3) 2, budget := entryField w 0x80 64, wdog := entryField w 0x88 32,
    btime := entryField w 0x8C 32 }

/-- The entries of a host command as one number: bit 0 is bit 0 of its first byte. -/
def Instr.encodeCommand : Instr → Option (BitVec 2048)
  | .launch c d => some (d.enc (c.enc 0x01))
  | .waitsig c a v cmp => some (((0#61 ++ cmp.enc) ++ (v ++ (a ++ c.enc 0x02))).zeroExtend 2048)
  | .setsigSet c a v => some ((0#64 ++ (v ++ (a ++ c.enc 0x03))).zeroExtend 2048)
  | .setsigAdd c a v => some ((1#64 ++ (v ++ (a ++ c.enc 0x03))).zeroExtend 2048)
  | .setsigDec c a v => some ((2#64 ++ (v ++ (a ++ c.enc 0x03))).zeroExtend 2048)
  | .hcopy c d s l g => some ((g ++ (l ++ (s ++ (d ++ c.enc 0x04)))).zeroExtend 2048)
  | .mark c v => some ((v ++ c.enc 0x05).zeroExtend 2048)
  | .resume c l b => some ((b ++ (l ++ c.enc 0x06)).zeroExtend 2048)
  | _ => none

/-- The command that an entry's OP names, before the checks of R270. -/
def parseCommand (w : BitVec 2048) : Option Instr :=
  let c := CmdWord.dec w
  let q (k : Nat) : BitVec 64 := entryField w k 64
  match (entryField w 0 8).toNat with
  | 0x01 => some (.launch c (LaunchDesc.dec w))
  | 0x02 => do return .waitsig c (q 8) (q 16) (← Cmp.dec (entryField w 24 3))
  | 0x03 =>
    match (entryField w 24 2).toNat with
    | 0 => some (.setsigSet c (q 8) (q 16))
    | 1 => some (.setsigAdd c (q 8) (q 16))
    | 2 => some (.setsigDec c (q 8) (q 16))
    | _ => none
  | 0x04 => some (.hcopy c (q 8) (q 16) (q 24) (q 32))
  | 0x05 => some (.mark c (q 8))
  | 0x06 => some (.resume c (q 8) (q 16))
  | _ => none

/-- A nonzero reserved encoding or a misaligned operand of a command (R270, R275). -/
def Instr.commandOk : Instr → Bool
  | .launch _ d =>
    d.code.toNat % 64 == 0 && d.ctxBase.toNat % 65536 == 0 && d.sigAddr.toNat % 8 == 0 && d.bpol != 3 &&
    [d.igd, d.ix, d.iy, d.iz].all (fun a => a.toNat % 4 == 0)
  | .waitsig _ a _ _ => a.toNat % 8 == 0
  | .setsigSet _ a _ => a.toNat % 8 == 0
  | .setsigAdd _ a _ => a.toNat % 8 == 0
  | .setsigDec _ a _ => a.toNat % 8 == 0
  | .hcopy _ _ _ _ g => g.toNat % 8 == 0
  | _ => true

/-- A host command from the bytes of its entries, 64 or (LAUNCH) 256 of them zero-extended; the error halts the queue with
BAD_COMMAND (R270). -/
def decodeCommand (w : BitVec 2048) : Except DecodeError Instr :=
  match parseCommand w with
  | none => .error .badCommand
  | some i => if i.commandOk then (if i.encodeCommand = some w then .ok i else .error .unusedField) else .error .illFormed

/-! ## The fetch line (R318, R319) -/

/-- Slot `k` of a 512-bit line. -/
def lineSlot (l : BitVec 512) (k : Nat) : BitVec 96 := l.extractLsb' (32 + 96 * k) 96
/-- LINE.TGT of slot `k`. -/
def lineTgt (l : BitVec 512) (k : Nat) : Bool := l.getLsbD k
/-- LINE.PAIR of slots `j` and `j + 1`. -/
def linePair (l : BitVec 512) (j : Nat) : Bool := l.getLsbD (5 + j)
/-- The reserved field of the line word, nonzero: ILLEGAL_LINE (R320). -/
def lineBad (l : BitVec 512) : Bool := l.extractLsb' 15 17 != 0

/-- Whether a word holds an odd number of ones. -/
def oddOnes : (n : Nat) → BitVec n → Bool
  | n, w => (List.range n).foldl (fun a i => a != w.getLsbD i) false

/-- PARW fails (R319): counted against every slot (R321). -/
def lineParwBad (l : BitVec 512) : Bool := oddOnes 14 (l.extractLsb' 0 14) != l.getLsbD 14
/-- PAR bit of slot `k` fails. -/
def lineParBad (l : BitVec 512) (k : Nat) : Bool := oddOnes 96 (lineSlot l k) != l.getLsbD (9 + k)

/-- The line that holds `w` in slot 0 and NOPs after it, with slot 0 a target and the parities of R319. -/
def lineOf (w : BitVec 96) : BitVec 512 :=
  let par := oddOnes 96 w
  let lw : BitVec 14 := (0#4 ++ (BitVec.ofBool par ++ (0#4 ++ 1#5)))
  0#384 ++ (w ++ (0#17 ++ (BitVec.ofBool (oddOnes 14 lw) ++ lw)))

/-! ## The host's question -/

/-- The instruction read from an instruction whose bits are `w`: a slot word for up to 96 bits, host command entries for
more. A word that raises ILLEGAL_INSTR for another reason than its OPC is refused. -/
def decodeTableWord (nbits w : Nat) : Option Instr :=
  if nbits ≤ 96 then
    match decodeSlot (BitVec.ofNat 96 w) with
    | .ok i => some i
    | .error _ => none
  else
    match decodeCommand (BitVec.ofNat 2048 w) with
    | .ok i => some i
    | .error _ => none

end Sys2Proof
end

