-- ==== Sys2Proof/Machine/Store.lean ====
section
/-! DEFINITION. Operations on the sorted maps and stores of Word.lean, bytes of words, and lane masks. -/

namespace Sys2Proof

/-! ## Maps -/

/-- The value at a key. -/
def SMap.find {α : Type} : SMap α → Nat → Option α
  | [], _ => none
  | (k', v) :: m, k => if k = k' then some v else SMap.find m k

/-- Put a value at a key, keeping the keys rising. -/
def SMap.put {α : Type} : SMap α → Nat → α → SMap α
  | [], k, v => [(k, v)]
  | (k', v') :: m, k, v =>
    if k < k' then (k, v) :: (k', v') :: m else if k = k' then (k, v) :: m else (k', v') :: SMap.put m k v

/-- Remove a key. -/
def SMap.del {α : Type} (m : SMap α) (k : Nat) : SMap α := m.filter (fun kv => kv.1 != k)

def SMap.keys {α : Type} (m : SMap α) : List Nat := m.map Prod.fst
def SMap.vals {α : Type} (m : SMap α) : List α := m.map Prod.snd

/-- The keys rise strictly: the canonical form of a map. -/
def SMap.sorted {α : Type} : SMap α → Bool
  | [] => true
  | [_] => true
  | (k, _) :: (k', v') :: m => decide (k < k') && SMap.sorted ((k', v') :: m)

/-- The lowest natural number at or above `n` that is no key. -/
def SMap.fresh {α : Type} (m : SMap α) (n : Nat) : Nat :=
  m.foldl (fun k kv => if kv.1 = k then k + 1 else k) n

/-! ## Stores -/

/-- Read a cell: zero where nothing is listed. -/
def Store.rd {w : Nat} (m : Store w) (k : Nat) : BitVec w := (SMap.find m k).getD 0

/-- Write a cell: writing zero removes it. -/
def Store.wr {w : Nat} (m : Store w) (k : Nat) (v : BitVec w) : Store w :=
  if v = 0 then SMap.del m k else SMap.put m k v

/-- The canonical form of a store: keys strictly rising and no cell zero. -/
def Store.wf {w : Nat} (m : Store w) : Bool := SMap.sorted m && m.all (fun kv => kv.2 != 0)

/-- Write several cells. -/
def Store.wrs {w : Nat} (m : Store w) (kvs : List (Nat × BitVec w)) : Store w :=
  kvs.foldl (fun m kv => Store.wr m kv.1 kv.2) m

/-- Remove the cells of a range. -/
def Store.clear {w : Nat} (m : Store w) (base len : Nat) : Store w :=
  m.filter (fun kv => decide (kv.1 < base) || decide (base + len ≤ kv.1))

/-- The cells of a range, moved to offset zero. -/
def Store.slice {w : Nat} (m : Store w) (base len : Nat) : Store w :=
  (m.filter (fun kv => decide (base ≤ kv.1) && decide (kv.1 < base + len))).map (fun kv => (kv.1 - base, kv.2))

/-- Put the cells of `t`, moved up by `base`, in place of those of the range. -/
def Store.paste {w : Nat} (m : Store w) (base len : Nat) (t : Store w) : Store w :=
  Store.wrs (Store.clear m base len) (t.map (fun kv => (kv.1 + base, kv.2)))

/-- Little-endian bytes of a value, `n` of them. -/
def bytesOf (n v : Nat) : List Byte := (List.range n).map (fun i => BitVec.ofNat 8 (v / 256 ^ i))

/-- The value of little-endian bytes. -/
def ofBytes (bs : List Byte) : Nat := bs.foldr (fun b a => b.toNat + 256 * a) 0

/-- `n` bytes at an address. -/
def Store.bytes (m : Store 8) (a n : Nat) : List Byte := (List.range n).map (fun i => Store.rd m (a + i))

/-- The little-endian value of `n` bytes at an address. -/
def Store.load (m : Store 8) (a n : Nat) : Nat := ofBytes (Store.bytes m a n)

/-- Write bytes from an address upward. -/
def Store.putBytes (m : Store 8) (a : Nat) : List Byte → Store 8
  | [] => m
  | b :: bs => Store.putBytes (Store.wr m a b) (a + 1) bs

/-- Write the `n` low bytes of a value, little-endian. -/
def Store.store (m : Store 8) (a n v : Nat) : Store 8 := Store.putBytes m a (bytesOf n v)

/-! ## Bytes laid into a store -/

/-- The cells of a store of bytes, moved up. -/
def shifted (m : Store 8) (base : Nat) : Store 8 := m.map (fun kv => (base + kv.1, kv.2))

/-- Some bytes as a store, from an address upward. -/
def packed (base : Nat) (bs : List Byte) : Store 8 := (bs.zipIdx.map (fun bi => (base + bi.2, bi.1))).filter (fun kv => kv.2 != 0)

/-- The four bytes of each word of a store. -/
def bytesOfWords (m : Store 32) (base : Nat) : Store 8 :=
  m.flatMap (fun kv => packed (base + 4 * kv.1) (bytesOf 4 kv.2.toNat))

/-- A store of words of `n` bytes from a function of the index. -/
def unpacked {w : Nat} (count : Nat) (f : Nat → Nat) : Store w :=
  ((List.range count).map (fun i => (i, BitVec.ofNat w (f i)))).filter (fun kv => kv.2 != 0)

/-! ## Lane masks -/

/-- The lanes of a mask, ascending. -/
def lanesOf (m : BitVec 32) : List Nat := (List.range 32).filter (fun i => m.getLsbD i)

/-- The mask of the lanes that satisfy a test. -/
def maskOf (f : Nat → Bool) : BitVec 32 :=
  (List.range 32).foldl (fun m i => if f i then m ||| (1#32 <<< i) else m) 0

/-- The lowest lane of a mask; zero for an empty mask. -/
def lowLane (m : BitVec 32) : Nat := ((lanesOf m).head?).getD 0

/-- Number of lanes in a mask. -/
def laneCount (m : BitVec 32) : Nat := (lanesOf m).length

/-- The blocks of `n` bytes that some bytes touch, without repeats (R228). -/
def blocksOf (n : Nat) (as : List Nat) : List Nat :=
  as.foldl (fun bs a => if bs.contains (a / n) then bs else bs ++ [a / n]) []

/-- Round up to a multiple. -/
def roundUp (n m : Nat) : Nat := (n + m - 1) / m * m

/-- Divide rounding up. -/
def cdiv (n m : Nat) : Nat := (n + m - 1) / m

/-- Insert into a list sorted by a test, after what comes before it. -/
def insertBy {α : Type} (lt : α → α → Bool) (x : α) : List α → List α
  | [] => [x]
  | y :: l => if lt x y then x :: y :: l else y :: insertBy lt x l

/-- Sort by a strict order, keeping the order of equals. -/
def sortBy {α : Type} (lt : α → α → Bool) (l : List α) : List α := l.foldl (fun r x => insertBy lt x r) []

/-- Sign-extend the `w` low bits of a Nat to an Int. -/
def sInt (w n : Nat) : Int := (BitVec.ofNat w n).toInt

end Sys2Proof
end

