-- ==== Sys2Proof/Machine/Fp.lean ====
section
/-! DEFINITION. Floating-point arithmetic (R174, R182 to R188): values as exact dyadic numbers, one rounding, the
exceptions in FLG order; conversions (R186), code search (R179) and the functions of SFN (R185). -/

namespace Sys2Proof.Fp

open Sys2Proof

/-- A format: bits of exponent and fraction (R174). -/
structure Fmt where
  ew : Nat
  fw : Nat
deriving DecidableEq, Repr

def f64 : Fmt := ⟨11, 52⟩
def f32 : Fmt := ⟨8, 23⟩
def f16 : Fmt := ⟨5, 10⟩
def bf16 : Fmt := ⟨8, 7⟩

def Fmt.bias (f : Fmt) : Nat := 2 ^ (f.ew - 1) - 1
def Fmt.expMax (f : Fmt) : Nat := 2 ^ f.ew - 1
/-- Exponent of the last bit of a subnormal. -/
def Fmt.emin (f : Fmt) : Int := 1 - (f.bias : Int) - (f.fw : Int)
def Fmt.signBit (f : Fmt) : Nat := 2 ^ (f.ew + f.fw)
def Fmt.infBits (f : Fmt) (neg : Bool) : Nat := (if neg then f.signBit else 0) + f.expMax * 2 ^ f.fw
def Fmt.nanBits (f : Fmt) : Nat := f.expMax * 2 ^ f.fw + 2 ^ (f.fw - 1)
def Fmt.maxBits (f : Fmt) (neg : Bool) : Nat := f.infBits neg - 1
def Fmt.zeroBits (f : Fmt) (neg : Bool) : Nat := if neg then f.signBit else 0

/-- A floating value: NaN (signalling or not), infinity, or the exact number (-1)^neg * m * 2^e. -/
inductive Val
  | nan (sig : Bool)
  | inf (neg : Bool)
  | fin (neg : Bool) (m : Nat) (e : Int)
deriving DecidableEq, Repr

/-- The value of an encoding. -/
def decode (f : Fmt) (b : Nat) : Val :=
  let frac := b % 2 ^ f.fw
  let ex := b / 2 ^ f.fw % 2 ^ f.ew
  let neg := b / f.signBit % 2 == 1
  if ex = f.expMax then (if frac = 0 then .inf neg else .nan (frac / 2 ^ (f.fw - 1) == 0))
  else if ex = 0 then .fin neg frac f.emin
  else .fin neg (2 ^ f.fw + frac) (f.emin + (ex : Int) - 1)

/-- The encoding is a subnormal. -/
def isSubnormal (f : Fmt) (b : Nat) : Bool := b / 2 ^ f.fw % 2 ^ f.ew == 0 && b % 2 ^ f.fw != 0

/-- The value of an input, subnormals read as zero under FTZ (R183). -/
def decodeIn (f : Fmt) (ftz : Bool) (b : Nat) : Val :=
  if ftz && isSubnormal f b then .fin (b / f.signBit % 2 == 1) 0 0 else decode f b

/-! ## Exceptions: INV, DZ, OVF, UNF, INX at bits 0 to 4 (R180) -/

abbrev Flags := BitVec 5
def inv : Flags := 1
def dz : Flags := 2
def ovf : Flags := 4
def unf : Flags := 8
def inx : Flags := 16

/-- A result: the encoding and the exceptions raised. -/
structure Res where
  bits : Nat
  flags : Flags := 0
deriving DecidableEq, Repr

/-- Rounding modes: those of FMODE.RM, and ties away from zero for S8 and Z8 (R186). -/
inductive Mode | rn | rz | ru | rd | rna
deriving DecidableEq, Repr

def Mode.of : Rnd → Mode
  | .rn => .rn
  | .rz => .rz
  | .ru => .ru
  | .rd => .rd

/-- m * 2^(-k) rounded to an integer; `more` says that the exact magnitude lies a little above m. -/
def roundShift (md : Mode) (neg : Bool) (m k : Nat) (more : Bool) : Nat × Bool :=
  let q := m / 2 ^ k
  let r := m % 2 ^ k
  let exact := r = 0 && !more
  let up : Bool :=
    match md with
    | .rn => decide (2 ^ k < 2 * r) || (2 * r == 2 ^ k && (more || q % 2 == 1) && k != 0)
    | .rna => decide (2 ^ k ≤ 2 * r) && k != 0
    | .rz => false
    | .ru => !exact && !neg
    | .rd => !exact && neg
  (if up then q + 1 else q, !exact)

/-- Round the exact number (-1)^neg * m * 2^e, m nonzero, to a format (R182). `more`: the exact magnitude lies above it by
less than 2^e. -/
def roundTo (f : Fmt) (md : Mode) (ftz neg : Bool) (m : Nat) (e : Int) (more : Bool) : Res :=
  let sgn := f.zeroBits neg
  let top : Int := e + (Nat.log2 m : Int)
  let q : Int := max (top - (f.fw : Int)) f.emin
  -- scale so that the last bit kept has weight 2^q
  let (m, e) : Nat × Int := if q < e then (m * 2 ^ (e - q).toNat, q) else (m, e)
  let (r, inexact) := roundShift md neg m (q - e).toNat more
  let bits : Nat := if r < 2 ^ f.fw then r else ((q - f.emin).toNat + 1) * 2 ^ f.fw + (r - 2 ^ f.fw)
  if f.expMax * 2 ^ f.fw ≤ bits then
    let toInf : Bool := match md with
      | .rn => true
      | .rna => true
      | .rz => false
      | .ru => !neg
      | .rd => neg
    { bits := if toInf then f.infBits neg else f.maxBits neg, flags := ovf ||| inx }
  else
    -- tiny after rounding as if the exponent had no lower limit
    let minTop : Int := f.emin + (f.fw : Int)
    let q' : Int := top - (f.fw : Int)
    let (m', e') : Nat × Int := if q' < e then (m * 2 ^ (e - q').toNat, q') else (m, e)
    let (r', _) := roundShift md neg m' (q' - e').toNat more
    let tiny : Bool := decide (top < minTop) && !(top + 1 == minTop && r' == 2 ^ (f.fw + 1))
    if ftz && bits != 0 && decide (bits < 2 ^ f.fw) then { bits := sgn, flags := unf ||| inx }
    else { bits := sgn + bits, flags := if inexact then (if tiny then unf ||| inx else inx) else 0 }

/-- Encode a value: canonical NaN, infinity, signed zero, or one rounding. -/
def encode (f : Fmt) (md : Mode) (ftz : Bool) (v : Val) : Res :=
  match v with
  | .nan _ => { bits := f.nanBits }
  | .inf n => { bits := f.infBits n }
  | .fin n m e => if m = 0 then { bits := f.zeroBits n } else roundTo f md ftz n m e false

def Val.neg : Val → Val
  | .nan s => .nan s
  | .inf n => .inf (!n)
  | .fin n m e => .fin (!n) m e

def Val.isNan : Val → Bool
  | .nan _ => true
  | _ => false

def Val.isSig : Val → Bool
  | .nan s => s
  | _ => false

def Val.isZero : Val → Bool
  | .fin _ m _ => m == 0
  | _ => false

def signed (n : Bool) (m : Nat) : Int := if n then -(m : Int) else m

/-- Exact sum; the sign of an exact zero follows R182 under the rounding in force. The flag is infinity minus infinity. -/
def add (md : Mode) (a b : Val) : Val × Bool :=
  match a, b with
  | .nan _, _ => (.nan false, false)
  | _, .nan _ => (.nan false, false)
  | .inf x, .inf y => if x = y then (.inf x, false) else (.nan false, true)
  | .inf x, _ => (.inf x, false)
  | _, .inf y => (.inf y, false)
  | .fin n1 m1 e1, .fin n2 m2 e2 =>
    let e := min e1 e2
    let t : Int := signed n1 (m1 * 2 ^ (e1 - e).toNat) + signed n2 (m2 * 2 ^ (e2 - e).toNat)
    if t = 0 then
      (.fin (if m1 = 0 ∧ m2 = 0 ∧ n1 = n2 then n1 else md == .rd) 0 0, false)
    else (.fin (decide (t < 0)) t.natAbs e, false)

/-- Exact product. The flag is zero times infinity. -/
def mul (a b : Val) : Val × Bool :=
  match a, b with
  | .nan _, _ => (.nan false, false)
  | _, .nan _ => (.nan false, false)
  | .inf x, .inf y => (.inf (x != y), false)
  | .inf x, .fin n m _ => if m = 0 then (.nan false, true) else (.inf (x != n), false)
  | .fin n m _, .inf y => if m = 0 then (.nan false, true) else (.inf (n != y), false)
  | .fin n1 m1 e1, .fin n2 m2 e2 => (.fin (n1 != n2) (m1 * m2) (e1 + e2), false)

def flagIf (b : Bool) (f : Flags) : Flags := if b then f else 0

def fadd (f : Fmt) (md : Mode) (ftz : Bool) (x y : Nat) : Res :=
  let a := decodeIn f ftz x
  let b := decodeIn f ftz y
  let (v, bad) := add md a b
  let r := encode f md ftz v
  { r with flags := r.flags ||| flagIf (bad || a.isSig || b.isSig) inv }

def fsub (f : Fmt) (md : Mode) (ftz : Bool) (x y : Nat) : Res :=
  let a := decodeIn f ftz x
  let b := decodeIn f ftz y
  let (v, bad) := add md a b.neg
  let r := encode f md ftz v
  { r with flags := r.flags ||| flagIf (bad || a.isSig || b.isSig) inv }

def fmul (f : Fmt) (md : Mode) (ftz : Bool) (x y : Nat) : Res :=
  let a := decodeIn f ftz x
  let b := decodeIn f ftz y
  let (v, bad) := mul a b
  let r := encode f md ftz v
  { r with flags := r.flags ||| flagIf (bad || a.isSig || b.isSig) inv }

/-- Fused multiply-add: the exact product and the addend, rounded once (R182); zero times infinity is invalid whatever the
addend (R184). -/
def ffma (f : Fmt) (md : Mode) (ftz : Bool) (x y z : Nat) : Res :=
  let a := decodeIn f ftz x
  let b := decodeIn f ftz y
  let c := decodeIn f ftz z
  let (p, bad1) := mul a b
  let zeroInf := match a, b with
    | .inf _, .fin _ 0 _ => true
    | .fin _ 0 _, .inf _ => true
    | _, _ => false
  let (v, bad2) := if zeroInf then (.nan false, true) else add md p c
  let r := encode f md ftz v
  { r with flags := r.flags ||| flagIf (bad1 || bad2 || a.isSig || b.isSig || c.isSig) inv }

/-- Order of two values that are no NaN, -0 below +0 when `zeros`. -/
def lt (zeros : Bool) (a b : Val) : Bool :=
  match a, b with
  | .nan _, _ => false
  | _, .nan _ => false
  | .inf x, .inf y => x && !y
  | .inf x, _ => x
  | _, .inf y => !y
  | .fin n1 m1 e1, .fin n2 m2 e2 =>
    let e := min e1 e2
    let x := signed n1 (m1 * 2 ^ (e1 - e).toNat)
    let y := signed n2 (m2 * 2 ^ (e2 - e).toNat)
    decide (x < y) || (zeros && m1 == 0 && m2 == 0 && n1 && !n2)

/-- minimumNumber and maximumNumber (R184); the result is one of the inputs, a subnormal flushed under FTZ. -/
def fmnmx (f : Fmt) (ftz mx : Bool) (x y : Nat) : Res :=
  let a := decodeIn f ftz x
  let b := decodeIn f ftz y
  let fl := flagIf (a.isSig || b.isSig) inv
  let keep (n : Nat) : Nat := if ftz && isSubnormal f n then f.zeroBits (n / f.signBit % 2 == 1) else n
  if a.isNan && b.isNan then { bits := f.nanBits, flags := fl }
  else if a.isNan then { bits := keep y, flags := fl }
  else if b.isNan then { bits := keep x, flags := fl }
  else if mx then { bits := if lt true a b then keep y else keep x, flags := fl }
  else { bits := if lt true b a then keep y else keep x, flags := fl }

/-- Relations of FSETP (R184). -/
def fcmp (f : Fmt) (ftz : Bool) (c : Cmp) (x y : Nat) : Bool × Flags :=
  let a := decodeIn f ftz x
  let b := decodeIn f ftz y
  let un := a.isNan || b.isNan
  let sig := a.isSig || b.isSig
  let less := lt false a b
  let more := lt false b a
  let eq := !un && !less && !more
  match c with
  | .eq => (eq, flagIf sig inv)
  | .ne => (!eq, flagIf sig inv)
  | .lt => (less, flagIf un inv)
  | .gt => (more, flagIf un inv)
  | .le => (!un && !more, flagIf un inv)
  | .ge => (!un && !less, flagIf un inv)

/-! ## Conversions (R186) -/

/-- Encode the value of a conversion: one out of range gives the infinity of its sign, whatever the rounding (R186, log 77). -/
def encodeConv (dst : Fmt) (md : Mode) (ftz : Bool) (v : Val) : Res :=
  let r := encode dst md ftz v
  match v with
  | .fin n _ _ => if r.flags &&& ovf != 0 then { r with bits := dst.infBits n } else r
  | _ => r

/-- Floating to floating. -/
def fToF (src dst : Fmt) (md : Mode) (b : Nat) : Res :=
  let v := decode src b
  let r := encodeConv dst md false v
  { r with flags := r.flags ||| flagIf v.isSig inv }

/-- Round a finite value to an integer. -/
def toInt (md : Mode) (neg : Bool) (m : Nat) (e : Int) : Int × Bool :=
  if 0 ≤ e then (signed neg (m * 2 ^ e.toNat), false)
  else
    let (r, ix) := roundShift md neg m (-e).toNat false
    (signed neg r, ix)

/-- Floating to an integer type of limits lo and hi, in range or not as rounded (log 77); `narrow` for S8 and Z8, which never raise FP_INVALID but for NaN. The
result is the integer modulo 2^w. -/
def fToInt (src : Fmt) (md : Mode) (narrow : Bool) (lo hi : Int) (b : Nat) : Int × Flags :=
  match decode src b with
  | .nan _ => (0, inv)
  | .inf n => (if n then lo else hi, if narrow then inx else inv)
  | .fin n m e =>
    let (i, ix) := toInt md n m e
    if i < lo then (lo, if narrow then inx else inv)
    else if hi < i then (hi, if narrow then inx else inv)
    else (i, flagIf ix inx)

/-- Integer to floating. -/
def intToF (dst : Fmt) (md : Mode) (ftz : Bool) (i : Int) : Res :=
  encodeConv dst md ftz (.fin (decide (i < 0)) i.natAbs 0)

/-- FP32 to FP64 bits, as for a literal (R328). -/
def widen64 (b : Nat) : Nat := (fToF f32 f64 .rn b).bits

/-- Class bits of FCLASS, in the order of its entry: see `fclass`. -/
inductive Class | sNan | qNan | negInf | negNorm | negSub | negZero | posZero | posSub | posNorm | posInf
deriving DecidableEq, Repr

def classOf (f : Fmt) (b : Nat) : Class :=
  let neg := b / f.signBit % 2 == 1
  match decode f b with
  | .nan s => if s then .sNan else .qNan
  | .inf n => if n then .negInf else .posInf
  | .fin _ m _ =>
    if m = 0 then (if neg then .negZero else .posZero)
    else if isSubnormal f b then (if neg then .negSub else .posSub)
    else (if neg then .negNorm else .posNorm)

/-! ## Codes (R179) -/

/-- |x - e| of two finite values as a number over a common power of two. -/
def dist (n1 : Bool) (m1 : Nat) (e1 : Int) (n2 : Bool) (m2 : Nat) (e2 : Int) (e : Int) : Nat :=
  (signed n1 (m1 * 2 ^ (e1 - e).toNat) - signed n2 (m2 * 2 ^ (e2 - e).toNat)).natAbs

/-- Lowest index whose entry satisfies a test. -/
def findIdx (l : List Val) (t : Val → Bool) : Option Nat :=
  (List.range l.length).find? (fun i => match l[i]? with | some v => t v | none => false)

/-- Entry `a` is strictly better than the best so far for a finite x: nearer; of equal distance and different value, larger
in magnitude; of equal magnitude, nonzero and opposite sign, the one with the sign of x. -/
def better (neg : Bool) (m : Nat) (e : Int) (a best : Val) : Bool :=
  match a, best with
  | .fin n1 m1 e1, .fin n2 m2 e2 =>
    let k := min e (min e1 e2)
    let da := dist neg m e n1 m1 e1 k
    let db := dist neg m e n2 m2 e2 k
    let ma := m1 * 2 ^ (e1 - k).toNat
    let mb := m2 * 2 ^ (e2 - k).toNat
    decide (da < db) || (da == db && (decide (mb < ma) || (ma == mb && ma != 0 && n1 != n2 && n1 == neg)))
  | .fin _ _ _, _ => true
  | _, _ => false

/-- The code of a value in a slot of 16 BF16 entries (R179). -/
def encodeCode (book : List (BitVec 16)) (x : Val) : Nat × Flags :=
  let es := book.map (fun b => decode bf16 b.toNat)
  let live : List Nat := (List.range es.length).filter (fun i => match es[i]? with | some v => !v.isNan | none => false)
  let at_ (i : Nat) : Val := (es[i]?).getD (.nan false)
  let least (f : Val → Val → Bool) : Nat :=
    live.foldl (fun b i => if f (at_ i) (at_ b) then i else b) (live.headD 0)
  match x with
  | .nan _ => ((findIdx es Val.isNan).getD 0, inv)
  | .inf n =>
    if live.isEmpty then (0, inv)
    else (if n then least (fun a b => lt false a b) else least (fun a b => lt false b a), 0)
  | .fin n m e =>
    if live.isEmpty then (0, inv)
    else
      let fins := live.filter (fun i => match at_ i with | .fin _ _ _ => true | _ => false)
      match fins with
      | [] => ((findIdx es (fun v => v == .inf n)).getD (live.headD 0), 0)
      | i :: _ => (fins.foldl (fun b j => if better n m e (at_ j) (at_ b) then j else b) i, 0)

/-! ## SFN (R185): exact or correctly rounded from a fixed-point value of 448 fraction bits -/

def prec : Nat := 448

/-- Integer square root by bits, from bit `k` down. -/
def isqrt (n : Nat) : (k : Nat) → (r : Nat) → Nat
  | 0, r => r
  | k + 1, r => let t := r + 2 ^ k; if t * t ≤ n then isqrt n k t else isqrt n k r

/-- Sum of a series: each term from the one before it. -/
def series (step : Nat → Int → Int) : (fuel k : Nat) → (term acc : Int) → Int
  | 0, _, _, acc => acc
  | f + 1, k, t, acc => series step f (k + 1) (step k t) (acc + t)

/-- 2^448 * atan(1/n), or its hyperbolic twin. -/
def atanInv (hyp : Bool) (n : Nat) : Int :=
  let one : Int := 2 ^ prec
  let rec go : Nat → Nat → Int → Int → Int
    | 0, _, _, acc => acc
    | f + 1, k, p, acc =>
      let t := p / (2 * k + 1 : Nat)
      go f (k + 1) (p / (n * n : Nat)) (if hyp || k % 2 == 0 then acc + t else acc - t)
  go 290 0 (one / (n : Int)) 0

/-- pi / 2 and ln 2 in fixed point. -/
def halfPi : Int := 8 * atanInv false 5 - 2 * atanInv false 239
def ln2 : Int := 2 * atanInv true 3

def fxMul (a b : Int) : Int := a * b / 2 ^ prec

/-- exp, sin and cos of a fixed-point number of moderate size by their series. -/
def fxExp (x : Int) : Int := series (fun k t => fxMul t x / ((k : Int) + 1)) 130 0 (2 ^ prec) 0
def fxSin (x : Int) : Int :=
  series (fun k t => -(fxMul (fxMul t x) x) / (((2 * k + 2 : Nat) : Int) * ((2 * k + 3 : Nat) : Int))) 70 0 x 0
def fxCos (x : Int) : Int :=
  series (fun k t => -(fxMul (fxMul t x) x) / (((2 * k + 1 : Nat) : Int) * ((2 * k + 2 : Nat) : Int))) 70 0 (2 ^ prec) 0

/-- ln of a fixed-point number in [1, 2). -/
def fxLn (y : Int) : Int :=
  let one : Int := 2 ^ prec
  let z := (y - one) * 2 ^ prec / (y + one)
  let z2 := fxMul z z
  let rec go : Nat → Nat → Int → Int → Int
    | 0, _, _, acc => acc
    | f + 1, k, p, acc => go f (k + 1) (fxMul p z2) (acc + p / ((2 * k + 1 : Nat) : Int))
  2 * go 150 0 z 0

/-- Fixed point of an exact number: floor. -/
def toFx (neg : Bool) (m : Nat) (e : Int) : Int :=
  let k : Int := e + (prec : Int)
  if 0 ≤ k then signed neg (m * 2 ^ k.toNat) else signed neg m / (2 ^ (-k).toNat : Nat)

/-- Round an inexact fixed-point result, scaled by 2^sc, to FP32. -/
def ofFx (ftz : Bool) (v sc : Int) : Res :=
  if v = 0 then { bits := 0, flags := unf ||| inx } else roundTo f32 .rn ftz (decide (v < 0)) v.natAbs (sc - (prec : Int)) true

inductive Sfn | rcp | rsq | sqrt | exp2 | log2 | sin | cos | tanh
deriving DecidableEq, Repr

/-- A value at or above 2^11 in magnitude. -/
def huge (m : Nat) (e : Int) : Bool := m != 0 && decide (11 ≤ e + (Nat.log2 m : Int))

def exp2Fin (ftz neg : Bool) (m : Nat) (e : Int) : Res :=
  if m = 0 then { bits := 0x3F800000 }
  else if huge m e then roundTo f32 .rn ftz false 1 (if neg then -4000 else 4000) true
  else
    let x := toFx neg m e
    let n : Int := x / 2 ^ prec
    let fr := x % 2 ^ prec
    if fr = 0 then roundTo f32 .rn ftz false 1 n false
    else ofFx ftz (fxExp (fxMul fr ln2)) n

def log2Fin (ftz : Bool) (m : Nat) (e : Int) : Res :=
  let t := Nat.log2 m
  let ex : Int := e + (t : Int)
  let y : Int := (m * 2 ^ (prec - t) : Nat)
  if y = 2 ^ prec then encode f32 .rn ftz (.fin (decide (ex < 0)) ex.natAbs 0)
  else ofFx ftz (ex * 2 ^ prec + fxLn y * 2 ^ prec / ln2) 0

/-- sin or cos of a finite nonzero number: reduced by the quadrant of pi / 2. -/
def trigFin (ftz cos neg : Bool) (m : Nat) (e : Int) : Res :=
  let x : Int := toFx false m e
  let k := x / halfPi
  let r := x % halfPi
  let quad := ((if cos then k + 1 else k) % 4).toNat
  let v : Int := match quad with
    | 0 => fxSin r
    | 1 => fxCos r
    | 2 => -(fxSin r)
    | _ => -(fxCos r)
  ofFx ftz (if neg && !cos then -v else v) 0

def tanhFin (ftz neg : Bool) (m : Nat) (e : Int) : Res :=
  if m = 0 then { bits := f32.zeroBits neg }
  else
    let one : Int := 2 ^ prec
    let v : Int :=
      if decide (6 ≤ e + (Nat.log2 m : Int)) then one - 1
      else
        let y := 2 * toFx false m e
        let n := y / ln2
        let x := fxExp (y % ln2) * 2 ^ n.toNat
        (x - one) * one / (x + one)
    ofFx ftz (if neg then -v else v) 0

/-- The special functions on FP32 (R185), FTZ applied to inputs and results. -/
def sfn (f : Sfn) (ftz : Bool) (b : Nat) : Res :=
  let v := decodeIn f32 ftz b
  let sig := flagIf v.isSig inv
  let nan (fl : Flags) : Res := { bits := f32.nanBits, flags := fl }
  match v with
  | .nan _ => nan sig
  | .inf n =>
    match f with
    | .rcp => { bits := f32.zeroBits n }
    | .rsq => if n then nan inv else { bits := 0 }
    | .sqrt => if n then nan inv else { bits := f32.infBits false }
    | .exp2 => if n then { bits := 0 } else { bits := f32.infBits false }
    | .log2 => if n then nan inv else { bits := f32.infBits false }
    | .sin => nan inv
    | .cos => nan inv
    | .tanh => { bits := if n then 0xBF800000 else 0x3F800000 }
  | .fin n m e =>
    match f with
    | .rcp =>
      if m = 0 then { bits := f32.infBits n, flags := dz }
      else
        let q := 2 ^ 100 / m
        roundTo f32 .rn ftz n q (-e - 100) (2 ^ 100 % m != 0)
    | .rsq =>
      if m = 0 then { bits := f32.infBits n, flags := dz }
      else if n then nan inv
      else
        -- 1 / sqrt(m * 2^e), with e made even
        let (m, e) : Nat × Int := if e % 2 = 0 then (m, e) else (2 * m, e - 1)
        let q := 2 ^ 200 / m
        let r := isqrt q 101 0
        roundTo f32 .rn ftz false r (-e / 2 - 100) (r * r * m != 2 ^ 200)
    | .sqrt =>
      if m = 0 then { bits := f32.zeroBits n }
      else if n then nan inv
      else
        let (m, e) : Nat × Int := if e % 2 = 0 then (m, e) else (2 * m, e - 1)
        let r := isqrt (m * 2 ^ 100) 70 0
        roundTo f32 .rn ftz false r (e / 2 - 50) (r * r != m * 2 ^ 100)
    | .exp2 => exp2Fin ftz n m e
    | .log2 => if m = 0 then { bits := f32.infBits true, flags := dz } else if n then nan inv else log2Fin ftz m e
    | .sin => if m = 0 then { bits := f32.zeroBits n } else trigFin ftz false n m e
    | .cos => if m = 0 then { bits := 0x3F800000 } else trigFin ftz true n m e
    | .tanh => tanhFin ftz n m e

/-- Round to nearest even into FP32, no exception (R191): the tree's nodes. -/
def rne32 (a b : Val) : Val := decode f32 (encode f32 .rn false (add .rn a b).1).bits

end Sys2Proof.Fp
end

