-- ==== Sys2Proof/Config.lean ====
section
/-! DEFINITION. What the spec leaves open: free values (opaque, numbered by `State.tick`), what an implementation fixes, and
the cryptography of the root of trust. No opaque constant has a body, so nothing can be proved of its value. -/

namespace Sys2Proof.Config

open Sys2Proof

/-- Which of the things that may happen next happens (log 1). -/
opaque pick : Nat → Nat
/-- Nanoseconds that pass in a step (log 4). -/
opaque elapsed : Nat → Nat
/-- Cycles of a core's clock that pass in a step (log 4). -/
opaque cycles : Nat → Nat
/-- A value that the spec leaves undefined, of 32 bits, by tick and place. -/
opaque freeWord : Nat → Nat → BitVec 32
/-- A choice that the spec leaves to the device, by tick and place. -/
opaque freeBool : Nat → Nat → Bool
/-- Energy of a core's scrub in fJ, by tick (R313 charges it and states no amount). -/
opaque scrubCost : Nat → Nat
/-- What places a calibrated coefficient in its range (R226, log 7). -/
opaque calibration : Nat → Nat
/-- A pass of the gang saw fails its checksum without an injected error, by tick and pass (R205, R208). -/
opaque arrayFault : Nat → Nat → Bool
/-- Signatures of the identity key (R307, log 9). -/
opaque sign : BitVec 512 → BitVec 1056
/-- Verification of a P-521 signature r, s by an uncompressed public key over a digest (R282, log 9). -/
opaque verify : BitVec 1064 → BitVec 512 → BitVec 528 → BitVec 528 → Bool
/-- Verification of a firmware image's signature (R305, R287, log 9). -/
opaque imageOk : BitVec 512 → Bool
/-- Verification of the SPDM FINISH message (R281, log 9). -/
opaque finishOk : BitVec 32 → BitVec 512 → Bool
/-- The certificate chain of slot 0 (R307, log 9). -/
opaque certificate : List Byte
/-- Bits of ROM version and fuse configuration, and images of the firmware stages at boot (R306, log 9). -/
opaque bootImage : Nat → BitVec 512
/-- SPDM capability flags, and version number (R281, log 9). -/
opaque spdmFlags : BitVec 32
/-- The session number of a KEY_EXCHANGE (R281, log 9). -/
opaque sessionId : BitVec 16 → BitVec 32
/-- Bytes of a connection's encrypted entry in the spill area, by tick and place (R294). -/
opaque cipher : Nat → Nat → Byte
/-- Rows that can still be mapped to spares (R317). -/
opaque spareLeft : Nat → Bool

/-- Nominal coefficients in fJ (R227). -/
def nominal (c : Nat) : Nat :=
  match c with
  | 0 => 40000
  | 1 => 56000
  | 2 => 120000
  | 3 => 90000
  | 4 => 2000
  | 5 => 3000
  | 6 => 18000
  | 7 => 15000
  | 8 => 9000
  | 9 => 30000
  | 10 => 220000
  | 11 => 400000
  | 12 => 1600000
  | 13 => 150000
  | 14 => 25000
  | 15 => 96000000
  | 16 => 112000000
  | 17 => 80000000
  | 18 => 130000000
  | 19 => 3000000
  | 20 => 25000
  | 21 => 2000000
  | 22 => 200000
  | 23 => 1200000
  | _ => 0

/-- Calibrated coefficients in fJ by event class: each within 0.80 to 1.25 times its nominal value (R226, log 7). -/
def coef (c : Nat) : Nat :=
  let low := nominal c * 4 / 5
  low + calibration c % (nominal c * 5 / 4 - low + 1)

end Sys2Proof.Config
end

