-- ==== Sys2Proof/Machine/State.lean ====
section
/-! DEFINITION. The state of the part as plain data: groups with their context records, cores, dies, teams, launches,
functions, leaves, the device-wide units, memory, and what is under way between them. Every structure's default value is
its value at reset; `State.reset` is the machine right after device reset. -/

namespace Sys2Proof.Machine

open Sys2Proof

/-- Why a step stops. -/
inductive Fault
  /-- Raised by a meaning that is asked for an instruction or event whose enabling condition the state does not meet: a
  word with no issuing entry or with an entry that cannot issue in this state (R81), an event whose unit, message or
  object is not there. `step` takes no such instruction, so no run ends in it. Safe. -/
  | notEnabled
deriving DecidableEq, Repr

/-- Why a step gives an instruction no meaning. -/
inductive Refusal
  /-- Raised by an arm of `exec` whose instruction has no meaning yet. Safe: nothing can be proved of such a step. -/
  | notModelled (mnemonic : String)
deriving DecidableEq, Repr

/-! ## Groups (chapters 2, 3, 4, 10 and 14) -/

/-- STATE of a frontier entry (R41), without FREE: a free entry is no list element. -/
inductive EState | ready | conv | parked | blocked
deriving DecidableEq, Repr

/-- A frontier entry (R41). -/
structure Entry where
  pc : VAddr := 0
  fr : Bool := false
  fseq : BitVec 5 := 0
  prio : BitVec 8 := 128
  st : EState := .ready
  frag : BitVec 5 := 0
  parent : BitVec 5 := 0
  skip : BitVec 11 := 0
  mask : BitVec 32 := 0
deriving DecidableEq, Repr

/-- A region register (R91); the default value is EMPTY. -/
structure Region where
  base : BitVec 57 := 0
  len : BitVec 40 := 0
  kind : BitVec 4 := 0
  grain : BitVec 2 := 0
  handle : BitVec 24 := 0
  lent : Bool := false
  part : Bool := false
  orph : Bool := false
  pend : Bool := false
  ph : Bool := false
  nm1 : BitVec 8 := 0
  pidx : BitVec 8 := 0
  pgrp : BitVec 16 := 0
  pq : BitVec 4 := 0
  mboff : BitVec 19 := 0
  drv : Bool := false
deriving DecidableEq, Repr

/-- The trap frame (R247). -/
structure Frame where
  cause : BitVec 8 := 0
  impr : Bool := false
  pv : Bool := false
  busy : Bool := false
  dbg : Bool := false
  frag : BitVec 5 := 0
  parent : BitVec 5 := 0
  lanes : BitVec 32 := 0
  sibs : BitVec 32 := 0
  skid : BitVec 6 := 0
  prio : BitVec 8 := 0
  pc : VAddr := 0
  rpc : VAddr := 0
  faddr : BitVec 57 := 0
  info : BitVec 32 := 0
  save : BitVec 512 := 0
deriving DecidableEq, Repr

/-- A wake record in use (R62). -/
structure Wake where
  /-- its place among the eight of the header: the lowest free one when it was written -/
  slot : Nat := 0
  code : BitVec 4
  frag : BitVec 5
  arg : BitVec 16 := 0
  addr : BitVec 64 := 0
  value : BitVec 64 := 0
  /-- the waiter is a JOIN: its region register loses LENT when it wakes (R109) -/
  join : Option (BitVec 4) := none
  /-- the waiter is a SIGW of scope SYSTEM under the clamp: it sets CLAMP as it executes (R154) -/
  clamp : Bool := false
deriving DecidableEq, Repr

/-- State of a cached vector register line (R65); ABSENT and DEAD lines are not cached. -/
inductive LineSt | filling | clean | dirty
deriving DecidableEq, Repr

/-- A vector register line in a quarter, its data by lane. -/
structure Line where
  st : LineSt
  data : Store 32 := []
  /-- FILLING: lanes written since the fill began, which `data` holds (R66), and whether the fill missed the L1 (R70) -/
  got : BitVec 32 := 0
  long : Bool := false
deriving DecidableEq, Repr

/-- Names of registers for the scoreboard. -/
inductive RegRef
  | v (n : Nat)
  | s (n : Nat)
  | p (n : Nat)
  | x (n : Nat)
  | l (n : Nat)
deriving DecidableEq, Repr

/-- What a pending register waits for (R52, R81): a load, a token (wake code 5), an RLD's data (wake code 6). -/
inductive PendKind | load | token | rld
deriving DecidableEq, Repr

/-- A destination that awaits a result, with the number of the access or command that will write it. -/
structure Pend where
  reg : RegRef
  kind : PendKind
  op : Nat
  /-- lanes whose value awaits the result -/
  lanes : BitVec 32
deriving DecidableEq, Repr

/-- A trap held for delivery (R248) or about to be delivered: what the frame of R247 records of it. -/
structure TrapInfo where
  cause : BitVec 8
  impr : Bool := false
  lanes : BitVec 32 := 0
  pc : VAddr := 0
  rpc : VAddr := 0
  skid : BitVec 6 := 0
  faddr : BitVec 57 := 0
  info : BitVec 32 := 0
deriving DecidableEq, Repr

/-- The arrival of an entry at an MMA or FTILE (R82, R198, R474); the READY entry is known by its PC and PRIO. -/
structure Arrival where
  pc : VAddr
  prio : BitVec 8
  /-- guard of the instruction -/
  g : Guard := { gp := 7, gn := false }
  /-- none for FTILE; the block offset of MMA -/
  block : Option Nat
  /-- first scalar of FTILE's result -/
  sd : BitVec 7 := 0
  /-- sr.clock of its core at the arrival -/
  at_ : BitVec 64 := 0
deriving DecidableEq, Repr

/-- A translation (R140, R143): virtual base and size of the effective page, home base, class, grain, permissions of both
stages together and those of stage 1 alone. -/
structure Xlat where
  vf : Nat
  va : Nat
  size : Nat
  home : Nat
  cls : BitVec 2
  grain : BitVec 2
  rd : Bool
  wr : Bool
  ex : Bool
  rd1 : Bool := true
  wr1 : Bool := true
  ex1 : Bool := true
deriving DecidableEq, Repr

/-- A BOR that awaits its answer (R99): the register as a grant will write it, the status scalar, .TRY, and number. -/
structure PendBor where
  region : Region
  sd : Nat
  try_ : Bool
  op : Nat
  /-- lanes whose guard passed, and lanes that a .TRY keeps from issuing until its answer (R99) -/
  pass : BitVec 32 := 0
  stay : BitVec 32 := 0
deriving DecidableEq, Repr

/-- Where a group stands (R63, R76): RES and what the model needs beside it. -/
inductive Res | pending | active | guest | ended
deriving DecidableEq, Repr

/-- The operand values of a command that parked (R50, R261): its lanes and PC, the scalar and region registers at its issue.
What a lane holds by itself does not change while the lane is parked. -/
structure Kept where
  lanes : BitVec 32
  pc : VAddr
  s : Store 32
  q : SMap Region
deriving DecidableEq, Repr

/-- A group and its context record (R60). Its key is the context identifier of R111. -/
structure Group where
  /-- core and section that run it or on whose ready lists it stands -/
  core : Nat := 0
  sect : Nat := 0
  /-- vector register budget of its role (R31) -/
  bud : Nat := 0
  /-- the record has been initialised by a first activation (R89) -/
  started : Bool := false
  /-- RES of the status word: a guest that is active has `active` set too -/
  res : Res := .pending
  active : Bool := false
  full : Bool := false
  lv : BitVec 4 := 0
  cfault : Bool := false
  urgent : Bool := false
  /-- pipe bound while active, and the pipe whose quarter retains its lines (R69) -/
  pipe : Nat := 0
  /-- landing slot of a guest (R258) -/
  slot : Option Nat := none
  /-- pages of the record as the activation probe translated them, while the group is active (R71, R72) -/
  recPages : List Xlat := []
  entries : List Entry := []
  s : Store 32 := []
  q : SMap Region := []
  x : Store 16 := []
  p : Store 32 := []
  fmode : BitVec 32 := 0
  status : BitVec 32 := 0
  xlim : BitVec 32 := 0
  frame : Frame := {}
  dead : BitVec 256 := 0
  /-- cached lines by register number (R65) -/
  lines : SMap Line := []
  /-- valid latches by number, 32 lanes each (R79) -/
  latches : SMap (Store 32) := []
  /-- latches at 0x600 after a full save (R78) -/
  saved : SMap (Store 32) := []
  wakes : List Wake := []
  pend : List Pend := []
  /-- accesses whose imprecise traps are held, in order of detection (R248) -/
  held : List Nat := []
  /-- a MACHINE_CHECK waits for the next issue of the first READY entry (R208) -/
  mcheck : List Nat := []
  arrivals : List Arrival := []
  /-- stands in its section's ready list since this readiness number; put at the head of its queue at this number (R84) -/
  queued : Option Nat := none
  atHead : Option Nat := none
  /-- sr.time of its last swap-out -/
  left : Nat := 0
  /-- stopped by a debugger (R260) and the entry that may issue once (STEP) -/
  stopped : Bool := false
  step : Option (BitVec 5) := none
  /-- the debugger of the PF stops or steps it, at the house account's charge (R266) -/
  byPf : Bool := false
  /-- bytes of the header as the device last wrote them to the record (R77, R89): what differs there since was written by a
  debugger or the monitor, and is checked at the next activation (R342) -/
  wrote : Store 8 := []
  /-- split parts waiting for delivery (R108) -/
  parts : List (Nat × Region) := []
  /-- BORs that await their answers, by region register -/
  bors : SMap PendBor := []
  /-- BOR requests cancelled while a grant may be under way (R263): region register + 16 * home die, 8 for a peer -/
  cancelled : List Nat := []
  /-- a MIGRATE waits (R258): the home address of MIGRATE.ADDR, none of MIGRATE.HOME -/
  move : Option (Option Nat) := none
  /-- a flush by context tag is not yet acknowledged (R172): ranges as virtual base and length -/
  flush : Option (List (Nat × Nat)) := none
  /-- operand values of parked commands, which their replay uses (R50, R261) -/
  kept : List Kept := []
  /-- the entry whose issue is under way and the lanes that were READY before it (R44; the model's own) -/
  issuing : Option (BitVec 5 × BitVec 32) := none
deriving DecidableEq, Repr

/-! ## Teams and launches (chapters 2, 9, 10, 11) -/

/-- An account (R230): nJ and the residue in fJ. -/
structure Acct where
  nj : Nat := 0
  fj : Nat := 0
deriving DecidableEq, Repr

/-- A named barrier (R255): arrivals, phase, expected. -/
structure Bar where
  arr : BitVec 17 := 0
  ph : Bool := false
  exp : BitVec 17 := 0
deriving DecidableEq, Repr

/-- Which space of local memory (R92, kinds 8 to 11). -/
inductive LSpace | prv | scr | clu | dsp
deriving DecidableEq, Repr

/-- Where a command reports its completion: a token register of a group, or a barrier object (R215, R217). -/
inductive Done
  | token (grp : Nat) (sd : Nat)
  | mbar (clu : Bool) (off : Nat)
deriving DecidableEq, Repr

/-- Forms of haul-engine commands (R218 to R221, R213). -/
inductive HaulForm
  | lin
  | tileLd
  | tileSt
  | gather
  | drain (ty : DrainTy) (tile : Nat) (lay : BitVec 32)
deriving DecidableEq, Repr

/-- A haul-engine command (R218). -/
structure Haul where
  form : HaulForm
  grp : Nat
  /-- lowest lane whose guard passed, for PRV (R218) -/
  lane : Nat := 0
  pc : VAddr := 0
  dst : Region := {}
  src : Region := {}
  dOff : Nat := 0
  sOff : Nat := 0
  /-- bytes of the whole command, once known -/
  len : Nat := 0
  /-- COPY.TILE: record address, coordinates and the record once read -/
  layRec : Nat := 0
  xyz : List Nat := []
  record : Option (BitVec 512) := none
  /-- COPY.GATHER: list offset, count, row bytes, stride and the list once read -/
  list : Nat := 0
  n : Nat := 0
  rb : Nat := 0
  stride : Nat := 0
  idx : Option (List Nat) := none
  done : Done
  /-- bytes performed -/
  pos : Nat := 0
  /-- source bytes as they were, by address, where the command has written over them (R219) -/
  orig : SMap Byte := []
  /-- an access of the command that walks or waits for REPLAY ALL (R222) -/
  acc : Option Nat := none
deriving DecidableEq, Repr

/-- Sweep operations (R134). -/
inductive SweepOp | wb | inv | wbinv
deriving DecidableEq, Repr

/-- A sweep command (R134): virtual range, position, and the sectors it acts on with the bytes dirty at acceptance. -/
structure Sweep where
  op : SweepOp
  grp : Nat
  base : Nat
  len : Nat
  pos : Nat := 0
  done : Done
  /-- dirty bytes accepted before the sweep (R135), as home addresses -/
  snap : List Nat := []
  discarded : Bool := false
deriving DecidableEq, Repr

/-- A return under way (R105, R106, R440): the range, kind and handle; for a part, the offset of its barrier object; whether
the commands through the handle have ended, and write-backs not yet answered. -/
structure Return where
  grp : Nat
  base : Nat
  len : Nat
  kind : BitVec 4
  handle : BitVec 24
  part : Option Nat := none
  started : Bool := false
  wbs : Nat := 0
deriving DecidableEq, Repr

/-- The team save frame of an evicted or stopped team (R255). -/
structure SaveFrame where
  /-- its bytes, at the offsets of R255 -/
  bytes : Store 8 := []
  /-- suspended haul commands, whose form at 0x080400 is private to the device -/
  hauls : SMap Haul := []
  /-- returns that wait for suspended copies -/
  rets : SMap Return := []
  /-- die on which the frame lies -/
  die : Nat := 0
deriving DecidableEq, Repr

/-- Where a team stands. -/
inductive TeamSt | placing | running | saving | saved | done
deriving DecidableEq, Repr

/-- A team (R29, R255, R265). Its key is the context identifier divided by 2^16. -/
structure Team where
  st : TeamSt := .placing
  /-- core it is placed on, or the core that it left -/
  core : Nat := 0
  bars : SMap Bar := []
  tilemap : BitVec 64 := 0
  /-- deterministic and other part of its account (R243) -/
  acctD : Acct := {}
  acctN : Acct := {}
  /-- watchdog: eligible time in ns (R265) -/
  idle : Nat := 0
  frame : Option SaveFrame := none
  /-- core chosen for its restore, whose scrub is awaited -/
  to_ : Option Nat := none
  /-- DET launches: ordinals drawn by each yard unit (R35) -/
  drawn : Store 32 := []
deriving DecidableEq, Repr

/-- How a launch stands (R236, R237, R253, R276). -/
inductive LaunchSt
  /-- cores granted, scrubs awaited -/
  | granted
  | running
  /-- a stop under way: true for a quota -/
  | stopping (quota : Bool)
  | stopped (quota : Bool)
  /-- slice-end eviction under way -/
  | evicting
  | evicted
  /-- killed with a cause; the claim sweep is to run (R117) -/
  | killed (cause : BitVec 8) (hang : Bool)
  | swept (cause : BitVec 8) (hang : Bool)
deriving DecidableEq, Repr

/-- A launch in flight (R275, R276). Its key is the context identifier divided by 2^23. -/
structure Launch where
  st : LaunchSt := .granted
  cmd : CmdWord
  desc : LaunchDesc
  queue : Nat := 0
  /-- virtual address of its entry in the command ring -/
  entry : Nat := 0
  leaf : Nat := 0
  /-- cores by team number -/
  cores : List Nat := []
  /-- effective counts (R38) and index space (R37) -/
  g : Nat := 0
  p : Nat := 0
  c : Nat := 0
  x : Nat := 0
  y : Nat := 0
  z : Nat := 0
  /-- next ordinal of the yard (R35) -/
  yard : Nat := 0
  /-- budget in force (R236) -/
  budget : Nat := 0
  acctD : Acct := {}
  acctN : Acct := {}
  /-- sr.time of the declaration of a stop or eviction (R237) -/
  since : Nat := 0
  /-- declared exhausted once; a completion then carries OVERRUN -/
  overrun : Bool := false
  /-- sr.faddr of the CONTEXT_FAULT that ended it (R42, R71, R94) -/
  faddr : Option (BitVec 57) := none
  /-- debugger attached (R264) -/
  dbg : Bool := false
  /-- yard requests of R33 that wait in order of arrival: groups with the first scalar of the result -/
  asks : List (List (Nat × BitVec 7)) := []
deriving DecidableEq, Repr

/-! ## Cores and dies (chapters 1, 3, 4, 5, 8, 10) -/

/-- Who pays for an event (R229, R231). -/
inductive Payer
  | team (t : Nat)
  | launch (l : Nat)
  | vf (v : Nat)
  | house
deriving DecidableEq, Repr

/-- A virtual line under which an L1 line was accessed: its address divided by 512, base and size of its page then. -/
structure View where
  line : Nat
  page : Nat
  size : Nat
deriving DecidableEq, Repr

/-- A line of the L1 data cache (R129). Home addresses: device physical addresses, host memory at 2^52 upward, held peer
windows at 2^53 + import * 2^40 upward. -/
structure L1Line where
  /-- home address divided by 512 -/
  line : Nat
  vf : Nat
  /-- virtual lines under which it was filled or written, latest first -/
  views : List View := []
  grain : BitVec 2
  /-- class of the page (R139) -/
  cls : BitVec 2
  valid : BitVec 16 := 0
  dirty : BitVec 512 := 0
  data : Store 8 := []
  /-- team that last dirtied it (R231) -/
  team : Nat := 0
deriving DecidableEq, Repr

/-- A line of the L2 (R131): bytes held, bytes written, way, who last wrote it. The value of a byte is that of
`State.mem`, which holds the L2's bytes and HBM's as one. -/
structure L2Line where
  line : Nat
  way : Nat
  held : BitVec 512 := 0
  written : BitVec 512 := 0
  by_ : Payer := .house
deriving DecidableEq, Repr

/-- An instruction cache line (R132, R321): its bytes and the slots that failed parity twice. -/
structure ILine where
  vf : Nat
  line : Nat
  data : BitVec 512
  bad : BitVec 5 := 0
deriving DecidableEq, Repr

/-- An operation captured by the gang saw (R199, R203): operands row by row, codebooks, and the block's fields. -/
structure MmaOp where
  team : Nat
  members : List Nat
  block : Nat
  afmt : Nat
  bfmt : Nat
  a : List (BitVec 16)
  b : List (BitVec 16)
  abook : List (BitVec 16)
  bbook : List (BitVec 16)
  tile : Nat
  accum : Bool
  chk : Bool
  inj : Bool
  mboff : Nat
  mbclu : Bool
  nomb : Bool
deriving DecidableEq, Repr

/-- A section: its active groups, least recently issued first, and the group whose instruction took the first pick, with its PC,
until another issues: the instruction after it may take the second slot (R83). -/
structure Sect where
  active : List Nat := []
  pair : Option (Nat × VAddr) := none
deriving DecidableEq, Repr

/-- Scrub of a core (R312, R313): the LTAG's launch key it follows. -/
inductive ScrubSt
  /-- an evicted launch left the core: its scrub is due when another launch receives the core -/
  | left (launch : Nat)
  | due (launch : Nat)
  /-- zeroed; its record is to be appended -/
  | record (launch : Nat)
deriving DecidableEq, Repr

/-- A core (R14). Its key is die * 16 + core. -/
structure Core where
  sects : SMap Sect := []
  /-- team placed on it -/
  team : Option Nat := none
  /-- launch to which it is granted (R276) -/
  owner : Option Nat := none
  scratch : Store 8 := []
  /-- swizzle-span tags of the 256 blocks (R127) -/
  tags : Store 3 := []
  /-- its 128 KiB cluster slice (R123) -/
  clu : Store 8 := []
  /-- accumulator tiles: tile * 16384 + row * 128 + column (R210) -/
  tiles : Store 32 := []
  /-- codebooks: slot * 16 + entry (R177) -/
  books : Store 16 := []
  /-- most recently used first -/
  l1 : List L1Line := []
  icache : List ILine := []
  /-- layout cache: record address by VF, bytes (R170) -/
  layouts : List (Nat × Nat × BitVec 512) := []
  tlb : List Xlat := []
  hauls : SMap Haul := []
  sweeps : SMap Sweep := []
  rets : SMap Return := []
  /-- atomics not yet acknowledged, by group and handle (R105) -/
  unacked : List (Nat × BitVec 24) := []
  saw : List MmaOp := []
  /-- the gang saw waits for a self-test (R208) -/
  sawHeld : Bool := false
  /-- retired by a self-test (R317) -/
  retired : Bool := false
  /-- landing slots taken, by number (R258) -/
  slots : SMap Nat := []
  scrub : Option ScrubSt := none
  clock : BitVec 64 := 0
deriving DecidableEq, Repr

/-- State of a claim entry (R112); FREE entries keep their GEN in `Die.gens`. -/
inductive ClaimSt | wait | held | orphan
deriving DecidableEq, Repr

/-- A claim entry (R111). For a holder on a peer device `core` is the number of the request that waits for the answer. -/
structure ClaimEntry where
  st : ClaimSt
  base : Nat
  len : Nat
  kind : HeldKind
  ctx : Nat
  vf : Nat
  core : Nat
  q : BitVec 4
  peer : Option Nat := none
  /-- order of arrival -/
  seq : Nat := 0
  /-- time waited that counts toward the borrow timeout, in ns (R103) -/
  age : Nat := 0
deriving DecidableEq, Repr

/-- Kinds of access in fault records (R146). -/
inductive AccKind
  | load | store | atomic | fetch | engineRead | engineWrite | probe | bor | refusal | peerReq | remote | host | notice
deriving DecidableEq, Repr

/-- A fault record (R146), without SEQ. -/
structure FaultRec where
  va : BitVec 57
  cause : BitVec 8
  access : AccKind
  reason : BitVec 4 := 0
  vf : Nat
  part : Nat
  ctx : Nat := 0
  die : Nat := 0
  core : Nat := 0
  stage : Bool := false
  lanes : BitVec 32 := 0
  pc : VAddr := 0
deriving DecidableEq, Repr

/-- A page-miss entry (R144): VF, base and size of the stage 1 page, leaf partition, FAULT or WALK. -/
structure MissEntry where
  vf : Nat
  base : Nat
  size : Nat
  part : Nat
  faulted : Bool := false
deriving DecidableEq, Repr

/-- A record that is never dropped and waits for a buffer record (R145): an access waits with it, or nothing does. -/
structure RecWait where
  fault : FaultRec
  acc : Option Nat := none
deriving DecidableEq, Repr

/-- A compute die (R13). -/
structure Die where
  /-- die scratchpad (R124) -/
  dsp : Store 8 := []
  /-- die-scratchpad bytes of each launch: base offset and length -/
  dspAlloc : List (Nat × Nat × Nat) := []
  claims : SMap ClaimEntry := []
  /-- GEN of every claim entry (R93) -/
  gens : Store 4 := []
  claimSeq : Nat := 0
  /-- most recently used first -/
  l2 : List L2Line := []
  tlb : List Xlat := []
  misses : List MissEntry := []
  /-- fault buffer of each leaf partition (R145) -/
  buffers : SMap (List FaultRec) := []
  /-- records that are never dropped and wait for a buffer record, oldest first -/
  waiting : List RecWait := []
  /-- VFs whose DROPPED flag is set, and the drop notices still to be moved (R145) -/
  dropped : List Nat := []
  notices : List FaultRec := []
  /-- clock steps of 25 MHz below nominal, and idle slots of the gang saws (R25) -/
  throttle : Nat := 0
  idleSlots : Bool := false
deriving DecidableEq, Repr

/-! ## Accesses under translation (R140, R144, R261) -/

/-- Where an untranslated access stands. -/
inductive AccSt
  /-- waits for the walk of its page -/
  | walk
  /-- found no page-miss entry it may take -/
  | noEntry
  /-- a terminal fault that waits for a buffer record -/
  | record (reason : BitVec 4) (stage : Bool)
  /-- a fault detected, its record taken, that waits for delivery: cause and INFO (R248) -/
  | fault (cause : BitVec 8) (info : BitVec 32)
  /-- parked until REPLAY ALL -/
  | parked
  /-- released: the parked command that it belongs to is to issue alone (R50) -/
  | replay
  /-- waits for answers of a peer -/
  | peer
  /-- performed; its result is under way -/
  | data
deriving DecidableEq, Repr

/-- What an access is for. -/
inductive AccFor
  | word (i : Instr)
  | fetch
  | engine (haul : Nat)
  | hcopy (job : Nat)
  | signal (job : Nat)
deriving DecidableEq, Repr

/-- An access of one page that missed the TLBs: what is needed to perform it later. -/
structure Acc where
  kind : AccKind
  use : AccFor
  vf : Nat
  part : Nat
  core : Nat
  grp : Nat := 0
  pc : VAddr := 0
  /-- 64 KiB unit of the virtual address -/
  page : Nat
  /-- lanes of the access with their addresses and the data they store -/
  lanes : BitVec 32 := 0
  addrs : SMap (BitVec 57) := []
  data : SMap (BitVec 128) := []
  data2 : SMap (BitVec 128) := []
  region : Region := {}
  st : AccSt := .walk
  /-- younger instructions retired behind it, by lane (R246) -/
  skid : SMap Nat := []
  /-- FRAG at the faulting issue (R43) -/
  frag : BitVec 5 := 0
  /-- FSEQ once a fragment of the issue exists -/
  fseq : Option (BitVec 5) := none
  /-- issue number: accesses of one issue share FSEQ -/
  issue : Nat := 0
  /-- bytes of each lane's access, and whether it acquires (R157) -/
  n : Nat := 0
  acq : Bool := false
  /-- peer answers still to come -/
  left : Nat := 0
  /-- first register and registers of each lane's result, the result by register * 32 + lane, lanes whose data was poisoned
  (R316), and whether the write is full (R65); a codebook slot and its 32 bytes for CBLD -/
  dst : SMap Nat := []
  w : Nat := 0
  res : Store 32 := []
  poison : BitVec 32 := 0
  full : Bool := false
  book : Option (Nat × BitVec 256) := none
  /-- served beyond the L1 (R76) -/
  long : Bool := true
  /-- issued in supervisor mode (R250) -/
  supv : Bool := false
  /-- the lanes stay at the instruction's PC: a parked command or fetch, or a fault found at issue that waits for a record -/
  again : Bool := false
deriving DecidableEq, Repr

/-! ## Functions, leaves, host commands (chapter 11) -/

/-- A queue (R269) with its doorbell and what its head command waits for. -/
structure Queue where
  en : Bool := false
  cls : BitVec 2 := 0
  err : Bool := false
  sz : BitVec 3 := 0
  ring : Nat := 0
  cring : Nat := 0
  head : BitVec 16 := 0
  cprod : BitVec 16 := 0
  ccons : BitVec 16 := 0
  tail : BitVec 16 := 0
  /-- time of the oldest doorbell write that covers the head command -/
  bell : List (BitVec 16 × Nat) := []
  /-- a WAITSIG that holds the queue: command word, address, operand, comparison, fault state -/
  waitsig : Option (CmdWord × BitVec 64 × BitVec 64 × Cmp) := none
  /-- a LAUNCH that waits for its cores -/
  waiting : Option (CmdWord × LaunchDesc) := none
  /-- completion records that wait for room or for their signal, oldest first -/
  held : List (BitVec 256 × CmdWord) := []
  /-- index of the entry of the command last started, and the bytes of its entries -/
  entry : BitVec 16 := 0
  words : BitVec 2048 := 0
  /-- the command that DISPATCH has chosen, to run next -/
  next : Option Instr := none
  /-- an access to a ring or a WAITSIG's read waits for REPLAY ALL on a die (R274) -/
  stuck : Option Nat := none
  /-- a WAITSIG's read is still to be performed, after a retryable fault -/
  read : Bool := false
deriving DecidableEq, Repr

/-- A fault ring (R147). -/
structure Ring where
  base : Nat := 0
  k : BitVec 5 := 0
  prod : BitVec 32 := 0
  cons : BitVec 32 := 0
  seq : BitVec 15 := 0
  /-- records that the reporting port still has to send -/
  queue : List FaultRec := []
deriving DecidableEq, Repr

/-- The register page of a function (R267): 0 to 1,023 the VFs, 1,024 the PF. -/
structure Fn where
  queues : SMap Queue := []
  ring : Ring := {}
  /-- the PF's terminal ring -/
  ring2 : Ring := {}
  /-- INVAL (R151) -/
  invVa : Nat := 0
  invNpg : BitVec 32 := 0
  invIrq : Bool := false
  invVec : BitVec 5 := 0
  invTvf : BitVec 10 := 0
  invGo : Bool := false
  /-- meter registers' selection of launch and team -/
  meterSel : BitVec 32 := 0
  s1root : BitVec 64 := 0
  supvVa : BitVec 64 := 0
  supvLen : BitVec 64 := 0
  msix : Store 32 := []
  pba : BitVec 32 := 0
deriving DecidableEq, Repr

/-- TDI states (R282). -/
inductive Tdi | unlocked | locked | run | error
deriving DecidableEq, Repr

/-- An export (R289). -/
structure Export where
  base : VAddr := 0
  len : BitVec 40 := 0
  held : Bool := false
  rd : Bool := false
  wr : Bool := false
  at_ : Bool := false
  /-- 0 FREE, 1 ACTIVE, 2 REVOKING -/
  st : BitVec 2 := 0
  pdev : BitVec 10 := 0
  pvf : BitVec 10 := 0
  /-- sr.time of the revocation; peer claims released (R293) -/
  since : Nat := 0
  swept : Bool := false
  /-- requests accepted and not yet answered -/
  inflight : Nat := 0
deriving DecidableEq, Repr

/-- An import (R290). -/
structure Import where
  rdev : BitVec 10 := 0
  rvf : BitVec 10 := 0
  rwin : BitVec 12 := 0
  held : Bool := false
  perm : BitVec 3 := 0
  grain : BitVec 2 := 0
  pgsz : BitVec 2 := 0
  /-- 0 FREE, 1 ACTIVE, 2 REVOKED -/
  st : BitVec 2 := 0
  len : BitVec 40 := 0
  tmo : BitVec 24 := 0
deriving DecidableEq, Repr

/-- A borrow that this device holds in a peer window (R114, R292): context, import, offset, length, kind, and the entry of the
peer's claim table with its die and GEN, laid out as a handle. -/
structure PeerGrant where
  ctx : Nat
  win : Nat
  off : Nat
  len : Nat
  kind : BitVec 4
  handle : BitVec 24
deriving DecidableEq, Repr

/-- Final accounts of a launch that has ended, and of its teams by number, D and N parts (R242). -/
structure FinalAccts where
  acctD : Acct := {}
  acctN : Acct := {}
  teams : SMap (Acct × Acct) := []
deriving DecidableEq, Repr

/-- The control block of a VF (R268) and what the firmware keeps for it. -/
structure Vf where
  /-- created and not released -/
  live : Bool := false
  en : Bool := false
  resident : Bool := false
  clamp : Bool := false
  coef : Bool := false
  migr : Bool := false
  test : Bool := false
  ckpt : Bool := false
  leaf : BitVec 6 := 0
  weight : BitVec 4 := 0
  slice : BitVec 32 := 0
  quota : BitVec 64 := 0
  ilog : Nat := 0
  ilsz : BitVec 4 := 0
  pinver : BitVec 8 := 0
  sigkey : BitVec 512 := 0
  clog : Nat := 0
  clsz : BitVec 5 := 0
  /-- command log: next byte, next start sequence number, logging (R285) -/
  logPos : Nat := 0
  logSeq : Nat := 0
  logging : Bool := false
  acct : Acct := {}
  /-- consumption against the quota in fJ (R235) -/
  used : Nat := 0
  /-- dynamic charges of the interval in fJ (R234) and run time by core in ns (R232) -/
  dyn : Nat := 0
  runtime : Store 64 := []
  s2root : Nat := 0
  tdi : Tdi := .unlocked
  stream : Option Nat := none
  /-- length of the supervisor image copied in, and its digest; zero length for none -/
  supvLen : Nat := 0
  supvDigest : BitVec 512 := 0
  supvHome : Nat := 0
  exports : SMap Export := []
  imports : SMap Import := []
  peerHeld : List PeerGrant := []
  /-- accounts of ended launches by LTAG, until the tag is given again (R242) -/
  finals : SMap FinalAccts := []
deriving DecidableEq, Repr

/-- A leaf partition (R278) as configured, with its use in the period (R277). -/
structure Leaf where
  conf : LeafConf
  /-- core time used in the period, in ns per core -/
  used : Nat := 0
  /-- VF whose slice runs, and when it began -/
  turn : Nat := 0
  sliceStart : Nat := 0
  /-- save frames in use (R255) -/
  frames : Nat := 0
  /-- bytes moved in the current window at each controller (R278) -/
  window : Store 64 := []
  /-- sr.time at which that window began -/
  windowAt : Nat := 0
deriving DecidableEq, Repr

/-- Work of the firmware on memory for a host command (R274). -/
inductive JobKind
  /-- HCOPY: destination, source, length, signal, bytes done, and whether every page of both ranges has been checked -/
  | hcopy (dst src len sig pos : Nat) (checked : Bool)
  /-- a signal update: address, 0 SET 1 ADD 2 DEC, operand -/
  | signal (addr : Nat) (op : Nat) (v : BitVec 64)
deriving DecidableEq, Repr

/-- A job of the firmware with the command whose completion record it writes. -/
structure Job where
  kind : JobKind
  fn : Nat
  queue : Nat
  cmd : CmdWord
  /-- virtual address of the command's entry -/
  entry : Nat := 0
  /-- the completion record that follows the job -/
  compl : BitVec 256 := 0
  /-- waits for REPLAY ALL on a die -/
  stuck : Option Nat := none
deriving DecidableEq, Repr

/-! ## Peers (chapter 12) -/

/-- What a request of this device carries beside its target (R297 to R302). -/
inductive ReqKind
  | read (addr len : Nat)
  | write (addr : Nat) (data : List Byte)
  | flush
  | claim (m : ClaimMsg)
  | release (handle : BitVec 24)
  | fill (addr len : Nat)
  /-- at most 256 B of a line, with the team that dirtied them -/
  | writeBack (addr : Nat) (mask : BitVec 256) (data : Store 8) (team : Nat)
  | atomic (addr : Nat) (wide : Bool) (op : Nat) (a b : BitVec 64)
  /-- a revocation notice for an export of this device (R292) -/
  | notice
  /-- the WITHDRAW of a claim (R113, R263) -/
  | withdraw (ctx : Nat) (q : BitVec 4)
  /-- the claim sweep of a launch, or of every launch of the VF (R117) -/
  | sweep (launch : Option Nat)
deriving DecidableEq, Repr

/-- A request sent and not yet answered (R295). -/
structure Req where
  seq : BitVec 32
  kind : ReqKind
  win : Nat
  /-- import through which it goes, 4,095 for none -/
  imp : Nat := 4095
  /-- operation it is part of -/
  op : Nat
  /-- part number within the operation, or member rank; `first` and `last`: VA and LANES of the initiator's record (R301) -/
  part : Nat := 0
  first : Nat := 0
  last : Nat := 0
  tmo : Nat := 1000
  /-- sr.time of the last send and of the first -/
  sentAt : Nat := 0
  firstAt : Nat := 0
deriving DecidableEq, Repr

/-- A connection (R294, R295), by local VF, remote device and remote VF. -/
structure Conn where
  vf : Nat
  dev : Nat
  rvf : Nat
  next : BitVec 32 := 0
  sent : List Req := []
  /-- requests that wait for a free number -/
  queue : List Req := []
  /-- receive window: lowest unanswered number, statuses of answered requests above it -/
  low : BitVec 32 := 0
  answered : List (BitVec 32 × PeerStatus × List Byte) := []
  /-- answers sent, newest first -/
  out : List (BitVec 32 × PeerStatus × List Byte) := []
  spilled : Bool := false
  /-- it failed authentication, or its remote device left the pod (R294, R296) -/
  ended : Bool := false
deriving DecidableEq, Repr

/-- Remote operations under way (R297 to R302). -/
inductive RemKind
  /-- RLD: destination register, registers per lane, access bytes, lanes of each request -/
  | rld (vd : Nat) (ty : StTy)
  | rst
  /-- RMST: group, acknowledgement record offset, window offset, block, failed members by rank and device -/
  | rmst (group ack off : Nat) (data : List Byte) (ranks : List (Nat × Nat))
  | rflush
  /-- COLL: form, group, number of the collective, element count, bytes of an element -/
  | coll (form group number e w : Nat)
  /-- an access through a held import: the access record it serves -/
  | held (acc : Nat)
  | borrow
deriving DecidableEq, Repr

/-- A remote operation. -/
structure RemOp where
  kind : RemKind
  grp : Nat
  vf : Nat
  sd : Nat := 0
  pc : VAddr := 0
  /-- parts not yet ended -/
  left : Nat := 0
  /-- bytes or targets done -/
  bytes : Nat := 0
  /-- failed parts: part number and cause -/
  fails : List (Nat × BitVec 8) := []
  lanes : SMap (BitVec 32) := []
  /-- region registers that the operation goes through (R440); COLL's destination first -/
  regs : List Region := []
  /-- address of COLL's destination -/
  dst : Nat := 0
  /-- records of R301 that must be taken before the token completes -/
  core : Nat := 0
deriving DecidableEq, Repr

/-- A multicast group (R298). -/
structure Mcast where
  vf : Nat
  tmo : Nat
  members : List Member
  /-- collectives: COLLs issued here so far, this device's arrivals by collective number -/
  issued : Nat := 0
  arrived : List (Nat × CollPart) := []
deriving DecidableEq, Repr

/-! ## Trust, host link and the rest of the hub die (chapters 9, 11, 13) -/

/-- Events counted and not yet posted (R225): payer, class, in the non-deterministic part, number, weighbridge. -/
structure Charge where
  payer : Payer
  cls : Nat
  nd : Bool
  n : Nat
  /-- weighbridge that counted it, where the payer's core does not name it (R225) -/
  tile : Option Nat := none
deriving DecidableEq, Repr

/-- A seal (R309). -/
structure Seal where
  seq : BitVec 64
  r : BitVec 528
  s : BitVec 528
deriving DecidableEq, Repr

/-- An audit record held (R308). -/
structure AuditRec where
  seq : Nat
  bytes : BitVec 1024
deriving DecidableEq, Repr

/-- A selective IDE stream (R280): RID association range and key. -/
structure Stream where
  first : Nat
  last : Nat
  key : BitVec 256
deriving DecidableEq, Repr

/-- The SPDM responder (R281): state of the connection and its session. -/
structure Spdm where
  /-- 0 nothing, 1 version given, 2 capabilities, 3 algorithms agreed -/
  phase : Nat := 0
  /-- session being set up or open: its number, finished -/
  session : Option (BitVec 32 × Bool) := none
  transcript : BitVec 512 := 0
deriving DecidableEq, Repr

/-- A response of the mailbox (R281, R282): what the device answers. -/
inductive Resp
  | error (code : Nat)
  | version (v : Nat)
  | capabilities (flags : BitVec 32)
  | algorithms
  | digests (d : BitVec 512)
  | certificate (bytes : List Byte)
  | challengeAuth (hash : BitVec 512) (sig : BitVec 1056)
  | measurements (blocks : List (Nat × BitVec 512)) (sig : Option (BitVec 1056))
  | keyExchange (ses : BitVec 32) (sig : BitVec 1056)
  | finish
  | ended
  | vendor
  | ok
  /-- a revocation is complete (R292) -/
  | revoked (vf win : Nat)
  /-- an interface report: ranges of BAR0 as offset and length, then what R282 lists -/
  | report (pages : List (Nat × Nat)) (vf leaf pinver : Nat) (digest : BitVec 512) (coef test : Bool) (stream : Nat)
deriving DecidableEq, Repr

/-- Debugger answers (R260, R261). -/
inductive DebugResp
  | done
  | bytes (b : List Byte)
  | refused
  | pending
deriving DecidableEq, Repr

/-- The collective die, the hub die and the firmware. -/
structure Device where
  /-- measurement registers 0 to 31 (R306) -/
  measures : Store 512 := []
  /-- audit log: records held, next SEQ, oldest, DRAINED, LOST, last CHAIN, requests waiting (R308 to R311) -/
  audit : List AuditRec := []
  auditNext : Nat := 0
  drained : Nat := 0
  lost : Nat := 0
  chain : BitVec 512 := 0
  /-- the 128 bytes of the latest record, zeros before the first -/
  prior : List Byte := List.replicate 128 0
  auditQ : List AuditReq := []
  /-- seal slots by number, and seals made so far -/
  seals : SMap Seal := []
  sealNext : Nat := 0
  /-- functions whose firmware stage failed verification, by ready-map bit (R305) -/
  failed : List Nat := []
  /-- banks degraded and lanes retired by a self-test (R317) -/
  degraded : List UnitId := []
  /-- the ready map (R315) -/
  ready : BitVec 64 := 0
  /-- scheduler-policy versions held and the monitor's version (R287) -/
  images : List (BitVec 8) := []
  monitor : Nat := 0
  /-- units under self-test (R317) -/
  testing : List UnitId := []
  /-- tiles whose charges go to the house account (R317) -/
  badMeters : List Nat := []
  house : Acct := {}
  /-- intervals marked in the meter log (R234) -/
  meterLog : List Nat := []
  /-- charges of the interval in fJ (R233) -/
  interval : Nat := 0
  lastPost : Nat := 0
  intervalStart : Nat := 0
  /-- sr.time of the last division of shared costs (R232) -/
  sharedAt : Nat := 0
  periodStart : Nat := 0
  /-- throttle log (R27) -/
  throttleLog : List (ThrottleCause × Nat × Nat) := []
  /-- partition configuration: first-level partitions by number (R278) -/
  parts : List (Nat × PartConf) := []
  /-- stage 2 entries by VF, table and index: kept in `State.mem`; digest of them all (R141) -/
  s2digest : BitVec 512 := 0
  streams : SMap Stream := []
  spdm : Spdm := {}
  /-- answers given on the mailbox and to the debugger, newest first -/
  answers : List Resp := []
  debug : List DebugResp := []
  /-- interrupts delivered: function, vector, time; newest first (R283) -/
  irqs : List (Nat × Nat × Nat) := []
  devNum : Nat := 0
  conns : SMap Conn := []
  /-- offset in host memory of the area that the PF names for spilled connections (R294) -/
  spill : Option Nat := none
  mcasts : SMap Mcast := []
  /-- firmware mailboxes: sender, receiver, 64 bytes (R314) -/
  mailboxes : List (Nat × Nat × BitVec 512) := []
  /-- VFs whose dispatch is halted by a checkpoint (R285) -/
  ckpts : List Nat := []
  /-- requests that wait for records or grants (R72, R116) -/
  mapReqs : List MapReq := []
  /-- all work stopped by a thermal shutdown (R28) -/
  shut : Bool := false
  /-- hosts' shared-function bookkeeping: VFs whose HBM is to be scrubbed at release -/
  releasing : List Nat := []
deriving DecidableEq, Repr

/-! ## The machine -/

/-- The issuing entry of a word: group and FRAG. -/
structure Issue where
  grp : Nat
  frag : BitVec 5
  /-- the word takes the second slot of a marked pair (R83) -/
  second : Bool := false
deriving DecidableEq, Repr

/-- Channel, source and destination of a message, within which messages arrive in order (R20). -/
structure Route where
  chan : Nat
  src : Nat
  dst : Nat
deriving DecidableEq, Repr

/-- A message or completion under way: the instruction that receives it, and its route where R20 orders it. -/
structure Msg where
  instr : Instr
  route : Option Route := none
deriving DecidableEq, Repr

/-- The queue whose command runs. -/
structure CmdCtx where
  fn : Nat
  queue : Nat
deriving DecidableEq, Repr

/-- Device memory and host memory as one list of bytes by home address (see `L1Line`): addresses strictly rising, no byte
equal to the 0 that an unlisted address reads as. -/
abbrev Memory := Store 8

/-- The whole machine. -/
structure State where
  /-- numbers the free values (the model's own) -/
  tick : Nat := 0
  /-- sr.time in ns (R26) -/
  now : Nat := 0
  /-- messages and completions under way, oldest first (the model's own form of the network, R19, R20) -/
  pending : List Msg := []
  /-- next number of an access, command or issue (the model's own) -/
  nextId : Nat := 1
  /-- inputs still to arrive from outside, in order -/
  inbox : List Input := []
  /-- the input that the running event acts on -/
  input : Option Input := none
  /-- teams whose accesses a rate limiter held at the last step (R265, R278) -/
  limited : List Nat := []
  /-- the entry that issues the running word -/
  cur : Option Issue := none
  /-- the queue whose command runs -/
  cmd : Option CmdCtx := none
  mem : Memory := []
  /-- ranges of host memory, as offset and length, whose requests the host answers with a completion error (R140) -/
  hostBad : List (Nat × Nat) := []
  /-- marks of uncorrected data: number of the error record, home addresses of the bytes (R316) -/
  poison : List (Nat × List Nat) := []
  groups : SMap Group := []
  teams : SMap Team := []
  launches : SMap Launch := []
  cores : SMap Core := []
  dies : SMap Die := []
  fns : SMap Fn := []
  vfs : SMap Vf := []
  leaves : SMap Leaf := []
  accs : SMap Acc := []
  jobs : SMap Job := []
  rems : SMap RemOp := []
  unposted : List Charge := []
  dev : Device := {}
deriving DecidableEq, Repr

/-- The machine right after device reset (R305, R306, R308, R315): the ready map and the measurement registers are zero,
the audit log is empty, no partition, VF, launch or group exists; every other register stands at the default of its
structure, named in the assumption log. -/
def State.reset : State := {}

end Sys2Proof.Machine
end

