-- ==== Sys2Proof/Machine/Ops.lean ====
section
/-! DEFINITION. Shared operations: access to the parts of the state, identity, distances, charges, the frontier, and the ready
lists. -/

namespace Sys2Proof.Machine

open Sys2Proof

/-! ## Parts of the state -/

def State.group (s : State) (k : Nat) : Option Group := SMap.find s.groups k
def State.setGroup (s : State) (k : Nat) (g : Group) : State := { s with groups := SMap.put s.groups k g }
def State.modGroup (s : State) (k : Nat) (f : Group → Group) : State :=
  match s.group k with
  | some g => s.setGroup k (f g)
  | none => s

def State.team (s : State) (t : Nat) : Option Team := SMap.find s.teams t
def State.setTeam (s : State) (t : Nat) (m : Team) : State := { s with teams := SMap.put s.teams t m }
def State.modTeam (s : State) (t : Nat) (f : Team → Team) : State :=
  match s.team t with
  | some m => s.setTeam t (f m)
  | none => s

def State.launch (s : State) (l : Nat) : Option Launch := SMap.find s.launches l
def State.setLaunch (s : State) (l : Nat) (m : Launch) : State := { s with launches := SMap.put s.launches l m }
def State.modLaunch (s : State) (l : Nat) (f : Launch → Launch) : State :=
  match s.launch l with
  | some m => s.setLaunch l (f m)
  | none => s

def State.core (s : State) (c : Nat) : Core := (SMap.find s.cores c).getD {}
def State.setCore (s : State) (c : Nat) (m : Core) : State := { s with cores := SMap.put s.cores c m }
def State.modCore (s : State) (c : Nat) (f : Core → Core) : State := s.setCore c (f (s.core c))

def State.die (s : State) (d : Nat) : Die := (SMap.find s.dies d).getD {}
def State.setDie (s : State) (d : Nat) (m : Die) : State := { s with dies := SMap.put s.dies d m }
def State.modDie (s : State) (d : Nat) (f : Die → Die) : State := s.setDie d (f (s.die d))

def State.fn (s : State) (f : Nat) : Fn := (SMap.find s.fns f).getD {}
def State.setFn (s : State) (f : Nat) (m : Fn) : State := { s with fns := SMap.put s.fns f m }
def State.modFn (s : State) (f : Nat) (g : Fn → Fn) : State := s.setFn f (g (s.fn f))

def State.vf (s : State) (v : Nat) : Vf := (SMap.find s.vfs v).getD {}
def State.setVf (s : State) (v : Nat) (m : Vf) : State := { s with vfs := SMap.put s.vfs v m }
def State.modVf (s : State) (v : Nat) (g : Vf → Vf) : State := s.setVf v (g (s.vf v))

def State.leaf (s : State) (n : Nat) : Option Leaf := SMap.find s.leaves n
def State.modLeaf (s : State) (n : Nat) (f : Leaf → Leaf) : State :=
  match s.leaf n with
  | some m => { s with leaves := SMap.put s.leaves n (f m) }
  | none => s

def State.setAcc (s : State) (a : Nat) (m : Acc) : State := { s with accs := SMap.put s.accs a m }
def State.modDev (s : State) (f : Device → Device) : State := { s with dev := f s.dev }

/-- Put a message under way. -/
def State.send (s : State) (m : Instr) (r : Option Route := none) : State :=
  { s with pending := s.pending ++ [{ instr := m, route := r }] }

/-- Endpoints of the package network: cores by number, the dies' homes, the collective die. -/
def atDie (d : Nat) : Nat := 128 + d
def atCollective : Nat := 136

/-- A route on the claim channel from a core to the claim table of a die, and one on the response channel back (R20, R113). -/
def claimRoute (core die : Nat) : Option Route := some { chan := 1, src := core, dst := atDie die }
def answerRoute (die core : Nat) : Option Route := some { chan := 3, src := atDie die, dst := core }
/-- The request channel from a core to the collective die. -/
def remoteRoute (core : Nat) : Option Route := some { chan := 0, src := core, dst := atCollective }

def Core.sect (c : Core) (n : Nat) : Sect := (SMap.find c.sects n).getD {}
def Core.setSect (c : Core) (n : Nat) (x : Sect) : Core := { c with sects := SMap.put c.sects n x }

def Fn.queue (f : Fn) (n : Nat) : Queue := (SMap.find f.queues n).getD {}
def Fn.setQueue (f : Fn) (n : Nat) (q : Queue) : Fn := { f with queues := SMap.put f.queues n q }

def Group.reg (g : Group) (n : Nat) : Region := (SMap.find g.q n).getD {}
def Group.setReg (g : Group) (n : Nat) (r : Region) : Group :=
  { g with q := if r = {} then SMap.del g.q n else SMap.put g.q n r }

/-! ## Identity (R29, R111) -/

def teamOf (k : Nat) : Nat := k / 2 ^ 16
def launchOf (k : Nat) : Nat := k / 2 ^ 23
def vfOf (k : Nat) : Nat := k / 2 ^ 37
def groupNo (k : Nat) : Nat := k % 2 ^ 16
def teamNo (k : Nat) : Nat := k / 2 ^ 16 % 2 ^ 7
def ltagOf (k : Nat) : Nat := k / 2 ^ 23 % 2 ^ 14
/-- Launch of a team key. -/
def teamLaunch (t : Nat) : Nat := t / 2 ^ 7
/-- VF of a launch key. -/
def launchVf (l : Nat) : Nat := l / 2 ^ 14
def launchKey (vf ltag : Nat) : Nat := vf * 2 ^ 14 + ltag
def teamKey (l n : Nat) : Nat := l * 2 ^ 7 + n
def groupKey (t g : Nat) : Nat := t * 2 ^ 16 + g
def dieOf (core : Nat) : Nat := core / 16
/-- Clusters by number on the device: cores 4k to 4k + 3 (R14). -/
def clusterOf (core : Nat) : Nat := core / 4

/-- A consumer group (R30). -/
def Launch.consumer (l : Launch) (g : Nat) : Bool := decide (l.p ≤ g)

/-- Vector register budget of a group's role. -/
def Launch.budgetOf (l : Launch) (g : Nat) : Nat :=
  if g < l.p then l.desc.regsP.toNat else l.desc.regsC.toNat

def Launch.n (l : Launch) : Nat := l.desc.crewN.toNat

/-- Crew and member index of a group (R31). -/
def Launch.crewOf (l : Launch) (g : Nat) : Option (Nat × Nat) :=
  if l.n = 0 || g < l.p || l.p + l.c * l.n ≤ g then none else some ((g - l.p) / l.n, (g - l.p) % l.n)

/-- The groups of a crew, by number. -/
def Launch.members (l : Launch) (crew : Nat) : List Nat := (List.range l.n).map (fun i => l.p + crew * l.n + i)

/-- Record size of a role (R58). -/
def recSize (b : Nat) : Nat := roundUp (0xC00 + 128 * b) 1024

/-- Offset of the record of group `g` in its team's context space (R58), laid out by the declared P. -/
def recOffset (d : LaunchDesc) (g : Nat) : Nat :=
  let p := d.prod.toNat
  if g < p then g * recSize d.regsP.toNat else p * recSize d.regsP.toNat + (g - p) * recSize d.regsC.toNat

/-- Bytes of one team's context space (R58). -/
def teamStride (d : LaunchDesc) : Nat :=
  let gd := d.gd.toNat
  roundUp (roundUp (recOffset d gd) 65536 + 64 + 32 * ((gd + 3) / 4)) 65536

/-- Virtual address of a group's record. -/
def Launch.recVa (l : Launch) (team g : Nat) : Nat :=
  (l.desc.ctxBase.toNat + team * teamStride l.desc + recOffset l.desc g) % 2 ^ 57

/-- The team's scratchpad allocation Sa (R119). -/
def teamSa (d : LaunchDesc) : Nat := roundUp (d.ss.toNat + d.gd.toNat * 32 * d.lp.toNat) 2048

/-- The team is placed on its core: it runs, or it has not yet left it for its save. -/
def Team.placed (m : Team) : Bool := m.st == .running || m.st == .saving

/-- A VF has a supervisor routine (R244). -/
def Vf.hasSupv (v : Vf) : Bool := decide (0 < v.supvLen)

/-- First address of the supervisor routine, in 57 bits (R282). -/
def supvBase : VAddr := 0x1FFFFFFC0000000

/-! ## Distances (R15 to R17) -/

def hbmBytes : Nat := 96 * 2 ^ 30
/-- Home addresses of host memory and of held peer windows in `State.mem` and the caches. -/
def hostBase : Nat := 2 ^ 52
def peerBase : Nat := 2 ^ 53
def isHost (a : Nat) : Bool := decide (hostBase ≤ a) && decide (a < peerBase)
def isPeer (a : Nat) : Bool := decide (peerBase ≤ a)
def isDev (a : Nat) : Bool := decide (a < hostBase)

/-- Home die of a device physical address. -/
def homeDie (a : Nat) : Nat := a / hbmBytes
/-- HBM stack of a device physical address. -/
def homeStack (a : Nat) : Nat := 2 * homeDie a + a / 4096 % 2
/-- L2 slice of a device physical address. -/
def homeSlice (a : Nat) : Nat := (a / 2 ^ 13 % 16) ^^^ (a / 2 ^ 17 % 16)

def absDiff (a b : Nat) : Nat := if a < b then b - a else a - b

/-- Hops between compute dies (R16, R17). -/
def meshHops (a b : Nat) : Nat := absDiff (a / 4) (b / 4) + absDiff (a % 4) (b % 4)

/-- Hops from a compute die to the collective die, its own link included: leaves at die 1, 2, 5 or 6. -/
def collHops (d : Nat) : Nat := (if d % 4 = 0 || d % 4 = 3 then 1 else 0) + 1

/-- Hops from a compute die to the hub die, its own link included: leaves at die 0 or 4. -/
def hubHops (d : Nat) : Nat := d % 4 + 1

/-- Hops from a core's die to the home of an address. -/
def hopsTo (core a : Nat) : Nat :=
  if isPeer a then collHops (dieOf core) else if isHost a then hubHops (dieOf core)
  else meshHops (dieOf core) (homeDie a)

/-! ## Charges (R225 to R231) -/

/-- The deterministic classes (R243). -/
def detClass (c : Nat) : Bool :=
  decide (c ≤ 5) || c == 8 || c == 9 || (decide (14 ≤ c) && decide (c ≤ 18))

def addCharge (l : List Charge) (c : Charge) : List Charge :=
  match l with
  | [] => [c]
  | d :: l =>
    if d.payer = c.payer ∧ d.cls = c.cls ∧ d.nd = c.nd ∧ d.tile = c.tile then { d with n := d.n + c.n } :: l else d :: addCharge l c

/-- Count events of a class against an account. -/
def State.charge (s : State) (p : Payer) (cls n : Nat) : State :=
  if n = 0 then s else { s with unposted := addCharge s.unposted { payer := p, cls := cls, nd := !detClass cls, n := n } }

/-- Count events of a class at a weighbridge of its own (R225). -/
def State.chargeTile (s : State) (p : Payer) (cls n tile : Nat) : State :=
  if n = 0 then s
  else { s with unposted := addCharge s.unposted { payer := p, cls := cls, nd := !detClass cls, n := n, tile := some tile } }

/-- Numbers of the weighbridges (R225, R317; log 95): cores 0 to 127, then L2 slices, HBM channels, the collective and the hub die. -/
def sliceTile (a : Nat) : Nat := 128 + 16 * homeDie a + homeSlice a
def channelTile (a : Nat) : Nat := 256 + homeStack a
def collTile : Nat := 272
def hubTile : Nat := 273

/-- Count events in the N part whatever their class (R90, R152, R266). -/
def State.chargeN (s : State) (p : Payer) (cls n : Nat) : State :=
  if n = 0 then s else { s with unposted := addCharge s.unposted { payer := p, cls := cls, nd := true, n := n } }

/-- Do something whose charges go to the house account where `on` holds (R266). -/
def State.onHouse (s : State) (on : Bool) (f : State → Option State) : Option State :=
  if !on then f s
  else (f { s with unposted := [] }).map (fun t =>
    { t with unposted := t.unposted.foldl (fun l c => addCharge l { c with payer := .house }) s.unposted })

/-- A single-flit message over some hops (R228). -/
def State.chargeMsg (s : State) (p : Payer) (hops : Nat) : State := s.charge p 20 hops

/-- A data message of `n` bytes over some hops (R228). -/
def State.chargeData (s : State) (p : Payer) (hops n : Nat) : State :=
  (s.charge p 11 (hops * cdiv n 512)).charge p 20 hops

/-- The payer of a group's events (R231). -/
def payerOf (k : Nat) : Payer := .team (teamOf k)

/-! ## The frontier (R41 to R44) -/

def EState.code : EState → Nat
  | .ready => 1
  | .conv => 2
  | .parked => 3
  | .blocked => 4

/-- Frontier order (R42, invariant 3). -/
def Entry.before (a b : Entry) : Bool :=
  if a.prio ≠ b.prio then decide (b.prio.toNat < a.prio.toNat)
  else if a.pc ≠ b.pc then decide (a.pc.toNat < b.pc.toNat)
  else if a.st.code ≠ b.st.code then decide (a.st.code < b.st.code)
  else decide (a.frag.toNat < b.frag.toNat)

/-- Put an entry in its place, without merging. -/
def placeEntry (e : Entry) : List Entry → List Entry
  | [] => [e]
  | f :: l => if e.before f then e :: f :: l else f :: placeEntry e l

/-- Two entries that R44 merges. -/
def Entry.merges (a b : Entry) : Bool :=
  a.prio == b.prio && a.pc == b.pc && a.st == b.st && (a.st == .ready || a.st == .conv)

/-- The merged entry (R43, R44). -/
def Entry.merge (a b : Entry) : Entry :=
  { a with
    fr := false, fseq := 0, parent := 0, mask := a.mask ||| b.mask
    frag := if a.frag.toNat < b.frag.toNat then a.frag else b.frag
    skip := if a.skip.toNat < b.skip.toNat then b.skip else a.skip }

/-- Insert a part in frontier order, merging it with equal READY or CONV entries (R44). -/
def insertEntry (e : Entry) (l : List Entry) : List Entry :=
  placeEntry ((l.filter (fun f => f.merges e)).foldl (fun a f => f.merge a) e) (l.filter (fun f => !f.merges e))

def Group.entry (g : Group) (frag : BitVec 5) : Option Entry := g.entries.find? (fun e => e.frag == frag)

/-- Lanes that have not exited (R42, invariant 2). -/
def Group.live (g : Group) : BitVec 32 := g.entries.foldl (fun m e => m ||| e.mask) 0

/-- Lanes of the READY entries. -/
def Group.readyMask (g : Group) : BitVec 32 := g.entries.foldl (fun m e => if e.st == .ready then m ||| e.mask else m) 0

/-- Replace the entry of a FRAG, keeping the frontier's order and merging where R44 asks for it, but never with the entry whose
issue is under way: its lanes leave for the places that the issue gives them. -/
def Group.modEntry (g : Group) (frag : BitVec 5) (f : Entry → Entry) : Group :=
  match g.entry frag with
  | none => g
  | some e =>
    let others := g.entries.filter (fun x => x.frag != frag)
    let held := others.filter (fun x => g.issuing.any (fun i => i.1 == x.frag))
    let rest := others.filter (fun x => !g.issuing.any (fun i => i.1 == x.frag))
    { g with entries := held.foldl (fun l x => placeEntry x l) (insertEntry (f e) rest) }

/-- The lowest FSEQ that no entry with FR set holds (R43). -/
def Group.freshFseq (g : Group) : BitVec 5 :=
  ((List.range 32).map (BitVec.ofNat 5)).find? (fun n => g.entries.all (fun e => !(e.fr && e.fseq == n))) |>.getD 0

/-- That value where fragments leave the entries: an entry that lies whole in `m` becomes the fragment and holds none, unless it
is parked already. -/
def Group.fseqBeside (g : Group) (m : BitVec 32) : BitVec 5 :=
  ({ g with entries := g.entries.filter (fun e => e.st == .parked || e.mask &&& ~~~m != 0) } : Group).freshFseq

/-- The fragments of one faulting issue share their FSEQ (R43). -/
def State.shareFseq (s : State) (a : Acc) (fseq : BitVec 5) : State :=
  { s with accs := s.accs.map (fun (kv : Nat × Acc) =>
    (kv.1, if kv.2.grp == a.grp && kv.2.issue == a.issue then { kv.2 with fseq := some fseq } else kv.2)) }

/-- An entry that is PARKED and whose released command is to issue alone (R50). -/
def State.replays (s : State) (k : Nat) (e : Entry) : Bool :=
  e.st == .parked && s.accs.any (fun kv => kv.2.grp == k && kv.2.vf == vfOf k && kv.2.st == .replay && kv.2.lanes &&& e.mask != 0)

/-- The entry runs in supervisor mode (R249). -/
def Group.supv (g : Group) (e : Entry) : Bool := g.frame.busy && g.frame.frag == e.frag

/-- sr.sibs of an entry (R32). -/
def Group.sibs (g : Group) (e : Entry) : BitVec 32 :=
  if e.fr then
    g.entries.foldl (fun m f =>
      if f.frag != e.frag && f.fr && f.parent == e.parent && f.fseq == e.fseq then m ||| (1#32 <<< f.frag.toNat) else m) 0
  else 0

/-- The sequential successor of a PC (R318). -/
def nextPc (pc : VAddr) : VAddr :=
  if (pc &&& 7).toNat < 4 then pc + 1 else ((pc >>> 6) + 1) <<< 6

/-- A PC with a slot of 5 to 7 or nonzero bits [5:3] (R322). -/
def badPc (pc : VAddr) : Bool := decide (4 < (pc &&& 7).toNat) || (pc >>> 3) &&& 7 != 0

/-- The invariants of R42 on a frontier, as the activation checks them. -/
def frontierOk (l : List Entry) : Bool :=
  l.all (fun e => e.mask != 0 && !badPc e.pc && (e.fr || (e.parent == 0 && e.fseq == 0)) && (e.st == .ready || e.skip == 0)
    && decide (e.skip.toNat ≤ 1024)) &&
  l.Pairwise (fun a b => a.mask &&& b.mask = 0 ∧ a.frag ≠ b.frag ∧ a.merges b = false ∧ a.before b = true)

/-- The group may stand in its section's ready list. -/
def Group.mayQueue (g : Group) : Bool :=
  !g.active && g.res != .ended && !g.cfault && (!g.stopped || g.step.isSome) && g.move.isNone && g.queued.isNone

/-- A group that may be activated joins its section's ready list: at the tail (R74), or at the head. -/
def Group.enqueue (g : Group) (tick : Nat) (head : Bool) : Group :=
  { g with queued := some tick, atHead := if head then some tick else none }

/-- A group that has an entry to issue joins its section's ready list at the tail, or at the head where its event falls in the clk
of its swap-out (R84). -/
def State.makeReady (s : State) (k : Nat) : State :=
  s.modGroup k (fun g =>
    if g.mayQueue && g.entries.any (fun e => e.st == .ready || s.replays k e) then
      g.enqueue s.tick (g.left == s.now && Config.freeBool s.tick 84)
    else g)

/-- The same, always at the tail. -/
def State.makeReadyTail (s : State) (k : Nat) : State :=
  s.modGroup k (fun g =>
    if g.mayQueue && g.entries.any (fun e => e.st == .ready || s.replays k e) then g.enqueue s.tick false else g)

/-- A wake record is written in the lowest free place of the eight (R62). -/
def Group.addWake (g : Group) (w : Wake) : Group :=
  { g with wakes := g.wakes ++ [{ w with slot := ((List.range 8).find? (fun i => !g.wakes.any (fun v => v.slot == i))).getD 0 }] }

/-- Wake the entry of a FRAG: its wake record is freed, it becomes READY with SKIP zero (R44, R62). -/
def Group.wake (g : Group) (frag : BitVec 5) (pc : Option VAddr) : Group :=
  let g := { g with wakes := g.wakes.filter (fun w => w.frag != frag) }
  g.modEntry frag (fun e => { e with st := .ready, skip := 0, pc := pc.getD e.pc })

def State.wakeEntry (s : State) (k : Nat) (frag : BitVec 5) (pc : Option VAddr) : State :=
  (s.modGroup k (fun g => g.wake frag pc)).makeReady k

end Sys2Proof.Machine
end

