-- ==== Sys2Proof/Machine/Mem.lean ====
section
/-! DEFINITION. Memory: translation (R137 to R144), the fault buffers (R145), homes and the L2 (R131), the L1 (R129, R130),
local memory (R119 to R127), and requests to peers (R295). -/

namespace Sys2Proof.Machine

open Sys2Proof

/-- A fresh number for an access, command or issue. -/
def State.bump (s : State) : State := { s with nextId := s.nextId + 1 }

/-- Field of `n` bits at bit `off`. -/
def fld (e off n : Nat) : Nat := e / 2 ^ off % 2 ^ n

/-! ## Translation -/

/-- Lowest address bit that a level indexes (R138). -/
def lvlShift (lvl : Nat) : Nat := match lvl with | 0 => 48 | 1 => 39 | 2 => 30 | 3 => 21 | _ => 16

/-- Address of the entry of a table for an address. -/
def entryAddr (table addr lvl : Nat) : Nat :=
  table + 8 * (addr / 2 ^ lvlShift lvl % (if lvl = 4 then 32 else 512))

/-- ADDR of an entry as an address (R139). -/
def entryOut (e : Nat) : Nat := fld e 12 40 * 4096

/-- Reserved fields common to both stages, and LEAF where a level has none or must have one (R139). -/
def entryBad (lvl e : Nat) : Bool :=
  fld e 9 3 != 0 || fld e 52 12 != 0 || (fld e 1 1 == 1 && decide (lvl < 2)) || (fld e 1 1 == 0 && lvl == 4) ||
  (fld e 1 1 == 1 && entryOut e % 2 ^ lvlShift lvl != 0) || (fld e 1 1 == 0 && fld e 2 10 != 0)

def hbmTotal : Nat := 768 * 2 ^ 30

/-- A malformed stage 2 entry. -/
def s2Bad (lvl e : Nat) : Bool :=
  entryBad lvl e ||
  (if fld e 1 1 == 1 then fld e 2 4 != 0 || (fld e 51 1 == 0 && decide (hbmTotal < entryOut e + 2 ^ lvlShift lvl))
   else fld e 51 1 == 1 || decide (hbmTotal < entryOut e + (if lvl = 3 then 256 else 4096)))

/-- A malformed stage 1 entry. -/
def s1Bad (lvl e : Nat) : Bool :=
  entryBad lvl e ||
  (fld e 1 1 == 1 &&
    ((fld e 8 1 == 1 && fld e 2 2 != 3) || (decide (2 ≤ fld e 2 2) && fld e 4 2 != 0) || (decide (fld e 2 2 < 2) && fld e 4 2 == 3)))

/-- Outcome of a stage 2 walk with the number of entries read. -/
inductive S2
  | ok (out size : Nat) (rd wr ex host : Bool) (n : Nat)
  | retry (n : Nat)
  | bad (n : Nat)
deriving DecidableEq, Repr

/-- The stage 2 walk of an intermediate address (R138 to R140). -/
def s2Walk (mem : Memory) (addr : Nat) : (fuel lvl table n : Nat) → S2
  | 0, _, _, n => .bad n
  | f + 1, lvl, table, n =>
    let e := Store.load mem (entryAddr table addr lvl) 8
    if fld e 0 1 = 0 then .retry (n + 1)
    else if s2Bad lvl e then .bad (n + 1)
    else if fld e 1 1 = 1 then
      let size := 2 ^ lvlShift lvl
      let host := fld e 51 1 == 1
      .ok ((if host then entryOut e % 2 ^ 51 else entryOut e) + addr % size) size (fld e 6 1 == 1) (fld e 7 1 == 1)
        (fld e 8 1 == 1) host (n + 1)
    else s2Walk mem addr f (lvl + 1) (entryOut e) (n + 1)

/-- Outcome of a whole translation: the translation, a retryable REASON, or a terminal REASON with its stage (R140). -/
inductive XRes
  | ok (x : Xlat) (n : Nat)
  | retry (reason : BitVec 4) (stage : Bool) (n : Nat)
  | term (reason : BitVec 4) (stage : Bool) (n : Nat)
deriving DecidableEq, Repr

/-- The stage 1 walk, each of its entries reached through stage 2 (R139, R140). -/
def s1Walk (mem : Memory) (s2root vf va : Nat) : (fuel lvl table n : Nat) → XRes
  | 0, _, _, n => .term 5 false n
  | f + 1, lvl, table, n =>
    match s2Walk mem (entryAddr table va lvl) 5 0 s2root n with
    | .retry n => .retry 2 true n
    | .bad n => .term 5 true n
    | .ok out _ _ _ _ host n =>
      if host then .term 5 false n
      else
        let e := Store.load mem out 8
        if fld e 0 1 = 0 then .retry 1 false (n + 1)
        else if s1Bad lvl e then .term 5 false (n + 1)
        else if fld e 1 1 = 1 then
          let size := 2 ^ lvlShift lvl
          match s2Walk mem (entryOut e + va % size) 5 0 s2root (n + 1) with
          | .retry n => .retry 2 true n
          | .bad n => .term 5 true n
          | .ok out2 size2 rd wr ex host n =>
            if host && fld e 2 2 != 1 then .term 5 true n
            else
              let sz := min size size2
              .ok { vf := vf, va := va - va % sz, size := sz
                    home := (if host then hostBase else 0) + (out2 - out2 % sz)
                    cls := BitVec.ofNat 2 (fld e 2 2), grain := BitVec.ofNat 2 (fld e 4 2)
                    rd := rd && fld e 6 1 == 1, wr := wr && fld e 7 1 == 1, ex := ex && fld e 8 1 == 1
                    rd1 := fld e 6 1 == 1, wr1 := fld e 7 1 == 1, ex1 := fld e 8 1 == 1 } n
        else s1Walk mem s2root vf va f (lvl + 1) (entryOut e) (n + 1)

/-- First address of the peer aperture, in 57 bits (R290). -/
def apertureBase : Nat := 0x1F0000000000000
def supvNat : Nat := 0x1FFFFFFC0000000

/-- The import index of an address of the aperture. -/
def apertureIdx (va : Nat) : Option Nat :=
  if va < apertureBase || supvNat ≤ va then none else some ((va - apertureBase) / 2 ^ 40)

/-- Translation of an aperture address (R290, R291): REASON 8, else the import's page. `ex` carries its AT. -/
def apertureXlat (v : Vf) (vf va w : Nat) : XRes :=
  match SMap.find v.imports w with
  | none => .term 8 false 0
  | some im =>
    let off := (va - apertureBase) % 2 ^ 40
    if im.st != 1 || w = 4095 || im.len.toNat ≤ off then .term 8 false 0
    else
      let size := if im.held then (match im.pgsz with | 1 => 2 ^ 21 | 2 => 2 ^ 30 | _ => 2 ^ 16) else 2 ^ 16
      .ok { vf := vf, va := va - va % size, size := size, home := peerBase + w * 2 ^ 40 + (off - off % size)
            cls := (if im.held then 0 else 1), grain := im.grain, rd := im.perm.getLsbD 0, wr := im.perm.getLsbD 1
            ex := im.perm.getLsbD 2, rd1 := false, wr1 := false, ex1 := false } 0

/-- A whole walk for a VF (R140); the supervisor's pages permit no data access (R282). -/
def State.walk (s : State) (vf va : Nat) : XRes :=
  if supvNat ≤ va then .term 3 false 0
  else match apertureIdx va with
    | some w => apertureXlat (s.vf vf) vf va w
    | none => s1Walk s.mem (s.vf vf).s2root vf va 5 0 (s.fn vf).s1root.toNat 0

/-- A translation covers an address. -/
def Xlat.covers (x : Xlat) (vf va : Nat) : Bool := x.vf == vf && decide (x.va ≤ va) && decide (va < x.va + x.size)

/-- Home address of a virtual address under its translation. -/
def Xlat.at (x : Xlat) (va : Nat) : Nat := x.home + (va - x.va)

/-- What the TLBs, or the pages that need no walk, answer (R143); none for a miss. -/
def State.lookup (s : State) (core vf va : Nat) : Option XRes :=
  if supvNat ≤ va then some (.term 3 false 0)
  else match apertureIdx va with
    | some w => some (apertureXlat (s.vf vf) vf va w)
    | none =>
      match (s.core core).tlb.find? (fun x => x.covers vf va) with
      | some x => some (.ok x 0)
      | none => ((s.die (dieOf core)).tlb.find? (fun x => x.covers vf va)).map (fun x => .ok x 0)

/-- Set of the L2 TLB that an entry falls in: 1,024 sets of 8 ways, by the number of its page (log 22). -/
def Xlat.set (x : Xlat) : Nat := x.va / x.size % 1024

/-- The L2 TLB with another entry: the oldest of its set gives way (R143). -/
def tlbPut (x : Xlat) (l : List Xlat) : List Xlat :=
  let l := l.filter (· != x)
  let same := l.filter (fun y => y.set == x.set)
  x :: (if same.length < 8 then l else match same.getLast? with
    | some o => l.filter (· != o)
    | none => l)

/-- Put a translation into the TLBs, dropping the oldest entries beyond their sizes (R143). -/
def State.fillTlb (s : State) (core : Nat) (x : Xlat) : State :=
  let s := s.modCore core (fun c => { c with tlb := (x :: c.tlb.filter (· != x)).take 128 })
  s.modDie (dieOf core) (fun d => { d with tlb := tlbPut x d.tlb })

/-- Kinds of access by the permissions they need. -/
inductive Need | ld | st | at_ | ex
deriving DecidableEq, Repr

/-- Permission for a kind of access; an atomic needs RD and WR, in the aperture AT. -/
def Need.ok (n : Need) (peer rd wr ex : Bool) : Bool :=
  match n with
  | .ld => rd
  | .st => wr
  | .at_ => if peer then ex else rd && wr
  | .ex => ex

/-- REASON 4, 3 or 6 with STAGE for an access that a completed translation does not allow (R140), in that order; STAGE tells a
page that stage 1 alone would permit. -/
def Xlat.deny (x : Xlat) (v : Vf) (cls : Option (BitVec 2)) (n : Need) : Option (BitVec 4 × Bool) :=
  if cls.any (· != x.cls) || (n == .ex && x.cls != 3) then some (4, false)
  else if !n.ok (isPeer x.home) x.rd x.wr x.ex then some (3, n.ok (isPeer x.home) x.rd1 x.wr1 x.ex1)
  else if isHost x.home && v.tdi != .run then some (6, false)
  else none

/-! ## Page-miss entries and fault buffers (R144, R145) -/

def AccKind.code : AccKind → Nat
  | .load => 0
  | .store => 1
  | .atomic => 2
  | .fetch => 3
  | .engineRead => 4
  | .engineWrite => 5
  | .probe => 6
  | .bor => 7
  | .refusal => 8
  | .peerReq => 9
  | .remote => 10
  | .host => 11
  | .notice => 15

/-- 64 KiB unit of a virtual address: no page is smaller. -/
def unitOf (va : Nat) : Nat := va / 65536

/-- Size of the stage 1 page of an address; 64 KiB where stage 1 maps none (log 96). -/
def s1Size (mem : Memory) (s2root va : Nat) : (fuel lvl table : Nat) → Nat
  | 0, _, _ => 65536
  | f + 1, lvl, table =>
    match s2Walk mem (entryAddr table va lvl) 5 0 s2root 0 with
    | .ok out _ _ _ _ false _ =>
      let e := Store.load mem out 8
      if fld e 0 1 = 0 || s1Bad lvl e then 65536
      else if fld e 1 1 = 1 then 2 ^ lvlShift lvl
      else s1Size mem s2root va f (lvl + 1) (entryOut e)
    | _ => 65536

/-- The page-miss entry that a miss at an address takes (R144). -/
def State.missEntry (s : State) (vf va part : Nat) : MissEntry :=
  let n := s1Size s.mem (s.vf vf).s2root va 5 0 (s.fn vf).s1root.toNat
  { vf := vf, base := va - va % n, size := n, part := part }

/-- An entry stands for the page of an address. -/
def MissEntry.covers (m : MissEntry) (vf va : Nat) : Bool := m.vf == vf && decide (m.base ≤ va) && decide (va < m.base + m.size)

/-- Leaf partitions with cores on a die. -/
def State.leavesOn (s : State) (d : Nat) : List Nat :=
  (s.leaves.filter (fun kv => kv.2.conf.cores.any (fun c => dieOf c == d))).map Prod.fst

/-- A partition may take another page-miss entry (R144): 64 in all, 24 at most, 2 reserved for each partition. -/
def State.mayTake (s : State) (d part : Nat) : Bool :=
  let ms := (s.die d).misses
  let cnt (p : Nat) := (ms.filter (fun m => m.part == p)).length
  let spare := (s.leavesOn d).foldl (fun a p => if p = part then a else a + (2 - cnt p)) 0
  decide (cnt part < 24) && (decide (cnt part < 2) || decide (ms.length + spare < 64))

/-- The page-miss entry of the page of an address. -/
def Die.miss (d : Die) (vf va : Nat) : Option MissEntry := d.misses.find? (fun m => m.covers vf va)

def Die.dropMiss (d : Die) (vf va : Nat) : Die :=
  { d with misses := d.misses.filter (fun m => !m.covers vf va) }

def Die.buffer (d : Die) (part : Nat) : List FaultRec := (SMap.find d.buffers part).getD []
def Die.roomFor (d : Die) (part : Nat) : Bool :=
  decide ((d.buffer part).length < 8) && !(d.waiting.any (fun w => w.fault.part == part))
def Die.record (d : Die) (r : FaultRec) : Die := { d with buffers := SMap.put d.buffers r.part (d.buffer r.part ++ [r]) }

/-- The drop notice for a dropped fault (R145): the fault's fields with the page base and ACCESS 15. -/
def FaultRec.notice (r : FaultRec) (base : Nat) : FaultRec :=
  { r with va := BitVec.ofNat 57 base, cause := 0x20, access := .notice }

/-- A retryable fault is recorded or dropped (R145); its page-miss entry turns to FAULT or is freed (R144). -/
def State.retryFault (s : State) (va : Nat) (r : FaultRec) : State :=
  let m := ((s.die r.die).miss r.vf va).getD (s.missEntry r.vf va r.part)
  s.modDie r.die (fun d =>
    let faults := (d.misses.filter (fun m => m.part == r.part && m.faulted)).length
    let d := d.dropMiss r.vf va
    if d.roomFor r.part && decide (faults < 8) && !d.dropped.contains r.vf then
      { d.record r with misses := d.misses ++ [{ m with part := r.part, faulted := true }] }
    else if d.dropped.contains r.vf then d
    else { d with dropped := d.dropped ++ [r.vf], notices := d.notices ++ [r.notice m.base] })

/-- A record that is never dropped: taken by the buffer, or waiting for one of its records (R145). -/
def State.keepRecord (s : State) (r : FaultRec) : State :=
  s.modDie r.die (fun d => if d.roomFor r.part then d.record r else { d with waiting := d.waiting ++ [{ fault := r }] })

/-! ## Homes and the L2 -/

/-- Write bytes at their home; a mark whose bytes are all written is cleared (R316). -/
def State.homeWrite (s : State) (kvs : List (Nat × Byte)) : State :=
  { s with
    mem := Store.wrs s.mem kvs
    poison := s.poison.filter (fun g => !g.2.all (fun a => kvs.any (fun kv => kv.1 == a))) }

/-- A byte is marked as uncorrected data. -/
def State.poisoned (s : State) (a : Nat) : Bool := s.poison.any (fun g => g.2.contains a)

/-- Bits `off` to `off + n - 1` of a line mask. -/
def bitsAt (off n : Nat) : BitVec 512 := BitVec.ofNat 512 ((2 ^ n - 1) * 2 ^ off)

/-- Ways of a die's L2 that a leaf may allocate in (R131, R278): those after the ways of lower-numbered leaves. -/
def State.waysOf (s : State) (d leaf : Nat) : Nat × Nat :=
  let n (l : Leaf) : Nat := (l.conf.l2ways[d]?).getD 0
  let below := s.leaves.foldl (fun a kv => if kv.1 < leaf then a + n kv.2 else a) 0
  (below, match s.leaf leaf with | some l => n l | none => 0)

/-- The L2 set of a line: slice and set within it. -/
def l2Set (line : Nat) : Nat × Nat := (homeSlice (line * 512), line / 256 % 384)

/-- Controllers at which a leaf's bandwidth is limited: the stacks' memory controllers 0 to 15, and the collective die (R278). -/
def collController : Nat := 16

/-- Count bytes that a leaf moves at a controller in the limiter's window (R278). -/
def State.moved (s : State) (leaf ctl n : Nat) : State :=
  if n = 0 then s
  else s.modLeaf leaf (fun l => { l with
    window := Store.wr l.window ctl (Store.rd l.window ctl + BitVec.ofNat 64 n)
    windowAt := if l.window.isEmpty then s.now else l.windowAt })

/-- The lookup of a line in the home die's L2 (R131): a fill from HBM or the write of an evicted line is one event of
class 12. -/
def State.l2Touch (s : State) (p : Payer) (leaf line : Nat) (bytes : BitVec 512) (write : Bool) : State :=
  let d := homeDie (line * 512)
  match (s.die d).l2.find? (fun x => x.line == line) with
  | some x =>
    let fill := !write && bytes &&& ~~~x.held != 0
    let s := if fill then (s.chargeTile p 12 1 (channelTile (line * 512))).moved leaf (homeStack (line * 512)) 512 else s
    let x := if write then { x with held := x.held ||| bytes, written := x.written ||| bytes, by_ := p }
      else if fill then { x with held := BitVec.allOnes 512 } else x
    s.modDie d (fun d => { d with l2 := x :: d.l2.filter (fun y => y.line != line) })
  | none =>
    let s := if write then s else (s.chargeTile p 12 1 (channelTile (line * 512))).moved leaf (homeStack (line * 512)) 512
    let (lo, n) := s.waysOf d leaf
    let same := (s.die d).l2.filter (fun y => l2Set y.line == l2Set line && decide (lo ≤ y.way) && decide (y.way < lo + n))
    let ways := (List.range n).map (· + lo)
    match ways.find? (fun w => !(same.any (fun y => y.way == w))), same.getLast? with
    | some w, _ =>
      let x : L2Line := { line := line, way := w, held := (if write then bytes else BitVec.allOnes 512)
                          written := (if write then bytes else 0), by_ := p }
      s.modDie d (fun d => { d with l2 := x :: d.l2 })
    | none, some old =>
      let s := if old.written != 0 then (s.chargeTile old.by_ 12 1 (channelTile (old.line * 512))).moved leaf (homeStack (old.line * 512)) 512 else s
      let x : L2Line := { line := line, way := old.way, held := (if write then bytes else BitVec.allOnes 512)
                          written := (if write then bytes else 0), by_ := p }
      s.modDie d (fun d => { d with l2 := x :: d.l2.filter (fun y => y.line != old.line) })
    | none, none => if write then (s.chargeTile p 12 1 (channelTile (line * 512))).moved leaf (homeStack (line * 512)) 512 else s

/-- An access of one 512 B block of the L2: one event of class 10 (R228). -/
def State.l2Access (s : State) (p : Payer) (leaf line : Nat) (bytes : BitVec 512) (write : Bool) : State :=
  (s.chargeTile p 10 1 (sliceTile (line * 512))).l2Touch p leaf line bytes write

/-- Offsets of the set bits of a line mask. -/
def bitList (m : BitVec 512) : List Nat := (List.range 512).filter (fun i => m.getLsbD i)

/-- Bytes of lines by line number. -/
abbrev Blocks := List (Nat × BitVec 512)

def Blocks.bytes (bs : Blocks) : Nat := bs.foldl (fun n b => n + (bitList b.2).length) 0

/-- Where a home address lies: a compute die, the hub for host memory, the collective die for a peer. -/
def homeUnit (a : Nat) : Nat := if isPeer a then 9 else if isHost a then 8 else homeDie a

/-- Blocks by the unit that is their home. -/
def Blocks.byHome (bs : Blocks) : List Blocks :=
  ((bs.map (fun b => homeUnit (b.1 * 512))).eraseDups).map (fun u => bs.filter (fun b => homeUnit (b.1 * 512) == u))

/-- Charges of a request from a core for bytes at their homes: request, answer, and the home's accesses, per 512 B (R228). -/
def State.chargeReads (s : State) (p : Payer) (leaf core : Nat) (bs : Blocks) : State :=
  bs.byHome.foldl (fun s bs =>
    let a := (bs.head?.map (fun b => b.1 * 512)).getD 0
    let n := bs.bytes
    let h := hopsTo core a
    let s := (s.chargeMsg p h).chargeData p h n
    if isDev a then bs.foldl (fun s b => s.l2Touch p leaf b.1 b.2 false) (s.chargeTile p 10 (cdiv n 512) (sliceTile a))
    else if isHost a then s.charge p 21 (cdiv n 256) else s) s

/-- Charges of reading `n` bytes at a home from a core. -/
def State.chargeRead (s : State) (p : Payer) (leaf core a n : Nat) : State :=
  s.chargeReads p leaf core [(a / 512, bitsAt (a % 512) n)]

/-- Charges of writing bytes at their homes from a core: data and answer, and the home's accesses. Host writes are
posted (R165). -/
def State.chargeWrites (s : State) (p : Payer) (leaf core : Nat) (bs : Blocks) : State :=
  bs.byHome.foldl (fun s bs =>
    let a := (bs.head?.map (fun b => b.1 * 512)).getD 0
    let n := bs.bytes
    let h := hopsTo core a
    let s := s.chargeData p h n
    if isDev a then bs.foldl (fun s b => s.l2Touch p leaf b.1 b.2 true) ((s.chargeMsg p h).chargeTile p 10 (cdiv n 512) (sliceTile a))
    else if isHost a then s.charge p 21 (cdiv n 256) else s.chargeMsg p h) s

/-! ## Requests to peers (R294, R295) -/

/-- The VF holds peer windows, so that it is not migratable (R286, R290). -/
def Vf.hasWindows (f : Vf) : Bool := f.exports.any (fun e => e.2.st != 0) || f.imports.any (fun i => i.2.st != 0)

def connKey (vf dev rvf : Nat) : Nat := vf * 2 ^ 20 + dev * 2 ^ 10 + rvf

/-- Payload bytes of a request that leave a port (R304). -/
def ReqKind.payload (k : ReqKind) : Nat :=
  match k with
  | .write _ d => d.length
  | .writeBack _ m _ _ => ((List.range 256).filter (fun i => m.getLsbD i)).length
  | .atomic _ w _ _ _ => if w then 8 else 4
  | _ => 0

/-- Send a request on a connection, or queue it behind 4,096 unacknowledged ones (R295). -/
def State.peerSendTo (s : State) (vf dev rvf win tmo : Nat) (kind : ReqKind) (op part first last : Nat)
    (imp : Nat := 4095) : State :=
  let key := connKey vf dev rvf
  let c : Conn := (SMap.find s.dev.conns key).getD { vf := vf, dev := dev, rvf := rvf }
  let r : Req :=
    { seq := c.next, kind := kind, win := win, imp := imp, op := op, part := part, first := first, last := last
      tmo := if tmo = 0 then 1000 else tmo, sentAt := s.now, firstAt := s.now }
  let c := if c.sent.length < 4096 then { c with sent := c.sent ++ [r], next := c.next + 1 }
    else { c with queue := c.queue ++ [r] }
  (s.modDev (fun d => { d with conns := SMap.put d.conns key c })).moved (s.vf vf).leaf.toNat collController kind.payload

/-- Send a request through an import. -/
def State.peerSend (s : State) (vf win : Nat) (kind : ReqKind) (op part first last : Nat) : State :=
  match SMap.find (s.vf vf).imports win with
  | none => s
  | some im => s.peerSendTo vf im.rdev.toNat im.rvf.toNat im.rwin.toNat im.tmo.toNat kind op part first last win

/-- The requests of at most 256 B that bring the `n` bytes of a block (R288): offset and length. -/
def fillParts (off n : Nat) : List (Nat × Nat) := (List.range (cdiv n 256)).map (fun i => (off + 256 * i, min 256 (n - 256 * i)))

/-- A borrow through a peer window that a register names (R93, R114): of one window, within one granted range. -/
def State.peerGrant? (s : State) (vf base len : Nat) (h : BitVec 24) : Option PeerGrant :=
  let off := base % 2 ^ 40
  (s.vf vf).peerHeld.find? (fun g => g.win == (h &&& 0xFFFF).toNat && g.handle >>> 19 &&& 0xF == h >>> 19 &&& 0xF &&
    decide (g.off ≤ off) && decide (off + len ≤ g.off + g.len))

/-- A register whose borrow through a peer window is gone with its window, even where another import has taken the window's
place since: it permits nothing (R293). -/
def State.stale (s : State) (vf : Nat) (r : Region) : Bool :=
  r.handle.getLsbD 23 && decide (1 ≤ r.kind.toNat) && decide (r.kind.toNat ≤ 3) &&
    (s.peerGrant? vf r.base.toNat r.len.toNat r.handle).isNone

/-- Import index of a home address in a held peer window. -/
def peerIdx (a : Nat) : Nat := (a - peerBase) / 2 ^ 40
/-- Offset in the window. -/
def peerOff (a : Nat) : Nat := (a - peerBase) % 2 ^ 40

/-! ## The L1 (R129, R130) -/

/-- Sector mask of the sectors that hold a byte range of a line. -/
def sectorsOf (off n : Nat) : BitVec 16 :=
  (List.range 16).foldl (fun m i => if 32 * i < off + n && off < 32 * (i + 1) then m ||| (1#16 <<< i) else m) 0

/-- Bytes of the sectors of a mask. -/
def sectorBytes (m : BitVec 16) : BitVec 512 :=
  (List.range 16).foldl (fun b i => if m.getLsbD i then b ||| bitsAt (32 * i) 32 else b) 0

def Core.l1Line (c : Core) (vf a : Nat) : Option L1Line := c.l1.find? (fun x => x.line == a / 512 && x.vf == vf)

/-- Put a line at the most recently used place. -/
def Core.touch (c : Core) (x : L1Line) : Core :=
  { c with l1 := x :: c.l1.filter (fun y => !(y.line == x.line && y.vf == x.vf)) }

def State.leafOfTeam (s : State) (t : Nat) : Nat :=
  match s.launch (teamLaunch t) with | some l => l.leaf | none => 0

/-- Halves of a line that hold bytes of a mask: a write-back to a peer is one request for each (R288). -/
def peerHalves (m : BitVec 512) : List Nat := (List.range 2).filter (fun i => m &&& bitsAt (256 * i) 256 != 0)

/-- Write dirty bytes of a line back to their home (R130); the line itself is not changed. Host memory is reached only while
the VF's TDI is in RUN (R142): bytes that are written back otherwise are lost (log 97). -/
def State.writeBack (s : State) (core : Nat) (x : L1Line) (m : BitVec 512) (op : Nat := 0) : State :=
  let offs := bitList (m &&& x.dirty)
  if offs.isEmpty then s
  else
    let p : Payer := .team x.team
    let s := s.chargeWrites p (s.leafOfTeam x.team) core [(x.line, m &&& x.dirty)]
    if isHost (x.line * 512) && (s.vf x.vf).tdi != .run then s
    else if isPeer (x.line * 512) then
      (peerHalves (m &&& x.dirty)).foldl (fun s i =>
        (s.charge p 19 1).peerSend x.vf (peerIdx (x.line * 512))
          (.writeBack (peerOff (x.line * 512) + 256 * i) (((m &&& x.dirty) >>> (256 * i)).setWidth 256)
            (x.data.filterMap (fun kv => if 256 * i ≤ kv.1 ∧ kv.1 < 256 * i + 256 then some (kv.1 - 256 * i, kv.2) else none)) x.team)
          op 0 0 0) s
    else s.homeWrite (offs.map (fun o => (x.line * 512 + o, Store.rd x.data o)))

/-- Make room in the set of a line by writing back and dropping its least recently used line (R129). The set is taken from the
low bits of the line's home address (DESIGN CHOICE, log 22). -/
def State.l1Room (s : State) (core line : Nat) : State :=
  let same := (s.core core).l1.filter (fun x => x.line % 64 == line % 64)
  if same.length < 8 then s
  else match same.getLast? with
    | none => s
    | some x =>
      let s := s.writeBack core x (BitVec.allOnes 512)
      s.modCore core (fun c => { c with l1 := c.l1.filter (fun y => !(y.line == x.line && y.vf == x.vf)) })

/-- A line seen under a translation. -/
def L1Line.see (ln : L1Line) (x : Xlat) (va : Nat) : L1Line :=
  let v : View := { line := va / 512, page := x.va, size := x.size }
  { ln with views := if ln.views.contains v then ln.views else v :: ln.views }

/-- The line of a home address in the L1, allocated if it is not there, most recently used. -/
def State.l1Get (s : State) (core : Nat) (x : Xlat) (va : Nat) : State × L1Line :=
  let a := x.at va
  match (s.core core).l1Line x.vf a with
  | some ln => (s.modCore core (fun c => c.touch (ln.see x va)), ln.see x va)
  | none =>
    let s := s.l1Room core (a / 512)
    let ln : L1Line := { line := a / 512, vf := x.vf, grain := x.grain, cls := x.cls }
    (s.modCore core (fun c => c.touch (ln.see x va)), ln.see x va)

/-- Bytes of a grain code: 32, 128 or 512. -/
def grainBytes (g : BitVec 2) : Nat := if g = 1 then 128 else if g = 2 then 512 else 32

/-- The sectors that an access fills: those not valid of each grain-sized block in which a sector that it touches is not
valid (R129). -/
def L1Line.fillMask (x : L1Line) (off n : Nat) : BitVec 16 :=
  let gs := grainBytes x.grain
  let miss := sectorsOf off n &&& ~~~x.valid
  (List.range (512 / gs)).foldl (fun m i =>
    let b := sectorsOf (i * gs) gs
    if b &&& miss = 0 then m else m ||| (b &&& ~~~x.valid)) 0

/-- Take bytes of the home into the sectors of a mask, keeping dirty bytes. -/
def L1Line.fill (x : L1Line) (mem : Memory) (m : BitVec 16) : L1Line :=
  { x with
    valid := x.valid ||| m
    data := Store.wrs x.data ((bitList (sectorBytes m &&& ~~~x.dirty)).map (fun o => (o, Store.rd mem (x.line * 512 + o)))) }

/-- The bytes of an access are in the L1 without a fill. -/
def State.l1Has (s : State) (core : Nat) (x : Xlat) (va n : Nat) : Bool :=
  let a := x.at va
  match (s.core core).l1Line x.vf a with
  | some ln => ln.fillMask (a % 512) n == 0
  | none => false

/-- Make `n` bytes at each of some addresses of one line valid in the L1, taking them from the home; answers what was taken. -/
def State.l1Take (s : State) (core : Nat) (x : Xlat) (vas : List Nat) (n : Nat) : State × Blocks :=
  match vas with
  | [] => (s, [])
  | va :: _ =>
    let (s, ln) := s.l1Get core x va
    let m := vas.foldl (fun m a => m ||| ln.fillMask (x.at a % 512) n) 0
    if m = 0 then (s, [])
    else (s.modCore core (fun c => c.touch (ln.fill s.mem m)), [(ln.line, sectorBytes m)])

/-- Addresses by the line of their homes. -/
def Xlat.byLine (x : Xlat) (vas : List Nat) : List (List Nat) :=
  ((vas.map (fun a => x.at a / 512)).eraseDups).map (fun l => vas.filter (fun a => x.at a / 512 == l))

/-- Fill `n` bytes at each of some addresses of one line, as one request (R228). -/
def State.l1Fills (s : State) (p : Payer) (leaf core : Nat) (x : Xlat) (vas : List Nat) (n : Nat) : State :=
  let (s, bs) := s.l1Take core x vas n
  s.chargeReads p leaf core bs

/-- Make the bytes of an access valid in the L1, filling from the home (device and host memory). -/
def State.l1Fill (s : State) (p : Payer) (leaf core : Nat) (x : Xlat) (va n : Nat) : State :=
  s.l1Fills p leaf core x [va] n

/-- A load of `n` bytes through the L1. -/
def State.l1Load (s : State) (p : Payer) (leaf core : Nat) (x : Xlat) (va n : Nat) : State × Nat :=
  let s := s.l1Fill p leaf core x va n
  let a := x.at va
  match (s.core core).l1Line x.vf a with
  | some ln => (s, Store.load ln.data (a % 512) n)
  | none => (s, 0)

/-- A store of `n` bytes into the L1: the bytes become dirty (R130), and no sweep accepted before discards them (R135). -/
def State.l1Store (s : State) (team core : Nat) (x : Xlat) (va n v : Nat) : State :=
  let a := x.at va
  let (s, ln) := s.l1Get core x va
  s.modCore core (fun c =>
    { c.touch { ln with
        dirty := ln.dirty ||| bitsAt (a % 512) n, data := Store.store ln.data (a % 512) n v, team := team } with
      sweeps := c.sweeps.map (fun (kv : Nat × Sweep) =>
        (kv.1, { kv.2 with snap := kv.2.snap.filter (fun h => !(kv.2.op == .inv && decide (a ≤ h) && decide (h < a + n))) })) })

/-- Write back the dirty bytes of home addresses from `a` up, `n` of them, and keep the lines clean or invalidate them. -/
def State.l1Range (s : State) (core vf a n : Nat) (wb inv : Bool) : State :=
  let lines := (s.core core).l1.filter (fun x => x.vf == vf && decide (x.line * 512 < a + n) && decide (a < (x.line + 1) * 512))
  lines.foldl (fun s x =>
    let lo := a - x.line * 512
    let hi := min 512 (a + n - x.line * 512)
    let m := bitsAt lo (hi - lo)
    let s := if wb then s.writeBack core x m else s
    let x := { x with
      dirty := x.dirty &&& ~~~m
      valid := if inv then x.valid &&& ~~~sectorsOf lo (hi - lo) else x.valid }
    s.modCore core (fun c => { c with l1 := c.l1.map (fun y => if y.line == x.line && y.vf == x.vf then x else y) })) s

/-- Bytes of the 512 from `line * 512` up that lie in a range. -/
def lineRange (line a n : Nat) : BitVec 512 :=
  if line * 512 < a + n && a < (line + 1) * 512 then
    bitsAt (a - line * 512) (min 512 (a + n - line * 512) - (a - line * 512))
  else 0

/-- Home ranges of a virtual range under the present translations, page by page. -/
def State.homesOf (s : State) (vf : Nat) : (fuel va hi : Nat) → List (Nat × Nat)
  | 0, _, _ => []
  | f + 1, va, hi =>
    if hi ≤ va then []
    else match s.walk vf va with
      | .ok x _ => (x.at va, min hi (x.va + x.size) - va) :: s.homesOf vf f (x.va + x.size) hi
      | _ => s.homesOf vf f ((va / 65536 + 1) * 65536) hi

/-- The lines of the L1 that hold bytes of a virtual range, with the bytes of the range in each: those filled or written under
it, and, of a range within the limit of a sweep, those of the home bytes that it names now. -/
def State.l1Lines (s : State) (core vf va n : Nat) : List (L1Line × BitVec 512) :=
  let homes := if n ≤ 2 ^ 30 then s.homesOf vf (n / 65536 + 2) va (va + n) else []
  (s.core core).l1.filterMap (fun x =>
    let m := homes.foldl (fun m h => m ||| lineRange x.line h.1 h.2) (x.views.foldl (fun m v => m ||| lineRange v.line va n) 0)
    if x.vf == vf && m != 0 then some (x, m) else none)

/-- Sectors of which every byte, or some byte, lies in a byte mask. -/
def sectorsAny (m : BitVec 512) : BitVec 16 :=
  (List.range 16).foldl (fun k i => if m &&& bitsAt (32 * i) 32 != 0 then k ||| (1#16 <<< i) else k) 0

/-- Replace a line of the L1 in place. -/
def State.l1Put (s : State) (core : Nat) (x : L1Line) : State :=
  s.modCore core (fun c => { c with l1 := c.l1.map (fun y => if y.line == x.line && y.vf == x.vf then x else y) })

/-- Write back the dirty bytes of a virtual range; the lines stay, clean. Answers the number of write-backs sent. -/
def State.l1WriteBack (s : State) (core vf va n op : Nat) : State × Nat :=
  (s.l1Lines core vf va n).foldl (fun (sn : State × Nat) xm =>
    let (x, m) := xm
    if x.dirty &&& m = 0 then sn
    else ((sn.1.writeBack core x m op).l1Put core { x with dirty := x.dirty &&& ~~~m },
      sn.2 + if isPeer (x.line * 512) then (peerHalves (x.dirty &&& m)).length else 1)) (s, 0)

/-- Invalidate the sectors of a virtual range and discard their dirty bytes; answers whether any was dirty. -/
def State.l1Discard (s : State) (core vf va n : Nat) : State × Bool :=
  (s.l1Lines core vf va n).foldl (fun (sb : State × Bool) xm =>
    let (x, m) := xm
    (sb.1.l1Put core { x with dirty := x.dirty &&& ~~~m, valid := x.valid &&& ~~~sectorsAny m },
      sb.2 || x.dirty &&& m != 0)) (s, false)

/-- A view under a page that meets a range. -/
def View.meets (v : View) (va n : Nat) : Bool := decide (v.page < va + n) && decide (va < v.page + v.size)

/-- Write back and invalidate every line that was filled or written under a page that meets a range (R150): a dropped
translation is dropped whole. -/
def State.l1Shoot (s : State) (core vf va n : Nat) : State :=
  ((s.core core).l1.filter (fun x => x.vf == vf && x.views.any (fun v => v.meets va n))).foldl (fun s x =>
    (s.writeBack core x (BitVec.allOnes 512)).l1Put core { x with
      dirty := 0, valid := 0, views := x.views.filter (fun v => !v.meets va n) }) s

/-- The range holds dirty bytes in the L1. -/
def State.l1Dirty (s : State) (core vf a n : Nat) : List Nat :=
  ((s.core core).l1.filter (fun x => x.vf == vf)).flatMap (fun x =>
    ((bitList x.dirty).map (fun o => x.line * 512 + o)).filter (fun h => decide (a ≤ h) && decide (h < a + n)))

/-! ## Local memory (R119 to R126) -/

/-- The unit that holds a local byte. -/
inductive LUnit
  | scr (core : Nat)
  | clu (core : Nat)
  | dsp (die : Nat)
deriving DecidableEq, Repr

def LSpace.ofKind (k : BitVec 4) : Option LSpace :=
  if k = 8 then some .prv else if k = 9 then some .scr else if k = 10 then some .clu else if k = 11 then some .dsp else none

/-- Base of a launch's die-scratchpad allocation on a die. -/
def State.dspBase (s : State) (d l : Nat) : Nat :=
  match (s.die d).dspAlloc.find? (fun a => a.1 == l) with | some a => a.2.1 | none => 0

/-- Where a byte of a local space lies for a lane of a group (R121 to R124). -/
def State.localAt (s : State) (k lane : Nat) (sp : LSpace) (off : Nat) : LUnit × Nat :=
  let core := match s.team (teamOf k) with | some t => t.core | none => 0
  match s.launch (launchOf k) with
  | none => (.scr core, off)
  | some l =>
    match sp with
    | .scr => (.scr core, off)
    | .prv => (.scr core, l.desc.ss.toNat + groupNo k * 32 * l.desc.lp.toNat + off / 4 * 128 + 4 * lane + off % 4)
    | .clu =>
      let cs := l.desc.cs.toNat
      (.clu (4 * clusterOf core + off / cs), off % cs)
    | .dsp => (.dsp (dieOf core), s.dspBase (dieOf core) (launchOf k) + off)

def State.unitRd (s : State) (u : LUnit) (a : Nat) : Byte :=
  match u with
  | .scr c => Store.rd (s.core c).scratch a
  | .clu c => Store.rd (s.core c).clu a
  | .dsp d => Store.rd (s.die d).dsp a

def State.unitWr (s : State) (u : LUnit) (a : Nat) (b : Byte) : State :=
  match u with
  | .scr c => s.modCore c (fun m => { m with scratch := Store.wr m.scratch a b })
  | .clu c => s.modCore c (fun m => { m with clu := Store.wr m.clu a b })
  | .dsp d => s.modDie d (fun m => { m with dsp := Store.wr m.dsp a b })

/-- `n` bytes of a local space, byte by byte (R122). -/
def State.localBytes (s : State) (k lane : Nat) (sp : LSpace) (off n : Nat) : List Byte :=
  (List.range n).map (fun i => let (u, a) := s.localAt k lane sp (off + i); s.unitRd u a)

def State.localLoad (s : State) (k lane : Nat) (sp : LSpace) (off n : Nat) : Nat := ofBytes (s.localBytes k lane sp off n)

def State.localPut (s : State) (k lane : Nat) (sp : LSpace) (off : Nat) : List Byte → State
  | [] => s
  | b :: bs =>
    let (u, a) := s.localAt k lane sp off
    (s.unitWr u a b).localPut k lane sp (off + 1) bs

def State.localStore (s : State) (k lane : Nat) (sp : LSpace) (off n v : Nat) : State :=
  s.localPut k lane sp off (bytesOf n v)

/-- Class 8 events of an access to local memory, one for each 128 B block of a unit touched; class 10 per 512 B block of
the die scratchpad (R228, R365). `offs` names lanes with the offsets of their first bytes. -/
def State.chargeLocal (s : State) (k : Nat) (sp : LSpace) (n : Nat) (offs : List (Nat × Nat)) : State :=
  let bytes := offs.flatMap (fun lo => (List.range n).map (fun i => s.localAt k lo.1 sp (lo.2 + i)))
  let b := if sp == .dsp then 512 else 128
  let blocks := bytes.foldl (fun bs ua => if bs.contains (ua.1, ua.2 / b) then bs else bs ++ [(ua.1, ua.2 / b)]) []
  s.charge (payerOf k) (if sp == .dsp then 10 else 8) blocks.length

/-- A barrier object's space: SCR or CLU. -/
def mbSpace (clu : Bool) : LSpace := if clu then .clu else .scr

end Sys2Proof.Machine
end

