-- ==== Sys2Proof/Machine/Header.lean ====
section
/-! DEFINITION. The bytes of a context record (R60 to R63): the header from the parts of a group, where the record lies, and the
writing of its header granules (R77, R89). -/

namespace Sys2Proof.Machine

open Sys2Proof

def b2n (b : Bool) : Nat := if b then 1 else 0

/-- Byte `i` of a value. -/
def byteAt (v i : Nat) : Byte := BitVec.ofNat 8 (v / 256 ^ i)
/-- Replace byte `i` of a value. -/
def setByte (v i : Nat) (b : Byte) : Nat := v % 256 ^ i + b.toNat * 256 ^ i + v / 256 ^ (i + 1) * 256 ^ (i + 1)
/-- Replace `n` bytes from byte `i` up by those of `x`. -/
def setBytes (v i n x : Nat) : Nat := (List.range n).foldl (fun v j => setByte v (i + j) (byteAt x j)) v

/-! ## Entries, regions, frames, wake records as bits -/

/-- The 128 bits of an entry (R41). -/
def Entry.bits (e : Entry) : Nat :=
  e.pc.toNat + b2n e.fr * 2 ^ 57 + e.fseq.toNat * 2 ^ 58 + e.prio.toNat * 2 ^ 64 + e.st.code * 2 ^ 72 + e.frag.toNat * 2 ^ 75 +
    e.parent.toNat * 2 ^ 80 + e.skip.toNat * 2 ^ 85 + e.mask.toNat * 2 ^ 96

/-- The 256 bits of a region register (R91). -/
def Region.bits (r : Region) : Nat :=
  r.base.toNat + r.len.toNat * 2 ^ 64 + r.kind.toNat * 2 ^ 104 + r.grain.toNat * 2 ^ 108 + r.handle.toNat * 2 ^ 112 +
    b2n r.lent * 2 ^ 136 + b2n r.part * 2 ^ 137 + b2n r.orph * 2 ^ 138 + b2n r.pend * 2 ^ 139 + b2n r.ph * 2 ^ 140 +
    r.nm1.toNat * 2 ^ 141 + r.pidx.toNat * 2 ^ 149 + r.pgrp.toNat * 2 ^ 157 + r.pq.toNat * 2 ^ 173 + r.mboff.toNat * 2 ^ 177 +
    b2n r.drv * 2 ^ 196

/-- The 1,024 bits of the trap frame (R247). -/
def Frame.bits (f : Frame) : Nat :=
  f.cause.toNat + b2n f.impr * 2 ^ 8 + b2n f.pv * 2 ^ 9 + b2n f.busy * 2 ^ 10 + b2n f.dbg * 2 ^ 11 + f.frag.toNat * 2 ^ 16 +
    f.parent.toNat * 2 ^ 21 + f.lanes.toNat * 2 ^ 32 + f.sibs.toNat * 2 ^ 64 + f.skid.toNat * 2 ^ 96 + f.prio.toNat * 2 ^ 104 +
    f.pc.toNat * 2 ^ 128 + f.rpc.toNat * 2 ^ 192 + f.faddr.toNat * 2 ^ 256 + f.info.toNat * 2 ^ 320 + f.save.toNat * 2 ^ 512

/-- The 192 bits of a wake record (R62). -/
def Wake.bits (w : Wake) : Nat :=
  w.code.toNat + w.frag.toNat * 2 ^ 4 + w.arg.toNat * 2 ^ 16 + w.addr.toNat * 2 ^ 64 + w.value.toNat * 2 ^ 128

def Res.code : Res → Nat
  | .pending => 0
  | .active => 1
  | .guest => 2
  | .ended => 3

/-- The group status word (R63). A guest that is active shows 1 (log 36). -/
def Group.statusWord (g : Group) : Nat :=
  (if g.active then 1 else g.res.code) + b2n g.full * 2 ^ 2 + g.lv.toNat * 2 ^ 3 + b2n g.cfault * 2 ^ 7 + b2n g.urgent * 2 ^ 8

/-! ## The header -/

/-- The cells of `count` fields of `size` bytes from `base` up. -/
def laid (base size count : Nat) (f : Nat → Nat) : Store 8 :=
  (List.range count).flatMap (fun i => packed (base + size * i) (bytesOf size (f i)))

/-- The bytes of the header below 0xC00 as the group's parts give them; `sv` gives the supervisor's view (R341). -/
def Group.header (g : Group) (sv : Bool := false) : Store 8 :=
  laid 0 16 32 (fun i => ((g.entries[i]?).map Entry.bits).getD 0) ++
  laid 0x200 4 128 (fun i => (Store.rd g.s i).toNat) ++
  laid 0x400 32 16 (fun i => ((SMap.find g.q i).map Region.bits).getD 0) ++
  (if sv then [] else (List.range 4).flatMap (fun n => match SMap.find g.saved n with
    | some d => laid (0x600 + 128 * n) 4 32 (fun i => (Store.rd d i).toNat)
    | none => [])) ++
  laid 0x800 4 7 (fun i => (Store.rd g.p i).toNat) ++
  packed 0x81C (bytesOf 4 g.fmode.toNat) ++
  packed 0x820 (bytesOf 4 ((g.status &&& 7).toNat + 8 * b2n sv)) ++
  packed 0x824 (bytesOf 4 g.xlim.toNat) ++
  packed 0x828 (bytesOf 4 (maskOf (fun i => g.entries.any (fun e => e.frag.toNat == i))).toNat) ++
  laid 0x880 2 128 (fun i => (Store.rd g.x i).toNat) ++
  packed 0x980 (bytesOf 128 g.frame.bits) ++
  packed 0xA00 (bytesOf 32 g.dead.toNat) ++
  laid 0xA20 24 8 (fun i => ((g.wakes.find? (fun w => w.slot == i)).map Wake.bits).getD 0) ++
  packed 0xAE0 (bytesOf 8 g.statusWord)

/-- A byte of the header. -/
def Group.hdrByte (g : Group) (sv : Bool) (o : Nat) : Byte := Store.rd (g.header sv) o

/-! ## Where a record lies -/

/-- Virtual address of an offset of the record of group `k`. -/
def State.recordVa (s : State) (k o : Nat) : Nat :=
  match s.launch (launchOf k) with
  | some l => (l.recVa (teamNo k) (groupNo k) + o) % 2 ^ 57
  | none => o

/-- Virtual address of register `n` in the record. -/
def State.regVa (s : State) (k n : Nat) : Nat := s.recordVa k (0xC00 + 128 * n)

/-- The translation through which the device reaches a byte of a record: the probe's while the group is active (R72), else that of
the page tables as they stand; none for a page that is not of class CTX with both permissions. -/
def State.recXlat (s : State) (k : Nat) (g : Group) (va : Nat) : Option Xlat :=
  if g.active then g.recPages.find? (fun x => x.covers (vfOf k) va)
  else match s.walk (vfOf k) va with
    | .ok x _ => if ((x.deny (s.vf (vfOf k)) (some 2) .ld).orElse (fun _ => x.deny (s.vf (vfOf k)) (some 2) .st)).isNone then some x else none
    | _ => none

/-- Home ranges of `n` bytes of a record from an offset up, as base and length: two at most, since the record spans at most two
pages (R71). None where a page is not reached. -/
def State.recHomes (s : State) (k : Nat) (g : Group) (o n : Nat) : Option (List (Nat × Nat)) :=
  let va := s.recordVa k o
  match s.recXlat k g va with
  | none => none
  | some x =>
    let m := x.va + x.size - va
    if n ≤ m then some [(x.at va, n)]
    else (s.recXlat k g (va + m)).map (fun y => [(x.at va, m), (y.at (va + m), n - m)])

/-! ## The header in memory -/

/-- Length of the header. -/
def hdrLen : Nat := 0xC00

/-- Bytes of ranges of memory, one after the other from offset zero. -/
def gather (mem : Memory) : (base : Nat) → List (Nat × Nat) → Store 8
  | _, [] => []
  | b, (h, n) :: l => shifted (Store.slice mem h n) b ++ gather mem (b + n) l

/-- The header bytes that the record holds. -/
def State.recHeader (s : State) (k : Nat) (g : Group) : Option (Store 8) := (s.recHomes k g 0 hdrLen).map (gather s.mem 0)

/-- Put bytes at their home in place of a range; marks whose bytes are all written are cleared (R316). -/
def State.homePaste (s : State) (h n : Nat) (t : Store 8) : State :=
  { s with
    mem := Store.paste s.mem h n t
    poison := s.poison.filter (fun g => !g.2.all (fun a => decide (h ≤ a) && decide (a < h + n))) }

/-- Write the granules of a header whose bytes differ from those written last, or all of them, to its homes. -/
def State.scatter (s : State) (all : Bool) (old new : Store 8) : (base : Nat) → List (Nat × Nat) → State
  | _, [] => s
  | b, (h, n) :: l =>
    ((List.range (n / 128)).foldl (fun s i =>
      let t := Store.slice new (b + 128 * i) 128
      if all || t != Store.slice old (b + 128 * i) 128 then s.homePaste (h + 128 * i) 128 t else s) s).scatter all old new (b + n) l

/-- Write back the dirty granules of a group's header, all of them at its first activation (R77, R89). -/
def State.putHeader (s : State) (k : Nat) (all : Bool := false) : State :=
  match s.group k with
  | none => s
  | some g =>
    match s.recHomes k g 0 hdrLen with
    | none => s
    | some hs => (s.scatter all g.wrote g.header 0 hs).setGroup k { g with wrote := g.header }

end Sys2Proof.Machine
end

