-- ==== Sys2Proof/Machine/Lines.lean ====
section
/-! DEFINITION. Vector register lines, latches, swap-out, the end of a launch's groups, taking a trap and returning from one. -/

namespace Sys2Proof.Machine

open Sys2Proof

/-! ## Vector register lines (R64 to R70) -/

/-- A byte of the record's vector registers as the L1 of the group's core holds it, else its home. -/
def State.recByte (s : State) (core : Nat) (x : Xlat) (va : Nat) : Byte :=
  let a := x.at va
  match (s.core core).l1Line x.vf a with
  | some ln => if ln.valid.getLsbD (a % 512 / 32) || ln.dirty.getLsbD (a % 512) then Store.rd ln.data (a % 512) else Store.rd s.mem a
  | none => Store.rd s.mem a

/-- The record's bytes of register `n`, by lane. -/
def State.recordLanes (s : State) (k : Nat) (g : Group) (n : Nat) : Store 32 :=
  let va := s.regVa k n
  match s.recXlat k g va with
  | some x => unpacked 32 (fun i => ofBytes ((List.range 4).map (fun j => s.recByte g.core x (va + 4 * i + j))))
  | none => []

/-- The lanes of a mask from one store, the others from another. -/
def overlaid (m : BitVec 32) (top base : Store 32) : Store 32 := Store.wrs base ((lanesOf m).map (fun i => (i, Store.rd top i)))

/-- The value of a register: zero when DEAD, the cached data, or the record's bytes (R65), with what has been written to it while
it is FILLING. -/
def State.regData (s : State) (k : Nat) (g : Group) (n : Nat) : Store 32 :=
  if g.dead.getLsbD n then []
  else match SMap.find g.lines n with
    | some ln => if ln.st == .filling then overlaid ln.got ln.data (s.recordLanes k g n) else ln.data
    | none => s.recordLanes k g n

def Group.isDead (g : Group) (n : Nat) : Bool := g.dead.getLsbD n

/-- ABSENT (R65). -/
def Group.absent (g : Group) (n : Nat) : Bool := !g.isDead n && (SMap.find g.lines n).isNone

/-- FILLING (R65). -/
def Group.filling (g : Group) (n : Nat) : Bool :=
  match SMap.find g.lines n with
  | some ln => ln.st == .filling
  | none => false

def Group.clearDead (g : Group) (n : Nat) : Group := { g with dead := g.dead &&& ~~~(1#256 <<< n) }
def Group.setDead (g : Group) (n : Nat) : Group :=
  { g with dead := g.dead ||| (1#256 <<< n), lines := SMap.del g.lines n }

/-- Wake the entries that wait for register `n` (wake code 9). -/
def Group.wakeFill (g : Group) (n : Nat) : Group :=
  (g.wakes.filter (fun w => w.code == 9 && w.arg.toNat == n)).foldl (fun g w => g.wake w.frag none) g

/-- The bytes of a register's line are in the L1 of the group's core (R70). -/
def State.regHit (s : State) (k : Nat) (g : Group) (n : Nat) : Bool :=
  match s.recXlat k g (s.regVa k n) with
  | some x => s.l1Has g.core x (s.regVa k n) 128
  | none => false

/-- Start the fills of absent lines (R66). -/
def State.startFills (s : State) (k : Nat) (g : Group) (ns : List Nat) : Group :=
  ns.foldl (fun g n =>
    if g.absent n then { g with lines := SMap.put g.lines n { st := .filling, long := !s.regHit k g n } } else g) g

/-- The line of a register of an active group after a write of lanes (R66): an ABSENT line that a full write takes is allocated
without a fill, with zero in the other lanes; a partial write of one starts a fill, into which the lanes merge. -/
def State.merged (s : State) (k : Nat) (g : Group) (n : Nat) (full : Bool) (vals : List (Nat × BitVec 32)) : Line :=
  if g.isDead n then { st := .dirty, data := Store.wrs [] vals }
  else match SMap.find g.lines n with
    | some ln =>
      if ln.st == .filling then { ln with data := Store.wrs ln.data vals, got := ln.got ||| maskOf (fun i => vals.any (fun v => v.1 == i)) }
      else { st := .dirty, data := Store.wrs ln.data vals }
    | none =>
      if full then { st := .dirty, data := Store.wrs [] vals }
      else { st := .filling, data := Store.wrs [] vals, got := maskOf (fun i => vals.any (fun v => v.1 == i)), long := !s.regHit k g n }

/-- The core still holds the group's team, or a landing slot of it. -/
def State.hosts (s : State) (k : Nat) (g : Group) : Bool := g.slot.isSome || (g.res != .guest && (s.core g.core).team == some (teamOf k))

/-- `n` bytes of the record written through the L1 of the group's core (R68), or at their home where the group has left its core. -/
def State.recStore (s : State) (k : Nat) (g : Group) (x : Xlat) (va n v : Nat) : State :=
  if s.hosts k g then s.l1Store (teamOf k) g.core x va n v
  else (s.l1Range g.core (vfOf k) (x.at va) n true true).homeWrite ((bytesOf n v).zipIdx.map (fun bi => (x.at va + bi.2, bi.1)))

/-- The 128 bytes of a register's lanes. -/
def lineValue (d : Store 32) : Nat := (List.range 32).foldr (fun i a => (Store.rd d i).toNat + 2 ^ 32 * a) 0

/-- Some lanes of register `n` written into the record. -/
def State.putLanes (s : State) (k : Nat) (g : Group) (x : Xlat) (n : Nat) (m : BitVec 32) (d : Store 32) : State :=
  if m = BitVec.allOnes 32 then s.recStore k g x (s.regVa k n) 128 (lineValue d)
  else (lanesOf m).foldl (fun s i => s.recStore k g x (s.regVa k n + 4 * i) 4 (Store.rd d i).toNat) s

/-- A result that arrives for a group that is not active is written into its record (R77): the whole line where a dead register or
a full write gives it, else its lanes; the retained line is dropped. While the record is not reached, the lanes wait in a FILLING
line. -/
def State.lateWrite (s : State) (k : Nat) (g : Group) (n : Nat) (full : Bool) (vals : List (Nat × BitVec 32)) : State :=
  let old : Line := ((SMap.find g.lines n).filter (fun l => l.st == .filling)).getD { st := .filling, long := true }
  let whole := g.isDead n || full
  let d := Store.wrs (if whole then [] else old.data) vals
  let m : BitVec 32 := if whole then BitVec.allOnes 32 else old.got ||| maskOf (fun i => vals.any (fun v => v.1 == i))
  let g' := g.clearDead n
  match s.recXlat k g (s.regVa k n) with
  | none => s.setGroup k { g' with lines := SMap.put g.lines n { old with data := d, got := m } }
  | some x =>
    ((s.charge (payerOf k) 6 1).putLanes k g x n m d).setGroup k
      { g' with lines := if g.filling n then SMap.put g.lines n { old with data := [], got := 0 } else SMap.del g.lines n }

/-- Write lanes of a register (R65, R66, R77). -/
def State.writeReg (s : State) (k n : Nat) (full : Bool) (vals : List (Nat × BitVec 32)) : State :=
  match s.group k with
  | none => s
  | some g =>
    if vals.isEmpty then s
    else if g.active then s.setGroup k { g.clearDead n with lines := SMap.put g.lines n (s.merged k g n full vals) }
    else s.lateWrite k g n full vals

/-- Free the line of a register whose last use is honoured (R66, R67). -/
def State.freeReg (s : State) (k n : Nat) : State := s.modGroup k (fun g => g.setDead n)

/-- Lanes of a line that its record does not hold. -/
def Line.newer (ln : Line) : BitVec 32 :=
  match ln.st with
  | .dirty => BitVec.allOnes 32
  | .filling => ln.got
  | .clean => 0

/-- Write back what a group's lines hold that its record does not (R77): the lines stay, CLEAN or FILLING. -/
def State.writeBackLines (s : State) (k : Nat) : State :=
  match s.group k with
  | none => s
  | some g =>
    let dirty := g.lines.filter (fun kv => kv.2.newer != 0)
    let s := dirty.foldl (fun s kv =>
      match s.recXlat k g (s.regVa k kv.1) with
      | none => s
      | some x =>
        s.putLanes k g x kv.1 kv.2.newer kv.2.data) s
    let s := s.charge (payerOf k) 6 dirty.length
    s.setGroup k { g with lines := g.lines.map (fun (kv : Nat × Line) =>
      (kv.1, match kv.2.st with
        | .dirty => { kv.2 with st := .clean }
        | .filling => { kv.2 with data := [], got := 0 }
        | .clean => kv.2)) }

/-- Write back and drop what a core's L1 holds of a group's vector registers, as the group leaves the core. -/
def State.flushRecord (s : State) (k : Nat) : State :=
  match s.group k with
  | none => s
  | some g => ((s.recHomes k g 0xC00 (128 * g.bud)).getD []).foldl (fun s h => s.l1Range g.core (vfOf k) h.1 h.2 true true) s

/-! ## Latches (R79) -/

def Group.latchValid (g : Group) (n : Nat) : Bool := (SMap.find g.latches n).isSome
def Group.latch (g : Group) (n lane : Nat) : BitVec 32 := Store.rd ((SMap.find g.latches n).getD []) lane
/-- Capture lanes of a latch. -/
def Group.capture (g : Group) (n : Nat) (vals : List (Nat × BitVec 32)) : Group :=
  { g with latches := SMap.put g.latches n (Store.wrs ((SMap.find g.latches n).getD []) vals) }

/-! ## Leaving the active set (R77, R78) -/

/-- Take a group out of its section's active set. -/
def State.deactivate (s : State) (k : Nat) : State :=
  match s.group k with
  | none => s
  | some g =>
    let s := s.modCore g.core (fun c => c.setSect g.sect { c.sect g.sect with active := (c.sect g.sect).active.filter (· != k) })
    s.setGroup k { g with active := false, recPages := [] }

/-- A group as its removal from the active set leaves it: its latches invalid, or kept at 0x600 by a full save (R77, R78). -/
def Group.removed (g : Group) (full : Bool) (now : Nat) : Group :=
  let valid : BitVec 4 := (List.range 4).foldl (fun m n => if g.latchValid n then m ||| (1#4 <<< n) else m) 0
  { g with
    res := (if g.res == .active then .pending else g.res), full := full, lv := (if full then valid else 0), latches := []
    saved := (if full then g.latches else []), arrivals := (if full then [] else g.arrivals), left := now }

/-- Remove a group from the active set: its dirty lines and header granules are written back (R77, R78). -/
def State.remove (s : State) (k : Nat) (full : Bool) : State :=
  (((s.writeBackLines k).deactivate k).modGroup k (fun g => g.removed full s.now)).putHeader k

/-- Swap a group out (R77). -/
def State.swapOut (s : State) (k : Nat) : State := s.remove k false

/-- Full save (R78): a swap-out that keeps the valid latches at 0x600. -/
def State.fullSave (s : State) (k : Nat) : State :=
  match s.group k with
  | none => s
  | some g => if g.active then s.remove k true else s

/-! ## Scrub and the end of a launch's work on a core -/

/-- Forget a group: its slot, its place in a section, its accesses and commands. -/
def State.dropGroup (s : State) (k : Nat) : State :=
  let s := s.deactivate k
  { s with
    groups := SMap.del s.groups k
    accs := s.accs.filter (fun kv => !(kv.2.grp == k && kv.2.vf == vfOf k && kv.2.kind != .host))
    cores := s.cores.map (fun kv => (kv.1, { kv.2 with slots := kv.2.slots.filter (fun x => x.2 != k) })) }

/-! ## Killing a launch (R244, R117) -/

/-- End a launch with a cause: its groups and engine work stop; the claim sweep follows (R117). -/
def State.kill (s : State) (l : Nat) (cause : BitVec 8) (hang : Bool) : State :=
  match s.launch l with
  | none => s
  | some m =>
    match m.st with
    | .killed _ _ => s
    | .swept _ _ => s
    | _ =>
      let ks := (SMap.keys s.groups).filter (fun k => launchOf k == l)
      let s := ks.foldl State.dropGroup s
      let mine (k : Nat) : Bool := launchOf k == l
      let s := { s with
        cores := s.cores.map (fun (kv : Nat × Core) => (kv.1, { kv.2 with
          hauls := kv.2.hauls.filter (fun h => !mine h.2.grp)
          sweeps := kv.2.sweeps.filter (fun h => !mine h.2.grp)
          saw := kv.2.saw.filter (fun o => teamLaunch o.team != l)
          rets := kv.2.rets.filter (fun h => !mine h.2.grp)
          unacked := kv.2.unacked.filter (fun u => !mine u.1) }))
        rems := s.rems.filter (fun r => !mine r.2.grp) }
      s.setLaunch l { m with st := .killed cause hang }

/-! ## Taking a trap and returning from one (R244 to R251) -/

/-- What becomes of a trap (R244, R250). -/
inductive Disp | deliver | kill | debug
deriving DecidableEq, Repr

/-- The disposition of a cause raised by an entry: a kill in supervisor mode or without a supervisor routine; BREAKPOINT
goes to an attached debugger (R250, R264). -/
def State.disposition (s : State) (k : Nat) (frag : BitVec 5) (cause : BitVec 8) : Disp :=
  let dbg := match s.launch (launchOf k) with | some l => l.dbg | none => false
  if cause == 0x31 && dbg then .debug
  else
    match s.group k with
    | none => .kill
    | some g =>
      if g.frame.busy && g.frame.frag == frag then .kill
      else if (s.vf (vfOf k)).hasSupv then .deliver else .kill

/-- The frame of a trap (R247). -/
def Group.frameOf (g : Group) (e : Entry) (t : TrapInfo) (busy dbg : Bool) : Frame :=
  { g.frame with
    cause := t.cause, impr := t.impr, pv := e.fr, busy := busy, dbg := dbg, frag := e.frag,
    parent := (if e.fr then e.parent else 0), lanes := t.lanes, sibs := g.sibs e, skid := t.skid, prio := e.prio,
    pc := t.pc, rpc := t.rpc, faddr := t.faddr, info := t.info }

/-- Deliver a trap (R249): the frame is written with BUSY set; the entry keeps FRAG and mask, its PC becomes the supervisor
base and its PRIO 255. -/
def Group.deliver (g : Group) (frag : BitVec 5) (t : TrapInfo) : Group :=
  match g.entry frag with
  | none => g
  | some e =>
    let g := { g with frame := g.frameOf e t true false, wakes := g.wakes.filter (fun w => w.frag != frag) }
    g.modEntry frag (fun e => { e with pc := supvBase, prio := 255, st := .ready, skip := 0 })

/-- Every outstanding access of a group that has not faulted has ended, so that a stop may remove it (R261). -/
def State.stopReady (s : State) (k : Nat) (g : Group) : Bool :=
  !g.pend.any (fun p => p.kind == .rld) && !g.pend.any (fun p => p.kind == .load && (match SMap.find s.accs p.op with
    | some a => a.grp == k && (match a.st with | .parked => false | .replay => false | .fault _ _ => false | _ => true)
    | none => false)) &&
  s.accs.all (fun kv => kv.2.grp != k || kv.2.vf != vfOf k ||
    (match kv.2.use, kv.2.st with
    | .engine _, _ => true
    | _, .parked => true
    | _, .replay => true
    | _, .fault _ _ => true
    | _, _ => false))

/-- A stopped group that is still active is full-saved once it may leave (R260, R261). -/
def State.stopSave (s : State) (k : Nat) : State :=
  match s.group k with
  | none => s
  | some g =>
    if g.active && g.stopped && g.step.isNone && s.stopReady k g then
      (s.onHouse g.byPf (fun s => some (s.fullSave k))).getD s
    else s

/-- Stop a group for the debugger with DBG set in the frame (R264). While the routine runs, the rest of the frame stays its own. -/
def State.debugTrap (s : State) (k : Nat) (frag : BitVec 5) (t : TrapInfo) : State :=
  let s := s.modGroup k (fun g =>
    match g.entry frag with
    | some e => { g with frame := (if g.frame.busy then { g.frame with dbg := true } else g.frameOf e t false true), stopped := true, step := none, queued := none }
    | none => g)
  s.stopSave k

/-- Take a trap: the one operation that every precise and imprecise trap goes through. -/
def State.trap (s : State) (k : Nat) (frag : BitVec 5) (t : TrapInfo) : State :=
  match s.disposition k frag t.cause with
  | .deliver => (s.modGroup k (fun g => g.deliver frag t)).makeReady k
  | .kill => s.kill (launchOf k) t.cause false
  | .debug => s.debugTrap k frag t

/-- Where a return from the supervisor routine resumes (R251): RPC, or past the PC of a precise trap. -/
def Frame.resume (f : Frame) (skip : Bool) : VAddr := if skip && !f.impr then nextPc f.pc else f.rpc

/-- Return from the supervisor routine (R251, R464): BUSY is cleared; the entry goes on at `Frame.resume` with the saved
priority. -/
def Group.leave (g : Group) : Group := { g with frame := { g.frame with busy := false } }

/-- CONTEXT_FAULT at activation: the launch is killed with the address of what the device cannot take (R42, R71, R94, R244). -/
def State.contextFault (s : State) (k addr : Nat) : State :=
  (s.modLaunch (launchOf k) (fun l => { l with faddr := some (BitVec.ofNat 57 addr) })).kill (launchOf k) 0x22 false

end Sys2Proof.Machine
end

