-- ==== Sys2Proof/Machine/Operands.lean ====
section
/-! DEFINITION. Operands: values of constants, literals and sources (R328 to R334), what an instruction reads and writes,
and the traps of the operand stage (R245, item 3). -/

namespace Sys2Proof.Machine

open Sys2Proof

/-- The type in which a source is read (R328, R330). -/
inductive OTy | i32 | s64 | z64 | f32 | f64 | f16 | bf16 | b8
deriving DecidableEq, Repr

/-- The value of a constant in a type, over `w` registers (R330). -/
def constVal (t : OTy) (w : Nat) (c : Const) : Nat :=
  let ints : Nat := match c with
    | .zero => 0
    | .one => 1
    | .negOne => 2 ^ (32 * w) - 1
    | .half => 0
    | .two => 2
  let pick (one neg half two : Nat) : Nat := match c with
    | .zero => 0
    | .one => one
    | .negOne => neg
    | .half => half
    | .two => two
  match t with
  | .i32 => ints
  | .s64 => ints
  | .z64 => ints
  | .f32 => pick 0x3F800000 0xBF800000 0x3F000000 0x40000000
  | .f64 => pick 0x3FF0000000000000 0xBFF0000000000000 0x3FE0000000000000 0x4000000000000000
  | .f16 => 0x10001 * pick 0x3C00 0xBC00 0x3800 0x4000
  | .bf16 => 0x10001 * pick 0x3F80 0xBF80 0x3F00 0x4000
  | .b8 => 0x1010101 * pick 1 0xFF 0 2

/-- The value of a literal in a type (R328). -/
def litVal (t : OTy) (v : BitVec 32) : Nat :=
  match t with
  | .s64 => (v.signExtend 64).toNat
  | .f64 => Fp.widen64 v.toNat
  | _ => v.toNat

/-- The value of predicate `n` in a lane; p7 is true. -/
def Group.pred (g : Group) (n lane : Nat) : Bool := if n = 7 then true else (Store.rd g.p n).getLsbD lane
/-- The index register xN of a lane. -/
def Group.xreg (g : Group) (n lane : Nat) : BitVec 16 := Store.rd g.x (n * 32 + lane)
/-- Scalar registers. -/
def Group.sreg (g : Group) (n : Nat) : BitVec 32 := Store.rd g.s n

/-- Lanes of an entry whose guard passes (R325, R326). -/
def Group.passing (g : Group) (gd : Guard) (m : BitVec 32) : BitVec 32 :=
  maskOf (fun i => m.getLsbD i && (g.pred gd.gp.toNat i != gd.gn))

/-- Register number that an indexed operand reaches in a lane (R334). -/
def Group.indexed (g : Group) (i : BitVec 2) (k : BitVec 6) (lane : Nat) : Nat := (g.xreg i.toNat lane).toNat + k.toNat

/-- An indexed operand of `w` registers is in bounds (R334). -/
def Group.indexOk (g : Group) (w j : Nat) : Bool :=
  decide ((g.xlim >>> 16 &&& 0x1FF).toNat ≤ j) && decide (j + w - 1 < (g.xlim &&& 0x1FF).toNat) && decide (j + w - 1 < g.bud) &&
    j % w == 0

/-- `w` consecutive words from a function of the register number, the first lowest. -/
def wordsFrom (f : Nat → BitVec 32) (n w : Nat) : Nat :=
  (List.range w).foldr (fun i a => (f (n + i)).toNat + 2 ^ 32 * a) 0

/-- The value of `w` vector registers in a lane. -/
def State.vregs (s : State) (k : Nat) (g : Group) (n w lane : Nat) : Nat :=
  wordsFrom (fun r => Store.rd (s.regData k g r) lane) n w

/-- The value of a source in a lane, of `w` registers. -/
def State.srcVal (s : State) (k : Nat) (g : Group) (t : OTy) (w : Nat) (a : Src) (lane : Nat) : Nat :=
  match a with
  | .v n => s.vregs k g n.toNat w lane
  | .s n => wordsFrom g.sreg n.toNat w
  | .c c => constVal t w c
  | .l n => (g.latch n.toNat lane).toNat
  | .p n => if g.pred n.toNat lane then 1 else 0
  | .x n => (g.xreg n.toNat lane).toNat
  | .vx i j => s.vregs k g (g.indexed i j lane) w lane
  | .lit v => litVal t v

/-! ## What an instruction reads and writes -/

/-- A source operand: its field (for last use), registers, type, and whether its entry declares it uniform (R252). -/
structure SrcUse where
  src : Src
  fld : Nat := 0
  w : Nat := 1
  ty : OTy := .i32
  uni : Bool := false
deriving DecidableEq, Repr

/-- Operands and class of an instruction, as the issue sees them. -/
structure Use where
  g : Guard := { gp := 7, gn := false }
  lu : BitVec 3 := 0
  srcs : List SrcUse := []
  dst : Option Dst := none
  dw : Nat := 1
  latch : Option (BitVec 2) := none
  /-- predicates, scalars and v registers read and written beyond the operands -/
  pr : List Nat := []
  pw : List Nat := []
  sr : List Nat := []
  sw : List Nat := []
  vr : List Nat := []
  vw : List Nat := []
  /-- energy class of the instruction (R227); none where its charge is made elsewhere -/
  cls : Option Nat := some 4
  /-- may issue only in user mode, or only in supervisor mode (R250, R251, R341) -/
  mode : Option Bool := none
  /-- waits for the entry's accesses whose faults are not yet known (R156) -/
  order : Bool := false
  /-- touches memory: waits for the lanes' acquires that have not been performed (R156, item 4) -/
  touches : Bool := false
  /-- a structure that the instruction reads from an operand is malformed (R245, item 3) -/
  malformed : Bool := false
  /-- counts as an issue that passes over the group's other entries (R44); NOP does not (R427) -/
  skips : Bool := true
deriving DecidableEq, Repr

/-- v registers that an operand names directly. -/
def directV (a : Src) (w : Nat) : List Nat :=
  match a with
  | .v n => (List.range w).map (· + n.toNat)
  | _ => []

def directDst (d : Option Dst) (w : Nat) : List Nat :=
  match d with
  | some (.v n) => (List.range w).map (· + n.toNat)
  | _ => []

/-- Registers reached by an indexed operand over lanes, in bounds. -/
def Group.indexedV (g : Group) (i : BitVec 2) (k : BitVec 6) (w : Nat) (lanes : List Nat) : List Nat :=
  (lanes.filter (fun l => g.indexOk w (g.indexed i k l))).foldl (fun rs l =>
    let j := g.indexed i k l
    if rs.contains j then rs else rs ++ (List.range w).map (· + j)) []

/-- v registers that the sources read over some lanes. -/
def Use.vRead (u : Use) (g : Group) (lanes : List Nat) : List Nat :=
  u.vr ++ u.srcs.flatMap (fun a => match a.src with
    | .vx i k => g.indexedV i k a.w lanes
    | x => directV x a.w)

/-- v registers written over some lanes. -/
def Use.vWritten (u : Use) (g : Group) (lanes : List Nat) : List Nat :=
  u.vw ++ (match u.dst with
    | some (.vx i k) => g.indexedV i k u.dw lanes
    | d => directDst d u.dw)

/-- Scalars read and written. -/
def Use.sRead (u : Use) : List Nat :=
  u.sr ++ u.srcs.flatMap (fun a => match a.src with | .s n => (List.range a.w).map (· + n.toNat) | _ => [])
def Use.sWritten (u : Use) : List Nat :=
  u.sw ++ (match u.dst with | some (.s n) => (List.range u.dw).map (· + n.toNat) | _ => [])

/-- Other registers read and written: predicates, index registers, latches. -/
def Use.pRead (u : Use) : List Nat :=
  u.g.gp.toNat :: u.pr ++ u.srcs.flatMap (fun a => match a.src with | .p n => [n.toNat] | _ => [])
def Use.xRead (u : Use) : List Nat :=
  u.srcs.flatMap (fun a => match a.src with | .x n => [n.toNat] | .vx i _ => [i.toNat] | _ => []) ++
    (match u.dst with | some (.vx i _) => [i.toNat] | _ => [])
def Use.lRead (u : Use) : List Nat := u.srcs.flatMap (fun a => match a.src with | .l n => [n.toNat] | _ => [])

/-- Every register that the instruction reads or writes over some lanes. -/
def Use.reads (u : Use) (g : Group) (lanes : List Nat) : List RegRef :=
  (u.vRead g lanes).map .v ++ u.sRead.map .s ++ u.pRead.map .p ++ u.xRead.map .x ++ u.lRead.map .l
def Use.writes (u : Use) (g : Group) (lanes : List Nat) : List RegRef :=
  (u.vWritten g lanes).map .v ++ u.sWritten.map .s ++ u.pw.map .p ++
    (match u.dst with | some (.p n) => [.p n.toNat] | some (.x n) => [.x n.toNat] | _ => []) ++
    (match u.latch with | some n => [.l n.toNat] | none => [])

/-- A direct v operand at or above the role's budget (R31). -/
def Use.overBudget (u : Use) (b : Nat) : Bool :=
  (u.vr ++ u.vw ++ u.srcs.flatMap (fun a => directV a.src a.w) ++ directDst u.dst u.dw).any (fun n => decide (b ≤ n))

/-! ## Traps of the operand stage -/

/-- What the issue hands to a meaning: the group as it stood, the issuing entry, the lanes that pass the guard, the lanes
not refused before (`stay`, those that fail the guard included), those of them that act. -/
structure Ctx where
  k : Nat
  g : Group
  e : Entry
  pass : BitVec 32
  stay : BitVec 32
  lanes : BitVec 32
  /-- number of the issue -/
  id : Nat
deriving DecidableEq, Repr

/-- A group of lanes of the issuing entry with its next position, or its end, or its trap. -/
structure Part where
  mask : BitVec 32
  pc : VAddr
  prio : BitVec 8
  st : EState := .ready
  /-- the lanes have exited -/
  gone : Bool := false
  trap : Option TrapInfo := none
  wake : Option Wake := none
  /-- refused under R95, and moved on by record-and-skip (R96) -/
  refused : Bool := false
  /-- the instruction has not retired for the lanes: they stay at its PC -/
  stays : Bool := false
deriving DecidableEq, Repr

/-- A trap of lanes at the issuing PC. -/
def Ctx.trapPart (c : Ctx) (mask : BitVec 32) (cause : BitVec 8) (faddr : BitVec 57) (info : BitVec 32) : Part :=
  { mask := mask, pc := c.e.pc, prio := c.e.prio
    trap := some { cause := cause, lanes := mask, pc := c.e.pc, rpc := c.e.pc, faddr := faddr, info := info } }

/-- Lanes that stay READY at the issuing PC, the instruction not retired. -/
def Ctx.stayPart (c : Ctx) (mask : BitVec 32) : Part := { mask := mask, pc := c.e.pc, prio := c.e.prio, stays := true }

/-- A trap of every lane that passes the guard. -/
def Ctx.trapAll (c : Ctx) (cause : BitVec 8) (faddr : BitVec 57) (info : BitVec 32) : Part := c.trapPart c.pass cause faddr info

/-- First failing cause of the operand stage in a lane, with FADDR and INFO (R245): LATCH_LOST, DEAD_READ, INDEX_BOUNDS. -/
def Use.laneTrap (u : Use) (g : Group) (deadtrap : Bool) (lane : Nat) : Option (BitVec 8 × Nat × Nat) :=
  match u.lRead.find? (fun n => !g.latchValid n) with
  | some n => some (0x13, 0, n)
  | none =>
    let dead := if deadtrap then (u.vRead g [lane]).find? (fun n => g.isDead n) else none
    match dead with
    | some n => some (0x14, n, 0)
    | none =>
      let bad (i : BitVec 2) (k : BitVec 6) (w : Nat) : Option Nat :=
        let j := g.indexed i k lane
        if g.indexOk w j then none else some j
      let srcBad := u.srcs.findSome? (fun a => match a.src with | .vx i k => bad i k a.w | _ => none)
      let dstBad := match u.dst with | some (.vx i k) => bad i k u.dw | _ => none
      match srcBad.orElse (fun _ => dstBad) with
      | some j => some (0x11, j, 0)
      | none => none

/-- Lanes of a mask whose value of a uniform operand differs from that of the lowest lane (R252). -/
def State.differing (s : State) (k : Nat) (g : Group) (a : SrcUse) (m : BitVec 32) : BitVec 32 :=
  let v := s.srcVal k g a.ty a.w a.src (lowLane m)
  maskOf (fun i => m.getLsbD i && s.srcVal k g a.ty a.w a.src i != v)

/-- Operand stage over the passing lanes (R245, item 3): trap parts, and the context of what is left. -/
def State.operandStage (s : State) (u : Use) (c : Ctx) (deadtrap : Bool) : Ctx × List Part :=
  if u.malformed && c.pass != 0 then ({ c with stay := c.stay &&& ~~~c.pass, lanes := 0 }, [c.trapAll 0x01 0 0])
  else
  let tl := (lanesOf c.pass).filterMap (fun i => (u.laneTrap c.g deadtrap i).map (fun t => (i, t)))
  let maskIn (p : BitVec 8 → Bool) : BitVec 32 := maskOf (fun i => tl.any (fun t => t.1 == i && p t.2.1))
  let mk (cause : BitVec 8) : List Part :=
    match tl.find? (fun t => t.2.1 == cause) with
    | some t => [c.trapPart (maskIn (· == cause)) cause (BitVec.ofNat 57 t.2.2.1) (BitVec.ofNat 32 t.2.2.2)]
    | none => []
  let traps := mk 0x13 ++ mk 0x14 ++ mk 0x11
  let m := maskIn (fun _ => true)
  let c := { c with stay := c.stay &&& ~~~m, lanes := c.lanes &&& ~~~m }
  -- NONUNIFORM takes the whole entry
  let diff := u.srcs.foldl (fun d a => if a.uni && c.lanes != 0 then d ||| s.differing c.k c.g a c.lanes else d) 0
  if diff != 0 then
    ({ c with stay := 0, lanes := 0 }, [c.trapPart c.e.mask 0x12 0 diff])
  else (c, traps)

/-! ## Reading and writing in a meaning -/

/-- Value of a source operand in a lane. -/
def Ctx.val (c : Ctx) (s : State) (a : SrcUse) (lane : Nat) : Nat := s.srcVal c.k c.g a.ty a.w a.src lane

/-- Value of a per-group operand: that of the lowest acting lane. -/
def Ctx.uni (c : Ctx) (s : State) (a : SrcUse) : Nat := c.val s a (lowLane c.lanes)

/-- The write is a full write (R65): unguarded, by an entry that holds every live lane. -/
def Ctx.full (c : Ctx) (u : Use) : Bool := u.g.gp == 7 && !u.g.gn && c.e.mask == c.g.live && c.lanes == c.e.mask

/-- Write a value of `w` registers from v register `n` up in some lanes. -/
def State.putV (s : State) (k n w : Nat) (full : Bool) (vals : List (Nat × Nat)) : State :=
  (List.range w).foldl (fun s i =>
    s.writeReg k (n + i) full (vals.map (fun lv => (lv.1, BitVec.ofNat 32 (lv.2 / 2 ^ (32 * i)))))) s

/-- Write `w` scalars from `n` up. -/
def State.putS (s : State) (k n w v : Nat) : State :=
  s.modGroup k (fun g => { g with s := Store.wrs g.s ((List.range w).map (fun i => (n + i, BitVec.ofNat 32 (v / 2 ^ (32 * i))))) })

/-- Write a predicate in some lanes; p7 discards (R332, R333). -/
def State.putP (s : State) (k n : Nat) (vals : List (Nat × Bool)) : State :=
  if n = 7 then s
  else s.modGroup k (fun g =>
    let m := maskOf (fun i => match vals.find? (fun v => v.1 == i) with
      | some v => v.2
      | none => (Store.rd g.p n).getLsbD i)
    { g with p := Store.wr g.p n m })

/-- Write an index register in some lanes: the low 16 bits. -/
def State.putX (s : State) (k n : Nat) (vals : List (Nat × Nat)) : State :=
  s.modGroup k (fun g => { g with x := Store.wrs g.x (vals.map (fun lv => (n * 32 + lv.1, BitVec.ofNat 16 lv.2))) })

/-- Write a result to its destination and latch in the acting lanes (R332, R336). A scalar takes the value of the lowest
acting lane; a predicate the truth value "not zero". -/
def Ctx.write (c : Ctx) (u : Use) (s : State) (f : Nat → Nat) : State :=
  let lanes := lanesOf c.lanes
  if lanes.isEmpty then s
  else
    let vals := lanes.map (fun i => (i, f i))
    let s := match u.dst with
      | none => s
      | some (.v n) => s.putV c.k n.toNat u.dw (c.full u) vals
      | some (.s n) => s.putS c.k n.toNat u.dw (f (lowLane c.lanes))
      | some (.p n) => s.putP c.k n.toNat (vals.map (fun lv => (lv.1, lv.2 != 0)))
      | some (.x n) => s.putX c.k n.toNat vals
      | some (.vx i k) => vals.foldl (fun s lv => s.putV c.k (c.g.indexed i k lv.1) u.dw false [lv]) s
    match u.latch with
    | none => s
    | some n => s.modGroup c.k (fun g => g.capture n.toNat (vals.map (fun lv => (lv.1, BitVec.ofNat 32 lv.2))))

/-- Every remaining lane moves on to the next PC. -/
def Ctx.next (c : Ctx) : Part := { mask := c.stay, pc := nextPc c.e.pc, prio := c.e.prio }

/-- The common end of a meaning: the state and every remaining lane at the next PC. -/
def Ctx.done (c : Ctx) (s : State) : Option (State × List Part) := some (s, [c.next])

end Sys2Proof.Machine
end

