-- ==== Sys2Proof/Machine/Sync.lean ====
section
/-! DEFINITION. Barrier objects (R215), the waking of their waiters, returns of borrows (R105), and the end of a group
(R55, R115). -/

namespace Sys2Proof.Machine

open Sys2Proof

/-- A flag of sr.status of a group is set (R340). -/
def State.setStatus (s : State) (k : Nat) (bit : BitVec 32) : State :=
  s.modGroup k (fun g => { g with status := g.status ||| bit })

/-! ## Accesses whose faults are not yet known (R156, R246) -/

/-- The access is not translated yet. -/
def Acc.isOpen (a : Acc) : Bool :=
  match a.st with
  | .walk => true
  | .noEntry => true
  | .record _ _ => true
  | .fault _ _ => true
  | .peer => true
  | .data => a.poison != 0
  | .parked => false
  | .replay => false

/-- Count an instruction retired behind the accesses of some lanes that were accepted before issue number `id` (R246). -/
def State.countSkid (s : State) (k : Nat) (m : BitVec 32) (id : Nat) : State :=
  { s with accs := s.accs.map (fun (kv : Nat × Acc) =>
      (kv.1, if kv.2.grp == k && kv.2.isOpen && decide (kv.2.issue < id) then
        { kv.2 with skid := (lanesOf (kv.2.lanes &&& m)).foldl (fun t i => SMap.put t i ((SMap.find t i).getD 0 + 1)) kv.2.skid }
      else kv.2)) }

/-- Progress of a team: its watchdog counter is cleared (R265). -/
def State.progress (s : State) (t : Nat) : State := s.modTeam t (fun m => { m with idle := 0 })

/-- A blocked instruction retires as its entry wakes: it counts behind the accesses of its lanes and clears the watchdog (R56,
R246, R265). -/
def State.wakeRetires (s : State) (k : Nat) (frag : BitVec 5) : State :=
  match (s.group k).bind (fun g => g.entry frag) with
  | some e => (s.countSkid k e.mask s.nextId).progress (teamOf k)
  | none => s

/-! ## Waking entries (R52, R62) -/

/-- Wake the entry of a wake record; with `advance` it stands past its instruction. A JOIN then restores its register
(R109), a clamped SIGW sets CLAMP (R154). -/
def State.wakeRec (s : State) (k : Nat) (w : Wake) (advance : Bool) : State :=
  let s := if advance then s.wakeRetires k w.frag else s
  ((if w.clamp && w.code == 3 then s.setStatus k 1 else s).modGroup k (fun g =>
    let g := match if w.code == 2 then w.join else none with
      | some q => g.setReg q.toNat { g.reg q.toNat with lent := false, ph := false, nm1 := 0, pidx := 0, pgrp := 0, pq := 0, mboff := 0 }
      | none => g
    let pc := if advance then (g.entry w.frag).map (fun e => nextPc e.pc) else none
    g.wake w.frag pc)).makeReady k

/-- Wake every waiter, in any group, whose wake record meets a condition. -/
def State.wakeAll (s : State) (p : Nat → Group → Wake → Bool) (advance : Bool) : State :=
  (s.groups.flatMap (fun kv => (kv.2.wakes.filter (p kv.1 kv.2)).map (fun w => (kv.1, w)))).foldl
    (fun s kw => s.wakeRec kw.1 kw.2 advance) s

/-! ## Barrier objects (R215, R216) -/

/-- Unit and address of a barrier object. -/
def State.objAt (s : State) (k : Nat) (clu : Bool) (off : Nat) : LUnit × Nat := s.localAt k 0 (mbSpace clu) off

/-- The 128 bits of an object. -/
def State.objRd (s : State) (o : LUnit × Nat) : Nat := ofBytes ((List.range 16).map (fun i => s.unitRd o.1 (o.2 + i)))
def State.objWr (s : State) (o : LUnit × Nat) (v : Nat) : State :=
  (List.range 16).foldl (fun s i => s.unitWr o.1 (o.2 + i) (BitVec.ofNat 8 (v / 256 ^ i))) s

def objPhase (v : Nat) : Bool := v % 2 == 1

/-- ADDR of a wake record that waits on a barrier object: its offset, bit 63 for CLU. -/
def objAddr (clu : Bool) (off : Nat) : BitVec 64 := BitVec.ofNat 64 (off + if clu then 2 ^ 63 else 0)

/-- Wake every waiter of MBAR.WAIT or JOIN whose object shows a phase other than the one observed. -/
def State.wakeObjects (s : State) : State :=
  s.wakeAll (fun k _ w =>
    w.code == 2 && (objPhase (s.objRd (s.objAt k (w.addr.getLsbD 63) (w.addr.toNat % 2 ^ 63))) != w.arg.getLsbD 0)) true

/-- The new value of an object after an update (da, db), ERR set to a cause if it is zero and a cause is given (R215). -/
def objUpdate (v da : Nat) (db : BitVec 32) (cause : BitVec 8) : Nat :=
  let count := fld v 8 20
  let arr := fld v 32 20 + da
  let bytes := BitVec.ofNat 32 (fld v 64 32) + db
  let drop := decide (count < arr)
  let arr := if drop then fld v 32 20 else arr
  let flip := arr == count && bytes == 0
  let phase := if flip then 1 - v % 2 else v % 2
  let ovr := if drop then 1 else fld v 1 1
  let err := if fld v 96 8 = 0 then cause.toNat else fld v 96 8
  phase + 2 * ovr + fld v 2 6 * 2 ^ 2 + count * 2 ^ 8 + fld v 28 4 * 2 ^ 28 + (if flip then 0 else arr) * 2 ^ 32 +
    fld v 52 12 * 2 ^ 52 + (if flip then 0 else bytes.toNat) * 2 ^ 64 + err * 2 ^ 96 + fld v 104 24 * 2 ^ 104

/-- An update of a barrier object of a group's team or cluster; waiters wake on a flip. -/
def State.mbar (s : State) (k : Nat) (clu : Bool) (off da : Nat) (db : BitVec 32) (cause : BitVec 8 := 0) : State :=
  let o := s.objAt k clu off
  (s.objWr o (objUpdate (s.objRd o) da db cause)).wakeObjects

/-! ## Completion of commands (R217) -/

/-- A token or load result is delivered: the scalar is written, its pending mark and its waiters are released. -/
def State.token (s : State) (k sd op : Nat) (v : BitVec 32) : State :=
  let s := s.modGroup k (fun g =>
    { g with s := Store.wr g.s sd v, pend := g.pend.filter (fun p => !(p.op == op && p.reg == .s sd)) })
  match s.group k with
  | none => s
  | some g =>
    (g.wakes.filter (fun w => w.code == 5 && w.arg.toNat == sd)).foldl (fun s w => s.wakeRec k w false) s

/-- Value of a token (R217). -/
def tokenOk (n : Nat) : BitVec 32 := BitVec.ofNat 32 (n % 2 ^ 31)
def tokenBad (cause : BitVec 8) (parts : Nat) : BitVec 32 := BitVec.ofNat 32 (2 ^ 31 + cause.toNat * 2 ^ 16 + parts % 2 ^ 16)

/-! ## Returns (R105, R106, R21) -/

/-- Handle of a claim entry (R93). -/
def handleOf (die entry gen : Nat) : BitVec 24 := BitVec.ofNat 24 (entry + die * 2 ^ 16 + gen % 16 * 2 ^ 19)

/-- GEN of a handle. -/
def genOf (h : BitVec 24) : Nat := (h >>> 19 &&& 0xF).toNat

/-- A return goes through a peer window whose import is not ACTIVE, or whose borrow went with an import since freed (R293). -/
def State.revokedReturn (s : State) (r : Return) : Bool :=
  r.handle.getLsbD 23 &&
    (!(match SMap.find (s.vf (vfOf r.grp)).imports (r.handle &&& 0xFFFF).toNat with | some i => i.st == 1 | none => false) ||
      (s.peerGrant? (vfOf r.grp) r.base r.len r.handle).isNone)

/-- A RELEASE of a handle: to the claim table of its die, or to the peer that a window belongs to (R113, R114); `g` is the
grant of the peer that is released. -/
def State.sendRelease (s : State) (k core : Nat) (h : BitVec 24) (g : Option PeerGrant) : State :=
  let s := s.charge (payerOf k) 13 1
  if h.getLsbD 23 then
    match g with
    | none => s
    | some g =>
      ((s.modVf (vfOf k) (fun v => { v with peerHeld := v.peerHeld.erase g })).chargeMsg (payerOf k) (collHops (dieOf core))).peerSend
        (vfOf k) g.win (.release g.handle) 0 0 0 0
  else
    let die := (h >>> 16 &&& 7).toNat
    (s.chargeMsg (payerOf k) (meshHops (dieOf core) die)).send (.release die (h &&& 0xFFFF).toNat (genOf h) k) (claimRoute core die)

/-- A return through a window that has been revoked: nothing is sent and dirty bytes are discarded (R293). -/
def State.dropReturn (s : State) (core id : Nat) (r : Return) : State :=
  let s := match s.peerGrant? (vfOf r.grp) r.base r.len r.handle with
    | some g => s.modVf (vfOf r.grp) (fun v => { v with peerHeld := v.peerHeld.erase g })
    | none => s
  let (s, dirty) := if r.kind == 1 then s.l1Discard core (vfOf r.grp) r.base r.len else (s, false)
  let s := s.modCore core (fun c => { c with rets := SMap.del c.rets id })
  if dirty then s.setStatus r.grp 4 else s

/-- Send the release of a return once nothing is awaited. -/
def State.tryRelease (s : State) (core id : Nat) : State :=
  match SMap.find (s.core core).rets id with
  | none => s
  | some r =>
    let waits := r.kind == 3 && (s.core core).unacked.any (fun u => u.1 == r.grp && u.2 == r.handle)
    if r.wbs ≠ 0 || waits then s
    else (s.modCore core (fun c => { c with rets := SMap.del c.rets id })).sendRelease r.grp core r.handle
      (s.peerGrant? (vfOf r.grp) r.base r.len r.handle)

/-- A command of the group works through a register of the handle (R440). -/
def State.handleBusy (s : State) (core k : Nat) (h : BitVec 24) : Bool :=
  let uses (r : Region) : Bool := r.handle == h && r.kind != 0 && r.kind.toNat < 4
  (s.core core).hauls.any (fun x => x.2.grp == k && (uses x.2.src || uses x.2.dst)) ||
    s.rems.any (fun x => x.2.grp == k && x.2.regs.any uses)

/-- Go on with a return once the commands through its handle have ended: a part arrives on its barrier object, the dirty bytes
of an X range go home, and the release follows their answers (R105, R440). -/
def State.tryReturn (s : State) (core id : Nat) : State :=
  match SMap.find (s.core core).rets id with
  | none => s
  | some r =>
    if r.started then s.tryRelease core id
    else if s.handleBusy core r.grp r.handle then s
    else match r.part with
      | some off =>
        ((s.modCore core (fun c => { c with rets := SMap.del c.rets id })).charge (payerOf r.grp) 8 1).mbar r.grp false off 1 0
      | none =>
        if s.revokedReturn r then s.dropReturn core id r
        else
        let (s, n) := if r.kind == 1 then s.l1WriteBack core (vfOf r.grp) r.base r.len id else (s, 0)
        let s := s.modCore core (fun c => { c with rets := SMap.put c.rets id { r with started := true, wbs := n } })
        let s := if r.handle.getLsbD 23 then s else (List.range n).foldl (fun s _ => s.send (.writeBackResponse core id) (answerRoute (r.handle >>> 16 &&& 7).toNat core)) s
        s.tryRelease core id

/-- Look again at the returns of a core that wait for commands. -/
def State.recheckReturns (s : State) (core : Nat) : State :=
  (SMap.keys (s.core core).rets).foldl (fun s id => s.tryReturn core id) s

/-- Begin a return. -/
def State.beginReturn (s : State) (core : Nat) (r : Return) : State :=
  let id := s.nextId
  ((s.bump).modCore core (fun c => { c with rets := SMap.put c.rets id r })).tryReturn core id

/-- Return the borrow of an X, S or A register: its registers are emptied (R105). -/
def State.returnHeld (s : State) (k core : Nat) (r : Region) : State :=
  let s := s.modGroup k (fun g => { g with q := g.q.filter (fun kv => !(kv.2.handle == r.handle && kv.2.kind != 0 && kv.2.kind.toNat < 4)) })
  s.beginReturn core { grp := k, base := r.base.toNat, len := r.len.toNat, kind := r.kind, handle := r.handle }

/-- RETB of a region register that is neither EMPTY, PEND nor LENT (R105). -/
def State.retb (s : State) (k : Nat) (q : Nat) : State :=
  match s.group k with
  | none => s
  | some g =>
    let r := g.reg q
    let clear (s : State) : State := s.modGroup k (fun g => g.setReg q {})
    if r.drv then clear s
    else if r.part then
      let s := s.modGroup k (fun g =>
        { g with q := g.q.filter (fun kv => !(kv.2.part && kv.2.handle == r.handle && kv.2.pidx == r.pidx && kv.2.mboff == r.mboff)) })
      s.beginReturn g.core
        { grp := k, base := r.base.toNat, len := r.len.toNat, kind := r.kind, handle := r.handle, part := some r.mboff.toNat }
    else if r.kind == 1 || r.kind == 2 || r.kind == 3 then s.returnHeld k g.core r
    else clear s

/-! ## The end of a group (R55, R75, R110, R115) -/

/-- Withdraw the arrivals of a group's crew at its rendezvous (R82, R392). -/
def State.withdrawCrew (s : State) (k : Nat) : State :=
  match s.launch (launchOf k) with
  | none => s
  | some l => match l.crewOf (groupNo k) with
    | none => s
    | some (c, _) =>
      (l.members c).foldl (fun s n => s.modGroup (groupKey (teamOf k) n) (fun g => { g with arrivals := [] })) s

/-- A group ends: registers returned in ascending order, lines discarded, its active slot and landing slot freed. A part that a
SPLIT kept for it while it was a guest, and that it never received, is neither delivered nor counted as returned (log 100). -/
def State.endGroup (s : State) (k : Nat) : State :=
  let s := (List.range 16).foldl (fun s q =>
    match s.group k with
    | some g => if (g.reg q).kind == 0 || (g.reg q).pend || (g.reg q).lent then s else s.retb k q
    | none => s) s
  match s.group k with
  | none => s
  | some g =>
    let s := (s.deactivate k).withdrawCrew k
    let s := match g.slot with
      | some j => s.modCore g.core (fun c => { c with slots := SMap.del c.slots j })
      | none => s
    s.modGroup k (fun g =>
      { g with res := .ended, lines := [], latches := [], wakes := [], slot := none, queued := none, q := [] })

/-- What follows a change of the frontier: the group ends when nothing is left (R55), and CONV entries are released (R47)
or trap (R48) when nothing else is left. -/
def State.settle (s : State) (k : Nat) : State :=
  match s.group k with
  | none => s
  | some g =>
    match g.entries with
    | [] => s.endGroup k
    | e :: es =>
      if !(e :: es).all (fun x => x.st == .conv) then s
      else if es.all (fun x => x.pc == e.pc) then
        let m : Entry :=
          { pc := nextPc e.pc, prio := es.foldl (fun p x => if p.toNat < x.prio.toNat then x.prio else p) e.prio
            frag := es.foldl (fun f x => if x.frag.toNat < f.toNat then x.frag else f) e.frag
            mask := (e :: es).foldl (fun m x => m ||| x.mask) 0 }
        s.setGroup k { g with entries := [m] }
      else s.trap k e.frag { cause := 0x01, lanes := e.mask, pc := e.pc, rpc := e.pc }

end Sys2Proof.Machine
end

