-- ==== Sys2Proof/Machine/Issue.lean ====
section
/-! DEFINITION. The issue of an instruction word: who issues (R44, R81), what it waits for, the operand stage, and what
becomes of the entry's lanes afterwards (R43, R44, R246). Every meaning of a word is a body handed to `word`. -/

namespace Sys2Proof.Machine

open Sys2Proof

/-- What a body answers: the state after its effect and the parts of its lanes; none where it cannot issue now. -/
abbrev Effect := Option (State × List Part)

/-! ## Who may issue -/

/-- The launch lets the group issue: it runs, or a stop or eviction is under way and the group has not yet come to a
reconvergence point (R237). -/
def Launch.lets (l : Launch) (g : Group) : Bool :=
  match l.st with
  | .running => true
  | .stopping _ => g.entries.length != 1
  | .evicting => g.entries.length != 1
  | _ => false

/-- A record of a refusal that waits for a buffer record holds its group (R470). -/
def State.refusalWaits (s : State) (k : Nat) (g : Group) : Bool :=
  (s.die (dieOf g.core)).waiting.any (fun w => w.fault.access == .refusal && w.fault.ctx == k)

/-- The entry stands in a crew rendezvous (R82). -/
def Group.arrived (g : Group) (e : Entry) : Bool := g.arrivals.any (fun a => a.pc == e.pc && a.prio == e.prio)

/-- A fault that was found at the entry's issue waits for its record or for delivery (R145). -/
def State.faultStays (s : State) (k : Nat) (e : Entry) : Bool :=
  s.accs.any (fun kv => kv.2.grp == k && kv.2.vf == vfOf k && kv.2.again && kv.2.lanes &&& e.mask != 0 &&
    (match kv.2.st with | .record _ _ => true | .fault _ _ => true | _ => false))

/-- A BOR with .TRY of some of the entry's lanes awaits its answer, with which it retires (R99). -/
def Group.tries (g : Group) (e : Entry) : Bool := g.bors.any (fun b => b.2.try_ && b.2.stay &&& e.mask != 0)

/-- The conditions on group and entry under which an instruction may be tried: active, READY or released to replay its command,
not stopped, not waiting in a rendezvous, its launch running, the flush of its last move acknowledged (R172). -/
def State.mayTry (s : State) (k : Nat) (g : Group) (e : Entry) (l : Launch) : Bool :=
  g.active && (e.st == .ready || s.replays k e) && !s.faultStays k e && (!g.stopped || g.step == some e.frag) && l.lets g && !s.dev.shut && !g.arrived e &&
    !s.refusalWaits k g && g.flush.isNone && !g.tries e

/-- The issuing group, entry and launch of the running word. -/
def State.issuer (s : State) : Option (Nat × Group × Entry × Launch) :=
  match s.cur with
  | none => none
  | some i =>
    match s.group i.grp with
    | none => none
    | some g =>
      match g.entry i.frag, s.launch (launchOf i.grp) with
      | some e, some l => if s.mayTry i.grp g e l then some (i.grp, g, e, l) else none
      | _, _ => none

/-! ## Accesses under way (R156) -/

/-- Untranslated accesses of a group that overlap a lane mask. -/
def State.openAccs (s : State) (k : Nat) (m : BitVec 32) : List Acc :=
  (SMap.vals s.accs).filter (fun a => a.grp == k && a.isOpen && a.lanes &&& m != 0)

/-- A CBLD of some lanes has retired and not yet replaced its slot: what orders them waits for it (R177). -/
def State.booksOut (s : State) (k : Nat) (m : BitVec 32) : Bool :=
  s.accs.any (fun kv => kv.2.grp == k && kv.2.vf == vfOf k && kv.2.book.isSome && kv.2.st == .data && kv.2.lanes &&& m != 0)

/-- No lane has 63 instructions retired behind an access that may still fault. -/
def skidRoom (as : List Acc) : Bool := as.all (fun a => a.skid.all (fun kv => decide (kv.2 < 63)))

/-! ## Waiting for registers (R52, R81) -/

/-- The pending result that an instruction waits for, if any: a read or write of a register awaited in acting lanes. -/
def Use.awaits (u : Use) (g : Group) (m : BitVec 32) : Option Pend :=
  let lanes := lanesOf m
  let hit (r : RegRef) (p : Pend) : Bool := p.reg == r && (p.lanes &&& m != 0)
  match g.pend.find? (fun p => (u.writes g lanes).any (fun r => hit r p) && !(u.reads g lanes).any (fun r => hit r p)) with
  | some p => some { p with kind := .load }
  | none => g.pend.find? (fun p => (u.reads g lanes).any (fun r => hit r p))

/-- The released access of a parked command that issues again is spent. -/
def State.spendReplay (s : State) (k : Nat) (e : Entry) : State :=
  if e.st != .parked then s
  else { s with accs := s.accs.filter (fun kv => !(kv.2.grp == k && kv.2.vf == vfOf k && kv.2.st == .replay && kv.2.lanes &&& e.mask != 0)) }

/-- Block an entry with a wake record; none where a ninth would be needed (R62). The group has not issued. -/
def State.block (s : State) (k : Nat) (g : Group) (e : Entry) (w : Wake) : Option State :=
  if g.wakes.length < 8 then
    some ((s.spendReplay k e).setGroup k ((g.modEntry e.frag (fun e => { e with st := .blocked, skip := 0 })).addWake w))
  else none

/-- Registers that the instruction reads and that are not in the quarter (R66, R70). -/
def Use.misses (u : Use) (g : Group) (m : BitVec 32) : List Nat :=
  (u.vRead g (lanesOf m)).filter (fun n => g.absent n || g.filling n)

/-- The entry waits for the fills of registers that are not in the quarter (R66, R70); ADDR is the line awaited (R62). -/
def State.waitFill (s : State) (k : Nat) (g : Group) (e : Entry) (n : Nat) (ns : List Nat) : Option State :=
  s.block k (s.startFills k g (n :: ns)) e { code := 9, frag := e.frag, arg := BitVec.ofNat 16 n, addr := BitVec.ofNat 64 (s.regVa k n) }

/-! ## After the instruction -/

/-- Group equal READY or CONV results of an issue together (R44). -/
def joinParts : List Part → List Part
  | [] => []
  | p :: ps =>
    let same (q : Part) : Bool :=
      q.pc == p.pc && q.prio == p.prio && q.st == p.st && (p.st == .ready || p.st == .conv) && !p.gone && !q.gone &&
        p.trap.isNone && q.trap.isNone && p.wake.isNone && q.wake.isNone
    let rest := joinParts ps
    { p with mask := (rest.filter same).foldl (fun m q => m ||| q.mask) p.mask } :: rest.filter (fun q => !same q)

/-- The other entries of an issue's group, with the SKIP of those that stood READY before it counted (R44). -/
def Group.passedOver (g : Group) (frag : BitVec 5) (count : Bool) : List Entry :=
  let before := match g.issuing with | some i => i.2 | none => g.readyMask
  (g.entries.filter (fun e => e.frag != frag)).map (fun e =>
    if count && e.st == .ready && e.mask &&& before != 0 && decide (e.skip.toNat < 1024) then { e with skip := e.skip + 1 } else e)

/-- FRAG of a part (R43): kept where one part is left and holds that lane, else the part's lowest lane. -/
def partFrag (e : Entry) (single : Bool) (m : BitVec 32) : BitVec 5 :=
  if single && m.getLsbD e.frag.toNat then e.frag else BitVec.ofNat 5 (lowLane m)

/-- The frontier entry of a part. -/
def partEntry (e : Entry) (single : Bool) (fseq : BitVec 5) (p : Part) : Entry :=
  let park := p.st == .parked
  { pc := p.pc, prio := p.prio, st := p.st, mask := p.mask, skip := 0, frag := partFrag e single p.mask
    fr := park || e.fr, fseq := if park then fseq else e.fseq, parent := if park then e.frag else e.parent }

/-- The trap that an issue delivers: that of the lowest trapping lane. -/
def firstTrap (ps : List Part) : Option Part :=
  (ps.filter (fun p => p.trap.isSome && p.mask != 0)).foldl (fun (b : Option Part) p =>
    match b with
    | none => some p
    | some q => if lowLane p.mask < lowLane q.mask then some p else some q) none

/-- FSEQ of the fragments of an issue (R43): the issued entry still holds its own where a part goes on with it. -/
def Group.fseqOf (g : Group) (e : Entry) (count : Bool) (ps : List Part) (trap : Option Part) : BitVec 5 :=
  let others := g.passedOver e.frag count
  let goesOn := trap.isSome || ps.any (fun p => !p.gone && p.mask != 0 && p.st != .parked)
  ({ g with entries := if goesOn then e :: others else others } : Group).freshFseq

/-- Replace the issued entry by its parts: SKIP of the others, FRAGs, merging, wake records (R43, R44, R49, R62). The
trapping part, if any, is placed without merging. -/
def Group.place (g : Group) (e : Entry) (count : Bool) (ps : List Part) (trap : Option Part) : Group :=
  let others := g.passedOver e.frag count
  let fseq := g.fseqOf e count ps trap
  let live := ps.filter (fun p => !p.gone && p.mask != 0)
  let single := live.length + (if trap.isSome then 1 else 0) == 1
  let es := live.foldl (fun l p => insertEntry (partEntry e single fseq p) l) others
  let es := match trap with
    | some p => placeEntry (partEntry e single fseq p) es
    | none => es
  (live.filterMap (fun p => p.wake.map (fun w => { w with frag := partFrag e single p.mask }))).foldl Group.addWake
    { g with entries := es, issuing := none }

/-- Other refused lanes stay READY at the PC; the lanes without a trap keep their part. -/
def settleTraps (e : Entry) (t : Option Part) (ps : List Part) : List Part :=
  joinParts ((ps.filter (fun p => p.mask != 0 && some p != t)).map (fun p =>
    if p.trap.isSome then { p with trap := none, pc := e.pc, prio := e.prio, st := .ready } else p))

/-- The group becomes the youngest of its section; a first pick leaves its PC for the instruction paired with it (R83). -/
def State.youngest (s : State) (k : Nat) (pc : VAddr) : State :=
  match s.group k with
  | none => s
  | some g => s.modCore g.core (fun c => c.setSect g.sect
      { active := (c.sect g.sect).active.filter (· != k) ++ [k], pair := if s.cur.any Issue.second then none else some (k, pc) })

/-- A stop, eviction or debugger step takes effect after an issue (R237, R260): a full save. -/
def State.stopAfter (s : State) (k : Nat) (frag : BitVec 5) : State :=
  match s.group k, s.launch (launchOf k) with
  | some g, some l =>
    if g.step == some frag then
      (s.setGroup k { g with step := none, queued := none, frame := { g.frame with dbg := true } }).stopSave k
    else if g.active && !l.lets g && (l.st == .evicting || l.st == .stopping true || l.st == .stopping false) then s.fullSave k
    else s
  | _, _ => s

/-- The lanes of a part whose issue is charged (R225), of an instruction that raised no precise trap: not those that were refused, and not yet those of a command
that has parked, which its replay issues, or of a BOR that awaits its answer. -/
def Part.charged (e : Entry) (p : Part) : BitVec 32 :=
  if p.trap.isSome || p.refused || p.stays || (p.st == .parked && p.pc == e.pc) || p.wake.any (fun w => w.code == 4) then 0 else p.mask

/-- The lanes of a part whose instruction has retired (R56): not those that trapped, that stay at it, or that wait at it. -/
def Part.retired (e : Entry) (p : Part) : BitVec 32 :=
  if p.trap.isSome || p.stays || (p.st == .parked && p.pc == e.pc) || p.wake.isSome then 0 else p.mask

/-- The end of an issue: parts placed, the trap taken, charges, age, progress. -/
def State.finish (s : State) (u : Use) (k : Nat) (e : Entry) (pass : BitVec 32) (id : Nat) (ps : List Part) : Option State :=
  match s.group k with
  | none => some s
  | some g =>
    let t := firstTrap ps
    let rest := settleTraps e t ps
    let trapped := ps.foldl (fun m p => if p.trap.isSome then m ||| p.mask else m) 0
    let done := ps.foldl (fun m p => m ||| p.retired e) 0
    let held := match t with
      | some p => (match p.trap with
        | some i => s.disposition k e.frag i.cause == Disp.deliver && g.frame.busy
        | none => false)
      | none => false
    if held then none
    else if t.isSome && !(s.openAccs k trapped).isEmpty then none
    else
      let fseq := g.fseqOf e u.skips rest t
      let parked := rest.any (fun (p : Part) => p.st == EState.parked)
      let s := (s.spendReplay k e).setGroup k (g.place e u.skips rest t)
      let s := if parked then { s with accs := s.accs.map (fun (kv : Nat × Acc) =>
          (kv.1, if kv.2.grp == k && kv.2.issue == id then { kv.2 with fseq := some fseq } else kv.2)) } else s
      let s := if trapped == 0 && (pass == 0 || ps.any (fun p => p.charged e &&& pass != 0)) then
          (match u.cls with | some c => s.charge (payerOf k) c 1 | none => s) else s
      let s := if done != 0 then (s.countSkid k done id).progress (teamOf k) else s
      let s := s.youngest k e.pc
      -- a split in supervisor mode kills the launch (R250)
      if g.supv e && decide (1 < rest.length + (if t.isSome then 1 else 0)) then some (s.kill (launchOf k) 0x12 false)
      else
        let s := match t with
          | some p => (match p.trap with
            | some i =>
              let live := (rest.filter (fun (p : Part) => !p.gone)).length
              s.trap k (partFrag e (live == 0) p.mask) i
            | none => s)
          | none => s
        some ((s.settle k).stopAfter k e.frag)

/-- Honoured last uses (R66, R67): direct v sources flagged, read by an entry that holds every live lane, not written by
the instruction. -/
def Use.lastUses (u : Use) (g : Group) (e : Entry) (pass : BitVec 32) : List Nat :=
  if e.mask != g.live then []
  else
    let ws := u.vWritten g (lanesOf pass)
    ((u.srcs.filter (fun a => u.lu.getLsbD a.fld)).flatMap (fun a => directV a.src a.w)).filter (fun n => !ws.contains n)

/-- A trap of the whole entry in place of the instruction. -/
def State.trapEntry (s : State) (u : Use) (k : Nat) (e : Entry) (cause : BitVec 8) (info : BitVec 32) : Option State :=
  s.finish u k e e.mask s.nextId
    [{ mask := e.mask, pc := e.pc, prio := e.prio
       trap := some { cause := cause, lanes := e.mask, pc := e.pc, rpc := e.pc, info := info } }]

/-- The machine check that waits for the first READY entry of a group (R208). -/
def Group.checkDue (g : Group) (e : Entry) : Bool :=
  !g.mcheck.isEmpty && !g.frame.busy && (g.entries.find? (fun x => x.st == .ready)).any (fun x => x.frag == e.frag)

/-- Deliver a waiting machine check in place of an issue. -/
def State.takeCheck (s : State) (k : Nat) (g : Group) (e : Entry) : Option State :=
  (s.setGroup k { g with mcheck := g.mcheck.tail }).finish { cls := none } k e e.mask s.nextId
    [{ mask := e.mask, pc := e.pc, prio := e.prio
       trap := some { cause := 0x38, impr := true, lanes := e.mask, pc := e.pc, rpc := e.pc,
                      info := BitVec.ofNat 32 (g.mcheck.headD 0) } }]

/-- The effect of an instruction on the acting lanes; with none acting, the lanes move on (R326). -/
def runBody (c : Ctx) (body : Ctx → State → Effect) (s : State) : Effect :=
  if c.lanes == 0 then some (s, if c.stay == 0 then [] else [c.next]) else body c s

/-- The context that an issue reads its operands from: a replayed command's kept values (R50, R261), else the group. -/
def Group.replayView (g : Group) (e : Entry) : Group :=
  match g.kept.find? (fun x => x.pc == e.pc && x.lanes &&& e.mask != 0) with
  | some x => { g with s := x.s, q := x.q }
  | none => g

/-- The entry issues: what was kept for its lanes is spent. -/
def State.spend (s : State) (k : Nat) (e : Entry) : State :=
  s.modGroup k (fun g => { g with
    kept := g.kept.filter (fun x => x.lanes &&& e.mask == 0), issuing := some (e.frag, g.readyMask) })

/-- From the operand stage on. -/
def State.execute (s : State) (u : Use) (body : Ctx → State → Effect) (k : Nat) (g : Group) (e : Entry) (l : Launch)
    (pass : BitVec 32) : Option State :=
  let c0 : Ctx := { k := k, g := g.replayView e, e := e, pass := pass, stay := e.mask, lanes := pass, id := s.nextId }
  let (c, traps) := s.operandStage u c0 l.desc.deadtrap
  -- a guard that only some lanes of a supervisor entry pass (R250)
  if g.supv e && pass != 0 && pass != e.mask && traps.isEmpty then s.trapEntry u k e 0x12 (e.mask &&& ~~~pass)
  else match runBody c body (s.bump.spend k e) with
  | none => none
  | some (s', ps) =>
    -- an arrival at a rendezvous retires nothing
    if ps.isEmpty && traps.isEmpty then some (s'.modGroup k (fun g => { g with issuing := none }))
    else
    let ps := traps ++ ps
    let s' := if ps.all (fun p => p.trap.isNone) then (u.lastUses g e pass).foldl (fun s n => s.freeReg k n) s' else s'
    s'.finish u k e pass s.nextId ps

/-- From the decode stage on. -/
def State.decodeStage (s : State) (u : Use) (body : Ctx → State → Effect) (k : Nat) (g : Group) (e : Entry) (l : Launch) :
    Option State :=
  if u.overBudget g.bud || u.mode.any (fun m => m != g.supv e) then s.trapEntry u k e 0x01 0
  else
    let pass := g.passing u.g e.mask
    let opens := s.openAccs k e.mask
    if !skidRoom opens || (u.order && (!opens.isEmpty || s.booksOut k e.mask)) || (u.touches && opens.any (fun a => a.acq && a.lanes &&& pass != 0)) then none
    else match u.awaits g pass with
      | some p =>
        (match p.kind, p.reg with
        | .token, .s n => (s.block k g e { code := 5, frag := e.frag, arg := BitVec.ofNat 16 n }).map (fun s => s.stopAfter k e.frag)
        | .rld, .v n => (s.block k g e { code := 6, frag := e.frag, arg := BitVec.ofNat 16 n }).map (fun s => s.stopAfter k e.frag)
        | _, _ => none)
      | none =>
        match u.misses g pass with
        | n :: ns => s.waitFill k g e n ns
        | [] => s.execute u body k g e l pass

/-- The issue of a word by the entry named in `cur`. -/
def State.issue (s : State) (u : Use) (body : Ctx → State → Effect) : Option State :=
  match s.issuer with
  | none => none
  | some (k, g, e, l) =>
    s.onHouse (g.byPf && g.step.isSome) (fun s => if g.checkDue e then s.takeCheck k g e else s.decodeStage u body k g e l)

/-- A word as the issue takes it: its operands and class, and the body that its acting lanes run. -/
structure Op where
  use : Use
  body : Ctx → State → Effect

/-- The word with a use and a body that do not depend on the issue. -/
def word (u : Use) (body : Ctx → State → Effect) : Op := { use := u, body := body }

/-- The meaning of a word: its issue, or not enabled. -/
def Op.run (o : Op) (s : State) : Host.Outcome State Fault Refusal :=
  match s.issue o.use o.body with
  | some s' => .next s'
  | none => .fault .notEnabled

/-- The meaning of an event: its effect, or not enabled. -/
def event (e : Option State) : Host.Outcome State Fault Refusal :=
  match e with
  | some s' => .next s'
  | none => .fault .notEnabled

/-! ## Refusals of R95 under the launch trap policy (R96) -/

/-- What becomes of refused lanes: the launch is killed, a record is written and they move on, or they trap. -/
def Ctx.refuse (c : Ctx) (s : State) (m : BitVec 32) (cause : BitVec 8) (addr : Nat) : State × Part :=
  let l := s.launch (launchOf c.k)
  let pol : BitVec 2 := match l with | some l => l.desc.bpol | none => 0
  let faddr := BitVec.ofNat 57 addr
  if c.g.supv c.e then (s, c.trapPart m cause faddr 0)
  else if pol == 1 then
    let core := c.g.core
    let r : FaultRec :=
      { va := faddr, cause := cause, access := .refusal, vf := vfOf c.k
        part := (match l with | some l => l.leaf | none => 0), ctx := c.k, die := dieOf core, core := core % 16
        lanes := m, pc := c.e.pc }
    (s.keepRecord r, { mask := m, pc := nextPc c.e.pc, prio := c.e.prio, refused := true })
  else if pol == 2 then (s, c.trapPart m cause faddr 0)
  else (s.kill (launchOf c.k) cause false, c.trapPart m cause faddr 0)

/-- Refuse every acting lane of a command (R95, last paragraph): the lanes that fail the guard move on. -/
def Ctx.refuseAll (c : Ctx) (s : State) (cause : BitVec 8) (addr : Nat) : Effect :=
  let (s, p) := c.refuse s c.lanes cause addr
  some (s, [{ c.next with mask := c.stay &&& ~~~c.lanes }, p])

/-- A trap of every acting lane of a command. -/
def Ctx.trapCmd (c : Ctx) (s : State) (cause : BitVec 8) (addr : Nat) (info : BitVec 32 := 0) : Effect :=
  some (s, [{ c.next with mask := c.stay &&& ~~~c.lanes }, c.trapPart c.lanes cause (BitVec.ofNat 57 addr) info])

/-- Wait at the instruction with a wake record (R52): the entry waits whole (R326). -/
def Ctx.wait (c : Ctx) (s : State) (w : Wake) : Effect :=
  if c.g.wakes.length < 8 then
    some (s, [{ mask := c.stay, pc := c.e.pc, prio := c.e.prio, st := .blocked, wake := some w }])
  else none

end Sys2Proof.Machine
end

