-- ==== Sys2Proof/Machine/Flags.lean ====
section
/-! DEFINITION. sr.fmode (R180): rounding in force, FTZ, and what becomes of floating-point exceptions (R188). -/

namespace Sys2Proof.Machine

open Sys2Proof

/-- FMODE.RM (R180). -/
def Group.rm (g : Group) : Fp.Mode :=
  match (g.fmode &&& 3).toNat with
  | 0 => .rn
  | 1 => .rz
  | 2 => .ru
  | _ => .rd

/-- The rounding of an instruction: its suffix, or FMODE.RM (R181). -/
def Group.rounding (g : Group) (r : Option Rnd) : Fp.Mode := match r with | some x => Fp.Mode.of x | none => g.rm

/-- FMODE.FTZ. -/
def Group.ftz (g : Group) : Bool := g.fmode.getLsbD 2

/-- FMODE.TE, in FLG order. -/
def Group.trapsOn (g : Group) : BitVec 5 := (g.fmode >>> 3).setWidth 5

/-- Set sticky flags (R180). -/
def State.raise (s : State) (k : Nat) (f : BitVec 5) : State :=
  s.modGroup k (fun g => { g with fmode := g.fmode ||| (f.setWidth 32 <<< 8) })

/-- The lowest cause among exceptions (R188): 0x18 for INV upward. -/
def fpCause (f : BitVec 5) : BitVec 8 := BitVec.ofNat 8 (0x18 + ((List.range 5).find? (fun i => f.getLsbD i)).getD 0)

/-- A floating-point instruction: results with exceptions by lane. Lanes that raise an enabled exception trap with INFO the
exceptions of all trapping lanes; the others write their results and set their flags (R188). -/
def Ctx.fp (c : Ctx) (s : State) (f : Nat → Fp.Res) (wr : Ctx → State → (Nat → Nat) → State) : Effect :=
  let rs := (lanesOf c.lanes).map (fun i => (i, f i))
  let te := c.g.trapsOn
  let bad := maskOf (fun i => rs.any (fun r => r.1 == i && r.2.flags &&& te != 0))
  let all := rs.foldl (fun m r => if bad.getLsbD r.1 then m ||| r.2.flags else m) 0
  let ok := rs.foldl (fun m r => if bad.getLsbD r.1 then m else m ||| r.2.flags) 0
  let c' := { c with lanes := c.lanes &&& ~~~bad, stay := c.stay &&& ~~~bad }
  let s := wr c' s (fun i => ((rs.find? (fun r => r.1 == i)).map (fun r => r.2.bits)).getD 0)
  let s := s.raise c.k ok
  if bad == 0 then c.done s
  else some (s, [c'.next, c.trapPart bad (fpCause (all &&& te)) 0 (all.setWidth 32)])

end Sys2Proof.Machine
end

