-- ==== Sys2Proof/Machine/Integer.lean ====
section
/-! DEFINITION. Meanings of OPC 0x000 to 0x03F: NOP, integer and logic (R406 to R449). -/

namespace Sys2Proof.Machine

open Sys2Proof

/-- A source in field `f`. -/
def srcIn (f : Nat) (a : Src) (w : Nat := 1) (t : OTy := .i32) : SrcUse := { src := a, fld := f, w := w, ty := t }

/-- Energy class under R365: 4 on the uniform unit (R86), else 0. -/
def aluCls (c : Alu) (ss : List SrcUse) : Nat :=
  let sdst := match c.out.dst with
    | none => true
    | some (.s _) => true
    | _ => false
  if ss.all (fun a => a.src.uniform) && c.out.latch.isNone && sdst then 4 else 0

/-- The use of a word of the blocks 0x001 to 0x0FF with a result of `w` registers. -/
def aluUse (c : Alu) (w cls : Nat) (ss : List SrcUse) : Use :=
  { g := c.g, lu := c.lu, srcs := ss, dst := c.out.dst, dw := w, latch := c.out.latch, cls := some cls }

/-- A per-lane function of the sources' values, written to the result. -/
def alu (c : Alu) (w cls : Nat) (ss : List SrcUse) (f : List Nat → Nat) : Op :=
  let u := aluUse c w cls ss
  word u (fun x s => x.done (x.write u s (fun i => f (ss.map (fun a => x.val s a i)))))

def a0 (l : List Nat) : Nat := l.headD 0
def a1 (l : List Nat) : Nat := l.tail.headD 0
def a2 (l : List Nat) : Nat := l.tail.tail.headD 0

/-- Two's complement difference of `w` bits. -/
def subw (w a b : Nat) : Nat := (BitVec.ofNat w a - BitVec.ofNat w b).toNat

/-- A 32-bit value as an integer of a type. -/
def sgnInt (t : Sgn) (v : Nat) : Int := match t with | .s32 => sInt 32 v | .z32 => ((v % 2 ^ 32 : Nat) : Int)

/-- The `w` low bits of an integer. -/
def intBits (w : Nat) (i : Int) : Nat := (BitVec.ofInt w i).toNat

/-- The ordering of R402, by a three-way comparison. -/
def cmpInt (c : Cmp) (a b : Int) : Bool :=
  match c with
  | .eq => a == b
  | .ne => a != b
  | .le => decide (a ≤ b)
  | .ge => decide (b ≤ a)
  | .lt => decide (a < b)
  | .gt => decide (b < a)

/-- NOP (R427): issues and retires, no guard, no SKIP. -/
def opNop : Op := word { cls := some 5, skips := false } (fun c s => c.done s)
def execNop (s : State) : Host.Outcome State Fault Refusal :=
  (opNop).run s

def opIadd (c : Alu) (_t : Sgn) (a b : Src) : Op :=
  let ss := [srcIn 0 a, srcIn 1 b]
  alu c 1 (aluCls c ss) ss (fun v => (a0 v + a1 v) % 2 ^ 32)
def execIadd (c : Alu) (_t : Sgn) (a b : Src) (s : State) : Host.Outcome State Fault Refusal :=
  (opIadd c _t a b).run s

/-- IADD.CC (R406): the carry in is read before the carry out is written. -/
def opIaddCc (c : Alu) (pco : BitVec 3) (a b ci : Src) : Op :=
  let ss := [srcIn 0 a, srcIn 1 b, srcIn 2 ci]
  let u := { aluUse c 1 (aluCls c ss) ss with pw := [pco.toNat] }
  word u (fun x s =>
    let sum (i : Nat) : Nat := (ss.map (fun a => x.val s a i)).foldl (· + ·) 0
    let s' := x.write u s (fun i => sum i % 2 ^ 32)
    x.done (s'.putP x.k pco.toNat ((lanesOf x.lanes).map (fun i => (i, decide (2 ^ 32 ≤ sum i))))))
def execIaddCc (c : Alu) (pco : BitVec 3) (a b ci : Src) (s : State) : Host.Outcome State Fault Refusal :=
  (opIaddCc c pco a b ci).run s

def opIsub (c : Alu) (_t : Sgn) (a b : Src) : Op :=
  let ss := [srcIn 0 a, srcIn 1 b]
  alu c 1 (aluCls c ss) ss (fun v => subw 32 (a0 v) (a1 v))
def execIsub (c : Alu) (_t : Sgn) (a b : Src) (s : State) : Host.Outcome State Fault Refusal :=
  (opIsub c _t a b).run s

def opImad (c : Alu) (_t : Sgn) (a b d : Src) : Op :=
  let ss := [srcIn 0 a, srcIn 1 b, srcIn 2 d]
  alu c 1 (aluCls c ss) ss (fun v => (a0 v * a1 v + a2 v) % 2 ^ 32)
def execImad (c : Alu) (_t : Sgn) (a b d : Src) (s : State) : Host.Outcome State Fault Refusal :=
  (opImad c _t a b d).run s

def opImadWide (c : Alu) (t : Sgn) (a b d : Src) : Op :=
  let ss := [srcIn 0 a, srcIn 1 b, srcIn 2 d 2 (match t with | .s32 => .s64 | .z32 => .z64)]
  alu c 2 (aluCls c ss) ss (fun v => intBits 64 (sgnInt t (a0 v) * sgnInt t (a1 v) + (a2 v : Int)))
def execImadWide (c : Alu) (t : Sgn) (a b d : Src) (s : State) : Host.Outcome State Fault Refusal :=
  (opImadWide c t a b d).run s

def opImul (c : Alu) (t : Sgn) (hi : Bool) (a b : Src) : Op :=
  let ss := [srcIn 0 a, srcIn 1 b]
  alu c 1 (aluCls c ss) ss (fun v =>
    let p := intBits 64 (sgnInt t (a0 v) * sgnInt t (a1 v))
    if hi then p / 2 ^ 32 else p % 2 ^ 32)
def execImul (c : Alu) (t : Sgn) (hi : Bool) (a b : Src) (s : State) : Host.Outcome State Fault Refusal :=
  (opImul c t hi a b).run s

def opImnmx (c : Alu) (t : Sgn) (mx : Bool) (a b : Src) : Op :=
  let ss := [srcIn 0 a, srcIn 1 b]
  alu c 1 (aluCls c ss) ss (fun v =>
    if decide (sgnInt t (a0 v) < sgnInt t (a1 v)) == mx then a1 v else a0 v)
def execImnmx (c : Alu) (t : Sgn) (mx : Bool) (a b : Src) (s : State) : Host.Outcome State Fault Refusal :=
  (opImnmx c t mx a b).run s

/-- ISETP (R411). -/
def opIsetp (c : Ctl) (pd : BitVec 3) (t : Sgn) (cmp : Cmp) (a b : Src) : Op :=
  let ss := [srcIn 0 a, srcIn 1 b]
  let u : Use := { g := c.g, lu := c.lu, srcs := ss, dst := some (.p pd), cls := some 0 }
  word u (fun x s => x.done (x.write u s (fun i =>
    if cmpInt cmp (sgnInt t (x.val s (srcIn 0 a) i)) (sgnInt t (x.val s (srcIn 1 b) i)) then 1 else 0)))
def execIsetp (c : Ctl) (pd : BitVec 3) (t : Sgn) (cmp : Cmp) (a b : Src) (s : State) : Host.Outcome State Fault Refusal :=
  (opIsetp c pd t cmp a b).run s

/-- Byte `j` of a word, extended (R175). -/
def byteInt (z : Bool) (v j : Nat) : Int := let b := v / 2 ^ (8 * j) % 256; if z then (b : Int) else sInt 8 b

def opIdp4 (c : Alu) (az bz : Bool) (a b d : Src) : Op :=
  let ss := [srcIn 0 a 1 .b8, srcIn 1 b 1 .b8, srcIn 2 d]
  alu c 1 0 ss (fun v => intBits 32 ((List.range 4).foldl (fun t j => t + byteInt az (a0 v) j * byteInt bz (a1 v) j) (a2 v : Int)))
def execIdp4 (c : Alu) (az bz : Bool) (a b d : Src) (s : State) : Host.Outcome State Fault Refusal :=
  (opIdp4 c az bz a b d).run s

/-- LOP3 (R418): bit m of the result is bit a + 2b + 4c of the table. -/
def lop3 (lut : BitVec 8) (a b d : BitVec 32) : BitVec 32 :=
  maskOf (fun m => lut.getLsbD ((if a.getLsbD m then 1 else 0) + (if b.getLsbD m then 2 else 0) + (if d.getLsbD m then 4 else 0)))

def opLop3 (c : Alu) (lut : BitVec 8) (a b d : Src) : Op :=
  let ss := [srcIn 0 a, srcIn 1 b, srcIn 2 d]
  alu c 1 (aluCls c ss) ss (fun v => (lop3 lut (BitVec.ofNat 32 (a0 v)) (BitVec.ofNat 32 (a1 v)) (BitVec.ofNat 32 (a2 v))).toNat)
def execLop3 (c : Alu) (lut : BitVec 8) (a b d : Src) (s : State) : Host.Outcome State Fault Refusal :=
  (opLop3 c lut a b d).run s

def opShl (c : Alu) (a b : Src) : Op :=
  let ss := [srcIn 0 a, srcIn 1 b]
  alu c 1 (aluCls c ss) ss (fun v => if 32 ≤ a1 v then 0 else a0 v * 2 ^ a1 v % 2 ^ 32)
def execShl (c : Alu) (a b : Src) (s : State) : Host.Outcome State Fault Refusal :=
  (opShl c a b).run s

def opShr (c : Alu) (t : Sgn) (a b : Src) : Op :=
  let ss := [srcIn 0 a, srcIn 1 b]
  alu c 1 (aluCls c ss) ss (fun v => intBits 32 (sgnInt t (a0 v) / ((2 ^ min (a1 v) 32 : Nat) : Int)))
def execShr (c : Alu) (t : Sgn) (a b : Src) (s : State) : Host.Outcome State Fault Refusal :=
  (opShr c t a b).run s

/-- BFE (R372). -/
def bfe (t : Sgn) (va : BitVec 32) (pos len : Nat) : BitVec 32 :=
  let sgn := match t with | .s32 => true | .z32 => false
  let fill := sgn && va.getLsbD 31
  let bit (j : Nat) : Bool := if pos + j < 32 then va.getLsbD (pos + j) else fill
  maskOf (fun j => if j < len then bit j else sgn && decide (0 < len) && bit (len - 1))

def opBfe (c : Alu) (t : Sgn) (a b d : Src) : Op :=
  let ss := [srcIn 0 a, srcIn 1 b, srcIn 2 d]
  alu c 1 (aluCls c ss) ss (fun v => (bfe t (BitVec.ofNat 32 (a0 v)) (a1 v % 256) (min (a2 v % 256) 32)).toNat)
def execBfe (c : Alu) (t : Sgn) (a b d : Src) (s : State) : Host.Outcome State Fault Refusal :=
  (opBfe c t a b d).run s

/-- BFI (R373). -/
def bfi (va vb : BitVec 32) (pos len : Nat) : BitVec 32 :=
  maskOf (fun m => if pos ≤ m && m < pos + len then va.getLsbD (m - pos) else vb.getLsbD m)

def opBfi (c : Alu) (a b d : Src) : Op :=
  let ss := [srcIn 0 a, srcIn 1 b, srcIn 2 d]
  alu c 1 (aluCls c ss) ss (fun v =>
    (bfi (BitVec.ofNat 32 (a0 v)) (BitVec.ofNat 32 (a1 v)) (a2 v % 256) (min (a2 v / 256 % 256) 32)).toNat)
def execBfi (c : Alu) (a b d : Src) (s : State) : Host.Outcome State Fault Refusal :=
  (opBfi c a b d).run s

def opBrev (c : Alu) (a : Src) : Op :=
  let ss := [srcIn 0 a]
  alu c 1 (aluCls c ss) ss (fun v => (maskOf (fun j => (BitVec.ofNat 32 (a0 v)).getLsbD (31 - j))).toNat)
def execBrev (c : Alu) (a : Src) (s : State) : Host.Outcome State Fault Refusal :=
  (opBrev c a).run s

/-- Leading zero bits of a 32-bit value (R384). -/
def clz32 (v : Nat) : Nat := if v = 0 then 32 else 31 - Nat.log2 v

def opClz (c : Alu) (a : Src) : Op :=
  let ss := [srcIn 0 a]
  alu c 1 (aluCls c ss) ss (fun v => clz32 (a0 v))
def execClz (c : Alu) (a : Src) (s : State) : Host.Outcome State Fault Refusal :=
  (opClz c a).run s

def opPopc (c : Alu) (a : Src) : Op :=
  let ss := [srcIn 0 a]
  alu c 1 (aluCls c ss) ss (fun v => laneCount (BitVec.ofNat 32 (a0 v)))
def execPopc (c : Alu) (a : Src) (s : State) : Host.Outcome State Fault Refusal :=
  (opPopc c a).run s

/-- LEA (R417). -/
def opLea (c : Alu) (t : LeaTy) (a b n : Src) : Op :=
  let w := t.width
  let ss := [srcIn 0 a w .z64, srcIn 1 b, srcIn 2 n]
  alu c w (aluCls c ss) ss (fun v =>
    let x : Int := match t with
      | .s64 => sInt 32 (a1 v)
      | _ => (a1 v : Int)
    intBits (32 * w) ((a0 v : Int) + x * ((2 ^ (a2 v % 32) : Nat) : Int)))
def execLea (c : Alu) (t : LeaTy) (a b n : Src) (s : State) : Host.Outcome State Fault Refusal :=
  (opLea c t a b n).run s

/-- PRMT (R431): result byte `b` under its control byte. -/
def prmtByte (src ctl : Nat) : Nat :=
  let sb := src / 2 ^ (8 * (ctl % 8)) % 256
  match ctl / 8 % 4 with
  | 0 => sb
  | 1 => 0
  | 2 => if 128 ≤ sb then 255 else 0
  | _ => 255

def opPrmt (c : Alu) (a b d : Src) : Op :=
  let ss := [srcIn 0 a, srcIn 1 b, srcIn 2 d]
  alu c 1 (aluCls c ss) ss (fun v =>
    (List.range 4).foldl (fun r j => r + prmtByte (a0 v + 2 ^ 32 * a1 v) (a2 v / 2 ^ (8 * j) % 256) * 2 ^ (8 * j)) 0)
def execPrmt (c : Alu) (a b d : Src) (s : State) : Host.Outcome State Fault Refusal :=
  (opPrmt c a b d).run s

/-- SEL (R445). -/
def opSel (c : Alu) (wide : Bool) (neg : Bool) (pc : BitVec 3) (a b : Src) : Op :=
  let w := if wide then 2 else 1
  let ss := [srcIn 0 (.p pc), srcIn 1 a w .z64, srcIn 2 b w .z64]
  alu c w (aluCls c ss) ss (fun v => if (a0 v != 0) != neg then a1 v else a2 v)
def execSel (c : Alu) (wide : Bool) (neg : Bool) (pc : BitVec 3) (a b : Src) (s : State) : Host.Outcome State Fault Refusal :=
  (opSel c wide neg pc a b).run s

/-- MOV (R425): a scalar destination takes the value of the lowest acting lane. -/
def opMov (c : Alu) (t : MovTy) (a : Src) : Op :=
  let ss := [srcIn 0 a t.width .z64]
  alu c t.width (aluCls c ss) ss a0
def execMov (c : Alu) (t : MovTy) (a : Src) (s : State) : Host.Outcome State Fault Refusal :=
  (opMov c t a).run s

end Sys2Proof.Machine
end

