-- ==== Sys2Proof/Machine/Float.lean ====
section
/-! DEFINITION. Meanings of OPC 0x040 to 0x04F: floating point and special functions (R393 to R402, R446). -/

namespace Sys2Proof.Machine

open Sys2Proof

def ftyFmt (t : FTy) : Fp.Fmt := match t with | .f32 => Fp.f32 | .f64 => Fp.f64
def ftyOTy (t : FTy) : OTy := match t with | .f32 => .f32 | .f64 => .f64
def htyFmt (t : HTy) : Fp.Fmt := match t with | .f16 => Fp.f16 | .bf16 => Fp.bf16
def htyOTy (t : HTy) : OTy := match t with | .f16 => .f16 | .bf16 => .bf16
/-- Class 2 for FP64, else the class given. -/
def ftyCls (t : FTy) (cls : Nat) : Nat := match t with | .f32 => cls | .f64 => 2

/-- A source of a floating type. -/
def srcF (f : Nat) (a : Src) (t : FTy) : SrcUse := srcIn f a t.width (ftyOTy t)

/-- A per-lane floating operation with exceptions, written to the result. -/
def falu (c : Alu) (w cls : Nat) (ss : List SrcUse) (f : Group → List Nat → Fp.Res) : Op :=
  let u := aluUse c w cls ss
  word u (fun x s => x.fp s (fun i => f x.g (ss.map (fun a => x.val s a i))) (fun x s r => x.write u s r))

def opFadd (c : Alu) (t : FTy) (r : Option Rnd) (a b : Src) : Op :=
  falu c t.width (ftyCls t 0) [srcF 0 a t, srcF 1 b t]
    (fun g v => Fp.fadd (ftyFmt t) (g.rounding r) g.ftz (a0 v) (a1 v))
def execFadd (c : Alu) (t : FTy) (r : Option Rnd) (a b : Src) (s : State) : Host.Outcome State Fault Refusal :=
  (opFadd c t r a b).run s

def opFsub (c : Alu) (t : FTy) (r : Option Rnd) (a b : Src) : Op :=
  falu c t.width (ftyCls t 0) [srcF 0 a t, srcF 1 b t]
    (fun g v => Fp.fsub (ftyFmt t) (g.rounding r) g.ftz (a0 v) (a1 v))
def execFsub (c : Alu) (t : FTy) (r : Option Rnd) (a b : Src) (s : State) : Host.Outcome State Fault Refusal :=
  (opFsub c t r a b).run s

def opFmul (c : Alu) (t : FTy) (r : Option Rnd) (a b : Src) : Op :=
  falu c t.width (ftyCls t 0) [srcF 0 a t, srcF 1 b t]
    (fun g v => Fp.fmul (ftyFmt t) (g.rounding r) g.ftz (a0 v) (a1 v))
def execFmul (c : Alu) (t : FTy) (r : Option Rnd) (a b : Src) (s : State) : Host.Outcome State Fault Refusal :=
  (opFmul c t r a b).run s

def opFfma (c : Alu) (t : FTy) (r : Option Rnd) (a b d : Src) : Op :=
  falu c t.width (ftyCls t 1) [srcF 0 a t, srcF 1 b t, srcF 2 d t]
    (fun g v => Fp.ffma (ftyFmt t) (g.rounding r) g.ftz (a0 v) (a1 v) (a2 v))
def execFfma (c : Alu) (t : FTy) (r : Option Rnd) (a b d : Src) (s : State) : Host.Outcome State Fault Refusal :=
  (opFfma c t r a b d).run s

def opFmnmx (c : Alu) (t : FTy) (mx : Bool) (a b : Src) : Op :=
  falu c t.width (ftyCls t 0) [srcF 0 a t, srcF 1 b t] (fun g v => Fp.fmnmx (ftyFmt t) g.ftz mx (a0 v) (a1 v))
def execFmnmx (c : Alu) (t : FTy) (mx : Bool) (a b : Src) (s : State) : Host.Outcome State Fault Refusal :=
  (opFmnmx c t mx a b).run s

/-- FSETP (R402). -/
def opFsetp (c : Ctl) (pd : BitVec 3) (t : FTy) (cmp : Cmp) (a b : Src) : Op :=
  let ss := [srcF 0 a t, srcF 1 b t]
  let u : Use := { g := c.g, lu := c.lu, srcs := ss, dst := some (.p pd), cls := some (ftyCls t 0) }
  word u (fun x s =>
    x.fp s (fun i =>
      let (r, fl) := Fp.fcmp (ftyFmt t) x.g.ftz cmp (x.val s (srcF 0 a t) i) (x.val s (srcF 1 b t) i)
      { bits := if r then 1 else 0, flags := fl })
      (fun x s r => x.write u s r))
def execFsetp (c : Ctl) (pd : BitVec 3) (t : FTy) (cmp : Cmp) (a b : Src) (s : State) : Host.Outcome State Fault Refusal :=
  (opFsetp c pd t cmp a b).run s

/-- Class bit of FCLASS (R395). -/
def classBit (c : Fp.Class) : Nat :=
  match c with
  | .negInf => 0
  | .negNorm => 1
  | .negSub => 2
  | .negZero => 3
  | .posZero => 4
  | .posSub => 5
  | .posNorm => 6
  | .posInf => 7
  | .sNan => 8
  | .qNan => 9

def opFclass (c : Alu) (t : FTy) (a m : Src) : Op :=
  alu c 1 (ftyCls t 0) [srcF 0 a t, srcIn 1 m] (fun v =>
    let b := classBit (Fp.classOf (ftyFmt t) (a0 v))
    if (a1 v).testBit b then 2 ^ b else 0)
def execFclass (c : Alu) (t : FTy) (a m : Src) (s : State) : Host.Outcome State Fault Refusal :=
  (opFclass c t a m).run s

/-- FDOT2 (R396): exact products and sum, one rounding to FP32. -/
def fdot2 (f : Fp.Fmt) (x y z : Nat) : Fp.Res :=
  let e (v j : Nat) : Fp.Val := Fp.decode f (v / 2 ^ (16 * j) % 2 ^ 16)
  let (p, i0) := Fp.mul (e x 0) (e y 0)
  let (q, i1) := Fp.mul (e x 1) (e y 1)
  let (t, i2) := Fp.add .rn p q
  let vz := Fp.decode Fp.f32 z
  let (r, i3) := Fp.add .rn t vz
  let sig := (e x 0).isSig || (e x 1).isSig || (e y 0).isSig || (e y 1).isSig || vz.isSig
  let o := Fp.encode Fp.f32 .rn false r
  { o with flags := o.flags ||| Fp.flagIf (i0 || i1 || i2 || i3 || sig) Fp.inv }

def opFdot2 (c : Alu) (t : HTy) (a b d : Src) : Op :=
  falu c 1 1 [srcIn 0 a 1 (htyOTy t), srcIn 1 b 1 (htyOTy t), srcIn 2 d 1 .f32]
    (fun _ v => fdot2 (htyFmt t) (a0 v) (a1 v) (a2 v))
def execFdot2 (c : Alu) (t : HTy) (a b d : Src) (s : State) : Host.Outcome State Fault Refusal :=
  (opFdot2 c t a b d).run s

/-- A special function (R446). -/
def sfnWord (c : Alu) (f : Fp.Sfn) (a : Src) : Op :=
  falu c 1 3 [srcIn 0 a 1 .f32] (fun g v => Fp.sfn f g.ftz (a0 v))

def opSfnRcp (c : Alu) (a : Src) : Op := sfnWord c .rcp a
def execSfnRcp (c : Alu) (a : Src) (s : State) : Host.Outcome State Fault Refusal :=
  (opSfnRcp c a).run s
def opSfnRsq (c : Alu) (a : Src) : Op := sfnWord c .rsq a
def execSfnRsq (c : Alu) (a : Src) (s : State) : Host.Outcome State Fault Refusal :=
  (opSfnRsq c a).run s
def opSfnSqrt (c : Alu) (a : Src) : Op := sfnWord c .sqrt a
def execSfnSqrt (c : Alu) (a : Src) (s : State) : Host.Outcome State Fault Refusal :=
  (opSfnSqrt c a).run s
def opSfnExp2 (c : Alu) (a : Src) : Op := sfnWord c .exp2 a
def execSfnExp2 (c : Alu) (a : Src) (s : State) : Host.Outcome State Fault Refusal :=
  (opSfnExp2 c a).run s
def opSfnLog2 (c : Alu) (a : Src) : Op := sfnWord c .log2 a
def execSfnLog2 (c : Alu) (a : Src) (s : State) : Host.Outcome State Fault Refusal :=
  (opSfnLog2 c a).run s
def opSfnSin (c : Alu) (a : Src) : Op := sfnWord c .sin a
def execSfnSin (c : Alu) (a : Src) (s : State) : Host.Outcome State Fault Refusal :=
  (opSfnSin c a).run s
def opSfnCos (c : Alu) (a : Src) : Op := sfnWord c .cos a
def execSfnCos (c : Alu) (a : Src) (s : State) : Host.Outcome State Fault Refusal :=
  (opSfnCos c a).run s
def opSfnTanh (c : Alu) (a : Src) : Op := sfnWord c .tanh a
def execSfnTanh (c : Alu) (a : Src) (s : State) : Host.Outcome State Fault Refusal :=
  (opSfnTanh c a).run s

end Sys2Proof.Machine
end

