-- ==== Sys2Proof/Machine/Packed.lean ====
section
/-! DEFINITION. Meanings of packed, narrow and codebook operations: HADD2, HMUL2, HFMA2 (R405), CVT (R389, R390), CBENC
(R382) and CBDEC (R381). -/

namespace Sys2Proof.Machine

open Sys2Proof

/-- A packed operation on both elements (R405): bits and the exceptions of either. -/
def packed2 (f : Nat → Fp.Res) : Fp.Res :=
  let lo := f 0
  let hi := f 1
  { bits := lo.bits + 2 ^ 16 * hi.bits, flags := lo.flags ||| hi.flags }

/-- Element `j` of 16 bits. -/
def elem16 (v j : Nat) : Nat := v / 2 ^ (16 * j) % 2 ^ 16

def srcH (f : Nat) (a : Src) (t : HTy) : SrcUse := srcIn f a 1 (htyOTy t)

def opHadd2 (c : Alu) (t : HTy) (a b : Src) : Op :=
  falu c 1 0 [srcH 0 a t, srcH 1 b t]
    (fun _ v => packed2 (fun j => Fp.fadd (htyFmt t) .rn false (elem16 (a0 v) j) (elem16 (a1 v) j)))
def execHadd2 (c : Alu) (t : HTy) (a b : Src) (s : State) : Host.Outcome State Fault Refusal :=
  (opHadd2 c t a b).run s

def opHmul2 (c : Alu) (t : HTy) (a b : Src) : Op :=
  falu c 1 0 [srcH 0 a t, srcH 1 b t]
    (fun _ v => packed2 (fun j => Fp.fmul (htyFmt t) .rn false (elem16 (a0 v) j) (elem16 (a1 v) j)))
def execHmul2 (c : Alu) (t : HTy) (a b : Src) (s : State) : Host.Outcome State Fault Refusal :=
  (opHmul2 c t a b).run s

def opHfma2 (c : Alu) (t : HTy) (a b d : Src) : Op :=
  falu c 1 1 [srcH 0 a t, srcH 1 b t, srcH 2 d t]
    (fun _ v => packed2 (fun j => Fp.ffma (htyFmt t) .rn false (elem16 (a0 v) j) (elem16 (a1 v) j) (elem16 (a2 v) j)))
def execHfma2 (c : Alu) (t : HTy) (a b d : Src) (s : State) : Host.Outcome State Fault Refusal :=
  (opHfma2 c t a b d).run s

/-! ## CVT (R186, R187, R390) -/

/-- A type as a floating format, or as an integer type: signed, bits. -/
def numFmt (t : NumTy) : Option Fp.Fmt :=
  match t with
  | .f16 => some Fp.f16
  | .bf16 => some Fp.bf16
  | .f32 => some Fp.f32
  | .f64 => some Fp.f64
  | _ => none

def numSigned (t : NumTy) : Bool :=
  match t with
  | .s8 => true
  | .s16 => true
  | .s32 => true
  | _ => false

def numBits (t : NumTy) : Nat :=
  match t with
  | .s8 => 8
  | .z8 => 8
  | .s16 => 16
  | .z16 => 16
  | .f16 => 16
  | .bf16 => 16
  | .f64 => 64
  | _ => 32

/-- Limits of an integer type. -/
def numLo (t : NumTy) : Int := if numSigned t then -((2 ^ (numBits t - 1) : Nat) : Int) else 0
def numHi (t : NumTy) : Int := if numSigned t then ((2 ^ (numBits t - 1) : Nat) : Int) - 1 else ((2 ^ numBits t : Nat) : Int) - 1

/-- The integer held by the low element of a value. -/
def numInt (t : NumTy) (v : Nat) : Int :=
  if numSigned t then sInt (numBits t) v else ((v % 2 ^ numBits t : Nat) : Int)

def clampInt (lo hi i : Int) : Int := if i < lo then lo else if hi < i then hi else i

/-- The register image of an integer result: extended under its type (R390). -/
def intImage (t : NumTy) (i : Int) : Nat :=
  let b := intBits (numBits t) i
  if numSigned t then intBits 32 (sInt (numBits t) b) else b

/-- One conversion: RM is FMODE's rounding, `r` the suffix. -/
def convert (dt st : NumTy) (r : Option Rnd) (rm : Fp.Mode) (ftz : Bool) (v : Nat) : Fp.Res :=
  let rnd (dflt : Fp.Mode) : Fp.Mode := match r with | some x => Fp.Mode.of x | none => dflt
  let v := v % 2 ^ numBits st
  match numFmt st, numFmt dt with
  | some sf, some df => Fp.fToF sf df (rnd .rn) v
  | some sf, none =>
    let narrow := numBits dt == 8
    let (i, fl) := Fp.fToInt sf (if narrow then .rna else rnd rm) narrow (numLo dt) (numHi dt) v
    { bits := intImage dt i, flags := fl }
  | none, some df =>
    let big := 32 ≤ numBits dt
    Fp.intToF df (rnd (if big then rm else .rn)) (big && ftz) (numInt st v)
  | none, none =>
    let i := numInt st v
    { bits := intImage dt (if numBits st < numBits dt then i else clampInt (numLo dt) (numHi dt) i) }

def opCvt (c : Alu) (dt st : NumTy) (r : Option Rnd) (a : Src) : Op :=
  let ty : OTy := match st with
    | .f16 => .f16
    | .bf16 => .bf16
    | .f32 => .f32
    | .f64 => .f64
    | _ => .i32
  let wide := dt == .f64 || st == .f64
  let ss := [srcIn 0 a st.width ty]
  falu c dt.width (if wide then 2 else aluCls c ss) ss (fun g v => convert dt st r g.rm g.ftz (a0 v))
def execCvt (c : Alu) (dt st : NumTy) (r : Option Rnd) (a : Src) (s : State) : Host.Outcome State Fault Refusal :=
  (opCvt c dt st r a).run s

/-! ## Codebooks (R177 to R179) -/

/-- The 16 entries of a core's codebook slot. -/
def State.book (s : State) (core slot : Nat) : List (BitVec 16) :=
  (List.range 16).map (fun i => Store.rd (s.core core).books (slot * 16 + i))

/-- A CBLD of the group into the slot has not completed (R383). -/
def State.bookPending (s : State) (k slot : Nat) : Bool :=
  s.accs.any (fun kv => kv.2.grp == k && kv.2.book.any (fun b => b.1 == slot))

/-- CBENC (R382). -/
def opCbenc (c : Alu) (bf : Bool) (a sk : Src) : Op :=
  let ss := [srcIn 0 a 1 (if bf then .bf16 else .f32), srcIn 1 sk]
  let u := aluUse c 1 0 ss
  word u (fun x s =>
    let k := x.uni s (srcIn 1 sk)
    if 15 < k then x.trapCmd s 0x11 0
    else if s.bookPending x.k k then none
    else
      let book := s.book x.g.core k
      x.fp s (fun i =>
        let v := x.val s (srcIn 0 a 1 (if bf then .bf16 else .f32)) i
        if bf then
          let (l, fl) := Fp.encodeCode book (Fp.decode Fp.bf16 (elem16 v 0))
          let (h, fh) := Fp.encodeCode book (Fp.decode Fp.bf16 (elem16 v 1))
          { bits := l + 16 * h, flags := fl ||| fh }
        else
          let (l, fl) := Fp.encodeCode book (Fp.decode Fp.f32 v)
          { bits := l, flags := fl })
        (fun x s r => x.write u s r))
def execCbenc (c : Alu) (bf : Bool) (a sk : Src) (s : State) : Host.Outcome State Fault Refusal :=
  (opCbenc c bf a sk).run s

/-- CBDEC (R381): eight codes to eight BF16 values in four registers. -/
def opCbdec (c : Alu) (a sk : Src) : Op :=
  let u := aluUse c 4 0 [srcIn 0 a, srcIn 1 sk]
  word u (fun x s =>
    let k := x.uni s (srcIn 1 sk)
    if 15 < k then x.trapCmd s 0x11 0
    else if s.bookPending x.k k then none
    else
      let book := s.book x.g.core k
      x.done (x.write u s (fun i =>
        let v := x.val s (srcIn 0 a) i
        (List.range 8).foldl (fun r j => r + ((book[v / 16 ^ j % 16]?).getD 0).toNat * 2 ^ (16 * j)) 0)))
def execCbdec (c : Alu) (a sk : Src) (s : State) : Host.Outcome State Fault Refusal :=
  (opCbdec c a sk).run s

end Sys2Proof.Machine
end

