-- ==== Sys2Proof/Machine/GroupOps.lean ====
section
/-! DEFINITION. Meanings of OPC 0x0C0 to 0x0CB: SHFL (R448), VOTE and BALLOT (R466), MATCH (R419), GRED (R404), ELECT
(R391). -/

namespace Sys2Proof.Machine

open Sys2Proof

/-- Source lane of a shuffle (R448), none where invalid. -/
inductive ShflMode | idx | up | down | xor
deriving DecidableEq, Repr

def shflSrc (m : ShflMode) (w i d : Nat) : Option Nat :=
  let base := i - i % w
  match m with
  | .idx => some (base + d % w)
  | .up => if d ≤ i - base then some (i - d) else none
  | .down => if i + d < base + w then some (i + d) else none
  | .xor => some (i ^^^ (d % w))

/-- A shuffle: value and validity in each participant. -/
def shfl (m : ShflMode) (c : Alu) (z : Bool) (wc : BitVec 3) (pd : Option (BitVec 3)) (a b : Src) : Op :=
  let ss := [srcIn 0 a, srcIn 1 b]
  let u := { aluUse c 1 0 ss with pw := (match pd with | some p => [p.toNat] | none => []) }
  word u (fun x s =>
    let at_ (i : Nat) : Option Nat :=
      match shflSrc m (32 / 2 ^ wc.toNat) i (x.val s (srcIn 1 b) i) with
      | some j => if decide (j < 32) && x.lanes.getLsbD j then some j else none
      | none => none
    let r (i : Nat) : Nat := match at_ i with
      | some j => x.val s (srcIn 0 a) j
      | none => if z then 0 else x.val s (srcIn 0 a) i
    let s' := x.write u s r
    x.done (match pd with
      | some p => s'.putP x.k p.toNat ((lanesOf x.lanes).map (fun i => (i, (at_ i).isSome)))
      | none => s'))

def opShflIdx (c : Alu) (z : Bool) (wc : BitVec 3) (pd : Option (BitVec 3)) (a b : Src) : Op := shfl .idx c z wc pd a b
def execShflIdx (c : Alu) (z : Bool) (wc : BitVec 3) (pd : Option (BitVec 3)) (a b : Src) (s : State) : Host.Outcome State Fault Refusal :=
  (opShflIdx c z wc pd a b).run s
def opShflUp (c : Alu) (z : Bool) (wc : BitVec 3) (pd : Option (BitVec 3)) (a b : Src) : Op := shfl .up c z wc pd a b
def execShflUp (c : Alu) (z : Bool) (wc : BitVec 3) (pd : Option (BitVec 3)) (a b : Src) (s : State) : Host.Outcome State Fault Refusal :=
  (opShflUp c z wc pd a b).run s
def opShflDown (c : Alu) (z : Bool) (wc : BitVec 3) (pd : Option (BitVec 3)) (a b : Src) : Op := shfl .down c z wc pd a b
def execShflDown (c : Alu) (z : Bool) (wc : BitVec 3) (pd : Option (BitVec 3)) (a b : Src) (s : State) : Host.Outcome State Fault Refusal :=
  (opShflDown c z wc pd a b).run s
def opShflXor (c : Alu) (z : Bool) (wc : BitVec 3) (pd : Option (BitVec 3)) (a b : Src) : Op := shfl .xor c z wc pd a b
def execShflXor (c : Alu) (z : Bool) (wc : BitVec 3) (pd : Option (BitVec 3)) (a b : Src) (s : State) : Host.Outcome State Fault Refusal :=
  (opShflXor c z wc pd a b).run s

/-- Participants in which a predicate, negated or not, is true (R466). -/
def Ctx.voters (x : Ctx) (neg : Bool) (pa : BitVec 3) : BitVec 32 :=
  maskOf (fun i => x.lanes.getLsbD i && (x.g.pred pa.toNat i != neg))

def vote (c : Ctl) (pd : BitVec 3) (neg : Bool) (pa : BitVec 3) (f : BitVec 32 → BitVec 32 → Bool) : Op :=
  let u : Use := { g := c.g, lu := c.lu, srcs := [srcIn 0 (.p pa)], dst := some (.p pd), cls := some 0 }
  word u (fun x s => x.done (x.write u s (fun _ => if f (x.voters neg pa) x.lanes then 1 else 0)))

def opVoteAll (c : Ctl) (pd : BitVec 3) (neg : Bool) (pa : BitVec 3) : Op :=
  vote c pd neg pa (fun m p => m == p)
def execVoteAll (c : Ctl) (pd : BitVec 3) (neg : Bool) (pa : BitVec 3) (s : State) : Host.Outcome State Fault Refusal :=
  (opVoteAll c pd neg pa).run s
def opVoteAny (c : Ctl) (pd : BitVec 3) (neg : Bool) (pa : BitVec 3) : Op :=
  vote c pd neg pa (fun m _ => m != 0)
def execVoteAny (c : Ctl) (pd : BitVec 3) (neg : Bool) (pa : BitVec 3) (s : State) : Host.Outcome State Fault Refusal :=
  (opVoteAny c pd neg pa).run s
def opVoteUni (c : Ctl) (pd : BitVec 3) (neg : Bool) (pa : BitVec 3) : Op :=
  vote c pd neg pa (fun m p => m == 0 || m == p)
def execVoteUni (c : Ctl) (pd : BitVec 3) (neg : Bool) (pa : BitVec 3) (s : State) : Host.Outcome State Fault Refusal :=
  (opVoteUni c pd neg pa).run s

/-- BALLOT (R466): class 4 to an s register. -/
def opBallot (c : Alu) (neg : Bool) (pa : BitVec 3) : Op :=
  let cls := match c.out.dst with
    | some (.s _) => 4
    | _ => 0
  let u := aluUse c 1 cls [srcIn 0 (.p pa)]
  word u (fun x s => x.done (x.write u s (fun _ => (x.voters neg pa).toNat)))
def execBallot (c : Alu) (neg : Bool) (pa : BitVec 3) (s : State) : Host.Outcome State Fault Refusal :=
  (opBallot c neg pa).run s

/-- Participants whose value equals that of lane `i` (R419). -/
def Ctx.equals (x : Ctx) (s : State) (a : SrcUse) (i : Nat) : BitVec 32 :=
  maskOf (fun j => x.lanes.getLsbD j && x.val s a j == x.val s a i)

def opMatchAny (c : Alu) (wide : Bool) (a : Src) : Op :=
  let sa := srcIn 0 a (if wide then 2 else 1) .z64
  let u := aluUse c 1 0 [sa]
  word u (fun x s => x.done (x.write u s (fun i => (x.equals s sa i).toNat)))
def execMatchAny (c : Alu) (wide : Bool) (a : Src) (s : State) : Host.Outcome State Fault Refusal :=
  (opMatchAny c wide a).run s

def opMatchAll (c : Alu) (wide : Bool) (pd : BitVec 3) (a : Src) : Op :=
  let sa := srcIn 0 a (if wide then 2 else 1) .z64
  let u := { aluUse c 1 0 [sa] with pw := [pd.toNat] }
  word u (fun x s =>
    let e := x.equals s sa (lowLane x.lanes) == x.lanes
    let s' := x.write u s (fun _ => if e then x.lanes.toNat else 0)
    x.done (s'.putP x.k pd.toNat ((lanesOf x.lanes).map (fun i => (i, e)))))
def execMatchAll (c : Alu) (wide : Bool) (pd : BitVec 3) (a : Src) (s : State) : Host.Outcome State Fault Refusal :=
  (opMatchAll c wide pd a).run s

/-- One level of the tree of R404: neighbours added, an absent one skipped. -/
def gredLevel : List (Option Nat) → List (Option Nat)
  | some a :: some b :: l => some (Fp.fadd Fp.f32 .rn false a b).bits :: gredLevel l
  | some a :: none :: l => some a :: gredLevel l
  | none :: b :: l => b :: gredLevel l
  | l => l

/-- The FP32 sum over lane positions (R404): any NaN gives the canonical NaN. -/
def gredAddF (v : List (Option Nat)) : Nat :=
  match gredLevel (gredLevel (gredLevel (gredLevel (gredLevel v)))) with
  | some r :: _ => if (Fp.decode Fp.f32 r).isNan then Fp.f32.nanBits else r
  | _ => 0

/-- A reduction of the participants' values, in lane order. -/
def gred (op : GredOp) (vs : List (Option Nat)) : Nat :=
  let xs := vs.filterMap id
  let fold (f : Nat → Nat → Nat) : Nat := xs.tail.foldl f (xs.headD 0)
  let mm (t : Sgn) (mx : Bool) (a b : Nat) : Nat := if decide (sgnInt t a < sgnInt t b) == mx then b else a
  let fm (mx : Bool) : Nat :=
    let r := fold (fun a b => (Fp.fmnmx Fp.f32 false mx a b).bits)
    if (Fp.decode Fp.f32 r).isNan then Fp.f32.nanBits else r
  match op with
  | .addS => fold (fun a b => (a + b) % 2 ^ 32)
  | .addZ => fold (fun a b => (a + b) % 2 ^ 32)
  | .addF => gredAddF vs
  | .minS => fold (mm .s32 false)
  | .minZ => fold (mm .z32 false)
  | .minF => fm false
  | .maxS => fold (mm .s32 true)
  | .maxZ => fold (mm .z32 true)
  | .maxF => fm true
  | .and => fold (· &&& ·)
  | .or => fold (· ||| ·)
  | .xor => fold (· ^^^ ·)

def opGred (c : Alu) (op : GredOp) (a : Src) : Op :=
  let u := aluUse c 1 0 [srcIn 0 a]
  word u (fun x s =>
    let r := gred op ((List.range 32).map (fun i => if x.lanes.getLsbD i then some (x.val s (srcIn 0 a) i) else none))
    x.done (x.write u s (fun _ => r)))
def execGred (c : Alu) (op : GredOp) (a : Src) (s : State) : Host.Outcome State Fault Refusal :=
  (opGred c op a).run s

/-- ELECT (R391). -/
def opElect (g : Guard) (d : Dst) : Op :=
  let scalar := match d with
    | .s _ => true
    | _ => false
  let u : Use := { g := g, dst := some d, cls := some (if scalar then 4 else 0) }
  word u (fun x s =>
    let l := lowLane x.lanes
    x.done (x.write u s (fun i => if scalar then l else if i = l then 1 else 0)))
def execElect (g : Guard) (d : Dst) (s : State) : Host.Outcome State Fault Refusal :=
  (opElect g d).run s

end Sys2Proof.Machine
end

