-- ==== Sys2Proof/Machine/Fetch.lean ====
section
/-! DEFINITION. Fetch lines (R318 to R323): where they lie, the instruction cache, the word at a PC, branch targets. -/

namespace Sys2Proof.Machine

open Sys2Proof

/-- Byte address of the line of a PC. -/
def pcLine (pc : VAddr) : Nat := pc.toNat / 64 * 64

/-- Translation of a code address: the supervisor pages of the VF above the supervisor base (R282), else the walk, which must
permit a fetch from class code (R323). -/
def State.codeXlat (s : State) (vf va : Nat) : XRes :=
  let v := s.vf vf
  if supvNat ≤ va then
    if va - supvNat < v.supvLen then
      .ok { vf := vf, va := supvNat, size := 2 ^ 18, home := v.supvHome, cls := 3, grain := 0, rd := false, wr := false, ex := true } 0
    else .term 3 false 0
  else match s.walk vf va with
    | .ok x n => (match x.deny v none .ex with
      | some (r, st) => .term r st n
      | none => .ok x n)
    | r => r

/-- The 512 bits of a line in memory. -/
def State.memLine (s : State) (home : Nat) : BitVec 512 := BitVec.ofNat 512 (Store.load s.mem home 64)

/-- A line in the instruction cache of a core. -/
def State.cached (s : State) (core vf line : Nat) : Option ILine :=
  (s.core core).icache.find? (fun l => l.vf == vf && l.line == line)

/-- The line word of a target as the device can see it: in the instruction cache, or in memory where it can be fetched. -/
def State.peekLine (s : State) (core vf line : Nat) : Option (BitVec 512) :=
  match s.cached core vf line with
  | some l => some l.data
  | none => match s.codeXlat vf line with
    | .ok x _ => some (s.memLine (x.at line))
    | _ => none

/-- A branch target that raises BAD_TARGET (R322, R249): bad slot or PC bits, a supervisor page from user mode, or a target
slot whose TGT bit is clear. -/
def State.badTarget (s : State) (g : Group) (k : Nat) (supv tgt : Bool) (pc : VAddr) : Bool :=
  badPc pc || (!supv && decide (supvNat ≤ pc.toNat)) ||
    (tgt && (match s.peekLine g.core (vfOf k) (pcLine pc) with
      | some l => !lineTgt l (pc &&& 7).toNat
      | none => false))

/-- The word at a PC as far as it is cached. -/
def State.wordAt (s : State) (g : Group) (k : Nat) (pc : VAddr) : Option (BitVec 96) :=
  (s.cached g.core (vfOf k) (pcLine pc)).map (fun l => lineSlot l.data (pc &&& 7).toNat)

/-- A word of OPC 0x001 to 0x0FF that reads a latch (R76, R469). -/
def readsLatch (w : BitVec 96) : Bool :=
  let opc := (w.extractLsb' 0 10).toNat
  let lat (f : BitVec 10) : Bool := decide (0x200 ≤ f.toNat) && decide (f.toNat ≤ 0x203)
  decide (1 ≤ opc) && decide (opc ≤ 0xFF) &&
    (lat (w.extractLsb' 26 10) || lat (w.extractLsb' 36 10) || (!w.getLsbD 10 && lat (w.extractLsb' 46 10)))

/-- Some READY entry's next instruction reads a latch. -/
def State.latchNext (s : State) (g : Group) (k : Nat) : Bool :=
  g.entries.any (fun e => e.st == .ready && (s.wordAt g k e.pc).any readsLatch)

end Sys2Proof.Machine
end

