-- ==== Sys2Proof/Machine/Control.lean ====
section
/-! DEFINITION. Meanings of OPC 0x100 to 0x109: branches, CALL and RET, EXIT, CONV, YIELD, BKPT, TRAP, TRET (R376 to R386,
R392, R438, R462 to R464, R469). -/

namespace Sys2Proof.Machine

open Sys2Proof

/-- Target of a direct branch (R326): AUX[21:3] lines from the line of the PC, slot AUX[2:0]. -/
def branchTarget (pc : VAddr) (t : BitVec 22) : VAddr :=
  (((pc >>> 6) + (t.extractLsb' 3 19).signExtend 57) <<< 6) + (t.extractLsb' 0 3).setWidth 57

/-- Lanes that take a branch, by lane: those with a bad target trap with FADDR the lowest one's target; the others move
there. -/
def Ctx.jump (c : Ctx) (s : State) (tgt : Bool) (to_ : Nat → VAddr × BitVec 8) (extra : Nat → Bool) : Effect :=
  let bad := maskOf (fun i => c.lanes.getLsbD i && (extra i || s.badTarget c.g c.k (c.g.supv c.e) tgt (to_ i).1))
  let go := c.lanes &&& ~~~bad
  let parts := (lanesOf go).map (fun i => ({ mask := 1#32 <<< i, pc := (to_ i).1, prio := (to_ i).2 } : Part))
  let fall : Part := { c.next with mask := c.stay &&& ~~~c.lanes }
  some (s, (if bad == 0 then [] else [c.trapPart bad 0x03 (to_ (lowLane bad)).1 0]) ++ joinParts (fall :: parts))

def opBra (g : Guard) (target : BitVec 22) (prio : BitVec 8) : Op :=
  word { g := g, cls := some 5 } (fun c s => c.jump s true (fun _ => (branchTarget c.e.pc target, prio)) (fun _ => false))
def execBra (g : Guard) (target : BitVec 22) (prio : BitVec 8) (s : State) : Host.Outcome State Fault Refusal :=
  (opBra g target prio).run s

def opBrx (c : Ctl) (a : Src) (prio : BitVec 8) : Op :=
  let sa := srcIn 0 a 2 .z64
  word { g := c.g, lu := c.lu, srcs := [sa], cls := some 5 }
    (fun x s => x.jump s true (fun i => (BitVec.ofNat 57 (x.val s sa i), prio)) (fun _ => false))
def execBrx (c : Ctl) (a : Src) (prio : BitVec 8) (s : State) : Host.Outcome State Fault Refusal :=
  (opBrx c a prio).run s

/-- Link word of R379. -/
def linkWord (pc : VAddr) (prio : BitVec 8) : Nat := (pc &&& 7).toNat + 8 * prio.toNat + 2 ^ 11 * (pc.toNat / 64)

/-- CALL (R379): the link is written only where the branch is taken. -/
def opCall (g : Guard) (d : Dst) (target : BitVec 22) (prio : BitVec 8) : Op :=
  let u : Use := { g := g, dst := some d, dw := 2, cls := some 5 }
  word u (fun c s =>
    let t := branchTarget c.e.pc target
    let s' := if s.badTarget c.g c.k (c.g.supv c.e) true t then s
      else c.write u s (fun _ => linkWord (nextPc c.e.pc) c.e.prio)
    match c.jump s true (fun _ => (t, prio)) (fun _ => false) with
    | some (_, ps) => some (s', ps)
    | none => none)
def execCall (g : Guard) (d : Dst) (target : BitVec 22) (prio : BitVec 8) (s : State) : Host.Outcome State Fault Refusal :=
  (opCall g d target prio).run s

/-- RET (R438). -/
def opRet (g : Guard) (a : Src) : Op :=
  let sa := srcIn 0 a 2 .z64
  word { g := g, srcs := [sa], cls := some 5 } (fun c s =>
    let link (i : Nat) : Nat := c.val s sa i
    c.jump s false
      (fun i => (BitVec.ofNat 57 (fld (link i) 11 51 * 64 + fld (link i) 0 3), BitVec.ofNat 8 (fld (link i) 3 8)))
      (fun i => decide (4 < fld (link i) 0 3) || fld (link i) 62 2 != 0))
def execRet (g : Guard) (a : Src) (s : State) : Host.Outcome State Fault Refusal :=
  (opRet g a).run s

/-- EXIT (R55, R392): refused where the group would end with a LENT register (R110). -/
def opExit (g : Guard) : Op :=
  word { g := g, cls := some 5, mode := some false, order := true } (fun c s =>
    let ends := c.g.live &&& ~~~c.lanes == 0
    if ends && c.g.q.any (fun kv => kv.2.lent) then c.refuseAll s 0x08 0
    else some (s, [{ c.next with mask := c.lanes, gone := true }, { c.next with mask := c.stay &&& ~~~c.lanes }]))
def execExit (g : Guard) (s : State) : Host.Outcome State Fault Refusal :=
  (opExit g).run s

/-- CONV (R46): the lanes wait at the CONV's PC; the release follows every issue (R47). -/
def opConv : Op :=
  word { cls := some 5 } (fun c s => some (s, [{ mask := c.stay, pc := c.e.pc, prio := c.e.prio, st := .conv }]))
def execConv (s : State) : Host.Outcome State Fault Refusal :=
  (opConv).run s

/-- The swap-out that a performed YIELD asks for (R469). -/
def State.yieldAfter (s : State) (k : Nat) : State :=
  match s.group k with
  | none => s
  | some g =>
    let ready := s.groups.any (fun kv => kv.2.core == g.core && kv.2.sect == g.sect && kv.2.queued.isSome)
    if g.active && ready && !s.latchNext g k && g.arrivals.isEmpty then (s.swapOut k).makeReady k else s

def opYield (g : Guard) : Op := word { g := g, cls := some 5 } (fun c s => c.done s)

/-- YIELD (R469): it retires, and where it was performed its group may be swapped out. -/
def execYield (g : Guard) (s : State) : Host.Outcome State Fault Refusal :=
  let performed : Option Nat := match s.issuer with
    | some (k, x, e, _) => if x.passing g e.mask != 0 && !x.checkDue e then some k else none
    | none => none
  match (opYield g).run s, performed with
  | .next s', some k => .next (s'.yieldAfter k)
  | o, _ => o

/-- BKPT (R374). -/
def opBkpt (g : Guard) : Op :=
  word { g := g, cls := some 5 } (fun c s => c.trapCmd s 0x31 0)
def execBkpt (g : Guard) (s : State) : Host.Outcome State Fault Refusal :=
  (opBkpt g).run s

/-- TRAP (R462): SOFTWARE with INFO the operand. -/
def opTrap (g : Guard) (sv : Src) : Op :=
  word { g := g, srcs := [srcIn 0 sv], cls := some 5 } (fun c s =>
    c.trapCmd s 0x30 0 (BitVec.ofNat 32 (c.uni s (srcIn 0 sv))))
def execTrap (g : Guard) (sv : Src) (s : State) : Host.Outcome State Fault Refusal :=
  (opTrap g sv).run s

/-- TRET and TRET.SKIP (R251, R464): a bad next PC kills the launch with BAD_TARGET. -/
def tret (skip : Bool) : Op :=
  word { cls := some 5, mode := some true } (fun c s =>
    let f := c.g.frame
    let next := f.resume skip
    if badPc next || decide (supvNat ≤ next.toNat) then some (s.kill (launchOf c.k) 0x03 false, [])
    else some (s.modGroup c.k Group.leave,
      [{ mask := c.stay, pc := next, prio := f.prio }]))

def opTret : Op := tret false
def execTret (s : State) : Host.Outcome State Fault Refusal :=
  (opTret).run s
def opTretSkip : Op := tret true
def execTretSkip (s : State) : Host.Outcome State Fault Refusal :=
  (opTretSkip).run s

end Sys2Proof.Machine
end

