-- ==== Sys2Proof/Machine/Signal.lean ====
section
/-! DEFINITION. Signal objects and their waiters (R273, R453), completion records (R272) as they are held before they are
written, and the command log (R285). -/

namespace Sys2Proof.Machine

open Sys2Proof

/-- A comparison of R273, signed. -/
def cmpHolds (c : Cmp) (v x : BitVec 64) : Bool :=
  match c with
  | .eq => v == x
  | .ne => v != x
  | .le => v.sle x
  | .ge => x.sle v
  | .lt => v.slt x
  | .gt => x.slt v

def cmpCode (c : Cmp) : Nat :=
  match c with
  | .eq => 0
  | .ne => 1
  | .le => 2
  | .ge => 3
  | .lt => 4
  | .gt => 5

/-- A virtual address of a VF at its home, where the walk completes. -/
def State.homeOf (s : State) (vf va : Nat) : Option Nat :=
  match s.walk vf va with
  | .ok x _ => some (x.at va)
  | _ => none

/-! ## Completion records -/

/-- The fields of a completion record but TIME. -/
def complBits (w : CmdWord) (op status cause : BitVec 8) (overrun : Bool) (ltag over_ : Nat) : BitVec 256 :=
  BitVec.ofNat 256 (w.tag.toNat + op.toNat * 2 ^ 32 + status.toNat * 2 ^ 40 + cause.toNat * 2 ^ 48 +
    (if overrun then 2 ^ 56 else 0) + ltag % 2 ^ 14 * 2 ^ 64 + over_ % 2 ^ 64 * 2 ^ 128)

def State.modQueue (s : State) (f q : Nat) (g : Queue → Queue) : State := s.modFn f (fun x => x.setQueue q (g (x.queue q)))

/-- A completion record waits to be written (R271). -/
def State.complete (s : State) (f q : Nat) (w : CmdWord) (r : BitVec 256) : State :=
  s.modQueue f q (fun x => { x with held := x.held ++ [(r, w)] })

/-- Entries of a ring (R269); size code 7 is reserved. -/
def Queue.size (q : Queue) : Nat := 2 ^ (q.sz.toNat + 6)

/-- Virtual address of an entry: indices run freely over 16 bits, the entry is the index modulo the ring's size. -/
def Queue.entryVa (q : Queue) (i : BitVec 16) : Nat := q.ring + 64 * (i.toNat % q.size)

/-! ## The command log (R285); the layout of its records is the model's (log 61) -/

/-- The log stops and the VF is not migratable until the next checkpoint. -/
def State.stopLog (s : State) (v : Nat) : State := s.modVf v (fun x => { x with migr := false, logging := false })

/-- A record in the PF's terminal ring for an address of a VF. -/
def State.pfTerminal (s : State) (v va : Nat) (reason : BitVec 4) : State :=
  s.modFn 1024 (fun f => { f with ring2 := { f.ring2 with queue := f.ring2.queue ++
    [{ va := BitVec.ofNat 57 va, cause := 0x21, access := .host, reason := reason, vf := v, part := (s.vf v).leaf.toNat }] } })

/-- Write bytes at a virtual address of class open in device memory, none with the REASON where that fails. -/
def State.logWrite (s : State) (v va : Nat) (bs : List Byte) : State ⊕ BitVec 4 :=
  match s.walk v va with
  | .ok x _ =>
    if x.cls != 1 then .inr 4 else if !x.wr then .inr 3 else if !isDev x.home then .inr 7
    else .inl (s.homeWrite (bs.zipIdx.map (fun bi => (x.at va + bi.2, bi.1))))
  | .term r _ _ => .inr r
  | .retry r _ _ => .inr r

/-- Append a record of whole 64 B blocks to a VF's command log. -/
def State.logAppend (s : State) (v : Nat) (blocks : List (List Byte)) : State :=
  let f := s.vf v
  if !f.logging then s
  else if 2 ^ (f.clsz.toNat + 16) < f.logPos + 64 * blocks.length then s.stopLog v
  else
    let r := blocks.zipIdx.foldl (fun (o : State ⊕ (Nat × BitVec 4)) bi =>
      match o with
      | .inr e => .inr e
      | .inl s =>
        let va := f.clog + f.logPos + 64 * bi.2
        match s.logWrite v va bi.1 with
        | .inl s => .inl s
        | .inr r => .inr (va, r)) (.inl s)
    match r with
    | .inl s => s.modVf v (fun x => { x with logPos := x.logPos + 64 * blocks.length, logSeq := x.logSeq + 1 })
    | .inr (va, reason) => (s.stopLog v).pfTerminal v va reason

/-- Log a command as it starts: its entries, then a block with the queue number, the start sequence number and the values
read. -/
def State.logCommand (s : State) (v q entries : Nat) (vals : List Nat) : State :=
  let block (i : Nat) : List Byte := bytesOf 64 (((s.fn v).queue q).words.toNat / 2 ^ (512 * i))
  let tail := bytesOf 8 q ++ bytesOf 8 (s.vf v).logSeq ++ vals.flatMap (bytesOf 8)
  s.logAppend v ((List.range entries).map block ++ [tail ++ List.replicate (64 - tail.length) 0])

/-! ## Waiters -/

/-- The value of a signal object at its home. -/
def State.signalAt (s : State) (home : Nat) : BitVec 64 := BitVec.ofNat 64 (Store.load s.mem home 8)

/-- A WAITSIG is satisfied: it completes OK and frees its queue. -/
def State.endWaitsig (s : State) (f q : Nat) (w : CmdWord) (v : BitVec 64) : State :=
  let s := s.modQueue f q (fun x => { x with waitsig := none })
  (s.logCommand f q 1 [v.toNat]).complete f q w (complBits w 2 0 0 false 0 0)

/-- WAITSIGs that wait on objects satisfying a test on VF and address. -/
def State.waitsigs (s : State) (p : Nat → Nat → Bool) : List (Nat × Nat × CmdWord × BitVec 64 × Cmp × Nat) :=
  s.fns.flatMap (fun (fk : Nat × Fn) => fk.2.queues.filterMap (fun (qk : Nat × Queue) =>
    match qk.2.waitsig with
    | some (w, a, c, cmp) => if p fk.1 a.toNat then some (fk.1, qk.1, w, c, cmp, a.toNat) else none
    | none => none))

/-- Re-evaluate WAITSIGs that read the object at a home. -/
def State.wakeQueues (s : State) (home : Nat) : State :=
  (s.waitsigs (fun f a => s.homeOf f a == some home)).foldl (fun s x =>
    let (f, q, w, c, cmp, _) := x
    let v := s.signalAt home
    if cmpHolds cmp v c then s.endWaitsig f q w v else s) s

/-- Comparison of a wake record of code 3. -/
def wakeCmp (w : Wake) : Cmp :=
  match (w.arg &&& 7).toNat with
  | 0 => .eq
  | 1 => .ne
  | 2 => .le
  | 3 => .ge
  | 4 => .lt
  | _ => .gt

/-- Re-evaluate the SIGWs that wait on the object at a home; each evaluation is a response to its core. -/
def State.wakeSigw (s : State) (home : Nat) : State :=
  let ws := s.groups.flatMap (fun kv => (kv.2.wakes.filter (fun w =>
    w.code == 3 && s.homeOf (vfOf kv.1) (w.addr.toNat % 2 ^ 57) == some home)).map (fun w => (kv.1, kv.2.core, w)))
  ws.foldl (fun s kw =>
    let (k, core, w) := kw
    let s := s.chargeMsg (payerOf k) (hopsTo core home)
    if cmpHolds (wakeCmp w) (s.signalAt home) w.value then s.wakeRec k w true else s) s

/-- The waiters on the object that an update of home address `a` changed: device memory re-evaluates them at once (R273). -/
def State.signalUpdated (s : State) (a : Nat) : State :=
  if isDev a then (s.wakeSigw (a / 8 * 8)).wakeQueues (a / 8 * 8) else s

/-- Poll a host-homed object (R273). -/
def State.signalPoll (s : State) (v addr : Nat) : Option State :=
  match s.homeOf v addr with
  | none => none
  | some h => if isHost h then some ((s.wakeSigw h).wakeQueues h) else none


end Sys2Proof.Machine
end

