-- ==== Sys2Proof/Machine/Access.lean ====
section
/-! DEFINITION. Accesses through region registers: the checks of R95, the place where an access is performed (R92, R126, R130,
R369), translation at issue and its faults (R140, R144, R145). -/

namespace Sys2Proof.Machine

open Sys2Proof

/-- Operations of ATOM, RED and CAS (R368, R380). -/
inductive AOp | add | minS | minZ | maxS | maxZ | and | or | xor | exch | addf | cas
deriving DecidableEq, Repr

/-- What an access does. -/
inductive MK
  | ld (t : LdTy)
  | st (n : Nat)
  | at_ (op : AOp) (wide : Bool)
  | cbld
deriving DecidableEq, Repr

def ldBytes (t : LdTy) : Nat :=
  match t with
  | .s8 => 1
  | .z8 => 1
  | .s16 => 2
  | .z16 => 2
  | .b32 => 4
  | .b64 => 8
  | .b128 => 16

def MK.bytes : MK → Nat
  | .ld t => ldBytes t
  | .st n => n
  | .at_ _ w => if w then 8 else 4
  | .cbld => 32

def MK.kind : MK → AccKind
  | .ld _ => .load
  | .st _ => .store
  | .at_ _ _ => .atomic
  | .cbld => .load

def MK.need : MK → Need
  | .ld _ => .ld
  | .st _ => .st
  | .at_ _ _ => .at_
  | .cbld => .ld

/-- Which accesses a kind permits (R92). -/
def permits (kind : BitVec 4) (a : AccKind) : Bool :=
  match kind.toNat, a with
  | 1, _ => true
  | 2, .load => true
  | 3, .atomic => true
  | 4, _ => true
  | 8, _ => true
  | 9, _ => true
  | 10, _ => true
  | 11, _ => true
  | _, _ => false

/-- The register image of loaded bytes (R414). -/
def ldImage (t : LdTy) (v : Nat) : Nat :=
  match t with
  | .s8 => intBits 32 (sInt 8 v)
  | .s16 => intBits 32 (sInt 16 v)
  | _ => v

/-- New value of an atomic (R368, R380): `b` the operand, `n` the new value of CAS. -/
def newVal (op : AOp) (wide : Bool) (old b n : Nat) : Nat :=
  let w := if wide then 64 else 32
  let lt (t : Sgn) : Bool := decide (sgnInt t old < sgnInt t b)
  match op with
  | .add => (old + b) % 2 ^ w
  | .minS => if lt .s32 then old else b
  | .minZ => if lt .z32 then old else b
  | .maxS => if lt .s32 then b else old
  | .maxZ => if lt .z32 then b else old
  | .and => old &&& b
  | .or => old ||| b
  | .xor => old ^^^ b
  | .exch => b
  | .addf => (Fp.fadd Fp.f32 .rn false old b).bits
  | .cas => if old = b then n else old

/-- Atomics that PCI Express carries (R137, R369). -/
def hostAtomic (op : AOp) : Bool :=
  match op with
  | .add => true
  | .exch => true
  | .cas => true
  | _ => false

def AOp.code : AOp → Nat
  | .add => 0
  | .minS => 1
  | .minZ => 2
  | .maxS => 3
  | .maxZ => 4
  | .and => 5
  | .or => 6
  | .xor => 7
  | .exch => 8
  | .addf => 9
  | .cas => 10

def AOp.ofCode (n : Nat) : AOp :=
  match n with
  | 0 => .add
  | 1 => .minS
  | 2 => .minZ
  | 3 => .maxS
  | 4 => .maxZ
  | 5 => .and
  | 6 => .or
  | 7 => .xor
  | 8 => .exch
  | 9 => .addf
  | _ => .cas

/-! ## Performing -/

def Acc.addr (a : Acc) (i : Nat) : Nat := ((SMap.find a.addrs i).getD 0).toNat
def Acc.dat (a : Acc) (i : Nat) : Nat := ((SMap.find a.data i).getD 0).toNat
def Acc.dat2 (a : Acc) (i : Nat) : Nat := ((SMap.find a.data2 i).getD 0).toNat

/-- An atomic on local memory. -/
def State.localAtomic (s : State) (k lane : Nat) (sp : LSpace) (off : Nat) (op : AOp) (wide : Bool) (b n : Nat) : State × Nat :=
  let w := if wide then 8 else 4
  let old := s.localLoad k lane sp off w
  (s.localStore k lane sp off w (newVal op wide old b n), old)

/-- Bytes of a home range marked as uncorrected data (R316). -/
def State.poisonedAt (s : State) (a n : Nat) : Bool := (List.range n).any (fun i => s.poisoned (a + i))

/-- Record the bytes of an L2 line that an atomic wrote. -/
def State.l2Mark (s : State) (p : Payer) (a n : Nat) : State :=
  s.modDie (homeDie a) (fun d => { d with l2 := d.l2.map (fun x =>
    if x.line == a / 512 then { x with written := x.written ||| bitsAt (a % 512) n, by_ := p } else x) })

/-- An atomic at the home of an address (R130, R161), device or host memory. -/
def State.homeAtomic (s : State) (p : Payer) (leaf core a : Nat) (op : AOp) (wide : Bool) (b n : Nat) : State × Nat :=
  let w := if wide then 8 else 4
  let h := hopsTo core a
  let old := Store.load s.mem a w
  let s := (s.chargeMsg p h).chargeMsg p h
  let s := if isHost a then s.charge p 21 1 else (s.l2Access p leaf (a / 512) (bitsAt (a % 512) w) false).l2Mark p a w
  (s.homeWrite ((bytesOf w (newVal op wide old b n)).zipIdx.map (fun bi => (a + bi.2, bi.1))), old)

/-- Class 7 events of an access of the L1: one for each 128 B block touched (R228). -/
def State.chargeL1 (s : State) (p : Payer) (n : Nat) (as : List Nat) : State :=
  s.charge p 7 (blocksOf 128 (as.flatMap (fun a => (List.range n).map (· + a)))).length

/-- Perform an access under its translation: values by lane, and lanes whose data was poisoned. The lanes of one line share its
fill (R228); of two lanes that meet in a byte, the higher one comes later. -/
def State.perform (s : State) (a : Acc) (mk : MK) (x : Xlat) : State × SMap Nat × BitVec 32 :=
  let t := teamOf a.grp
  let p := payerOf a.grp
  let lanes := (lanesOf a.lanes).filter (fun i => (SMap.find a.addrs i).isSome)
  let s := match mk with
    | .at_ _ _ => s
    | _ => s.chargeL1 p a.n (lanes.map a.addr)
  let bad := maskOf (fun i => lanes.contains i && !(match mk with | .st _ => true | _ => false) && s.poisonedAt (x.at (a.addr i)) a.n)
  let one (sv : State × SMap Nat) (i : Nat) : State × SMap Nat :=
    let (s, vs) := sv
    let va := a.addr i
    match mk with
    | .ld t =>
      let (s, v) := s.l1Load p a.part a.core x va a.n
      (s, SMap.put vs i (ldImage t v))
    | .cbld =>
      let (s, v) := s.l1Load p a.part a.core x va a.n
      (s, SMap.put vs i v)
    | .st n => (s.l1Store t a.core x va n (a.dat i), vs)
    | .at_ op w =>
      if a.region.kind == 1 then
        let s := s.chargeL1 p a.n [va]
        let (s, old) := s.l1Load p a.part a.core x va a.n
        (s.l1Store t a.core x va a.n (newVal op w old (a.dat i) (a.dat2 i)), SMap.put vs i old)
      else
        let h := x.at va
        let s := s.l1Range a.core a.vf (h - h % 32) 32 true true
        let (s, old) := s.homeAtomic p a.part a.core h op w (a.dat i) (a.dat2 i)
        (s.signalUpdated h, SMap.put vs i old)
  let fills := match mk with | .st _ => false | .at_ _ _ => a.region.kind == 1 | _ => true
  let lineOf_ (i : Nat) : Nat := x.at (a.addr i) / 512
  let (s, vs) := ((lanes.map lineOf_).eraseDups).foldl (fun (sv : State × SMap Nat) l =>
    let ls := lanes.filter (fun i => lineOf_ i == l)
    let s := if fills then sv.1.l1Fills p a.part a.core x (ls.map a.addr) a.n else sv.1
    ls.foldl one (s, sv.2)) (s, [])
  (s, vs, bad)

/-- The result words of an access by register * 32 + lane. -/
def Acc.words (a : Acc) (vs : SMap Nat) : Store 32 :=
  Store.wrs [] (vs.flatMap (fun iv => match SMap.find a.dst iv.1 with
    | some r => (List.range a.w).map (fun j => ((r + j) * 32 + iv.1, BitVec.ofNat 32 (iv.2 / 2 ^ (32 * j))))
    | none => []))

/-! ## What an access leaves under way -/

/-- Registers that an access writes, with its lanes. -/
def Acc.pends (a : Acc) (id : Nat) : List Pend :=
  let regs := a.dst.foldl (fun rs ir => (List.range a.w).foldl (fun rs j =>
    if rs.contains (ir.2 + j) then rs else rs ++ [ir.2 + j]) rs) []
  regs.map (fun r => { reg := .v r, kind := .load, op := id
                       lanes := maskOf (fun i => match SMap.find a.dst i with
                         | some b => decide (b ≤ r) && decide (r < b + a.w)
                         | none => false) })

/-- Part of an access in some of its lanes. -/
def Acc.inLanes (a : Acc) (m : BitVec 32) : Acc :=
  { a with
    lanes := a.lanes &&& m, full := a.full && m == a.lanes
    addrs := a.addrs.filter (fun kv => m.getLsbD kv.1), data := a.data.filter (fun kv => m.getLsbD kv.1)
    data2 := a.data2.filter (fun kv => m.getLsbD kv.1), dst := a.dst.filter (fun kv => m.getLsbD kv.1) }

/-- The entry that makes an access runs in supervisor mode (R249). -/
def State.inRoutine (s : State) (a : Acc) : Bool :=
  match s.group a.grp with
  | some g => g.frame.busy && g.frame.frag == a.frag
  | none => false

/-- Put an access under way: its number, its record, the marks on its destination. -/
def State.track (s : State) (a : Acc) : State × Nat :=
  let id := s.nextId
  let s := s.bump.setAcc id { a with supv := s.inRoutine a }
  (s.modGroup a.grp (fun g => { g with pend := g.pend ++ a.pends id }), id)

/-- A wanted access of a peer's memory is not in the L1 (R291). -/
def State.needsPeer (s : State) (a : Acc) (mk : MK) (x : Xlat) : Bool :=
  isPeer x.home && (match mk with
    | .st _ => false
    | .at_ _ _ => a.region.kind == 3 || (lanesOf a.lanes).any (fun i => !s.l1Has a.core x (a.addr i) a.n)
    | _ => (lanesOf a.lanes).any (fun i => (SMap.find a.addrs i).isSome && !s.l1Has a.core x (a.addr i) a.n))

/-- Send the requests of a peer access: fills of the blocks it misses, or its atomics (R291). The access waits for them. -/
def State.askPeer (s : State) (a : Acc) (id : Nat) (mk : MK) (x : Xlat) : State :=
  let lanes := (lanesOf a.lanes).filter (fun i => (SMap.find a.addrs i).isSome)
  let win := peerIdx x.home
  let off (i : Nat) : Nat := peerOff (x.at (a.addr i))
  let h := hopsTo a.core x.home
  match mk, a.region.kind == 3 with
  | .at_ op w, true =>
    let s := lanes.foldl (fun s i => ((s.chargeMsg (payerOf a.grp) h).charge (payerOf a.grp) 19 1).peerSend a.vf win
      (.atomic (off i) w op.code (BitVec.ofNat 64 (a.dat i)) (BitVec.ofNat 64 (a.dat2 i))) id i i i) s
    s.setAcc id { a with st := .peer, left := lanes.length }
  | _, _ =>
    let blk := grainBytes x.grain
    let offs := (lanes.filter (fun i => !s.l1Has a.core x (a.addr i) a.n)).map off
    let bs := (blocksOf blk offs).flatMap (fun b => fillParts (b * blk) blk)
    let s := bs.foldl (fun s b => (s.chargeMsg (payerOf a.grp) h).peerSend a.vf win (.fill b.1 b.2) id 0 0 0) s
    s.setAcc id { a with st := .peer, left := bs.length }

/-- An A-kind atomic is to be acknowledged by its home (R105). -/
def State.owesAck (s : State) (a : Acc) (mk : MK) : State :=
  match mk with
  | .at_ _ _ =>
    if a.region.kind == 3 then
      let s := s.modCore a.core (fun c => { c with unacked := c.unacked ++ [(a.grp, a.region.handle)] })
      s.send (.atomicAcknowledgement a.core a.grp a.region.handle) (answerRoute (a.region.handle >>> 16 &&& 7).toNat a.core)
    else s
  | _ => s

/-- A result is awaited: the access stays under way until `loadComplete`. -/
def Acc.awaited (a : Acc) (mk : MK) : Bool :=
  match mk with
  | .ld _ => true
  | .cbld => true
  | _ => !a.dst.isEmpty

/-- A result is under way with what was read: it is written when it arrives (R23, R76). -/
def State.resultComes (s : State) (id : Nat) (a : Acc) (vs : SMap Nat) (bad : BitVec 32) (long : Bool) : State :=
  let a := { a with st := .data, res := a.words vs, poison := bad, long := long
                    book := a.book.map (fun b => (b.1, BitVec.ofNat 256 ((SMap.find vs (lowLane a.lanes)).getD 0))) }
  (s.setAcc id a).send (.loadComplete id)

/-- Perform a tracked access whose translation is known. -/
def State.performAll (s : State) (id : Nat) (a : Acc) (mk : MK) (x : Xlat) : State :=
  if s.needsPeer a mk x then s.askPeer a id mk x
  else
    let near := (match mk with | .at_ _ _ => a.region.kind == 1 | _ => true) &&
      a.addrs.all (fun ia => s.l1Has a.core x ia.2.toNat a.n)
    let (s, vs, bad) := s.perform a mk x
    let s := s.owesAck a mk
    if a.awaited mk then s.resultComes id a vs bad !near
    else { s with accs := SMap.del s.accs id }

/-! ## Faults of an access -/

def State.leafOf (s : State) (k : Nat) : Nat := match s.launch (launchOf k) with | some l => l.leaf | none => 0

/-- The fault record of an access (R146). -/
def Acc.record (a : Acc) (cause : BitVec 8) (reason : BitVec 4) (stage : Bool) : FaultRec :=
  { va := BitVec.ofNat 57 (match SMap.find a.addrs (lowLane a.lanes) with
      | some v => v.toNat
      | none => (match a.addrs with | iv :: _ => iv.2.toNat | [] => a.page * 65536))
    cause := cause, access := a.kind, reason := reason, vf := a.vf, part := a.part, ctx := a.grp
    die := dieOf a.core, core := a.core % 16, stage := stage, lanes := a.lanes, pc := a.pc }

/-- INFO of a memory fault: REASON and ACCESS (R247). -/
def faultInfo (reason : BitVec 4) (k : AccKind) : BitVec 32 := reason.setWidth 32 ||| BitVec.ofNat 32 (16 * k.code)

/-- A fault of an access joins the records that wait for a buffer record, and the access waits with it (R145). -/
def State.queueRecord (s : State) (id : Nat) (a : Acc) (reason : BitVec 4) (stage : Bool) : State :=
  let r := a.record 0x21 reason stage
  (s.modDie r.die (fun d => { d with waiting := d.waiting ++ [{ fault := r, acc := some id }] })).setAcc id
    { a with st := .record reason stage }

/-- A terminal fault whose record is taken is held for delivery (R248). -/
def State.heldFault (s : State) (id : Nat) (a : Acc) (reason : BitVec 4) : State :=
  (s.setAcc id { a with st := .fault 0x21 (faultInfo reason a.kind) }).modGroup a.grp (fun g => { g with held := g.held ++ [id] })

/-- A terminal fault of an access under way: recorded and held for delivery, or waiting at its access for a buffer record (R145). -/
def State.terminalAccess (s : State) (id : Nat) (a : Acc) (reason : BitVec 4) (stage : Bool) : State :=
  if (s.die (dieOf a.core)).roomFor a.part then (s.keepRecord (a.record 0x21 reason stage)).heldFault id a reason
  else s.queueRecord id a reason stage

/-- A terminal fault found at issue while no buffer record is free: the lanes stay at the access until it has one (R145). -/
def State.stayRecord (s : State) (a : Acc) (reason : BitVec 4) (stage : Bool) : State :=
  s.bump.queueRecord s.nextId { a with again := true, supv := s.inRoutine a } reason stage

/-- The host answers a request for some bytes with a completion error (R140, REASON 7; log 93). -/
def State.hostFails (s : State) (a n : Nat) : Bool :=
  isHost a && s.hostBad.any (fun r => decide (a < hostBase + r.1 + r.2) && decide (hostBase + r.1 < a + n))

/-- Lanes whose request to host memory ends in a completion error: reads that miss the L1, and atomics. -/
def State.hostFailing (s : State) (a : Acc) (mk : MK) (x : Xlat) : BitVec 32 :=
  match mk with
  | .st _ => 0
  | .at_ _ _ => maskOf (fun i => a.lanes.getLsbD i && s.hostFails (x.at (a.addr i)) a.n)
  | _ => maskOf (fun i => a.lanes.getLsbD i && s.hostFails (x.at (a.addr i)) a.n && !s.l1Has a.core x (a.addr i) a.n)

/-- Lanes of an access under way go on as an access of their own. -/
def State.splitAcc (s : State) (id : Nat) (a : Acc) (m : BitVec 32) : State × Nat :=
  let id' := s.nextId
  ((s.bump.setAcc id' (a.inLanes m)).modGroup a.grp (fun g => { g with
    pend := g.pend.flatMap (fun p =>
      if p.op = id then [{ p with lanes := p.lanes &&& ~~~m }, { p with op := id', lanes := p.lanes &&& m }].filter (fun p => p.lanes != 0)
      else [p]) }), id')

/-- Perform a tracked access whose translation is known; lanes whose request the host answers with an error fault (R140). -/
def State.performTracked (s : State) (id : Nat) (a : Acc) (mk : MK) (x : Xlat) : State :=
  let bad := s.hostFailing a mk x
  if bad == 0 then s.performAll id a mk x
  else
    let (s, id') := s.splitAcc id a bad
    let s := s.terminalAccess id' (a.inLanes bad) 7 false
    let good := a.inLanes (~~~bad)
    if good.lanes == 0 then { s with accs := SMap.del s.accs id } else s.performAll id good mk x

/-- Where an access that missed the TLBs goes (R144): it waits for a walk of its page, parks with a page that has faulted, or
waits for a page-miss entry. -/
def State.missState (s : State) (die vf va part : Nat) : State × AccSt :=
  match (s.die die).miss vf va with
  | some m => (s, if m.faulted then .parked else .walk)
  | none =>
    if s.mayTake die part then
      (s.modDie die (fun d => { d with misses := d.misses ++ [s.missEntry vf va part] }), .walk)
    else (s, .noEntry)

/-! ## The access of an instruction -/

/-- Lanes of a mask grouped by the 64 KiB unit of their address, in order of their lowest lanes. -/
def byUnit (ea : Nat → Nat) (m : BitVec 32) : List (Nat × BitVec 32) :=
  (lanesOf m).foldl (fun us i =>
    let p := unitOf (ea i)
    if us.any (fun u => u.1 == p) then us.map (fun u => if u.1 == p then (u.1, u.2 ||| 1#32 <<< i) else u)
    else us ++ [(p, 1#32 <<< i)]) []

/-- An open access of the group holds a later one (R156): it acquires, or touches a byte of it in the same lane. -/
def Acc.holds (a : Acc) (m : BitVec 32) (ea : Nat → Nat) (n : Nat) : Bool :=
  a.acq || (lanesOf (m &&& a.lanes)).any (fun i => decide (a.addr i < ea i + n) && decide (ea i < a.addr i + a.n))

/-- One page of a global access: state, parts of lanes that leave, or none where it must wait. -/
def Ctx.accessUnit (c : Ctx) (mk : MK) (a : Acc) (sp : State × List Part) : Option (State × List Part) :=
  let (s, ps) := sp
  let cls : BitVec 2 := if a.region.kind == 4 then 1 else 0
  let va := a.addr (lowLane a.lanes)
  let terminal (reason : BitVec 4) (stage : Bool) : Option (State × List Part) :=
    let r := a.record 0x21 reason stage
    if (s.die (dieOf a.core)).roomFor a.part then
      some (s.keepRecord r, ps ++ [c.trapPart a.lanes 0x21 r.va (faultInfo reason a.kind)])
    else some (s.stayRecord a reason stage, ps ++ [c.stayPart a.lanes])
  match if s.stale a.vf a.region then some (.term 8 false 0) else s.lookup a.core a.vf va with
  | some (.ok x _) =>
    (match x.deny (s.vf a.vf) (some cls) mk.need with
    | some (r, st) => terminal r st
    | none =>
      let badHost := isHost x.home && (match mk with | .at_ op _ => !hostAtomic op | _ => false)
      if badHost then terminal 7 false
      else
        let (s, id) := s.track a
        some (s.performTracked id a mk x, ps))
  | some (.term r stage _) => terminal r stage
  | some (.retry _ _ _) => none
  | none =>
    let (s, st) := s.missState (dieOf a.core) a.vf va a.part
    let (s, _) := s.track { a with st := st }
    some (s, if st == .parked then ps ++ [{ c.next with mask := a.lanes, st := .parked }] else ps)

/-- The access of acting lanes that passed every check, in translated memory. -/
def Ctx.accessGlobal (c : Ctx) (s : State) (mk : MK) (proto : Acc) (ea : Nat → Nat) (m : BitVec 32) : Option (State × List Part) :=
  if (s.openAccs c.k m).any (fun a => a.holds m ea proto.n) then none
  else
    (byUnit ea m).foldl (fun (o : Option (State × List Part)) um =>
      match o with
      | none => none
      | some sp =>
        let a := { proto with
          page := um.1, lanes := um.2
          addrs := proto.addrs.filter (fun kv => um.2.getLsbD kv.1), data := proto.data.filter (fun kv => um.2.getLsbD kv.1)
          data2 := proto.data2.filter (fun kv => um.2.getLsbD kv.1), dst := proto.dst.filter (fun kv => um.2.getLsbD kv.1)
          full := proto.full && um.2 == m }
        c.accessUnit mk a sp) (some (s, []))

/-- The access of acting lanes in local memory (R126): values by lane. -/
def Ctx.accessLocal (c : Ctx) (s : State) (mk : MK) (sp : LSpace) (a : Acc) (m : BitVec 32) : State × SMap Nat :=
  let lanes := (lanesOf m).filter (fun i => (SMap.find a.addrs i).isSome)
  let s := match mk with
    | .at_ _ _ => s.charge (payerOf c.k) (if sp == .dsp then 10 else 8) lanes.length
    | _ => s.chargeLocal c.k sp a.n (lanes.map (fun i => (i, a.addr i)))
  let (s, vs) := lanes.foldl (fun (sv : State × SMap Nat) i =>
    let (s, vs) := sv
    match mk with
    | .ld t => (s, SMap.put vs i (ldImage t (s.localLoad c.k i sp (a.addr i) a.n)))
    | .cbld => (s, SMap.put vs i (s.localLoad c.k i sp (a.addr i) a.n))
    | .st n => (s.localStore c.k i sp (a.addr i) n (a.dat i), vs)
    | .at_ op w =>
      let (s, old) := s.localAtomic c.k i sp (a.addr i) op w (a.dat i) (a.dat2 i)
      (s, SMap.put vs i old)) (s, [])
  (match mk with
    | .ld _ => s
    | .cbld => s
    | _ => s.wakeObjects, vs)

/-- The result of an access to a die scratchpad, which is long (R23, R76). -/
def State.farResult (s : State) (a : Acc) (vs : SMap Nat) : State :=
  let (s, id) := s.track a
  s.resultComes id ((SMap.find s.accs id).getD a) vs 0 true

/-- Refusals of R95 before the access: parts of refused lanes, the lanes left. `ea` may lie outside the region. -/
def Ctx.checkWith (c : Ctx) (s : State) (r : Region) (badKind : Bool) (ea : Nat → Int) (n algn : Nat) :
    State × List Part × BitVec 32 :=
  let first (m : BitVec 32) : Nat := (ea (lowLane m) % (2 ^ 57 : Int)).toNat
  if r.kind == 0 || r.pend then
    let (s, p) := c.refuse s c.lanes 0x0A (first c.lanes)
    (s, [p], 0)
  else if badKind then
    let (s, p) := c.refuse s c.lanes 0x08 (first c.lanes)
    (s, [p], 0)
  else
    let lo : Int := r.base.toNat
    let hi : Int := lo + r.len.toNat
    let out := maskOf (fun i => c.lanes.getLsbD i && (decide (ea i < lo) || decide (hi < ea i + n)))
    let firstOut (m : BitVec 32) : Nat :=
      let a := ea (lowLane m)
      ((if decide (a < lo) || decide (hi ≤ a) then a else hi) % (2 ^ 57 : Int)).toNat
    let (s, ps) := if out == 0 then (s, []) else
      let (s, p) := c.refuse s out 0x09 (firstOut out)
      (s, [p])
    let m := c.lanes &&& ~~~out
    let mis := maskOf (fun i => m.getLsbD i && ea i % (algn : Int) != 0)
    (s, if mis == 0 then ps else ps ++ [c.trapPart mis 0x10 (BitVec.ofNat 57 (first mis)) 0], m &&& ~~~mis)

/-- The checks of an access of a kind: what R92 permits, LENT, and no peer O register (R291). -/
def Ctx.check (c : Ctx) (s : State) (r : Region) (kind : AccKind) (ea : Nat → Int) (n algn : Nat) :
    State × List Part × BitVec 32 :=
  c.checkWith s r (!permits r.kind kind || r.lent || (r.kind == 4 && (apertureIdx r.base.toNat).isSome)) ea n algn

/-- First register of a destination in a lane. -/
def Ctx.dstReg (c : Ctx) (d : Option Dst) (i : Nat) : Option Nat :=
  match d with
  | some (.v n) => some n.toNat
  | some (.vx x k) => some (c.g.indexed x k i)
  | _ => none

/-- The operation raises DET_VIOLATION in a DET launch (R284). -/
def detAtomic (mk : MK) (kind : BitVec 4) : Bool :=
  match mk with
  | .at_ .addf _ => true
  | .at_ _ _ => kind == 3 || kind == 4 || kind == 10 || kind == 11
  | _ => false

def State.isDet (s : State) (k : Nat) : Bool := match s.launch (launchOf k) with | some l => l.desc.det | none => false

/-- A per-lane access through a region register. -/
def Ctx.access (c : Ctx) (s : State) (u : Use) (i : Instr) (mk : MK) (acq : Bool) (q : BitVec 4) (ea : Nat → Int)
    (dat dat2 : Nat → Nat) : Effect :=
  let r := c.g.reg q.toNat
  let (s, ps, m) := c.check s r mk.kind ea mk.bytes mk.bytes
  let refused := c.lanes &&& ~~~m
  let det := s.isDet c.k && detAtomic mk r.kind
  if m == 0 then some (s, ps ++ [{ c.next with mask := c.stay &&& ~~~refused }])
  else if det then some (s, ps ++ [c.trapPart m 0x28 0 0, { c.next with mask := c.stay &&& ~~~c.lanes }])
  else
    let lanes := lanesOf m
    let adr (i : Nat) : Nat := (ea i).toNat
    let proto : Acc :=
      { kind := mk.kind, use := .word i, vf := vfOf c.k, part := s.leafOf c.k, core := c.g.core, grp := c.k, pc := c.e.pc
        page := 0, lanes := m, addrs := lanes.map (fun i => (i, BitVec.ofNat 57 (adr i)))
        data := (match mk with | .ld _ => [] | _ => lanes.map (fun i => (i, BitVec.ofNat 128 (dat i))))
        data2 := (match mk with | .at_ .cas _ => lanes.map (fun i => (i, BitVec.ofNat 128 (dat2 i))) | _ => [])
        region := r, frag := c.e.frag, issue := c.id, n := mk.bytes, acq := acq
        dst := lanes.filterMap (fun i => (c.dstReg u.dst i).map (fun d => (i, d))), w := u.dw
        full := c.full u && m == c.lanes }
    match LSpace.ofKind r.kind with
    | some sp =>
      let (s, vs) := c.accessLocal s mk sp proto m
      let s := if sp == .dsp && proto.awaited mk then s.farResult proto vs
        else { c with lanes := m }.write u s (fun i => (SMap.find vs i).getD 0)
      some (s, ps ++ [{ c.next with mask := c.stay &&& ~~~refused }])
    | none =>
      match c.accessGlobal s mk proto adr m with
      | none => none
      | some (s, qs) =>
        let left := qs.foldl (fun m p => m ||| p.mask) 0
        some (s, ps ++ qs ++ [{ c.next with mask := c.stay &&& ~~~refused &&& ~~~left }])

end Sys2Proof.Machine
end

