-- ==== Sys2Proof/Machine/Record.lean ====
section
/-! DEFINITION. The header of a context record as bytes (R60 to R63, R41, R91, R247): what a supervisor routine reads and
writes (R341), what a debugger reads and writes (R342), and the checks of an activation (R42, R94). -/

namespace Sys2Proof.Machine

open Sys2Proof

/-! ## Entries, regions and frames from bits -/

/-- The entry of 128 bits: none for FREE, which must be all zero, `some none` for a reserved STATE. -/
def Entry.ofBits (v : Nat) : Option (Option Entry) :=
  let st : Option EState := match fld v 72 3 with
    | 1 => some .ready
    | 2 => some .conv
    | 3 => some .parked
    | 4 => some .blocked
    | _ => none
  if v = 0 then none
  else match st with
    | none => some none
    | some st =>
      if fld v 63 1 != 0 then some none
      else some (some { pc := BitVec.ofNat 57 v, fr := fld v 57 1 == 1, fseq := BitVec.ofNat 5 (fld v 58 5)
                        prio := BitVec.ofNat 8 (fld v 64 8), st := st, frag := BitVec.ofNat 5 (fld v 75 5)
                        parent := BitVec.ofNat 5 (fld v 80 5), skip := BitVec.ofNat 11 (fld v 85 11)
                        mask := BitVec.ofNat 32 (fld v 96 32) })

/-- The region register of 256 bits; none where R94 finds it invalid. -/
def Region.ofBits (v : Nat) : Option Region :=
  let r : Region :=
    { base := BitVec.ofNat 57 v, len := BitVec.ofNat 40 (fld v 64 40), kind := BitVec.ofNat 4 (fld v 104 4)
      grain := BitVec.ofNat 2 (fld v 108 2), handle := BitVec.ofNat 24 (fld v 112 24), lent := fld v 136 1 == 1
      part := fld v 137 1 == 1, orph := fld v 138 1 == 1, pend := fld v 139 1 == 1, ph := fld v 140 1 == 1
      nm1 := BitVec.ofNat 8 (fld v 141 8), pidx := BitVec.ofNat 8 (fld v 149 8), pgrp := BitVec.ofNat 16 (fld v 157 16)
      pq := BitVec.ofNat 4 (fld v 173 4), mboff := BitVec.ofNat 19 (fld v 177 19), drv := fld v 196 1 == 1 }
  let reserved := (decide (5 ≤ r.kind.toNat) && decide (r.kind.toNat ≤ 7)) || decide (12 ≤ r.kind.toNat)
  if reserved || fld v 57 7 != 0 || fld v 110 2 != 0 || fld v 197 59 != 0 || (r.len == 0 && r.kind != 0) ||
      decide (1 < b2n r.lent + b2n r.part + b2n r.pend) then none
  else some r

def Frame.ofBits (v : Nat) : Frame :=
  { cause := BitVec.ofNat 8 v, impr := fld v 8 1 == 1, pv := fld v 9 1 == 1, busy := fld v 10 1 == 1, dbg := fld v 11 1 == 1
    frag := BitVec.ofNat 5 (fld v 16 5), parent := BitVec.ofNat 5 (fld v 21 5), lanes := BitVec.ofNat 32 (fld v 32 32)
    sibs := BitVec.ofNat 32 (fld v 64 32), skid := BitVec.ofNat 6 (fld v 96 6), prio := BitVec.ofNat 8 (fld v 104 8)
    pc := BitVec.ofNat 57 (fld v 128 57), rpc := BitVec.ofNat 57 (fld v 192 57), faddr := BitVec.ofNat 57 (fld v 256 57)
    info := BitVec.ofNat 32 (fld v 320 32), save := BitVec.ofNat 512 (fld v 512 512) }

/-- Write one of the registers of R467, reserved bits and sr.status bit 3 ignored (R180, R335, R340). -/
def Group.putSr (g : Group) (r : WReg) (v : BitVec 32) : Group :=
  match r with
  | .fmode => { g with fmode := v &&& 0x1FFF }
  | .status => { g with status := v &&& 7 }
  | .xlim => { g with xlim := v &&& 0x01FF01FF }

/-- A byte written into the header by a supervisor routine (R341), outside the region registers. -/
def Group.putHdrByte (g : Group) (o : Nat) (b : Byte) : Group :=
  let w32 (v : BitVec 32) : BitVec 32 := BitVec.ofNat 32 (setByte v.toNat (o % 4) b)
  if o < 0x200 then g
  else if o < 0x400 then { g with s := Store.wr g.s ((o - 0x200) / 4) (w32 (g.sreg ((o - 0x200) / 4))) }
  else if o < 0x800 then g
  else if o < 0x81C then { g with p := Store.wr g.p ((o - 0x800) / 4) (w32 (Store.rd g.p ((o - 0x800) / 4))) }
  else if o < 0x820 then g.putSr .fmode (w32 g.fmode)
  else if o < 0x824 then g.putSr .status (w32 g.status)
  else if o < 0x828 then g.putSr .xlim (w32 g.xlim)
  else if o < 0x880 then g
  else if o < 0x980 then
    let k := (o - 0x880) / 64 * 32 + (o - 0x880) % 64 / 2
    { g with x := Store.wr g.x k (BitVec.ofNat 16 (setByte (Store.rd g.x k).toNat (o % 2) b)) }
  else if o < 0xA00 then
    let i := o - 0x980
    if (24 ≤ i && i < 32) || (40 ≤ i && i < 44) || 64 ≤ i then
      { g with frame := Frame.ofBits (setByte g.frame.bits i b) }
    else g
  else g

/-- A supervisor write of `n` bytes into the header: none where it makes a region register invalid (R341). -/
def Group.putHdr (g : Group) (o n v : Nat) : Option Group :=
  if 0x400 ≤ o && o < 0x600 then
    let q := (o - 0x400) / 32
    match Region.ofBits (setBytes (g.reg q).bits (o % 32) n v) with
    | some r => some (g.setReg q r)
    | none => none
  else some ((List.range n).foldl (fun g i => g.putHdrByte (o + i) (byteAt v i)) g)

/-! ## The header that an activation loads (R42, R94, R322, R342) -/

/-- Offsets below 0xAE0 at which the record's bytes differ from those that the device wrote. -/
def Group.rewritten (g : Group) (m : Store 8) : List Nat :=
  if m == g.wrote then []
  else ((SMap.keys m ++ SMap.keys g.wrote).filter (fun o => decide (o < 0xAE0) && Store.rd m o != Store.rd g.wrote o)).eraseDups

/-- The header as the next activation sees it: the live one, with the bytes that a debugger or the monitor has written. -/
def Group.shown (g : Group) (m : Store 8) : Store 8 :=
  Store.wrs g.header ((g.rewritten m).map (fun o => (o, Store.rd m o)))

/-- Entry of a frontier at which its invariants first fail (R42). -/
def firstBad (l : List Entry) : Nat := ((List.range l.length).find? (fun n => !frontierOk (l.take (n + 1)))).getD 0

/-- The registers and entries that a header holds: the group, or the offset of the first entry or register that makes it invalid
(R42, R94). -/
def Group.loadRegs (g : Group) (h : Store 8) : Group ⊕ Nat :=
  let raw := (List.range 32).map (fun i => (i, Entry.ofBits (Store.load h (16 * i) 16)))
  let es := raw.filterMap (fun ie => match ie.2 with | some (some e) => some e | _ => none)
  let used := (raw.filter (fun ie => ie.2.isSome)).length
  let badEntry := raw.find? (fun ie => match ie.2 with
    | some none => true
    | some (some _) => decide (used ≤ ie.1)
    | none => decide (ie.1 < used))
  let regs := (List.range 16).map (fun q => (q, Region.ofBits (Store.load h (0x400 + 32 * q) 32)))
  let word (o : Nat) : BitVec 32 := BitVec.ofNat 32 (Store.load h o 4)
  match badEntry with
  | some ie => .inr (16 * ie.1)
  | none =>
    if !frontierOk es then .inr (16 * firstBad es)
    else match regs.find? (fun qr => qr.2.isNone) with
      | some qr => .inr (0x400 + 32 * qr.1)
      | none => .inl { regs.foldl (fun g qr => g.setReg qr.1 (qr.2.getD {})) g with
          entries := es
          s := unpacked 128 (fun i => Store.load h (0x200 + 4 * i) 4)
          p := unpacked 7 (fun i => Store.load h (0x800 + 4 * i) 4)
          x := unpacked 128 (fun i => Store.load h (0x880 + 2 * i) 2)
          fmode := word 0x81C &&& 0x1FFF
          status := word 0x820 &&& 7
          xlim := word 0x824 &&& 0x01FF01FF
          frame := Frame.ofBits (Store.load h 0x980 128)
          dead := BitVec.ofNat 256 (Store.load h 0xA00 32)
          saved := g.saved.map (fun (ls : Nat × Store 32) => (ls.1, unpacked 32 (fun i => Store.load h (0x600 + 128 * ls.1 + 4 * i) 4))) }

/-- The wake records that a header holds: those freed wake their entries, the others are kept; the offset of a record with another
value, which breaks the frontier (R342). -/
def Group.loadWakes (g : Group) (h : Store 8) : Group ⊕ Nat :=
  let recs := (List.range 8).map (fun i => (i, fld (Store.load h (0xA20 + 24 * i) 24) 0 4, g.wakes.find? (fun w => w.slot == i)))
  match recs.find? (fun r => r.2.1 != 0 && !r.2.2.any (fun w => w.code.toNat == r.2.1)) with
  | some r => .inr (0xA20 + 24 * r.1)
  | none => .inl ((recs.filterMap (fun r => if r.2.1 = 0 then r.2.2 else none)).foldl (fun g w => g.wake w.frag none) g)

/-- The header of a record loaded: the group, or the offset of what makes it invalid. -/
def Group.loadHeader (g : Group) (m : Store 8) : Group ⊕ Nat :=
  if (g.rewritten m).isEmpty then (if frontierOk g.entries then .inl g else .inr (16 * firstBad g.entries))
  else
    let h := g.shown m
    match g.loadRegs h with
    | .inr o => .inr o
    | .inl g => g.loadWakes h

/-! ## LD.SUPV and ST.SUPV (R341) -/

/-- A supervisor access lies in the record. -/
def Group.inRecord (g : Group) (ea : Int) (n : Nat) : Bool :=
  decide (0 ≤ ea) && decide (ea + n ≤ ((0xC00 + 128 * g.bud : Nat) : Int))

/-- Vector register of an offset of the record, if it is one. -/
def recReg (o : Nat) : Option Nat := if 0xC00 ≤ o then some ((o - 0xC00) / 128) else none

/-- Read `n` bytes of the trapping group's record. -/
def State.supvRead (s : State) (k : Nat) (g : Group) (o n : Nat) : Nat :=
  match recReg o with
  | some r => ofBytes ((List.range n).map (fun i =>
      let b := o - 0xC00 + i
      byteAt (Store.rd (s.regData k g r) (b % 128 / 4)).toNat (b % 4)))
  | none => Store.load (g.header true) o n

/-- Write `n` bytes of it; none where a region register becomes invalid. -/
def State.supvWrite (s : State) (k o n v : Nat) : Option State :=
  match s.group k with
  | none => some s
  | some g =>
    match recReg o with
    | some r =>
      let b := (o - 0xC00) % 128
      let lanes := ((List.range n).map (fun i => (b + i) / 4)).eraseDups
      let old := s.regData k g r
      let vals := lanes.map (fun i =>
        let at_ := (List.range 4).foldl (fun w j =>
          let p := 4 * i + j
          if b ≤ p && p < b + n then setByte w j (byteAt v (p - b)) else w) (Store.rd old i).toNat
        (i, BitVec.ofNat 32 at_))
      some (s.writeReg k r false vals)
    | none => (g.putHdr o n v).map (fun g => s.setGroup k g)

end Sys2Proof.Machine
end

