-- ==== Sys2Proof/Machine/Memory.lean ====
section
/-! DEFINITION. Meanings of LD, ST, PREF, CBLD, ATOM, RED and CAS (R368, R369, R380, R383, R413, R414, R429, R430, R436, R437,
R456, R457). -/

namespace Sys2Proof.Machine

open Sys2Proof

/-- The address of a memory operand in a lane (R364): the sum is exact. -/
def Ctx.ea (c : Ctx) (s : State) (base : Nat) (off : SrcUse) (imm : BitVec 22) (i : Nat) : Int :=
  (base : Int) + c.val s off i + imm.toInt

/-- The address of an operand through a region register. -/
def Ctx.memEa (c : Ctx) (s : State) (m : MemOp) (i : Nat) : Int :=
  c.ea s (c.g.reg m.q.toNat).base.toNat (srcIn 0 m.off) m.imm i

/-! ## LD and ST -/

def ldWidth (t : LdTy) : Nat :=
  match t with
  | .b64 => 2
  | .b128 => 4
  | _ => 1

def stBytes (t : StTy) : Nat :=
  match t with
  | .z8 => 1
  | .z16 => 2
  | .b32 => 4
  | .b64 => 8
  | .b128 => 16

def stWidth (t : StTy) : Nat :=
  match t with
  | .b64 => 2
  | .b128 => 4
  | _ => 1

def opLd (c : Ctl) (t : LdTy) (d : Option Dst) (m : MemOp) : Op :=
  let u : Use := { g := c.g, lu := c.lu, srcs := [srcIn 0 m.off], dst := d, dw := ldWidth t, cls := some 0, touches := true }
  word u (fun x s => x.access s u (.ld c t d m) (.ld t) false m.q (x.memEa s m) (fun _ => 0) (fun _ => 0))
def execLd (c : Ctl) (t : LdTy) (d : Option Dst) (m : MemOp) (s : State) : Host.Outcome State Fault Refusal :=
  (opLd c t d m).run s

def opSt (c : Ctl) (t : StTy) (m : MemOp) (b : Src) : Op :=
  let sb := srcIn 1 b (stWidth t)
  let u : Use := { g := c.g, lu := c.lu, srcs := [srcIn 0 m.off, sb], cls := some 0, touches := true }
  word u (fun x s => x.access s u (.st c t m b) (.st (stBytes t)) false m.q (x.memEa s m) (x.val s sb) (fun _ => 0))
def execSt (c : Ctl) (t : StTy) (m : MemOp) (b : Src) (s : State) : Host.Outcome State Fault Refusal :=
  (opSt c t m b).run s

/-- A supervisor access waits for the fills of the registers that it reads in the record (R66, R341). -/
def Ctx.supvFills (c : Ctx) (s : State) (ea : Nat → Int) (f : State → Effect) : Effect :=
  match ((lanesOf c.lanes).filterMap (fun i => recReg (ea i).toNat)).filter (fun n => c.g.absent n || c.g.filling n) with
  | [] => f s
  | n :: ns => (s.group c.k).bind (fun g => (s.waitFill c.k g c.e n ns).map (fun s => (s, [])))

/-- Checks of a supervisor access (R341): a kill outside the record or off its alignment. -/
def Ctx.supvBad (c : Ctx) (ea : Nat → Int) (n : Nat) : Option Part :=
  let lanes := lanesOf c.lanes
  match lanes.find? (fun i => !c.g.inRecord (ea i) n) with
  | some i => some (c.trapPart c.lanes 0x21 (BitVec.ofInt 57 (ea i)) 0)
  | none => (lanes.find? (fun i => ea i % (n : Int) != 0)).map (fun i => c.trapPart c.lanes 0x10 (BitVec.ofInt 57 (ea i)) 0)

/-- A vector register of the record that the access reaches awaits a load. -/
def Ctx.supvWaits (c : Ctx) (ea : Nat → Int) : Bool :=
  (lanesOf c.lanes).any (fun i => match recReg (ea i).toNat with
    | some r => c.g.pend.any (fun p => p.reg == .v r)
    | none => false)

def opLdSupv (c : Ctl) (t : LdTy) (d : Option Dst) (off : Src) (imm : BitVec 22) : Op :=
  let so := srcIn 0 off
  let u : Use := { g := c.g, lu := c.lu, srcs := [so], dst := d, dw := ldWidth t, cls := some 0, mode := some true }
  word u (fun x s =>
    let ea := x.ea s 0 so imm
    let n := ldBytes t
    match x.supvBad ea n with
    | some p => some (s, [p])
    | none =>
      if x.supvWaits ea then none
      else
        x.supvFills s ea (fun s => x.done (x.write u s (fun i => ldImage t (s.supvRead x.k x.g (ea i).toNat n)))))
def execLdSupv (c : Ctl) (t : LdTy) (d : Option Dst) (off : Src) (imm : BitVec 22) (s : State) : Host.Outcome State Fault Refusal :=
  (opLdSupv c t d off imm).run s

def opStSupv (c : Ctl) (t : StTy) (off : Src) (imm : BitVec 22) (b : Src) : Op :=
  let so := srcIn 0 off
  let sb := srcIn 1 b (stWidth t)
  let u : Use := { g := c.g, lu := c.lu, srcs := [so, sb], cls := some 0, mode := some true }
  word u (fun x s =>
    let ea := x.ea s 0 so imm
    let n := stBytes t
    match x.supvBad ea n with
    | some p => some (s, [p])
    | none =>
      if x.supvWaits ea then none
      else
        let write (s : State) : Effect :=
          let r := (lanesOf x.lanes).foldl (fun (o : Option State) i =>
            o.bind (fun s => s.supvWrite x.k (ea i).toNat n (x.val s sb i % 2 ^ (8 * n)))) (some s)
          match r with
          | some s => x.done s
          | none => some (s.kill (launchOf x.k) 0x22 false, [x.next])
        -- a part of a word takes the rest of it from the register
        if n < 4 then x.supvFills s ea write else write s)
def execStSupv (c : Ctl) (t : StTy) (off : Src) (imm : BitVec 22) (b : Src) (s : State) : Host.Outcome State Fault Refusal :=
  (opStSupv c t off imm b).run s

/-! ## PREF -/

/-- The lanes that a prefetch refuses: checks 1 to 3 of R95 on the byte at the address. -/
def Ctx.prefetch (c : Ctx) (s : State) (m : MemOp) (l2 : Bool) : Effect :=
  let r := c.g.reg m.q.toNat
  let ea := c.memEa s m
  let (s, ps, ok) := c.check s r .load ea 1 1
  let refused := c.lanes &&& ~~~ok
  let rest := { c.next with mask := c.stay &&& ~~~refused }
  if (LSpace.ofKind r.kind).isSome then some (s, ps ++ [rest])
  else
    let cls : BitVec 2 := if r.kind == 4 then 1 else 0
    let vf := vfOf c.k
    -- requests that the device drops (R430)
    let lanes := (lanesOf ok).filter (fun i => !Config.freeBool s.tick i)
    let s := (blocksOf 512 (lanes.map (fun i => (ea i).toNat))).foldl (fun s b =>
      let vas := (lanes.map (fun i => (ea i).toNat)).filter (fun a => a / 512 == b)
      match s.lookup c.g.core vf (b * 512) with
      | some (.ok x _) =>
        if (x.deny (s.vf vf) (some cls) .ld).isSome || isPeer x.home || vas.any (fun a => s.hostFails (x.at a) 1) then s
        else
          let leaf := s.leafOf c.k
          if l2 then
            if isHost x.home then s
            else
              let n := grainBytes x.grain
              let m := vas.foldl (fun m a => m ||| bitsAt (x.at a % 512 - x.at a % n) n) 0
              (s.chargeMsg (payerOf c.k) (hopsTo c.g.core x.home)).l2Access (payerOf c.k) leaf (x.at (b * 512) / 512) m false
          else s.l1Fills (payerOf c.k) leaf c.g.core x vas 1
      | _ => s) s
    some (s, ps ++ [rest])

def opPrefL1 (c : Ctl) (m : MemOp) : Op :=
  word { g := c.g, lu := c.lu, srcs := [srcIn 0 m.off], cls := some 0, touches := true } (fun x s => x.prefetch s m false)
def execPrefL1 (c : Ctl) (m : MemOp) (s : State) : Host.Outcome State Fault Refusal :=
  (opPrefL1 c m).run s
def opPrefL2 (c : Ctl) (m : MemOp) : Op :=
  word { g := c.g, lu := c.lu, srcs := [srcIn 0 m.off], cls := some 0, touches := true } (fun x s => x.prefetch s m true)
def execPrefL2 (c : Ctl) (m : MemOp) (s : State) : Host.Outcome State Fault Refusal :=
  (opPrefL2 c m).run s

/-! ## CBLD -/

/-- Put the 32 bytes of a codebook into a slot (R177). -/
def State.putBook (s : State) (core slot : Nat) (v : Nat) : State :=
  s.modCore core (fun c => { c with
    books := Store.wrs c.books ((List.range 16).map (fun i => (slot * 16 + i, BitVec.ofNat 16 (v / 2 ^ (16 * i))))) })

/-- A group that stands in a landing slot, or did before its core was evicted (R258, R259). -/
def State.isGuest (_s : State) (_k : Nat) (g : Group) : Bool := g.res == .guest

def opCbld (c : Ctl) (m : MemOp) (sk : Src) : Op :=
  let so := { srcIn 0 m.off with uni := true }
  let ss := srcIn 1 sk
  let u : Use := { g := c.g, lu := c.lu, srcs := [so, ss], cls := some 4, touches := true }
  word u (fun x s =>
    let k := x.uni s ss
    let r := x.g.reg m.q.toNat
    let a := x.ea s r.base.toNat so m.imm (lowLane x.lanes)
    if 15 < k then x.trapCmd s 0x11 0
    else
      let (s', ps, ok) := x.check s r .load (fun _ => a) 32 32
      let fall := { x.next with mask := x.stay &&& ~~~x.lanes }
      if ok == 0 then some (s', ps ++ [fall])
      else if s.isGuest x.k x.g then x.trapCmd s 0x16 0
      else if s.bookPending x.k k then none
      else
        let lane := lowLane x.lanes
        let proto : Acc :=
          { kind := .load, use := .word (.cbld c m sk), vf := vfOf x.k, part := s.leafOf x.k, core := x.g.core, grp := x.k
            pc := x.e.pc, page := 0, lanes := x.lanes, addrs := [(lane, BitVec.ofInt 57 a)], region := r, frag := x.e.frag
            issue := x.id, n := 32, book := some (k, 0) }
        match LSpace.ofKind r.kind with
        | some sp =>
          let (s, vs) := x.accessLocal s .cbld sp proto x.lanes
          x.done (if sp == .dsp then s.farResult proto vs else s.putBook x.g.core k ((SMap.find vs lane).getD 0))
        | none =>
          match x.accessGlobal s .cbld proto (fun _ => a.toNat) x.lanes with
          | none => none
          | some (s, qs) =>
            let left := qs.foldl (fun m p => m ||| p.mask) 0
            some (s, qs ++ [{ x.next with mask := x.stay &&& ~~~left }]))
def execCbld (c : Ctl) (m : MemOp) (sk : Src) (s : State) : Host.Outcome State Fault Refusal :=
  (opCbld c m sk).run s

/-! ## ATOM, RED, CAS -/

def acqOf (o : MOrd) : Bool :=
  match o with
  | .acq => true
  | .acqrel => true
  | _ => false

def relOf (o : MOrd) : Bool :=
  match o with
  | .rel => true
  | .acqrel => true
  | _ => false

/-- A SYSTEM scope where the VF policy clamps it sets CLAMP (R154). -/
def State.clamped (s : State) (k : Nat) (sc : Scope) : State :=
  if sc == .system && (s.vf (vfOf k)).clamp then s.setStatus k 1 else s

/-- An atomic with its operand, ordering and scope. -/
def atomic (i : Instr) (c : Ctl) (acq rel : Bool) (sc : Scope) (op : AOp) (wide : Bool) (d : Option Dst) (m : MemOp)
    (b : Src) (nv : Option Src) : Op :=
  let w := if wide then 2 else 1
  let ty : OTy := match op with
    | .addf => .f32
    | _ => if wide then .z64 else .i32
  let sb := srcIn 1 b w ty
  let sn := nv.map (fun n => srcIn 2 n w ty)
  let u : Use := { g := c.g, lu := c.lu, srcs := [srcIn 0 m.off, sb] ++ sn.toList, dst := d, dw := w, cls := some 0, touches := true, order := rel }
  word u (fun x s =>
    match x.access s u i (.at_ op wide) acq m.q (x.memEa s m) (x.val s sb)
        (fun i => match sn with | some n => x.val s n i | none => 0) with
    | none => none
    | some (s, ps) =>
      let trapped := ps.foldl (fun m p => if p.trap.isSome then m ||| p.mask else m) 0
      some (if x.lanes &&& ~~~trapped == 0 then s else s.clamped x.k sc, ps))

def minOp (uns : Bool) : AOp := if uns then .minZ else .minS
def maxOp (uns : Bool) : AOp := if uns then .maxZ else .maxS

def opAtomAdd (c : Ctl) (o : MOrd) (sc : Scope) (wide : Bool) (d : Option Dst) (m : MemOp) (b : Src) : Op :=
  atomic (.atomAdd c o sc wide d m b) c (acqOf o) (relOf o) sc .add wide d m b none
def execAtomAdd (c : Ctl) (o : MOrd) (sc : Scope) (wide : Bool) (d : Option Dst) (m : MemOp) (b : Src) (s : State) : Host.Outcome State Fault Refusal :=
  (opAtomAdd c o sc wide d m b).run s
def opAtomMin (c : Ctl) (o : MOrd) (sc : Scope) (uns : Bool) (d : Option Dst) (m : MemOp) (b : Src) : Op :=
  atomic (.atomMin c o sc uns d m b) c (acqOf o) (relOf o) sc (minOp uns) false d m b none
def execAtomMin (c : Ctl) (o : MOrd) (sc : Scope) (uns : Bool) (d : Option Dst) (m : MemOp) (b : Src) (s : State) : Host.Outcome State Fault Refusal :=
  (opAtomMin c o sc uns d m b).run s
def opAtomMax (c : Ctl) (o : MOrd) (sc : Scope) (uns : Bool) (d : Option Dst) (m : MemOp) (b : Src) : Op :=
  atomic (.atomMax c o sc uns d m b) c (acqOf o) (relOf o) sc (maxOp uns) false d m b none
def execAtomMax (c : Ctl) (o : MOrd) (sc : Scope) (uns : Bool) (d : Option Dst) (m : MemOp) (b : Src) (s : State) : Host.Outcome State Fault Refusal :=
  (opAtomMax c o sc uns d m b).run s
def opAtomAnd (c : Ctl) (o : MOrd) (sc : Scope) (wide : Bool) (d : Option Dst) (m : MemOp) (b : Src) : Op :=
  atomic (.atomAnd c o sc wide d m b) c (acqOf o) (relOf o) sc .and wide d m b none
def execAtomAnd (c : Ctl) (o : MOrd) (sc : Scope) (wide : Bool) (d : Option Dst) (m : MemOp) (b : Src) (s : State) : Host.Outcome State Fault Refusal :=
  (opAtomAnd c o sc wide d m b).run s
def opAtomOr (c : Ctl) (o : MOrd) (sc : Scope) (wide : Bool) (d : Option Dst) (m : MemOp) (b : Src) : Op :=
  atomic (.atomOr c o sc wide d m b) c (acqOf o) (relOf o) sc .or wide d m b none
def execAtomOr (c : Ctl) (o : MOrd) (sc : Scope) (wide : Bool) (d : Option Dst) (m : MemOp) (b : Src) (s : State) : Host.Outcome State Fault Refusal :=
  (opAtomOr c o sc wide d m b).run s
def opAtomXor (c : Ctl) (o : MOrd) (sc : Scope) (wide : Bool) (d : Option Dst) (m : MemOp) (b : Src) : Op :=
  atomic (.atomXor c o sc wide d m b) c (acqOf o) (relOf o) sc .xor wide d m b none
def execAtomXor (c : Ctl) (o : MOrd) (sc : Scope) (wide : Bool) (d : Option Dst) (m : MemOp) (b : Src) (s : State) : Host.Outcome State Fault Refusal :=
  (opAtomXor c o sc wide d m b).run s
def opAtomExch (c : Ctl) (o : MOrd) (sc : Scope) (wide : Bool) (d : Option Dst) (m : MemOp) (b : Src) : Op :=
  atomic (.atomExch c o sc wide d m b) c (acqOf o) (relOf o) sc .exch wide d m b none
def execAtomExch (c : Ctl) (o : MOrd) (sc : Scope) (wide : Bool) (d : Option Dst) (m : MemOp) (b : Src) (s : State) : Host.Outcome State Fault Refusal :=
  (opAtomExch c o sc wide d m b).run s
def opAtomAddf (c : Ctl) (o : MOrd) (sc : Scope) (d : Option Dst) (m : MemOp) (b : Src) : Op :=
  atomic (.atomAddf c o sc d m b) c (acqOf o) (relOf o) sc .addf false d m b none
def execAtomAddf (c : Ctl) (o : MOrd) (sc : Scope) (d : Option Dst) (m : MemOp) (b : Src) (s : State) : Host.Outcome State Fault Refusal :=
  (opAtomAddf c o sc d m b).run s

def rrel (o : ROrd) : Bool :=
  match o with
  | .rel => true
  | .relaxed => false

def opRedAdd (c : Ctl) (o : ROrd) (sc : Scope) (wide : Bool) (m : MemOp) (b : Src) : Op :=
  atomic (.redAdd c o sc wide m b) c false (rrel o) sc .add wide none m b none
def execRedAdd (c : Ctl) (o : ROrd) (sc : Scope) (wide : Bool) (m : MemOp) (b : Src) (s : State) : Host.Outcome State Fault Refusal :=
  (opRedAdd c o sc wide m b).run s
def opRedMin (c : Ctl) (o : ROrd) (sc : Scope) (uns : Bool) (m : MemOp) (b : Src) : Op :=
  atomic (.redMin c o sc uns m b) c false (rrel o) sc (minOp uns) false none m b none
def execRedMin (c : Ctl) (o : ROrd) (sc : Scope) (uns : Bool) (m : MemOp) (b : Src) (s : State) : Host.Outcome State Fault Refusal :=
  (opRedMin c o sc uns m b).run s
def opRedMax (c : Ctl) (o : ROrd) (sc : Scope) (uns : Bool) (m : MemOp) (b : Src) : Op :=
  atomic (.redMax c o sc uns m b) c false (rrel o) sc (maxOp uns) false none m b none
def execRedMax (c : Ctl) (o : ROrd) (sc : Scope) (uns : Bool) (m : MemOp) (b : Src) (s : State) : Host.Outcome State Fault Refusal :=
  (opRedMax c o sc uns m b).run s
def opRedAnd (c : Ctl) (o : ROrd) (sc : Scope) (wide : Bool) (m : MemOp) (b : Src) : Op :=
  atomic (.redAnd c o sc wide m b) c false (rrel o) sc .and wide none m b none
def execRedAnd (c : Ctl) (o : ROrd) (sc : Scope) (wide : Bool) (m : MemOp) (b : Src) (s : State) : Host.Outcome State Fault Refusal :=
  (opRedAnd c o sc wide m b).run s
def opRedOr (c : Ctl) (o : ROrd) (sc : Scope) (wide : Bool) (m : MemOp) (b : Src) : Op :=
  atomic (.redOr c o sc wide m b) c false (rrel o) sc .or wide none m b none
def execRedOr (c : Ctl) (o : ROrd) (sc : Scope) (wide : Bool) (m : MemOp) (b : Src) (s : State) : Host.Outcome State Fault Refusal :=
  (opRedOr c o sc wide m b).run s
def opRedXor (c : Ctl) (o : ROrd) (sc : Scope) (wide : Bool) (m : MemOp) (b : Src) : Op :=
  atomic (.redXor c o sc wide m b) c false (rrel o) sc .xor wide none m b none
def execRedXor (c : Ctl) (o : ROrd) (sc : Scope) (wide : Bool) (m : MemOp) (b : Src) (s : State) : Host.Outcome State Fault Refusal :=
  (opRedXor c o sc wide m b).run s
def opRedAddf (c : Ctl) (o : ROrd) (sc : Scope) (m : MemOp) (b : Src) : Op :=
  atomic (.redAddf c o sc m b) c false (rrel o) sc .addf false none m b none
def execRedAddf (c : Ctl) (o : ROrd) (sc : Scope) (m : MemOp) (b : Src) (s : State) : Host.Outcome State Fault Refusal :=
  (opRedAddf c o sc m b).run s

/-- CAS (R380). -/
def opCas (c : Ctl) (o : MOrd) (sc : Scope) (wide : Bool) (d : Option Dst) (m : MemOp) (cv nv : Src) : Op :=
  atomic (.cas c o sc wide d m cv nv) c (acqOf o) (relOf o) sc .cas wide d m cv (some nv)
def execCas (c : Ctl) (o : MOrd) (sc : Scope) (wide : Bool) (d : Option Dst) (m : MemOp) (cv nv : Src) (s : State) : Host.Outcome State Fault Refusal :=
  (opCas c o sc wide d m cv nv).run s

end Sys2Proof.Machine
end

