-- ==== Sys2Proof/Machine/Tensor.lean ====
section
/-! DEFINITION. Layout words and swizzle tags (R127, R128, R196, R197), LDF and STF (R415, R416, R458, R459), the accumulator
store (R210 to R214, R366, R367). -/

namespace Sys2Proof.Machine

open Sys2Proof

/-! ## Layout words -/

/-- Span code, element width code, transposition and pitch in bytes of a layout word (R196). -/
def laySpan (l : Nat) : Nat := fld l 0 3
def layEw (l : Nat) : Nat := fld l 3 4
def layT (l : Nat) : Bool := fld l 7 1 == 1
def layPitch (l : Nat) : Nat := 16 * fld l 8 8

/-- A layout word is malformed for a matrix of `rows` by `cols` elements of `w` bits (R196). -/
def layBad (l rows cols w : Nat) : Bool :=
  decide (4 < layEw l) || layPitch l == 0 || fld l 16 16 != 0 ||
    decide (layPitch l < cdiv ((if layT l then rows else cols) * w) 8)

/-- Width code of an element width in bits. -/
def ewCode (w : Nat) : Nat := if w = 4 then 0 else if w = 8 then 1 else if w = 16 then 2 else if w = 32 then 3 else 4

/-- Byte address and nibble of element (row, col) of a matrix stored at `o` (R197). -/
def layPlace (o l w row col : Nat) : Nat × Nat :=
  let a := if layT l then col else row
  let b := if layT l then row else col
  let lin := o + a * layPitch l + b * w / 8
  let sp := 16 * 2 ^ laySpan l
  (lin ^^^ (lin / sp % (sp / 16) * 16), if w = 4 then b % 2 else 0)

/-- Read and write an element of a local space of a group's team. -/
def State.elemRd (s : State) (k : Nat) (sp : LSpace) (w : Nat) (p : Nat × Nat) : Nat :=
  if w = 4 then s.localLoad k 0 sp p.1 1 / 16 ^ p.2 % 16 else s.localLoad k 0 sp p.1 (w / 8)
def State.elemWr (s : State) (k : Nat) (sp : LSpace) (w : Nat) (p : Nat × Nat) (v : Nat) : State :=
  if w = 4 then
    let old := s.localLoad k 0 sp p.1 1
    s.localStore k 0 sp p.1 1 (if p.2 = 0 then old / 16 * 16 + v % 16 else old % 16 + v % 16 * 16)
  else s.localStore k 0 sp p.1 (w / 8) v

/-! ## Swizzle tags (R127, R128) -/

/-- Core of a group's team. -/
def State.homeCore (s : State) (k : Nat) : Nat := match s.team (teamOf k) with | some t => t.core | none => 0

/-- Tag of the 2 KiB block of a scratchpad offset. -/
def State.tagAt (s : State) (k a : Nat) : Nat := (Store.rd (s.core (s.homeCore k)).tags (a / 2048)).toNat

/-- Set the tags of the blocks that some bytes touch. -/
def State.setTags (s : State) (k span : Nat) (as : List Nat) : State :=
  s.modCore (s.homeCore k) (fun c => { c with
    tags := Store.wrs c.tags ((blocksOf 2048 as).map (fun b => (b, BitVec.ofNat 3 span))) })

/-- Some byte lies in a block whose tag differs from a span, or a nonzero span is used where there are no tags. -/
def State.tagsDiffer (s : State) (k : Nat) (sp : LSpace) (span : Nat) (as : List Nat) : Bool :=
  match sp with
  | .scr => (blocksOf 2048 as).any (fun b => s.tagAt k (2048 * b) != span)
  | _ => span != 0

/-! ## Fragments (R195) -/

def fragBits (t : FragTy) : Nat :=
  match t with
  | .bf16 => 16
  | .f16 => 16
  | .s8 => 8
  | .z8 => 8
  | .c4 => 4

/-- K, n and G of the operand sk (R415); none where it is out of bounds. -/
def fragShape (sk : Nat) : Option (Nat × Nat × Nat) :=
  let n := 2 ^ fld sk 2 2
  if fld sk 0 2 = 3 || n ≤ fld sk 4 3 || sk / 2 ^ 7 != 0 then none else some (32 * 2 ^ fld sk 0 2, n, fld sk 4 3)

/-- Registers of a fragment. -/
def fragRegs (kk w n : Nat) : Nat := kk * w / (8 * n)

/-- Places of the elements of word `l` of register `r` of a fragment, by element. -/
def fragPlaces (o lay w kk n mem r l : Nat) : List (Nat × Nat) :=
  (List.range (32 / w)).map (fun j =>
    let e := (r * 1024 + l * 32 + j * w) / w
    layPlace o lay w (mem * (128 / n) + e / kk) (e % kk))

/-- Places of a whole fragment. -/
def fragAll (o lay w kk n mem : Nat) : List (Nat × Nat) :=
  (List.range (128 / n)).flatMap (fun r => (List.range kk).map (fun c => layPlace o lay w (mem * (128 / n) + r) c))

/-- Bytes of a whole fragment. -/
def fragBytes (o lay w kk n mem : Nat) : List Nat :=
  (fragAll o lay w kk n mem).flatMap (fun p => if w = 16 then [p.1, p.1 + 1] else [p.1])

/-- The layout word of a fragment is malformed, or not of the type's width (R196, R416). -/
def fragMalformed (t : FragTy) (lay sk : Nat) : Bool :=
  layEw lay != ewCode (fragBits t) ||
    (match fragShape sk with
    | none => decide (4 < layEw lay) || layPitch lay == 0 || fld lay 16 16 != 0
    | some (kk, _, _) => layBad lay 128 kk (fragBits t))

/-- Value of a uniform source in the issuing group. -/
def State.peekU (s : State) (a : Src) : Nat :=
  match s.issuer with
  | some (k, g, e, _) => s.srcVal k (g.replayView e) .i32 1 a (lowLane e.mask)
  | none => 0

/-- Registers from `d` up, `n` of them, that the issuing group's budget has; `d` itself whatever the budget. -/
def State.span (s : State) (d n : Nat) : List Nat :=
  let b := match s.issuer with | some (_, g, _, _) => g.bud | none => 0
  d :: ((List.range (n - 1)).map (· + d + 1)).filter (· < b)

/-- What LDF and STF check after the operand stage (R416, R458): the space and the base offset, or the refusal. The table of R416
has no check of alignment. -/
def Ctx.fragment (c : Ctx) (s : State) (t : FragTy) (d : BitVec 8) (q : BitVec 4) (ea : Int) (lay : Nat) (sk : Nat)
    (ld : Bool) (go : State → LSpace → Nat → Nat → Nat → Nat → Effect) : Effect :=
  let w := fragBits t
  let r := c.g.reg q.toNat
  let first := (ea % (2 ^ 57 : Int)).toNat
  match fragShape sk with
  | none => c.trapCmd s 0x11 0
  | some (kk, n, mem) =>
    if c.g.bud < d.toNat + fragRegs kk w n then c.trapCmd s 0x11 0
    else if r.kind == 0 || r.pend then c.refuseAll s 0x0A first
    else if r.lent then c.refuseAll s 0x08 first
    else
      match LSpace.ofKind r.kind with
      | none => c.refuseAll s 0x08 first
      | some sp =>
        if sp == .prv || sp == .dsp then c.refuseAll s 0x08 first
        else if ea < 0 then c.refuseAll s 0x09 first
        else
          let o := ea.toNat
          let bytes := fragBytes o lay w kk n mem
          let out := bytes.filter (fun a => decide (a < r.base.toNat) || decide (r.base.toNat + r.len.toNat ≤ a))
          match out with
          | a :: as => c.refuseAll s 0x09 (as.foldl min a)
          | [] =>
            if (if ld then s.tagsDiffer c.k sp (laySpan lay) bytes else sp == .clu && laySpan lay != 0) then c.trapCmd s 0x15 0
            else go s sp o kk n mem

/-- LDF: every lane of every destination register is written (R416). -/
def opLdf (g : Guard) (t : FragTy) (d : BitVec 8) (m : MemOp) (sl : BitVec 7) (sk : Src) (s : State) : Op :=
  let regs := match fragShape (s.peekU sk) with
    | some (kk, n, _) => fragRegs kk (fragBits t) n
    | none => 1
  let so := srcIn 0 m.off
  let ss := srcIn 1 (.s sl)
  let sn := srcIn 2 sk
  let u : Use :=
    { g := g, srcs := [so, ss, sn], vw := s.span d.toNat regs, cls := some 0, touches := true
      malformed := fragMalformed t (s.peekU (.s sl)) (s.peekU sk) }
  word u (fun x s =>
    let ea := x.ea s (x.g.reg m.q.toNat).base.toNat so m.imm (lowLane x.lanes)
    let lay := x.uni s ss
    x.fragment s t d m.q ea lay (x.uni s sn) true (fun s sp o kk n mem =>
      let w := fragBits t
      let s' := (List.range (fragRegs kk w n)).foldl (fun s' r =>
        s'.writeReg x.k (d.toNat + r) (x.full u) ((List.range 32).map (fun l =>
          (l, BitVec.ofNat 32 ((fragPlaces o lay w kk n mem r l).foldr (fun p v => s.elemRd x.k sp w p + 2 ^ w * v) 0))))) s
      x.done (s'.charge (payerOf x.k) 8 (fragRegs kk w n))))
def execLdf (g : Guard) (t : FragTy) (d : BitVec 8) (m : MemOp) (sl : BitVec 7) (sk : Src) (s : State) : Host.Outcome State Fault Refusal :=
  (opLdf g t d m sl sk s).run s

/-- STF: every lane is stored and the blocks take the span (R459). -/
def opStf (g : Guard) (t : FragTy) (d : BitVec 8) (m : MemOp) (sl : BitVec 7) (sk : Src) (s : State) : Op :=
  let regs := match fragShape (s.peekU sk) with
    | some (kk, n, _) => fragRegs kk (fragBits t) n
    | none => 1
  let so := srcIn 0 m.off
  let ss := srcIn 1 (.s sl)
  let sn := srcIn 2 sk
  let u : Use :=
    { g := g, srcs := [so, ss, sn], vr := s.span d.toNat regs, cls := some 0, touches := true
      malformed := fragMalformed t (s.peekU (.s sl)) (s.peekU sk) }
  word u (fun x s =>
    let ea := x.ea s (x.g.reg m.q.toNat).base.toNat so m.imm (lowLane x.lanes)
    let lay := x.uni s ss
    x.fragment s t d m.q ea lay (x.uni s sn) false (fun s sp o kk n mem =>
      let w := fragBits t
      let n' := fragRegs kk w n
      let s' := (List.range n').foldl (fun s' r =>
        let data := s.regData x.k x.g (d.toNat + r)
        (List.range 32).foldl (fun s' l =>
          ((fragPlaces o lay w kk n mem r l).zipIdx).foldl (fun s' pj =>
            s'.elemWr x.k sp w pj.1 ((Store.rd data l).toNat / 2 ^ (w * pj.2) % 2 ^ w)) s') s') s
      let s' := if sp == .scr then s'.setTags x.k (laySpan lay) (fragBytes o lay w kk n mem) else s'
      x.done ((s'.charge (payerOf x.k) 8 n').wakeObjects)))
def execStf (g : Guard) (t : FragTy) (d : BitVec 8) (m : MemOp) (sl : BitVec 7) (sk : Src) (s : State) : Host.Outcome State Fault Refusal :=
  (opStf g t d m sl sk s).run s

/-! ## The accumulator store -/

def tileCell (t row col : Nat) : Nat := t * 16384 + row * 128 + col

/-- An element of a tile of the core of a team. -/
def Core.tile (c : Core) (t row col : Nat) : Nat := (Store.rd c.tiles (tileCell t row col)).toNat

/-- Bits of a type, and whether tiles hold it as FP32. -/
def accBits (t : AccTy) : Nat :=
  match t with
  | .f32 => 32
  | .s32 => 32
  | .bf16 => 16
  | .f16 => 16
  | .s16 => 16
  | .s8 => 8
  | .z8 => 8

/-- Convert a tile element to a type (R212). -/
def accConvert (t : AccTy) (v : Nat) : Nat :=
  let i := sInt 32 v
  let clamp (lo hi : Int) (w : Nat) : Nat := intBits w (clampInt lo hi i)
  match t with
  | .f32 => v
  | .s32 => v
  | .bf16 => (Fp.fToF Fp.f32 Fp.bf16 .rn v).bits
  | .f16 => (Fp.fToF Fp.f32 Fp.f16 .rn v).bits
  | .s16 => clamp (-32768) 32767 16
  | .s8 => clamp (-128) 127 8
  | .z8 => clamp 0 255 8

/-- Widen an element of a type to 32 bits (R212). -/
def accWiden (t : AccTy) (v : Nat) : Nat :=
  match t with
  | .f32 => v
  | .s32 => v
  | .bf16 => (Fp.fToF Fp.bf16 Fp.f32 .rn v).bits
  | .f16 => (Fp.fToF Fp.f16 Fp.f32 .rn v).bits
  | .s16 => intBits 32 (sInt 16 v)
  | .s8 => intBits 32 (sInt 8 v)
  | .z8 => v

/-- A captured MMA or an accepted ACC.DRAIN of the core still works on the tile (R367). -/
def State.tileBusy (s : State) (core t : Nat) : Bool :=
  (s.core core).saw.any (fun o => o.tile == t) ||
    (s.core core).hauls.any (fun h => match h.2.form with | .drain _ tile _ => tile == t | _ => false)

/-- Write elements of a tile and mark it written (R255). -/
def State.putTile (s : State) (k t : Nat) (kvs : List (Nat × BitVec 32)) : State :=
  let s := s.modCore (s.homeCore k) (fun c => { c with tiles := Store.wrs c.tiles kvs })
  s.modTeam (teamOf k) (fun m => { m with tilemap := m.tilemap ||| (1#64 <<< t) })

def opAccZero (g : Guard) (st : Src) : Op :=
  let ss := srcIn 0 st
  word { g := g, srcs := [ss], cls := some 4 } (fun x s =>
    let t := x.uni s ss
    if 63 < t then x.trapCmd s 0x11 0
    else if s.isGuest x.k x.g then x.trapCmd s 0x16 0
    else if s.tileBusy (s.homeCore x.k) t then none
    else
      let s := s.modCore (s.homeCore x.k) (fun c => { c with tiles := Store.clear c.tiles (t * 16384) 16384 })
      let s := s.modTeam (teamOf x.k) (fun m => { m with tilemap := m.tilemap ||| (1#64 <<< t) })
      x.done (s.charge (payerOf x.k) 9 128))
def execAccZero (g : Guard) (st : Src) (s : State) : Host.Outcome State Fault Refusal :=
  (opAccZero g st).run s

/-- Elements per register of a type. -/
def accPer (t : AccTy) : Nat := 32 / accBits t

/-- A reserved field of the operand sb is not zero (R212). -/
def accMalformed (sb : Nat) : Bool := fld sb 7 1 != 0 || fld sb 15 1 != 0 || fld sb 24 8 != 0

/-- Row, column and columns of the operand sb (R212), or the cause that refuses it. -/
def accShape (t : AccTy) (d bud sb : Nat) : (Nat × Nat × Nat) ⊕ BitVec 8 :=
  let row0 := fld sb 0 7
  let col0 := fld sb 8 7
  let n := fld sb 16 8
  let e := accPer t
  if row0 % 32 != 0 || n == 0 || col0 % e != 0 || n % e != 0 || decide (128 < col0 + n) || decide (bud < d + n / e) then
    .inr 0x11
  else .inl (row0, col0, n)

/-- Registers that an ACC.LD or ACC.ST names. -/
def State.accSpan (s : State) (t : AccTy) (d : Nat) (sb : Src) : List Nat :=
  match accShape t d 512 (s.peekU sb) with
  | .inl (_, _, n) => s.span d (n / accPer t)
  | .inr _ => [d]

/-- Charges of ACC.LD and ACC.ST (R214). -/
def Ctx.accCharge (c : Ctx) (s : State) (n : Nat) : State :=
  (s.charge (payerOf c.k) 9 (cdiv (laneCount c.lanes * n * 4) 512)).charge (payerOf c.k) 0 1

def opAccLd (g : Guard) (t : AccTy) (d : BitVec 8) (st sb : Src) (s : State) : Op :=
  let ss := srcIn 0 st
  let sh := srcIn 1 sb
  let u : Use := { g := g, srcs := [ss, sh], vw := s.accSpan t d.toNat sb, cls := some 4, malformed := accMalformed (s.peekU sb) }
  word u (fun x s =>
    let tile := x.uni s ss
    match accShape t d.toNat x.g.bud (x.uni s sh) with
    | .inr c => x.trapCmd s c 0
    | .inl (row0, col0, n) =>
      if 63 < tile then x.trapCmd s 0x11 0
      else if s.isGuest x.k x.g then x.trapCmd s 0x16 0
      else if s.tileBusy (s.homeCore x.k) tile then none
      else
        let core := s.core (s.homeCore x.k)
        let e := accPer t
        let word_ (m i : Nat) : Nat := (List.range e).foldr (fun j v =>
          accConvert t (core.tile tile (row0 + i) (col0 + m * e + j)) + 2 ^ accBits t * v) 0
        let s := (List.range (n / e)).foldl (fun s m =>
          s.writeReg x.k (d.toNat + m) (x.full u) ((lanesOf x.lanes).map (fun i => (i, BitVec.ofNat 32 (word_ m i))))) s
        x.done (x.accCharge s n))
def execAccLd (g : Guard) (t : AccTy) (d : BitVec 8) (st sb : Src) (s : State) : Host.Outcome State Fault Refusal :=
  (opAccLd g t d st sb s).run s

def opAccSt (g : Guard) (t : AccTy) (vs : BitVec 8) (st sb : Src) (s : State) : Op :=
  let ss := srcIn 1 st
  let sh := srcIn 2 sb
  let u : Use := { g := g, srcs := [ss, sh], vr := s.accSpan t vs.toNat sb, cls := some 4, malformed := accMalformed (s.peekU sb) }
  word u (fun x s =>
    let tile := x.uni s ss
    match accShape t vs.toNat x.g.bud (x.uni s sh) with
    | .inr c => x.trapCmd s c 0
    | .inl (row0, col0, n) =>
      if 63 < tile then x.trapCmd s 0x11 0
      else if s.isGuest x.k x.g then x.trapCmd s 0x16 0
      else if s.tileBusy (s.homeCore x.k) tile then none
      else
        let e := accPer t
        let kvs := (lanesOf x.lanes).flatMap (fun i => (List.range (n / e)).flatMap (fun m =>
          let v := s.vregs x.k x.g (vs.toNat + m) 1 i
          (List.range e).map (fun j => (tileCell tile (row0 + i) (col0 + m * e + j),
            BitVec.ofNat 32 (accWiden t (v / 2 ^ (accBits t * j) % 2 ^ accBits t))))))
        x.done (x.accCharge (s.putTile x.k tile kvs) n))
def execAccSt (g : Guard) (t : AccTy) (vs : BitVec 8) (st sb : Src) (s : State) : Host.Outcome State Fault Refusal :=
  (opAccSt g t vs st sb s).run s

/-! ## Commands of the haul engine: acceptance -/

/-- Bytes of a local space of a launch. -/
def spaceLen (d : LaunchDesc) (sp : LSpace) : Nat :=
  match sp with
  | .prv => d.lp.toNat
  | .scr => d.ss.toNat
  | .clu => 4 * d.cs.toNat
  | .dsp => d.ds.toNat

def State.spaceLen (s : State) (k : Nat) (sp : LSpace) : Nat :=
  match s.launch (launchOf k) with | some l => Machine.spaceLen l.desc sp | none => 0

/-- The haul engine of a core has room for a command (R218). -/
def State.haulRoom (s : State) (core : Nat) : Bool := decide ((s.core core).hauls.length < 16)

/-- Mark a scalar as awaiting a command (R217). -/
def State.pendToken (s : State) (k sd op : Nat) : State :=
  s.modGroup k (fun g => { g with pend := g.pend ++ [{ reg := .s sd, kind := .token, op := op, lanes := 0xFFFFFFFF }] })

/-- Accept a haul-engine command on a core; its token is pending from here. -/
def State.acceptHaul (s : State) (core : Nat) (h : Haul) : State :=
  let id := s.nextId
  let s := s.bump.modCore core (fun c => { c with hauls := SMap.put c.hauls id h })
  match h.done with
  | .token k sd => s.pendToken k sd id
  | .mbar _ _ => s

/-- A barrier object operand (R218): refused where it leaves its space or its alignment. -/
def Ctx.mbarOperand (c : Ctx) (s : State) (clu : Bool) (off : Nat) : Option Effect :=
  if s.spaceLen c.k (mbSpace clu) < off + 16 then some (c.refuseAll s 0x09 off)
  else if off % 16 != 0 then some (c.trapCmd s 0x10 off)
  else none

def drainAcc (t : DrainTy) : AccTy :=
  match t with
  | .f32 => .f32
  | .bf16 => .bf16
  | .f16 => .f16
  | .s32 => .s32
  | .s8 => .s8
  | .z8 => .z8

/-- Places of a whole tile in the order of rows and columns. -/
def drainPlace (o lay w i : Nat) : Nat := (layPlace o lay w (i / 128) (i % 128)).1

/-- ACC.DRAIN (R213, R367): accepted by the haul engine. Its offset needs no alignment: an extent is checked byte by byte (DESIGN
CHOICE, log 31). -/
def opAccDrain (g : Guard) (t : DrainTy) (m : MemOp) (st sl sm : Src) (s : State) : Op :=
  let so := srcIn 0 m.off
  let ss := srcIn 1 st
  let sy := srcIn 2 sl
  let sb := srcIn 3 sm
  let wide := accBits (drainAcc t)
  let lay0 := s.peekU sl
  let u : Use :=
    { g := g, srcs := [so, ss, sy, sb], cls := some 4, touches := true
      malformed := layBad lay0 128 128 wide || layEw lay0 != ewCode wide }
  word u (fun x s =>
    let r := x.g.reg m.q.toNat
    let tile := x.uni s ss
    let lay := x.uni s sy
    let w := accBits (drainAcc t)
    let ea := x.ea s r.base.toNat so m.imm (lowLane x.lanes)
    let first := (ea % (2 ^ 57 : Int)).toNat
    if 63 < tile then x.trapCmd s 0x11 0
    else if r.kind == 0 || r.pend then x.refuseAll s 0x0A first
    else if r.lent || !(r.kind == 9 || r.kind == 10) then x.refuseAll s 0x08 first
    else if ea < 0 then x.refuseAll s 0x09 first
    else
      let o := ea.toNat
      let as := (List.range 16384).map (drainPlace o lay w)
      let bytes := as.flatMap (fun a => (List.range (w / 8)).map (a + ·))
      match bytes.filter (fun a => decide (a < r.base.toNat) || decide (r.base.toNat + r.len.toNat ≤ a)) with
      | a :: as => x.refuseAll s 0x09 (as.foldl min a)
      | [] =>
        let clu := r.kind == 10
        let off := x.uni s sb
        match x.mbarOperand s clu off with
        | some e => e
        | none =>
          if s.isGuest x.k x.g then x.trapCmd s 0x16 0
          else if !s.haulRoom (s.homeCore x.k) || s.tileBusy (s.homeCore x.k) tile then none
          else
            let h : Haul :=
              { form := .drain t tile (BitVec.ofNat 32 lay), grp := x.k, pc := x.e.pc, dst := r, dOff := o, len := 16384 * w / 8
                done := .mbar clu off }
            x.done ((s.acceptHaul (s.homeCore x.k) h).charge (payerOf x.k) 9 128))
def execAccDrain (g : Guard) (t : DrainTy) (m : MemOp) (st sl sm : Src) (s : State) : Host.Outcome State Fault Refusal :=
  (opAccDrain g t m st sl sm s).run s

end Sys2Proof.Machine
end

