-- ==== Sys2Proof/Machine/Borrow.lean ====
section
/-! DEFINITION. Meanings of OPC 0x180 to 0x18E (BOR R99, R375; REBOR R104; SPLIT R107, R108; JOIN R109; RETB R105; QSET R433;
QINFO R432), translation of a range at issue (R99, R471), and parking a command that its replay issues (R50, R149). -/

namespace Sys2Proof.Machine

open Sys2Proof

/-! ## Translation of whole pages at issue -/

/-- What the translation of one page answers; `fresh` where the fault is not coalesced. -/
inductive PageRes
  | page (x : Xlat)
  | retry (va : Nat) (reason : BitVec 4) (stage fresh : Bool)
  | term (va : Nat) (reason : BitVec 4) (stage : Bool)
deriving DecidableEq, Repr

/-- Translate an address for a core: the TLBs, else a walk, charged to the VF (R143, R144, R228); none where the access must
wait for a page-miss entry or for a walk under way. -/
def State.xlate (s : State) (core vf part va : Nat) : Option (State × PageRes) :=
  match s.lookup core vf va with
  | some (.ok x _) => some (s, .page x)
  | some (.term r st _) => some (s, .term va r st)
  | some (.retry r st _) => some (s, .retry va r st true)
  | none =>
    match (s.die (dieOf core)).miss vf va with
    | some m => if m.faulted then some (s, .retry va 0 false false) else none
    | none =>
      if !s.mayTake (dieOf core) part then none
      else match s.walk vf va with
        | .ok x n => some ((s.chargeN (.vf vf) 10 n).fillTlb core x, .page x)
        | .retry r st n => some (s.chargeN (.vf vf) 10 n, .retry va r st true)
        | .term r st n => some (s.chargeN (.vf vf) 10 n, .term va r st)

/-- Translate every page from `va` to `end_`, ascending. -/
def State.xlateRange (s : State) (core vf part end_ : Nat) : (fuel va : Nat) → Option (State × List PageRes)
  | 0, _ => some (s, [])
  | f + 1, va =>
    if end_ ≤ va then some (s, [])
    else match s.xlate core vf part va with
      | none => none
      | some (s, r) =>
        let next := match r with
          | .page x => x.va + x.size
          | _ => (unitOf va + 1) * 65536
        match State.xlateRange s core vf part end_ f next with
        | none => none
        | some (s, rs) => some (s, r :: rs)

/-- The first terminal fault, and the pages that fault retryably. -/
def firstTerm (rs : List PageRes) : Option (Nat × BitVec 4 × Bool) :=
  rs.findSome? (fun r => match r with | .term va c st => some (va, c, st) | _ => none)
def retryPages (rs : List PageRes) : List (Nat × BitVec 4 × Bool × Bool) :=
  rs.filterMap (fun r => match r with | .retry va c st f => some (va, c, st, f) | _ => none)

/-- The access that an instruction parks with, to issue again when it is released (R99). -/
def Ctx.parkAcc (c : Ctx) (s : State) (i : Instr) (kind : AccKind) (va : Nat) : Acc :=
  { kind := kind, use := .word i, vf := vfOf c.k, part := s.leafOf c.k, core := c.g.core, grp := c.k, pc := c.e.pc
    page := unitOf va, lanes := c.stay, addrs := [(lowLane c.stay, BitVec.ofNat 57 va)], frag := c.e.frag, issue := c.id
    st := .parked, again := true }

/-- Record retryable faults in ascending order (R471) and park the whole entry as one fragment. -/
def Ctx.park (c : Ctx) (s : State) (i : Instr) (kind : AccKind) (ps : List (Nat × BitVec 4 × Bool × Bool)) : Effect :=
  let s := ps.foldl (fun s p =>
    let (va, reason, stage, fresh) := p
    if fresh then s.retryFault va ((c.parkAcc s i kind va).record 0x20 reason stage) else s) s
  let (s, _) := s.track (c.parkAcc s i kind ((ps.headD (0, 0, false, false)).1))
  let s := s.modGroup c.k (fun g => { g with kept := { lanes := c.stay, pc := c.e.pc, s := c.g.s, q := c.g.q } :: g.kept })
  some (s, [{ mask := c.stay, pc := c.e.pc, prio := c.e.prio, st := .parked }])

/-- A terminal fault of a command found at issue: it needs a buffer record (R145). -/
def Ctx.terminal (c : Ctx) (s : State) (i : Instr) (kind : AccKind) (va : Nat) (reason : BitVec 4) (stage : Bool) : Effect :=
  let a := { c.parkAcc s i kind va with lanes := c.lanes, addrs := [(lowLane c.lanes, BitVec.ofNat 57 va)] }
  if (s.die (dieOf a.core)).roomFor a.part then
    c.trapCmd (s.keepRecord (a.record 0x21 reason stage)) 0x21 va (faultInfo reason kind)
  else some (s.stayRecord a reason stage, [{ c.next with mask := c.stay &&& ~~~c.lanes }, c.stayPart c.lanes])

/-! ## BOR -/

def heldCode (k : HeldKind) : BitVec 4 := match k with | .x => 1 | .s => 2 | .a => 3

/-- A return of this core that is not yet released overlaps a range (R106). -/
def State.returning (s : State) (core vf base len : Nat) : Bool :=
  (s.core core).rets.any (fun r => r.2.part.isNone && vfOf r.2.grp == vf && decide (r.2.base < base + len) &&
    decide (base < r.2.base + r.2.len))

/-- Sign extension of the base from bit 56 (R99). -/
def canonical (v : Nat) : Bool := BitVec.ofNat 64 v == (BitVec.ofNat 57 v).signExtend 64

/-- Send the claim of a held borrow and mark the register (R99, R113, R114). -/
def Ctx.claim (c : Ctx) (s : State) (q : BitVec 4) (sd : Nat) (kind : HeldKind) (try_ : Bool) (x : Xlat) (base len : Nat) :
    State :=
  let peer := isPeer x.home
  let a := x.at base
  let m : ClaimMsg :=
    { base := if peer then peerOff a else a, len := len, kind := kind, try_ := try_, ctx := c.k, vf := vfOf c.k, core := c.g.core
      q := q, peer := none, importIdx := if peer then some (peerIdx a) else none }
  let p := payerOf c.k
  let reg : Region :=
    { base := BitVec.ofNat 57 base, len := BitVec.ofNat 40 len, kind := heldCode kind, grain := x.grain }
  let s := s.modGroup c.k (fun g =>
    { (g.setReg q.toNat { pend := true }) with bors := SMap.put g.bors q.toNat { region := reg, sd := sd, try_ := try_, op := c.id, pass := c.lanes, stay := c.stay } })
  let s := if try_ then s.modGroup c.k (fun g => { g with
      pend := g.pend ++ [{ reg := .s sd, kind := .load, op := c.id, lanes := 0xFFFFFFFF }] }) else s
  let s := (s.charge p 13 1).chargeMsg p (hopsTo c.g.core a)
  if peer then s.peerSend (vfOf c.k) (peerIdx a) (.claim m) 0 0 0 0 else s.send (.claim (homeDie a) m) (claimRoute c.g.core (homeDie a))

/-- BOR (R99): the checks in the entry's own order, then the grant of .O at once or a claim. -/
def bor (i : Instr) (kind : Option HeldKind) (try_ : Bool) (c : Ctl) (sd : BitVec 7) (q : BitVec 4) (sa : BitVec 7)
    (sl : Src) : Op :=
  let su := srcIn 0 (.s sa) 2 .z64
  let sn := { srcIn 1 sl with uni := true }
  let u : Use := { g := c.g, lu := c.lu, srcs := [su, sn], sw := [sd.toNat], cls := some 4, mode := some false, order := kind.isSome }
  word u (fun x s =>
    let r := ((s.group x.k).getD x.g).reg q.toNat
    let b64 := x.uni s su
    let base := b64 % 2 ^ 57
    let len := x.uni s sn
    let vf := vfOf x.k
    let core := x.g.core
    let part := s.leafOf x.k
    if r.kind != 0 || r.pend then x.refuseAll s 0x08 base
    else if !canonical b64 then x.refuseAll s 0x09 base
    else if len == 0 then x.refuseAll s 0x0B base
    else if try_ && s.isDet x.k then x.trapCmd s 0x28 0
    else
      let translated : Option (State × List PageRes) := match kind with
        | some _ => (s.xlate core vf part base).map (fun (sr : State × PageRes) => (sr.1, [sr.2]))
        | none => State.xlateRange s core vf part (base + len) (len / 65536 + 2) base
      match translated with
      | none => none
      | some (s, rs) =>
        let hostBad : Option Nat := rs.findSome? (fun (r : PageRes) => match r with
          | .page p => if isHost p.home && (s.vf vf).tdi != .run then some (max base p.va) else none
          | _ => none)
        match firstTerm rs, hostBad, retryPages rs with
        | some (va, reason, stage), _, _ => x.terminal s i .bor va reason stage
        | none, some va, _ => x.terminal s i .bor va 6 false
        | none, none, p :: ps => x.park s i .bor (p :: ps)
        | none, none, [] =>
          let pages : List Xlat := rs.filterMap (fun (r : PageRes) => match r with | .page p => some p | _ => none)
          let grainOk := pages.all (fun (p : Xlat) => base % grainBytes p.grain == 0 && len % grainBytes p.grain == 0)
          let want : BitVec 2 := match kind with | some _ => 0 | none => 1
          let leaves := match kind, pages with
            | some _, p :: _ => decide (p.va + p.size < base + len)
            | _, _ => false
          let page := match pages with | p :: _ => p.va + p.size | [] => 0
          if leaves then x.refuseAll s 0x09 page
          else match pages.find? (fun (p : Xlat) => p.cls != want) with
            | some p => x.refuseAll s 0x08 (max base p.va)
            | none =>
              if !grainOk then x.refuseAll s 0x0B base
              else match kind, pages with
                | some k, p :: _ =>
                  if s.returning core vf base len then none
                  else
                    let s := x.claim s q sd.toNat k try_ p base len
                    if try_ then x.done s else x.wait s { code := 4, frag := x.e.frag, arg := q.setWidth 16 }
                | _, _ =>
                  let g := pages.foldl (fun (g : BitVec 2) (p : Xlat) => if g.toNat < p.grain.toNat then p.grain else g) 0
                  let s := s.modGroup x.k (fun m => m.setReg q.toNat
                    { base := BitVec.ofNat 57 base, len := BitVec.ofNat 40 len, kind := 4, grain := g })
                  x.done (s.putS x.k sd.toNat 1 1))

def opBorX (c : Ctl) (sd : BitVec 7) (q : BitVec 4) (sa : BitVec 7) (sl : Src) : Op :=
  bor (.borX c sd q sa sl) (some .x) false c sd q sa sl
def execBorX (c : Ctl) (sd : BitVec 7) (q : BitVec 4) (sa : BitVec 7) (sl : Src) (s : State) : Host.Outcome State Fault Refusal :=
  (opBorX c sd q sa sl).run s
def opBorS (c : Ctl) (sd : BitVec 7) (q : BitVec 4) (sa : BitVec 7) (sl : Src) : Op :=
  bor (.borS c sd q sa sl) (some .s) false c sd q sa sl
def execBorS (c : Ctl) (sd : BitVec 7) (q : BitVec 4) (sa : BitVec 7) (sl : Src) (s : State) : Host.Outcome State Fault Refusal :=
  (opBorS c sd q sa sl).run s
def opBorA (c : Ctl) (sd : BitVec 7) (q : BitVec 4) (sa : BitVec 7) (sl : Src) : Op :=
  bor (.borA c sd q sa sl) (some .a) false c sd q sa sl
def execBorA (c : Ctl) (sd : BitVec 7) (q : BitVec 4) (sa : BitVec 7) (sl : Src) (s : State) : Host.Outcome State Fault Refusal :=
  (opBorA c sd q sa sl).run s
def opBorO (c : Ctl) (sd : BitVec 7) (q : BitVec 4) (sa : BitVec 7) (sl : Src) : Op :=
  bor (.borO c sd q sa sl) none false c sd q sa sl
def execBorO (c : Ctl) (sd : BitVec 7) (q : BitVec 4) (sa : BitVec 7) (sl : Src) (s : State) : Host.Outcome State Fault Refusal :=
  (opBorO c sd q sa sl).run s
def opBorXTry (c : Ctl) (sd : BitVec 7) (q : BitVec 4) (sa : BitVec 7) (sl : Src) : Op := bor (.borXTry c sd q sa sl) (some .x) true c sd q sa sl
def execBorXTry (c : Ctl) (sd : BitVec 7) (q : BitVec 4) (sa : BitVec 7) (sl : Src) (s : State) : Host.Outcome State Fault Refusal :=
  (opBorXTry c sd q sa sl).run s
def opBorSTry (c : Ctl) (sd : BitVec 7) (q : BitVec 4) (sa : BitVec 7) (sl : Src) : Op := bor (.borSTry c sd q sa sl) (some .s) true c sd q sa sl
def execBorSTry (c : Ctl) (sd : BitVec 7) (q : BitVec 4) (sa : BitVec 7) (sl : Src) (s : State) : Host.Outcome State Fault Refusal :=
  (opBorSTry c sd q sa sl).run s
def opBorATry (c : Ctl) (sd : BitVec 7) (q : BitVec 4) (sa : BitVec 7) (sl : Src) : Op := bor (.borATry c sd q sa sl) (some .a) true c sd q sa sl
def execBorATry (c : Ctl) (sd : BitVec 7) (q : BitVec 4) (sa : BitVec 7) (sl : Src) (s : State) : Host.Outcome State Fault Refusal :=
  (opBorATry c sd q sa sl).run s
def opBorOTry (c : Ctl) (sd : BitVec 7) (q : BitVec 4) (sa : BitVec 7) (sl : Src) : Op := bor (.borOTry c sd q sa sl) none true c sd q sa sl
def execBorOTry (c : Ctl) (sd : BitVec 7) (q : BitVec 4) (sa : BitVec 7) (sl : Src) (s : State) : Host.Outcome State Fault Refusal :=
  (opBorOTry c sd q sa sl).run s

/-! ## REBOR (R104, R125) -/

/-- Kind of a derived register, none where R104 admits no pair. -/
def reborKind (k : BitVec 4) (toS : Bool) : Option (BitVec 4) :=
  if !toS then some k else if k == 1 || k == 2 then some 2 else none

def rebor (toS : Bool) (c : Ctl) (qd qs : BitVec 4) (so sl : Src) : Op :=
  let su := srcIn 0 so
  let sn := srcIn 1 sl
  word { g := c.g, lu := c.lu, srcs := [su, sn], cls := some 4 } (fun x s =>
    let r := x.g.reg qs.toNat
    let d := x.g.reg qd.toNat
    let o := x.uni s su
    let n := x.uni s sn
    let gr := if (LSpace.ofKind r.kind).isSome then 32 else grainBytes r.grain
    if qd == qs then x.trapCmd s 0x01 0
    else if r.kind == 0 || r.pend then x.refuseAll s 0x0A 0
    else if d.kind != 0 || d.pend || r.lent then x.refuseAll s 0x08 r.base.toNat
    else match reborKind r.kind toS with
      | none => x.refuseAll s 0x08 r.base.toNat
      | some k =>
        if n == 0 || decide (r.len.toNat < o + n) then x.refuseAll s 0x09 (r.base.toNat + max o r.len.toNat)
        else if o % gr != 0 || n % gr != 0 then x.refuseAll s 0x0B (r.base.toNat + o)
        else
          let new : Region := { r with base := r.base + BitVec.ofNat 57 o, len := BitVec.ofNat 40 n, kind := k, drv := true }
          x.done (s.modGroup x.k (fun g => g.setReg qd.toNat new)))

def opRebor (c : Ctl) (qd qs : BitVec 4) (so sl : Src) : Op :=
  rebor false c qd qs so sl
def execRebor (c : Ctl) (qd qs : BitVec 4) (so sl : Src) (s : State) : Host.Outcome State Fault Refusal :=
  (opRebor c qd qs so sl).run s
def opReborS (c : Ctl) (qd qs : BitVec 4) (so sl : Src) : Op :=
  rebor true c qd qs so sl
def execReborS (c : Ctl) (qd qs : BitVec 4) (so sl : Src) (s : State) : Host.Outcome State Fault Refusal :=
  (opReborS c qd qs so sl).run s

/-! ## SPLIT (R107, R108, R454, R455) -/

/-- Put a part into a receiver's register, or count it as returned where it cannot be delivered. -/
def State.deliverPart (s : State) (k qd : Nat) (r : Region) : State :=
  match s.group k with
  | none => s.mbar k false r.mboff.toNat 1 0
  | some g =>
    if g.res == .ended then s.mbar k false r.mboff.toNat 1 0
    else if (g.reg qd).kind != 0 || (g.reg qd).pend then (s.setStatus k 2).mbar k false r.mboff.toNat 1 0
    else s.setGroup k (g.setReg qd r)

/-- A part for a group: at once to an active group on its team's core, else kept for its next activation there. -/
def State.handPart (s : State) (k qd : Nat) (r : Region) : State :=
  match s.group k with
  | none => s.deliverPart k qd r
  | some g =>
    if (g.active && !s.isGuest k g) || g.res == .ended then s.deliverPart k qd r
    else s.setGroup k { g with parts := g.parts ++ [(qd, r)] }

def opSplit (g : Guard) (qd qs : BitVec 4) (sg sn sm : Src) : Op :=
  let su := srcIn 0 sg
  let sv := srcIn 1 sn
  let sw := srcIn 2 sm
  word { g := g, srcs := [su, sv, sw], cls := some 4, mode := some false, order := true } (fun x s =>
    let r := x.g.reg qs.toNat
    let first := x.uni s su
    let n := x.uni s sv
    let m := x.uni s sw
    let total := match s.launch (launchOf x.k) with | some l => l.g | none => 0
    let self_ := decide (first ≤ groupNo x.k) && decide (groupNo x.k < first + n)
    if qd == qs && self_ then x.trapCmd s 0x01 0
    else if n == 0 || 256 < n || total < first + n then x.trapCmd s 0x11 0
    else if r.kind == 0 || r.pend then x.refuseAll s 0x0A 0
    else if r.kind != 1 || r.drv || r.lent || r.part || s.isGuest x.k x.g then x.refuseAll s 0x08 r.base.toNat
    else if s.spaceLen x.k .scr < m + 16 then x.refuseAll s 0x09 m
    else if r.len.toNat % (n * grainBytes r.grain) != 0 then x.refuseAll s 0x0B r.base.toNat
    else if m % 16 != 0 then x.trapCmd s 0x10 m
    else
      let o := s.objAt x.k false m
      let v := s.objRd o
      let v' := v % 2 ^ 8 + n * 2 ^ 8 + fld v 28 4 * 2 ^ 28 + fld v 52 12 * 2 ^ 52 + fld v 96 32 * 2 ^ 96
      let s := (s.objWr o v').charge (payerOf x.k) 8 1
      let ph := objPhase v
      let len := r.len.toNat / n
      let s := s.modGroup x.k (fun g => g.setReg qs.toNat
        { r with lent := true, ph := ph, nm1 := BitVec.ofNat 8 (n - 1), mboff := BitVec.ofNat 19 m })
      let s := (List.range n).foldl (fun s i =>
        s.handPart (groupKey (teamOf x.k) (first + i)) qd.toNat
          { base := r.base + BitVec.ofNat 57 (i * len), len := BitVec.ofNat 40 len, kind := 1, grain := r.grain
            handle := r.handle, orph := r.orph, part := true, pidx := BitVec.ofNat 8 i, pgrp := BitVec.ofNat 16 (groupNo x.k)
            pq := qs, mboff := BitVec.ofNat 19 m, nm1 := BitVec.ofNat 8 (n - 1) }) s
      x.done s)
def execSplit (g : Guard) (qd qs : BitVec 4) (sg sn sm : Src) (s : State) : Host.Outcome State Fault Refusal :=
  (opSplit g qd qs sg sn sm).run s

/-! ## JOIN (R109, R412) -/

/-- Give a split register back its whole range. -/
def Region.joined (r : Region) : Region :=
  { r with lent := false, ph := false, nm1 := 0, pidx := 0, pgrp := 0, pq := 0, mboff := 0 }

def opJoin (g : Guard) (qs : BitVec 4) : Op :=
  word { g := g, cls := some 4, mode := some false } (fun x s =>
    let r := x.g.reg qs.toNat
    if !r.lent then x.refuseAll s 0x08 r.base.toNat
    else if objPhase (s.objRd (s.objAt x.k false r.mboff.toNat)) != r.ph then
      x.done (s.modGroup x.k (fun g => g.setReg qs.toNat r.joined))
    else x.wait s
      { code := 2, frag := x.e.frag, arg := (if r.ph then 1 else 0) + qs.setWidth 16 * 16, addr := objAddr false r.mboff.toNat
        join := some qs })
def execJoin (g : Guard) (qs : BitVec 4) (s : State) : Host.Outcome State Fault Refusal :=
  (opJoin g qs).run s

/-! ## RETB, QSET, QINFO -/

/-- RETB of the register is a release operation (R157): it is X, S, A or PART, and not derived. -/
def Region.releases (r : Region) : Bool := !r.drv && (r.part || (decide (1 ≤ r.kind.toNat) && decide (r.kind.toNat ≤ 3)))

def opRetb (g : Guard) (q : BitVec 4) : Op :=
  word { g := g, cls := some 4 } (fun x s =>
    let r := x.g.reg q.toNat
    if r.kind == 0 || r.pend then x.refuseAll s 0x0A 0
    else if r.lent then x.refuseAll s 0x08 r.base.toNat
    else if r.releases && (!(s.openAccs x.k x.e.mask).isEmpty || s.booksOut x.k x.e.mask) then none
    else x.done (s.retb x.k q.toNat))
def execRetb (g : Guard) (q : BitVec 4) (s : State) : Host.Outcome State Fault Refusal :=
  (opRetb g q).run s

def localKindCode (k : LocalKind) : BitVec 4 :=
  match k with
  | .prv => 8
  | .scr => 9
  | .clu => 10
  | .dsp => 11

def opQset (c : Ctl) (k : LocalKind) (q : BitVec 4) (so sl : Src) : Op :=
  let su := srcIn 0 so
  let sn := srcIn 1 sl
  word { g := c.g, lu := c.lu, srcs := [su, sn], cls := some 4 } (fun x s =>
    let r := x.g.reg q.toNat
    let o := x.uni s su
    let n := x.uni s sn
    let lim := match LSpace.ofKind (localKindCode k) with | some sp => s.spaceLen x.k sp | none => 0
    if (r.kind != 0 && (LSpace.ofKind r.kind).isNone) || r.pend || s.isGuest x.k x.g then x.refuseAll s 0x08 0
    else if n == 0 || decide (lim < o + n) then x.refuseAll s 0x09 (max o lim)
    else if o % 32 != 0 || n % 32 != 0 then x.refuseAll s 0x0B o
    else x.done (s.modGroup x.k (fun g => g.setReg q.toNat
      { base := BitVec.ofNat 57 o, len := BitVec.ofNat 40 n, kind := localKindCode k, grain := 3 })))
def execQset (c : Ctl) (k : LocalKind) (q : BitVec 4) (so sl : Src) (s : State) : Host.Outcome State Fault Refusal :=
  (opQset c k q so sl).run s

def opQsetEmpty (g : Guard) (q : BitVec 4) : Op :=
  word { g := g, cls := some 4 } (fun x s =>
    let r := x.g.reg q.toNat
    if (r.kind != 0 && (LSpace.ofKind r.kind).isNone) || r.pend then x.refuseAll s 0x08 0
    else x.done (s.modGroup x.k (fun g => g.setReg q.toNat {})))
def execQsetEmpty (g : Guard) (q : BitVec 4) (s : State) : Host.Outcome State Fault Refusal :=
  (opQsetEmpty g q).run s

/-- The values of R432. -/
def qinfo (r : Region) (det : Bool) (sel : BitVec 3) : Nat :=
  let b (x : Bool) : Nat := if x then 1 else 0
  if r.kind == 0 then 0
  else match sel.toNat with
    | 0 => r.base.toNat % 2 ^ 32
    | 1 => ((r.base >>> 32).setWidth 25 |>.signExtend 32).toNat
    | 2 => r.len.toNat % 2 ^ 32
    | 3 => r.len.toNat / 2 ^ 32
    | 4 => r.kind.toNat + r.grain.toNat * 2 ^ 4 + b r.lent * 2 ^ 6 + b r.part * 2 ^ 7 + b r.orph * 2 ^ 8 + b r.drv * 2 ^ 10 +
        b r.ph * 2 ^ 11 + r.nm1.toNat * 2 ^ 12 + r.pidx.toNat * 2 ^ 20 + r.pq.toNat * 2 ^ 28
    | 5 => if det then 0 else r.handle.toNat
    | 6 => r.pgrp.toNat
    | _ => r.mboff.toNat

def opQinfo (g : Guard) (sd : BitVec 7) (q : BitVec 4) (sel : BitVec 3) : Op :=
  word { g := g, sw := [sd.toNat], cls := some 4 } (fun x s =>
    if (x.g.reg q.toNat).pend then none
    else x.done (s.putS x.k sd.toNat 1 (qinfo (x.g.reg q.toNat) (s.isDet x.k) sel)))
def execQinfo (g : Guard) (sd : BitVec 7) (q : BitVec 4) (sel : BitVec 3) (s : State) : Host.Outcome State Fault Refusal :=
  (opQinfo g sd q sel).run s

end Sys2Proof.Machine
end

