-- ==== Sys2Proof/Machine/Frame.lean ====
section
/-! DEFINITION. The bytes of a team save frame (R255): what a save writes at each offset of it, and what a restore reads. -/

namespace Sys2Proof.Machine

open Sys2Proof

/-! ## Offsets -/

def frameTags : Nat := 0x080000
def frameBars : Nat := 0x080080
def frameBooks : Nat := 0x080100
def frameMap : Nat := 0x080300
def frameClu : Nat := 0x100000
def frameTiles : Nat := 0x200000

/-! ## Words and bytes -/

/-- The words of which a store lists bytes. -/
def wordsOfBytes (m : Store 8) : Store 32 :=
  m.foldr (fun (ab : Nat × Byte) (ws : List (Nat × BitVec 32)) =>
    let part : BitVec 32 := BitVec.setWidth 32 ab.2 <<< (8 * (ab.1 % 4))
    match ws with
    | (k, v) :: rest => if k = ab.1 / 4 then (k, v ||| part) :: rest else (ab.1 / 4, part) :: ws
    | [] => [(ab.1 / 4, part)]) []

/-! ## Barriers -/

/-- A named barrier in 8 bytes: arrivals in [16:0], phase in [17], expected in [48:32]. -/
def Bar.bits (b : Bar) : Nat := b.arr.toNat + (if b.ph then 2 ^ 17 else 0) + b.exp.toNat * 2 ^ 32

def Bar.ofBits (n : Nat) : Bar := { arr := BitVec.ofNat 17 n, ph := fld n 17 1 == 1, exp := BitVec.ofNat 17 (fld n 32 17) }

/-- A named barrier of a team: in its frame while it is saved. -/
def Team.bar (t : Team) (k : Nat) : Bar :=
  match t.frame with
  | some f => Bar.ofBits (Store.load f.bytes (frameBars + 8 * k) 8)
  | none => (SMap.find t.bars k).getD {}

def Team.setBar (t : Team) (k : Nat) (b : Bar) : Team :=
  match t.frame with
  | some f => { t with frame := some { f with bytes := Store.store f.bytes (frameBars + 8 * k) 8 b.bits } }
  | none => { t with bars := SMap.put t.bars k b }

/-! ## The whole frame -/

/-- The bytes that the save of a team writes. -/
def Team.frameBytes (t : Team) (c : Core) (sa cs : Nat) : Store 8 :=
  let tag (i : Nat) : Nat := (Store.rd c.tags i).toNat
  Store.slice c.scratch 0 sa ++
  packed frameTags ((List.range 128).map (fun i => BitVec.ofNat 8 (tag (2 * i) + 16 * tag (2 * i + 1)))) ++
  packed frameBars ((List.range 16).flatMap (fun k => bytesOf 8 (t.bar k).bits)) ++
  packed frameBooks ((List.range 256).flatMap (fun i => bytesOf 2 (Store.rd c.books i).toNat)) ++
  packed frameMap (bytesOf 8 t.tilemap.toNat) ++
  shifted (Store.slice c.clu 0 cs) frameClu ++
  bytesOfWords (c.tiles.filter (fun w => t.tilemap.getLsbD (w.1 / 16384))) frameTiles

/-- The tile map in a frame. -/
def SaveFrame.tilemap (f : SaveFrame) : BitVec 64 := BitVec.ofNat 64 (Store.load f.bytes frameMap 8)

/-- The state of a team that a frame holds, put into a core. -/
def SaveFrame.load (f : SaveFrame) (c : Core) : Core :=
  { c with
    scratch := Store.slice f.bytes 0 frameTags
    tags := unpacked 256 (fun i => (Store.rd f.bytes (frameTags + i / 2)).toNat / 16 ^ (i % 2) % 8)
    books := unpacked 256 (fun i => Store.load f.bytes (frameBooks + 2 * i) 2)
    clu := Store.slice f.bytes frameClu 131072
    tiles := wordsOfBytes (Store.slice f.bytes frameTiles (64 * 0x10000))
    hauls := f.hauls, rets := f.rets }

/-- The barriers in a frame. -/
def SaveFrame.bars (f : SaveFrame) : SMap Bar :=
  ((List.range 16).map (fun k => (k, Bar.ofBits (Store.load f.bytes (frameBars + 8 * k) 8)))).filter (fun kb => kb.2 != {})

end Sys2Proof.Machine
end

