-- ==== Sys2Proof/Machine/Barrier.lean ====
section
/-! DEFINITION. Meanings of OPC 0x1C0 to 0x1CD: BAR (R370, R371), MBAR (R420 to R422), FENCE (R397, R398), SIG and SIGW (R450 to
R453). -/

namespace Sys2Proof.Machine

open Sys2Proof

/-! ## Named barriers -/

/-- One arrival on a named barrier of `g` groups (R371). -/
def Bar.arrive (b : Bar) (n g : Nat) : Bar :=
  let exp : BitVec 17 := if b.exp = 0 then BitVec.ofNat 17 (if n = 0 then g else n) else b.exp
  if b.arr + 1 = exp then { arr := 0, ph := !b.ph, exp := 0 } else { b with arr := b.arr + 1, exp := exp }

/-- Wake the waiters of a team's barrier whose observed phase is over. -/
def State.wakeBar (s : State) (t k : Nat) : State :=
  let ph := match s.team t with | some m => (m.bar k).ph | none => false
  s.wakeAll (fun g _ w => teamOf g == t && w.code == 1 && (w.arg &&& 15).toNat == k && w.arg.getLsbD 4 != ph) true

/-- An arrival of a group: the state, and the phase before it. A guest's crosses the network (R259). -/
def State.barArrive (s : State) (x : Ctx) (k n : Nat) : State × Bool :=
  match s.team (teamOf x.k), s.launch (launchOf x.k) with
  | some t, some l =>
    let b := t.bar k
    let s := if s.isGuest x.k x.g then s.chargeMsg (payerOf x.k) (meshHops (dieOf x.g.core) (dieOf t.core)) else s
    ((s.setTeam (teamOf x.k) (t.setBar k (b.arrive n l.g))).wakeBar (teamOf x.k) k, b.ph)
  | _, _ => (s, false)

def State.groupsIn (s : State) (k : Nat) : Nat := match s.launch (launchOf k) with | some l => l.g | none => 0

/-- Phase of a named barrier. -/
def State.barPhase (s : State) (t k : Nat) : Bool := match s.team t with | some m => (m.bar k).ph | none => false

def Ctx.barWait (x : Ctx) (s : State) (k : Nat) (ph : Bool) : Effect :=
  if s.barPhase (teamOf x.k) k != ph then x.done s
  else x.wait s { code := 1, frag := x.e.frag, arg := BitVec.ofNat 16 (k + (if ph then 16 else 0)) }

def opBarArrive (c : Ctl) (sd : Option (BitVec 7)) (sk sn : Src) : Op :=
  let a := { srcIn 0 sk with uni := true }
  let b := { srcIn 1 sn with uni := true }
  let u : Use := { g := c.g, lu := c.lu, srcs := [a, b], sw := sd.toList.map BitVec.toNat, cls := some 4, order := true }
  word u (fun x s =>
    if 15 < x.uni s a || s.groupsIn x.k < x.uni s b then x.trapCmd s 0x11 0
    else
      let (s, ph) := s.barArrive x (x.uni s a) (x.uni s b)
      x.done (match sd with | some d => s.putS x.k d.toNat 1 (if ph then 1 else 0) | none => s))
def execBarArrive (c : Ctl) (sd : Option (BitVec 7)) (sk sn : Src) (s : State) : Host.Outcome State Fault Refusal :=
  (opBarArrive c sd sk sn).run s

def opBarWait (c : Ctl) (sk sp : Src) : Op :=
  let a := { srcIn 0 sk with uni := true }
  let b := { srcIn 1 sp with uni := true }
  word { g := c.g, lu := c.lu, srcs := [a, b], cls := some 4, touches := true } (fun x s =>
    if 15 < x.uni s a then x.trapCmd s 0x11 0 else x.barWait s (x.uni s a) (x.uni s b % 2 == 1))
def execBarWait (c : Ctl) (sk sp : Src) (s : State) : Host.Outcome State Fault Refusal :=
  (opBarWait c sk sp).run s

def opBarSync (c : Ctl) (sk sn : Src) : Op :=
  let a := { srcIn 0 sk with uni := true }
  let b := { srcIn 1 sn with uni := true }
  word { g := c.g, lu := c.lu, srcs := [a, b], cls := some 4, order := true } (fun x s =>
    if 15 < x.uni s a || s.groupsIn x.k < x.uni s b then x.trapCmd s 0x11 0
    else
      let (s, ph) := s.barArrive x (x.uni s a) (x.uni s b)
      x.barWait s (x.uni s a) ph)
def execBarSync (c : Ctl) (sk sn : Src) (s : State) : Host.Outcome State Fault Refusal :=
  (opBarSync c sk sn).run s

/-! ## Barrier objects -/

/-- The object of an MBAR, or its refusal (R420). -/
def Ctx.mbarObject (x : Ctx) (s : State) (m : MemOp) (so : SrcUse) : (Bool × Nat) ⊕ Effect :=
  let r := x.g.reg m.q.toNat
  let ea := x.ea s r.base.toNat so m.imm (lowLane x.lanes)
  let lo : Int := r.base.toNat
  let hi : Int := lo + r.len.toNat
  let at_ (a : Int) : Nat := (a % (2 ^ 57 : Int)).toNat
  if r.kind == 0 || r.pend then .inr (x.refuseAll s 0x0A (at_ ea))
  else if r.lent || !(r.kind == 9 || r.kind == 10) then .inr (x.refuseAll s 0x08 (at_ ea))
  else if ea < lo || hi < ea + 16 then
    .inr (x.refuseAll s 0x09 (at_ (if ea < lo || hi ≤ ea then ea else hi)))
  else if ea % 16 != 0 then .inr (x.trapCmd s 0x10 (at_ ea))
  else .inl (r.kind == 10, ea.toNat)

/-- A form of MBAR over its object: clu, offset, operand. -/
def mbarWord (g : Guard) (m : MemOp) (b : Option Src) (order : Bool) (u : Use)
    (f : Ctx → State → Bool → Nat → Nat → Effect) : Op :=
  let so := { srcIn 0 m.off with uni := true }
  let sb := b.map (fun b => { srcIn 1 b with uni := true })
  word { u with g := g, srcs := so :: sb.toList, cls := some 4, order := order, touches := true } (fun x s =>
    match x.mbarObject s m so with
    | .inr e => e
    | .inl (clu, off) => f x s clu off (match sb with | some b => x.uni s b | none => 0))

def opMbarInit (g : Guard) (m : MemOp) (sc : Src) : Op :=
  mbarWord g m (some sc) false {} (fun x s clu off n =>
    if n == 0 || 1048575 < n then x.trapCmd s 0x11 0
    else
      let o := s.objAt x.k clu off
      x.done (((s.objWr o (n * 2 ^ 8)).charge (payerOf x.k) 8 1).wakeObjects))
def execMbarInit (g : Guard) (m : MemOp) (sc : Src) (s : State) : Host.Outcome State Fault Refusal :=
  (opMbarInit g m sc).run s

def opMbarExpect (g : Guard) (m : MemOp) (sx : Src) : Op :=
  mbarWord g m (some sx) false {} (fun x s clu off n =>
    x.done ((s.charge (payerOf x.k) 8 1).mbar x.k clu off 0 (BitVec.ofNat 32 n)))
def execMbarExpect (g : Guard) (m : MemOp) (sx : Src) (s : State) : Host.Outcome State Fault Refusal :=
  (opMbarExpect g m sx).run s

def opMbarArrive (g : Guard) (sd : Option (BitVec 7)) (m : MemOp) : Op :=
  mbarWord g m none true { sw := sd.toList.map BitVec.toNat } (fun x s clu off _ =>
    let ph := objPhase (s.objRd (s.objAt x.k clu off))
    let s := (s.charge (payerOf x.k) 8 1).mbar x.k clu off 1 0
    x.done (match sd with | some d => s.putS x.k d.toNat 1 (if ph then 1 else 0) | none => s))
def execMbarArrive (g : Guard) (sd : Option (BitVec 7)) (m : MemOp) (s : State) : Host.Outcome State Fault Refusal :=
  (opMbarArrive g sd m).run s

def opMbarTrywait (g : Guard) (pd : BitVec 3) (m : MemOp) (sp : Src) : Op :=
  mbarWord g m (some sp) false { pw := [pd.toNat] } (fun x s clu off n =>
    if s.isDet x.k then x.trapCmd s 0x28 0
    else
      let v := objPhase (s.objRd (s.objAt x.k clu off)) != (n % 2 == 1)
      x.done ((s.charge (payerOf x.k) 8 1).putP x.k pd.toNat ((lanesOf x.lanes).map (fun i => (i, v)))))
def execMbarTrywait (g : Guard) (pd : BitVec 3) (m : MemOp) (sp : Src) (s : State) : Host.Outcome State Fault Refusal :=
  (opMbarTrywait g pd m sp).run s

def opMbarWait (g : Guard) (m : MemOp) (sp : Src) : Op :=
  mbarWord g m (some sp) false {} (fun x s clu off n =>
    let s := s.charge (payerOf x.k) 8 1
    if objPhase (s.objRd (s.objAt x.k clu off)) != (n % 2 == 1) then x.done s
    else x.wait s { code := 2, frag := x.e.frag, arg := BitVec.ofNat 16 (n % 2), addr := objAddr clu off })
def execMbarWait (g : Guard) (m : MemOp) (sp : Src) (s : State) : Host.Outcome State Fault Refusal :=
  (opMbarWait g m sp).run s

/-! ## Fences -/

/-- Every later access of some lanes waits for their accesses under way (R156, item 6). -/
def State.fenced (s : State) (k : Nat) (m : BitVec 32) : State :=
  { s with accs := s.accs.map (fun (kv : Nat × Acc) =>
      (kv.1, if kv.2.grp == k && kv.2.isOpen && kv.2.lanes &&& m != 0 then { kv.2 with acq := true } else kv.2)) }

/-- FENCE (R397): it retires at issue, and the later accesses of the entry's lanes wait until the earlier ones are performed. -/
def opFence (g : Guard) (sc : Scope) : Op :=
  word { g := g, cls := some 4 } (fun x s => x.done ((s.fenced x.k x.e.mask).clamped x.k sc))
def execFence (g : Guard) (sc : Scope) (s : State) : Host.Outcome State Fault Refusal :=
  (opFence g sc).run s

/-- FENCE.LAYOUT (R170, R398): the layout cache of the core is invalidated. -/
def opFenceLayout (g : Guard) : Op :=
  word { g := g, cls := some 4, order := true } (fun x s => x.done (s.modCore x.g.core (fun c => { c with layouts := [] })))
def execFenceLayout (g : Guard) (s : State) : Host.Outcome State Fault Refusal :=
  (opFenceLayout g).run s

/-! ## Signal objects -/

/-- The object of a SIG or SIGW, or its refusal (R450). -/
def Ctx.signalObject (x : Ctx) (s : State) (m : MemOp) (so : SrcUse) : Nat ⊕ Effect :=
  let r := x.g.reg m.q.toNat
  let ea := x.ea s r.base.toNat so m.imm (lowLane x.lanes)
  let lo : Int := r.base.toNat
  let hi : Int := lo + r.len.toNat
  let at_ (a : Int) : Nat := (a % (2 ^ 57 : Int)).toNat
  if r.kind == 0 || r.pend then .inr (x.refuseAll s 0x0A (at_ ea))
  else if r.lent || r.kind != 4 || (apertureIdx r.base.toNat).isSome then .inr (x.refuseAll s 0x08 (at_ ea))
  else if ea < lo || hi < ea + 8 then .inr (x.refuseAll s 0x09 (at_ (if ea < lo || hi ≤ ea then ea else hi)))
  else if ea % 8 != 0 then .inr (x.trapCmd s 0x10 (at_ ea))
  else .inl ea.toNat

/-- SIG (R450, R451): one 64-bit atomic at the home, a release. -/
def sig (i : Instr) (g : Guard) (sc : Scope) (m : MemOp) (sv : Src) (op : AOp) (neg : Bool) : Op :=
  let so := { srcIn 0 m.off with uni := true }
  let sb := { srcIn 1 sv 2 .s64 with uni := true }
  word { g := g, srcs := [so, sb], cls := some 4, order := true } (fun x s =>
    match x.signalObject s m so with
    | .inr e => e
    | .inl ea =>
      let v := if neg then (2 ^ 64 - x.uni s sb) % 2 ^ 64 else x.uni s sb
      let lane := lowLane x.lanes
      let proto : Acc :=
        { kind := .atomic, use := .word i, vf := vfOf x.k, part := s.leafOf x.k, core := x.g.core, grp := x.k, pc := x.e.pc
          page := 0, lanes := x.lanes, addrs := [(lane, BitVec.ofNat 57 ea)], data := [(lane, BitVec.ofNat 128 v)]
          region := x.g.reg m.q.toNat, frag := x.e.frag, issue := x.id, n := 8 }
      match x.accessGlobal s (.at_ op true) proto (fun _ => ea) x.lanes with
      | none => none
      | some (s, ps) =>
        let left := ps.foldl (fun m p => m ||| p.mask) 0
        let trapped := ps.foldl (fun m p => if p.trap.isSome then m ||| p.mask else m) 0
        some (if trapped == 0 then s.clamped x.k sc else s, ps ++ [{ x.next with mask := x.stay &&& ~~~left }]))

def opSigDec (g : Guard) (sc : Scope) (m : MemOp) (sv : Src) : Op :=
  sig (.sigDec g sc m sv) g sc m sv .add true
def execSigDec (g : Guard) (sc : Scope) (m : MemOp) (sv : Src) (s : State) : Host.Outcome State Fault Refusal :=
  (opSigDec g sc m sv).run s
def opSigAdd (g : Guard) (sc : Scope) (m : MemOp) (sv : Src) : Op :=
  sig (.sigAdd g sc m sv) g sc m sv .add false
def execSigAdd (g : Guard) (sc : Scope) (m : MemOp) (sv : Src) (s : State) : Host.Outcome State Fault Refusal :=
  (opSigAdd g sc m sv).run s
def opSigSet (g : Guard) (sc : Scope) (m : MemOp) (sv : Src) : Op :=
  sig (.sigSet g sc m sv) g sc m sv .exch false
def execSigSet (g : Guard) (sc : Scope) (m : MemOp) (sv : Src) (s : State) : Host.Outcome State Fault Refusal :=
  (opSigSet g sc m sv).run s

/-- SIGW (R452, R453): the object is read at its home, never from an L1. -/
def opSigw (g : Guard) (cmp : Cmp) (sc : Scope) (m : MemOp) (c : Src) : Op :=
  let so := { srcIn 0 m.off with uni := true }
  let sb := { srcIn 1 c 2 .s64 with uni := true }
  word { g := g, srcs := [so, sb], cls := some 4, touches := true } (fun x s =>
    match x.signalObject s m so with
    | .inr e => e
    | .inl ea =>
      let i : Instr := .sigw g cmp sc m c
      let v := BitVec.ofNat 64 (x.uni s sb)
      if (s.openAccs x.k x.lanes).any (fun a => a.holds x.lanes (fun _ => ea) 8) then none
      else match s.xlate x.g.core (vfOf x.k) (s.leafOf x.k) ea with
        | none => none
        | some (s, .retry va r st fresh) => x.park s i .load [(va, r, st, fresh)]
        | some (s, .term va r st) => x.terminal s i .load va r st
        | some (s, .page p) =>
          match p.deny (s.vf (vfOf x.k)) (some 1) .ld with
          | some (r, st) => x.terminal s i .load ea r st
          | none =>
            if s.hostFails (p.at ea) 8 then x.terminal s i .load ea 7 false
            else
            let s := s.chargeRead (payerOf x.k) (s.leafOf x.k) x.g.core (p.at ea) 8
            if cmpHolds cmp (s.signalAt (p.at ea)) v then x.done (s.clamped x.k sc)
            else x.wait s
              { code := 3, frag := x.e.frag, arg := BitVec.ofNat 16 (cmpCode cmp), addr := BitVec.ofNat 64 ea, value := v
                clamp := sc == .system && (s.vf (vfOf x.k)).clamp })
def execSigw (g : Guard) (cmp : Cmp) (sc : Scope) (m : MemOp) (c : Src) (s : State) : Host.Outcome State Fault Refusal :=
  (opSigw g cmp sc m c).run s

end Sys2Proof.Machine
end

