-- ==== Sys2Proof/Machine/Audit.lean ====
section
/-! DEFINITION. Requests of the firmware to append audit records (R308), and the records of errors (R316). The layout of the
40 payload bytes is the model's (log 60). -/

namespace Sys2Proof.Machine

open Sys2Proof

/-- VF and PART fields for none, and the PF. -/
def noVf : BitVec 11 := 0x7FF
def pfVf : BitVec 11 := 0x400
def noPart : BitVec 7 := 0x7F

/-- Firmware functions as sources of records, in the order of R306. -/
def srcIntake : BitVec 4 := 0
def srcDispatch : BitVec 4 := 1
def srcMemory : BitVec 4 := 2
def srcErrors : BitVec 4 := 3
def srcTrust : BitVec 4 := 4
def srcMeter : BitVec 4 := 5
def srcFabric : BitVec 4 := 6
def srcMonitor : BitVec 4 := 7
def srcRoot : BitVec 4 := 15

/-- Ask the root of trust for a record. -/
def State.audit (s : State) (typ : BitVec 8) (src : BitVec 4) (vf : BitVec 11) (part : BitVec 7) (payload : Nat) : State :=
  s.modDev (fun d => { d with
    auditQ := d.auditQ ++ [{ typ := typ, src := src, vf := vf, part := part, payload := BitVec.ofNat 320 payload }] })

/-- SEQ that a record requested now will have. -/
def State.nextRecord (s : State) : Nat := s.dev.auditNext + s.dev.auditQ.length

/-- Unit of an error as a number: class in [7:0], place in [31:8]. -/
def unitCode : UnitId → Nat
  | .sram b => 256 * b
  | .lane l n => 1 + 256 * (l * 64 + n)
  | .array c => 2 + 256 * c
  | .weighbridge t => 3 + 256 * t

/-- Record an error (R316): unit, kind, syndrome. -/
def State.errorRecord (s : State) (unit : UnitId) (kind : BitVec 8) (syn : BitVec 64) : State :=
  s.audit 0x06 srcErrors noVf noPart (unitCode unit + 2 ^ 32 * kind.toNat + 2 ^ 64 * syn.toNat)

/-- Take a unit out of service until its self-test ends (R317). -/
def State.outOfService (s : State) (unit : UnitId) : State :=
  let s := s.modDev (fun d => { d with testing := if d.testing.contains unit then d.testing else d.testing ++ [unit] })
  match unit with
  | .array c => s.modCore c (fun m => { m with sawHeld := true })
  | _ => s

end Sys2Proof.Machine
end

