-- ==== Sys2Proof/Machine/Claims.lean ====
section
/-! DEFINITION. The claim table (R97, R101, R112, R113): CLAIM, RELEASE, WITHDRAW, BORROW_TIMEOUT, CLAIM_SWEEP (R117); the
answers at the core (R100, R102, R103, R263); write-back responses, acknowledged atomics and write-backs of open lines (R21,
R105, R133). -/

namespace Sys2Proof.Machine

open Sys2Proof

/-! ## The table -/

/-- Two kinds that may overlap (R97). -/
def compatible (k m : HeldKind) : Bool :=
  match k, m with
  | .s, .s => true
  | .a, .a => true
  | _, _ => false

def ClaimEntry.overlaps (e : ClaimEntry) (base len : Nat) : Bool := decide (e.base < base + len) && decide (base < e.base + e.len)

/-- An entry conflicts with a request of arrival order `seq` (R101): held, or waiting since before. -/
def ClaimEntry.conflicts (e : ClaimEntry) (base len : Nat) (kind : HeldKind) (seq : Nat) : Bool :=
  e.overlaps base len && !compatible e.kind kind &&
    (match e.st with
    | .held => true
    | .wait => decide (e.seq < seq)
    | .orphan => false)

/-- Number of an answer on a connection, packed in the `core` field of a peer's claim. -/
def peerTicket (conn seq : Nat) : Nat := conn * 2 ^ 32 + seq

/-- The window of a receiver moves past the numbers that are answered. -/
def Conn.slide (c : Conn) : (fuel : Nat) → Conn
  | 0 => c
  | n + 1 =>
    if c.answered.any (fun a => a.1 == c.low) then
      { c with low := c.low + 1, answered := c.answered.filter (fun a => a.1 != c.low) }.slide n
    else c

/-- Answer a request of a peer (R295): the answer is sent, and kept with the request's number. -/
def State.answerPeer (s : State) (conn : Nat) (seq : BitVec 32) (st : PeerStatus) (data : List Byte) : State :=
  s.modDev (fun d => match SMap.find d.conns conn with
    | some c =>
      let c := { c with answered := c.answered ++ [(seq, st, data)], out := (seq, st, data) :: c.out }
      { d with conns := SMap.put d.conns conn (c.slide c.answered.length) }
    | none => d)

/-- Answer a claim: to the requesting core over the response channel, or to the peer. -/
def State.answerClaim (s : State) (d : Nat) (e : ClaimEntry) (grant : Option (BitVec 24 × Bool)) (why : RefuseReason) : State :=
  match e.peer with
  | some _ =>
    s.answerPeer (e.core / 2 ^ 32) (BitVec.ofNat 32 (e.core % 2 ^ 32))
      (match grant with
      | some (h, o) => .granted ((h &&& 0xFFFF).toNat + 2 ^ 16 * d) (genOf h) o
      | none => .refused why) []
  | none =>
    -- the core that holds the context now (R113)
    let core := match s.group e.ctx with | some g => g.core | none => e.core
    let s := s.chargeMsg (payerOf e.ctx) (meshHops d (dieOf core))
    match grant with
    | some (h, o) => s.send (.grant e.ctx e.q h o) (answerRoute d core)
    | none => s.send (.refuse e.ctx e.q why) (answerRoute d core)

/-- Make an entry HELD: ORPHAN where a mark overlaps; an X grant removes the marks that it covers (R112). -/
def State.grantEntry (s : State) (d n : Nat) (e : ClaimEntry) : State :=
  let die := s.die d
  let marks := die.claims.filter (fun c => c.2.st == .orphan && c.2.overlaps e.base e.len)
  let gone (c : ClaimEntry) : Bool :=
    c.st == .orphan && e.kind == .x && decide (e.base ≤ c.base) && decide (c.base + c.len ≤ e.base + e.len)
  let claims := SMap.put (die.claims.filter (fun c => !gone c.2)) n { e with st := .held }
  (s.setDie d { die with claims := claims }).answerClaim d e
    (some (handleOf d n (Store.rd die.gens n).toNat, !marks.isEmpty)) .busy

/-- Waiting requests in order of arrival. -/
def insertBySeq (x : Nat × ClaimEntry) : List (Nat × ClaimEntry) → List (Nat × ClaimEntry)
  | [] => [x]
  | y :: l => if x.2.seq < y.2.seq then x :: y :: l else y :: insertBySeq x l

def Die.waits (d : Die) : List (Nat × ClaimEntry) :=
  (d.claims.filter (fun c => c.2.st == .wait)).foldl (fun l x => insertBySeq x l) []

def Die.clear (d : Die) (base len : Nat) (kind : HeldKind) (seq : Nat) : Bool :=
  d.claims.all (fun c => !c.2.conflicts base len kind seq)

/-- Grant the waiting requests whose conflicts have cleared, oldest first (R101). -/
def State.regrant (s : State) (d : Nat) : State :=
  (s.die d).waits.foldl (fun s ne =>
    if (s.die d).clear ne.2.base ne.2.len ne.2.kind ne.2.seq then s.grantEntry d ne.1 ne.2 else s) s

/-- Entries of a claim table. -/
def claimEntries : Nat := 65536

/-- A claim reaches its home (R100, R101, R112). Of SELF (R100) and FULL (R112) where both apply, SELF is answered (log 99). -/
def State.claimAt (s : State) (d : Nat) (m : ClaimMsg) : State :=
  let die := s.die d
  let seq := die.claimSeq
  let e : ClaimEntry :=
    { st := .wait, base := m.base, len := m.len, kind := m.kind, ctx := m.ctx, vf := m.vf, core := m.core, q := m.q
      peer := m.peer, seq := seq }
  let cs := die.claims.filter (fun c => c.2.conflicts m.base m.len m.kind seq)
  let s := s.setDie d { die with claimSeq := seq + 1 }
  let n := SMap.fresh die.claims 0
  if !cs.isEmpty && cs.all (fun c => c.2.st == .held && c.2.ctx == m.ctx && c.2.peer.map (· / 4096) == m.peer.map (· / 4096)) then s.answerClaim d e none .self_
  else if claimEntries ≤ n then s.answerClaim d e none .full
  else if cs.isEmpty then s.grantEntry d n e
  else if m.try_ then s.answerClaim d e none .busy
  else s.modDie d (fun x => { x with claims := SMap.put x.claims n e })

def execClaim (die : Nat) (m : ClaimMsg) (s : State) : Host.Outcome State Fault Refusal := .next (s.claimAt die m)

/-- A release reaches its home: the entry is freed and GEN advances, or a stale one is discarded and logged (R112). -/
def State.releaseAt (s : State) (d n gen : Nat) : State :=
  let die := s.die d
  let cur := (Store.rd die.gens n).toNat
  match SMap.find die.claims n with
  | some e =>
    if e.st == .held && cur == gen then
      (s.setDie d { die with claims := SMap.del die.claims n, gens := Store.wr die.gens n (BitVec.ofNat 4 (gen + 1)) }).regrant d
    else s.audit 0x06 srcErrors noVf noPart (4 + 256 * (d * claimEntries + n))
  | none => s.audit 0x06 srcErrors noVf noPart (4 + 256 * (d * claimEntries + n))

def execRelease (die entry gen _ctx : Nat) (s : State) : Host.Outcome State Fault Refusal := .next (s.releaseAt die entry gen)

/-- Drop the waiting claims of a peer that meet a condition; each of its requests is answered (R295, log 34). -/
def State.dropPeerWaits (s : State) (d : Nat) (mine : ClaimEntry → Bool) : State :=
  let ws := (s.die d).claims.filter (fun c => c.2.st == .wait && c.2.peer.isSome && mine c.2)
  let s := ws.foldl (fun s c => s.answerClaim d c.2 none .peer) s
  (s.modDie d (fun x => { x with claims := x.claims.filter (fun c => !(c.2.st == .wait && c.2.peer.isSome && mine c.2)) })).regrant d

/-- A withdrawal reaches its home (R112, R263). A grant or refusal that left before it is still to be met at the core. -/
def State.withdrawAt (s : State) (d ctx : Nat) (q : BitVec 4) : State :=
  match (s.die d).claims.find? (fun c => c.2.st == .wait && c.2.ctx == ctx && c.2.q == q && c.2.peer.isNone) with
  | none => s
  | some (n, _) =>
    let s := s.modGroup ctx (fun g => { g with cancelled := g.cancelled.erase (q.toNat + 16 * d) })
    (s.modDie d (fun x => { x with claims := SMap.del x.claims n })).regrant d

def execWithdraw (die ctx : Nat) (q : BitVec 4) (s : State) : Host.Outcome State Fault Refusal := .next (s.withdrawAt die ctx q)

/-- The borrow timeout of a launch in ns (R275). -/
def Launch.borrowNs (l : Launch) : Nat := (if l.desc.btime = 0 then 10000 else l.desc.btime.toNat) * 1000

/-- The home withdraws a request whose time has run out (R103). -/
def State.borrowTimeout (s : State) (d n : Nat) : Option State :=
  match SMap.find (s.die d).claims n with
  | none => none
  | some e =>
    match s.launch (launchOf e.ctx) with
    | none => none
    | some l =>
      if e.st != .wait || e.peer.isSome || e.age < l.borrowNs then none
      else
        some (((s.modDie d (fun x => { x with claims := SMap.del x.claims n })).answerClaim d e none .timeout).regrant d)

def execBorrowTimeout (die entry : Nat) (s : State) : Host.Outcome State Fault Refusal := event (s.borrowTimeout die entry)

/-! ## Answers at the core -/

/-- Status word of a refusal (R100). -/
def refuseStatus (r : RefuseReason) : BitVec 32 :=
  match r with
  | .busy => 4
  | .self_ => 8
  | .full => 0x10
  | .peer => 0x20
  | .timeout => 0x40

/-- The answer of a BOR is written: status and register; the waiting entry goes on (R99). -/
def State.borAnswer (s : State) (k : Nat) (q : BitVec 4) (b : PendBor) (r : Region) (status : BitVec 32) : State :=
  let s := s.modGroup k (fun g =>
    { (g.setReg q.toNat r) with
      bors := SMap.del g.bors q.toNat, s := Store.wr g.s b.sd status
      pend := g.pend.filter (fun p => !(p.op == b.op && p.reg == .s b.sd)) })
  let s := s.progress (teamOf k)
  match s.group k with
  | none => s
  | some g =>
    if b.try_ then s.makeReady k
    -- the BOR retires, and its issue is charged (R99, R225)
    else (g.wakes.filter (fun w => w.code == 4 && w.arg.toNat == q.toNat)).foldl (fun s w => (s.wakeRec k w true).charge (payerOf k) 4 1) s

/-- A grant reaches the core (R100, R102, R263). -/
def State.grantAt (s : State) (k : Nat) (q : BitVec 4) (h : BitVec 24) (orphan : Bool) : State :=
  match s.group k with
  | none => s
  | some g =>
    let c := q.toNat + 16 * (if h.getLsbD 23 then 8 else (h >>> 16 &&& 7).toNat)
    if g.cancelled.contains c then
      (s.setGroup k { g with cancelled := g.cancelled.erase c }).sendRelease k g.core h
        ((s.vf (vfOf k)).peerHeld.reverse.find? (fun p => p.ctx == k && p.win == (h &&& 0xFFFF).toNat && genOf p.handle == genOf h))
    else match SMap.find g.bors q.toNat with
      | none => s
      | some b =>
        let r := { b.region with handle := h, orph := orphan }
        let s := if r.kind == 3 then s else (s.l1Discard g.core (vfOf k) r.base.toNat r.len.toNat).1
        s.borAnswer k q b r (if orphan then 3 else 1)

def execGrant (ctx : Nat) (q : BitVec 4) (handle : BitVec 24) (orphan : Bool) (s : State) : Host.Outcome State Fault Refusal :=
  .next (s.grantAt ctx q handle orphan)

/-- A timed-out BOR under the policy of R96; none while its trap must wait for the frame (R248). -/
def State.borExpired (s : State) (k : Nat) (g : Group) (q : BitVec 4) (b : PendBor) : Option State :=
  match (g.wakes.find? (fun w => w.code == 4 && w.arg.toNat == q.toNat)).bind (fun w => g.entry w.frag) with
  | none => some (s.borAnswer k q b {} 0x40)
  | some e =>
    let c : Ctx := { k := k, g := g, e := e, pass := b.pass, stay := e.mask, lanes := b.pass, id := s.nextId }
    let pol : BitVec 2 := match s.launch (launchOf k) with | some l => l.desc.bpol | none => 0
    let (s, p) := c.refuse s.bump b.pass 0x0C b.region.base.toNat
    if pol == 1 then some (s.borAnswer k q b {} 0x40)
    else
      let s := s.modGroup k (fun g =>
        { (g.setReg q.toNat {}) with
          bors := SMap.del g.bors q.toNat, wakes := g.wakes.filter (fun w => w.frag != e.frag) })
      s.finish { cls := none } k e b.pass c.id [{ c.next with mask := e.mask &&& ~~~b.pass }, p]

/-- A refusal reaches the core (R100, R103, R263). -/
def State.refuseAt (s : State) (k : Nat) (q : BitVec 4) (r : RefuseReason) : Option State :=
  match s.group k with
  | none => some s
  | some g =>
    match g.cancelled.find? (fun c => c % 16 == q.toNat) with
    | some c => some (s.setGroup k { g with cancelled := g.cancelled.erase c })
    | none => match SMap.find g.bors q.toNat with
      | none => some s
      | some b => if r == .timeout then s.borExpired k g q b else some (s.borAnswer k q b {} (refuseStatus r))

def execRefuse (ctx : Nat) (q : BitVec 4) (r : RefuseReason) (s : State) : Host.Outcome State Fault Refusal :=
  event (s.refuseAt ctx q r)

/-! ## Returns and write-backs -/

/-- The home answers a write-back of a return (R21). -/
def State.writeBackAnswered (s : State) (core id : Nat) : State :=
  match SMap.find (s.core core).rets id with
  | none => s
  | some r => (s.modCore core (fun c => { c with rets := SMap.put c.rets id { r with wbs := r.wbs - 1 } })).tryRelease core id

def execWriteBackResponse (core ret : Nat) (s : State) : Host.Outcome State Fault Refusal := .next (s.writeBackAnswered core ret)

/-- The home acknowledges an atomic of an A borrow (R105). -/
def State.atomicAcked (s : State) (core k : Nat) (h : BitVec 24) : State :=
  let s := s.modCore core (fun c => { c with unacked := c.unacked.erase (k, h) })
  (SMap.keys (s.core core).rets).foldl (fun s id =>
    match SMap.find (s.core core).rets id with
    | some r => if r.started && r.grp == k && r.handle == h then s.tryRelease core id else s
    | none => s) s

def execAtomicAcknowledgement (core grp : Nat) (handle : BitVec 24) (s : State) : Host.Outcome State Fault Refusal :=
  .next (s.atomicAcked core grp handle)

/-- The L1 writes back the dirty bytes of an open line of its own accord (R133). -/
def State.openWriteBack (s : State) (core line : Nat) : Option State :=
  match (s.core core).l1.find? (fun x => x.line == line && x.cls == 1 && x.dirty != 0) with
  | none => none
  | some x => some ((s.writeBack core x (BitVec.allOnes 512)).l1Put core { x with dirty := 0 })

def execL1WriteBack (core line : Nat) (s : State) : Host.Outcome State Fault Refusal := event (s.openWriteBack core line)

/-! ## The claim sweep (R117) -/

/-- A message of some contexts that a sweep release cannot pass (R20). -/
def claimInFlight (mine : Nat → Bool) (i : Instr) : Bool :=
  match i with
  | .claim _ m => mine m.ctx && m.peer.isNone
  | .release _ _ _ ctx => mine ctx
  | .withdraw _ ctx _ => mine ctx
  | _ => false

/-- Invalidate the X ranges of some contexts in every L1 and discard their dirty bytes. -/
def State.sweepL1 (s : State) (vf : Nat) (mine : Nat → Bool) : State :=
  let held := s.dies.flatMap (fun kv => ((SMap.vals kv.2.claims).filter (fun e =>
    e.st == .held && e.kind == .x && e.peer.isNone && mine e.ctx)).map (fun e => (e.base, e.len)))
  let peer := ((s.vf vf).peerHeld.filter (fun g => mine g.ctx && g.kind == 1)).map (fun g => (peerBase + g.win * 2 ^ 40 + g.off, g.len))
  (held ++ peer).foldl (fun s r =>
    (SMap.keys s.cores).foldl (fun s c => s.l1Range c vf r.1 r.2 false true) s) s

/-- Turn the grants of some entries of a die into orphan marks and drop their waiting requests; answers their number. -/
def State.sweepDie (s : State) (d : Nat) (mine : ClaimEntry → Bool) : State × Nat :=
  let die := s.die d
  let held := die.claims.filter (fun c => c.2.st == .held && mine c.2)
  let claims := (die.claims.filter (fun c => !(c.2.st == .wait && mine c.2))).map (fun (c : Nat × ClaimEntry) =>
    (c.1, if c.2.st == .held && mine c.2 then { c.2 with st := .orphan } else c.2))
  let gens := held.foldl (fun g c => Store.wr g c.1 (Store.rd g c.1 + 1)) die.gens
  ((s.setDie d { die with claims := claims, gens := gens }).regrant d, held.length)

/-- Release every grant of a launch, or of every launch, of a VF (R117). -/
def State.sweepClaims (s : State) (vf : Nat) (payer : Payer) (launch : Option Nat) : State :=
  let mine (k : Nat) : Bool := vfOf k == vf && launch.all (fun l => launchOf k == l)
  let s := s.sweepL1 vf mine
  let s := (SMap.keys s.dies).foldl (fun s d =>
    let (s, n) := s.sweepDie d (fun e => e.peer.isNone && mine e.ctx)
    s.charge payer 13 n) s
  -- the walk at the claim tables of the peers where grants are held or claims wait
  let gs := (s.vf vf).peerHeld.filter (fun g => mine g.ctx)
  let s := (s.charge payer 13 gs.length).modVf vf (fun v => { v with peerHeld := v.peerHeld.filter (fun g => !mine g.ctx) })
  let waits (c : Conn) : List Nat := (c.sent ++ c.queue).filterMap (fun r => match r.kind with
    | .claim m => if mine m.ctx then some r.imp else none
    | _ => none)
  let wins := gs.map (fun g => g.win) ++ (s.dev.conns.filter (fun c => c.2.vf == vf)).flatMap (fun c => waits c.2)
  let pair (w : Nat) : Nat × Nat := match SMap.find (s.vf vf).imports w with | some i => (i.rdev.toNat, i.rvf.toNat) | none => (0, 0)
  ((wins.map pair).eraseDups.filterMap (fun p => wins.find? (fun w => pair w == p))).foldl (fun s w =>
    s.peerSend vf w (.sweep launch) 0 0 0 0) s

/-- The claim sweep of a killed launch. -/
def State.claimSweep (s : State) (l : Nat) : Option State :=
  match s.launch l with
  | none => none
  | some m =>
    match m.st with
    | .killed cause hang =>
      let mine (k : Nat) : Bool := launchOf k == l
      if s.pending.any (fun m => claimInFlight mine m.instr) then none
      else some ((s.sweepClaims (launchVf l) (.launch l) (some l)).modLaunch l (fun m => { m with st := .swept cause hang }))
    | _ => none

def execClaimSweep (launch : Nat) (s : State) : Host.Outcome State Fault Refusal := event (s.claimSweep launch)

end Sys2Proof.Machine
end

