-- ==== Sys2Proof/Machine/Context.lean ====
section
/-! DEFINITION. Contexts: activation with its probe (R71 to R75), swap-out (R76, R77), fills of register lines (R66, R70), results
of loads (R56, R77), imprecise traps (R246, R248), fetch (R321 to R323), and the traps of a fetched line. -/

namespace Sys2Proof.Machine

open Sys2Proof

/-! ## Activation -/

/-- Active groups that a section holds (R73). -/
def activeSlots : Nat := 8
/-- Lines of a quarter (R64). -/
def quarterLines : Nat := 512

/-- The group may be activated on a core and section (R74, R75, R237). -/
def State.waitsFor (s : State) (core sect k : Nat) (g : Group) : Bool :=
  g.core == core && g.sect == sect && g.queued.isSome && !g.active && (!g.stopped || g.step.isSome) && !g.cfault && g.res != .ended &&
    (g.res != .guest || g.slot.isSome) &&
    (match s.launch (launchOf k) with | some l => l.st == .running | none => false) &&
    (g.res == .guest || (match s.team (teamOf k) with | some t => t.st == .running | none => false))

/-- Entries of a section's hardware ready list (R73). -/
def readyListLen : Nat := 64

/-- Order within a queue: entries put at its head, the latest first (R84), then the oldest readiness (R74). -/
def Group.aheadOf (a b : Group) : Bool :=
  match a.atHead, b.atHead with
  | some m, some n => decide (n < m)
  | some _, none => true
  | none, some _ => false
  | none, none => decide (a.queued.getD 0 < b.queued.getD 0)

/-- The ready groups of a section in the order of their queues; equal readiness goes to the lower key. -/
def State.readyOf (s : State) (core sect : Nat) : List (Nat × Group) :=
  sortBy (fun a b => a.2.aheadOf b.2) (s.groups.filter (fun kg => s.waitsFor core sect kg.1 kg.2))

/-- A group that stands in the producer queue. -/
def State.inProducers (s : State) (k : Nat) : Bool :=
  match s.launch (launchOf k) with | some l => !l.consumer (groupNo k) | none => true

/-- The groups in the section's hardware ready list, and those that have spilled in order into its ring of producers or of consumers
(R73; the rings' bytes are not modelled, log 103). -/
def State.readyList (s : State) (core sect : Nat) : List (Nat × Group) := (s.readyOf core sect).take readyListLen
def State.readyRing (s : State) (core sect : Nat) (producers : Bool) : List (Nat × Group) :=
  ((s.readyOf core sect).drop readyListLen).filter (fun kg => s.inProducers kg.1 == producers)

/-- The head of a section's producer or consumer queue, whose tail stands in the ring. -/
def State.queueHead (s : State) (core sect : Nat) (producers : Bool) : Option (Nat × Group) :=
  ((s.readyList core sect).filter (fun kg => s.inProducers kg.1 == producers) ++ s.readyRing core sect producers).head?

/-- The launch takes producers first. -/
def State.prodFirst (s : State) (k : Nat) : Bool :=
  match s.launch (launchOf k) with | some l => l.desc.prodfirst | none => false

/-- The group that became ready first. -/
def firstReady (l : List (Nat × Group)) : Option (Nat × Group) :=
  l.foldl (fun (b : Option (Nat × Group)) kg =>
    match b with
    | none => some kg
    | some kb => if kg.2.queued.getD 0 < kb.2.queued.getD 0 then some kg else b) none

/-- The ready group that a section activates next (R74): the URGENT one that is ready longest, the head of the producer queue under
prodfirst, else the head of the queue of oldest readiness. -/
def State.nextReady (s : State) (core sect : Nat) : Option (Nat × Group) :=
  match firstReady ((s.readyOf core sect).filter (fun kg => kg.2.urgent)) with
  | some kg => some kg
  | none =>
    match s.queueHead core sect true, s.queueHead core sect false with
    | some p, some c => if s.prodFirst p.1 then some p else firstReady (if p.1 < c.1 then [p, c] else [c, p])
    | some p, none => some p
    | none, c => c

/-- Outcome of the activation probe (R71). -/
inductive Probe
  | ok (ps : List Xlat)
  | retry (va : Nat) (reason : BitVec 4) (stage fresh : Bool)
  | term (va : Nat) (reason : BitVec 4) (stage : Bool)
deriving DecidableEq, Repr

/-- Translate the pages of a range of class ctx, ascending. -/
def State.probeFrom (s : State) (core vf part end_ : Nat) : (fuel va : Nat) → Option (State × Probe)
  | 0, _ => some (s, .ok [])
  | f + 1, va =>
    if end_ ≤ va then some (s, .ok [])
    else match s.xlate core vf part va with
      | none => none
      | some (s, .retry va c st fresh) => some (s, .retry va c st fresh)
      | some (s, .term va c st) => some (s, .term va c st)
      | some (s, .page x) =>
        match (x.deny (s.vf vf) (some 2) .ld).orElse (fun _ => x.deny (s.vf vf) (some 2) .st) with
        | some (c, st) => some (s, .term va c st)
        | none =>
          match State.probeFrom s core vf part end_ f (x.va + x.size) with
          | some (s, .ok ps) => some (s, .ok (x :: ps))
          | r => r

/-- The record of a fault of the probe (R146). -/
def State.probeRecord (s : State) (k core va : Nat) (reason : BitVec 4) (stage : Bool) : FaultRec :=
  { va := BitVec.ofNat 57 va, cause := 0x22, access := .probe, reason := reason, vf := vfOf k, part := s.leafOf k, ctx := k
    die := dieOf core, core := core % 16, stage := stage }

/-- Bound groups of a section by pipe. -/
def State.boundTo (s : State) (core sect pipe : Nat) : List Nat :=
  ((s.core core).sect sect).active.filter (fun k => match s.group k with | some g => g.pipe == pipe | none => false)

/-- The pipe with fewer bound groups, the lower number on a tie (R74). -/
def State.choosePipe (s : State) (core sect : Nat) : Nat :=
  (List.range 4).foldl (fun b p => if (s.boundTo core sect p).length < (s.boundTo core sect b).length then p else b) 0

/-- Groups that left a quarter and whose CLEAN lines it retains (R69). -/
def State.retaining (s : State) (core sect pipe : Nat) : List (Nat × Group) :=
  s.groups.filter (fun kg =>
    kg.2.core == core && kg.2.sect == sect && kg.2.pipe == pipe && !kg.2.active && kg.2.lines.any (fun l => l.2.st == .clean))

/-- Evict CLEAN lines of groups that are not active, line by line, those of the group that left longest ago first (R69). -/
def State.evictLines (s : State) (core sect pipe : Nat) : (n : Nat) → State
  | 0 => s
  | n + 1 =>
    match s.retaining core sect pipe with
    | [] => s
    | kg :: rest =>
      let old := rest.foldl (fun (b : Nat × Group) x => if x.2.left < b.2.left then x else b) kg
      (s.modGroup old.1 (fun g =>
        match g.lines.find? (fun l => l.2.st == .clean) with
        | some l => { g with lines := SMap.del g.lines l.1 }
        | none => g)).evictLines core sect pipe n

/-- Make room in a quarter for the full budgets of its bound groups (R64). -/
def State.evictRetained (s : State) (core sect pipe : Nat) : State :=
  let need := (s.boundTo core sect pipe).foldl (fun a k => a + (match s.group k with | some g => g.bud | none => 0)) 0
  let kept := (s.retaining core sect pipe).foldl (fun a kg => a + (kg.2.lines.filter (fun l => l.2.st == .clean)).length) 0
  s.evictLines core sect pipe (need + kept - quarterLines)

/-- Bind a probed group: latches restored from a full save, lines of another pipe dropped, youngest of its section. -/
def State.bind (s : State) (k : Nat) (g : Group) (ps : List Xlat) : State :=
  let pipe := s.choosePipe g.core g.sect
  let lines := if g.pipe == pipe then g.lines else g.lines.filter (fun l => l.2.st == .filling)
  let s := s.setGroup k { g with
    started := true, active := true, res := (if g.res == .guest then .guest else .active), pipe := pipe, lines := lines
    latches := (if g.full then g.saved.filter (fun l => g.lv.getLsbD l.1) else [])
    full := false, lv := 0, saved := [], urgent := false, queued := none, atHead := none, recPages := ps }
  (s.modCore g.core (fun c => c.setSect g.sect { c.sect g.sect with active := (c.sect g.sect).active ++ [k] })).evictRetained g.core g.sect pipe

/-- The parts that a split left for a pending group are delivered before it issues (R108). -/
def State.takeParts (s : State) (k : Nat) : State :=
  match s.group k with
  | none => s
  | some g =>
    if g.res == .guest then s
    else g.parts.foldl (fun s p => s.deliverPart k p.1 p.2) (s.setGroup k { g with parts := [] })

/-- Activate a ready group (R71, R89, R94): the header of its first activation is written, that of a later one is checked. -/
def State.activateGroup (s : State) (core : Nat) (k : Nat) (g : Group) (l : Launch) : Option State :=
  let va := l.recVa (teamNo k) (groupNo k)
  match s.probeFrom core (vfOf k) l.leaf (va + recSize (l.budgetOf (groupNo k))) 3 va with
  | none => none
  | some (s, .retry va c st fresh) =>
    let s := if fresh then s.retryFault va (s.probeRecord k core va c st) else s
    some (s.modGroup k (fun g => { g with cfault := true, queued := none, atHead := none }))
  | some (s, .term va c st) =>
    let r := s.probeRecord k core va c st
    if (s.die r.die).roomFor r.part then some ((s.keepRecord r).contextFault k va) else none
  | some (s, .ok ps) =>
    if !g.started then some (((s.bind k g ps).putHeader k true).takeParts k)
    else
      let m := (s.recHeader k { g with active := true, recPages := ps }).getD []
      match g.loadHeader m with
      | .inr o => some (s.contextFault k (s.recordVa k o))
      | .inl g => some ((s.bind k { g with wrote := m } ps).takeParts k)

/-- A section activates its next ready group (R74); a step of the PF's debugger at the house account's charge. -/
def State.activate (s : State) (core sect : Nat) : Option State :=
  if activeSlots ≤ ((s.core core).sect sect).active.length || s.dev.shut then none
  else match s.nextReady core sect with
    | none => none
    | some (k, g) =>
      match s.launch (launchOf k) with
      | none => none
      | some l => s.onHouse (g.byPf && g.step.isSome) (fun s => s.activateGroup core k g l)

def execGroupActivation (core sect : Nat) (s : State) : Host.Outcome State Fault Refusal := event (s.activate core sect)

/-! ## Fills (R66, R70) -/

/-- A fill ends (R66, R70): the record's bytes are read through the core's L1, at the house account's charge where the PF's debugger
holds the group (R266). The line of an active group is CLEAN, or DIRTY where lanes were written meanwhile. The bytes of a group that
has left lie in the L1 only, once its record is reached; what waited to be written into the record is written. -/
def State.fillEnds (s : State) (k n : Nat) : Option State :=
  match s.group k with
  | none => none
  | some g =>
    match SMap.find g.lines n with
    | none => none
    | some ln =>
      if ln.st != .filling then none
      else
        let p : Payer := if g.byPf then .house else payerOf k
        let s := s.charge p 6 1
        let x := s.recXlat k g (s.regVa k n)
        let s := match x with
          | some x => if s.hosts k g then s.l1Fill p (s.leafOf k) g.core x (s.regVa k n) 128 else s
          | none => s
        let g' := g.wakeFill n
        if g.active then
          let d := overlaid ln.got ln.data (s.recordLanes k g n)
          some (s.setGroup k { g' with lines := SMap.put g.lines n { st := (if ln.got == 0 then .clean else .dirty), data := d } })
        else x.map (fun x =>
          ((s.putLanes k g x n ln.got ln.data).setGroup k { g' with lines := SMap.del g.lines n }).makeReady k)

def execRegisterFill (grp n : Nat) (s : State) : Host.Outcome State Fault Refusal := event (s.fillEnds grp n)

/-! ## Results of loads -/

/-- Error record of the mark that covers an address of an access, 0 for none (R316). -/
def State.markOf (s : State) (a : Acc) : Nat :=
  match s.walk a.vf (a.addr (lowLane a.poison)) with
  | .ok x _ =>
    let h := x.at (a.addr (lowLane a.poison))
    (s.poison.find? (fun p => (List.range a.n).any (fun i => p.2.contains (h + i)))).elim 0 Prod.fst
  | _ => 0

/-- Write the lanes of a result that are live and not poisoned. -/
def State.writeResult (s : State) (a : Acc) (live : BitVec 32) : State :=
  let ok := a.lanes &&& live &&& ~~~a.poison
  let regs := (a.dst.flatMap (fun ir => (List.range a.w).map (· + ir.2))).eraseDups
  regs.foldl (fun s r =>
    let vals := ((lanesOf ok).filter (fun i => match SMap.find a.dst i with
      | some b => decide (b ≤ r) && decide (r < b + a.w)
      | none => false)).map (fun i => (i, Store.rd a.res (r * 32 + i)))
    s.writeReg a.grp r (a.full && a.poison == 0 && live == a.lanes) vals) s

/-- The marks of an access on its destinations are released in some lanes. -/
def Group.release (g : Group) (op : Nat) (m : BitVec 32) : Group :=
  { g with pend := (g.pend.map (fun p => if p.op = op then { p with lanes := p.lanes &&& ~~~m } else p)).filter (fun p => p.lanes != 0) }

/-- The data of an access reaches its destinations (R56, R77); poisoned lanes are to take MACHINE_CHECK (R316). -/
def State.loadEnds (s : State) (id : Nat) : State :=
  match SMap.find s.accs id with
  | none => s
  | some a =>
    if a.st != .data then s
    else match s.group a.grp with
      | none => { s with accs := SMap.del s.accs id }
      | some g =>
        let s := s.writeResult a g.live
        let s := match a.book with
          | some (slot, v) => if a.poison == 0 then s.putBook a.core slot v.toNat else s
          | none => s
        let s := s.modGroup a.grp (fun g => g.release id (~~~a.poison))
        if a.poison == 0 then { s with accs := SMap.del s.accs id }.makeReady a.grp
        else
          let s := s.setAcc id { a with lanes := a.poison, st := .fault 0x38 (BitVec.ofNat 32 (s.markOf a)) }
          s.modGroup a.grp (fun g => { g with held := g.held ++ [id] })

def execLoadComplete (acc : Nat) (s : State) : Host.Outcome State Fault Refusal := .next (s.loadEnds acc)

/-! ## Imprecise traps -/

/-- A fragment of a faulting issue (R43): the issuer's FRAG as its PARENT, and FSEQ. -/
def Entry.fragmentOf (e : Entry) (by_ : Option (BitVec 5 × BitVec 5)) : Entry :=
  match by_ with
  | some (parent, fseq) => { e with fr := true, parent := parent, fseq := fseq }
  | none => e

/-- Split the lanes of a trap from their entry, as a fragment of an issue where one is named; the trapping part is placed without
merging (R43, R50, R246). -/
def Group.splitTrap (g : Group) (e : Entry) (m : BitVec 32) (by_ : Option (BitVec 5 × BitVec 5) := none) : Group × BitVec 5 :=
  let rest := e.mask &&& ~~~m
  let others := g.entries.filter (fun x => x.frag != e.frag)
  let t : Entry := { e with mask := m, st := .ready, skip := 0, frag := if rest == 0 then e.frag else BitVec.ofNat 5 (lowLane m) }.fragmentOf by_
  let left := BitVec.ofNat 5 (lowLane rest)
  let es := if rest == 0 then others else insertEntry { e with mask := rest, frag := left } others
  let wakes := if rest == 0 then g.wakes.filter (fun w => w.frag != e.frag)
    else g.wakes.map (fun w => if w.frag == e.frag then { w with frag := left } else w)
  ({ g with entries := placeEntry t es, wakes := wakes }, t.frag)

/-- An access that keeps its lanes parked (R50): not yet performed. -/
def Acc.keepsParked (a : Acc) : Bool :=
  match a.st with
  | .walk => true
  | .noEntry => true
  | .record _ _ => true
  | .fault _ _ => true
  | .parked => true
  | .replay => true
  | _ => false

/-- An entry at which an imprecise trap may be delivered: a parked one only once nothing else keeps it parked, and none that
waits at a BOR or a MIGRATE, whose instruction has had a part of its effect. -/
def State.trapReady (s : State) (id : Nat) (k : Nat) (g : Group) (e : Entry) : Bool :=
  (e.st != .parked ||
    !s.accs.any (fun kv => kv.1 != id && kv.2.grp == k && kv.2.keepsParked && kv.2.lanes &&& e.mask != 0)) &&
  !g.wakes.any (fun w => w.frag == e.frag && (w.code == 4 || w.code == 8))

/-- A held trap is delivered, in order of detection, while BUSY is clear; one that kills the launch, raised in supervisor mode or
without a routine, does not wait (R248, R250). -/
def State.imprecise (s : State) (id : Nat) : Option State :=
  match SMap.find s.accs id with
  | none => none
  | some a =>
    match a.st, s.group a.grp with
    | .fault cause info, some g =>
      let kills := a.supv || !(s.vf (vfOf a.grp)).hasSupv
      if !g.held.contains id || (!kills && (g.held.head? != some id || g.stopped)) then none
      else
        let m0 := a.lanes &&& g.live
        let drop (s : State) : State :=
          { s with accs := SMap.del s.accs id }.modGroup a.grp (fun g => { g.release id a.lanes with held := g.held.erase id })
        match g.entries.find? (fun e => e.mask &&& m0 != 0) with
        | none => some ((drop s).makeReady a.grp)
        | some e =>
          if kills then some (s.kill (launchOf a.grp) cause false)
          else if (g.frame.busy || !s.trapReady id a.grp g e) then none
          else
            let m := e.mask &&& m0
            let skid := (lanesOf m).foldl (fun k i => max k ((SMap.find a.skid i).getD 0)) 0
            let t : TrapInfo :=
              { cause := cause, impr := !a.again, lanes := m, pc := a.pc, rpc := e.pc, skid := BitVec.ofNat 6 skid
                faddr := (SMap.find a.addrs (lowLane m)).getD 0, info := info }
            -- the faulting lanes of an access that was accepted are a fragment of its issue (R50)
            let splits := cause == 0x21 && !a.again && e.st != .parked
            let fseq := a.fseq.getD (g.fseqBeside m)
            let (g', frag) := g.splitTrap e m (if splits then some (a.frag, fseq) else none)
            let left := a.lanes &&& ~~~m
            let s := s.setGroup a.grp (g'.release id m)
            let s := if left &&& g.live == 0 then drop s else s.setAcc id { a with lanes := left }
            let s := if splits then s.shareFseq a fseq else s
            some (s.trap a.grp frag t)
    | _, _ => none

def execImpreciseFault (acc : Nat) (s : State) : Host.Outcome State Fault Refusal := event (s.imprecise acc)

/-! ## Fetch -/

/-- Lines of an instruction cache. -/
def icacheLines : Nat := 2048

/-- READY entries of active groups of a core and VF whose PC lies in a line, in the order of the sections. -/
def State.fetching (s : State) (core vf line : Nat) : List (Nat × Group × Entry × Launch) :=
  ((s.core core).sects.flatMap (fun x => x.2.active)).flatMap (fun k =>
    match s.group k, s.launch (launchOf k) with
    | some g, some l =>
      if vfOf k = vf then (g.entries.filter (fun e => s.mayTry k g e l && pcLine e.pc == line)).map (fun e => (k, g, e, l)) else []
    | _, _ => [])

/-- Slots of a line that fail parity (R319, R321): a failure of PARW counts against every slot. -/
def lineFails (l : BitVec 512) : BitVec 5 :=
  if lineParwBad l then BitVec.allOnes 5
  else (List.range 5).foldl (fun m i => if lineParBad l i then m ||| (1#5 <<< i) else m) 0

/-- The access of a fetch (R323). -/
def State.fetchAcc (s : State) (k : Nat) (g : Group) (e : Entry) (l : Launch) : Acc :=
  { kind := .fetch, use := .fetch, vf := vfOf k, part := l.leaf, core := g.core, grp := k, pc := e.pc, page := unitOf e.pc.toNat
    lanes := e.mask, addrs := [(lowLane e.mask, e.pc)], frag := e.frag, issue := s.nextId, st := .parked, again := true }

/-- A fetch that faults retryably parks the entry (R49, R323). -/
def State.fetchPark (s : State) (k : Nat) (g : Group) (e : Entry) (l : Launch) (reason : BitVec 4) (stage fresh : Bool) : Option State :=
  let a := s.fetchAcc k g e l
  let s := if fresh then s.retryFault e.pc.toNat (a.record 0x20 reason stage) else s
  let (s, _) := s.track a
  s.finish { cls := none, skips := false } k e 0 a.issue [{ mask := e.mask, pc := e.pc, prio := e.prio, st := .parked }]

/-- A precise trap of a whole entry at its fetch or decode. -/
def State.fetchTrap (s : State) (k : Nat) (e : Entry) (cause : BitVec 8) (faddr : BitVec 57) (info : BitVec 32) : Option State :=
  s.finish { cls := none } k e 0 s.nextId
    [{ mask := e.mask, pc := e.pc, prio := e.prio
       trap := some { cause := cause, lanes := e.mask, pc := e.pc, rpc := e.pc, faddr := faddr, info := info } }]

/-- A terminal fault of a fetch. -/
def State.fetchTerm (s : State) (k : Nat) (g : Group) (e : Entry) (l : Launch) (reason : BitVec 4) (stage : Bool) : Option State :=
  let a := s.fetchAcc k g e l
  if (s.die (dieOf a.core)).roomFor a.part then
    (s.keepRecord (a.record 0x21 reason stage)).fetchTrap k e 0x21 e.pc (faultInfo reason .fetch)
  else none

/-- Error kinds of the model's error records (log 60): a corrected error and uncorrected data. -/
def errCorrected : BitVec 8 := 0x02
def errUncorrected : BitVec 8 := 0x03

/-- Fetch a line from the L2 into the instruction cache with the slots that failed parity twice; `transient`: the first copy failed
and the second passed (R321). A failed copy is fetched once more. -/
def State.fetchLine (s : State) (k : Nat) (l : Launch) (core vf line home : Nat) (transient : Bool) : State :=
  let read (s : State) : State := s.chargeRead (payerOf k) l.leaf core home 64
  let d := s.memLine home
  let bad := lineFails d
  let s := if bad != 0 || transient then read (read s) else read s
  let s := if bad != 0 then (s.errorRecord (.sram core) errUncorrected (BitVec.ofNat 64 line)).outOfService (.sram core)
    else if transient then (s.errorRecord (.sram core) errCorrected (BitVec.ofNat 64 line)).outOfService (.sram core)
    else s
  s.modCore core (fun c => { c with icache := ({ vf := vf, line := line, data := d, bad := bad } :: c.icache).take icacheLines })

/-- A line that a READY entry is to issue from is fetched, or its fetch faults (R323). -/
def State.lineFill (s : State) (core vf line : Nat) (transient : Bool) : Option State :=
  if (s.cached core vf line).isSome then none
  else match s.fetching core vf line with
    | [] => none
    | (k, g, e, l) :: _ =>
      if supvNat ≤ line then
        if !g.supv e then s.fetchTerm k g e l 3 false
        else match s.codeXlat vf line with
          | .ok x _ => some (s.fetchLine k l core vf line (x.at line) transient)
          | .term c st _ => s.fetchTerm k g e l c st
          | .retry _ _ _ => none
      else match s.xlate core vf l.leaf line with
        | none => none
        | some (s, .retry _ c st fresh) => s.fetchPark k g e l c st fresh
        | some (s, .term _ c st) => s.fetchTerm k g e l c st
        | some (s, .page x) =>
          match x.deny (s.vf vf) none .ex with
          | some (c, st) => s.fetchTerm k g e l c st
          | none =>
            some (s.fetchLine k l core vf line (x.at line) transient)

def execLineFill (core vf line : Nat) (transient : Bool) (s : State) : Host.Outcome State Fault Refusal :=
  event (s.lineFill core vf line transient)

/-- What a cached line holds for an entry: its word, or the trap of its fetch (R245, item 1; R320, R321, R323). -/
def State.slotOf (s : State) (g : Group) (e : Entry) (l : ILine) : BitVec 96 ⊕ BitVec 8 :=
  let _ := s
  if supvNat ≤ l.line && !g.supv e then .inr 0x21
  else if lineBad l.data then .inr 0x02
  else if l.bad.getLsbD (e.pc &&& 7).toNat then .inr 0x04
  else .inl (lineSlot l.data (e.pc &&& 7).toNat)

/-- The trap of a fetched line in place of an issue. -/
def State.slotTrap (s : State) (k : Nat) (g : Group) (e : Entry) (l : Launch) (cause : BitVec 8) : Option State :=
  if g.checkDue e then s.takeCheck k g e
  else if cause == 0x21 then s.fetchTerm k g e l 3 false else s.fetchTrap k e cause 0 0

/-- No form of the opcode table has the word: an OPC that names none, or a field that the form does not admit (R325, R362). -/
def noForm (w : BitVec 96) : Bool :=
  match decodeSlot w with
  | .ok (.unassignedOpc _) => true
  | .ok _ => false
  | .error _ => true

/-- A word that no form decodes (R325, R362): ILLEGAL_INSTR for the whole entry. -/
def execUnassignedOpc (w : BitVec 96) (s : State) : Host.Outcome State Fault Refusal :=
  event (match s.issuer with
    | some (k, g, e, _) =>
      if noForm w then (if g.checkDue e then s.takeCheck k g e else s.fetchTrap k e 0x01 0 0) else none
    | none => none)

end Sys2Proof.Machine
end

