-- ==== Sys2Proof/Machine/Interrupt.lean ====
section
/-! DEFINITION. Interrupts of functions (R283): delivery through the MSI-X table, and the interrupt log of a VF that is not
resident. -/

namespace Sys2Proof.Machine

open Sys2Proof

/-- Sources of an interrupt in a log record (R283). -/
def irqCompletion : Nat := 0
def irqRing : Nat := 1
def irqError : Nat := 2

/-- Vector `v` of a function is masked in its MSI-X table. The cell of a vector control word holds bit 0 inverted, so that a
table of zeros reads as masked, the reset value of PCI Express (log 62). -/
def Fn.masked (f : Fn) (v : Nat) : Bool := !(Store.rd f.msix (4 * v + 3)).getLsbD 0

/-- Deliver a vector: a message, or its pending bit while it is masked. -/
def State.deliverIrq (s : State) (fn v : Nat) : State :=
  if (s.fn fn).masked v then s.modFn fn (fun f => { f with pba := f.pba ||| (1#32 <<< v) })
  else (s.charge (if fn = 1024 then .house else .vf fn) 21 1).modDev (fun d => { d with irqs := (fn, v, s.now) :: d.irqs })

/-- Records of an interrupt log (R268). -/
def Vf.ilogRecords (v : Vf) : Nat := 2 ^ (v.ilsz.toNat + 6)

/-- Append an interrupt to a VF's log: the header record holds the producer index, the consumer index and PEND, 32 bits each
(log 63); a full log sets the vector's bit of PEND. -/
def State.logIrq (s : State) (v vec src : Nat) : State :=
  let f := s.vf v
  match s.homeOf v f.ilog with
  | none => s
  | some h =>
    let prod := Store.load s.mem h 4
    let cons := Store.load s.mem (h + 4) 4
    let pend := Store.load s.mem (h + 8) 4
    let n := f.ilogRecords - 1
    let put (s : State) (a len x : Nat) : State := s.homeWrite ((bytesOf len x).zipIdx.map (fun bi => (a + bi.2, bi.1)))
    if n ≤ (prod + 2 ^ 32 - cons) % 2 ^ 32 then put s (h + 8) 4 (pend ||| 2 ^ vec)
    else match s.homeOf v (f.ilog + 16 * (1 + prod % n)) with
      | none => s
      | some r => put (put s r 16 (vec + src * 32 + s.now * 2 ^ 64)) h 4 ((prod + 1) % 2 ^ 32)

/-- A function raises an interrupt (R283). -/
def State.interrupt (s : State) (fn vec src : Nat) : State :=
  if fn < 1024 && !(s.vf fn).resident then s.logIrq fn vec src else s.deliverIrq fn vec

end Sys2Proof.Machine
end

