-- ==== Sys2Proof/Machine/Engine.lean ====
section
/-! DEFINITION. The haul engine (R167, R218 to R223, R387, R388) and the sweep engine (R134, R135, R460, R461): acceptance of COPY
and SWEEP, and their progress. One event of a command performs one 512 B chunk of it (log 12). -/

namespace Sys2Proof.Machine

open Sys2Proof

/-! ## Acceptance of COPY -/

/-- The check of R95 on a whole extent: cause and first offending address. -/
def Region.extent (r : Region) (kind : AccKind) (ea n : Nat) : Option (BitVec 8 × Nat) :=
  let hi := r.base.toNat + r.len.toNat
  if r.kind == 0 || r.pend then some (0x0A, ea)
  else if !permits r.kind kind || r.lent || (r.kind == 4 && (apertureIdx r.base.toNat).isSome) then some (0x08, ea)
  else if hi < ea + n then some (0x09, max ea hi % 2 ^ 57)
  else none

/-- Rank of a cause in the order of R95. -/
def rank95 (c : BitVec 8) : Nat := if c = 0x0A then 0 else if c = 0x08 then 1 else if c = 0x09 then 2 else 3

/-- Fields of a tile-layout record (R220). -/
def recBox (v : Nat) (i : Nat) : Nat := match i with | 0 => fld v 216 12 | 1 => fld v 228 8 | _ => fld v 236 8
def recDim (v : Nat) (i : Nat) : Nat := fld v (32 * i) 32
def recWidth (v : Nat) : Nat := if fld v 244 4 ≤ 4 then 4 * 2 ^ fld v 244 4 else 0
def recElems (v : Nat) : Nat := recBox v 0 * recBox v 1 * recBox v 2

/-- A malformed record (R220). The stated ranges of DIM and BOX are no ground of refusal: a box without elements moves nothing
(DESIGN CHOICE, log 31). -/
def recBad (v : Nat) : Bool :=
  fld v 249 7 != 0 || fld v 288 224 != 0 || decide (4 < fld v 244 4) || (fld v 244 4 == 0 && recBox v 0 % 2 == 1) ||
    layBad (fld v 256 32) (recBox v 1 * recBox v 2) (recBox v 0) (recWidth v) || layEw (fld v 256 32) != fld v 244 4

/-- Bytes of an element at a place. -/
def elemBytes (w a : Nat) : List Nat := (List.range (max 1 (w / 8))).map (a + ·)

/-- Local bytes of a box (R197, R220). -/
def recLocal (v la : Nat) : List Nat :=
  (List.range (recElems v)).flatMap (fun i =>
    elemBytes (recWidth v) (layPlace la (fld v 256 32) (recWidth v) (i / recBox v 0) (i % recBox v 0)).1)

/-- The tile-layout record as an issue can see it, without effect on the caches: none where only the engine's own read tells. -/
def State.peekRecord (s : State) (core vf a : Nat) : Option Nat :=
  match (s.core core).layouts.find? (fun l => l.1 == vf && l.2.1 == a) with
  | some l => some l.2.2.toNat
  | none =>
    match s.walk vf a with
    | .ok x _ =>
      if x.cls == 3 || isPeer x.home || (x.deny (s.vf vf) none .ld).isSome then none
      else some (ofBytes ((List.range 64).map (fun i =>
        let b := x.at a + i
        match (s.core core).l1Line vf b with
        | some ln => if ln.valid.getLsbD (b % 512 / 32) || ln.dirty.getLsbD (b % 512) then Store.rd ln.data (b % 512) else Store.rd s.mem b
        | none => Store.rd s.mem b)))
    | _ => none

/-- The check of R95 on the local extent of a box: whole where the issue can see the record, else of its start (log 31). -/
def State.boxExtent (s : State) (core vf : Nat) (l : Region) (kind : AccKind) (la a : Nat) : Option (BitVec 8 × Nat) :=
  match l.extent kind la 0, s.peekRecord core vf a with
  | some e, _ => some e
  | none, some v =>
    if recBad v then none
    else
      let out := (recLocal v la).filter (fun b => decide (b < l.base.toNat) || decide (l.base.toNat + l.len.toNat ≤ b))
      match out with
      | b :: bs => some (0x09, bs.foldl min b)
      | [] => none
  | none, none => none

/-- The failure reported of two extents, the destination's first (R219). -/
def worst (d q : Option (BitVec 8 × Nat)) : Option (BitVec 8 × Nat) :=
  match d, q with
  | some a, some b => if rank95 b.1 < rank95 a.1 then some b else some a
  | some a, none => some a
  | none, b => b

/-- A local region that COPY.TILE admits on its local side (R220): SCR or CLU. -/
def Region.tileSide (r : Region) : Bool := r.kind == 9 || r.kind == 10 || r.kind == 0 || r.pend
/-- One that COPY.GATHER admits: any local space. -/
def Region.localSide (r : Region) : Bool := (LSpace.ofKind r.kind).isSome || r.kind == 0 || r.pend
def Region.globalSide (r : Region) : Bool := (LSpace.ofKind r.kind).isNone

/-- A scalar of the block at `sc`. -/
def Ctx.blk (x : Ctx) (sc : BitVec 7) (i : Nat) : Nat := (x.g.sreg (sc.toNat + i)).toNat

/-- The barrier object that a scalar names (R218). -/
def mbOf (v : Nat) : Bool × Nat := (2 ^ 31 ≤ v, v % 2 ^ 31)

/-- Accept a haul command with its completion into a token or a barrier object. -/
def Ctx.haul (x : Ctx) (s : State) (sd : Option (BitVec 7)) (mb : Nat) (h : Haul) : Effect :=
  let core := x.g.core
  let go (d : Done) : Effect := if s.haulRoom core then x.done (s.acceptHaul core { h with done := d }) else none
  match sd with
  | some d => go (.token x.k d.toNat)
  | none =>
    let (clu, off) := mbOf mb
    match x.mbarOperand s clu off with
    | some e => e
    | none => go (.mbar clu off)

/-- COPY.LIN (R219). -/
def copyLin (c : Ctl) (sd : Option (BitVec 7)) (sm : Option Src) (qd qs : BitVec 4) (sa sb sl : Src) : Op :=
  let ua := { srcIn 0 sa with uni := true }
  let ub := { srcIn 1 sb with uni := true }
  let ul := { srcIn 2 sl with uni := true }
  let um := sm.map (fun m => { srcIn 3 m with uni := true })
  let u : Use :=
    { g := c.g, lu := c.lu, srcs := [ua, ub, ul] ++ um.toList, sw := sd.toList.map BitVec.toNat, cls := some 4, order := true }
  word u (fun x s =>
    let n := x.uni s ul
    let d := x.g.reg qd.toNat
    let r := x.g.reg qs.toNat
    let da := d.base.toNat + x.uni s ua
    let ra := r.base.toNat + x.uni s ub
    if n == 0 || 2 ^ 30 < n then x.trapCmd s 0x11 0
    else match worst (d.extent .store da n) (r.extent .load ra n) with
      | some (cause, a) => x.refuseAll s cause a
      | none =>
        x.haul s sd (match um with | some m => x.uni s m | none => 0)
          { form := .lin, grp := x.k, lane := lowLane x.lanes, pc := x.e.pc, dst := d, src := r, dOff := da, sOff := ra, len := n
            done := .mbar false 0 })

/-- COPY.TILE (R220). A record address that is not aligned raises a precise MISALIGNED, after the checks of R95; bits above the
57 of an address are not used (DESIGN CHOICE, log 31). -/
def copyTile (c : Ctl) (st : Bool) (sd : Option (BitVec 7)) (ql qg : BitVec 4) (so : Src) (sc : BitVec 7) : Op :=
  let uo := { srcIn 0 so with uni := true }
  let u : Use :=
    { g := c.g, lu := c.lu, srcs := [uo], sr := (List.range 8).map (· + sc.toNat), sw := sd.toList.map BitVec.toNat
      cls := some 4, order := true }
  word u (fun x s =>
    let l := x.g.reg ql.toNat
    let g := x.g.reg qg.toNat
    let la := l.base.toNat + x.uni s uo
    let rec_ := (x.blk sc 0 + 2 ^ 32 * x.blk sc 1)
    let loc : Option (BitVec 8 × Nat) :=
      if !l.tileSide then some (0x08, la)
      else s.boxExtent x.g.core (vfOf x.k) l (if st then .load else .store) la (rec_ % 2 ^ 57)
    let glo : Option (BitVec 8 × Nat) :=
      if g.kind != 0 && !g.globalSide then some (0x08, g.base.toNat)
      else g.extent (if st then .store else .load) g.base.toNat 0
    match if st then worst glo loc else worst loc glo with
    | some (cause, a) => x.refuseAll s cause a
    | none =>
      if rec_ % 64 != 0 then x.trapCmd s 0x10 rec_
      else
        x.haul s sd (x.blk sc 5)
          { form := if st then .tileSt else .tileLd, grp := x.k, lane := lowLane x.lanes, pc := x.e.pc
            dst := if st then g else l, src := if st then l else g, dOff := if st then g.base.toNat else la
            sOff := if st then la else g.base.toNat, layRec := rec_ % 2 ^ 57, xyz := [x.blk sc 2, x.blk sc 3, x.blk sc 4]
            done := .mbar false 0 })

/-- COPY.GATHER (R221). -/
def copyGather (c : Ctl) (sd : Option (BitVec 7)) (ql qg : BitVec 4) (so sb : Src) (sc : BitVec 7) : Op :=
  let uo := { srcIn 0 so with uni := true }
  let ub := { srcIn 1 sb with uni := true }
  let u : Use :=
    { g := c.g, lu := c.lu, srcs := [uo, ub], sr := (List.range (if sd.isSome then 4 else 8)).map (· + sc.toNat)
      sw := sd.toList.map BitVec.toNat, cls := some 4, order := true }
  word u (fun x s =>
    let l := x.g.reg ql.toNat
    let g := x.g.reg qg.toNat
    let la := l.base.toNat + x.uni s uo
    let ga := g.base.toNat + x.uni s ub
    let list := x.blk sc 0
    let n := x.blk sc 1
    let rb := x.blk sc 2
    if n == 0 || 4096 < n || rb == 0 || 4096 < rb || rb % 16 != 0 || s.spaceLen x.k .scr < list + 4 * n then x.trapCmd s 0x11 0
    else
      let loc : Option (BitVec 8 × Nat) := if !l.localSide then some (0x08, la) else l.extent .store la (n * rb)
      let glo : Option (BitVec 8 × Nat) :=
        if g.kind != 0 && !g.globalSide then some (0x08, ga) else g.extent .load g.base.toNat 0
      match worst loc glo with
      | some (cause, a) => x.refuseAll s cause a
      | none =>
        x.haul s sd (x.blk sc 5)
          { form := .gather, grp := x.k, lane := lowLane x.lanes, pc := x.e.pc, dst := l, src := g, dOff := la, sOff := ga
            len := n * rb, list := list, n := n, rb := rb, stride := x.blk sc 3, done := .mbar false 0 })

def opCopyLin (c : Ctl) (sd : BitVec 7) (qd qs : BitVec 4) (sa sb sl : Src) : Op :=
  copyLin c (some sd) none qd qs sa sb sl
def execCopyLin (c : Ctl) (sd : BitVec 7) (qd qs : BitVec 4) (sa sb sl : Src) (s : State) : Host.Outcome State Fault Refusal :=
  (opCopyLin c sd qd qs sa sb sl).run s
def opCopyLinMb (c : Ctl) (sm : Src) (qd qs : BitVec 4) (sa sb sl : Src) : Op :=
  copyLin c none (some sm) qd qs sa sb sl
def execCopyLinMb (c : Ctl) (sm : Src) (qd qs : BitVec 4) (sa sb sl : Src) (s : State) : Host.Outcome State Fault Refusal :=
  (opCopyLinMb c sm qd qs sa sb sl).run s
def opCopyTileLd (c : Ctl) (sd : BitVec 7) (ql qg : BitVec 4) (so : Src) (sc : BitVec 7) : Op := copyTile c false (some sd) ql qg so sc
def execCopyTileLd (c : Ctl) (sd : BitVec 7) (ql qg : BitVec 4) (so : Src) (sc : BitVec 7) (s : State) : Host.Outcome State Fault Refusal :=
  (opCopyTileLd c sd ql qg so sc).run s
def opCopyTileSt (c : Ctl) (sd : BitVec 7) (ql qg : BitVec 4) (so : Src) (sc : BitVec 7) : Op := copyTile c true (some sd) ql qg so sc
def execCopyTileSt (c : Ctl) (sd : BitVec 7) (ql qg : BitVec 4) (so : Src) (sc : BitVec 7) (s : State) : Host.Outcome State Fault Refusal :=
  (opCopyTileSt c sd ql qg so sc).run s
def opCopyTileLdMb (c : Ctl) (ql qg : BitVec 4) (so : Src) (sc : BitVec 7) : Op :=
  copyTile c false none ql qg so sc
def execCopyTileLdMb (c : Ctl) (ql qg : BitVec 4) (so : Src) (sc : BitVec 7) (s : State) : Host.Outcome State Fault Refusal :=
  (opCopyTileLdMb c ql qg so sc).run s
def opCopyTileStMb (c : Ctl) (ql qg : BitVec 4) (so : Src) (sc : BitVec 7) : Op :=
  copyTile c true none ql qg so sc
def execCopyTileStMb (c : Ctl) (ql qg : BitVec 4) (so : Src) (sc : BitVec 7) (s : State) : Host.Outcome State Fault Refusal :=
  (opCopyTileStMb c ql qg so sc).run s
def opCopyGather (c : Ctl) (sd : BitVec 7) (ql qg : BitVec 4) (so sb : Src) (sc : BitVec 7) : Op := copyGather c (some sd) ql qg so sb sc
def execCopyGather (c : Ctl) (sd : BitVec 7) (ql qg : BitVec 4) (so sb : Src) (sc : BitVec 7) (s : State) : Host.Outcome State Fault Refusal :=
  (opCopyGather c sd ql qg so sb sc).run s
def opCopyGatherMb (c : Ctl) (ql qg : BitVec 4) (so sb : Src) (sc : BitVec 7) : Op := copyGather c none ql qg so sb sc
def execCopyGatherMb (c : Ctl) (ql qg : BitVec 4) (so sb : Src) (sc : BitVec 7) (s : State) : Host.Outcome State Fault Refusal :=
  (opCopyGatherMb c ql qg so sb sc).run s

/-! ## What a command moves -/

/-- Where an element comes from: a place of the source, a fill of R220, or a value. -/
inductive HSrc
  | mem (a nib : Nat)
  | fill (ones : Bool)
  | val (v : Nat)
deriving DecidableEq, Repr

/-- The move of one element. -/
structure HMove where
  dst : Nat
  nib : Nat
  src : HSrc
deriving DecidableEq, Repr

/-- Width of an element in bits. -/
def Haul.width (h : Haul) : Nat :=
  match h.form, h.record with
  | .drain ty _ _, _ => accBits (drainAcc ty)
  | .tileLd, some r => recWidth r.toNat
  | .tileSt, some r => recWidth r.toNat
  | _, _ => 8

/-- The places of element `i` of a box: local, and global where it lies in the tensor. -/
def Haul.box (h : Haul) (v i : Nat) (loc glo : Nat) : (Nat × Nat) × Option (Nat × Nat) :=
  let b0 := recBox v 0
  let b1 := recBox v 1
  let x0 := i % b0
  let y0 := i / b0 % b1
  let z0 := i / (b0 * b1)
  let w := recWidth v
  let gx := (h.xyz[0]?).getD 0 + x0
  let gy := (h.xyz[1]?).getD 0 + y0
  let gz := (h.xyz[2]?).getD 0 + z0
  let inb := decide (gx < recDim v 0) && decide (gy < recDim v 1) && decide (gz < recDim v 2)
  (layPlace loc (fld v 256 32) w (z0 * b1 + y0) x0,
    if inb then some (glo + fld v 176 40 + gx * w / 8 + gy * fld v 96 40 + gz * fld v 136 40, if w = 4 then gx % 2 else 0) else none)

/-- The move of element `i`; none where nothing is stored. -/
def Haul.move (h : Haul) (core : Core) (i : Nat) : Option HMove :=
  let v := match h.record with | some r => r.toNat | none => 0
  match h.form with
  | .lin => some { dst := h.dOff + i, nib := 0, src := .mem (h.sOff + i) 0 }
  | .gather =>
    let idx := ((h.idx.getD [])[i / h.rb]?).getD 0
    some { dst := h.dOff + i, nib := 0, src := .mem (h.sOff + idx * h.stride + i % h.rb) 0 }
  | .tileLd =>
    let (l, g) := h.box v i h.dOff h.sOff
    some { dst := l.1, nib := l.2, src := match g with | some p => .mem p.1 p.2 | none => .fill (v.testBit 248) }
  | .tileSt =>
    let (l, g) := h.box v i h.sOff h.dOff
    g.map (fun p => { dst := p.1, nib := p.2, src := .mem l.1 l.2 })
  | .drain ty tile lay =>
    let (a, n) := layPlace h.dOff lay.toNat (accBits (drainAcc ty)) (i / 128) (i % 128)
    some { dst := a, nib := n, src := .val (accConvert (drainAcc ty) (core.tile tile (i / 128) (i % 128))) }

/-! ## Translation of a chunk -/

/-- The pages of some virtual addresses, ascending. -/
def unitsOf (as : List Nat) : List Nat := sortBy (fun a b => decide (a < b)) (blocksOf 65536 as)

/-- What stops a command at a chunk. -/
inductive HStop
  | wait
  | retry (va : Nat) (reason : BitVec 4) (stage fresh write : Bool)
  | term (va : Nat) (reason : BitVec 4) (stage write : Bool)
deriving DecidableEq, Repr

/-- Class of page that a region reaches (R92). -/
def Region.pageClass (r : Region) : BitVec 2 := if r.kind == 4 then 1 else 0

/-- Translate the pages of some addresses of a region for an engine. -/
def State.haulPages (s : State) (core : Nat) (h : Haul) (r : Region) (write : Bool) (as : List Nat) :
    State × (List Xlat ⊕ HStop) :=
  if (LSpace.ofKind r.kind).isSome then (s, .inl [])
  else
    let vf := vfOf h.grp
    (unitsOf as).foldl (fun (o : State × (List Xlat ⊕ HStop)) u =>
      match o with
      | (s, .inr e) => (s, .inr e)
      | (s, .inl xs) =>
        let va := (as.filter (fun a => unitOf a == u)).foldl min (u * 65536 + 65535)
        match if s.stale vf r then some (s, .term va 8 false) else s.xlate core vf (s.leafOf h.grp) va with
        | none => (s, .inr .wait)
        | some (s, .retry va c st f) => (s, .inr (.retry va c st f write))
        | some (s, .term va c st) => (s, .inr (.term va c st write))
        | some (s, .page x) =>
          match x.deny (s.vf vf) (some r.pageClass) (if write then .st else .ld) with
          | some (c, st) => (s, .inr (.term va c st write))
          | none =>
            match if write then none else as.find? (fun a => unitOf a == u && s.hostFails (x.at a) 1 && !s.l1Has core x a 1) with
            | some a => (s, .inr (.term a 7 false false))
            | none => (s, .inl (xs ++ [x]))) (s, .inl [])

/-- The translation of an address among those of a chunk. -/
def findPage (xs : List Xlat) (vf va : Nat) : Xlat :=
  (xs.find? (fun x => x.covers vf va)).getD { vf := vf, va := va, size := 1, home := va, cls := 0, grain := 0, rd := true, wr := true, ex := true }

/-! ## Reading and writing -/

/-- The engine reads a page of the region through the core's L1 (R167). -/
def throughL1 (r : Region) (x : Xlat) : Bool := r.kind != 4 || isHost x.home

/-- Parts of a peer's window, as import, offset and length, that the source of a chunk needs in the L1. -/
def State.haulMissing (s : State) (core : Nat) (r : Region) (xs : List Xlat) (vf : Nat) (as : List Nat) :
    List (Nat × Nat × Nat) :=
  if (LSpace.ofKind r.kind).isSome then []
  else ((as.filterMap (fun a =>
    let x := findPage xs vf a
    if isPeer x.home && !s.l1Has core x a 1 then
      let o := peerOff (x.at a)
      some (peerIdx x.home, o - o % grainBytes x.grain, grainBytes x.grain)
    else none)).eraseDups).flatMap (fun b => (fillParts b.2.1 b.2.2).map (fun p => (b.1, p.1, p.2)))

/-- Charges of the bytes that a command moves in local memory: a chunk starts at a multiple of 512 B of the command, so that its
events add up to the command's quantity rounded up (R228). -/
def State.chargeMoved (s : State) (k : Nat) (sp : LSpace) (n : Nat) : State :=
  if sp == .dsp then s.charge (payerOf k) 10 (cdiv n 512) else s.charge (payerOf k) 8 (cdiv n 128)

/-- The home bytes of some addresses, by line. -/
def homeBlocks (xs : List Xlat) (vf : Nat) (as : List Nat) : Blocks :=
  let hs := as.map (fun a => (findPage xs vf a).at a)
  (blocksOf 512 hs).map (fun b => (b, hs.foldl (fun m h => if h / 512 = b then m ||| bitsAt (h % 512) 1 else m) 0))

/-- Charge and fill for the source bytes of a chunk: what the L1 lacks is one request (R228). -/
def State.haulFetch (s : State) (core : Nat) (h : Haul) (xs : List Xlat) (as : List Nat) : State :=
  let p := payerOf h.grp
  let leaf := s.leafOf h.grp
  match LSpace.ofKind h.src.kind with
  | some sp => s.chargeMoved h.grp sp as.length
  | none =>
    let vf := vfOf h.grp
    let l1 := as.filter (fun a => throughL1 h.src (findPage xs vf a))
    let home := as.filter (fun a => !throughL1 h.src (findPage xs vf a))
    let s := s.charge p 7 (cdiv l1.length 128)
    let (s, taken) := (blocksOf 512 l1).foldl (fun (sb : State × Blocks) b =>
      let in_ := l1.filter (fun a => a / 512 == b)
      let (s, bs) := sb.1.l1Take core (findPage xs vf (b * 512)) in_ 1
      (s, sb.2 ++ bs)) (s, [])
    let clean := home.filter (fun a =>
      let b := (findPage xs vf a).at a
      match (s.core core).l1Line vf b with
      | some ln => !ln.dirty.getLsbD (b % 512)
      | none => true)
    s.chargeReads p leaf core (taken ++ homeBlocks xs vf clean)

/-- A source byte. -/
def State.haulByte (s : State) (core : Nat) (h : Haul) (xs : List Xlat) (a : Nat) : Byte :=
  match LSpace.ofKind h.src.kind with
  | some sp => let (u, b) := s.localAt h.grp h.lane sp a; s.unitRd u b
  | none =>
    let vf := vfOf h.grp
    let x := findPage xs vf a
    let b := x.at a
    match (s.core core).l1Line vf b with
    | some ln => if throughL1 h.src x || ln.dirty.getLsbD (b % 512) then Store.rd ln.data (b % 512) else Store.rd s.mem b
    | none => Store.rd s.mem b

/-- Write a byte at its place (R167): local memory, the L1 for a held range, else the home. -/
def State.haulPut (s : State) (core : Nat) (h : Haul) (xs : List Xlat) (a : Nat) (v : Byte) : State :=
  match LSpace.ofKind h.dst.kind with
  | some sp => let (u, b) := s.localAt h.grp h.lane sp a; s.unitWr u b v
  | none =>
    let vf := vfOf h.grp
    let x := findPage xs vf a
    if h.dst.kind == 1 then s.l1Store (teamOf h.grp) core x a 1 v.toNat
    else
      let b := x.at a
      let s := s.homeWrite [(b, v)]
      match (s.core core).l1Line vf b with
      | some ln => s.l1Put core { ln with
          dirty := ln.dirty &&& ~~~bitsAt (b % 512) 1, valid := ln.valid &&& ~~~sectorsOf (b % 512) 1 }
      | none => s

/-- Charges of the destination bytes of a chunk. -/
def State.haulStoreCharge (s : State) (core : Nat) (h : Haul) (xs : List Xlat) (as : List Nat) : State :=
  let p := payerOf h.grp
  match LSpace.ofKind h.dst.kind with
  | some sp => s.chargeMoved h.grp sp as.length
  | none =>
    if h.dst.kind == 1 then s.charge p 7 (cdiv as.length 128)
    else s.chargeWrites p (s.leafOf h.grp) core (homeBlocks xs (vfOf h.grp) as)

/-- Source and destination of a linear copy lie in one space. -/
def Haul.oneSpace (h : Haul) : Bool :=
  h.form == .lin && (match LSpace.ofKind h.src.kind, LSpace.ofKind h.dst.kind with
    | some p, some q => p == q
    | none, none => true
    | _, _ => false)

/-- A byte of the source that the command itself writes, or has written (R219). -/
def Haul.inDst (h : Haul) (a : Nat) : Bool := h.oneSpace && decide (h.dOff ≤ a) && decide (a < h.dOff + h.len)

/-- A byte of the destination that the command's source holds too. -/
def Haul.inSrc (h : Haul) (a : Nat) : Bool := h.oneSpace && decide (h.sOff ≤ a) && decide (a < h.sOff + h.len)

/-- The source bytes of a chunk as they were before the command, where the chunk writes over them. -/
def State.haulKeep (s : State) (core : Nat) (h : Haul) (ys : List Xlat) (dstA : List Nat) : Haul :=
  (dstA.filter h.inSrc).foldl (fun (h : Haul) a =>
    if (SMap.find h.orig a).isSome then h
    else { h with orig := SMap.put h.orig a (s.haulByte core { h with src := h.dst } ys a) }) h

/-- A byte that a linear copy reads where its ranges overlap: the original byte, or the one that stands there, which the
command has copied already (R219); a free value chooses. -/
def State.overlapByte (s : State) (core : Nat) (h : Haul) (xs : List Xlat) (a : Nat) : Byte :=
  match SMap.find h.orig a with
  | some b => if Config.freeBool s.tick a then s.haulByte core h xs a else b
  | none => s.haulByte core h xs a

/-! ## Completion -/

/-- A command ends: token or object, and what waited for it (R215, R217). -/
def State.endHaul (s : State) (core id : Nat) (h : Haul) (fail : Option (BitVec 8)) : State :=
  let s := (s.modCore core (fun c => { c with hauls := SMap.del c.hauls id })).progress (teamOf h.grp)
  let s := match h.done, fail with
    | .token k sd, none => s.token k sd id (tokenOk h.len)
    | .token k sd, some c => s.token k sd id (tokenBad c 1)
    | .mbar _ _, none => s
    | .mbar clu off, some c => s.mbar h.grp clu off 0 (0 - BitVec.ofNat 32 (h.len - h.pos)) c
  s.recheckReturns core

/-- The command stops at a chunk: it waits, suspends until REPLAY ALL (R222), or ends with ACCESS_FAULT. A tile whose record
cannot be read has no length and subtracts nothing from its object (DESIGN CHOICE, log 31). -/
def State.haulStop (s : State) (core id : Nat) (h : Haul) (e : HStop) : Option State :=
  let kind (w : Bool) : AccKind := if w then .engineWrite else .engineRead
  let acc (va : Nat) (w : Bool) : Acc :=
    { kind := kind w, use := .engine id, vf := vfOf h.grp, part := s.leafOf h.grp, core := core, grp := h.grp, pc := h.pc
      page := unitOf va, addrs := [(0, BitVec.ofNat 57 va)], st := .parked, n := 1 }
  match e with
  | .wait => none
  | .retry va c st fresh w =>
    let s := if fresh then s.retryFault va ((acc va w).record 0x20 c st) else s
    let (s, a) := s.track (acc va w)
    some (s.modCore core (fun m => { m with hauls := SMap.put m.hauls id { h with acc := some a } }))
  | .term va c st w => some ((s.keepRecord ((acc va w).record 0x21 c st)).endHaul core id h (some 0x21))

/-- The launch stops or is evicted, and the command has reached a 4 KiB boundary (R222, R237). -/
def State.haulHeld (s : State) (h : Haul) : Bool :=
  let stopping := match s.launch (launchOf h.grp), s.team (teamOf h.grp) with
    | some l, some t => l.st != .running || t.st != .running
    | _, _ => true
  stopping && h.pos % 4096 == 0 && (match h.form with | .drain _ _ _ => false | _ => true)

/-- Perform the next chunk of a command whose record and list are known. -/
def State.haulChunk (s : State) (core id : Nat) (h : Haul) : Option State :=
  let w := h.width
  let n := min 512 (h.len - h.pos)
  if h.len = 0 then some (s.endHaul core id h none)
  else
    let ms := (List.range (n * 8 / max 1 w)).filterMap (fun j => h.move (s.core core) (h.pos * 8 / max 1 w + j))
    let dstA := (ms.flatMap (fun m => elemBytes w m.dst)).eraseDups
    let srcA := (ms.flatMap (fun m => match m.src with | .mem a _ => elemBytes w a | _ => [])).eraseDups
    let (s, r1) := s.haulPages core h h.src false srcA
    match r1 with
    | .inr e => s.haulStop core id h e
    | .inl xs =>
      let (s, r2) := s.haulPages core h h.dst true dstA
      match r2 with
      | .inr e => s.haulStop core id h e
      | .inl ys =>
        match s.haulMissing core h.src xs (vfOf h.grp) srcA with
        | b :: bs =>
          -- a held peer window: fills are awaited
          let a : Acc :=
            { kind := .engineRead, use := .engine id, vf := vfOf h.grp, part := s.leafOf h.grp, core := core, grp := h.grp
              pc := h.pc, page := 0, st := .peer, left := (b :: bs).length }
          let (s, aid) := s.track a
          let s := (b :: bs).foldl (fun s wo =>
            (s.chargeMsg (payerOf h.grp) (collHops (dieOf core))).peerSend (vfOf h.grp) wo.1 (.fill wo.2.1 wo.2.2) aid 0 0 0) s
          some (s.modCore core (fun m => { m with hauls := SMap.put m.hauls id { h with acc := some aid } }))
        | [] =>
          let s := s.haulFetch core h xs srcA
          let isG := (LSpace.ofKind h.src.kind).isNone
          if isG && srcA.any (fun a => s.poisoned ((findPage xs (vfOf h.grp) a).at a)) then some (s.endHaul core id h (some 0x38))
          else
            let s0 := s
            let h : Haul := s.haulKeep core h ys dstA
            let val (m : HMove) : Nat := match m.src with
              | .val v => v
              | .fill ones => if ones then 2 ^ w - 1 else 0
              | .mem a nib =>
                let v := ofBytes ((elemBytes w a).map (s0.haulByte core h xs))
                if w = 4 then v / 16 ^ nib % 16 else v
            let s := ms.foldl (fun s m =>
              if w = 4 then
                let old := (({ h with src := h.dst } : Haul) |> fun k => s.haulByte core k ys m.dst).toNat
                let v := val m
                s.haulPut core h ys m.dst (BitVec.ofNat 8 (if m.nib = 0 then old / 16 * 16 + v else old % 16 + v * 16))
              else (elemBytes w m.dst).zipIdx.foldl (fun s aj =>
                let b : Byte := match m.src with
                  | .mem a _ => if h.inDst (a + aj.2) then s.overlapByte core h xs (a + aj.2) else byteAt (val m) aj.2
                  | _ => byteAt (val m) aj.2
                s.haulPut core h ys aj.1 b) s) s
            let s := s.haulStoreCharge core h ys dstA
            let span := match h.form, h.record with
              | .tileLd, some r => some (laySpan (fld r.toNat 256 32))
              | .lin, _ => some 0
              | .gather, _ => some 0
              | _, _ => none
            let s := match LSpace.ofKind h.dst.kind, span with
              | some .scr, some sp => s.setTags h.grp sp dstA
              | some .prv, some sp => s.setTags h.grp sp (dstA.map (fun a => (s.localAt h.grp h.lane .prv a).2))
              | _, _ => s
            let s := s.charge (payerOf h.grp) 14 1
            let s := match h.done with
              | .mbar clu off => s.mbar h.grp clu off 0 (0 - BitVec.ofNat 32 n)
              | .token _ _ => s
            let s := if (LSpace.ofKind h.dst.kind).isSome then s.wakeObjects else s
            let h : Haul := { h with pos := h.pos + n }
            if h.len ≤ h.pos then some (s.endHaul core id h none)
            else some (s.modCore core (fun m => { m with hauls := SMap.put m.hauls id h }))

/-- Put a changed command back. -/
def State.putHaul (s : State) (core id : Nat) (h : Haul) : State :=
  s.modCore core (fun m => { m with hauls := SMap.put m.hauls id h })

/-- Read the tile-layout record through the layout cache (R170, R220) and check it with the global extent. A page of class code
grants no such read (R132). The cache holds every record until FENCE.LAYOUT or a scrub, without limit (DESIGN CHOICE, log 31). -/
def State.haulRecord (s : State) (core id : Nat) (h : Haul) : Option State :=
  let vf := vfOf h.grp
  let p := payerOf h.grp
  let found : Option (State × (BitVec 512 ⊕ HStop)) :=
    match (s.core core).layouts.find? (fun l => l.1 == vf && l.2.1 == h.layRec) with
    | some l => some (s, .inl l.2.2)
    | none =>
      match s.xlate core vf (s.leafOf h.grp) h.layRec with
      | none => none
      | some (s, .retry va c st f) => some (s, .inr (.retry va c st f false))
      | some (s, .term va c st) => some (s, .inr (.term va c st false))
      | some (s, .page x) =>
        match if x.cls == 3 then some (4, false) else x.deny (s.vf vf) none .ld with
        | some (c, st) => some (s, .inr (.term h.layRec c st false))
        | none =>
          if s.hostFails (x.at h.layRec) 64 && !s.l1Has core x h.layRec 64 then some (s, .inr (.term h.layRec 7 false false)) else
          let s := s.chargeL1 p 64 [h.layRec]
          let (s, v) := s.l1Load p (s.leafOf h.grp) core x h.layRec 64
          some (s.modCore core (fun c => { c with layouts := (vf, h.layRec, BitVec.ofNat 512 v) :: c.layouts }), .inl (BitVec.ofNat 512 v))
  match found with
  | none => none
  | some (s, .inr e) => s.haulStop core id h e
  | some (s, .inl v) =>
    let n := recElems v.toNat
    let h := { h with record := some v, len := n * recWidth v.toNat / 8 }
    if recBad v.toNat then some (s.endHaul core id h (some 0x15))
    else
      let tileLd := h.form == .tileLd
      let loc := if tileLd then h.dst else h.src
      let glo := if tileLd then h.src else h.dst
      let out (r : Region) (a : Nat) : Bool := decide (a < r.base.toNat) || decide (r.base.toNat + r.len.toNat ≤ a)
      let bad := (List.range n).any (fun i =>
        let (l, g) := h.box v.toNat i (if tileLd then h.dOff else h.sOff) (if tileLd then h.sOff else h.dOff)
        (elemBytes (recWidth v.toNat) l.1).any (out loc) ||
          (match g with | some q => (elemBytes (recWidth v.toNat) q.1).any (out glo) | none => false))
      if bad then some (s.endHaul core id h (some 0x09)) else some (s.putHaul core id h)

/-- Read the index list of a gather and check every source row (R221). -/
def State.haulList (s : State) (core id : Nat) (h : Haul) : State :=
  let idx := (List.range h.n).map (fun i => s.localLoad h.grp 0 .scr (h.list + 4 * i) 4)
  let s := s.chargeMoved h.grp .scr (4 * h.n)
  let bad := idx.any (fun i =>
    let a := h.sOff + i * h.stride
    decide (h.src.base.toNat + h.src.len.toNat < a + h.rb))
  if bad then s.endHaul core id { h with idx := some idx } (some 0x09) else s.putHaul core id { h with idx := some idx }

/-- The next piece of work of a haul command. -/
def State.haulStep (s : State) (core id : Nat) : Option State :=
  match SMap.find (s.core core).hauls id with
  | none => none
  | some h =>
    if h.acc.isSome || s.haulHeld h || s.dev.shut then none
    else match h.form, h.record, h.idx with
      | .tileLd, none, _ => s.haulRecord core id h
      | .tileSt, none, _ => s.haulRecord core id h
      | .gather, _, none => some (s.haulList core id h)
      | _, _, _ => s.haulChunk core id h

def execCopyComplete (core cmd : Nat) (s : State) : Host.Outcome State Fault Refusal := event (s.haulStep core cmd)

/-! ## SWEEP -/

def sweepWord (op : SweepOp) (g : Guard) (sd : Option (BitVec 7)) (sm : Option Src) (q : BitVec 4) (so sl : Src) : Op :=
  let uo := { srcIn 0 so with uni := true }
  let ul := { srcIn 1 sl with uni := true }
  let um := sm.map (fun m => { srcIn 3 m with uni := true })
  let u : Use := { g := g, srcs := [uo, ul] ++ um.toList, sw := sd.toList.map BitVec.toNat, cls := some 4, order := true }
  word u (fun x s =>
    let r := x.g.reg q.toNat
    let o := x.uni s uo
    let n := x.uni s ul
    let base := r.base.toNat + o
    let core := x.g.core
    let go (d : Done) : Effect :=
      if 8 ≤ (s.core core).sweeps.length then none
      else
        let snap := (s.l1Lines core (vfOf x.k) base n).flatMap (fun xm => (bitList (xm.1.dirty &&& xm.2)).map (fun b => xm.1.line * 512 + b))
        let id := s.nextId
        let w : Sweep := { op := op, grp := x.k, base := base, len := n, done := d, snap := snap }
        let s := (s.bump.modCore core (fun c => { c with sweeps := SMap.put c.sweeps id w })).charge (payerOf x.k) 7 (cdiv n 128)
        x.done (match d with | .token k sd => s.pendToken k sd id | .mbar _ _ => s)
    if 2 ^ 30 < n then x.trapCmd s 0x11 0
    else if r.kind == 0 || r.pend then x.refuseAll s 0x0A base
    else if r.kind != 4 || r.lent || (apertureIdx r.base.toNat).isSome then x.refuseAll s 0x08 base
    else if r.len.toNat < o + n then x.refuseAll s 0x09 (max base (r.base.toNat + r.len.toNat))
    else if o % 32 != 0 || n % 32 != 0 || n == 0 then x.refuseAll s 0x0B base
    else match sd, um with
      | some d, _ => go (.token x.k d.toNat)
      | none, some m =>
        let (clu, off) := mbOf (x.uni s m)
        match x.mbarOperand s clu off with
        | some e => e
        | none => go (.mbar clu off)
      | none, none => none)

def opSweepWb (g : Guard) (sd : BitVec 7) (q : BitVec 4) (so sl : Src) : Op :=
  sweepWord .wb g (some sd) none q so sl
def execSweepWb (g : Guard) (sd : BitVec 7) (q : BitVec 4) (so sl : Src) (s : State) : Host.Outcome State Fault Refusal :=
  (opSweepWb g sd q so sl).run s
def opSweepInv (g : Guard) (sd : BitVec 7) (q : BitVec 4) (so sl : Src) : Op :=
  sweepWord .inv g (some sd) none q so sl
def execSweepInv (g : Guard) (sd : BitVec 7) (q : BitVec 4) (so sl : Src) (s : State) : Host.Outcome State Fault Refusal :=
  (opSweepInv g sd q so sl).run s
def opSweepWbinv (g : Guard) (sd : BitVec 7) (q : BitVec 4) (so sl : Src) : Op :=
  sweepWord .wbinv g (some sd) none q so sl
def execSweepWbinv (g : Guard) (sd : BitVec 7) (q : BitVec 4) (so sl : Src) (s : State) : Host.Outcome State Fault Refusal :=
  (opSweepWbinv g sd q so sl).run s
def opSweepWbMb (g : Guard) (sm : Src) (q : BitVec 4) (so sl : Src) : Op :=
  sweepWord .wb g none (some sm) q so sl
def execSweepWbMb (g : Guard) (sm : Src) (q : BitVec 4) (so sl : Src) (s : State) : Host.Outcome State Fault Refusal :=
  (opSweepWbMb g sm q so sl).run s
def opSweepInvMb (g : Guard) (sm : Src) (q : BitVec 4) (so sl : Src) : Op :=
  sweepWord .inv g none (some sm) q so sl
def execSweepInvMb (g : Guard) (sm : Src) (q : BitVec 4) (so sl : Src) (s : State) : Host.Outcome State Fault Refusal :=
  (opSweepInvMb g sm q so sl).run s
def opSweepWbinvMb (g : Guard) (sm : Src) (q : BitVec 4) (so sl : Src) : Op :=
  sweepWord .wbinv g none (some sm) q so sl
def execSweepWbinvMb (g : Guard) (sm : Src) (q : BitVec 4) (so sl : Src) (s : State) : Host.Outcome State Fault Refusal :=
  (opSweepWbinvMb g sm q so sl).run s

/-- A sweep acts on a line over the bytes of its range (R134, R135): `m` those bytes, `old` those dirty at acceptance. Later
stores may or may not be written back. -/
def State.sweepLine (s : State) (core : Nat) (op : SweepOp) (x : L1Line) (m old : BitVec 512) : State × Bool :=
  let later := if Config.freeBool s.tick x.line then m else 0
  match op with
  | .wb =>
    let b := old ||| later
    ((s.writeBack core x b).l1Put core { x with dirty := x.dirty &&& ~~~b }, false)
  | .wbinv =>
    let b := old ||| later
    ((s.writeBack core x b).l1Put core { x with dirty := x.dirty &&& ~~~b, valid := x.valid &&& ~~~sectorsAny m }, false)
  | .inv => (s.l1Put core { x with dirty := x.dirty &&& ~~~old, valid := x.valid &&& ~~~sectorsAny m }, x.dirty &&& old != 0)

/-- The next 512 B of a sweep, counted into its object as they are swept (R215), and its completion at the end of its range. -/
def State.sweepStep (s : State) (core id : Nat) : Option State :=
  match SMap.find (s.core core).sweeps id with
  | none => none
  | some w =>
    let a := w.base + w.pos
    let n := min (512 - a % 512) (w.len - w.pos)
    let (s, disc) := (s.l1Lines core (vfOf w.grp) a n).foldl (fun (sb : State × Bool) xm =>
      let (x, m) := xm
      let old := x.dirty &&& m &&& (w.snap.foldl (fun b h => if h / 512 = x.line then b ||| bitsAt (h % 512) 1 else b) 0)
      let (s, d) := sb.1.sweepLine core w.op x m old
      (s, sb.2 || d)) (s, false)
    let s := if disc then s.setStatus w.grp 4 else s
    let w := { w with pos := w.pos + n, discarded := w.discarded || disc }
    let s := match w.done with
      | .token _ _ => s
      | .mbar clu off => s.mbar w.grp clu off 0 (0 - BitVec.ofNat 32 n)
    if w.pos < w.len then some (s.modCore core (fun c => { c with sweeps := SMap.put c.sweeps id w }))
    else
      let s := (s.modCore core (fun c => { c with sweeps := SMap.del c.sweeps id })).progress (teamOf w.grp)
      some (match w.done with
        | .token k sd => s.token k sd id (tokenOk w.len)
        | .mbar _ _ => s)

def execSweepComplete (core cmd : Nat) (s : State) : Host.Outcome State Fault Refusal := event (s.sweepStep core cmd)

end Sys2Proof.Machine
end

