-- ==== Sys2Proof/Machine/Remote.lean ====
section
/-! DEFINITION. Remote operations: RLD, RST (R297, R442, R444), RMST with its replication (R299, R443), RFLUSH (R300, R441), COLL
(R302, R303, R385), their completion (R296, R301). -/

namespace Sys2Proof.Machine

open Sys2Proof

/-! ## Completion -/

/-- A record of R301 of this group still waits for a buffer record. -/
def State.remoteWaits (s : State) (core k : Nat) : Bool :=
  (s.die (dieOf core)).waiting.any (fun w => w.fault.access == .remote && w.fault.ctx == k)

/-- The token of an operation whose parts have all ended: bytes, targets or elements, or the cause of R296 and the number of
failed parts. RFLUSH reports the first failure, the others that of the lowest part. -/
def RemOp.result (o : RemOp) : BitVec 32 :=
  match o.fails with
  | [] => tokenOk o.bytes
  | f :: fs =>
    let low := fs.foldl (fun b g => if g.1 < b.1 then g else b) f
    let c := match o.kind with
      | .rflush => f.2
      | _ => low.2
    tokenBad c (f :: fs).length

/-- Bit (device mod 512) of the acknowledgement record is set for the failed members (R299). -/
def ackRecord (ranks : List (Nat × Nat)) : Nat := ranks.foldl (fun v r => v ||| 2 ^ (r.2 % 512)) 0

/-- End an operation none of whose parts is left and whose records are taken (R299, R301). -/
def State.remFinish (s : State) (id : Nat) : State :=
  match SMap.find s.rems id with
  | none => s
  | some o =>
    if o.left ≠ 0 || s.remoteWaits o.core o.grp then s
    else
      let s := match o.kind with
        | .rmst _ ack _ _ ranks =>
          ((s.localStore o.grp 0 .scr ack 64 (ackRecord ranks)).charge (payerOf o.grp) 8 1).wakeObjects
        | _ => s
      let s := { s with rems := SMap.del s.rems id }
      ((s.token o.grp o.sd id o.result).progress (teamOf o.grp)).recheckReturns o.core

/-- The initiator's record of a terminal fault or timeout at a target (R301). -/
def State.remRecord (s : State) (o : RemOp) (cause : BitVec 8) (va : Nat) (lanes : BitVec 32) : State :=
  if cause == 0x41 || cause == 0x42 then
    s.keepRecord
      { va := BitVec.ofNat 57 va, cause := cause, access := .remote, vf := o.vf, part := s.leafOf o.grp, ctx := o.grp
        die := dieOf o.core, core := o.core % 16, lanes := lanes, pc := o.pc }
  else s

/-- Vector registers of a lane's RLD result. -/
def remRegs (vd : Nat) (t : StTy) : List Nat := (List.range (stWidth t)).map (· + vd)

/-- Data of a part of an RLD reaches its lanes: `n` bytes for each, zero where the part failed. -/
def State.rldData (s : State) (id : Nat) (o : RemOp) (part : Nat) (vd : Nat) (t : StTy) (data : List Byte) : State :=
  let mask := (SMap.find o.lanes part).getD 0
  let n := stBytes t
  let vals := (lanesOf mask).zipIdx.map (fun ij => (ij.1, ofBytes ((data.drop (n * ij.2)).take n)))
  let s := s.putV o.grp vd (stWidth t) false vals
  let regs := remRegs vd t
  let s := s.modGroup o.grp (fun g => { g with
    pend := (g.pend.map (fun p => if p.op == id && p.kind == .rld then { p with lanes := p.lanes &&& ~~~mask } else p)).filter
      (fun p => p.lanes != 0) })
  match s.group o.grp with
  | none => s
  | some g => (g.wakes.filter (fun w => w.code == 6 && regs.contains w.arg.toNat)).foldl (fun s w => s.wakeRec o.grp w false) s

/-- A part of an operation ends: with its data, or with a cause. -/
def State.remPart (s : State) (id part va : Nat) (lanes : BitVec 32) (r : List Byte ⊕ BitVec 8) : State :=
  match SMap.find s.rems id with
  | none => s
  | some o =>
    let s := match o.kind, r with
      | .rld vd t, .inl d => s.rldData id o part vd t d
      | .rld vd t, .inr _ => s.rldData id o part vd t []
      | _, _ => s
    let o' : RemOp := match r with
      | .inl _ => { o with left := o.left - 1 }
      | .inr c => { o with left := o.left - 1, fails := o.fails ++ [(part, c)] }
    let o' := match o'.kind, r with
      | .rmst g a f d ranks, .inr _ =>
        let dev := match (SMap.find s.dev.mcasts g).bind (fun m => m.members[part]?) with | some m => m.dev.toNat | none => 0
        { o' with kind := .rmst g a f d (ranks ++ [(part, dev)]) }
      | _, _ => o'
    let s := { s with rems := SMap.put s.rems id o' }
    let s := match r with
      | .inl _ => s
      | .inr c => s.remRecord o c va lanes
    let s := if o'.left = 0 then (match o.kind with
        | .rmst _ _ _ _ _ => s.chargeMsg (payerOf o.grp) (collHops (dieOf o.core))
        | .rflush => s.chargeMsg (payerOf o.grp) (collHops (dieOf o.core))
        | _ => s) else s
    s.remFinish id

/-- Start an operation: its number, record and pending token. -/
def State.startRem (s : State) (o : RemOp) : State × Nat :=
  let id := s.nextId
  let s := { s.bump with rems := SMap.put s.rems id o }
  (s.pendToken o.grp o.sd id, id)

/-! ## RLD and RST -/

/-- Pack lanes in ascending order into requests of contiguous bytes, at most 256 B each: address, bytes, lanes (R297). -/
def packLanes (ea : Nat → Nat) (n : Nat) (ls : List Nat) : List (Nat × Nat × BitVec 32) :=
  ls.foldl (fun rs i =>
    match rs.getLast? with
    | some (a, len, m) =>
      if ea i = a + len && len + n ≤ 256 then rs.dropLast ++ [(a, len + n, m ||| 1#32 <<< i)] else rs ++ [(ea i, n, 1#32 <<< i)]
    | none => [(ea i, n, 1#32 <<< i)]) []

/-- Checks of R95 and R291 on the lanes of an RLD or RST and their translation by the import table: state, parts of lanes that
leave, lanes left; none where a fault record has no room. -/
def Ctx.remoteLanes (x : Ctx) (s : State) (q : BitVec 4) (need : Need) (ea : Nat → Int) (n : Nat) :
    Option (State × List Part × BitVec 32) :=
  let r := x.g.reg q.toNat
  let (s, ps, m) := x.checkWith s r (r.lent || r.kind != 4 || (apertureIdx r.base.toNat).isNone) ea n n
  let vf := vfOf x.k
  let fault (i : Nat) : Option (BitVec 4 × Bool) :=
    match s.walk vf (ea i).toNat with
    | .ok p _ => p.deny (s.vf vf) (some 1) need
    | .term c st _ => some (c, st)
    | .retry c st _ => some (c, st)
  (byUnit (fun i => (ea i).toNat) m).foldl (fun (o : Option (State × List Part × BitVec 32)) um =>
    match o with
    | none => none
    | some (s, ps, m) =>
      match fault (lowLane um.2) with
      | none => some (s, ps, m)
      | some (c, st) =>
        let va := (ea (lowLane um.2)).toNat
        let kind : AccKind := match need with | .ld => .load | _ => .store
        let a : Acc :=
          { kind := kind, use := .fetch, vf := vf, part := s.leafOf x.k, core := x.g.core, grp := x.k, pc := x.e.pc
            page := um.1, lanes := um.2, addrs := [(lowLane um.2, BitVec.ofNat 57 va)] }
        if (s.die (dieOf a.core)).roomFor a.part then
          some (s.keepRecord (a.record 0x21 c st),
            ps ++ [x.trapPart um.2 0x21 (BitVec.ofNat 57 va) (faultInfo c kind)], m &&& ~~~um.2)
        else some (s.stayRecord a c st, ps ++ [x.stayPart um.2], m &&& ~~~um.2)) (some (s, ps, m))

/-- Send the requests of an RLD or RST. -/
def Ctx.remoteGo (x : Ctx) (s : State) (q : BitVec 4) (kind : RemKind) (sd : BitVec 7) (ea : Nat → Nat) (n : Nat) (m : BitVec 32)
    (dat : Option (Nat → Nat)) : State × Nat :=
  let reqs := packLanes ea n (lanesOf m)
  let vf := vfOf x.k
  let h := collHops (dieOf x.g.core)
  let p := payerOf x.k
  let (s, id) := s.startRem
    { kind := kind, grp := x.k, vf := vf, sd := sd.toNat, pc := x.e.pc, left := reqs.length, bytes := n * laneCount m
      lanes := reqs.zipIdx.map (fun rj => (rj.2, rj.1.2.2)), regs := [x.g.reg q.toNat], core := x.g.core }
  (reqs.zipIdx.foldl (fun s rj =>
    let (a, len, mask) := rj.1
    let win := (apertureIdx a).getD 0
    let off := (a - apertureBase) % 2 ^ 40
    match dat with
    | some f =>
      let bytes := (lanesOf mask).flatMap (fun i => bytesOf n (f i))
      let s := ((s.chargeData p h len).charge p 19 (cdiv len 256))
      s.peerSend vf win (.write off bytes) id rj.2 a mask.toNat
    | none => (s.chargeMsg p h).peerSend vf win (.read off len) id rj.2 a mask.toNat) s, id)

def opRld (c : Ctl) (t : StTy) (sd : BitVec 7) (d : BitVec 8) (q : BitVec 4) (vo : Src) : Op :=
  let so := srcIn 0 vo
  let n := stBytes t
  let u : Use :=
    { g := c.g, lu := c.lu, srcs := [so], sw := [sd.toNat], vw := remRegs d.toNat t, cls := some 4, touches := true }
  word u (fun x s =>
    let ea := x.ea s (x.g.reg q.toNat).base.toNat so 0
    match x.remoteLanes s q .ld ea n with
    | none => none
    | some (s, ps, m) =>
      let left := ps.foldl (fun m p => m ||| p.mask) 0
      let rest := { x.next with mask := x.stay &&& ~~~left }
      if m == 0 then some (s, ps ++ [rest])
      else
        let (s, id) := x.remoteGo s q (.rld d.toNat t) sd (fun i => (ea i).toNat) n m none
        let s := s.modGroup x.k (fun g => { g with
          pend := g.pend ++ (remRegs d.toNat t).map (fun r => { reg := .v r, kind := .rld, op := id, lanes := m }) })
        some (s, ps ++ [rest]))
def execRld (c : Ctl) (t : StTy) (sd : BitVec 7) (d : BitVec 8) (q : BitVec 4) (vo : Src) (s : State) : Host.Outcome State Fault Refusal :=
  (opRld c t sd d q vo).run s

def opRst (c : Ctl) (t : StTy) (sd : BitVec 7) (q : BitVec 4) (vo : Src) (vs : BitVec 8) : Op :=
  let so := srcIn 0 vo
  let sb := srcIn 1 (.v vs) (stWidth t)
  let n := stBytes t
  word { g := c.g, lu := c.lu, srcs := [so, sb], sw := [sd.toNat], cls := some 4, touches := true } (fun x s =>
    let ea := x.ea s (x.g.reg q.toNat).base.toNat so 0
    match x.remoteLanes s q .st ea n with
    | none => none
    | some (s, ps, m) =>
      let left := ps.foldl (fun m p => m ||| p.mask) 0
      let rest := { x.next with mask := x.stay &&& ~~~left }
      if m == 0 then some (s, ps ++ [rest])
      else
        let (s, _) := x.remoteGo s q .rst sd (fun i => (ea i).toNat) n m (some (x.val s sb))
        some (s, ps ++ [rest]))
def execRst (c : Ctl) (t : StTy) (sd : BitVec 7) (q : BitVec 4) (vo : Src) (vs : BitVec 8) (s : State) : Host.Outcome State Fault Refusal :=
  (opRst c t sd q vo vs).run s

/-! ## Blocks read by a command -/

/-- Read `n` bytes of a region for a command, as the engine reads them (R167), and go on with them. -/
def Ctx.readBlock (x : Ctx) (s : State) (i : Instr) (r : Region) (a n : Nat) (go : State → List Byte → Effect) : Effect :=
  let core := x.g.core
  let h : Haul := { form := .lin, grp := x.k, lane := lowLane x.lanes, pc := x.e.pc, src := r, sOff := a, len := n, done := .mbar false 0 }
  let as := (List.range n).map (a + ·)
  match s.haulPages core h r false as with
  | (_, .inr .wait) => none
  | (s, .inr (.retry va c st fresh _)) => x.park s i .engineRead [(va, c, st, fresh)]
  | (s, .inr (.term va c st _)) => x.terminal s i .engineRead va c st
  | (s, .inl xs) =>
    match s.haulMissing core r xs (vfOf x.k) as with
    | [] => go (s.haulFetch core h xs as) (as.map (s.haulFetch core h xs as |>.haulByte core h xs))
    | bs =>
      -- a held peer window: the entry waits until its blocks are in the L1
      if s.accs.any (fun kv => kv.2.grp == x.k && kv.2.use == .engine 0 && kv.2.st == .peer) then none
      else
        let (s, aid) := s.track
          { kind := .engineRead, use := .engine 0, vf := vfOf x.k, part := s.leafOf x.k, core := core, grp := x.k, pc := x.e.pc
            page := 0, st := .peer, left := bs.length }
        some (bs.foldl (fun s wo =>
          (s.chargeMsg (payerOf x.k) (collHops (dieOf core))).peerSend (vfOf x.k) wo.1 (.fill wo.2.1 wo.2.2) aid 0 0 0) s, [])

/-- A multicast group of the issuing VF. -/
def Ctx.ownGroup (x : Ctx) (s : State) (g : Nat) : Option Mcast :=
  match SMap.find s.dev.mcasts g with
  | some m => if m.vf = vfOf x.k then some m else none
  | none => none

/-- ACCESS_FAULT with REASON 8 for a group that the VF does not own (R299). -/
def Ctx.notOwned (x : Ctx) (s : State) (i : Instr) : Effect := x.terminal s i .remote 0 8 false

/-! ## RMST -/

/-- An RMST of a VF has still to enter the connections of its members: no flush notice of the VF goes before it (R171, R300). -/
def State.rmstOut (s : State) (vf : Nat) : Bool :=
  s.pending.any (fun m => match m.instr with
    | .multicastReplication id => (SMap.find s.rems id).any (fun o => o.vf == vf)
    | _ => false)

/-- A held borrow over a peer's window, from which RMST does not read (R291). -/
def Region.heldPeer (r : Region) : Bool :=
  decide (1 ≤ r.kind.toNat) && decide (r.kind.toNat ≤ 3) && (apertureIdx r.base.toNat).isSome

def opRmst (c : Ctl) (sd : BitVec 7) (sg : Src) (q : BitVec 4) (sb : Src) (sc : BitVec 7) : Op :=
  let ug := { srcIn 0 sg with uni := true }
  let ub := { srcIn 1 sb with uni := true }
  let i : Instr := .rmst c sd sg q sb sc
  let u : Use :=
    { g := c.g, lu := c.lu, srcs := [ug, ub], sr := (List.range 4).map (· + sc.toNat), sw := [sd.toNat], cls := some 4
      order := true }
  word u (fun x s =>
    let grp := x.uni s ug
    let r := x.g.reg q.toNat
    let a := r.base.toNat + x.uni s ub
    let off := x.blk sc 0
    let n := x.blk sc 1
    let ack := x.blk sc 2
    if 4095 < grp then x.trapCmd s 0x11 0
    else match x.ownGroup s grp with
      | none => x.notOwned s i
      | some m =>
        match if !r.pend && r.heldPeer then some (0x08, a) else r.extent .load a n with
        | some (cause, va) => x.refuseAll s cause va
        | none =>
          if off % 16 != 0 || n < 16 || 256 < n || n % 16 != 0 || ack % 64 != 0 || s.spaceLen x.k .scr < ack + 64 then
            x.trapCmd s 0x11 0
          else x.readBlock s i r a n (fun s data =>
            let p := payerOf x.k
            let s := s.chargeData p (collHops (dieOf x.g.core)) n
            let (s, id) := s.startRem
              { kind := .rmst grp ack off data [], grp := x.k, vf := vfOf x.k, sd := sd.toNat, pc := x.e.pc
                left := m.members.length, bytes := n, regs := [r], core := x.g.core }
            x.done (s.send (.multicastReplication id) (remoteRoute x.g.core))))
def execRmst (c : Ctl) (sd : BitVec 7) (sg : Src) (q : BitVec 4) (sb : Src) (sc : BitVec 7) (s : State) : Host.Outcome State Fault Refusal :=
  (opRmst c sd sg q sb sc).run s

/-- The collective die sends one unicast per member, in member order (R299). -/
def State.replicate (s : State) (id : Nat) : State :=
  match SMap.find s.rems id with
  | none => s
  | some o =>
    match o.kind with
    | .rmst g _ off data _ =>
      (match SMap.find s.dev.mcasts g with
      | none => s
      | some m => m.members.zipIdx.foldl (fun s mj =>
          let p := payerOf o.grp
          -- the copy of the device itself leaves no port (R298)
          let s := (s.charge p 22 1).charge p 19 (if mj.1.dev.toNat = s.dev.devNum then 0 else cdiv data.length 256)
          s.peerSendTo o.vf mj.1.dev.toNat mj.1.vf.toNat mj.1.win.toNat m.tmo (.write off data) id mj.2 off (mj.2 % 512)) s)
    | _ => s

def execMulticastReplication (op : Nat) (s : State) : Host.Outcome State Fault Refusal := .next (s.replicate op)

/-! ## RFLUSH -/

/-- Notify targets: device, VF, export, timeout, with their ranks (none for the one target of RFLUSH). -/
def Ctx.flushGo (x : Ctx) (s : State) (sd : BitVec 7) (regs : List Region) (ts : List (Nat × Nat × Nat × Nat × Nat × Nat)) : Effect :=
  let p := payerOf x.k
  let s := s.chargeMsg p (collHops (dieOf x.g.core))
  let (s, id) := s.startRem
    { kind := .rflush, grp := x.k, vf := vfOf x.k, sd := sd.toNat, pc := x.e.pc, left := ts.length, bytes := ts.length
      regs := regs, core := x.g.core }
  x.done ((ts.foldl (fun s t =>
    let (dev, vf, win, tmo, rank, va) := t
    s.peerSendTo (vfOf x.k) dev vf win tmo .flush id rank va rank) s).remFinish id)

def opRflush (g : Guard) (sd : BitVec 7) (q : BitVec 4) : Op :=
  word { g := g, sw := [sd.toNat], cls := some 4, touches := true } (fun x s =>
    let r := x.g.reg q.toNat
    if s.rmstOut (vfOf x.k) then none
    else if r.kind == 0 || r.pend then x.refuseAll s 0x0A r.base.toNat
    else match if r.kind == 4 && !r.lent then apertureIdx r.base.toNat else none with
      | none => x.refuseAll s 0x08 r.base.toNat
      | some w =>
        match SMap.find (s.vf (vfOf x.k)).imports w with
        | some im => x.flushGo s sd [r] [(im.rdev.toNat, im.rvf.toNat, im.rwin.toNat, im.tmo.toNat, 0, r.base.toNat)]
        | none =>
          -- the connection has ended
          let (s, id) := s.startRem
            { kind := .rflush, grp := x.k, vf := vfOf x.k, sd := sd.toNat, pc := x.e.pc, fails := [(0, 0x43)], core := x.g.core }
          x.done (s.remFinish id))
def execRflush (g : Guard) (sd : BitVec 7) (q : BitVec 4) (s : State) : Host.Outcome State Fault Refusal :=
  (opRflush g sd q).run s

def opRflushMc (c : Ctl) (sd : BitVec 7) (sg so : Src) : Op :=
  let ug := { srcIn 0 sg with uni := true }
  let uo := { srcIn 1 so with uni := true }
  let i : Instr := .rflushMc c sd sg so
  word { g := c.g, lu := c.lu, srcs := [ug, uo], sw := [sd.toNat], cls := some 4, order := true } (fun x s =>
    let grp := x.uni s ug
    let o := x.uni s uo
    let all := decide (2 ^ 31 ≤ o)
    if s.rmstOut (vfOf x.k) then none
    else if 4095 < grp || (!all && s.spaceLen x.k .scr < o + 64) then x.trapCmd s 0x11 0
    else if !all && o % 64 != 0 then x.trapCmd s 0x10 o
    else match x.ownGroup s grp with
      | none => x.notOwned s i
      | some m =>
        let ack := if all then 0 else s.localLoad x.k 0 .scr o 64
        let s := if all then s else s.charge (payerOf x.k) 8 1
        let ts := m.members.zipIdx.filter (fun mj => !ack.testBit (mj.1.dev.toNat % 512))
        x.flushGo s sd [] (ts.map (fun mj => (mj.1.dev.toNat, mj.1.vf.toNat, mj.1.win.toNat, m.tmo, mj.2, 0))))
def execRflushMc (c : Ctl) (sd : BitVec 7) (sg so : Src) (s : State) : Host.Outcome State Fault Refusal :=
  (opRflushMc c sd sg so).run s

/-! ## COLL -/

def collWidth (t : CollTy) : Nat := match t with | .bf16 => 2 | _ => 4

/-- Bytes of a member's source and destination (R302). -/
def collSizes (form e w n rank : Nat) : Nat × Nat :=
  match form with
  | 0 => (e * w, e * w)
  | 1 => (e * w, e / n * w)
  | 2 => (e * w, n * e * w)
  | _ => (if rank = 0 then e * w else 0, e * w)

/-- Rank of this device among the members of a group. -/
def State.rankIn (s : State) (m : Mcast) (vf : Nat) : Option Nat :=
  (m.members.zipIdx.find? (fun mj => mj.1.dev.toNat == s.dev.devNum && mj.1.vf.toNat == vf)).map Prod.snd

/-- COLL (R302, R385): the checks; the source is read and sent to the collective die. -/
def coll (i : Instr) (c : Ctl) (sd : BitVec 7) (form : Nat) (op : CollOp) (ty : CollTy) (fo : Bool)
    (qd qs : BitVec 4) (sc : BitVec 7) : Op :=
  let u : Use :=
    { g := c.g, lu := c.lu, sr := (List.range 4).map (· + sc.toNat), sw := [sd.toNat], cls := some 4, order := true }
  word u (fun x s =>
    let grp := x.blk sc 0
    let e := x.blk sc 3
    let w := collWidth ty
    let d := x.g.reg qd.toNat
    let r := x.g.reg qs.toNat
    let a := r.base.toNat + x.blk sc 1
    let b := d.base.toNat + x.blk sc 2
    if 4095 < grp || e == 0 || 2 ^ 24 < e then x.trapCmd s 0x11 0
    else match x.ownGroup s grp with
      | none => if !fo && s.isDet x.k then x.trapCmd s 0x28 0 else x.notOwned s i
      | some m =>
        match s.rankIn m (vfOf x.k) with
        | none => if !fo && s.isDet x.k then x.trapCmd s 0x28 0 else x.notOwned s i
        | some rank =>
          let (ns, nd) := collSizes form e w (max 1 m.members.length) rank
          match worst (d.extent .store b nd) (r.extent .load a ns) with
          | some (cause, va) => x.refuseAll s cause va
          | none =>
            if !fo && s.isDet x.k then x.trapCmd s 0x28 0
            else x.readBlock s i r a ns (fun s data =>
              let h : Haul := { form := .lin, grp := x.k, lane := lowLane x.lanes, dst := d, done := .mbar false 0 }
              match s.haulPages x.g.core h d true ((List.range nd).map (b + ·)) with
              | (_, .inr .wait) => none
              | (s, .inr (.retry va cz st fresh _)) => x.park s i .engineWrite [(va, cz, st, fresh)]
              | (s, .inr (.term va cz st _)) => x.terminal s i .engineWrite va cz st
              | (s, .inl _) =>
                let p := payerOf x.k
                let hops := collHops (dieOf x.g.core)
                let s := (s.chargeData p hops ns).charge p 19 (cdiv ns 256)
                let part : CollPart :=
                  { rank := rank, form := form, op := op, ty := ty, fo := fo, e := e, data := data, failed := none }
                let m' : Mcast := { m with issued := m.issued + 1, arrived := m.arrived ++ [(m.issued, part)] }
                let s := s.modDev (fun dv => { dv with mcasts := SMap.put dv.mcasts grp m' })
                let (s, _) := s.startRem
                  { kind := .coll form grp m.issued e w, grp := x.k, vf := vfOf x.k, sd := sd.toNat, pc := x.e.pc, left := 1
                    bytes := e, regs := [d, r], dst := b, core := x.g.core, lanes := [(0, 1#32 <<< lowLane x.lanes)] }
                x.done s))

def opCollAllred (c : Ctl) (sd : BitVec 7) (op : CollOp) (ty : CollTy) (fo : Bool) (qd qs : BitVec 4) (sc : BitVec 7)
    : Op := coll (.collAllred c sd op ty fo qd qs sc) c sd 0 op ty fo qd qs sc
def execCollAllred (c : Ctl) (sd : BitVec 7) (op : CollOp) (ty : CollTy) (fo : Bool) (qd qs : BitVec 4) (sc : BitVec 7)
    (s : State) : Host.Outcome State Fault Refusal :=
  (opCollAllred c sd op ty fo qd qs sc).run s
def opCollRedsc (c : Ctl) (sd : BitVec 7) (op : CollOp) (ty : CollTy) (fo : Bool) (qd qs : BitVec 4) (sc : BitVec 7)
    : Op := coll (.collRedsc c sd op ty fo qd qs sc) c sd 1 op ty fo qd qs sc
def execCollRedsc (c : Ctl) (sd : BitVec 7) (op : CollOp) (ty : CollTy) (fo : Bool) (qd qs : BitVec 4) (sc : BitVec 7)
    (s : State) : Host.Outcome State Fault Refusal :=
  (opCollRedsc c sd op ty fo qd qs sc).run s
def opCollAllga (c : Ctl) (sd : BitVec 7) (ty : CollTy) (fo : Bool) (qd qs : BitVec 4) (sc : BitVec 7) : Op := coll (.collAllga c sd ty fo qd qs sc) c sd 2 .sum ty fo qd qs sc
def execCollAllga (c : Ctl) (sd : BitVec 7) (ty : CollTy) (fo : Bool) (qd qs : BitVec 4) (sc : BitVec 7) (s : State) : Host.Outcome State Fault Refusal :=
  (opCollAllga c sd ty fo qd qs sc).run s
def opCollBcast (c : Ctl) (sd : BitVec 7) (ty : CollTy) (fo : Bool) (qd qs : BitVec 4) (sc : BitVec 7) : Op := coll (.collBcast c sd ty fo qd qs sc) c sd 3 .sum ty fo qd qs sc
def execCollBcast (c : Ctl) (sd : BitVec 7) (ty : CollTy) (fo : Bool) (qd qs : BitVec 4) (sc : BitVec 7) (s : State) : Host.Outcome State Fault Refusal :=
  (opCollBcast c sd ty fo qd qs sc).run s

/-! ## The reduction units (R303) -/

/-- Element `i` of a contribution, widened. -/
def collIn (p : CollPart) (i : Nat) : Nat :=
  let w := collWidth p.ty
  let v := ofBytes ((p.data.drop (w * i)).take w)
  match p.ty with
  | .bf16 => (Fp.fToF Fp.bf16 Fp.f32 .rn v).bits
  | _ => v

/-- One step of a reduction. -/
def collStep (op : CollOp) (ty : CollTy) (v c : Nat) : Nat :=
  match op, ty with
  | .sum, .s32 => (v + c) % 2 ^ 32
  | .min, .s32 => if sInt 32 c < sInt 32 v then c else v
  | .max, .s32 => if sInt 32 v < sInt 32 c then c else v
  | .sum, _ => (Fp.fadd Fp.f32 .rn false v c).bits
  | .min, _ => (Fp.fmnmx Fp.f32 false false v c).bits
  | .max, _ => (Fp.fmnmx Fp.f32 false true v c).bits

/-- The result of element `i`, narrowed. -/
def collElem (ps : List CollPart) (op : CollOp) (ty : CollTy) (i : Nat) : Nat :=
  match ps with
  | [] => 0
  | p :: ps =>
    let v := ps.foldl (fun v q => collStep op ty v (collIn q i)) (collIn p i)
    match ty with
    | .bf16 => (Fp.fToF Fp.f32 Fp.bf16 .rn v).bits
    | _ => v

/-- Contributions in order of rank. -/
def byRank (ps : List CollPart) : List CollPart := sortBy (fun a b => decide (a.rank < b.rank)) ps

/-- The bytes delivered at a rank (R302, R303): `ps` in order of arrival. -/
def collResult (ps : List CollPart) (p : CollPart) (n rank : Nat) : List Byte :=
  let w := collWidth p.ty
  let order := if p.fo then byRank ps else ps
  let red (i : Nat) : List Byte := bytesOf w (collElem order p.op p.ty i)
  match p.form with
  | 0 => (List.range p.e).flatMap red
  | 1 => (List.range (p.e / n)).flatMap (fun i => red (rank * (p.e / n) + i))
  | 2 => (byRank ps).flatMap (fun q => q.data)
  | _ => (ps.find? (fun q => q.rank == 0)).elim [] (fun q => q.data)

/-- The contributions of all members of the oldest collective of a group, in order of arrival: this device's own is the one it
sent. The result is delivered to this member. -/
def State.reduce (s : State) (vf grp : Nat) (parts : List CollPart) : Option State :=
  match SMap.find s.dev.mcasts grp with
  | none => none
  | some m =>
    match m.arrived, s.rankIn m vf with
    | (number, own) :: rest, some rank =>
      let n := m.members.length
      let ps := parts.map (fun p => if p.rank = rank then own else p)
      let ranks := (byRank ps).map (fun p => p.rank)
      if m.vf ≠ vf || ranks != List.range n then none
      else
        match s.rems.find? (fun o => match o.2.kind with | .coll _ g k _ _ => g == grp && k == number | _ => false) with
        | none => some (s.modDev (fun d => { d with mcasts := SMap.put d.mcasts grp { m with arrived := rest } }))
        | some (id, o) =>
          let s := s.modDev (fun d => { d with mcasts := SMap.put d.mcasts grp { m with arrived := rest } })
          let first := ps.headD own
          let same (p : CollPart) : Bool :=
            p.form == first.form && p.op == first.op && p.ty == first.ty && p.e == first.e && p.fo == first.fo
          let failed := (ps.filter (fun p => p.rank != rank)).findSome? (fun p => p.failed)
          let bad := ps.any (fun p => !same p) || (first.form == 1 && first.e % max 1 n != 0)
          let core := o.core
          let d := (o.regs[0]?).getD {}
          let lane := lowLane ((SMap.find o.lanes 0).getD 1)
          let h : Haul := { form := .lin, grp := o.grp, lane := lane, pc := o.pc, dst := d, done := .mbar false 0 }
          let data := if bad then [] else collResult ps own n rank
          -- the contributions of a reduction are of one length, so that this one's events are its VF's equal share (R232, R304)
          let s := if bad || failed.isSome || 1 < first.form then s else s.charge (payerOf o.grp) 23 (cdiv own.data.length 256)
          let as := (List.range data.length).map (o.dst + ·)
          if bad then some (s.remPart id 0 0 0 (.inr 0x44))
          else match s.haulPages core h d true as with
            | (_, .inr .wait) => none
            | (s, .inr (.retry va c st _ _)) =>
              some ((s.keepRecord { va := BitVec.ofNat 57 va, cause := 0x21, access := .engineWrite, reason := c, vf := vf
                                    part := s.leafOf o.grp, ctx := o.grp, die := dieOf core, core := core % 16, stage := st, pc := o.pc }
                ).remPart id 0 0 0 (.inr 0x21))
            | (s, .inr (.term va c st _)) =>
              some ((s.keepRecord { va := BitVec.ofNat 57 va, cause := 0x21, access := .engineWrite, reason := c, vf := vf
                                    part := s.leafOf o.grp, ctx := o.grp, die := dieOf core, core := core % 16, stage := st, pc := o.pc }
                ).remPart id 0 0 0 (.inr 0x21))
            | (s, .inl xs) =>
              let p := payerOf o.grp
              let s := s.chargeData p (collHops (dieOf core)) data.length
              let t := s.tick
              match failed with
              | some c =>
                -- each byte stays, or is written with a value that is not stated (R302)
                let s := as.foldl (fun s a =>
                  if Config.freeBool t a then s.haulPut core h xs a ((Config.freeWord t a).setWidth 8) else s) s
                some (s.remPart id 0 0 0 (.inr c))
              | none =>
                let s := data.zipIdx.foldl (fun s bj => s.haulPut core h xs (o.dst + bj.2) bj.1) s
                let s := s.haulStoreCharge core h xs as
                let s := if (LSpace.ofKind d.kind).isSome then s.wakeObjects else s
                some (s.remPart id 0 0 0 (.inl []))
    | _, _ => none

def execInNetworkReduction (vf grp : Nat) (parts : List CollPart) (s : State) : Host.Outcome State Fault Refusal :=
  event (s.reduce vf grp parts)

end Sys2Proof.Machine
end

