-- ==== Sys2Proof/Machine/Translate.lean ====
section
/-! DEFINITION. Walks and page-miss entries (R140, R144, R471), parking of fragments (R43, R49, R50), the fault buffers, rings and
reports (R145 to R148), REPLAY ALL (R149), invalidation (R150, R151), and what defers a request on a mapping (R72, R116). -/

namespace Sys2Proof.Machine

open Sys2Proof

/-! ## What a tracked access does -/

/-- The access of a word. -/
def accessOf (i : Instr) : MK :=
  match i with
  | .ld _ t _ _ => .ld t
  | .st _ t _ _ => .st (stBytes t)
  | .atomAdd _ _ _ w _ _ _ => .at_ .add w
  | .atomMin _ _ _ u _ _ _ => .at_ (minOp u) false
  | .atomMax _ _ _ u _ _ _ => .at_ (maxOp u) false
  | .atomAnd _ _ _ w _ _ _ => .at_ .and w
  | .atomOr _ _ _ w _ _ _ => .at_ .or w
  | .atomXor _ _ _ w _ _ _ => .at_ .xor w
  | .atomExch _ _ _ w _ _ _ => .at_ .exch w
  | .atomAddf _ _ _ _ _ _ => .at_ .addf false
  | .redAdd _ _ _ w _ _ => .at_ .add w
  | .redMin _ _ _ u _ _ => .at_ (minOp u) false
  | .redMax _ _ _ u _ _ => .at_ (maxOp u) false
  | .redAnd _ _ _ w _ _ => .at_ .and w
  | .redOr _ _ _ w _ _ => .at_ .or w
  | .redXor _ _ _ w _ _ => .at_ .xor w
  | .redAddf _ _ _ _ _ => .at_ .addf false
  | .cas _ _ _ w _ _ _ _ => .at_ .cas w
  | .sigDec _ _ _ _ => .at_ .add true
  | .sigAdd _ _ _ _ => .at_ .add true
  | .sigSet _ _ _ _ => .at_ .exch true
  | _ => .cbld

/-- The access that a tracked record performs; none for what issues again. -/
def Acc.access (a : Acc) : Option MK :=
  match a.use with
  | .word i => if a.again then none else some (accessOf i)
  | _ => none

/-! ## Parking (R43, R49, R50) -/

/-- The lanes of an access leave the entries at which they stand now and park there: the saved PC lies past the skid. Wake
records of entries that park whole are freed. -/
def Group.parkLanes (g : Group) (m : BitVec 32) (parent fseq : BitVec 5) : Group :=
  g.entries.foldl (fun (g : Group) e =>
    let x := e.mask &&& m
    if x == 0 || e.st == .parked then g
    else
      let rest := e.mask &&& ~~~x
      let low := BitVec.ofNat 5 (lowLane rest)
      let frag := if rest == 0 then e.frag else BitVec.ofNat 5 (lowLane x)
      let p : Entry := { e with mask := x, st := .parked, skip := 0, frag := frag, fr := true, fseq := fseq, parent := parent }
      let others := g.entries.filter (fun f => f.frag != e.frag)
      let es := if rest == 0 then others else insertEntry { e with mask := rest, frag := low } others
      { g with
        entries := placeEntry p es
        wakes := if rest == 0 then g.wakes.filter (fun w => w.frag != e.frag)
          else g.wakes.map (fun w => if w.frag == e.frag then { w with frag := low } else w) }) g

/-- Entries whose accesses have been performed become READY (R50). -/
def State.unpark (s : State) (k : Nat) : State :=
  match s.group k with
  | none => s
  | some g =>
    let free := g.entries.filter (fun e => e.st == .parked &&
      !s.accs.any (fun kv => kv.2.grp == k && kv.2.keepsParked && kv.2.lanes &&& e.mask != 0))
    let g := free.foldl (fun (g : Group) e => g.modEntry e.frag (fun e => { e with st := .ready, skip := 0 })) g
    (s.setGroup k g).makeReady k

/-- An access parks: a retryable fault that found its page, or a coalesced one. A split in supervisor mode kills the launch
(R250). -/
def State.parkAccess (s : State) (id : Nat) (a : Acc) : State :=
  match s.group a.grp with
  | none => { s with accs := SMap.del s.accs id }
  | some g =>
    let m := a.lanes &&& g.live
    if a.supv && g.entries.any (fun e => g.supv e && e.mask &&& m != 0 && e.mask &&& ~~~m != 0) then s.kill (launchOf a.grp) 0x12 false
    else
    let fseq := a.fseq.getD (g.fseqBeside m)
    let s := (s.setAcc id { a with st := .parked, lanes := m }).shareFseq a fseq
    (s.setGroup a.grp (g.parkLanes m a.frag fseq)).makeReady a.grp

/-! ## Walks -/

/-- A translated access is checked and performed (R140). -/
def State.resolve (s : State) (id : Nat) (a : Acc) (x : Xlat) : State :=
  match a.access with
  | none =>
    -- a fetch that is replayed (R323)
    match x.deny (s.vf a.vf) none .ex with
    | some (r, st) => s.terminalAccess id a r st
    | none => { s with accs := SMap.del s.accs id }.unpark a.grp
  | some what =>
    let cls : BitVec 2 := if a.region.kind == 4 then 1 else 0
    match x.deny (s.vf a.vf) (some cls) what.need with
    | some (r, st) => s.terminalAccess id a r st
    | none =>
      let badHost := isHost x.home && (match what with | .at_ op _ => !hostAtomic op | _ => false)
      if badHost then s.terminalAccess id a 7 false
      else ((s.performTracked id a what x).unpark a.grp).makeReady a.grp

/-- The accesses that wait for the walk that a page-miss entry stands for. -/
def State.walking (s : State) (die : Nat) (m : MissEntry) : List (Nat × Acc) :=
  s.accs.filter (fun kv => dieOf kv.2.core == die && m.covers kv.2.vf (kv.2.page * 65536) && kv.2.st == .walk)

/-- An access of the page waits for a buffer record, which keeps the page-miss entry (R144). -/
def State.recordWaits (s : State) (die : Nat) (m : MissEntry) : Bool :=
  s.accs.any (fun kv => dieOf kv.2.core == die && m.covers kv.2.vf (kv.2.page * 65536) && !kv.2.again &&
    (match kv.2.st with | .record _ _ => true | _ => false))

/-- A completed walk serves an access that waited for it; one that the effective page does not reach misses anew. -/
def State.walked (s : State) (id : Nat) (a : Acc) (x : Xlat) : State :=
  if x.covers a.vf (a.addr (lowLane a.lanes)) then (s.fillTlb a.core x).resolve id a x
  else
    let (s, st) := s.missState (dieOf a.core) a.vf (a.page * 65536) a.part
    s.setAcc id { a with st := st }

/-- The walk of the page of an address ends (R144). -/
def State.walkPage (s : State) (die vf va : Nat) : State :=
  let m := ((s.die die).miss vf va).getD { vf := vf, base := va - va % 65536, size := 65536, part := 0 }
  match s.walking die m with
  | [] => s
  | (id, a) :: rest =>
    let free (s : State) : State := if s.recordWaits die m then s else s.modDie die (fun d => d.dropMiss vf va)
    match s.walk vf (a.addr (lowLane a.lanes)) with
    | .ok x n =>
      let s := (s.chargeN (.vf vf) 10 n).modDie die (fun d => d.dropMiss vf va)
      ((id, a) :: rest).foldl (fun s ia => s.walked ia.1 ia.2 x) s
    | .retry r st n =>
      let s := (s.chargeN (.vf vf) 10 n).retryFault va (a.record 0x20 r st)
      ((id, a) :: rest).foldl (fun s ia => s.parkAccess ia.1 ia.2) s
    | .term r st n =>
      free (((id, a) :: rest).foldl (fun s ia => s.terminalAccess ia.1 ia.2 r st) (s.chargeN (.vf vf) 10 n))

/-- Insert into an ascending list without repeats. -/
def insertNat (n : Nat) : List Nat → List Nat
  | [] => [n]
  | m :: l => if n < m then n :: m :: l else if n = m then m :: l else m :: insertNat n l

/-- The walks of an access's issue end, in ascending order of page (R471). -/
def State.walkComplete (s : State) (id : Nat) : Option State :=
  match SMap.find s.accs id with
  | none => none
  | some a =>
    if a.st != .walk then none
    else
      let pages := ((SMap.vals s.accs).filter (fun b => b.grp == a.grp && b.issue == a.issue && b.st == .walk)).foldl
        (fun l b => insertNat b.page l) []
      some (pages.foldl (fun s p => s.walkPage (dieOf a.core) a.vf (p * 65536)) s)

def execWalkComplete (acc : Nat) (s : State) : Host.Outcome State Fault Refusal := event (s.walkComplete acc)

/-- A waiting miss takes an entry that has freed, and walks (R144). -/
def State.takeMiss (s : State) (id : Nat) : Option State :=
  match SMap.find s.accs id with
  | none => none
  | some a =>
    if a.st != .noEntry then none
    else
      let (s, st) := s.missState (dieOf a.core) a.vf (a.page * 65536) a.part
      match st with
      | .noEntry => none
      | .parked => some (s.parkAccess id a)
      | _ => some (s.setAcc id { a with st := st })

def execPageMissEntryTake (acc : Nat) (s : State) : Host.Outcome State Fault Refusal := event (s.takeMiss acc)

/-! ## Rings (R146, R147) -/

/-- The 256 bits of a fault record with its sequence number. -/
def FaultRec.bits (r : FaultRec) (seq : Nat) : Nat :=
  r.va.toNat + r.cause.toNat * 2 ^ 64 + r.access.code * 2 ^ 72 + r.reason.toNat * 2 ^ 76 + r.vf % 1024 * 2 ^ 80 +
    r.part % 64 * 2 ^ 90 + r.ctx % 2 ^ 48 * 2 ^ 96 + r.die % 8 * 2 ^ 144 + r.core % 16 * 2 ^ 147 + b2n r.stage * 2 ^ 151 +
    r.lanes.toNat * 2 ^ 152 + r.pc.toNat * 2 ^ 184 + seq % 2 ^ 15 * 2 ^ 241

/-- Rings that a record goes to: a function, and whether its terminal ring (R147, R301). -/
def FaultRec.rings (r : FaultRec) : List (Nat × Bool) :=
  let retryable := r.cause == 0x20 || (r.cause == 0x22 && (r.reason == 1 || r.reason == 2))
  if r.access == .notice || r.access == .refusal || r.cause == 0x41 || r.cause == 0x42 then [(r.vf, false)]
  else if retryable then (if r.stage then [(1024, false)] else [(r.vf, false)])
  else [(1024, true), (r.vf, false)]

def Fn.ringOf (f : Fn) (second : Bool) : Ring := if second then f.ring2 else f.ring
def Fn.setRing (f : Fn) (second : Bool) (r : Ring) : Fn := if second then { f with ring2 := r } else { f with ring := r }

/-- The ring has room for another record; a ring without a legal size has none. -/
def Ring.room (r : Ring) : Bool :=
  decide (6 ≤ r.k.toNat) && decide (r.k.toNat ≤ 16) && decide ((r.prod - r.cons).toNat + r.queue.length < 2 ^ r.k.toNat)

def State.ringsRoom (s : State) (r : FaultRec) : Bool := r.rings.all (fun x => ((s.fn x.1).ringOf x.2).room)

/-- Hand a record to the reporting port for each of its rings. -/
def State.toRings (s : State) (r : FaultRec) : State :=
  r.rings.foldl (fun s x => s.modFn x.1 (fun f =>
    f.setRing x.2 { f.ringOf x.2 with queue := (f.ringOf x.2).queue ++ [r] })) s

/-! ## The fault buffers (R145) -/

/-- Operations whose records have all been taken end (R301). -/
def State.recheckRems (s : State) (k : Nat) : State :=
  ((s.rems.filter (fun kv => kv.2.grp == k && kv.2.left == 0)).map Prod.fst).foldl (fun s id => s.remFinish id) s

/-- The access of a waiting record goes on to its trap; its page-miss entry is freed with the last of them (R144). -/
def State.recorded (s : State) (die id : Nat) : State :=
  match SMap.find s.accs id with
  | none => s
  | some a =>
    match a.st with
    | .record r _ =>
      let s := s.heldFault id a r
      if a.again then s
      else match (s.die die).miss a.vf (a.page * 65536) with
        | some m => if s.recordWaits die m then s else s.modDie die (fun d => d.dropMiss a.vf (a.page * 65536))
        | none => s
    | _ => s

/-- A freed buffer record goes to the oldest record that waits (R145). -/
def State.refill (s : State) (die part : Nat) : State :=
  let d := s.die die
  match d.waiting.find? (fun w => w.fault.part == part) with
  | none => s
  | some w =>
    let s := s.setDie die ({ d with waiting := d.waiting.erase w }.record w.fault)
    match w.acc with
    | some id => s.recorded die id
    | none => (s.recheckRems w.fault.ctx).makeReady w.fault.ctx

/-- The memory firmware moves the oldest record of a buffer whose rings have room, or a drop notice (R145, R147). -/
def State.bufferMove (s : State) (die part : Nat) : Option State :=
  let d := s.die die
  match (d.buffer part).find? s.ringsRoom with
  | some r =>
    let d := { d with buffers := SMap.put d.buffers part ((d.buffer part).erase r) }
    some (((s.setDie die d).toRings r).refill die part)
  | none =>
    match d.notices.find? (fun r => r.part == part && s.ringsRoom r) with
    | some r => some ((s.setDie die { d with notices := d.notices.erase r }).toRings r)
    | none => none

def execFaultBufferMove (die part : Nat) (s : State) : Host.Outcome State Fault Refusal := event (s.bufferMove die part)

/-! ## The reporting port (R148) -/

/-- A function's host memory is reached (R142). -/
def State.reaches (s : State) (fn : Nat) : Bool := fn == 1024 || (s.vf fn).tdi == .run

/-- Write the next record of a ring. -/
def State.report (s : State) (fn : Nat) (second : Bool) : State :=
  let g := (s.fn fn).ringOf second
  match g.queue with
  | [] => s
  | r :: rest =>
    let a := hostBase + g.base + 32 * (g.prod.toNat % 2 ^ g.k.toNat)
    let s := s.homeWrite ((bytesOf 32 (r.bits g.seq.toNat)).zipIdx.map (fun bi => (a + bi.2, bi.1)))
    (s.charge .house 21 1).modFn fn (fun f => f.setRing second { g with prod := g.prod + 1, seq := g.seq + 1, queue := rest })

/-- Weight of a function in a round: that of the VF, 0 read as 1; 15 for the PF (log 64). -/
def State.weightOf (s : State) (fn : Nat) : Nat := if fn = 1024 then 15 else max 1 (s.vf fn).weight.toNat

/-- A round of the reporting port: every function with a record waiting sends up to its weight, in ascending order. -/
def State.reportRound (s : State) : Option State :=
  let served := (s.fns.filter (fun kv => s.reaches kv.1 && (!kv.2.ring.queue.isEmpty || !kv.2.ring2.queue.isEmpty))).map Prod.fst
  if served.isEmpty then none
  else some (served.foldl (fun s fn =>
    (List.range (s.weightOf fn)).foldl (fun s _ =>
      if (s.fn fn).ring.queue.isEmpty then s.report fn true else s.report fn false) s) s)

def execReportingRound (s : State) : Host.Outcome State Fault Refusal := event s.reportRound

/-! ## REPLAY ALL (R149) -/

/-- Release a parked access: it walks afresh, or its command is to issue alone (R50). -/
def State.releaseParked (s : State) (id : Nat) (a : Acc) : State :=
  let gone : State := { s with accs := SMap.del s.accs id }
  match a.use with
  | .engine h => gone.modCore a.core (fun c => { c with hauls := c.hauls.map (fun (kv : Nat × Haul) =>
      (kv.1, if kv.1 = h && kv.2.acc == some id then { kv.2 with acc := none } else kv.2)) })
  | _ =>
    if a.again && a.use != .fetch then (s.setAcc id { a with st := .replay }).makeReady a.grp
    else
      let (s, st) := s.missState (dieOf a.core) a.vf (a.page * 65536) a.part
      s.setAcc id { a with st := st }

/-- REPLAY ALL of some VFs on a die. -/
def State.replay (s : State) (die : Nat) (covers : Nat → Bool) : State :=
  let s := s.modDie die (fun d => { d with
    misses := d.misses.filter (fun m => !(m.faulted && covers m.vf)), dropped := d.dropped.filter (fun v => !covers v) })
  let parked := s.accs.filter (fun kv => kv.2.st == .parked && dieOf kv.2.core == die && covers kv.2.vf)
  let s := parked.foldl (fun s ia => s.releaseParked ia.1 ia.2) s
  let s := { s with jobs := s.jobs.map (fun (kv : Nat × Job) =>
    (kv.1, if kv.2.stuck == some die && covers kv.2.fn then { kv.2 with stuck := none } else kv.2))
                    fns := s.fns.map (fun (kv : Nat × Fn) => (kv.1, if covers kv.1 then { kv.2 with
    queues := kv.2.queues.map (fun (q : Nat × Queue) =>
      (q.1, if q.2.stuck == some die then { q.2 with stuck := none } else q.2)) } else kv.2)) }
  let ks := (s.groups.filter (fun kv => kv.2.cfault && dieOf kv.2.core == die && covers (vfOf kv.1))).map Prod.fst
  ks.foldl (fun s k => (s.modGroup k (fun g => { g with cfault := false })).makeReady k) s

def State.replayAll (s : State) : Option State :=
  match s.input with
  | some (.replayAll fn die part) =>
    some (s.replay die (fun v => if fn = 1024 then (s.vf v).live && (s.vf v).leaf.toNat == part else v == fn))
  | _ => none

def execReplayAll (s : State) : Host.Outcome State Fault Refusal := event s.replayAll

/-! ## Invalidation (R150, R151) -/

/-- Two ranges of addresses meet. -/
def meets (a n b m : Nat) : Bool := decide (a < b + m) && decide (b < a + n)

/-- A request on a range of a VF is deferred (R72, R116): an active group's record, a grant or a request for one lies in it. -/
def State.deferred (s : State) (vf va n : Nat) : Bool :=
  s.groups.any (fun kg => vfOf kg.1 == vf &&
    ((kg.2.active && kg.2.recPages.any (fun p => meets p.va p.size va n)) ||
      kg.2.q.any (fun r => r.2.kind != 0 && decide (r.2.kind.toNat < 4) && meets r.2.base.toNat r.2.len.toNat va n) ||
      kg.2.bors.any (fun b => meets b.2.region.base.toNat b.2.region.len.toNat va n))) ||
  s.cores.any (fun kc => kc.2.rets.any (fun r => vfOf r.2.grp == vf && meets r.2.base r.2.len va n)) ||
  -- borrows of peers in an exported page, granted or waiting (R114)
  (let homes := s.homesOf vf (n / 65536 + 2) va (va + n)
  s.dies.any (fun d => d.2.claims.any (fun c => c.2.peer.isSome && c.2.st != .orphan && c.2.vf == vf &&
      homes.any (fun h => meets c.2.base c.2.len h.1 h.2))) ||
    s.pending.any (fun i => match i.instr with
      | .claim _ m => m.peer.isSome && m.vf == vf && homes.any (fun h => meets m.base m.len h.1 h.2)
      | _ => false)) ||
  -- grants of a killed launch stand until its claim sweep
  s.launches.any (fun kl => launchVf kl.1 == vf && (match kl.2.st with | .killed _ _ => true | _ => false))

/-- Drop the translations of a range of a VF everywhere, and write back and invalidate what was filled under them (R150). -/
def State.shootdown (s : State) (vf va n : Nat) : State :=
  let keep (x : Xlat) : Bool := !(x.vf == vf && meets x.va x.size va n)
  let s := (SMap.keys s.cores).foldl (fun s c => s.l1Shoot c vf va n) s
  { s with
    cores := s.cores.map (fun (kv : Nat × Core) => (kv.1, { kv.2 with tlb := kv.2.tlb.filter keep }))
    dies := s.dies.map (fun (kv : Nat × Die) => (kv.1, { kv.2 with tlb := kv.2.tlb.filter keep })) }

/-- VF and range that the INVAL registers of a function name. -/
def Fn.invRange (f : Fn) (fn : Nat) : Nat × Nat × Nat :=
  (if fn = 1024 then f.invTvf.toNat else fn, if f.invNpg = 0 then 0 else f.invVa / 65536 * 65536,
    if f.invNpg = 0 then apertureBase else f.invNpg.toNat * 65536)

/-- A request through the INVAL registers; ignored while one is in progress (R151). -/
def State.invalRequest (s : State) : Option State :=
  match s.input with
  | some (.inval fn va npg irq vec tvf) =>
    some (if (s.fn fn).invGo then s
      else s.modFn fn (fun f => { f with
        invVa := va % 2 ^ 57 / 65536 * 65536, invNpg := BitVec.ofNat 32 npg, invIrq := irq, invVec := vec
        invTvf := BitVec.ofNat 10 tvf, invGo := true }))
  | _ => none

def execInval (s : State) : Host.Outcome State Fault Refusal := event s.invalRequest

/-- The request of a function completes once nothing defers it. -/
def State.invalComplete (s : State) (fn : Nat) : Option State :=
  let f := s.fn fn
  let (vf, va, n) := f.invRange fn
  if !f.invGo || s.deferred vf va n then none
  else
    let s := (s.shootdown vf va n).modFn fn (fun f => { f with invGo := false })
    some (if f.invIrq then s.interrupt fn f.invVec.toNat irqCompletion else s)

def execInvalComplete (fn : Nat) (s : State) : Host.Outcome State Fault Refusal := event (s.invalComplete fn)

/-! ## Requests on mappings (R72, R116) -/

end Sys2Proof.Machine
end

