-- ==== Sys2Proof/Machine/Debug.lean ====
section
/-! DEFINITION. The debugger (R260 to R264, R342, R88): DEBUG_STOP, DEBUG_READ, DEBUG_WRITE, DEBUG_STEP, DEBUG_CANCEL,
DEBUG_CANCEL_BOR, DEBUG_RESUME. -/

namespace Sys2Proof.Machine

open Sys2Proof

/-- A group belongs to what a debugger names. -/
def DebugScope_has (w : DebugScope) (k : Nat) : Bool :=
  match w with
  | .group g => k == g
  | .team t => teamOf k == t
  | .launch l => launchOf k == l

/-- Launch of what a debugger names. -/
def DebugScope_launch (w : DebugScope) : Nat :=
  match w with
  | .group g => launchOf g
  | .team t => teamLaunch t
  | .launch l => l

/-- Number of what a debugger names, as an audit record gives it. -/
def DebugScope_code (w : DebugScope) : Nat :=
  match w with
  | .group g => g
  | .team t => t + 2 ^ 56
  | .launch l => l + 2 ^ 57

/-- The debugger's answer. -/
def State.debugSay (s : State) (r : DebugResp) : State := s.modDev (fun d => { d with debug := r :: d.debug })

/-- Every operation of the PF is appended to the audit log (R260). -/
def State.debugAudit (s : State) (byPf : Bool) (op who vf : Nat) : State :=
  if byPf then s.audit 0x08 srcMonitor (BitVec.ofNat 11 vf) noPart (op + 256 * who) else s

/-! ## STOP -/

/-- Groups of a scope that a debugger acts on. -/
def State.debugGroups (s : State) (w : DebugScope) : List Nat :=
  (s.groups.filter (fun kg => DebugScope_has w kg.1 && kg.2.res != .ended)).map Prod.fst

/-- STOP marks the groups, and saves those that may leave now (R261); without an input, saves one that has become ready. -/
def State.debugStop (s : State) : Option State :=
  match s.input with
  | some (.debugStop byPf w) =>
    let s := s.debugAudit byPf 0 (DebugScope_code w) (launchVf (DebugScope_launch w))
    let s := s.modLaunch (DebugScope_launch w) (fun l => { l with dbg := true })
    let s := (s.debugGroups w).foldl (fun s k =>
      (s.modGroup k (fun g => { g with stopped := true, step := none, queued := none, atHead := none, byPf := byPf })).stopSave k) s
    some (s.debugSay .done)
  | _ =>
    (s.groups.find? (fun kg => kg.2.active && kg.2.stopped && kg.2.step.isNone && s.stopReady kg.1 kg.2)).map
      (fun kg => s.stopSave kg.1)

def execDebugStop (s : State) : Host.Outcome State Fault Refusal := event s.debugStop

/-! ## READ and WRITE -/

/-- A byte of a group's record as it stands in memory and in the L1 of the group's core; zero where it is not reached. -/
def State.recordAt (s : State) (k : Nat) (g : Group) (o : Nat) : Byte :=
  let va := s.recordVa k o
  match s.recXlat k g va with
  | some x => s.recByte g.core x va
  | none => 0

/-- The header that the next activation sees; that of a record never activated is what memory holds. -/
def State.shownHeader (s : State) (k : Nat) (g : Group) : Store 8 :=
  let m := (s.recHeader k g).getD []
  if g.started then g.shown m else m

/-- Bytes of a group's record, as the debugger sees them: registers as the record holds them, those of dead registers with them (R67);
the rest from the header. -/
def State.debugBytes (s : State) (k : Nat) (g : Group) (off len : Nat) : List Byte :=
  let h := s.shownHeader k g
  (List.range len).map (fun i => if (recReg (off + i)).isSome then s.recordAt k g (off + i) else Store.rd h (off + i))

/-- READ of bytes of a stopped group's record. -/
def State.debugRead (s : State) : Option State :=
  match s.input with
  | some (.debugRead byPf k off len) =>
    let s := s.debugAudit byPf 1 k (vfOf k)
    some (match s.group k with
      | some g =>
        if g.stopped && !g.active && decide (off + len ≤ 0xC00 + 128 * g.bud) then
          s.debugSay (.bytes (s.debugBytes k g off len))
        else s.debugSay .refused
      | none => s.debugSay .refused)
  | _ => none

def execDebugRead (s : State) : Host.Outcome State Fault Refusal := event s.debugRead

/-- The scalar that a byte of the header holds awaits a token (R261). -/
def Group.tokenAt (g : Group) (o : Nat) : Bool :=
  decide (0x200 ≤ o) && decide (o < 0x400) && g.pend.any (fun p => p.kind == .token && p.reg == .s ((o - 0x200) / 4))

/-- Put a byte at its home in the record; the L1 of the group's core keeps no copy of it. Without effect where it is not reached. -/
def State.recordPut (s : State) (k : Nat) (g : Group) (o : Nat) (b : Byte) : State :=
  let va := s.recordVa k o
  match s.recXlat k g va with
  | some x => (s.l1Range g.core (vfOf k) (x.at va) 1 true true).homeWrite [(x.at va, b)]
  | none => s

/-- The record's header brought up to date before a debugger writes into it: the live bytes, but for those that were written into the
record since the device wrote it. -/
def State.syncHeader (s : State) (k : Nat) : State :=
  match s.group k with
  | none => s
  | some g =>
    match s.recHomes k g 0 hdrLen with
    | none => s
    | some hs => (s.scatter false (gather s.mem 0 hs) (g.shown (gather s.mem 0 hs)) 0 hs).setGroup k { g with wrote := g.header }

/-- A written register loses its dead bit, in the record too, and its retained line (R88). -/
def State.debugReg (s : State) (k n : Nat) : State :=
  match s.group k with
  | none => s
  | some g =>
    let o := 0xA00 + n / 8
    let off (b : Byte) : Byte := b &&& ~~~(1#8 <<< (n % 8))
    (s.recordPut k g o (off (s.recordAt k g o))).setGroup k { g.clearDead n with
      lines := g.lines.filter (fun (l : Nat × Line) => l.1 != n || l.2.st == LineSt.filling), wrote := Store.wr g.wrote o (off (Store.rd g.wrote o)) }

/-- A byte of the record is written. Of the status word only the clearing of CFAULT is honoured, at once (R342). The header and dead map
of a group that has never been activated are initialised at its first activation (R89). -/
def State.debugPut (s : State) (k : Nat) (o : Nat) (b : Byte) : State :=
  match s.group k with
  | none => s
  | some g =>
    match recReg o with
    | some r => let s := s.recordPut k g o b; if g.started then s.debugReg k r else s
    | none =>
      if o = 0xAE0 then s.setGroup k { g with cfault := g.cfault && b.getLsbD 7 }
      else if 0xAE0 < o then s
      else s.recordPut k g o b

/-- The record's frontier has a READY entry: a write may have made one. -/
def State.shownReady (s : State) (k : Nat) (g : Group) : Bool :=
  let h := s.shownHeader k g
  g.started && (List.range 32).any (fun i => match Entry.ofBits (Store.load h (16 * i) 16) with
    | some (some e) => e.st == .ready
    | some none => true
    | none => false)

/-- A written group goes to its ready list where its record has a READY entry, or an invalid one, which the activation finds. -/
def State.requeue (s : State) (k : Nat) : State :=
  match s.group k with
  | none => s
  | some g => if g.mayQueue && s.shownReady k g then s.setGroup k (g.enqueue s.tick false) else s.makeReady k

/-- WRITE of bytes of the record of a stopped or pending group; without effect on a group that has ended (R342). -/
def State.debugWrite (s : State) : Option State :=
  match s.input with
  | some (.debugWrite byPf k off data) =>
    let s := s.debugAudit byPf 2 k (vfOf k)
    some (match s.group k with
      | none => s.debugSay .done
      | some g =>
        if g.res == .ended then s.debugSay .done
        else if g.active || decide (0xC00 + 128 * g.bud < off + data.length) then s.debugSay .refused
        else if (List.range data.length).any (fun i => g.tokenAt (off + i)) then s.debugSay .pending
        else
          let s := if g.started then s.syncHeader k else s
          let s := data.zipIdx.foldl (fun s bi => s.debugPut k (off + bi.2) bi.1) s
          (s.requeue k).debugSay .done)
  | _ => none

def execDebugWrite (s : State) : Host.Outcome State Fault Refusal := event s.debugWrite

/-! ## STEP -/

/-- STEP of a READY entry of a stopped group: it goes to the ready list, and stops after one issue (R260, R264). -/
def State.debugStep (s : State) : Option State :=
  match s.input with
  | some (.debugStep byPf k frag) =>
    let s := s.debugAudit byPf 3 (k + 2 ^ 64 * frag.toNat) (vfOf k)
    some (match s.group k with
      | some g =>
        if g.stopped && !g.active && g.step.isNone && (g.entry frag).any (fun e => e.st == .ready) then
          ((s.setGroup k { g with step := some frag, byPf := byPf }).makeReady k).debugSay .done
        else s.debugSay .refused
      | none => s.debugSay .refused)
  | _ => none

def execDebugStep (s : State) : Host.Outcome State Fault Refusal := event s.debugStep

/-! ## CANCEL -/

/-- An access of a parked fragment that is still to be performed, whose replay can be cancelled. -/
def Acc.cancels (a : Acc) : Bool :=
  match a.st with
  | .parked => true
  | .walk => true
  | .noEntry => true
  | _ => false

/-- Some lanes of a fragment's accesses are never performed; their destinations keep their values (R262). -/
def State.dropLanes (s : State) (k : Nat) (m : BitVec 32) : State :=
  (s.accs.filter (fun ia => ia.2.grp == k && ia.2.vf == vfOf k && ia.2.cancels && ia.2.lanes &&& m != 0)).foldl (fun s ia =>
    let left := ia.2.lanes &&& ~~~m
    let s := s.modGroup k (fun g => g.release ia.1 m)
    if left == 0 then { s with accs := SMap.del s.accs ia.1 } else s.setAcc ia.1 { ia.2 with lanes := left }) s

/-- A command that parked and whose replay is cancelled is passed by: its fragment goes on past it (R262). -/
def State.passKept (s : State) (k : Nat) (e : Entry) : State :=
  s.modGroup k (fun g =>
    if g.kept.any (fun x => x.lanes &&& e.mask != 0) then
      { (g.modEntry e.frag (fun e => { e with pc := nextPc e.pc })) with kept := g.kept.filter (fun x => x.lanes &&& e.mask == 0) }
    else g)

/-- CANCEL of a parked fragment of a stopped group (R262). -/
def State.debugCancel (s : State) : Option State :=
  match s.input with
  | some (.debugCancel byPf k frag) =>
    let s := s.debugAudit byPf 4 (k + 2 ^ 64 * frag.toNat) (vfOf k)
    some (match s.group k with
      | some g =>
        (match g.entry frag with
        | some e =>
          if g.stopped && !g.active && e.st == .parked then (((s.dropLanes k e.mask).passKept k e).unpark k).debugSay .done
          else s.debugSay .refused
        | none => s.debugSay .refused)
      | none => s.debugSay .refused)
  | _ => none

def execDebugCancel (s : State) : Host.Outcome State Fault Refusal := event s.debugCancel

/-- Home of a borrow's range: its die, or 8 and the window of a peer. -/
def State.borHome (s : State) (k : Nat) (r : Region) : Option (Nat × Bool) :=
  match s.walk (vfOf k) r.base.toNat with
  | .ok x _ => let a := x.at r.base.toNat; some (if isPeer a then (8, true) else (homeDie a, false))
  | _ => none

/-- The request of a BOR is withdrawn: WITHDRAW goes to the home, the register is EMPTY, the entry issues the BOR again (R263). -/
def State.cancelBor (s : State) (k : Nat) (g : Group) (w : Wake) : State :=
  let q := w.arg.toNat
  match SMap.find g.bors q with
  | none => s
  | some b =>
    let home := s.borHome k b.region
    let die := match home with | some (d, _) => d | none => 8
    let g' : Group := { g.setReg q {} with bors := SMap.del g.bors q, cancelled := g.cancelled ++ [q % 16 + 16 * die] }
    let s := (s.setGroup k (g'.wake w.frag none)).charge (payerOf k) 13 1
    if die < 8 then (s.chargeMsg (payerOf k) (meshHops (dieOf g.core) die)).send (.withdraw die k (BitVec.ofNat 4 q)) (claimRoute g.core die)
    else (s.chargeMsg (payerOf k) (collHops (dieOf g.core))).peerSend (vfOf k)
      ((apertureIdx b.region.base.toNat).getD 4095) (.withdraw k (BitVec.ofNat 4 q)) 0 0 0 0

/-- CANCEL of the wait of an entry BLOCKED at a BOR (R263). -/
def State.debugCancelBor (s : State) : Option State :=
  match s.input with
  | some (.debugCancelBor byPf k frag) =>
    let s := s.debugAudit byPf 5 (k + 2 ^ 64 * frag.toNat) (vfOf k)
    some (match s.group k with
      | some g =>
        (match g.wakes.find? (fun w => w.frag == frag && w.code == 4) with
        | some w => if g.stopped && !g.active then (s.cancelBor k g w).debugSay .done else s.debugSay .refused
        | none => s.debugSay .refused)
      | none => s.debugSay .refused)
  | _ => none

def execDebugCancelBor (s : State) : Host.Outcome State Fault Refusal := event s.debugCancelBor

/-! ## RESUME -/

/-- RESUME returns the stopped groups of a scope to the ready list at the tail; retained lines of those that left are dropped
(R88). -/
def State.debugResume (s : State) : Option State :=
  match s.input with
  | some (.debugResume byPf w) =>
    let s := s.debugAudit byPf 6 (DebugScope_code w) (launchVf (DebugScope_launch w))
    let s := (s.debugGroups w).foldl (fun s k =>
      (s.modGroup k (fun g =>
        if g.stopped then
          { g with stopped := false, step := none, byPf := false
                   lines := if g.active then g.lines else g.lines.filter (fun (l : Nat × Line) => l.2.st == .filling) }
        else g)).makeReady k) s
    some (s.debugSay .done)
  | _ => none

def execDebugResume (s : State) : Host.Outcome State Fault Refusal := event s.debugResume

end Sys2Proof.Machine
end

