-- ==== Sys2Proof/Machine/Migrate.lean ====
section
/-! DEFINITION. Migration (R257 to R259, R423): MIGRATE, LANDING, and the flush by context tag of a move (R115, R172). -/

namespace Sys2Proof.Machine

open Sys2Proof

/-! ## Moves -/

/-- Ranges that travel with a group (R115): those of kinds X, S, A and O. -/
def Group.travels (g : Group) : List (Nat × Nat) :=
  (SMap.vals g.q).filterMap (fun r =>
    if r.kind != 0 && decide (r.kind.toNat ≤ 4) then some (r.base.toNat, r.len.toNat) else none)

/-- Ranges that the old core writes back (R172): those of kinds X and O. -/
def Group.flushRanges (g : Group) : List (Nat × Nat) :=
  (SMap.vals g.q).filterMap (fun r => if r.kind == 1 || r.kind == 4 then some (r.base.toNat, r.len.toNat) else none)

/-- Invalidate the sectors of a range in a core's L1, leaving dirty bytes in place (R172). -/
def State.l1Stale (s : State) (core vf va n : Nat) : State :=
  (s.l1Lines core vf va n).foldl (fun s xm => s.l1Put core { xm.1 with valid := xm.1.valid &&& ~~~sectorsAny xm.2 }) s

/-- The order of memory across a move from one core to another (R172): the new core invalidates the ranges that travel, the
old one is told to write back, and the group issues nothing until it has acknowledged. -/
def State.moveOrder (s : State) (k old new : Nat) : State :=
  match s.group k with
  | none => s
  | some g =>
    let s := g.travels.foldl (fun s r => s.l1Stale new (vfOf k) r.1 r.2) s
    -- the old core forwards the answers that it was sent for the context (R113)
    let answers := s.pending.filter (fun m => match m.instr with
      | .grant c _ _ _ => c == k
      | .refuse c _ _ => c == k
      | _ => false)
    let s := s.chargeMsg (payerOf k) (meshHops (dieOf old) (dieOf new) * answers.length)
    let rs := g.flushRanges
    let s := (s.chargeMsg (payerOf k) (meshHops (dieOf old) (dieOf new))).send (.flushByContextTag k old new rs)
    s.modGroup k (fun g => { g with flush := some rs })

/-- The old core writes back the dirty bytes of the ranges and acknowledges. -/
def State.flushTag (s : State) (k old new : Nat) (rs : List (Nat × Nat)) : State :=
  let s := rs.foldl (fun s r => (s.l1WriteBack old (vfOf k) r.1 r.2 0).1) s
  (s.chargeMsg (payerOf k) (meshHops (dieOf old) (dieOf new))).send (.flushAcknowledge k new)

def execFlushByContextTag (grp old new : Nat) (ranges : List (Nat × Nat)) (s : State) : Host.Outcome State Fault Refusal :=
  .next (s.flushTag grp old new ranges)

/-- The acknowledgement reaches the new core: what was filled there since the move is invalidated, and the group may issue again. -/
def State.flushAck (s : State) (k new : Nat) : State :=
  match s.group k with
  | none => s
  | some g =>
    if g.core ≠ new then s
    else ((g.flush.getD []).foldl (fun s r => s.l1Stale new (vfOf k) r.1 r.2) s).modGroup k (fun g => { g with flush := none })

def execFlushAcknowledge (grp new : Nat) (s : State) : Host.Outcome State Fault Refusal := .next (s.flushAck grp new)

/-! ## Candidate cores -/

/-- Landing slots of a core (R258). -/
def landingSlots : Nat := 8
def Core.freeSlots (c : Core) : Nat := landingSlots - c.slots.length
def Core.freeSlot (c : Core) : Nat := SMap.fresh c.slots 0

/-- Cores of a die that run a team of a launch. -/
def State.candidates (s : State) (l die : Nat) : List Nat :=
  s.teams.filterMap (fun kv =>
    if teamLaunch kv.1 = l && kv.2.st == .running && dieOf kv.2.core == die then some kv.2.core else none)

/-- The candidate with most free slots, the lower core number on a tie; none where no slot is free. -/
def State.bestCandidate (s : State) (cs : List Nat) : Option Nat :=
  cs.foldl (fun (b : Option Nat) c =>
    if (s.core c).freeSlots = 0 then b
    else match b with
      | none => some c
      | some d =>
        if (s.core d).freeSlots < (s.core c).freeSlots || ((s.core d).freeSlots = (s.core c).freeSlots && c < d) then some c
        else b) none

/-- Home die of a home address, none for host memory and peers. -/
def homeDieOf (a : Nat) : Option Nat := if isDev a then some (homeDie a) else none

/-! ## MIGRATE -/

/-- Some register of the group is LENT or PART (R110). -/
def Group.pinned (g : Group) : Bool := g.q.any (fun kv => kv.2.lent || kv.2.part)

/-- The entry waits for its landing (R258, item 1). -/
def Ctx.waitMove (x : Ctx) (s : State) (home : Option Nat) : Effect :=
  x.wait (s.modGroup x.k (fun g => { g with move := some home })) { code := 8, frag := x.e.frag, addr := BitVec.ofNat 64 (home.getD 0) }

def opMigrateAddr (lu : BitVec 3) (m : MemOp) : Op :=
  let so := { srcIn 0 m.off with uni := true }
  word { lu := lu, srcs := [so], cls := some 4, mode := some false, order := true } (fun x s =>
    let r := x.g.reg m.q.toNat
    let ea := x.ea s r.base.toNat so m.imm (lowLane x.lanes)
    let lo : Int := r.base.toNat
    let hi : Int := lo + r.len.toNat
    let at_ (a : Int) : Nat := (a % (2 ^ 57 : Int)).toNat
    if x.g.entries.length != 1 then x.trapCmd s 0x01 0
    else if r.kind == 0 || r.pend then x.refuseAll s 0x0A (at_ ea)
    else if (LSpace.ofKind r.kind).isSome || ((s.group x.k).getD x.g).pinned then x.refuseAll s 0x08 (at_ ea)
    else if ea < lo || hi < ea + 1 then x.refuseAll s 0x09 (at_ ea)
    else
      let i : Instr := .migrateAddr lu m
      match s.xlate x.g.core (vfOf x.k) (s.leafOf x.k) ea.toNat with
      | none => none
      | some (s, .retry va c st fresh) => x.park s i .load [(va, c, st, fresh)]
      | some (s, .term va c st) => x.terminal s i .load va c st
      | some (s, .page p) =>
        let home := p.at ea.toNat
        match homeDieOf home with
        | none => x.done s
        | some d =>
          if dieOf x.g.core == d || (s.candidates (launchOf x.k) d).isEmpty then x.done s else x.waitMove s (some home))
def execMigrateAddr (lu : BitVec 3) (m : MemOp) (s : State) : Host.Outcome State Fault Refusal :=
  (opMigrateAddr lu m).run s

def opMigrateHome : Op :=
  word { cls := some 4, mode := some false, order := true } (fun x s =>
    if x.g.entries.length != 1 then x.trapCmd s 0x01 0
    else if x.g.pinned then x.refuseAll s 0x08 0
    else if !s.isGuest x.k x.g then x.done s
    else x.waitMove s none)
def execMigrateHome (s : State) : Host.Outcome State Fault Refusal :=
  (opMigrateHome).run s

/-! ## LANDING -/

/-- Take a group off its core for good: its lines and latches go, what the core's L1 holds of its record is written back, its landing
slot is freed. -/
def State.depart (s : State) (k : Nat) : State :=
  let s := if (s.group k).any (fun g => g.active) then s.swapOut k else s
  let s := s.flushRecord k
  match s.group k with
  | none => s
  | some g =>
    let s := match g.slot with
      | some j => s.modCore g.core (fun c => { c with slots := SMap.del c.slots j })
      | none => s
    s.setGroup k { g with
      lines := g.lines.filter (fun l => l.2.st == .filling), latches := [], saved := [], full := false, lv := 0, slot := none, queued := none }

/-- Local registers are EMPTY after a landing (R258, item 4). -/
def Group.dropLocal (g : Group) : Group := { g with q := g.q.filter (fun kv => (LSpace.ofKind kv.2.kind).isNone) }

/-- Place a group on a core: in a landing slot, or at home. -/
def State.land (s : State) (k old new : Nat) (slot : Option Nat) : State :=
  let s := match slot with
    | some j => s.modCore new (fun c => { c with slots := SMap.put c.slots j k })
    | none => s
  let s := s.modGroup k (fun g =>
    { g.dropLocal with
      core := new, slot := slot, move := none
      sect := (match slot with | some j => j % 4 | none => groupNo k % 4)
      res := (match slot with | some _ => .guest | none => .pending) })
  s.moveOrder k old new

/-- The waiting MIGRATE of a group ends: its entry goes on past it. -/
def State.endMigrate (s : State) (k : Nat) : State :=
  match s.group k with
  | none => s
  | some g =>
    let s := s.setGroup k { g with move := none }
    (g.wakes.filter (fun w => w.code == 8)).foldl (fun s w => s.wakeRec k w true) s

/-- A group that a core has room for lands there (R258, R259); a guest that its core's eviction swapped out lands on another
core of the die. -/
def State.landing (s : State) (k : Nat) : Option State :=
  match s.group k, s.launch (launchOf k) with
  | some g, some l =>
    if l.st != .running || g.stopped || s.dev.shut then none
    else match g.move with
      | none =>
        if g.res == .guest && g.slot.isNone && g.queued.isSome then
          match s.bestCandidate (s.candidates (launchOf k) (dieOf g.core)) with
          | none => none
          | some c => some ((((s.depart k).land k g.core c (some (s.core c).freeSlot))).makeReady k)
        else none
      | some to_ =>
        if !g.pend.isEmpty || s.accs.any (fun kv => kv.2.grp == k) then none
        else match to_ with
          | none =>
            match s.team (teamOf k) with
            | some t => if t.st == .running then some (((s.depart k).land k g.core t.core none).endMigrate k) else none
            | none => none
          | some home =>
            let cs := s.candidates (launchOf k) (homeDie home)
            if cs.isEmpty then some (s.endMigrate k)
            else match s.bestCandidate cs with
              | none => none
              | some c => some (((s.depart k).land k g.core c (some (s.core c).freeSlot)).endMigrate k)
  | _, _ => none

def execLanding (grp : Nat) (s : State) : Host.Outcome State Fault Refusal := event (s.landing grp)

end Sys2Proof.Machine
end

