-- ==== Sys2Proof/Machine/Firmware.lean ====
section
/-! DEFINITION. The firmware's own accesses to a VF's memory for host commands (R269, R273, R274, R146): rings, signal objects,
indirect counts, copies. They are untranslated requests of the hub die, made at the homes; faults are recorded with ACCESS 11
on die 0 (log 65). -/

namespace Sys2Proof.Machine

open Sys2Proof

/-- Where an access of the firmware gets. -/
inductive Reach
  | home (a : Nat)
  /-- waits for REPLAY ALL -/
  | wait
  | term (reason : BitVec 4) (stage : Bool)
deriving DecidableEq, Repr

/-- The die whose fault buffers take the firmware's records (log 65). -/
def fwDie : Nat := 0

/-- The fault record of a host command: the context identifier holds the VF alone, the PC the entry of the command. -/
def State.hostRecord (s : State) (v va pc : Nat) (cause : BitVec 8) (reason : BitVec 4) (stage : Bool) : FaultRec :=
  { va := BitVec.ofNat 57 va, cause := cause, access := .host, reason := reason, vf := v, part := (s.vf v).leaf.toNat
    ctx := v * 2 ^ 37, die := fwDie, stage := stage, pc := BitVec.ofNat 57 pc }

/-- Translate an address of class open for a firmware access, with the charges of its walk and the record of its fault. Peer
windows are no memory of the VF (R273). A page with a FAULT entry is waited for without another record (R144), unless it has become
host memory (R274). -/
def State.reach (s : State) (v va pc : Nat) (need : Need) : State × Reach :=
  let host : Bool := match s.walk v va with | .ok x _ => isHost x.home | _ => false
  if ((s.die fwDie).miss v va).any (fun m => m.faulted) && !host then (s, .wait)
  else match s.walk v va with
  | .ok x n =>
    let s := s.chargeN (.vf v) 10 n
    match (if isPeer x.home then some (8, false)
      else if (x.deny (s.vf v) (some 1) need).isNone && need != .st && s.hostFails (x.at va) 1 then some (7, false)
      else x.deny (s.vf v) (some 1) need) with
    | some (r, st) => (s.keepRecord (s.hostRecord v va pc 0x21 r st), .term r st)
    | none => (s, .home (x.at va))
  | .retry r st n => ((s.chargeN (.vf v) 10 n).retryFault va (s.hostRecord v va pc 0x20 r st), .wait)
  | .term r st n => ((s.chargeN (.vf v) 10 n).keepRecord (s.hostRecord v va pc 0x21 r st), .term r st)

/-- Hops from the hub die to a home. -/
def fwHops (a : Nat) : Nat := if isDev a then hubHops (homeDie a) else 0

/-- Charges of reading some bytes of one line from the hub die. -/
def State.fwCharge (s : State) (p : Payer) (leaf a n : Nat) (write : Bool) : State :=
  let s := (s.chargeMsg p (fwHops a)).chargeData p (fwHops a) n
  if isDev a then s.l2Access p leaf (a / 512) (bitsAt (a % 512) n) write else s.charge p 21 (cdiv n 256)

/-- Read bytes of one line at their home for a VF. -/
def State.fwRead (s : State) (p : Payer) (v a n : Nat) : State × List Byte :=
  (s.fwCharge p (s.vf v).leaf.toNat a n false, Store.bytes s.mem a n)

/-- Write bytes of one line at their home for a VF. -/
def State.fwWrite (s : State) (p : Payer) (v a : Nat) (bs : List Byte) : State :=
  (s.fwCharge p (s.vf v).leaf.toNat a bs.length true).homeWrite (bs.zipIdx.map (fun bi => (a + bi.2, bi.1)))

/-! ## Signal updates by the firmware (R273, R274) -/

/-- The value after an update: 0 SET, 1 ADD, 2 DEC, modulo 2^64. -/
def signalNew (op : Nat) (old v : BitVec 64) : BitVec 64 :=
  match op with
  | 0 => v
  | 1 => old + v
  | _ => old - v

/-- The STATUS of a completion record. -/
def withStatus (r : BitVec 256) (status : BitVec 8) : BitVec 256 :=
  (r &&& ~~~(0xFFFF#256 <<< 40)) ||| (status.setWidth 256 <<< 40)

/-- Try a signal update: performed at its home with the command's completion record to follow; put off by a retryable fault;
SIGNAL_FAULT by a terminal one. -/
def State.trySignal (s : State) (id : Nat) (j : Job) (addr op : Nat) (v : BitVec 64) : State :=
  match s.reach j.fn (addr % 2 ^ 57) j.entry .at_ with
  | (s, .home a) =>
    let old := BitVec.ofNat 64 (Store.load s.mem a 8)
    let s := (s.fwCharge (.vf j.fn) (s.vf j.fn).leaf.toNat a 8 true).homeWrite
      ((bytesOf 8 (signalNew op old v).toNat).zipIdx.map (fun bi => (a + bi.2, bi.1)))
    ({ s with jobs := SMap.del s.jobs id }.complete j.fn j.queue j.cmd j.compl).signalUpdated a
  | (s, .wait) => { s with jobs := SMap.put s.jobs id { j with kind := .signal addr op v, stuck := some fwDie } }
  | (s, .term _ _) =>
    { s with jobs := SMap.del s.jobs id }.complete j.fn j.queue j.cmd (withStatus j.compl 0x09)

/-- Complete a command, decrementing a signal object first unless its address is 0. -/
def State.signalThenComplete (s : State) (fn q : Nat) (w : CmdWord) (entry sig : Nat) (r : BitVec 256) : State :=
  if sig = 0 then s.complete fn q w r
  else
    let id := s.nextId
    s.bump.trySignal id { kind := .signal sig 2 1, fn := fn, queue := q, cmd := w, entry := entry, compl := r } sig 2 1

end Sys2Proof.Machine
end

