-- ==== Sys2Proof/Machine/Meter.lean ====
section
/-! DEFINITION. Accounts (R226, R229 to R231, R243), the posting of charges with its checks against budgets and quotas (R235,
R236), the declaration of a stop (R237), and MTR's readings (R240). -/

namespace Sys2Proof.Machine

open Sys2Proof

/-- Add fJ to an account (R230); the count stays at its largest value. -/
def Acct.add (a : Acct) (c : Nat) : Acct :=
  let f := a.fj + c
  { nj := min (a.nj + f / 1000000) (2 ^ 64 - 1), fj := f % 1000000 }

/-- Subtract fJ, never below zero (R230). -/
def Acct.sub (a : Acct) (c : Nat) : Acct :=
  let t := a.nj * 1000000 + a.fj - c
  { nj := t / 1000000, fj := t % 1000000 }

/-- Count in nJ of the D and N parts together (R243). -/
def Acct.sum (a b : Acct) : Nat := min ((a.nj + b.nj) + (a.fj + b.fj) / 1000000) (2 ^ 64 - 1)

/-- Coefficient of a class for a VF: nominal where its selector says so (R226). -/
def Vf.coefOf (v : Vf) (cls : Nat) : Nat := if v.coef then Config.nominal cls else Config.coef cls

/-- Charge a VF account with a dynamic charge (R229, R234, R235). -/
def Vf.spend (v : Vf) (c : Nat) : Vf :=
  { v with acct := v.acct.add c, dyn := v.dyn + c, used := if v.quota = 0 then v.used else v.used + c }

/-- Add a share to a VF account: it consumes the quota and is no dynamic charge (R229, R232, R235). -/
def State.shareVf (s : State) (v c : Nat) : State :=
  (s.modVf v (fun f => { f with acct := f.acct.add c, used := if f.quota = 0 then f.used else f.used + c })).modDev (fun d =>
    { d with interval := d.interval + c })

/-- The weighbridge that counts a charge (R225, log 95): one of its own, that of the collective or the hub die by its class, or for
the classes that a core's own units perform that of the team's core. -/
def State.tileOf (s : State) (c : Charge) : Option Nat :=
  if c.tile.isSome then c.tile
  else if c.cls = 19 ∨ c.cls = 22 ∨ c.cls = 23 then some collTile
  else if c.cls = 21 then some hubTile
  else match c.payer with
    | .team t => if c.cls ≤ 9 || (14 ≤ c.cls && c.cls ≤ 18) then (s.team t).map Team.core else none
    | _ => none

/-- That weighbridge has failed for good (R317). -/
def State.badMeter (s : State) (c : Charge) : Bool := (s.tileOf c).any s.dev.badMeters.contains

/-- Post one counted charge to its accounts (R229); answers the launch and VF charged. -/
def State.postOne (s : State) (c : Charge) : State × Option Nat × Option Nat :=
  let onVf (v : Nat) (f : State → Nat → State) : State × Nat :=
    let m := c.n * (s.vf v).coefOf c.cls
    (f ((s.modVf v (fun x => x.spend m)).modDev (fun d => { d with interval := d.interval + m })) m, m)
  match (if s.badMeter c then Payer.house else c.payer) with
  | .house =>
    let m := c.n * Config.coef c.cls
    (s.modDev (fun d => { d with house := d.house.add m, interval := d.interval + m }), none, none)
  | .vf v => ((onVf v (fun s _ => s)).1, none, some v)
  | .launch l =>
    let put (s : State) (m : Nat) : State :=
      s.modLaunch l (fun x => if c.nd then { x with acctN := x.acctN.add m } else { x with acctD := x.acctD.add m })
    ((onVf (launchVf l) put).1, some l, some (launchVf l))
  | .team t =>
    let l := teamLaunch t
    let put (s : State) (m : Nat) : State :=
      let s := s.modLaunch l (fun x => if c.nd then { x with acctN := x.acctN.add m } else { x with acctD := x.acctD.add m })
      s.modTeam t (fun x => if c.nd then { x with acctN := x.acctN.add m } else { x with acctD := x.acctD.add m })
    ((onVf (launchVf l) put).1, some l, some (launchVf l))

/-! ## Exhaustion (R235 to R237) -/

/-- The launch account has reached the budget in force. -/
def Launch.exhausted (l : Launch) : Bool := l.budget != 0 && decide (l.budget ≤ Acct.sum l.acctD l.acctN)

/-- The consumption has reached the quota. -/
def Vf.exhausted (v : Vf) : Bool := v.quota != 0 && decide (v.quota.toNat * 1000000 ≤ v.used)

/-- Groups of a launch, by key. -/
def State.groupsOf (s : State) (l : Nat) : List Nat := (SMap.keys s.groups).filter (fun k => launchOf k == l)
/-- Teams of a launch, by key. -/
def State.teamsOf (s : State) (l : Nat) : List Nat := (SMap.keys s.teams).filter (fun t => teamLaunch t == l)

/-- Withdraw the incomplete rendezvous of a launch and save its groups that stand at a reconvergence point (R237, items 1, 2
and 4). -/
def State.stopGroups (s : State) (l : Nat) : State :=
  (s.groupsOf l).foldl (fun s k =>
    let s := s.modGroup k (fun g => { g with arrivals := [] })
    match s.group k with
    | some g => if g.active && g.entries.length == 1 then s.fullSave k else s
    | none => s) s

/-- Declare the exhaustion of a budget or quota for a launch (R236, R237). -/
def State.declare (s : State) (l : Nat) (quota : Bool) : State :=
  match s.launch l with
  | none => s
  | some m =>
    let done := (s.teamsOf l).all (fun t => match s.team t with | some x => x.st == .done | none => true)
    match m.st with
    | .running =>
      if done then s.setLaunch l { m with overrun := true }
      else (s.setLaunch l { m with st := .stopping quota, since := s.now }).stopGroups l
    | .evicting => s.setLaunch l { m with st := .stopping quota, since := s.now }
    | .evicted => s.setLaunch l { m with st := .stopping quota, since := s.now }
    | .granted => s.setLaunch l { m with st := .stopping quota, since := s.now }
    | _ => s

/-- The checks that follow a posting (R236). -/
def State.checkAccounts (s : State) (l v : Option Nat) : State :=
  let s := match l with
    | some l => (match s.launch l with
      | some m => if m.exhausted then s.declare l false else s
      | none => s)
    | none => s
  match v with
  | some v => if (s.vf v).exhausted then
      ((SMap.keys s.launches).filter (fun l => launchVf l == v)).foldl (fun s l => s.declare l true) s
    else s
  | none => s

/-- Post charges in order, each checked as it lands. -/
def State.postAll (s : State) (cs : List Charge) : State :=
  cs.foldl (fun s c => let (s, l, v) := s.postOne c; s.checkAccounts l v) s

/-- A charge that is posted in the clk of its event (R473). -/
def State.chargeNow (s : State) (p : Payer) (cls n : Nat) : State :=
  s.postAll [{ payer := p, cls := cls, nd := !detClass cls, n := n }]

/-! ## POSTING (R236, R241) -/

/-- Post everything counted. -/
def State.posting (s : State) : Option State :=
  if s.unposted.isEmpty then none
  else
    let cs := s.unposted
    let s := s.modDev (fun d => { d with lastPost := s.now })
    some ({ s with unposted := [] }.postAll cs)

def execPosting (s : State) : Host.Outcome State Fault Refusal := event s.posting

/-! ## MTR (R240, R426) -/

inductive Meter | vf | launch | team | quota
deriving DecidableEq, Repr

/-- Value of a meter for a group. -/
def State.meter (s : State) (k : Nat) (m : Meter) : Nat :=
  let v := s.vf (vfOf k)
  match m with
  | .vf => v.acct.nj
  | .launch => (match s.launch (launchOf k) with | some l => Acct.sum l.acctD l.acctN | none => 0)
  | .team => (match s.team (teamOf k) with | some t => Acct.sum t.acctD t.acctN | none => 0)
  | .quota => if v.quota = 0 then 2 ^ 64 - 1 else v.quota.toNat - v.used / 1000000

def mtr (g : Guard) (sd : BitVec 7) (m : Meter) : Op :=
  word { g := g, sw := [sd.toNat, sd.toNat + 1], cls := some 4 } (fun x s =>
    let det := match s.launch (launchOf x.k) with | some l => l.desc.det | none => false
    if det then x.trapCmd s 0x28 0 else x.done (s.putS x.k sd.toNat 2 (s.meter x.k m)))

def opMtrVf (g : Guard) (sd : BitVec 7) : Op := mtr g sd .vf
def execMtrVf (g : Guard) (sd : BitVec 7) (s : State) : Host.Outcome State Fault Refusal :=
  (opMtrVf g sd).run s
def opMtrLaunch (g : Guard) (sd : BitVec 7) : Op := mtr g sd .launch
def execMtrLaunch (g : Guard) (sd : BitVec 7) (s : State) : Host.Outcome State Fault Refusal :=
  (opMtrLaunch g sd).run s
def opMtrTeam (g : Guard) (sd : BitVec 7) : Op := mtr g sd .team
def execMtrTeam (g : Guard) (sd : BitVec 7) (s : State) : Host.Outcome State Fault Refusal :=
  (opMtrTeam g sd).run s
def opMtrQuota (g : Guard) (sd : BitVec 7) : Op := mtr g sd .quota
def execMtrQuota (g : Guard) (sd : BitVec 7) (s : State) : Host.Outcome State Fault Refusal :=
  (opMtrQuota g sd).run s

end Sys2Proof.Machine
end

