-- ==== Sys2Proof/Machine/Queues.lean ====
section
/-! DEFINITION. Queues and their commands (R269 to R274, R285): DOORBELL, QUEUE_ENABLE, DISPATCH with its arbitration (R277),
WAITSIG, SETSIG, HCOPY, MARK, RESUME, COMPLETION_RECORD, SIGNAL_POLL, and the PF's QUOTA_WRITE, CHECKPOINT and
RESIDENT_WRITE. -/

namespace Sys2Proof.Machine

open Sys2Proof

/-! ## Queues -/

/-- Commands that the doorbell has covered and that have not started. -/
def Queue.depth (q : Queue) : Nat := (q.tail - q.head).toNat

/-- Doorbell writes that still cover a command. -/
def Queue.bells (q : Queue) : List (BitVec 16 × Nat) :=
  q.bell.filter (fun b => let d := (b.1 - q.head).toNat; decide (0 < d) && decide (d < 2 ^ 15))

/-- Time of the doorbell write that covered the head command. -/
def Queue.bellTime (q : Queue) : Nat := (q.bells.head?).elim 0 Prod.snd

/-- Virtual address of the head command. -/
def Queue.headVa (q : Queue) : Nat := q.entryVa q.head

/-- Addresses of the objects on which SIGWs of a VF wait. -/
def State.sigwWaits (s : State) (v : Nat) : List Nat :=
  (s.groups.filter (fun kg => vfOf kg.1 == v)).flatMap (fun kg => (kg.2.wakes.filter (fun w => w.code == 3)).map (fun w => w.addr.toNat % 2 ^ 57))

/-- The jobs of a VF that a fault holds try again. -/
def State.retryJobs (s : State) (v : Nat) : State :=
  { s with jobs := s.jobs.map (fun (j : Nat × Job) => (j.1, if j.2.fn = v then { j.2 with stuck := none } else j.2)) }

/-- A doorbell write: TAIL is set, the VF's host-homed waits are read again, and what a fault on host memory holds tries again (R269,
R273, R274). -/
def State.doorbell (s : State) : Option State :=
  match s.input with
  | some (.doorbell fn q tail) =>
    let s := s.modQueue fn q (fun x => { x with tail := tail, bell := x.bell ++ [(tail, s.now)] })
    let s := (s.modFn fn (fun f => { f with queues := f.queues.map (fun (q : Nat × Queue) => (q.1, { q.2 with stuck := none })) })).retryJobs fn
    let waits := (s.waitsigs (fun f _ => f == fn)).map (fun x => x.2.2.2.2.2) ++ s.sigwWaits fn
    let hosts := (waits.filterMap (s.homeOf fn)).filter isHost
    some (hosts.eraseDups.foldl (fun s h => (s.wakeSigw h).wakeQueues h) s)
  | _ => none

def execDoorbell (s : State) : Host.Outcome State Fault Refusal := event s.doorbell

/-- Set or clear a queue's EN (R269). A command that has been chosen and has not started is given up with EN: it is read again
at HEAD. -/
def Queue.enable (q : Queue) (en : Bool) : Queue :=
  if en then { q with en := true, err := false } else { q with en := false, next := none, waiting := none }

def State.queueEnable (s : State) : Option State :=
  match s.input with
  | some (.queueEnable fn q en) => some (s.modQueue fn q (fun x => x.enable en))
  | _ => none

def execQueueEnable (s : State) : Host.Outcome State Fault Refusal := event s.queueEnable

/-! ## Arbitration (R277) -/

/-- Bits of the ready map (R315). -/
def State.isReady (s : State) (bit : Nat) : Bool := s.dev.ready.getLsbD bit
def readyDispatch : Nat := 2
def readyMemory : Nat := 3
def readyRoot : Nat := 50

/-- The dispatch firmware runs (R28, R315). -/
def State.dispatches (s : State) : Bool :=
  s.isReady readyDispatch && s.isReady readyMemory && s.isReady readyRoot && !s.dev.shut

/-- The dispatch firmware serves a VF (R236, R268, R282, R285). -/
def State.serves (s : State) (v : Nat) : Bool :=
  let f := s.vf v
  decide (v < 1024) && f.live && f.en && f.tdi != .error && !f.exhausted && !s.dev.ckpts.contains v &&
    (s.leaf f.leaf.toNat).isSome

/-- OP of the head command, read ahead of its start. -/
def State.headOp (s : State) (v : Nat) (q : Queue) : Nat :=
  match s.homeOf v q.headVa with
  | some h => (Store.rd s.mem h).toNat
  | none => 0

/-- The queue has a command that may start (R269, R271): LAUNCH needs its four entries. -/
def State.startable (s : State) (v : Nat) (q : Queue) : Bool :=
  s.serves v && q.en && !q.err && q.sz != 7 && q.waitsig.isNone && q.waiting.isNone && q.next.isNone && q.held.isEmpty &&
    q.stuck.isNone && decide (0 < q.depth) && (decide (4 ≤ q.depth) || s.headOp v q != 1)

/-- A LAUNCH of the queue waits for cores. -/
def State.awaitsCores (s : State) (v : Nat) (q : Queue) : Bool := s.serves v && q.en && q.waiting.isSome

/-- Order of the queues of a VF: class, then the oldest doorbell; the lower number stays ahead. -/
def queueLt (a b : Nat × Queue) : Bool :=
  decide (b.2.cls.toNat < a.2.cls.toNat) || (a.2.cls == b.2.cls && decide (a.2.bellTime < b.2.bellTime))

/-- The queue of a VF that is served first among those that pass a test. -/
def State.bestQueue (s : State) (v : Nat) (p : Queue → Bool) : Option Nat :=
  ((sortBy queueLt ((s.fn v).queues.filter (fun kq => p kq.2))).head?).map Prod.fst

/-- VFs of a leaf. -/
def State.vfsOf (s : State) (leaf : Nat) : List Nat :=
  (s.vfs.filter (fun kv => kv.2.live && kv.2.leaf.toNat == leaf)).map Prod.fst

/-- A VF has a command that may start or a LAUNCH that waits for cores. -/
def State.hasCommand (s : State) (v : Nat) : Bool :=
  (s.fn v).queues.any (fun kq => s.startable v kq.2 || s.awaitsCores v kq.2)

/-- A launch that holds cores or whose teams wait to be placed again. -/
def Launch.atWork (l : Launch) : Bool :=
  match l.st with
  | .stopped _ => false
  | _ => true

def State.hasLaunch (s : State) (v : Nat) : Bool := s.launches.any (fun kl => launchVf kl.1 == v && kl.2.atWork)

def State.hasEvicted (s : State) (v : Nat) : Bool :=
  s.launches.any (fun kl => launchVf kl.1 == v && kl.2.st == .evicted)

/-- A VF that would use a slice. -/
def State.wantsSlice (s : State) (v : Nat) : Bool := s.hasCommand v || s.hasEvicted v

/-- The VF after `t`, in rising order and round again, that would use a slice. -/
def State.nextTurn (s : State) (leaf t : Nat) : Option Nat :=
  let vs := (s.vfsOf leaf).filter (fun v => v != t && s.wantsSlice v)
  (vs.find? (fun v => decide (t < v))).orElse (fun _ => vs.head?)

/-- The VF whose slice runs: the turn passes at once where its VF has nothing to run. -/
def State.turnOf (s : State) (leaf : Nat) (l : Leaf) : Nat :=
  if (s.vfsOf leaf).contains l.turn && (s.hasCommand l.turn || s.hasLaunch l.turn) then l.turn
  else (s.nextTurn leaf l.turn).getD l.turn

/-- Give a leaf's slice to a VF. -/
def State.passTurn (s : State) (leaf v : Nat) : State :=
  s.modLeaf leaf (fun l => if l.turn = v then l else { l with turn := v, sliceStart := s.now })

/-- The time budget of a leaf's cores in a period, in µs of core time. -/
def Leaf.budget (l : Leaf) : Nat := l.conf.time * l.conf.cores.length

/-- Leaves by ascending fraction of the time budget used in the period. -/
def leafLt (a b : Nat × Leaf) : Bool := decide (a.2.used * b.2.budget < b.2.used * a.2.budget)

/-- The next command to start: leaf, VF and queue. -/
def State.chosen (s : State) : Option (Nat × Nat × Nat) :=
  (sortBy leafLt s.leaves).findSome? (fun nl =>
    let v := s.turnOf nl.1 nl.2
    (s.bestQueue v (s.startable v)).map (fun q => (nl.1, v, q)))

/-- A queue halts on a command that is none (R270): BAD_COMMAND with the command's TAG and OP. -/
def State.haltQueue (s : State) (v q : Nat) (w : BitVec 2048) : State :=
  let c := CmdWord.dec w
  (s.modQueue v q (fun x => { x with err := true })).complete v q c (complBits c (w.setWidth 8) 0x01 0 false 0 0)

/-- Read some entries from the head of a ring (R269). -/
def State.readEntries (s : State) (v : Nat) (q : Queue) : (n i : Nat) → List Byte → State × (List Byte ⊕ Reach)
  | 0, _, bs => (s, .inl bs)
  | n + 1, i, bs =>
    match s.reach v (q.entryVa (q.head + BitVec.ofNat 16 i)) q.headVa .ld with
    | (s, .home a) =>
      let (s, b) := s.fwRead (.vf v) v a 64
      State.readEntries s v q n (i + 1) (bs ++ b)
    | (s, r) => (s, .inr r)

/-- DISPATCH: the command at the head of the chosen queue is read and is to begin next. A ring that faults halts the queue, or
waits for REPLAY ALL. -/
def State.dispatch (s : State) : Option State :=
  if !s.dispatches then none
  else match s.chosen with
    | none => none
    | some (leaf, v, qn) =>
      let s := s.passTurn leaf v
      let q := (s.fn v).queue qn
      let n := if s.headOp v q = 1 then 4 else 1
      some (match s.readEntries v q n 0 [] with
        | (s, .inl bs) =>
          let w := BitVec.ofNat 2048 (ofBytes bs)
          (match decodeCommand w with
          | .ok i => s.modQueue v qn (fun x => { x with next := some i, entry := x.head, words := w })
          | .error _ => s.haltQueue v qn w)
        | (s, .inr .wait) => s.modQueue v qn (fun x => { x with stuck := some fwDie })
        | (s, .inr _) => s.modQueue v qn (fun x => { x with err := true }))

def execDispatch (s : State) : Host.Outcome State Fault Refusal := event s.dispatch

/-! ## Commands -/

/-- The queue whose chosen command is `i`. -/
def State.command (s : State) (i : Instr) : Option (Nat × Nat × Queue) :=
  match s.cmd with
  | some c =>
    let q := (s.fn c.fn).queue c.queue
    if q.next == some i && !(s.vf c.fn).exhausted then some (c.fn, c.queue, q) else none
  | none => none

/-- The command of `n` entries at the head has started. -/
def Queue.pass (q : Queue) (n : Nat) : Queue :=
  let q := { q with next := none, waiting := none, head := q.head + BitVec.ofNat 16 n }
  { q with bell := q.bells }

/-- A command of one entry starts: it is logged, HEAD passes it. -/
def State.starts (s : State) (v q : Nat) (vals : List Nat) : State :=
  (s.logCommand v q 1 vals).modQueue v q (fun x => x.pass 1)

/-- Evaluate a WAITSIG by a read of its object (R273, R274). -/
def State.readWait (s : State) (v q : Nat) : State :=
  let x := (s.fn v).queue q
  match x.waitsig with
  | none => s
  | some (w, a, c, cmp) =>
    match s.reach v (a.toNat % 2 ^ 57) (x.entryVa x.entry) .ld with
    | (s, .home h) =>
      let s := (s.fwRead (.vf v) v h 8).1.modQueue v q (fun x => { x with read := false })
      let val := s.signalAt h
      if cmpHolds cmp val c then s.endWaitsig v q w val else s
    | (s, .wait) => s.modQueue v q (fun x => { x with stuck := some fwDie, read := true })
    | (s, .term _ _) =>
      ((s.logCommand v q 1 []).modQueue v q (fun x => { x with waitsig := none, read := false })).complete v q w (complBits w 2 0x09 0 false 0 0)

def State.waitsig (s : State) (w : CmdWord) (addr c : BitVec 64) (cmp : Cmp) : Option State :=
  match s.command (.waitsig w addr c cmp) with
  | none => none
  | some (v, q, _) => some ((s.modQueue v q (fun x => { x.pass 1 with waitsig := some (w, addr, c, cmp) })).readWait v q)

def execWaitsig (w : CmdWord) (addr c : BitVec 64) (cmp : Cmp) (s : State) : Host.Outcome State Fault Refusal :=
  event (s.waitsig w addr c cmp)

/-- SETSIG: one atomic update. -/
def State.setsig (s : State) (i : Instr) (w : CmdWord) (addr v : BitVec 64) (op : Nat) : Option State :=
  match s.command i with
  | none => none
  | some (f, q, x) =>
    let id := s.nextId
    some (((s.bump).starts f q []).trySignal id
      { kind := .signal addr.toNat op v, fn := f, queue := q, cmd := w, entry := x.headVa, compl := complBits w 3 0 0 false 0 0 }
      addr.toNat op v)

def execSetsigSet (w : CmdWord) (addr v : BitVec 64) (s : State) : Host.Outcome State Fault Refusal :=
  event (s.setsig (.setsigSet w addr v) w addr v 0)
def execSetsigAdd (w : CmdWord) (addr v : BitVec 64) (s : State) : Host.Outcome State Fault Refusal :=
  event (s.setsig (.setsigAdd w addr v) w addr v 1)
def execSetsigDec (w : CmdWord) (addr v : BitVec 64) (s : State) : Host.Outcome State Fault Refusal :=
  event (s.setsig (.setsigDec w addr v) w addr v 2)

/-- A page of a range from `va` to `end_` lies in host memory. -/
def State.fromHost (s : State) (v end_ : Nat) : (fuel va : Nat) → Bool
  | 0, _ => false
  | f + 1, va =>
    if end_ ≤ va then false
    else match s.walk v (va % 2 ^ 57) with
      | .ok x _ => isHost (x.at (va % 2 ^ 57)) || State.fromHost s v end_ f (va + (x.va + x.size - va % 2 ^ 57))
      | _ => State.fromHost s v end_ f (va + 65536)

/-- HCOPY: the engine accepts the copy, or LIMIT for a length of 0 or above 2^40. -/
def State.hcopy (s : State) (w : CmdWord) (dst src len sig : BitVec 64) : Option State :=
  match s.command (.hcopy w dst src len sig) with
  | none => none
  | some (f, q, x) =>
    let s := s.starts f q []
    if len.toNat = 0 || 2 ^ 40 < len.toNat then some (s.complete f q w (complBits w 4 0x02 0 false 0 0))
    else
      let j : Job :=
        { kind := .hcopy (dst.toNat % 2 ^ 57) (src.toNat % 2 ^ 57) len.toNat sig.toNat 0 false, fn := f, queue := q, cmd := w
          entry := x.headVa }
      let s := if s.fromHost f (src.toNat % 2 ^ 57 + len.toNat) (len.toNat / 65536 + 2) (src.toNat % 2 ^ 57) then s.modVf f (fun v => { v with migr := false }) else s
      some { s.bump with jobs := SMap.put s.jobs s.nextId j }

def execHcopy (w : CmdWord) (dst src len sig : BitVec 64) (s : State) : Host.Outcome State Fault Refusal :=
  event (s.hcopy w dst src len sig)

/-- A copy ends with a status; its signal is decremented. -/
def State.endCopy (s : State) (id : Nat) (j : Job) (sig : Nat) (status : BitVec 8) : State :=
  { s with jobs := SMap.del s.jobs id }.signalThenComplete j.fn j.queue j.cmd j.entry sig (complBits j.cmd 4 status 0 false 0 0)

/-- Outcome of the check of a copy's pages. -/
inductive CopyCheck
  | ok
  | wait
  | bad
deriving DecidableEq, Repr

/-- Check every page of a range, ascending (R274). -/
def State.checkPages (s : State) (v pc end_ : Nat) (need : Need) : (fuel va : Nat) → State × CopyCheck
  | 0, _ => (s, .ok)
  | f + 1, va =>
    if end_ ≤ va then (s, .ok)
    else
      let n := match s.walk v (va % 2 ^ 57) with | .ok x _ => x.va + x.size - va % 2 ^ 57 | _ => 65536
      match s.reach v (va % 2 ^ 57) pc need with
      | (s, .home _) => State.checkPages s v pc end_ need f (va + n)
      | (s, .wait) => (s, .wait)
      | (s, .term _ _) => (s, .bad)

/-- The check of both ranges before the first byte. -/
def State.checkCopy (s : State) (id : Nat) (j : Job) (dst src len sig : Nat) : State :=
  let fuel := len / 65536 + 2
  let stuck (s : State) : State := { s with jobs := SMap.put s.jobs id { j with stuck := some fwDie } }
  match s.checkPages j.fn j.entry (dst + len) .st fuel dst with
  | (s, .wait) => stuck s
  | (s, .bad) => s.endCopy id j sig 0x0A
  | (s, .ok) =>
    match s.checkPages j.fn j.entry (src + len) .ld fuel src with
    | (s, .wait) => stuck s
    | (s, .bad) => s.endCopy id j sig 0x0A
    | (s, .ok) =>
      { s with jobs := SMap.put s.jobs id { j with kind := .hcopy dst src len sig 0 true } }

/-- The next bytes of a copy: up to a 512 B boundary of either side. -/
def State.copyChunk (s : State) (id : Nat) (j : Job) (dst src len sig pos : Nat) : State :=
  let a := (src + pos) % 2 ^ 57
  let d := (dst + pos) % 2 ^ 57
  let n := min (len - pos) (min (512 - a % 512) (512 - d % 512))
  let stuck (s : State) : State := { s with jobs := SMap.put s.jobs id { j with stuck := some fwDie } }
  match s.reach j.fn a j.entry .ld with
  | (s, .wait) => stuck s
  | (s, .term _ _) => s.endCopy id j sig 0x0A
  | (s, .home ha) =>
    match s.reach j.fn d j.entry .st with
    | (s, .wait) => stuck s
    | (s, .term _ _) => s.endCopy id j sig 0x0A
    | (s, .home hd) =>
      let (s, bs) := s.fwRead (.vf j.fn) j.fn ha n
      let s := s.fwWrite (.vf j.fn) j.fn hd bs
      if len ≤ pos + n then s.endCopy id j sig 0
      else { s with jobs := SMap.put s.jobs id { j with kind := .hcopy dst src len sig (pos + n) true } }

/-- A job of the firmware goes on: the check of a copy, its next chunk, or a signal update that had faulted. -/
def State.jobStep (s : State) (id : Nat) : Option State :=
  match SMap.find s.jobs id with
  | none => none
  | some j =>
    if j.stuck.isSome || s.dev.shut then none
    else match j.kind with
      | .signal a op v => some (s.trySignal id j a op v)
      | .hcopy dst src len sig pos checked =>
        some (if checked then s.copyChunk id j dst src len sig pos else s.checkCopy id j dst src len sig)

def execHcopyComplete (job : Nat) (s : State) : Host.Outcome State Fault Refusal := event (s.jobStep job)

/-- MARK: a journal point, its value in its entry and beside it (R285). -/
def State.mark (s : State) (w : CmdWord) (v : BitVec 64) : Option State :=
  match s.command (.mark w v) with
  | none => none
  | some (f, q, _) => some ((s.starts f q [v.toNat]).complete f q w (complBits w 5 0 0 false 0 0))

def execMark (w : CmdWord) (v : BitVec 64) (s : State) : Host.Outcome State Fault Refusal := event (s.mark w v)

/-- A stopped launch may resume under a budget (R239). -/
def State.mayResume (s : State) (f : Nat) (m : Launch) (budget : Nat) : Bool :=
  (budget == 0 || decide (Acct.sum m.acctD m.acctN < budget)) && !(s.vf f).exhausted

def State.resume (s : State) (w : CmdWord) (ltag budget : BitVec 64) : Option State :=
  match s.command (.resume w ltag budget) with
  | none => none
  | some (f, q, _) =>
    let s := s.starts f q []
    let l := launchKey f ltag.toNat
    let done (s : State) (st : BitVec 8) : State := s.complete f q w (complBits w 6 st 0 false ltag.toNat 0)
    match s.launch l with
    | none => some (done s 0x08)
    | some m =>
      let stopped := match m.st with | .stopped _ => true | _ => false
      let b := if budget = 0 then m.budget else budget.toNat
      if ltag.toNat < 2 ^ 14 && stopped && s.mayResume f m b then
        some (done (s.setLaunch l { m with st := .evicted, budget := b }) 0)
      else some (done s 0x08)

def execResume (w : CmdWord) (ltag budget : BitVec 64) (s : State) : Host.Outcome State Fault Refusal :=
  event (s.resume w ltag budget)

/-! ## Completion records (R271, R272) -/

/-- Write the oldest completion record of a queue once its ring has room; IRQ raises the command's vector. -/
def State.completionRecord (s : State) (f qn : Nat) : Option State :=
  let q := (s.fn f).queue qn
  match q.held with
  | [] => none
  | (r, w) :: rest =>
    if q.stuck.isSome || q.sz == 7 || q.size ≤ (q.cprod - q.ccons).toNat then none
    else
      let r := r ||| (BitVec.ofNat 256 s.now <<< 192)
      match s.reach f (q.cring + 32 * (q.cprod.toNat % q.size)) (q.entryVa q.entry) .st with
      | (s, .home a) =>
        let s := s.fwWrite (.vf f) f a (bytesOf 32 r.toNat)
        let s := s.modQueue f qn (fun x => { x with held := rest, cprod := x.cprod + 1 })
        some (if w.irq then s.interrupt f w.vec.toNat irqCompletion else s)
      | (s, .wait) => some (s.modQueue f qn (fun x => { x with stuck := some fwDie }))
      | (s, .term _ _) => some (s.modQueue f qn (fun x => { x with held := rest, err := true }))

def execCompletionRecord (fn q : Nat) (s : State) : Host.Outcome State Fault Refusal := event (s.completionRecord fn q)

/-! ## Polls -/

/-- A host-homed object is read again, or a WAITSIG whose read had faulted reads (R273, R274). -/
def State.poll (s : State) (v addr : Nat) : Option State :=
  match (s.fn v).queues.find? (fun kq => kq.2.read && kq.2.stuck.isNone &&
      (match kq.2.waitsig with | some (_, a, _, _) => a.toNat == addr | none => false)) with
  | some (q, _) => some (s.readWait v q)
  | none => s.signalPoll v addr

def execSignalPoll (vf addr : Nat) (s : State) : Host.Outcome State Fault Refusal := event (s.poll vf addr)

/-! ## The PF's writes to a control block with rows of their own -/

/-- QUOTA (R235, R236): consumption counts from the moment a quota is set. -/
def Vf.setQuota (f : Vf) (quota : BitVec 64) : Vf :=
  { f with quota := quota, used := if f.quota = 0 then 0 else f.used }

def State.quotaWrite (s : State) : Option State :=
  match s.input with
  | some (.quotaWrite v quota) => some (s.modVf v (fun f => f.setQuota quota))
  | _ => none

def execQuotaWrite (s : State) : Host.Outcome State Fault Refusal := event s.quotaWrite

/-- RESIDENT (R283): takes effect at one point between interrupts. -/
def State.residentWrite (s : State) : Option State :=
  match s.input with
  | some (.residentWrite v on) => some (s.modVf v (fun f => { f with resident := on }))
  | _ => none

def execResidentWrite (s : State) : Host.Outcome State Fault Refusal := event s.residentWrite

/-- Every started command of a VF has ended (R285). -/
def State.drained (s : State) (v : Nat) : Bool :=
  !s.launches.any (fun kl => launchVf kl.1 == v) && !s.jobs.any (fun kj => kj.2.fn == v) &&
    (s.fn v).queues.all (fun kq => kq.2.waitsig.isNone && kq.2.next.isNone && kq.2.held.isEmpty)

/-- The checkpoint of a drained VF: the log restarts with a checkpoint record, MIGR is set, CKPT cleared, dispatch resumes. -/
def State.takeCheckpoint (s : State) (v : Nat) : State :=
  let s := s.modVf v (fun f => { f with logPos := 0, logSeq := 0, logging := true, migr := !f.hasWindows, ckpt := false })
  (s.logAppend v [bytesOf 64 (2 ^ 64 - 1)]).modDev (fun d => { d with ckpts := d.ckpts.erase v })

/-- A write of 1 to CKPT stops the dispatch of the VF; without an input, the checkpoint of a drained VF is taken. -/
def State.checkpoint (s : State) : Option State :=
  match s.input with
  | some (.checkpoint v) =>
    some ((s.modVf v (fun f => { f with ckpt := true })).modDev (fun d =>
      if d.ckpts.contains v then d else { d with ckpts := d.ckpts ++ [v] }))
  | _ => (s.dev.ckpts.find? s.drained).map s.takeCheckpoint

def execCheckpoint (s : State) : Host.Outcome State Fault Refusal := event s.checkpoint

end Sys2Proof.Machine
end

