-- ==== Sys2Proof/Machine/Launches.lean ====
section
/-! DEFINITION. The life of a launch (R275, R276, R29, R37 to R39): LAUNCH with its checks, CORE_GRANT, TEAM_PLACEMENT,
TEAM_COMPLETION, and the scrub of released cores (R312, R313). -/

namespace Sys2Proof.Machine

open Sys2Proof

/-! ## Step 1: the checks (R275, R30, R119) -/

/-- A vector register budget (R30). -/
def budgetOk (b : BitVec 9) : Bool := decide (8 ≤ b.toNat) && decide (b.toNat ≤ 256) && b.toNat % 8 == 0

/-- Every value lies in the limits of R30, R119 and R275; the leaf has `n` cores. -/
def withinLimits (d : LaunchDesc) (n : Nat) : Bool :=
  let gd := d.gd.toNat
  let p := d.prod.toNat
  let crew := d.crewN.toNat
  let dim (x : BitVec 32) : Bool := x != 0
  decide (1 ≤ gd) && decide (gd ≤ 65536) && decide (p ≤ gd) &&
  (if crew = 0 then d.crewC == 0 else (crew == 2 || crew == 4 || crew == 8) && decide (d.crewC.toNat ≤ (gd - p) / crew)) &&
  (if p = 0 then d.regsP == 0 else budgetOk d.regsP) &&
  (if p < gd then budgetOk d.regsC else d.regsC == 0 || budgetOk d.regsC) &&
  d.ss.toNat % 2048 == 0 && d.lp.toNat % 32 == 0 && decide (d.lp.toNat ≤ 2048) &&
  d.cs.toNat % 2048 == 0 && decide (d.cs.toNat ≤ 131072) && d.ds.toNat % 65536 == 0 &&
  decide (teamSa d ≤ 524288) &&
  dim d.x && dim d.y && dim d.z && decide (d.x.toNat * d.y.toNat * d.z.toNat ≤ 2 ^ 32 - 1) &&
  (!d.grouped || d.w != 0) && d.ctxLen.toNat % 65536 == 0 &&
  decide (d.cores.toNat ≤ n) && (d.cs == 0 || d.cores.toNat % 4 == 0)

/-- LAUNCH (R276, step 1): it waits for its cores, or completes with LIMIT, which decrements no signal. -/
def State.launchCommand (s : State) (w : CmdWord) (d : LaunchDesc) : Option State :=
  match s.command (.launch w d) with
  | none => none
  | some (f, q, _) =>
    match s.leaf (s.vf f).leaf.toNat with
    | none => none
    | some l =>
      some (if withinLimits d l.conf.cores.length then
          s.modQueue f q (fun x => { x with next := none, waiting := some (w, d) })
        else ((s.logCommand f q 4 []).modQueue f q (fun x => x.pass 4)).complete f q w (complBits w 1 0x02 0 false 0 0))

def execLaunch (w : CmdWord) (d : LaunchDesc) (s : State) : Host.Outcome State Fault Refusal := event (s.launchCommand w d)

/-! ## Steps 2 to 4: the grant -/

/-- A core may be granted at all (R315, R317). -/
def State.usable (s : State) (c : Nat) : Bool := !(s.core c).retired && s.isReady (9 + dieOf c)

/-- A core is free. -/
def State.isFree (s : State) (c : Nat) : Bool := (s.core c).owner.isNone && s.usable c

/-- Clusters whose four cores belong to a list. -/
def wholeClusters (cs : List Nat) : List Nat :=
  ((cs.map clusterOf).eraseDups).filter (fun k => [0, 1, 2, 3].all (fun i => cs.contains (4 * k + i)))

def clusterCores (ks : List Nat) : List Nat := ks.flatMap (fun k => [4 * k, 4 * k + 1, 4 * k + 2, 4 * k + 3])

/-- The cores that a LAUNCH takes of a leaf: the lowest-numbered free ones, in whole clusters where CS is nonzero; CORES of 0
asks for every one that may be granted. None while too few are free. -/
def State.coresFor (s : State) (l : Leaf) (d : LaunchDesc) : Option (List Nat) :=
  let all := sortBy (fun a b => decide (a < b)) (l.conf.cores.filter s.usable)
  let all := if d.cs = 0 then all else clusterCores (wholeClusters all)
  let want := if d.cores = 0 then all.length else d.cores.toNat
  let free := if d.cs = 0 then all.filter s.isFree else clusterCores ((wholeClusters (all.filter s.isFree)))
  if want = 0 || free.length < want then none else some (free.take want)

/-- The leaf's cores have time left in the period (R277). -/
def Leaf.timeLeft (l : Leaf) : Bool := decide (l.used < l.budget * 1000)

/-- The LAUNCH of a leaf that is ranked first among those that wait for cores: VF and queue. -/
def State.firstWaiting (s : State) (n : Nat) (l : Leaf) : Option (Nat × Nat) :=
  let v := s.turnOf n l
  (s.bestQueue v (s.awaitsCores v)).map (fun q => (v, q))

/-- An indirect count (R37), none where its read faults. -/
def State.countAt (s : State) (l v a : Nat) : State × Option Nat :=
  match s.walk v (a % 2 ^ 57) with
  | .ok x n =>
    let s := s.chargeN (.vf v) 10 n
    match (if isPeer x.home then some (8, false) else x.deny (s.vf v) none .ld) with
    | some _ => (s, none)
    | none =>
      let (s, bs) := s.fwRead (.team (teamKey l 0)) v (x.at (a % 2 ^ 57)) 4
      (s, some (ofBytes bs))
  | .retry _ _ n => (s.chargeN (.vf v) 10 n, none)
  | .term _ _ n => (s.chargeN (.vf v) 10 n, none)

/-- The four indirect counts in order; none where one faults. Answers the counts in force and the values read. -/
def State.counts (s : State) (l v : Nat) (d : LaunchDesc) : State × Option (List Nat × List Nat) :=
  ([(d.igd, d.gd), (d.ix, d.x), (d.iy, d.y), (d.iz, d.z)] : List (BitVec 64 × BitVec 32)).foldl
    (fun (o : State × Option (List Nat × List Nat)) (ad : BitVec 64 × BitVec 32) =>
    match o with
    | (s, none) => (s, none)
    | (s, some (cs, vs)) =>
      if ad.1 == 0#64 then (s, some (cs ++ [ad.2.toNat], vs))
      else match s.countAt l v ad.1.toNat with
        | (s, none) => (s, none)
        | (s, some n) => (s, some (cs ++ [min n ad.2.toNat], vs ++ [n]))) (s, some ([], []))

/-- Effective counts G, P and C (R38). -/
def effective (d : LaunchDesc) (gi : Nat) : Nat × Nat × Nat :=
  let n := d.crewN.toNat
  let c := d.crewC.toNat
  let g := min d.gd.toNat gi
  let pe := min d.prod.toNat g
  let ce := if n = 0 then 0 else min c ((g - pe) / n)
  let g := if pe + ce * n < g && g < pe + c * n then pe + ce * n else g
  (g, pe, ce)

/-- The launch that a core's scrub follows. -/
def ScrubSt.launch : ScrubSt → Nat
  | .left l => l
  | .due l => l
  | .record l => l

/-- The core goes to another launch: what an evicted one left is to be scrubbed. -/
def Core.receive (c : Core) (l : Nat) : Core :=
  { c with
    owner := some l
    scrub := match c.scrub with
      | some (.left m) => if m = l then none else some (.due m)
      | x => x }

/-- The first of `fuel` LTAGs from `i`, in rising order and round again, that is not in use. -/
def tagFrom (used : Nat → Bool) : (fuel i : Nat) → Option Nat
  | 0, _ => none
  | f + 1, i => if used (i % 2 ^ 14) then tagFrom used f (i + 1) else some (i % 2 ^ 14)

/-- The lowest LTAG, from 1 and 0 last, that names no launch, allocation or scrub of the VF (log 8). -/
def State.freshTag (s : State) (v : Nat) : Option Nat :=
  let used (l : Nat) : Bool := (SMap.find s.launches l).isSome || s.dies.any (fun kd => kd.2.dspAlloc.any (fun a => a.1 == l)) ||
    s.cores.any (fun kc => kc.2.scrub.any (fun x => x.launch == l))
  tagFrom (fun i => used (launchKey v i)) (2 ^ 14) 1

/-- Bytes of a die's scratchpad. -/
def dspBytes : Nat := 16 * 2 ^ 20

/-- The lowest base at which an allocation fits between those that a die has. -/
def Die.dspFit (d : Die) (n : Nat) : Option Nat :=
  let ends := 0 :: d.dspAlloc.map (fun a => a.2.1 + a.2.2)
  (sortBy (fun a b => decide (a < b)) ends).find? (fun b =>
    decide (b + n ≤ dspBytes) && d.dspAlloc.all (fun a => decide (b + n ≤ a.2.1) || decide (a.2.1 + a.2.2 ≤ b)))

/-- Share of a leaf in a die's scratchpad. -/
def Leaf.dspShare (l : Leaf) (d : Nat) : Nat := (l.conf.dsp[d]?).getD 0

/-- The die scratchpads of some dies have room for a launch. -/
def State.dspRoom (s : State) (n : Nat) (l : Leaf) (ds : Nat) (dies : List Nat) : Bool :=
  ds == 0 || dies.all (fun d =>
    let mine := ((s.die d).dspAlloc.filter (fun a => (s.vf (launchVf a.1)).leaf.toNat == n)).foldl (fun x a => x + a.2.2) 0
    decide (mine + ds ≤ l.dspShare d) && ((s.die d).dspFit ds).isSome)

def State.dspTake (s : State) (l ds : Nat) (dies : List Nat) : State :=
  if ds = 0 then s
  else dies.foldl (fun s d => s.modDie d (fun x => match x.dspFit ds with
    | some b => { x with dspAlloc := x.dspAlloc ++ [(l, b, ds)] }
    | none => x)) s

/-- CORE_GRANT (R276, steps 2 to 4): the waiting LAUNCH of a queue takes its cores, its counts are read, an LTAG is assigned and
HEAD passes it; or it completes with INDIRECT_FAULT or LIMIT, decrementing its signal. -/
def State.coreGrant (s : State) (wait : Nat) : Option State :=
  let f := wait / 16
  let qn := wait % 16
  let q := (s.fn f).queue qn
  let n := (s.vf f).leaf.toNat
  match q.waiting, s.leaf n with
  | some (w, d), some leaf =>
    if !s.dispatches || s.firstWaiting n leaf != some (f, qn) || !leaf.timeLeft then none
    else match s.coresFor leaf d, s.freshTag f with
      | none, _ => none
      | _, none => none
      | some cs, some tag =>
        let dies := (cs.map dieOf).eraseDups
        let l := launchKey f tag
        -- a LAUNCH without DET, or of a VF with peer windows, starts (R286)
        let s := if d.det && !(s.vf f).hasWindows then s else s.modVf f (fun v => { v with migr := false })
        let fails (s : State) (st : BitVec 8) : State :=
          (s.modQueue f qn (fun x => x.pass 4)).signalThenComplete f qn w q.headVa d.sigAddr.toNat (complBits w 1 st 0 false 0 0)
        match s.counts l f d with
        | (s, none) => some (fails (s.logCommand f qn 4 []) 0x03)
        | (s, some (counts, vals)) =>
          let big := d.ds != 0 && dies.any (fun x => decide (leaf.dspShare x < d.ds.toNat))
          if big || d.ctxLen.toNat < cs.length * teamStride d then some (fails (s.logCommand f qn 4 vals) 0x02)
          else if !s.dspRoom n leaf d.ds.toNat dies then none
          else
            let (g, p, c) := effective d ((counts[0]?).getD 0)
            let m : Launch :=
              { cmd := w, desc := d, queue := qn, entry := q.headVa, leaf := n, cores := cs, g := g, p := p, c := c
                x := (counts[1]?).getD 0, y := (counts[2]?).getD 0, z := (counts[3]?).getD 0, budget := d.budget.toNat }
            let s := (s.logCommand f qn 4 vals).modQueue f qn (fun x => x.pass 4)
            let s := (s.setLaunch l m).dspTake l d.ds.toNat dies
            some (cs.zipIdx.foldl (fun s ci =>
              (s.setTeam (teamKey l ci.2) { core := ci.1 }).modCore ci.1 (fun k => k.receive l)) s)
  | _, _ => none

def execCoreGrant (wait : Nat) (s : State) : Host.Outcome State Fault Refusal := event (s.coreGrant wait)

/-! ## Step 5: placement -/

/-- The region registers that a launch presets (R120). -/
def presets (d : LaunchDesc) : SMap Region :=
  let r (q : Nat) (k : BitVec 4) (n : Nat) : SMap Region :=
    if n = 0 then [] else [(q, { len := BitVec.ofNat 40 n, kind := k, grain := 3 })]
  r 12 11 d.ds.toNat ++ r 13 10 (4 * d.cs.toNat) ++ r 14 8 d.lp.toNat ++ r 15 9 d.ss.toNat

/-- A group of a new launch: one entry with every lane at CODE, PRIO 128 (R40); the dead map all ones (R89); sr.xlim at the
role's budget (R335). -/
def Launch.newGroup (l : Launch) (core n : Nat) : Group :=
  let b := l.budgetOf n
  { core := core, sect := n % 4, bud := b, q := presets l.desc, xlim := BitVec.ofNat 32 b, dead := BitVec.allOnes 256
    entries := [{ pc := l.desc.code.setWidth 57, mask := BitVec.allOnes 32 }] }

/-- Invalidate what a core holds of a VF from before a launch: its instruction cache (R132) and the clean open sectors of its L1
(R173). -/
def Core.fresh (c : Core) (vf : Nat) : Core :=
  { c with
    icache := c.icache.filter (fun x => x.vf != vf)
    l1 := c.l1.map (fun x => if x.vf == vf && (x.cls == 1 || x.cls == 2) then { x with valid := x.valid &&& sectorsAny x.dirty } else x) }

/-- The cores of a launch have been scrubbed. -/
def State.scrubbed (s : State) (l : Nat) : Bool :=
  s.cores.all (fun kc => kc.2.owner != some l || kc.2.scrub.isNone)

/-- TEAM_PLACEMENT: the team's groups are queued on its core. -/
def State.placeTeam (s : State) (t : Nat) : Option State :=
  match s.team t, s.launch (teamLaunch t) with
  | some m, some l =>
    let k := teamLaunch t
    if m.st != .placing || (l.st != .granted && l.st != .running) || (s.core m.core).owner != some k || !s.scrubbed k then none
    else
      let s := (s.modCore m.core (fun c => { c.fresh (launchVf k) with team := some t })).setTeam t { m with st := .running, idle := 0 }
      let s := s.setLaunch k { l with st := .running }
      let ks := (List.range l.g).map (groupKey t)
      let s := ks.zipIdx.foldl (fun s kn => s.setGroup kn.1 (l.newGroup m.core kn.2)) s
      some (ks.foldl State.makeReady s)
  | _, _ => none

def execTeamPlacement (team : Nat) (s : State) : Host.Outcome State Fault Refusal := event (s.placeTeam team)

/-! ## Completion (R39, R173, R242) -/

/-- Work of a team's groups that has not completed: engines, copies, remote operations, accesses, returns. -/
def State.teamBusy (s : State) (t : Nat) : Bool :=
  let mine (k : Nat) : Bool := teamOf k == t
  s.groups.any (fun kg => mine kg.1 && kg.2.res != .ended) ||
  s.cores.any (fun kc => kc.2.hauls.any (fun h => mine h.2.grp) || kc.2.sweeps.any (fun h => mine h.2.grp) ||
    kc.2.saw.any (fun o => o.team == t) || kc.2.rets.any (fun r => mine r.2.grp)) ||
  s.rems.any (fun r => mine r.2.grp) || s.accs.any (fun a => mine a.2.grp && a.2.vf == vfOf a.2.grp && a.2.kind != .host)

/-- Write back the dirty open bytes of a VF in a core's L1 and invalidate those sectors (R173); and what it holds of context records,
which go on elsewhere. -/
def State.flushOpen (s : State) (core vf : Nat) : State :=
  ((s.core core).l1.filter (fun x => x.vf == vf && ((x.cls == 1 && x.dirty != 0) || x.cls == 2))).foldl (fun s x =>
    (s.writeBack core x (BitVec.allOnes 512)).l1Put core { x with
      dirty := 0, valid := if x.cls == 2 then 0 else x.valid &&& ~~~sectorsAny x.dirty }) s

/-- Guests of a core that its team leaves are saved without a slot; they land again on their die when they are ready (R259). What
the L1 holds of their ranges is written back. -/
def State.displaceGuests (s : State) (c : Nat) : State :=
  ((s.groups.filter (fun kg => kg.2.res == .guest && kg.2.core == c && kg.2.slot.isSome)).map Prod.fst).foldl (fun s k =>
    match s.group k with
    | none => s
    | some g =>
      let s := if g.active then s.fullSave k else s
      let s := g.flushRanges.foldl (fun s r => (s.l1WriteBack c (vfOf k) r.1 r.2 0).1) s
      (s.modGroup k (fun g => { g with slot := none })).modCore c (fun m => { m with slots := m.slots.filter (fun x => x.2 != k) })) s

/-- A team leaves its core: guests displaced, dirty open bytes written back. -/
def State.leaveCore (s : State) (c l : Nat) (st : ScrubSt) : State :=
  ((s.displaceGuests c).flushOpen c (launchVf l)).modCore c (fun m => { m with team := none, owner := none, scrub := some st })

/-- A core is released by a launch: its scrub is due (R312). -/
def State.releaseCore (s : State) (c l : Nat) : State := s.leaveCore c l (.due l)

/-- Engine commands or returns of any group on a core. -/
def Core.busy (c : Core) : Bool := !c.hauls.isEmpty || !c.sweeps.isEmpty || !c.rets.isEmpty || !c.saw.isEmpty

/-- Account of a launch above its budget, or of its VF above its quota, in nJ (R236, R238). -/
def Launch.excess (m : Launch) (f : Vf) : Nat :=
  max (if m.budget = 0 then 0 else Acct.sum m.acctD m.acctN - m.budget)
    (if f.quota = 0 then 0 else f.used / 1000000 - f.quota.toNat)

/-- What the accounts of a launch and its teams hold at its end (R242). -/
def State.finalAccts (s : State) (l : Nat) (m : Launch) : FinalAccts :=
  { acctD := m.acctD, acctN := m.acctN
    teams := (s.teams.filter (fun kt => teamLaunch kt.1 == l)).map (fun (kt : Nat × Team) => (kt.1 % 2 ^ 7, kt.2.acctD, kt.2.acctN)) }

/-- A launch ends: every charge is posted, its frames and keys are freed, its signal is decremented, its record written
(R242, R276). -/
def State.endLaunch (s : State) (l : Nat) (status cause : BitVec 8) : State :=
  let s := s.posting.getD s
  match s.launch l with
  | none => s
  | some m =>
    let v := launchVf l
    let x := m.excess (s.vf v)
    let r := complBits m.cmd 1 status cause (m.overrun || decide (0 < x)) (l % 2 ^ 14) x
    let saved := (s.teams.filter (fun kt => teamLaunch kt.1 == l && kt.2.frame.isSome)).length
    let s := s.modLeaf m.leaf (fun f => { f with frames := f.frames - saved })
    let s := s.modVf v (fun f => { f with finals := SMap.put f.finals (l % 2 ^ 14) (s.finalAccts l m) })
    let s := { s with
      launches := SMap.del s.launches l, teams := s.teams.filter (fun kt => teamLaunch kt.1 != l)
      cores := s.cores.map (fun (c : Nat × Core) =>
        (c.1, if c.2.scrub == some (ScrubSt.left l) then { c.2 with scrub := some (.due l) } else c.2)) }
    s.signalThenComplete v m.queue m.cmd m.entry m.desc.sigAddr.toNat r

/-- The teams that complete, or are evicted, with a team: with Cs nonzero those of its launch on its cluster, which share its slices
(R119, log 101). -/
def State.clusterMates (s : State) (t : Nat) (m : Team) (d : LaunchDesc) : List Nat :=
  if d.cs = 0 then [t]
  else (s.teamsOf (teamLaunch t)).filter (fun u => match s.team u with
    | some x => clusterOf x.core == clusterOf m.core
    | none => false)

/-- A team runs, its groups have ended, and everything that they issued has completed (R39). -/
def State.teamOver (s : State) (t : Nat) : Bool :=
  match s.team t with
  | some m => m.st == .running && !s.teamBusy t && !(s.core m.core).busy
  | none => false

/-- A team completes: its groups go and its core is released. -/
def State.finishTeam (s : State) (t : Nat) : State :=
  match s.team t with
  | some m =>
    let s := ((SMap.keys s.groups).filter (fun k => teamOf k == t)).foldl State.dropGroup s
    (s.releaseCore m.core (teamLaunch t)).setTeam t { m with st := .done }
  | none => s

/-- TEAM_COMPLETION: a team whose groups have ended and whose work is done completes, and with the last team its launch does.
A killed launch ends here once its claim sweep has run. -/
def State.teamDone (s : State) (t : Nat) : Option State :=
  let l := teamLaunch t
  match s.team t, s.launch l with
  | some m, some x =>
    match x.st with
    | .swept cause hang =>
      let cs := (s.cores.filter (fun kc => kc.2.owner == some l)).map Prod.fst
      some ((cs.foldl (fun s c => s.releaseCore c l) s).endLaunch l (if hang then 0x05 else 0x04) (if hang then 0 else cause))
    | .killed _ _ => none
    | _ =>
      if !s.teamOver t || !(s.clusterMates t m x.desc).all s.teamOver then none
      else
        let s := (s.clusterMates t m x.desc).foldl State.finishTeam s
        some (if (s.teamsOf l).all (fun u => match s.team u with | some y => y.st == .done | none => true)
          then s.endLaunch l 0 0 else s)
  | _, _ => none

def execTeamCompletion (team : Nat) (s : State) : Host.Outcome State Fault Refusal := event (s.teamDone team)

/-! ## Scrub (R312, R313) -/

/-- A core after its scrub: everything of the launch's VF is gone but its clock, its place among the leaves and its errors. -/
def Core.scrubbed (c : Core) (l : Nat) : Core :=
  { c with
    sects := [], scratch := [], tags := [], clu := [], tiles := [], books := [], l1 := [], icache := [], layouts := []
    tlb := c.tlb.filter (fun x => x.vf != launchVf l), hauls := [], sweeps := [], rets := [], unacked := [], saw := []
    slots := [], scrub := some (.record l) }

/-- The scrub of a released core; with the last team of its launch on the die, the launch's die scratchpad goes too. Its energy
is charged to the releasing VF. -/
def State.scrub (s : State) (c : Nat) : Option State :=
  match (s.core c).scrub with
  | some (.due l) =>
    let s := s.modCore c (fun x => x.scrubbed l)
    let s := (s.shareVf (launchVf l) (Config.scrubCost s.tick)).checkAccounts none (some (launchVf l))
    let here := s.teams.any (fun kt => teamLaunch kt.1 == l && kt.2.st != .done && dieOf kt.2.core == dieOf c)
    some (if here then s
      else s.modDie (dieOf c) (fun d => { d with
        dsp := (d.dspAlloc.filter (fun a => a.1 == l)).foldl (fun m a => Store.clear m a.2.1 a.2.2) d.dsp
        dspAlloc := d.dspAlloc.filter (fun a => a.1 != l) }))
  | _ => none

def execScrub (core : Nat) (s : State) : Host.Outcome State Fault Refusal := event (s.scrub core)

end Sys2Proof.Machine
end

