-- ==== Sys2Proof/Machine/Time.lean ====
section
/-! DEFINITION. The passing of time between two events: sr.time and sr.clock (R26), and what counts time: the watchdog (R265), the
borrow timeout (R103), run times (R232) and the time budgets of leaves (R277). How much time passes is a free value (log 4). -/

namespace Sys2Proof.Machine

open Sys2Proof

/-- The die of a core runs throttled (R25, R26). -/
def State.throttled (s : State) (core : Nat) : Bool := (s.die (dieOf core)).throttle != 0 || (s.die (dieOf core)).idleSlots

/-- A group of the team has a fragment that waits for REPLAY ALL. -/
def State.teamParked (s : State) (t : Nat) : Bool :=
  s.accs.any (fun a => a.2.st == .parked && teamOf a.2.grp == t && a.2.vf == vfOf a.2.grp)

/-- Every group of the team has ended: the team only waits to complete (R39). -/
def State.teamEnded (s : State) (t : Nat) : Bool := s.groups.all (fun kg => teamOf kg.1 != t || kg.2.res == .ended)

/-- The watchdog of a team counts (R265). -/
def State.eligible (s : State) (t : Nat) (m : Team) : Bool :=
  m.placed && !s.teamEnded t && !s.throttled m.core && !s.limited.contains t && !s.teamParked t

/-- The launch is neither stopped nor evicted, though a stop or eviction may be under way. -/
def Launch.goesOn (l : Launch) : Bool :=
  match l.st with
  | .running => true
  | .stopping _ => true
  | .evicting => true
  | _ => false

/-- The borrow timeout of a waiting claim counts (R103). -/
def State.borCounts (s : State) (e : ClaimEntry) : Bool :=
  e.st == .wait && e.peer.isNone &&
    (match s.group e.ctx, s.launch (launchOf e.ctx), s.team (teamOf e.ctx) with
    | some g, some l, some m =>
      (m.placed || (g.res == .guest && g.slot.isSome)) && l.goesOn && !g.stopped && !s.throttled g.core
    | _, _, _ => false)

/-- Cores of a leaf that run a team, unthrottled. -/
def State.busyCores (s : State) (l : Leaf) : Nat :=
  (l.conf.cores.filter (fun c => (s.core c).team.isSome && !s.throttled c)).length

/-- Cores that run a team of a VF. -/
def State.coresOfVf (s : State) (v : Nat) : List Nat :=
  (s.cores.filter (fun kc => match kc.2.team with | some t => launchVf (teamLaunch t) == v | none => false)).map Prod.fst

/-- The time of a step passes. -/
def State.advance (s : State) : State :=
  let dt := Config.elapsed s.tick
  { s with
    tick := s.tick + 1
    now := s.now + dt
    cores := s.cores.map (fun (kc : Nat × Core) =>
      (kc.1, { kc.2 with clock := kc.2.clock + BitVec.ofNat 64 (Config.cycles (s.tick * 128 + kc.1)) }))
    teams := s.teams.map (fun (kt : Nat × Team) => (kt.1, if s.eligible kt.1 kt.2 then { kt.2 with idle := kt.2.idle + dt } else kt.2))
    dies := s.dies.map (fun (kd : Nat × Die) => (kd.1, { kd.2 with
      claims := kd.2.claims.map (fun (c : Nat × ClaimEntry) => (c.1, if s.borCounts c.2 then { c.2 with age := c.2.age + dt } else c.2)) }))
    leaves := s.leaves.map (fun (kl : Nat × Leaf) => (kl.1, { kl.2 with used := kl.2.used + dt * s.busyCores kl.2 }))
    vfs := s.vfs.map (fun (kv : Nat × Vf) => (kv.1, { kv.2 with
      runtime := (s.coresOfVf kv.1).foldl (fun m c => Store.wr m c (Store.rd m c + BitVec.ofNat 64 dt)) kv.2.runtime })) }

end Sys2Proof.Machine
end

