-- ==== Sys2Proof/Machine/Slices.lean ====
section
/-! DEFINITION. Stops and pre-emption: FORCED_FULL_SAVE, STOP_COMPLETE (R237, R238), SLICE_END with the periods of R277,
SLICE_END_EVICTION, BLOCKING_POINT_EVICTION (R253 to R255), TEAM_RESTORE (R256), HANG (R265). -/

namespace Sys2Proof.Machine

open Sys2Proof

/-- A stop or slice-end eviction of the launch is under way. -/
def Launch.saving (l : Launch) : Bool :=
  match l.st with
  | .stopping _ => true
  | .evicting => true
  | _ => false

/-- 20 µs after the declaration a group that is still active is saved between instructions (R237, item 3). -/
def State.forcedSave (s : State) (k : Nat) : Option State :=
  match s.group k, s.launch (launchOf k) with
  | some g, some l => if l.saving && g.active && decide (l.since + 20000 ≤ s.now) then some (s.fullSave k) else none
  | _, _ => none

def execForcedFullSave (grp : Nat) (s : State) : Host.Outcome State Fault Refusal := event (s.forcedSave grp)

/-! ## What a save waits for (R237, R254) -/

/-- An access that a save leaves with its group: it is parked, or its trap waits for delivery. -/
def Acc.keeps (a : Acc) : Bool :=
  match a.st with
  | .parked => true
  | .fault _ _ => true
  | _ => false

/-- A copy is suspended: at a 4 KiB boundary, or wherever a fault holds it until REPLAY ALL (R222, R237). -/
def State.haulRests (s : State) (h : Haul) : Bool :=
  match h.acc.bind (SMap.find s.accs) with
  | some x => x.st == .parked
  | none => s.haulHeld h

/-- Every engine command and access of some groups has completed, or rests suspended or parked. -/
def State.quiet (s : State) (mine : Nat → Bool) : Bool :=
  s.cores.all (fun kc =>
    kc.2.hauls.all (fun h => !mine h.2.grp || s.haulRests h.2) && kc.2.sweeps.all (fun h => !mine h.2.grp) &&
    kc.2.saw.all (fun o => !o.members.any mine) && kc.2.unacked.all (fun u => !mine u.1) &&
    kc.2.rets.all (fun r => !mine r.2.grp || !r.2.started)) &&
  s.rems.all (fun r => !mine r.2.grp) &&
  s.accs.all (fun a => !mine a.2.grp || a.2.vf != vfOf a.2.grp || a.2.keeps ||
    (match a.2.use with | .engine _ => a.2.st == .parked | _ => false))

/-- Groups whose saves a team's save waits for: its own and the guests on its core. -/
def State.withTeam (s : State) (t core k : Nat) : Bool :=
  match s.group k with
  | some g => if g.res == .guest then g.core == core else teamOf k == t
  | none => false

/-! ## The team save frame (R255, R266) -/

/-- Tiles of a tile map. -/
def tilesOf (m : BitVec 64) : List Nat := (List.range 64).filter (fun t => m.getLsbD t)

/-- Charges of moving a team save frame between a core and the frame's home: all in the N part. -/
def State.chargeFrame (s : State) (t : Nat) (d : LaunchDesc) (tiles hops : Nat) (hauls : Bool) : State :=
  let p : Payer := .team t
  let local_ := teamSa d + d.cs.toNat
  let units := 2 + (if hauls then 2 else 0) + local_ / 512 + 128 * tiles
  ((((s.chargeN p 10 units).chargeN p 8 (local_ / 128)).chargeN p 9 (128 * tiles)).chargeN p 11 (units * hops)).chargeN p 20 (units * hops)

/-- Save a team: its frame is written from its core, which it leaves. What the L1 holds dirty of its groups' ranges is written
back, and their register lines stay only in their records. -/
def State.saveTeam (s : State) (t : Nat) : State :=
  let l := teamLaunch t
  match s.team t, s.launch l with
  | some m, some x =>
    if m.st == .placing then
      (s.modCore m.core (fun c => if c.owner == some l then { c with owner := none } else c))
    else if m.st != .running && m.st != .saving then
      (match m.to_ with
      | some c => (s.modCore c (fun k => { k with owner := none })).setTeam t { m with to_ := none }
      | none => s)
    else
      let c := m.core
      let k := s.core c
      let f : SaveFrame :=
        { bytes := m.frameBytes k (teamSa x.desc) x.desc.cs.toNat
          hauls := k.hauls.map (fun (h : Nat × Haul) => (h.1, { h.2 with acc := none })), rets := k.rets, die := dieOf c }
      let accs := (SMap.vals k.hauls).filterMap Haul.acc
      let s := { s with accs := s.accs.filter (fun a => !accs.contains a.1) }
      let ks := (SMap.keys s.groups).filter (fun g => teamOf g == t)
      let s := ks.foldl (fun s g =>
        match s.group g with
        | none => s
        | some y =>
          if y.res == .guest then s
          else
            let s := if y.active then s.swapOut g else s
            let s := y.flushRanges.foldl (fun s r => (s.l1WriteBack c (vfOf g) r.1 r.2 0).1) s
            s.modGroup g (fun y => { y with lines := y.lines.filter (fun n => n.2.st == .filling) })) s
      let s := s.chargeFrame t x.desc (tilesOf m.tilemap).length 0 (!f.hauls.isEmpty)
      let s := (s.leaveCore c l (.left l)).modCore c (fun k => { k with hauls := [], rets := [] })
      (s.setTeam t { m with st := .saved, bars := [], tilemap := 0, frame := some f, to_ := none }).modLeaf x.leaf (fun y => { y with frames := y.frames + 1 })
  | _, _ => s

/-- Frames that the saves of some teams need; the pool has them (R255). -/
def State.poolFor (s : State) (leaf : Nat) (ts : List Nat) : Bool :=
  let n := (ts.filter (fun t => match s.team t with | some m => m.st == .running || m.st == .saving | none => false)).length
  match s.leaf leaf with
  | some l => decide (l.frames + n ≤ l.conf.pool)
  | none => false

/-- Every team of a launch may be saved: no group of it is active, and its work rests. -/
def State.launchRests (s : State) (l : Nat) : Bool :=
  s.groups.all (fun kg => launchOf kg.1 != l || !kg.2.active) && s.quiet (fun k => launchOf k == l)

/-! ## STOP_COMPLETE -/

/-- A stop is complete: the teams are saved and the launch is reported, with its overrun (R237, R238, R272). -/
def State.stopDone (s : State) (l : Nat) : Option State :=
  match s.launch l with
  | none => none
  | some m =>
    match m.st with
    | .stopping quota =>
      let ts := s.teamsOf l
      if !s.launchRests l || !s.poolFor m.leaf ts then none
      else
        let s := ts.foldl State.saveTeam s
        let s := s.posting.getD s
        match s.launch l with
        | none => none
        | some m =>
          let v := launchVf l
          let x := m.excess (s.vf v)
          let r := complBits m.cmd 1 (if quota then 0x07 else 0x06) 0 (decide (0 < x)) (l % 2 ^ 14) x
          some ((s.setLaunch l { m with st := .stopped quota }).complete v m.queue m.cmd r)
    | _ => none

def execStopComplete (launch : Nat) (s : State) : Host.Outcome State Fault Refusal := event (s.stopDone launch)

/-! ## Periods and slices (R277) -/

/-- A new period of 1 ms resets the time that the leaves have used. -/
def State.newPeriod (s : State) : Option State :=
  if s.leaves.isEmpty || s.now < s.dev.periodStart + 1000000 then none
  else some ({ s with leaves := s.leaves.map (fun (kl : Nat × Leaf) => (kl.1, { kl.2 with used := 0 })) }.modDev (fun d =>
    { d with periodStart := s.now / 1000000 * 1000000 }))

def execPeriodStart (s : State) : Host.Outcome State Fault Refusal := event s.newPeriod

/-- A launch to which cores have been granted, and which no stop or eviction takes from them. -/
def Launch.holdsCores (m : Launch) : Bool := m.st == .running || m.st == .granted

/-- Declare the slice-end eviction of a launch: as a stop, at reconvergence points. One whose teams have all completed is not
evicted. -/
def State.declareEviction (s : State) (l : Nat) : State :=
  match s.launch l with
  | none => s
  | some m => if m.holdsCores then (s.setLaunch l { m with st := .evicting, since := s.now }).stopGroups l else s

/-- Launches on a leaf that hold cores, of one VF or of all. -/
def State.runningOn (s : State) (leaf : Nat) (v : Option Nat) : List Nat :=
  (s.launches.filter (fun kl => kl.2.leaf == leaf && kl.2.holdsCores && (v.isNone || v == some (launchVf kl.1)))).map Prod.fst

/-- SLICE_END: the leaf's cores have used their time, or the VF's slice is over: its launches are evicted where another VF of the
leaf would run, and the slice passes to that VF; otherwise it is renewed. -/
def State.sliceOver (s : State) (n : Nat) : Option State :=
  match s.leaf n with
  | none => none
  | some l =>
    let all := s.runningOn n none
    if !l.timeLeft && !all.isEmpty then some (all.foldl State.declareEviction s)
    else
      let t := s.turnOf n l
      if t != l.turn then (if s.wantsSlice t then some (s.passTurn n t) else none)
      else if !s.hasLaunch t || s.now < l.sliceStart + (s.vf t).slice.toNat * 1000 then none
      else match s.nextTurn n t with
        | none => some (s.modLeaf n (fun l => { l with sliceStart := s.now }))
        | some u => some (((s.runningOn n (some t)).foldl State.declareEviction s).passTurn n u)

def execSliceEnd (leaf : Nat) (s : State) : Host.Outcome State Fault Refusal := event (s.sliceOver leaf)

/-- SLICE_END_EVICTION: every team of the launch is saved. -/
def State.evictLaunch (s : State) (l : Nat) : Option State :=
  match s.launch l with
  | none => none
  | some m =>
    let ts := s.teamsOf l
    if m.st != .evicting || !s.launchRests l || !s.poolFor m.leaf ts then none
    else some ((ts.foldl State.saveTeam s).modLaunch l (fun m => { m with st := .evicted }))

def execSliceEndEviction (launch : Nat) (s : State) : Host.Outcome State Fault Refusal := event (s.evictLaunch launch)

/-! ## Blocking-point eviction (R254) -/

/-- Every entry of the team's groups and of the guests on its core waits, and no MMA of the team is captured. -/
def State.allWait (s : State) (t core : Nat) : Bool :=
  s.groups.all (fun kg => !s.withTeam t core kg.1 || kg.2.entries.all (fun e => e.st != .ready)) &&
    s.cores.all (fun kc => kc.2.saw.all (fun o => o.team != t))

/-- The teams that are evicted with a team: with Cs nonzero, those of its launch on its cluster. -/
def State.evictedWith (s : State) (t : Nat) (m : Team) (d : LaunchDesc) : List Nat :=
  if d.cs = 0 then [t] else (s.clusterMates t m d).filter (fun u => (s.team u).any Team.placed)

/-- Class of a launch's queue. -/
def State.classOf (s : State) (l : Nat) (m : Launch) : Nat := ((s.fn (launchVf l)).queue m.queue).cls.toNat

/-- A LAUNCH of higher class waits in vain for cores of the leaf. -/
def State.outranked (s : State) (l : Nat) (m : Launch) : Bool :=
  match s.leaf m.leaf with
  | none => false
  | some leaf =>
    match s.firstWaiting m.leaf leaf with
    | none => false
    | some (f, q) =>
      let x := (s.fn f).queue q
      decide (s.classOf l m < x.cls.toNat) && (match x.waiting with
        | some (_, d) => (s.coresFor leaf d).isNone
        | none => false)

/-- BLOCKING_POINT_EVICTION: a team whose groups all wait begins to leave, its copies suspending; it is saved once its work
rests, and goes on where a group has become ready before. -/
def State.evictTeam (s : State) (t : Nat) : Option State :=
  let l := teamLaunch t
  match s.team t, s.launch l with
  | some m, some x =>
    let ts := s.evictedWith t m x.desc
    let coreOf (u : Nat) : Nat := match s.team u with | some y => y.core | none => 0
    let waits := x.st == .running && s.outranked l x && ts.all (fun u => s.allWait u (coreOf u))
    let set (st : TeamSt) : State := ts.foldl (fun s u => s.modTeam u (fun y => { y with st := st })) s
    let rests := ts.all (fun u => s.quiet (s.withTeam u (coreOf u)))
    if m.st == .saving then
      if !waits then some (set .running)
      else if rests && s.poolFor x.leaf ts then some (ts.foldl State.saveTeam s) else none
    else if m.st == .running && waits && s.poolFor x.leaf ts then
      some (if rests then ts.foldl State.saveTeam s else set .saving)
    else none
  | _, _ => none

def execBlockingPointEviction (team : Nat) (s : State) : Host.Outcome State Fault Refusal := event (s.evictTeam team)

/-! ## TEAM_RESTORE (R256) -/

/-- The cores that saved teams return to: their own where free, else the lowest-numbered that meet the rules. -/
def State.placesFor (s : State) (leaf : Leaf) (d : LaunchDesc) (olds : List Nat) : Option (List Nat) :=
  let free := sortBy (fun a b => decide (a < b)) (leaf.conf.cores.filter s.isFree)
  let near (c : Nat) : Bool := d.ds == 0 || olds.all (fun o => dieOf o == dieOf c)
  if d.cs = 0 then
    if olds.all free.contains then some olds
    else match free.find? near with
      | some c => some [c]
      | none => none
  else
    let ks := wholeClusters free
    let old := clusterOf ((olds.head?).getD 0)
    let k := if ks.contains old then some old else ks.find? (fun k => near (4 * k))
    k.map (fun k => olds.map (fun o => 4 * k + o % 4))

/-- Read a team's save frame into its new core; its groups follow. -/
def State.loadTeam (s : State) (t : Nat) : State :=
  let l := teamLaunch t
  match s.team t, s.launch l with
  | some m, some x =>
    match m.to_, m.frame with
    | some c, some f =>
      let s := s.chargeFrame t x.desc (tilesOf f.tilemap).length (meshHops (dieOf c) f.die) (!f.hauls.isEmpty)
      let s := s.modCore c (fun k =>
        { f.load (k.fresh (launchVf l)) with team := some t })
      let s := (s.setTeam t { m with
        st := .running, core := c, bars := f.bars, tilemap := f.tilemap, frame := none, to_ := none, idle := 0 }).modLeaf x.leaf
        (fun y => { y with frames := y.frames - 1 })
      let ks := (s.groups.filter (fun kg => teamOf kg.1 == t && kg.2.res != .guest)).map Prod.fst
      let s := { s with accs := s.accs.map (fun (a : Nat × Acc) =>
        (a.1, if ks.contains a.2.grp && a.2.vf == vfOf a.2.grp then { a.2 with core := c } else a.2)) }
      let s := ks.foldl (fun s k =>
        let old := match s.group k with | some g => g.core | none => c
        (((s.modGroup k (fun g => { g with core := c })).moveOrder k old c)).makeReady k) s
      s.recheckReturns c
    | _, _ => s
  | _, _ => s

/-- TEAM_RESTORE: a saved team is given a core, and is read back once the core's scrub is done. A team that had never been placed
is given its core and placed by TEAM_PLACEMENT. -/
def State.restoreTeam (s : State) (t : Nat) : Option State :=
  let l := teamLaunch t
  match s.team t, s.launch l with
  | some m, some x =>
    match s.leaf x.leaf with
    | none => none
    | some leaf =>
      let ok := (x.st == .running || x.st == .evicted) && leaf.timeLeft && s.dispatches && s.serves (launchVf l) &&
        s.turnOf x.leaf leaf == launchVf l &&
        (match s.firstWaiting x.leaf leaf with
          | some (f, q) => decide (((s.fn f).queue q).cls.toNat ≤ s.classOf l x)
          | none => true)
      let unplaced := m.st == .placing && (s.core m.core).owner != some l
      if !ok || !(m.st == .saved || unplaced) then none
      else match m.to_ with
        | some _ =>
          let ts := if x.desc.cs = 0 then [t] else (s.teamsOf l).filter (fun u => match s.team u with
            | some y => y.st == .saved && y.to_.isSome && clusterOf y.core == clusterOf m.core
            | none => false)
          let clean := ts.all (fun u => match s.team u with
            | some y => (y.to_).all (fun c => (s.core c).scrub.isNone)
            | none => true)
          if clean then some ((ts.foldl State.loadTeam s).modLaunch l (fun y => { y with st := .running })) else none
        | none =>
          let ts := if x.desc.cs = 0 then [t] else (s.teamsOf l).filter (fun u => match s.team u with
            | some y => (y.st == .saved || (y.st == .placing && (s.core y.core).owner != some l)) && clusterOf y.core == clusterOf m.core
            | none => false)
          let olds := ts.map (fun u => match s.team u with | some y => y.core | none => 0)
          match s.placesFor leaf x.desc olds with
          | none => none
          | some cs =>
            let s := (ts.zip cs).foldl (fun s uc =>
              (s.modTeam uc.1 (fun y => if y.st == .saved then { y with to_ := some uc.2 } else { y with core := uc.2 })).modCore uc.2
                (fun k => k.receive l)) s
            some (if m.st == .placing then s.modLaunch l (fun y => { y with st := .running }) else s)
  | _, _ => none

def execTeamRestore (team : Nat) (s : State) : Host.Outcome State Fault Refusal := event (s.restoreTeam team)

/-! ## The watchdog (R265) -/

/-- HANG: a team's eligible time has reached the period; its launch is killed. -/
def State.hang (s : State) (t : Nat) : Option State :=
  match s.team t, s.launch (teamLaunch t) with
  | some m, some l =>
    if m.placed && !s.teamEnded t && l.desc.wdog != 0 && decide (l.desc.wdog.toNat * 1000 ≤ m.idle) &&
        (match l.st with | .killed _ _ => false | .swept _ _ => false | _ => true)
      then some (s.kill (teamLaunch t) 0 true) else none
  | _, _ => none

def execHang (team : Nat) (s : State) : Host.Outcome State Fault Refusal := event (s.hang team)

end Sys2Proof.Machine
end

