-- ==== Sys2Proof/Machine/Energy.lean ====
section
/-! DEFINITION. Shared costs (R232), reconciliation (R233, R234), throttling (R25 to R27) and thermal shutdown (R28). -/

namespace Sys2Proof.Machine

open Sys2Proof

/-! ## Shares -/

/-- Add to the house account. -/
def State.shareHouse (s : State) (c : Nat) : State := s.modDev (fun d => { d with house := d.house.add c, interval := d.interval + c })

/-- Divide a cost among VFs by weight, each share truncated, what is left to the house account. `total` may exceed the sum of
the weights: the rest is the house's. -/
def State.divide (s : State) (cost total : Nat) (ws : List (Nat × Nat)) : State :=
  let shares := ws.map (fun w => (w.1, cost * w.2 / total))
  let given := shares.foldl (fun a x => a + x.2) 0
  (shares.foldl (fun s x => s.shareVf x.1 x.2) s).shareHouse (cost - given)

/-- Pages of device memory that a stage 2 table maps, each with its size. -/
def s2Pages (mem : Memory) : (fuel lvl table : Nat) → List (Nat × Nat)
  | 0, _, _ => []
  | f + 1, lvl, table =>
    (List.range (if lvl = 4 then 32 else 512)).flatMap (fun i =>
      let e := Store.load mem (table + 8 * i) 8
      if fld e 0 1 = 0 || s2Bad lvl e then []
      else if fld e 1 1 = 1 then (if fld e 51 1 = 1 then [] else [(entryOut e, 2 ^ lvlShift lvl)])
      else s2Pages mem f (lvl + 1) (entryOut e))

/-- Bytes allocated to a VF on a stack: half of each page that it maps on the stack's die, the two stacks of a die taking 4 KiB
in turn (R15). -/
def State.bytesOn (s : State) (v stack : Nat) : Nat :=
  ((s2Pages s.mem 5 0 (s.vf v).s2root).eraseDups.filter (fun p => homeDie p.1 == stack / 2)).foldl (fun a p => a + p.2 / 2) 0

/-- VFs that exist. -/
def State.liveVfs (s : State) : List Nat := (s.vfs.filter (fun kv => kv.2.live)).map Prod.fst

/-- Refresh and idle power of a stack (R232). -/
def State.stackCost (s : State) (stack cost : Nat) : State :=
  s.divide cost (hbmBytes / 2) (s.liveVfs.map (fun v => (v, s.bytesOn v stack)))

/-- Leakage of a core (R232): by run time among the VFs of the leaf that owns it, equally where none ran. -/
def State.coreCost (s : State) (c cost : Nat) : State :=
  match s.leaves.find? (fun kl => kl.2.conf.cores.contains c) with
  | none => s.shareHouse cost
  | some (n, _) =>
    let vs := s.vfsOf n
    let ran := vs.map (fun v => (v, (Store.rd (s.vf v).runtime c).toNat))
    let total := ran.foldl (fun a x => a + x.2) 0
    if vs.isEmpty then s.shareHouse cost
    else if total = 0 then s.divide cost vs.length (vs.map (fun v => (v, 1)))
    else s.divide cost total ran

/-- Quotas that shares have exhausted (R236). -/
def State.checkQuotas (s : State) : State := s.liveVfs.foldl (fun s v => s.checkAccounts none (some v)) s

/-- The interval of the meter firmware (R232, R233). -/
def intervalNs : Nat := 1000000

/-- SHARED_COSTS: once in every interval. The figures in fJ, by stack and by core, that of the uncore and that of the firmware's own
work (fault handling, reconciliation, throttling), come from the device's sensors and its leakage model. -/
def State.sharedCosts (s : State) : Option State :=
  match s.input with
  | some (.sharedCosts perStack perCore uncore firmware) =>
    if s.now < s.dev.sharedAt + intervalNs then none
    else
    let s := s.modDev (fun d => { d with sharedAt := s.now })
    let s := perStack.zipIdx.foldl (fun s ci => s.stackCost ci.2 ci.1) s
    let s := perCore.zipIdx.foldl (fun s ci => s.coreCost ci.2 ci.1) s
    let s := (s.shareHouse uncore).shareHouse firmware
    some { s with vfs := s.vfs.map (fun (kv : Nat × Vf) => (kv.1, { kv.2 with runtime := [] })) }.checkQuotas
  | _ => none

def execSharedCosts (s : State) : Host.Outcome State Fault Refusal := event s.sharedCosts

/-! ## Reconciliation -/

/-- A signed share of the residual to a VF account. -/
def State.residualVf (s : State) (v : Nat) (neg : Bool) (c : Nat) : State :=
  if neg then s.modVf v (fun f => { f with acct := f.acct.sub c }) else s.shareVf v c

def State.residualHouse (s : State) (neg : Bool) (c : Nat) : State :=
  s.modDev (fun d => { d with house := if neg then d.house.sub c else d.house.add c })

/-- Every weighbridge is under the calibration check (R234, R317). -/
def State.testWeighbridges (s : State) : State :=
  (List.range (hubTile + 1)).foldl (fun s t => s.outOfService (.weighbridge t)) s

/-- RECONCILIATION: at the end of an interval, its measured energy in fJ against the sum of its charges (R233, R234). -/
def State.reconcile (s : State) : Option State :=
  match s.input with
  | some (.reconciliation em) =>
    if s.now < s.dev.intervalStart + intervalNs then none
    else
    let s := s.posting.getD s
    let ec := s.dev.interval
    let neg := decide (em < ec)
    let r := absDiff em ec
    let total := s.liveVfs.foldl (fun a v => a + (s.vf v).dyn) 0
    let near := decide (r * 50 ≤ em)
    let s :=
      if near && total != 0 then
        let shares := s.liveVfs.map (fun v => (v, r * (s.vf v).dyn / total))
        let given := shares.foldl (fun a x => a + x.2) 0
        (shares.foldl (fun s x => s.residualVf x.1 neg x.2) s).residualHouse neg (r - given)
      else s.residualHouse neg r
    let s := if near then s
      else (s.testWeighbridges.audit 0x09 srcErrors noVf noPart (s.dev.intervalStart + r / 1000000 * 2 ^ 64 + (if neg then 2 ^ 128 else 0))).modDev
        (fun d => { d with meterLog := d.meterLog ++ [d.intervalStart] })
    let s := { s with vfs := s.vfs.map (fun (kv : Nat × Vf) => (kv.1, { kv.2 with dyn := 0 })) }.modDev (fun d =>
      { d with interval := 0, intervalStart := s.now })
    some s.checkQuotas
  | _ => none

def execReconciliation (s : State) : Host.Outcome State Fault Refusal := event s.reconcile

/-! ## Throttling -/

/-- Steps of 25 MHz from the nominal 2.1 GHz to the floor of 1.2 GHz (R25). -/
def throttleFloor : Nat := 36

/-- A step of a die's clock: down to the floor, then idle slots of the gang saws; up in the opposite order. -/
def Die.step (d : Die) (down : Bool) : Die :=
  if down then (if d.throttle < throttleFloor then { d with throttle := d.throttle + 1 } else { d with idleSlots := true })
  else if d.idleSlots then { d with idleSlots := false } else { d with throttle := d.throttle - 1 }

def State.throttleStep (s : State) : Option State :=
  match s.input with
  | some (.throttleStep die down cause) =>
    some ((s.modDie die (fun d => d.step down)).modDev (fun d => { d with throttleLog := d.throttleLog ++ [(cause, die, s.now)] }))
  | _ => none

def execThrottleStep (s : State) : Host.Outcome State Fault Refusal := event s.throttleStep

/-- Bit of the ready map of a die: 0 to 7 compute dies, 8 the collective die (R315). -/
def dieReady (d : Nat) : BitVec 64 := if d < 8 then 1#64 <<< (9 + d) else if d = 8 then 1#64 <<< 33 else 0

/-- A junction reaches its shutdown threshold: all work stops, the error is recorded, the dies' ready bits are cleared (R28). -/
def State.thermalShutdown (s : State) : Option State :=
  match s.input with
  | some (.thermalShutdown dies) =>
    some ((s.audit 0x0A srcErrors noVf noPart (dies.foldl (fun a d => a ||| 2 ^ d) 0)).modDev (fun x =>
      { x with shut := true, ready := dies.foldl (fun r d => r &&& ~~~dieReady d) x.ready }))
  | _ => none

def execThermalShutdown (s : State) : Host.Outcome State Fault Refusal := event s.thermalShutdown

end Sys2Proof.Machine
end

