-- ==== Sys2Proof/Machine/Sha.lean ====
section
/-! DEFINITION. SHA-512, the hash of the root of trust (R141, R305 to R308), as FIPS 180-4 defines it; the spec names the
function only (log 67). The hash state is one vector of eight words, the message schedule a window of sixteen, the first word
in the highest bits of each; a digest is held with its first byte in the highest bits. -/

namespace Sys2Proof

/-- Word `i` of a vector of `n` words, counted from the highest. -/
def shaWord {w : Nat} (v : BitVec w) (n i : Nat) : BitVec 64 := v.extractLsb' (64 * (n - 1 - i)) 64

/-- The hash state before the first block. -/
def shaStart : BitVec 512 :=
  0x6a09e667f3bcc908bb67ae8584caa73b3c6ef372fe94f82ba54ff53a5f1d36f1510e527fade682d19b05688c2b3e6c1f1f83d9abfb41bd6b5be0cd19137e2179

/-- Round constants 0 to 9. -/
def shaTable0 : BitVec 640 :=
  0x428a2f98d728ae227137449123ef65cdb5c0fbcfec4d3b2fe9b5dba58189dbbc3956c25bf348b53859f111f1b605d019923f82a4af194f9bab1c5ed5da6d8118d807aa98a303024212835b0145706fbe

/-- Round constants 10 to 19. -/
def shaTable1 : BitVec 640 :=
  0x243185be4ee4b28c550c7dc3d5ffb4e272be5d74f27b896f80deb1fe3b1696b19bdc06a725c71235c19bf174cf692694e49b69c19ef14ad2efbe4786384f25e30fc19dc68b8cd5b5240ca1cc77ac9c65

/-- Round constants 20 to 29. -/
def shaTable2 : BitVec 640 :=
  0x2de92c6f592b02754a7484aa6ea6e4835cb0a9dcbd41fbd476f988da831153b5983e5152ee66dfaba831c66d2db43210b00327c898fb213fbf597fc7beef0ee4c6e00bf33da88fc2d5a79147930aa725

/-- Round constants 30 to 39. -/
def shaTable3 : BitVec 640 :=
  0x06ca6351e003826f142929670a0e6e7027b70a8546d22ffc2e1b21385c26c9264d2c6dfc5ac42aed53380d139d95b3df650a73548baf63de766a0abb3c77b2a881c2c92e47edaee692722c851482353b

/-- Round constants 40 to 49. -/
def shaTable4 : BitVec 640 :=
  0xa2bfe8a14cf10364a81a664bbc423001c24b8b70d0f89791c76c51a30654be30d192e819d6ef5218d69906245565a910f40e35855771202a106aa07032bbd1b819a4c116b8d2d0c81e376c085141ab53

/-- Round constants 50 to 59. -/
def shaTable5 : BitVec 640 :=
  0x2748774cdf8eeb9934b0bcb5e19b48a8391c0cb3c5c95a634ed8aa4ae3418acb5b9cca4f7763e373682e6ff3d6b2b8a3748f82ee5defb2fc78a5636f43172f6084c87814a1f0ab728cc702081a6439ec

/-- Round constants 60 to 69. -/
def shaTable6 : BitVec 640 :=
  0x90befffa23631e28a4506cebde82bde9bef9a3f7b2c67915c67178f2e372532bca273eceea26619cd186b8c721c0c207eada7dd6cde0eb1ef57d4f7fee6ed17806f067aa72176fba0a637dc5a2c898a6

/-- Round constants 70 to 79. -/
def shaTable7 : BitVec 640 :=
  0x113f9804bef90dae1b710b35131c471b28db77f523047d8432caab7b40c724933c9ebe0a15c9bebc431d67c49c100d4c4cc5d4becb3e42b6597f299cfc657e2a5fcb6fab3ad6faec6c44198c4a475817

/-- The constant of a round. -/
def shaConst (t : Nat) : BitVec 64 :=
  let rows : List (BitVec 640) := [shaTable0, shaTable1, shaTable2, shaTable3, shaTable4, shaTable5, shaTable6, shaTable7]
  shaWord ((rows[t / 10]?).getD 0) 10 (t % 10)

/-- Two rotations of a word and a third image of it, added without carry: the form of the four functions of one word. -/
def shaSpread (x : BitVec 64) (i j : Nat) (y : BitVec 64) : BitVec 64 := x.rotateRight i ^^^ x.rotateRight j ^^^ y

/-- Bit by bit: the second word where the first has a one, else the third. -/
def shaPick (x y z : BitVec 64) : BitVec 64 := z ^^^ (x &&& (y ^^^ z))

/-- Bit by bit: what two of three words hold. -/
def shaMost (x y z : BitVec 64) : BitVec 64 := shaPick (x ^^^ y) z x

/-- One round on the hash state and the window of the schedule, whose first word is the round's. -/
def shaTurn (t : Nat) (s : BitVec 512 × BitVec 1024) : BitVec 512 × BitVec 1024 :=
  let a := shaWord s.1 8 0
  let e := shaWord s.1 8 4
  let x := shaWord s.2 16 1
  let y := shaWord s.2 16 14
  let add := shaWord s.1 8 7 + shaSpread e 14 18 (e.rotateRight 41) + shaPick e (shaWord s.1 8 5) (shaWord s.1 8 6) +
    (shaConst t + shaWord s.2 16 0)
  let top := add + (shaSpread a 28 34 (a.rotateRight 39) + shaMost a (shaWord s.1 8 1) (shaWord s.1 8 2))
  let mid := shaWord s.1 8 3 + add
  let next := shaWord s.2 16 0 + shaSpread x 1 8 (x >>> 7) + shaWord s.2 16 9 + shaSpread y 19 61 (y >>> 6)
  (top ++ s.1.extractLsb' 320 192 ++ mid ++ s.1.extractLsb' 64 192, s.2.extractLsb' 0 960 ++ next)

/-- The rounds from `t` on. -/
def shaTurns : (fuel t : Nat) → BitVec 512 × BitVec 1024 → BitVec 512
  | 0, _, s => s.1
  | f + 1, t, s => shaTurns f (t + 1) (shaTurn t s)

/-- Addition word by word. -/
def shaPlus (u v : BitVec 512) : BitVec 512 :=
  (List.range 8).foldl (fun r i => r <<< 64 ||| (shaWord u 8 i + shaWord v 8 i).setWidth 512) 0

/-- Big-endian value of bytes. -/
def ofBytesBe (bs : List Byte) : Nat := bs.foldl (fun a b => a * 256 + b.toNat) 0

/-- The `n` big-endian bytes of a value. -/
def bytesBe (n v : Nat) : List Byte := (bytesOf n v).reverse

/-- The hash state after the blocks of 128 bytes of a padded message. -/
def shaOver : (fuel : Nat) → List Byte → BitVec 512 → BitVec 512
  | 0, _, h => h
  | f + 1, m, h => shaOver f (m.drop 128) (shaPlus h (shaTurns 80 0 (h, BitVec.ofNat 1024 (ofBytesBe (m.take 128)))))

/-- The digest of a message: a one bit, zeros and the length in bits fill its last block. -/
def sha512 (m : List Byte) : BitVec 512 :=
  let blocks := (m.length + 17 + 127) / 128
  let fill := 128 * blocks - m.length - 16
  shaOver blocks (m ++ bytesBe fill (2 ^ (8 * fill - 1)) ++ bytesBe 16 (8 * m.length)) shaStart

/-- The 64 bytes of a digest in order. -/
def digestBytes (d : BitVec 512) : List Byte := bytesBe 64 d.toNat

end Sys2Proof
end

