-- ==== Sys2Proof/Machine/Trust.lean ====
section
/-! DEFINITION. The root of trust and the firmware it measures: the audit log with its seals (R308 to R311), SCRUB_COMPLETE (R313),
measured boot and bring-up (R305, R306, R315), firmware versions (R287), errors and self-tests (R316, R317). -/

namespace Sys2Proof.Machine

open Sys2Proof

/-! ## The audit log -/

/-- Records that the log holds. -/
def auditSlots : Nat := 16384
/-- Records held at which the log is full for assignments (R310). -/
def auditLimit : Nat := 16128

/-- Types that may use the last 256 records. -/
def auditReserved (typ : BitVec 8) : Bool := typ == 0x05 || typ == 0x06 || typ == 0x07 || typ == 0x0A

/-- The log has room for a record of a type. -/
def Device.auditRoom (d : Device) (typ : BitVec 8) : Bool :=
  decide (d.audit.length < (if auditReserved typ then auditSlots else auditLimit))

/-- The log is full for assignments (R310). -/
def Device.auditFull (d : Device) : Bool := decide (auditLimit ≤ d.audit.length)

/-- The first 64 bytes of a record (R308). -/
def auditHead (seq now : Nat) (r : AuditReq) : Nat :=
  seq % 2 ^ 64 + now % 2 ^ 64 * 2 ^ 64 + r.typ.toNat * 2 ^ 128 + r.src.toNat * 2 ^ 136 + r.vf.toNat * 2 ^ 144 +
    r.part.toNat * 2 ^ 155 + r.payload.toNat * 2 ^ 192

/-- A record is freed once its SEQ is below DRAINED and a seal covers it (R310). -/
def Device.freeRecords (d : Device) : Device :=
  { d with audit := d.audit.filter (fun r =>
      !(decide (r.seq < d.drained) && d.seals.any (fun x => decide (r.seq ≤ x.2.seq.toNat)))) }

/-- Seal the log (R309): the latest CHAIN is signed into the next of 32 slots. -/
def Device.seal (d : Device) : Device :=
  if d.auditNext = 0 then d
  else
    let g := Config.sign d.chain
    let x : Seal := { seq := BitVec.ofNat 64 (d.auditNext - 1), r := g.extractLsb' 528 528, s := g.extractLsb' 0 528 }
    { d with seals := SMap.put d.seals (d.sealNext % 32) x, sealNext := d.sealNext + 1 }.freeRecords

/-- Append a record: SEQ, TIME and CHAIN are the root's; every 1,024th record seals the log. -/
def Device.append (d : Device) (now : Nat) (r : AuditReq) : Device :=
  let head := bytesOf 64 (auditHead d.auditNext now r)
  let chain := sha512 (d.prior ++ head)
  let bytes := head ++ digestBytes chain
  let d := { d with
    audit := d.audit ++ [{ seq := d.auditNext, bytes := BitVec.ofNat 1024 (ofBytes bytes) }]
    auditNext := d.auditNext + 1, chain := chain, prior := bytes }
  if d.auditNext % 1024 = 0 then d.seal else d

/-- The record that reports lost ones (R311). -/
def lostRecord (n : Nat) : AuditReq :=
  { typ := 0x0C, src := srcRoot, vf := noVf, part := noPart, payload := BitVec.ofNat 320 n }

/-- AUDIT_APPEND: the first request for which the log has room is appended, after a record of lost ones where some were lost; an
error record for which there is none is lost. -/
def State.auditAppend (s : State) : Option State :=
  let d := s.dev
  if d.lost != 0 && decide (d.audit.length < auditSlots) then some { s with dev := { d.append s.now (lostRecord d.lost) with lost := 0 } }
  else match d.auditQ.find? (fun r => d.auditRoom r.typ) with
    | some r => some { s with dev := { d with auditQ := d.auditQ.erase r }.append s.now r }
    | none =>
      match d.auditQ.find? (fun r => r.typ == 0x06) with
      | some r => some { s with dev := { d with auditQ := d.auditQ.erase r, lost := d.lost + 1 } }
      | none => none

def execAuditAppend (s : State) : Host.Outcome State Fault Refusal := event s.auditAppend

/-- DRAINED moves only upward (R310). -/
def State.drainedWrite (s : State) : Option State :=
  match s.input with
  | some (.drainedWrite v) => some (s.modDev (fun d => { d with drained := max d.drained v.toNat }.freeRecords))
  | _ => none

def execDrainedWrite (s : State) : Host.Outcome State Fault Refusal := event s.drainedWrite

/-- A PF request to seal (R309). -/
def State.sealRequest (s : State) : Option State :=
  match s.input with
  | some .sealreq => some (s.modDev Device.seal)
  | _ => none

def execSealreq (s : State) : Host.Outcome State Fault Refusal := event s.sealRequest

/-- SCRUB_COMPLETE: the scrub's record is appended with die, core and LTAG, and the core may be placed on (R311, R313). Requests
made before it that the log has room for come first. -/
def State.scrubDone (s : State) (c : Nat) : Option State :=
  match (s.core c).scrub with
  | some (.record l) =>
    let d := s.dev
    if d.auditQ.any (fun r => d.auditRoom r.typ) || d.lost != 0 || !d.auditRoom 0x05 then none
    else
      let r : AuditReq :=
        { typ := 0x05, src := srcTrust, vf := BitVec.ofNat 11 (launchVf l), part := noPart
          payload := BitVec.ofNat 320 (dieOf c + c % 16 * 2 ^ 8 + l % 2 ^ 14 * 2 ^ 16) }
      some ({ s with dev := d.append s.now r }.modCore c (fun k => { k with scrub := none }))
  | _ => none

def execScrubComplete (core : Nat) (s : State) : Host.Outcome State Fault Refusal := event (s.scrubDone core)

/-! ## Measured boot (R305, R306, R315) -/

/-- Extend a measurement register (R306). -/
def Device.extend (d : Device) (m : Nat) (digest : BitVec 512) : Device :=
  { d with measures := Store.wr d.measures m (sha512 (digestBytes (Store.rd d.measures m) ++ digestBytes digest)) }

/-- Boot the firmware stages from `m` on: a stage whose signature verifies is measured and run; one that does not, and all that it
would have verified, is not run (R305). Stage 1 is the first stage, 2 to 9 are the firmware functions. -/
def bootStages (now : Nat) : (fuel m : Nat) → Device → Device
  | 0, _, d => d
  | f + 1, m, d =>
    let img := Config.bootImage m
    let rec_ (typ : BitVec 8) : AuditReq :=
      { typ := typ, src := srcRoot, vf := noVf, part := noPart, payload := BitVec.ofNat 320 m }
    if Config.imageOk img then bootStages now f (m + 1) ((d.extend m img).append now (rec_ 0x01))
    else { d.append now (rec_ 0x06) with failed := (List.range 8).filterMap (fun i => if m ≤ i + 2 then some (i + 1) else none) }

/-- The bytes that the calibrated coefficient set is measured by: its 24 coefficients of 8 B (log 7). -/
def coefBytes : List Byte := (List.range 24).flatMap (fun c => bytesOf 8 (Config.coef c))

/-- The state after device reset and measured boot: every register at its reset value; host memory is not the device's. -/
def State.booted (s : State) : State :=
  let d : Device := ({} : Device).extend 0 (Config.bootImage 0)
  let d := (bootStages 0 9 1 d).extend 10 (sha512 coefBytes)
  { State.reset with
    tick := s.tick, nextId := s.nextId, inbox := s.inbox, mem := s.mem.filter (fun kv => isHost kv.1), dev := d }

/-- DEVICE_RESET. -/
def State.deviceReset (s : State) : Option State :=
  match s.input with
  | some .deviceReset => some s.booted
  | _ => none

def execDeviceReset (s : State) : Host.Outcome State Fault Refusal := event s.deviceReset

/-- UNIT_BRINGUP: a unit has passed its bring-up; one whose firmware stage failed keeps its bit clear. -/
def State.unitBringup (s : State) : Option State :=
  match s.input with
  | some (.unitBringup bit) =>
    some (if 50 < bit || s.dev.failed.contains bit then s
      else s.modDev (fun d => { d with ready := d.ready ||| (1#64 <<< bit) }))
  | _ => none

def execUnitBringup (s : State) : Host.Outcome State Fault Refusal := event s.unitBringup

/-! ## Firmware versions (R287, R306) -/

/-- Versions that VFs have pinned. -/
def State.pinned (s : State) : List (BitVec 8) := (s.vfs.filter (fun kv => kv.2.live)).map (fun kv => kv.2.pinver)

/-- Load a policy image: at most 4 versions are held, and one that a VF has pinned stays. -/
def State.loadPolicy (s : State) (ver : BitVec 8) : Option (List (BitVec 8)) :=
  let held := s.dev.images
  if held.contains ver then some held
  else if held.length < 4 then some (held ++ [ver])
  else (held.find? (fun v => !s.pinned.contains v)).map (fun v => held.erase v ++ [ver])

/-- FIRMWARE_UPDATE: an image whose signature verifies is measured and logged; TDIs keep their states. -/
def State.firmwareUpdate (s : State) : Option State :=
  match s.input with
  | some (.firmwareUpdate w image) =>
    let dg := sha512 image
    let log (s : State) (n : Nat) : State := s.audit 0x02 srcRoot noVf noPart (n + dg.toNat % 2 ^ 256 * 2 ^ 64)
    some (if !Config.imageOk dg then s
      else match w with
        | .function n =>
          if n < 8 then
            log (s.modDev (fun d => { d.extend (2 + n) dg with monitor := if n = 7 then d.monitor + 1 else d.monitor })) n
          else s
        | .policy ver =>
          match s.loadPolicy (BitVec.ofNat 8 ver) with
          | some l => log (s.modDev (fun d => { d.extend 12 dg with images := l })) (2 ^ 32 + ver)
          | none => s)
  | _ => none

def execFirmwareUpdate (s : State) : Host.Outcome State Fault Refusal := event s.firmwareUpdate

/-! ## Errors (R316, R317) -/

/-- ERROR_DETECTED: the error is recorded; bytes without a correct value are marked with the record's number; the unit is out of
service until its self-test ends. -/
def State.errorDetected (s : State) : Option State :=
  match s.input with
  | some (.errorDetected unit kind syn bad) =>
    let n := s.nextRecord
    let s := (s.errorRecord unit kind syn).outOfService unit
    some (if bad.isEmpty then s else { s with poison := s.poison ++ [(n, bad)] })
  | _ => none

def execErrorDetected (s : State) : Host.Outcome State Fault Refusal := event s.errorDetected

/-- What a self-test that finds a lasting fault does to its unit: an array's launch ends with MACHINE_CHECK and its core is
retired (R208), a bank without spares or a lane is degraded, a weighbridge's charges go to the house account. -/
def State.lasting (s : State) (unit : UnitId) : State :=
  match unit with
  | .array c =>
    let s := s.modCore c (fun m => { m with retired := true })
    -- the die's ready bit stays while a core of the die remains
    let s := if (List.range 16).all (fun i => (s.core (dieOf c * 16 + i)).retired) then
        s.modDev (fun d => { d with ready := d.ready &&& ~~~(1#64 <<< (9 + dieOf c)) })
      else s
    (match (s.core c).team with
    | some t => s.kill (teamLaunch t) 0x38 false
    | none => s)
  | .sram b => if Config.spareLeft b then s else s.modDev (fun d => { d with degraded := d.degraded ++ [unit] })
  | .lane _ _ => s.modDev (fun d => { d with degraded := d.degraded ++ [unit] })
  | .weighbridge t => s.modDev (fun d => { d with badMeters := d.badMeters ++ [t] })

/-- The test that ends: one whose result is given, else that of the unit longest under test, with a free result (log 79). -/
def State.testEnds (s : State) : Option (UnitId × Bool) :=
  match s.input with
  | some (.selfTest unit bad) => some (unit, bad)
  | _ => s.dev.testing.head?.map (fun u => (u, Config.freeBool s.tick 317))

/-- SELF_TEST: the result is recorded, and the unit returns or is given up. -/
def State.selfTest (s : State) : Option State :=
  match s.testEnds with
  | some (unit, bad) =>
    let s := s.audit 0x07 srcErrors noVf noPart (unitCode unit + (if bad then 2 ^ 32 else 0))
    let s := s.modDev (fun d => { d with testing := d.testing.erase unit })
    let s := match unit with
      | .array c => s.modCore c (fun m => { m with sawHeld := false })
      | _ => s
    some (if bad then s.lasting unit else s)
  | none => none

def execSelfTest (s : State) : Host.Outcome State Fault Refusal := event s.selfTest

end Sys2Proof.Machine
end

