-- ==== Sys2Proof/Machine/Functions.lean ====
section
/-! DEFINITION. Functions and partitions: TDIs (R282), PARTITION_CONFIGURATION (R278), VF_CREATION, VF_RESET, VF_RELEASE (R230, R287,
R312), STAGE2_CHANGE (R141), MAPPING_REQUEST (R72, R116), SUPV_WRITE (R282). -/

namespace Sys2Proof.Machine

open Sys2Proof

/-! ## TDIs (R282) -/

/-- Launches of a VF. -/
def State.launchesOf (s : State) (v : Nat) : List Nat := (SMap.keys s.launches).filter (fun l => launchVf l == v)

/-- Kill every launch of a VF. -/
def State.killVf (s : State) (v : Nat) (cause : BitVec 8) : State := (s.launchesOf v).foldl (fun s l => s.kill l cause false) s

/-- A queue stops: what has been chosen and has not started is given up; a WAITSIG ends without a record. -/
def Queue.stop (q : Queue) : Queue := { q with en := false, next := none, waiting := none, waitsig := none, read := false }

/-- The queues of a function stop. -/
def State.stopQueues (s : State) (fn : Nat) : State :=
  s.modFn fn (fun f => { f with queues := f.queues.map (fun (q : Nat × Queue) => (q.1, q.2.stop)) })

/-- Record a change of a TDI's state. -/
def State.setTdi (s : State) (v : Nat) (t : Tdi) : State :=
  let code : Nat := match t with | .unlocked => 0 | .locked => 1 | .run => 2 | .error => 3
  (s.modVf v (fun f => { f with tdi := t })).audit 0x0B srcMonitor (BitVec.ofNat 11 v) noPart code

/-- What ERROR and STOP_INTERFACE do to a VF: launches killed with cause 0x38, to be swept and scrubbed; queues stopped. -/
def State.stopVf (s : State) (v : Nat) : State := (s.killVf v 0x38).stopQueues v

/-- A TDI goes to ERROR. -/
def State.tdiError (s : State) (v : Nat) : State := if (s.vf v).tdi == .error then s else (s.stopVf v).setTdi v .error

/-- Bound TDIs of a stream go to ERROR (R280, R282). -/
def State.streamError (s : State) (n : Nat) : State :=
  ((s.vfs.filter (fun kv => kv.2.live && kv.2.stream == some n)).map Prod.fst).foldl State.tdiError s

/-- The fields that LOCK_INTERFACE locks are locked. -/
def Vf.isLocked (f : Vf) : Bool := f.tdi == .locked || f.tdi == .run

/-! ## Partitions (R278) -/

def nth (l : List Nat) (i : Nat) : Nat := (l[i]?).getD 0
def total (l : List Nat) : Nat := l.foldl (· + ·) 0

/-- No number occurs twice. -/
def distinct (l : List Nat) : Bool := l.length == l.eraseDups.length

/-- Units of 2 MiB of a stack. -/
def stackUnits : Nat := hbmBytes / 2 / 2 ^ 21

/-- A leaf by itself: at least one L2 way on every die where it has cores, a time budget of 1 to 1,000 µs, a frame for each core
within its HBM. -/
def leafOk (l : LeafConf) : Bool :=
  l.cores.all (fun c => decide (c < 128)) && distinct l.cores &&
  l.cores.all (fun c => decide (1 ≤ nth l.l2ways (dieOf c))) &&
  decide (1 ≤ l.time) && decide (l.time ≤ 1000) && decide (l.cores.length ≤ l.pool) &&
  decide (3 * l.pool ≤ total l.hbm) && l.dsp.all (fun d => d % 65536 == 0)

/-- A partition holds what its children hold together. -/
def partOk (p : PartConf) (ls : List LeafConf) : Bool :=
  let fits (f : LeafConf → List Nat) (g : List Nat) (n : Nat) : Bool :=
    (List.range n).all (fun i => decide (total (ls.map (fun l => nth (f l) i)) ≤ nth g i))
  ls.all (fun l => l.cores.all p.cores.contains && decide (l.time ≤ p.time)) &&
  fits LeafConf.hbm p.hbm 16 && fits LeafConf.l2ways p.l2ways 8 && fits LeafConf.dsp p.dsp 8 &&
  decide (total (ls.map LeafConf.bandwidth) ≤ p.bandwidth) && decide (total (ls.map LeafConf.pool) ≤ p.pool)

/-- A configuration that keeps the rules of R278, on a device with a ready map (R315). -/
def confOk (ready : BitVec 64) (c : PartitionConf) : Bool :=
  let ls := c.leaves.map Prod.snd
  decide (c.parts.length ≤ 16) && decide (c.leaves.length ≤ 64) &&
  distinct (c.parts.map Prod.fst) && distinct (c.leaves.map Prod.fst) &&
  c.parts.all (fun p => decide (p.1 < 16)) && c.leaves.all (fun l => decide (l.1 < 64)) &&
  ls.all leafOk && distinct (ls.flatMap LeafConf.cores) && distinct (c.parts.flatMap (fun p => p.2.cores)) &&
  c.leaves.all (fun l => c.parts.any (fun p => p.1 == l.2.parent)) &&
  c.parts.all (fun p => partOk p.2 ((c.leaves.filter (fun l => l.2.parent == p.1)).map Prod.snd)) &&
  (List.range 8).all (fun d => decide (total (c.parts.map (fun p => nth p.2.l2ways d)) ≤ 16) &&
    decide (total (c.parts.map (fun p => nth p.2.dsp d)) ≤ dspBytes)) &&
  (List.range 16).all (fun i =>
    let n := total (c.parts.map (fun p => nth p.2.hbm i))
    decide (n ≤ stackUnits) && (n == 0 || ready.getLsbD (17 + i)))

/-- The leaf that owns a core in a list of leaves. -/
def ownerOf (ls : List (Nat × LeafConf)) (c : Nat) : Option Nat := (ls.find? (fun l => l.2.cores.contains c)).map Prod.fst

/-- Bytes that a configuration is measured by (the model's own layout, log 70). -/
def confBytes (c : PartitionConf) : List Byte :=
  let num (n : Nat) : List Byte := bytesOf 8 n
  let nums (l : List Nat) : List Byte := num l.length ++ l.flatMap num
  c.parts.flatMap (fun p => num p.1 ++ nums p.2.cores ++ nums p.2.hbm ++ nums p.2.l2ways ++ nums p.2.dsp ++
    num p.2.bandwidth ++ num p.2.time ++ num p.2.pool) ++
  c.leaves.flatMap (fun l => num l.1 ++ num l.2.parent ++ nums l.2.cores ++ nums l.2.hbm ++ nums l.2.l2ways ++ nums l.2.dsp ++
    num l.2.bandwidth ++ num l.2.time ++ num l.2.pool)

/-- A scrub that follows no launch: its record names no VF. -/
def noLaunch : Nat := launchKey 0x7FF 0

/-- Leaves whose resources a configuration changes. -/
def State.changed (s : State) (c : PartitionConf) : List Nat :=
  ((SMap.keys s.leaves ++ c.leaves.map Prod.fst).eraseDups).filter (fun n =>
    (s.leaf n).map Leaf.conf != (c.leaves.find? (fun l => l.1 == n)).map Prod.snd)

/-- Tables of a stage 2 tree. -/
def s2Tables (mem : Memory) : (fuel lvl table : Nat) → List Nat
  | 0, _, _ => []
  | f + 1, lvl, table =>
    table :: (List.range (if lvl = 4 then 32 else 512)).flatMap (fun i =>
      let e := Store.load mem (table + 8 * i) 8
      if fld e 0 1 = 0 || fld e 1 1 = 1 || s2Bad lvl e then [] else s2Tables mem f (lvl + 1) (entryOut e))

/-- Largest supervisor image. -/
def supvMax : Nat := 2 ^ 18

/-- A share of some leaf, taken by `f` at place `i`, shrinks: what it held moves. -/
def shrinks (old new : List (Nat × LeafConf)) (f : LeafConf → List Nat) (i : Nat) : Bool :=
  old.any (fun l => decide (nth ((new.find? (fun m => m.1 == l.1)).elim [] (fun m => f m.2)) i < nth (f l.2) i))

/-- Stack of a byte of device memory: the two stacks of a die take 4 KiB in turn (R15). -/
def stackOf (a : Nat) : Nat := 2 * homeDie a + a / 4096 % 2

/-- The HBM and die-scratchpad bytes that move between leaves become zero (R278, R312): of the stacks and dies where a share shrinks,
what no VF, stage 2 table or supervisor image and no allocation takes up (log 102). -/
def State.scrubShares (s : State) (old new : List (Nat × LeafConf)) : State :=
  let vs := s.liveVfs
  let kept := vs.flatMap (fun v => s2Pages s.mem 5 0 (s.vf v).s2root ++ (s2Tables s.mem 5 0 (s.vf v).s2root).map (fun t => (t, 4096)))
  let inKept (a : Nat) : Bool := decide (hbmTotal - 1024 * supvMax ≤ a) || kept.any (fun p => decide (p.1 ≤ a) && decide (a < p.1 + p.2))
  { s with
    mem := s.mem.filter (fun ab => !isDev ab.1 || inKept ab.1 || !shrinks old new LeafConf.hbm (stackOf ab.1))
    dies := s.dies.map (fun (kd : Nat × Die) => (kd.1, if !shrinks old new LeafConf.dsp kd.1 then kd.2
      else { kd.2 with dsp := kd.2.dsp.filter (fun ab => kd.2.dspAlloc.any (fun l => decide (l.2.1 ≤ ab.1) && decide (ab.1 < l.2.1 + l.2.2))) })) }

/-- PARTITION_CONFIGURATION: applied whole, or refused whole. Cores and shares that move between leaves are scrubbed first; TDIs of the
changed leaves that are locked go to ERROR. -/
def State.partitionConf (s : State) : Option State :=
  match s.input with
  | some (.partitionConfiguration c) =>
    let ns := s.changed c
    let busy := s.launches.any (fun kl => ns.contains kl.2.leaf)
    if s.dev.auditFull || !confOk s.dev.ready c || busy then some s
    else
      let dg := sha512 (confBytes c)
      let old := s.leaves.map (fun kl => (kl.1, kl.2.conf))
      let moved := (List.range 128).filter (fun k => match ownerOf old k, ownerOf c.leaves k with
        | some a, some b => a != b
        | _, _ => false)
      let s := moved.foldl (fun s k => s.modCore k (fun m => m.scrubbed noLaunch)) s
      let s := s.scrubShares old c.leaves
      let s := ((s.vfs.filter (fun kv => kv.2.live && kv.2.isLocked && ns.contains kv.2.leaf.toNat)).map Prod.fst).foldl State.tdiError s
      let put (m : SMap Leaf) (l : Nat × LeafConf) : SMap Leaf :=
        SMap.put m l.1 (match s.leaf l.1 with | some x => { x with conf := l.2 } | none => { conf := l.2 })
      let s := { s with leaves := c.leaves.foldl put [] }
      some ((s.modDev (fun d => { d.extend 13 dg with parts := c.parts })).audit 0x03 srcMonitor noVf noPart (dg.toNat % 2 ^ 256))
  | _ => none

def execPartitionConfiguration (s : State) : Host.Outcome State Fault Refusal := event s.partitionConf

/-! ## Stage 2 entries (R141) -/

/-- Entries of a stage 2 tree in ascending order of address, those that map nothing too. -/
def s2Entries (mem : Memory) : (fuel lvl table : Nat) → List Nat
  | 0, _, _ => []
  | f + 1, lvl, table =>
    (List.range (if lvl = 4 then 32 else 512)).flatMap (fun i =>
      let e := Store.load mem (table + 8 * i) 8
      if fld e 0 1 = 0 || fld e 1 1 = 1 || s2Bad lvl e then [e]
      else e :: s2Entries mem f (lvl + 1) (entryOut e))

/-- The digest over every stage 2 entry of the device. -/
def State.s2Digest (s : State) : BitVec 512 :=
  sha512 (s.liveVfs.flatMap (fun v => (s2Entries s.mem 5 0 (s.vf v).s2root).flatMap (bytesOf 8)))

/-- The stage 2 entries have changed: their digest is extended into register 11. -/
def State.measureS2 (s : State) : State :=
  let dg := s.s2Digest
  s.modDev (fun d => { d.extend 11 dg with s2digest := dg })

/-- A table belongs to the stage 2 tree of some VF. -/
def State.inStage2 (s : State) (table : Nat) : Bool :=
  s.liveVfs.any (fun v => (s2Tables s.mem 5 0 (s.vf v).s2root).contains table)

/-! ## Requests of the memory firmware (R72, R116, R150) -/

/-- Write the entry of a mapping request, after dropping the old translations. -/
def State.remap (s : State) (r : MapReq) : State :=
  let two := s.inStage2 r.table
  let s := (s.shootdown r.vf (r.page * 65536) 65536).homeWrite
    ((bytesOf 8 r.entry.toNat).zipIdx.map (fun bi => (r.table + 8 * r.index + bi.2, bi.1)))
  if two then s.measureS2 else s

/-- A request of the memory firmware: performed, or deferred while a record or a grant lies on its page. One that cannot wait
ends the VF's launches first. -/
def State.mapRequest (s : State) : Option State :=
  match s.input with
  | some (.mappingRequest r) =>
    let s := if r.force then
        ((SMap.keys s.launches).filter (fun l => launchVf l == r.vf)).foldl (fun s l => s.kill l 0x38 false) s
      else s
    some (if s.deferred r.vf (r.page * 65536) 65536 || !s.dev.mapReqs.isEmpty then
        s.modDev (fun d => { d with mapReqs := d.mapReqs ++ [r] })
      else s.remap r)
  | _ =>
    match s.dev.mapReqs.find? (fun r => !s.deferred r.vf (r.page * 65536) 65536) with
    | some r => some ((s.modDev (fun d => { d with mapReqs := d.mapReqs.erase r })).remap r)
    | none => none

def execMappingRequest (s : State) : Host.Outcome State Fault Refusal := event s.mapRequest

/-! ## VFs -/

/-- VF_CREATION: the account is clear, the policy image pinned; refused while the log is full for assignments (R310). -/
def State.vfCreation (s : State) : Option State :=
  match s.input with
  | some (.vfCreation v leaf policy root) =>
    let ver := BitVec.ofNat 8 policy
    if s.dev.auditFull || 1024 ≤ v || (s.vf v).live || (s.leaf leaf).isNone || !s.dev.images.contains ver then some s
    else
      let f : Vf := { live := true, leaf := BitVec.ofNat 6 leaf, pinver := ver, s2root := root }
      some (((s.setVf v f).setFn v {}).measureS2.audit 0x04 srcMonitor (BitVec.ofNat 11 v) (BitVec.ofNat 7 leaf) 1)
  | _ => none

def execVfCreation (s : State) : Host.Outcome State Fault Refusal := event s.vfCreation

/-- VF_RESET: the VF's launches end, its queues stop, and a policy image is pinned again (R287). -/
def State.vfReset (s : State) : Option State :=
  match s.input with
  | some (.vfReset v policy) =>
    let ver := BitVec.ofNat 8 policy
    if !(s.vf v).live || !s.dev.images.contains ver then some s
    else some ((s.stopVf v).modVf v (fun f => { f with pinver := ver }))
  | _ => none

def execVfReset (s : State) : Host.Outcome State Fault Refusal := event s.vfReset

/-- Pages of device memory that a VF maps and no other VF does. -/
def State.ownPages (s : State) (v : Nat) : List (Nat × Nat) :=
  let others := (s.liveVfs.filter (· != v)).flatMap (fun u => s2Pages s.mem 5 0 (s.vf u).s2root)
  (s2Pages s.mem 5 0 (s.vf v).s2root).filter (fun p => !others.any (fun o => meets p.1 p.2 o.1 o.2))

/-- The VF has nothing under way. -/
def State.vfIdle (s : State) (v : Nat) : Bool :=
  (s.launchesOf v).isEmpty && s.jobs.all (fun j => j.2.fn != v) && s.cores.all (fun c => c.2.scrub.all (fun x => launchVf x.launch != v))

/-- The end of a release (R312): orphan marks and the HBM that the VF owned go, its translations, windows and registers with
them. -/
def State.endRelease (s : State) (v : Nat) : State :=
  let pages := s.ownPages v
  let leaf := (s.vf v).leaf
  let s := { s with
    mem := pages.foldl (fun (m : Memory) (p : Nat × Nat) => Store.clear m p.1 p.2) s.mem
    poison := s.poison.filter (fun g => !g.2.all (fun a => pages.any (fun p => decide (p.1 ≤ a) && decide (a < p.1 + p.2))))
    cores := s.cores.map (fun (c : Nat × Core) => (c.1, { c.2 with
      tlb := c.2.tlb.filter (fun x => x.vf != v), l1 := c.2.l1.filter (fun x => x.vf != v)
      icache := c.2.icache.filter (fun x => x.vf != v), layouts := c.2.layouts.filter (fun x => x.1 != v) }))
    dies := s.dies.map (fun (d : Nat × Die) => (d.1, { d.2 with
      tlb := d.2.tlb.filter (fun x => x.vf != v), misses := d.2.misses.filter (fun m => m.vf != v)
      dropped := d.2.dropped.filter (· != v)
      claims := d.2.claims.filter (fun (c : Nat × ClaimEntry) => !(c.2.st == ClaimSt.orphan && c.2.vf == v)) })) }
  let s := s.modDev (fun d => { d with
    releasing := d.releasing.erase v, conns := d.conns.filter (fun c => c.2.vf != v), mcasts := d.mcasts.filter (fun m => m.2.vf != v)
    ckpts := d.ckpts.filter (· != v) })
  { s with vfs := SMap.del s.vfs v, fns := SMap.del s.fns v }.measureS2.audit 0x04 srcMonitor (BitVec.ofNat 11 v) (leaf.setWidth 7) 0

/-- VF_RELEASE: a request stops the VF; its end follows once its launches have been swept and its cores scrubbed. -/
def State.vfRelease (s : State) : Option State :=
  match s.input with
  | some (.vfRelease v) =>
    some (if (s.vf v).live then
        ((s.stopVf v).modVf v (fun f => { f with en := false })).modDev (fun d =>
          if d.releasing.contains v then d else { d with releasing := d.releasing ++ [v] })
      else s)
  | _ => (s.dev.releasing.find? s.vfIdle).map s.endRelease

def execVfRelease (s : State) : Host.Outcome State Fault Refusal := event s.vfRelease

/-! ## Stage 2 (R141) -/

/-- STAGE2_CHANGE: translations of the VF are dropped, the entries written, the digest extended into register 11. -/
def State.stage2Change (s : State) : Option State :=
  match s.input with
  | some (.stage2Change v ws) =>
    let s := s.shootdown v 0 (2 ^ 57)
    let s := ws.foldl (fun s w =>
      s.homeWrite ((bytesOf 8 w.entry.toNat).zipIdx.map (fun bi => (w.table + 8 * w.index + bi.2, bi.1)))) s
    some s.measureS2
  | _ => none

def execStage2Change (s : State) : Host.Outcome State Fault Refusal := event s.stage2Change

/-! ## SUPV (R282) -/

/-- Where the monitor keeps a VF's supervisor image: the top 256 MiB of HBM hold 256 KiB for each VF (log 69). -/
def supvHomeOf (v : Nat) : Nat := hbmTotal - 1024 * supvMax + v * supvMax

/-- The bytes of an image at a VF's virtual address, none where a page is not to be read. -/
def State.imageBytes (s : State) (v va len : Nat) : Option (List Byte) :=
  (List.range (cdiv len 64)).foldl (fun (o : Option (List Byte)) i =>
    o.bind (fun bs =>
      match s.walk v ((va + 64 * i) % 2 ^ 57) with
      | .ok x _ => if (x.deny (s.vf v) none .ld).isSome then none
        else some (bs ++ Store.bytes s.mem (x.at ((va + 64 * i) % 2 ^ 57)) (min 64 (len - 64 * i)))
      | _ => none)) (some [])

/-- SUPV_WRITE: verified and mapped, or refused with SUPV reading zero. It is honoured only in CONFIG_UNLOCKED with no launch in
flight; where SUPV is locked the TDI goes to ERROR. -/
def State.supvRequest (s : State) : Option State :=
  match s.input with
  | some (.supvWrite v va len key r sg) =>
    let f := s.vf v
    some (if f.isLocked then s.tdiError v
      else if f.tdi != .unlocked || !(s.launchesOf v).isEmpty then s
      else
        let none_ : State := (s.modVf v (fun f => { f with supvLen := 0, supvDigest := 0 })).modFn v (fun x => { x with supvVa := 0, supvLen := 0 })
        match (if len = 0 || supvMax < len then none else s.imageBytes v va.toNat len) with
        | none => none_
        | some bs =>
          let dg := sha512 bs
          if sha512 (bytesBe 133 key.toNat) != f.sigkey || !Config.verify key dg r sg then none_
          else
            let h := supvHomeOf v
            let s := { s with mem := Store.putBytes (Store.clear s.mem h supvMax) h bs }
            let s := { s with cores := s.cores.map (fun (c : Nat × Core) =>
              (c.1, { c.2 with icache := c.2.icache.filter (fun l => l.vf != v) })) }
            (s.modVf v (fun f => { f with supvLen := len, supvDigest := dg, supvHome := h })).modFn v (fun x =>
              { x with supvVa := va.setWidth 64, supvLen := BitVec.ofNat 64 len }))
  | _ => none

def execSupvWrite (s : State) : Host.Outcome State Fault Refusal := event s.supvRequest

end Sys2Proof.Machine
end

