-- ==== Sys2Proof/Machine/Mma.lean ====
section
/-! DEFINITION. Crews and the gang saw: MMA (R198, R424), capture (R199 to R201), completion with its checksums (R202 to R209),
the trees of R189 to R192, and the withdrawal of rendezvous (R82). -/

namespace Sys2Proof.Machine

open Sys2Proof

/-! ## Arrivals -/

/-- A crew has lost a member (R392): a member has ended. -/
def State.crewLost (s : State) (l : Launch) (t crew : Nat) : Bool :=
  (l.members crew).any (fun n => match s.group (groupKey t n) with | some g => g.res == .ended | none => true)

/-- Arrivals of the members of a crew at MMA (`mma`) or FTILE, member by member. -/
def State.arrivals (s : State) (l : Launch) (t crew : Nat) (mma : Bool) : List (Nat × Option Arrival) :=
  (l.members crew).map (fun n =>
    (groupKey t n, (s.group (groupKey t n)).bind (fun g => g.arrivals.find? (fun a => a.block.isSome == mma))))

/-- Record an arrival; the entry stays READY at its instruction (R82). -/
def Ctx.arrive (c : Ctx) (u : Use) (s : State) (block : Option Nat) (sd : BitVec 7) : State :=
  s.modGroup c.k (fun g => { g with
    arrivals := g.arrivals ++ [{ pc := c.e.pc, prio := c.e.prio, g := u.g, block := block, sd := sd, at_ := (s.core g.core).clock }] })

/-- MMA (R198, R424): the checks, then an arrival. -/
def opMma (g : Guard) (q : BitVec 4) (so : Src) : Op :=
  let ss := { srcIn 0 so with uni := true }
  let u : Use := { g := g, srcs := [ss], cls := some 4 }
  word u (fun x s =>
    let r := x.g.reg q.toNat
    let off := r.base.toNat + x.uni s ss
    let l := (s.launch (launchOf x.k))
    if r.kind == 0 || r.pend then x.refuseAll s 0x0A off
    else if r.lent || r.kind != 9 then x.refuseAll s 0x08 off
    else if r.base.toNat + r.len.toNat < off + 64 then x.refuseAll s 0x09 (max off (r.base.toNat + r.len.toNat))
    else if off % 64 != 0 then x.trapCmd s 0x10 off
    else match l.bind (fun l => (l.crewOf (groupNo x.k)).map (fun c => (l, c.1))) with
      | none => x.trapCmd s 0x16 0
      | some (l, crew) =>
        let others := s.arrivals l (teamOf x.k) crew true
        let first := others.findSome? (fun a => a.2.bind (fun a => a.block))
        if s.isGuest x.k x.g || s.crewLost l (teamOf x.k) crew || first.any (· != off) then x.trapCmd s 0x16 0
        -- one arrival of a member stands in a rendezvous
        else if x.g.arrivals.any (fun a => a.block.isSome) then none
        else some (x.arrive u s (some off) 0, []))
def execMma (g : Guard) (q : BitVec 4) (so : Src) (s : State) : Host.Outcome State Fault Refusal :=
  (opMma g q so).run s

/-! ## The parameter block (R201) -/

/-- The fields of a parameter block that the engine reads: all but STATUS and RESID. -/
structure Block where
  afmt : Nat
  bfmt : Nat
  acb : Nat
  bcb : Nat
  tile : Nat
  accum : Bool
  chk : Bool
  asrc : Bool
  bsrc : Bool
  inj : Bool
  areg : Nat
  breg : Nat
  aoff : Nat
  alay : Nat
  boff : Nat
  blay : Nat
  mboff : Nat
  mbclu : Bool
  nomb : Bool
  reserved : Bool
deriving DecidableEq, Repr

def readBlock (v : Nat) : Block :=
  { afmt := fld v 0 4, bfmt := fld v 4 4, acb := fld v 8 4, bcb := fld v 12 4, tile := fld v 16 6, accum := fld v 22 1 == 1
    chk := fld v 23 1 == 1, asrc := fld v 24 1 == 1, bsrc := fld v 25 1 == 1, inj := fld v 26 1 == 1, areg := fld v 32 8
    breg := fld v 40 8, aoff := fld v 64 32, alay := fld v 96 32, boff := fld v 128 32, blay := fld v 160 32
    mboff := fld v 192 20, mbclu := fld v 212 1 == 1, nomb := fld v 213 1 == 1
    reserved := fld v 27 5 != 0 || fld v 48 16 != 0 || fld v 214 170 != 0 || fld v 448 64 != 0 }

/-- Depth K of a format pair, and its energy class (R194). -/
def mmaShape (a b : Nat) : Option (Nat × Nat) :=
  match a, b with
  | 0, 0 => some (32, 15)
  | 1, 1 => some (32, 15)
  | 2, 0 => some (64, 16)
  | 0, 2 => some (64, 16)
  | 3, 3 => some (64, 17)
  | 3, 4 => some (64, 17)
  | 4, 3 => some (64, 17)
  | 4, 4 => some (64, 17)
  | 2, 2 => some (128, 18)
  | _, _ => none

/-- Element width of a format. -/
def fmtBits (f : Nat) : Nat := if f ≤ 1 then 16 else if f = 2 then 4 else 8

/-- One operand of a block is invalid: `fmt` its format, K, crew size, budget, codebook slot, source, register, offset, layout
word and the scratchpad's size. -/
def operandBad (fmt kk n bud cb : Nat) (src : Bool) (reg off lay ss : Nat) : Bool :=
  (fmt != 2 && cb != 0) ||
  (if src then
    reg != 0 || layBad lay 128 kk (fmtBits fmt) || layEw lay != ewCode (fmtBits fmt) ||
      ((List.range 128).any (fun r => (List.range kk).any (fun c =>
        decide (ss < (layPlace off lay (fmtBits fmt) r c).1 + (if fmtBits fmt = 16 then 2 else 1)))))
  else off != 0 || lay != 0 || decide (bud < reg + fragRegs kk (fmtBits fmt) n))

/-- The block is invalid (R201). -/
def blockBad (b : Block) (kk n bud : Nat) (d : LaunchDesc) : Bool :=
  b.reserved || operandBad b.afmt kk n bud b.acb b.asrc b.areg b.aoff b.alay d.ss.toNat ||
    operandBad b.bfmt kk n bud b.bcb b.bsrc b.breg b.boff b.blay d.ss.toNat ||
    (!b.nomb && (b.mboff % 16 != 0 || decide (Machine.spaceLen d (mbSpace b.mbclu) < b.mboff + 16)))

/-! ## Capture -/

/-- Registers of the fragments of a member. -/
def Block.regs (b : Block) (kk n : Nat) : List Nat :=
  (if b.asrc then [] else (List.range (fragRegs kk (fmtBits b.afmt) n)).map (· + b.areg)) ++
    (if b.bsrc then [] else (List.range (fragRegs kk (fmtBits b.bfmt) n)).map (· + b.breg))

/-- Element (row, k) of an operand: from the member's registers, or the scratchpad. -/
def State.operandElem (s : State) (ks : List Nat) (kk : Nat) (fmt : Nat) (src : Bool) (reg off lay row k : Nat) : BitVec 16 :=
  let w := fmtBits fmt
  let h := 128 / ks.length
  let m := (ks[row / h]?).getD 0
  if src then BitVec.ofNat 16 (s.elemRd m .scr w (layPlace off lay w row k))
  else
    let f := (row % h * kk + k) * w
    match s.group m with
    | some g => BitVec.ofNat 16 ((Store.rd (s.regData m g (reg + f / 1024)) (f % 1024 / 32)).toNat / 2 ^ (f % 32) % 2 ^ w)
    | none => 0

/-- An operand row by row. -/
def State.operandAll (s : State) (ks : List Nat) (kk fmt : Nat) (src : Bool) (reg off lay : Nat) : List (BitVec 16) :=
  (List.range 128).flatMap (fun row => (List.range kk).map (fun k => s.operandElem ks kk fmt src reg off lay row k))

/-- Members whose rows of an operand in the scratchpad touch a block of another span (R128). -/
def State.tagMembers (s : State) (ks : List Nat) (kk fmt : Nat) (src : Bool) (off lay : Nat) : List Nat :=
  if !src then []
  else
    let n := ks.length
    (ks.zipIdx.filter (fun ki =>
      s.tagsDiffer ki.1 .scr (laySpan lay) (fragBytes off lay (fmtBits fmt) kk n ki.2))).map Prod.fst

/-- Entry and passing lanes of an arrival. -/
def Group.arrivalEntry (g : Group) (a : Arrival) : Option (Entry × BitVec 32) :=
  (g.entries.find? (fun e => e.st == .ready && e.pc == a.pc && e.prio == a.prio)).map (fun e => (e, g.passing a.g e.mask))

/-- Retire the waiting instruction of a member: its entry moves on. -/
def State.retireArrival (s : State) (k : Nat) (a : Arrival) : Option State :=
  match s.group k with
  | none => some s
  | some g =>
    match g.arrivalEntry a with
    | none => none
    | some (e, pass) =>
      let s := s.setGroup k { g with arrivals := g.arrivals.filter (· != a) }
      s.bump.finish { g := a.g, cls := some 4 } k e pass s.nextId [{ mask := e.mask, pc := nextPc e.pc, prio := e.prio }]

/-- A trap of a member at its waiting instruction. -/
def State.trapArrival (s : State) (k : Nat) (a : Arrival) (cause : BitVec 8) (faddr : Nat) : Option State :=
  match s.group k with
  | none => some s
  | some g =>
    match g.arrivalEntry a with
    | none => none
    | some (e, pass) =>
      let s := s.setGroup k { g with arrivals := g.arrivals.filter (· != a) }
      s.bump.finish { g := a.g, cls := some 4 } k e pass s.nextId
        [{ mask := e.mask &&& ~~~pass, pc := nextPc e.pc, prio := e.prio },
         { mask := pass, pc := e.pc, prio := e.prio
           trap := some { cause := cause, lanes := pass, pc := e.pc, rpc := e.pc, faddr := BitVec.ofNat 57 faddr } }]

/-- The members of a crew with their arrivals, where all stand at the rendezvous and are active. -/
def State.assembled (s : State) (l : Launch) (t crew : Nat) (mma : Bool) : Option (List (Nat × Arrival)) :=
  (s.arrivals l t crew mma).foldr (fun ka o =>
    match ka.2, s.group ka.1, o with
    | some a, some g, some as => if g.active then some ((ka.1, a) :: as) else none
    | _, _, _ => none) (some [])

/-- Capture (R199 to R201). -/
def State.capture (s : State) (t crew : Nat) : Option State :=
  match s.team t, s.launch (teamLaunch t) with
  | some tm, some l =>
    if l.st != .running || tm.st != .running then none
    else match s.assembled l t crew true with
      | none => none
      | some [] => none
      | some ((k0, a0) :: rest) =>
        let mem := (k0, a0) :: rest
        let core := s.core tm.core
        if core.sawHeld || core.retired || decide (4 ≤ core.saw.length) || s.dev.shut then none
        else
          let off := a0.block.getD 0
          let b := readBlock (s.localLoad k0 0 .scr off 64)
          let ks := mem.map Prod.fst
          let n := ks.length
          let trapAllOf (who : List Nat) (cause : BitVec 8) (faddr : Nat) : Option State :=
            let s' := ks.foldl (fun s k => s.modGroup k (fun g => { g with arrivals := g.arrivals.filter (fun a => a.block.isNone || who.contains k) })) s
            (mem.filter (fun ka => who.contains ka.1)).foldl (fun o ka => o.bind (fun s =>
              match s.group ka.1 with
              | none => some s
              | some _ => s.trapArrival ka.1 ka.2 cause faddr)) (some s')
          let bud := ks.foldl (fun m k => min m (match s.group k with | some g => g.bud | none => 0)) 256
          match mmaShape b.afmt b.bfmt with
          | none => trapAllOf ks 0x01 off
          | some (kk, cls) =>
            if blockBad b kk n bud l.desc then trapAllOf ks 0x01 off
            else
              let bad := (s.tagMembers ks kk b.afmt b.asrc b.aoff b.alay ++ s.tagMembers ks kk b.bfmt b.bsrc b.boff b.blay).eraseDups
              if !bad.isEmpty then trapAllOf bad 0x15 0
              else
                let regs := b.regs kk n
                let waits := ks.any (fun k => match s.group k with
                  | some g => g.pend.any (fun p => regs.any (fun r => p.reg == .v r)) ||
                      (b.afmt == 2 && s.bookPending k b.acb) || (b.bfmt == 2 && s.bookPending k b.bcb)
                  | none => true)
                -- operands that are not in the members' quarters are filled first (R66, R199)
                let absent := ks.filter (fun k => match s.group k with
                  | some g => regs.any g.absent
                  | none => false)
                if waits then none
                else if !absent.isEmpty then
                  some (absent.foldl (fun s k => s.modGroup k (fun g => s.startFills k g regs)) s)
                else if ks.any (fun k => match s.group k with | some g => regs.any g.filling | none => false) then none
                else
                  let op : MmaOp :=
                    { team := t, members := ks, block := off, afmt := b.afmt, bfmt := b.bfmt
                      a := s.operandAll ks kk b.afmt b.asrc b.areg b.aoff b.alay
                      b := s.operandAll ks kk b.bfmt b.bsrc b.breg b.boff b.blay
                      abook := s.book tm.core b.acb, bbook := s.book tm.core b.bcb, tile := b.tile, accum := b.accum, chk := b.chk
                      inj := b.inj && b.chk && (s.vf (launchVf (teamLaunch t))).test, mboff := b.mboff, mbclu := b.mbclu
                      nomb := b.nomb }
                  let s := s.modCore tm.core (fun c => { c with saw := c.saw ++ [op] })
                  let p : Payer := .team t
                  let s := s.charge p 8 ((if b.asrc then kk * fmtBits b.afmt / 8 else 0) + (if b.bsrc then kk * fmtBits b.bfmt / 8 else 0))
                  (mem.foldl (fun o ka => o.bind (fun s => s.retireArrival ka.1 ka.2)) (some s)).map (fun s => s.chargeNow p cls 1)
  | _, _ => none

def execCapture (t crew : Nat) (s : State) : Host.Outcome State Fault Refusal := event (s.capture t crew)

/-! ## Products and trees (R189 to R192) -/

/-- The exact value of a floating operand element. -/
def mmaVal (fmt : Nat) (book : List (BitVec 16)) (v : BitVec 16) : Fp.Val :=
  if fmt = 1 then Fp.decode Fp.f16 v.toNat
  else if fmt = 2 then Fp.decode Fp.bf16 ((book[v.toNat % 16]?).getD 0).toNat
  else Fp.decode Fp.bf16 v.toNat

/-- The value of an integer operand element. -/
def mmaInt (fmt : Nat) (v : BitVec 16) : Int := if fmt = 3 then sInt 8 v.toNat else ((v.toNat % 256 : Nat) : Int)

/-- One level of the tree. -/
def treeLevel : List Fp.Val → List Fp.Val
  | a :: b :: l => Fp.rne32 a b :: treeLevel l
  | l => l

/-- The tree over the leaves, a level at a time. -/
def tree : (levels : Nat) → List Fp.Val → List Fp.Val
  | 0, l => l
  | n + 1, l => tree n (treeLevel l)

/-- An FP32 value as bits. -/
def valBits (v : Fp.Val) : Nat := (Fp.encode Fp.f32 .rn false v).bits

def MmaOp.depth (o : MmaOp) : Nat := match mmaShape o.afmt o.bfmt with | some (k, _) => k | none => 1
def MmaOp.isInt (o : MmaOp) : Bool := decide (3 ≤ o.afmt)

/-- Leaves of element (i, j). -/
def MmaOp.leaves (o : MmaOp) (i j : Nat) : List Fp.Val :=
  let kk := o.depth
  (List.range kk).map (fun k => (Fp.mul (mmaVal o.afmt o.abook ((o.a[i * kk + k]?).getD 0))
    (mmaVal o.bfmt o.bbook ((o.b[j * kk + k]?).getD 0))).1)

/-- The product P[i][j] of a floating operation as FP32 bits, before accumulation. -/
def MmaOp.product (o : MmaOp) (i j : Nat) : Nat :=
  valBits ((tree (Nat.log2 o.depth) (o.leaves i j)).headD (.fin false 0 0))

/-- The exact sum of an integer operation. -/
def MmaOp.intSum (o : MmaOp) (i j : Nat) : Int :=
  let kk := o.depth
  (List.range kk).foldl (fun a k => a + mmaInt o.afmt ((o.a[i * kk + k]?).getD 0) * mmaInt o.bfmt ((o.b[j * kk + k]?).getD 0)) 0

/-- The new value of an element of the tile (R191, R192). -/
def MmaOp.result (o : MmaOp) (i j old : Nat) : Nat :=
  if o.isInt then
    let p := intBits 32 (o.intSum i j)
    if o.accum then (old + p) % 2 ^ 32 else p
  else
    let p := o.product i j
    if o.accum then valBits (Fp.rne32 (Fp.decode Fp.f32 old) (Fp.decode Fp.f32 p)) else p

/-! ## Checksum residuals (R205) -/

/-- A finite value as an integer multiple of 2^-e0. -/
def fixed (e0 : Nat) (v : Fp.Val) : Option Int :=
  match v with
  | .fin n m e => some (Fp.signed n m * 2 ^ (e + e0).toNat)
  | _ => none

/-- Every product of two BF16 or FP16 values is a multiple of 2^-300. -/
def fixedScale : Nat := 300

/-- Residual and bound of a line: elements of P with their leaves; none where the line is excluded. -/
def lineResidual (ps : List (Nat × List Fp.Val)) : Option (Nat × Nat) :=
  ps.foldl (fun (o : Option (Int × Nat)) pl =>
    let leaves := pl.2.map (fixed fixedScale)
    match o, fixed fixedScale (Fp.decode Fp.f32 pl.1), leaves.all Option.isSome with
    | some (d, b), some p, true =>
      let xs := leaves.map (fun v => v.getD 0)
      some (d + p - xs.foldl (· + ·) 0, b + xs.foldl (fun a x => a + x.natAbs) 0)
    | _, _, _ => none) (some (0, 0)) |>.map (fun db => (db.1.natAbs, db.2))

/-- The residuals of all columns and rows that are checked. -/
def MmaOp.residuals (o : MmaOp) : List (Nat × Nat) :=
  let cell (i j : Nat) : Nat × List Fp.Val := (o.product i j, o.leaves i j)
  let cols := (List.range 128).map (fun j => lineResidual ((List.range 128).map (fun i => cell i j)))
  let rows := (List.range 128).map (fun i => lineResidual ((List.range 128).map (fun j => cell i j)))
  (cols ++ rows).filterMap id

/-- The ratio of a residual to its bound in FP32, rounded to nearest; 0 for a bound of 0 (DESIGN CHOICE, log 98). -/
def ratioBits (db : Nat × Nat) : Nat :=
  if db.2 = 0 then 0
  else (Fp.roundTo Fp.f32 .rn false false (db.1 * 2 ^ 200 / db.2) (-200) (db.1 * 2 ^ 200 % db.2 != 0)).bits

/-- RESID of a sound last pass: the largest ratio of the lines checked; zero for integers or without checksums. -/
def MmaOp.resid (o : MmaOp) : Nat :=
  if !o.chk || o.isInt then 0
  else ratioBits (o.residuals.foldl (fun m d => if m.1 * d.2 < d.1 * m.2 || m.2 = 0 then d else m) (0, 0))

/-- A line of a floating operation exceeds the tolerance of R205: 2^-9 of its bound. Integer sums of a sound array never differ. -/
def MmaOp.mismatch (o : MmaOp) : Bool := o.chk && !o.isInt && o.residuals.any (fun d => decide (d.2 < 512 * d.1))

/-! ## Completion -/

/-- Completion of the oldest captured operation of a core (R203, R206 to R209). DONE is set with MC too (DESIGN CHOICE, log 98). -/
def State.mmaComplete (s : State) (core : Nat) : Option State :=
  match (s.core core).saw with
  | [] => none
  | o :: rest =>
    if (s.core core).sawHeld || (s.core core).hauls.any (fun h => match h.2.form with | .drain _ t _ => t == o.tile | _ => false) then none
    else
      let k0 := o.members.headD 0
      let fault1 := o.mismatch || (o.chk && Config.arrayFault s.tick 0)
      let fail1 := o.inj || fault1
      let fail2 := fail1 && (o.mismatch || (o.chk && Config.arrayFault s.tick 1))
      let cls := match mmaShape o.afmt o.bfmt with | some (_, c) => c | none => 15
      let s := s.modCore core (fun c => { c with saw := rest })
      let s := if fail1 then s.charge .house cls 1 else s
      let status := 1 + (if fail1 then 2 + 4 else 0) + (if fail2 then 16 else 0) + (if o.inj then 32 else 0)
      let resid := if fail2 then (Config.freeWord s.tick 0).toNat else o.resid
      let s := if fail2 then s
        else
          let c := s.core core
          s.putTile k0 o.tile ((List.range 128).flatMap (fun i => (List.range 128).map (fun j =>
            (tileCell o.tile i j, BitVec.ofNat 32 (o.result i j (c.tile o.tile i j))))))
      let s := (s.localStore k0 0 .scr (o.block + 48) 4 status).localStore k0 0 .scr (o.block + 52) 4 resid
      let s := s.progress o.team
      let s := if o.nomb then s.wakeObjects else (s.mbar k0 o.mbclu o.mboff 1 0).wakeObjects
      if fail2 then
        let rec_ := s.nextRecord
        let s := (s.errorRecord (.array core) 0x01 0).outOfService (.array core)
        some (o.members.foldl (fun s k => s.modGroup k (fun g => { g with mcheck := g.mcheck ++ [rec_] })) s)
      else some s

def execMmaComplete (core : Nat) (s : State) : Host.Outcome State Fault Refusal := event (s.mmaComplete core)

/-! ## FTILE (R33 to R36, R403) -/

/-- The four registers of an FTILE await the yard. -/
def State.pendTile (s : State) (k : Nat) (sd : BitVec 7) : State :=
  s.modGroup k (fun g => { g with pend := g.pend ++ (List.range 4).map (fun i =>
    { reg := .s (sd.toNat + i), kind := .load, op := 0, lanes := 0xFFFFFFFF }) })

/-- Put a request before the yard. -/
def State.askYard (s : State) (who : List (Nat × BitVec 7)) : State :=
  let s := who.foldl (fun s ks => s.pendTile ks.1 ks.2) s
  s.modLaunch (launchOf ((who.headD (0, 0)).1)) (fun l => { l with asks := l.asks ++ [who] })

/-- A complete rendezvous at FTILE retires in every member and asks the yard once; none completes once the launch is to stop
(R237). -/
def State.meetFtile (s : State) (l : Launch) (t crew : Nat) : Option State :=
  match s.assembled l t crew false, (s.team t).any (fun m => m.st == .running) && l.st == .running with
  | none, _ => some s
  | some _, false => some s
  | some mem, true =>
    (mem.foldl (fun o ka => o.bind (fun s => s.retireArrival ka.1 ka.2)) (some s)).map
      (fun s => s.askYard (mem.map (fun ka => (ka.1, ka.2.sd))))

def opFtile (g : Guard) (sd : BitVec 7) : Op :=
  let u : Use := { g := g, sw := (List.range 4).map (· + sd.toNat), cls := some 4 }
  word u (fun x s =>
    match s.launch (launchOf x.k) with
    | none => none
    | some l =>
      match l.crewOf (groupNo x.k) with
      | none => x.done (s.askYard [(x.k, sd)])
      | some (crew, _) =>
        if s.crewLost l (teamOf x.k) crew then x.trapCmd s 0x16 0
        else if x.g.arrivals.any (fun a => a.block.isNone) then none
        else (((x.arrive u s none sd).meetFtile l (teamOf x.k) crew).map (fun s => (s, []))))
def execFtile (g : Guard) (sd : BitVec 7) (s : State) : Host.Outcome State Fault Refusal :=
  (opFtile g sd).run s

/-- Yard units of a team (R35). -/
def Launch.units (l : Launch) : Nat := l.c + (l.g - l.c * l.n)

/-- Rank of a group's yard unit. -/
def Launch.unitOf (l : Launch) (g : Nat) : Nat :=
  match l.crewOf g with
  | some (c, _) => c
  | none => l.c + (if g < l.p then g else g - l.c * l.n)

/-- Coordinates of an ordinal (R36). -/
def Launch.coords (l : Launch) (t : Nat) : Nat × Nat × Nat :=
  if !l.desc.grouped then (t % l.x, t / l.x % l.y, t / (l.x * l.y))
  else
    let w := l.desc.w.toNat
    let s := t % (l.x * l.y)
    let band := s / (w * l.y)
    let first := band * w
    let ww := min w (l.x - first)
    let r := s - band * w * l.y
    (first + r % ww, r / ww, t / (l.x * l.y))

/-- The answer of the yard to its oldest request (R33 to R36). -/
def State.yardAnswer (s : State) (who : List (Nat × BitVec 7)) : Option State :=
  match who with
  | [] => none
  | (k, _) :: _ =>
    match s.launch (launchOf k) with
    | none => none
    | some l =>
      if l.asks.head? != some who then none
      else
        let total := l.x * l.y * l.z
        let t := teamOf k
        let u := teamNo k * l.units + l.unitOf (groupNo k)
        let drawn := match s.team t with | some m => (Store.rd m.drawn (l.unitOf (groupNo k))).toNat | none => 0
        let ord := if l.desc.det then u + drawn * (l.cores.length * l.units) else l.yard
        let l := { l with asks := l.asks.tail, yard := if l.desc.det || total ≤ l.yard then l.yard else l.yard + 1 }
        let s := s.setLaunch (launchOf k) l
        let s := if l.desc.det && decide (ord < total) then
            s.modTeam t (fun m => { m with drawn := Store.wr m.drawn (l.unitOf (groupNo k)) (BitVec.ofNat 32 (drawn + 1)) })
          else s
        let (x, y, z) := l.coords ord
        let vals := if ord < total then [x, y, z, ord] else List.replicate 4 0xFFFFFFFF
        some (who.foldl (fun s ks =>
          let s := vals.zipIdx.foldl (fun s vi => s.putS ks.1 (ks.2.toNat + vi.2) 1 vi.1) s
          (s.modGroup ks.1 (fun g => { g with
            pend := g.pend.filter (fun p => !(p.op == 0 && (List.range 4).any (fun i => p.reg == .s (ks.2.toNat + i)))) })).makeReady ks.1) s)

def execYardAnswer (who : List (Nat × BitVec 7)) (s : State) : Host.Outcome State Fault Refusal := event (s.yardAnswer who)

/-! ## Withdrawal (R82) -/

/-- The arrivals of a member of an incomplete rendezvous are withdrawn, 64 clk after an arrival: it is swapped out and goes to the
tail of its ready list, its pending partners are marked URGENT. -/
def State.withdrawal (s : State) (k : Nat) : Option State :=
  match s.group k, s.launch (launchOf k) with
  | some g, some l =>
    match l.crewOf (groupNo k) with
    | none => none
    | some (crew, _) =>
      let partners := (l.members crew).map (groupKey (teamOf k))
      let idle (p : Nat) : Bool := match s.group p with | some g => !g.active | none => true
      if !g.active || !g.arrivals.any (fun a => decide (64 ≤ ((s.core g.core).clock - a.at_).toNat)) || !partners.any idle then none
      else
        let s := s.modGroup k (fun g => { g with arrivals := [] })
        let s := (s.swapOut k).makeReadyTail k
        some ((partners.filter (· != k)).foldl (fun s p => s.modGroup p (fun g =>
          if g.res == .pending && !g.active then { g with urgent := true } else g)) s)
  | _, _ => none

def execRendezvousWithdrawal (grp : Nat) (s : State) : Host.Outcome State Fault Refusal := event (s.withdrawal grp)

end Sys2Proof.Machine
end

