-- ==== Sys2Proof/Machine/Peers.lean ====
section
/-! DEFINITION. Peer windows and connections: EXPORT, IMPORT, IMPORT_FREE (R289, R290), REVOKE with its notice, completion and
timeout (R292, R293), requests of peers and their answers (R295, R296, R300, R301), RESEND, PEER_TIMEOUT, CONNECTION_REFILL,
DEVICE_LEAVES_POD (R294 to R296), MULTICAST_GROUP_REGISTRATION (R298), RATE_LIMITER_WINDOW (R278). -/

namespace Sys2Proof.Machine

open Sys2Proof

/-! ## Connections (R294) -/

def State.conn (s : State) (key : Nat) : Option Conn := SMap.find s.dev.conns key
def State.setConn (s : State) (key : Nat) (c : Conn) : State := s.modDev (fun d => { d with conns := SMap.put d.conns key c })

/-- Connections that the cache holds. -/
def connCache : Nat := 8192

/-- Bytes of an entry in the spill area (DESIGN CHOICE, log 94). -/
def spillBytes : Nat := 256

/-- Spill the connection of the lowest key, encrypted, to the area that the PF has named, where the cache is full. -/
def State.spillOne (s : State) : State :=
  let held := s.dev.conns.filter (fun kc => !kc.2.spilled)
  if held.length < connCache then s
  else match held, s.dev.spill with
    | kc :: _, some off =>
      let a := hostBase + off + spillBytes * kc.1
      ((s.homeWrite ((List.range spillBytes).map (fun i => (a + i, Config.cipher s.tick i)))).charge .house 21 1).setConn kc.1
        { kc.2 with spilled := true }
    | _, _ => s

/-- The connection of a triple, created at its first export or import. -/
def State.connect (s : State) (vf dev rvf : Nat) : State :=
  match s.conn (connKey vf dev rvf) with
  | some _ => s
  | none => s.spillOne.setConn (connKey vf dev rvf) { vf := vf, dev := dev, rvf := rvf }

/-- An export or import of a VF, or a multicast group that it owns, names the remote pair. -/
def State.names (s : State) (vf dev rvf : Nat) : Bool :=
  let v := s.vf vf
  s.dev.mcasts.any (fun g => g.2.vf == vf && g.2.members.any (fun m => m.dev.toNat == dev && m.vf.toNat == rvf)) ||
  v.exports.any (fun e => e.2.st != 0 && e.2.pdev.toNat == dev && e.2.pvf.toNat == rvf) ||
    v.imports.any (fun i => i.2.st != 0 && i.2.rdev.toNat == dev && i.2.rvf.toNat == rvf)

/-! ## What the end of a request does -/

/-- Address of an offset of an import in the VF's aperture. -/
def windowVa (imp off : Nat) : Nat := apertureBase + imp * 2 ^ 40 + off

/-- The bytes of a block of a peer's window reach the L1 (R129, R291). -/
def State.takeBlock (s : State) (core vf va : Nat) (data : List Byte) : State :=
  match s.walk vf va with
  | .ok x _ =>
    let (s, ln) := s.l1Get core x va
    let a := x.at va
    let m := sectorsOf (a % 512) data.length &&& ~~~ln.valid
    s.l1Put core (ln.fill (Store.putBytes [] a data) m)
  | _ => s

/-- The engine command that waits for an access goes on. -/
def State.haulFreed (s : State) (a : Acc) (id : Nat) : State :=
  { s with accs := SMap.del s.accs id }.modCore a.core (fun c => { c with hauls := c.hauls.map (fun (kv : Nat × Haul) =>
    (kv.1, if kv.2.acc == some id then { kv.2 with acc := none } else kv.2)) })

/-- Every fill of an access has come: it is performed, or its engine command goes on. -/
def State.peerFilled (s : State) (id : Nat) (a : Acc) : State :=
  match a.use with
  | .engine _ => s.haulFreed a id
  | _ =>
    match s.walk a.vf (a.addr (lowLane a.lanes)) with
    | .ok x _ => s.resolve id a x
    | .term r st _ => s.terminalAccess id a r st
    | .retry r st _ => s.terminalAccess id a r st

/-- An access through a held window has failed: ACCESS_FAULT with REASON 8 (R291, R301). -/
def State.peerFailed (s : State) (id : Nat) (a : Acc) (va : Nat) : State :=
  match a.use with
  | .engine h =>
    let s := s.haulFreed a id
    (match SMap.find (s.core a.core).hauls h with
    | some x => (s.haulStop a.core h x (.term va 8 false false)).getD s
    | none => s)
  | _ => s.terminalAccess id a 8 false

/-- An answer to a fill (R291). -/
def State.fillAnswered (s : State) (vf : Nat) (r : Req) (addr : Nat) (good : Option (List Byte)) : State :=
  match SMap.find s.accs r.op with
  | none => s
  | some a =>
    if a.st != .peer then s
    else match good with
      | none => s.peerFailed r.op a (windowVa r.imp addr)
      | some d =>
        let s := (s.chargeData (payerOf a.grp) (collHops (dieOf a.core)) d.length).takeBlock a.core vf (windowVa r.imp addr) d
        let a := { a with left := a.left - 1 }
        if a.left = 0 then s.peerFilled r.op a else s.setAcc r.op a

/-- An answer to an atomic of an A borrow: the old value of its lane; the last one is the home's acknowledgement (R105). -/
def State.atomicAnswered (s : State) (r : Req) (good : Option (List Byte)) : State :=
  match SMap.find s.accs r.op with
  | none => s
  | some a =>
    if a.st != .peer then s
    else match good with
      | none => s.peerFailed r.op a (a.addr r.part)
      | some d =>
        let s := s.chargeMsg (payerOf a.grp) (collHops (dieOf a.core))
        let a := { a with left := a.left - 1, res := Store.wrs a.res (a.words [(r.part, ofBytes d)]) }
        if a.left ≠ 0 then s.setAcc r.op a
        else
          let s := if a.dst.isEmpty then { s with accs := SMap.del s.accs r.op }
            else (s.setAcc r.op { a with st := .data }).send (.loadComplete r.op)
          (s.unpark a.grp).makeReady a.grp

/-- An answer to a write-back: it counts for its return; bytes that were not taken are discarded (R293). -/
def State.writeBackPeer (s : State) (r : Req) (good : Bool) : State :=
  match s.cores.find? (fun kc => (SMap.find kc.2.rets r.op).isSome) with
  | none => s
  | some (core, c) =>
    match SMap.find c.rets r.op with
    | none => s
    | some x => (if good then s else s.setStatus x.grp 4).writeBackAnswered core r.op

/-- A grant of a peer's claim table: kept with its entry, the register naming the window (R93, R114). Nobody that waits: it is
released at once. -/
def State.peerGranted (s : State) (vf : Nat) (r : Req) (m : ClaimMsg) (entry gen : Nat) (orphan : Bool) : State :=
  let theirs := BitVec.ofNat 24 (entry % 2 ^ 19 + gen % 16 * 2 ^ 19)
  let ours := BitVec.ofNat 24 (r.imp % 2 ^ 16 + gen % 16 * 2 ^ 19 + 2 ^ 23)
  match s.group m.ctx with
  | none => s.peerSend vf r.imp (.release theirs) 0 0 0 0
  | some g =>
    let s := s.chargeMsg (payerOf m.ctx) (collHops (dieOf g.core))
    if (SMap.find g.bors m.q.toNat).isNone && !g.cancelled.contains (m.q.toNat + 16 * 8) then
      (s.charge (payerOf m.ctx) 13 1).peerSend vf r.imp (.release theirs) 0 0 0 0
    else
      (s.modVf vf (fun v => { v with peerHeld := v.peerHeld ++
        [{ ctx := m.ctx, win := r.imp, off := m.base, len := m.len, kind := heldCode m.kind, handle := theirs }] })).grantAt
        m.ctx m.q ours orphan

/-- A request ends: with a peer's answer, or with a cause of R296. -/
def State.requestEnds (s : State) (vf : Nat) (r : Req) (res : (PeerStatus × List Byte) ⊕ BitVec 8) : State :=
  let good : Option (List Byte) := match res with
    | .inl (.ok, d) => some d
    | _ => none
  let cause : BitVec 8 := match res with
    | .inr c => c
    | .inl (.fault _, _) => 0x41
    | _ => 0x40
  let part (answer : Nat) : State :=
    let s := match SMap.find s.rems r.op with
      | some o => (match r.kind with
        | .read _ _ => s.chargeData (payerOf o.grp) (collHops (dieOf o.core)) answer
        | .write _ _ => (match o.kind with | .rst => s.chargeMsg (payerOf o.grp) (collHops (dieOf o.core)) | _ => s)
        | _ => s)
      | none => s
    s.remPart r.op r.part r.first (BitVec.ofNat 32 r.last) (match good with | some d => .inl d | none => .inr cause)
  match r.kind with
  | .read _ n => part n
  | .write _ _ => part 0
  | .flush => part 0
  | .claim m =>
    (match res with
    | .inl (.granted e g o, _) => s.peerGranted vf r m e g o
    | _ => (s.refuseAt m.ctx m.q .peer).getD s)
  | .release _ => s
  | .fill addr _ => s.fillAnswered vf r addr good
  | .writeBack _ _ _ _ => s.writeBackPeer r good.isSome
  | .atomic _ _ _ _ _ => s.atomicAnswered r good
  | .notice => s
  | .withdraw _ _ => s
  | .sweep _ => s

/-- A number is free again: a waiting request is sent (R295). -/
def Conn.pump (c : Conn) (now : Nat) : Conn :=
  match c.queue with
  | r :: rest =>
    if c.sent.length < 4096 then
      { c with sent := c.sent ++ [{ r with seq := c.next, sentAt := now, firstAt := now }], next := c.next + 1, queue := rest }
    else c
  | [] => c

/-- Take a request off its connection and end it. -/
def State.endRequest (s : State) (key : Nat) (c : Conn) (r : Req) (res : (PeerStatus × List Byte) ⊕ BitVec 8) : State :=
  (s.setConn key ({ c with sent := c.sent.filter (fun x => x.seq != r.seq) }.pump s.now)).requestEnds c.vf r res

/-- Every request of an ended connection completes with PEER_LINK (R294, R296). -/
def State.failAll (s : State) (key : Nat) : State :=
  match s.conn key with
  | none => s
  | some c => (c.sent ++ c.queue).foldl (fun s r => s.requestEnds c.vf r (.inr 0x43)) (s.setConn key { c with sent := [], queue := [] })

/-- Free a connection that no export or import names any more. -/
def State.disconnect (s : State) (vf dev rvf : Nat) : State :=
  if s.names vf dev rvf then s
  else (s.failAll (connKey vf dev rvf)).modDev (fun d => { d with conns := SMap.del d.conns (connKey vf dev rvf) })

/-! ## EXPORT and IMPORT (R289, R290) -/

/-- Class, size and grain of the pages of a range; none where one is not mapped to device or host memory. -/
def State.pageKinds (s : State) (vf end_ : Nat) : (fuel va : Nat) → Option (List (BitVec 2 × Nat × BitVec 2))
  | 0, _ => some []
  | f + 1, va =>
    if end_ ≤ va then some []
    else match s.walk vf va with
      | .ok x _ =>
        if isPeer x.home then none else (State.pageKinds s vf end_ f (x.va + x.size)).map (fun l => (x.cls, x.size, x.grain) :: l)
      | _ => none

/-- The pages of an export are of one kind: held of one size and grain, or all open. -/
def exportPagesOk (held : Bool) (ps : List (BitVec 2 × Nat × BitVec 2)) : Bool :=
  match ps with
  | [] => false
  | p :: _ => if held then ps.all (fun q => q.1 == 0 && q.2 == p.2) else ps.all (fun q => q.1 == 1)

/-- The PF registers an export, or the registration is refused and changes nothing. -/
def State.export_ (s : State) : Option State :=
  match s.input with
  | some (.exportWindow vf win e) =>
    let free := match SMap.find (s.vf vf).exports win with | some x => x.st == 0 | none => true
    let shape := decide (win < 4096) && e.base.toNat % 65536 == 0 && e.len.toNat % 65536 == 0 && e.len != 0
    let pages := s.pageKinds vf (e.base.toNat + e.len.toNat) (e.len.toNat / 65536 + 1) e.base.toNat
    let x : Export :=
      { base := e.base, len := e.len, held := e.held, rd := e.rd, wr := e.wr, at_ := e.at_, st := 1, pdev := e.pdev, pvf := e.pvf }
    some (if (s.vf vf).live && free && shape && pages.any (exportPagesOk e.held) then
        (s.modVf vf (fun v => { v with exports := SMap.put v.exports win x, migr := false })).connect vf e.pdev.toNat e.pvf.toNat
      else s)
  | _ => none

def execExportWindow (s : State) : Host.Outcome State Fault Refusal := event s.export_

/-- The PF makes an import of an ACTIVE export that names the VF. -/
def State.import_ (s : State) : Option State :=
  match s.input with
  | some (.importWindow vf idx e) =>
    let free := match SMap.find (s.vf vf).imports idx with | some x => x.st == 0 | none => true
    let tmo := e.tmo == 0 || (decide (100 ≤ e.tmo.toNat) && decide (e.tmo.toNat ≤ 100000))
    let x : Import :=
      { rdev := e.rdev, rvf := e.rvf, rwin := e.rwin, held := e.held, perm := e.perm, grain := e.grain, pgsz := e.pgsz, st := 1
        len := e.len, tmo := e.tmo }
    some (if (s.vf vf).live && decide (idx < 4095) && free && e.named && tmo then
        (s.modVf vf (fun v => { v with imports := SMap.put v.imports idx x, migr := false })).connect vf e.rdev.toNat e.rvf.toNat
      else s)
  | _ => none

def execImportWindow (s : State) : Host.Outcome State Fault Refusal := event s.import_

/-- The PF frees a REVOKED import (R292, R294). -/
def State.freeImport (s : State) : Option State :=
  match s.input with
  | some (.importFree vf idx) =>
    some (match SMap.find (s.vf vf).imports idx with
      | some i =>
        if i.st == 2 then
          (s.modVf vf (fun v => { v with
            imports := SMap.del v.imports idx, peerHeld := v.peerHeld.filter (fun g => g.win != idx) })).disconnect vf i.rdev.toNat
            i.rvf.toNat
        else s
      | none => s)
  | _ => none

def execImportFree (s : State) : Host.Outcome State Fault Refusal := event s.freeImport

/-! ## Revocation (R292, R293) -/

/-- Step 1: the export is REVOKING, and a notice goes to the importer. -/
def State.revoke (s : State) : Option State :=
  match s.input with
  | some (.revoke vf win) =>
    some (match SMap.find (s.vf vf).exports win with
      | some e =>
        if e.st == 1 then
          (s.modVf vf (fun v => { v with exports := SMap.put v.exports win { e with st := 2, since := s.now } })).peerSendTo vf
            e.pdev.toNat e.pvf.toNat win 0 .notice 0 0 0 0
        else s
      | none => s)
  | _ => none

def execRevoke (s : State) : Host.Outcome State Fault Refusal := event s.revoke

/-- The notice reaches the importer: its imports of the export are REVOKED. -/
def State.noticeAt (s : State) (vf dev rvf rwin : Nat) : State :=
  s.modVf vf (fun v => { v with imports := v.imports.map (fun (i : Nat × Import) =>
    (i.1, if i.2.st == 1 && i.2.rdev.toNat == dev && i.2.rvf.toNat == rvf && i.2.rwin.toNat == rwin then { i.2 with st := 2 } else i.2)) })

def State.revocationNotice (s : State) : Option State :=
  match s.input with
  | some (.revocationNotice vf dev rvf rwin) => some (s.noticeAt vf dev rvf rwin)
  | _ => none

def execRevocationNotice (s : State) : Host.Outcome State Fault Refusal := event s.revocationNotice

/-- Mark of the claims of a peer through an export. -/
def peerMark (key win : Nat) : Nat := key * 4096 + win

/-- Claims of a peer through an export, granted or waiting, on their way too. -/
def State.peerClaims (s : State) (mark : Nat) : Bool :=
  s.dies.any (fun d => d.2.claims.any (fun c => c.2.st != .orphan && c.2.peer == some mark)) ||
    s.pending.any (fun i => match i.instr with | .claim _ m => m.peer == some mark | _ => false)

/-- A flush notice of a connection through an export is still to be answered. -/
def State.flushDue (s : State) (vf dev rvf win : Nat) : Bool :=
  s.pending.any (fun i => match i.instr with
    | .flushNotice v d r w _ => v == vf && d == dev && r == rvf && w == win
    | _ => false)

/-- Step 4: the export is FREE once nothing is in flight and no grant is out, and the revoker is told. -/
def State.revocationComplete (s : State) (vf win : Nat) : Option State :=
  match SMap.find (s.vf vf).exports win with
  | none => none
  | some e =>
    let dev := e.pdev.toNat
    let rvf := e.pvf.toNat
    if e.st != 2 || s.peerClaims (peerMark (connKey vf dev rvf) win) || s.flushDue vf dev rvf win then none
    else some (((s.modVf vf (fun v => { v with exports := SMap.del v.exports win })).disconnect vf dev rvf).modDev (fun d =>
      { d with answers := .revoked vf win :: d.answers }))

def execRevocationComplete (vf win : Nat) (s : State) : Host.Outcome State Fault Refusal := event (s.revocationComplete vf win)

/-- After 1 ms the sweep turns the peer's grants into orphan marks and ends its waiting requests with a PEER status. -/
def State.peerGrantTimeout (s : State) (vf win : Nat) : Option State :=
  match SMap.find (s.vf vf).exports win with
  | none => none
  | some e =>
    if e.st != 2 || e.swept || s.now < e.since + 1000000 then none
    else
      let mark := peerMark (connKey vf e.pdev.toNat e.pvf.toNat) win
      let s := s.modVf vf (fun v => { v with exports := SMap.put v.exports win { e with swept := true } })
      some ((SMap.keys s.dies).foldl (fun s d =>
        let waits := (s.die d).claims.filter (fun c => c.2.st == .wait && c.2.peer == some mark)
        let s := waits.foldl (fun s c => s.answerClaim d c.2 none .peer) s
        let (s, n) := s.sweepDie d (fun c => c.peer == some mark)
        s.charge (.vf vf) 13 n) s)

def execPeerGrantTimeout (vf win : Nat) (s : State) : Host.Outcome State Fault Refusal := event (s.peerGrantTimeout vf win)

/-! ## Requests of peers (R295, R301) -/

/-- Translate bytes of an export under the exporter's own tables and permissions: the home of each byte, or the address, REASON
and STAGE of a fault, which is terminal for the request even where it is retryable. -/
def State.peerReach (s : State) (vf : Nat) (e : Export) (off n : Nat) (need : Need) :
    State × (List Nat ⊕ (Nat × BitVec 4 × Bool)) :=
  let va (i : Nat) : Nat := (e.base.toNat + off + i) % 2 ^ 57
  let at_ (v : Nat) : Xlat ⊕ (Nat × BitVec 4 × Bool) :=
    match s.walk vf v with
    | .ok x _ =>
      (match if isPeer x.home then some (8, false) else x.deny (s.vf vf) (some (if e.held then 0 else 1)) need with
      | some (r, st) => .inr (v, r, st)
      | none => .inl x)
    | .retry r st _ => .inr (v, r, st)
    | .term r st _ => .inr (v, r, st)
  if n = 0 || e.len.toNat < off + n then (s, .inr (va 0, 8, false))
  else
    let s := s.chargeN (.vf vf) 10 (match s.walk vf (va 0) with | .ok _ k => k | .retry _ _ k => k | .term _ _ k => k)
    match at_ (va 0), at_ (va (n - 1)) with
    | .inr f, _ => (s, .inr f)
    | _, .inr f => (s, .inr f)
    | .inl x, .inl y =>
      (s, .inl ((List.range n).map (fun i => if x.covers vf (va i) then x.at (va i) else y.at (va i))))

/-- Charges of a peer's access at its homes, to the exporting VF (R304). -/
def State.peerCharge (s : State) (vf : Nat) (homes : List Nat) (write : Bool) : State :=
  let p : Payer := .vf vf
  let leaf := (s.vf vf).leaf.toNat
  (blocksOf 512 homes).foldl (fun s b =>
    let in_ := homes.filter (fun a => a / 512 == b)
    let n := in_.length
    -- to the hub die by the fixed path over dies 1 and 0 (R17)
    if isHost (b * 512) then ((s.chargeMsg p 3).chargeData p 3 n).charge p 21 (cdiv n 256)
    else
      let h := collHops (homeDie (b * 512))
      ((s.chargeMsg p h).chargeData p h n).l2Access p leaf b (in_.foldl (fun m a => m ||| (1#512 <<< (a % 512))) 0) write) s

/-- Home die and core of an address of an export, which name the unit of the home that met the request: the die, and the L2 slice
by the core of its number. Without a home they are zero (log 59). -/
def State.homeUnitOf (s : State) (vf va : Nat) : Nat × Nat :=
  match s.walk vf va with
  | .ok x _ => if isDev x.home then (homeDie (x.at va), homeSlice (x.at va)) else (0, 0)
  | _ => (0, 0)

/-- The record at the target of a fault, and the answer (R301). -/
def State.peerFault (s : State) (key vf : Nat) (seq : BitVec 32) (f : Nat × BitVec 4 × Bool) : State :=
  (s.keepRecord
    { va := BitVec.ofNat 57 f.1, cause := 0x21, access := .peerReq, reason := f.2.1, vf := vf, part := (s.vf vf).leaf.toNat
      die := (s.homeUnitOf vf f.1).1, core := (s.homeUnitOf vf f.1).2
      stage := f.2.2 }).answerPeer key seq (.fault f.2.1.toNat) []

/-- Perform a request on an export and answer it. -/
def State.serve (s : State) (key vf dev rvf win : Nat) (seq : BitVec 32) (op : PeerOp) : State :=
  let nak : State := s.answerPeer key seq .nak []
  let exp : Option Export := match SMap.find (s.vf vf).exports win with
    | some e => if e.st != 0 && e.pdev.toNat == dev && e.pvf.toNat == rvf then some e else none
    | none => none
  let read (e : Export) (off n : Nat) (rem_ : Bool) : State :=
    match s.peerReach vf e off n .ld with
    | (s, .inr f) => s.peerFault key vf seq f
    | (s, .inl hs) =>
      let s := s.peerCharge vf hs false
      let s := (if rem_ then s.charge (.vf vf) 19 (cdiv n 256) else s).moved (s.vf vf).leaf.toNat collController n
      s.answerPeer key seq .ok (hs.map (Store.rd s.mem))
  let write (e : Export) (off n : Nat) (bs : List (Nat × Byte)) : State :=
    match s.peerReach vf e off n .st with
    | (s, .inr f) => s.peerFault key vf seq f
    | (s, .inl hs) =>
      let kvs := bs.filterMap (fun ib => (hs[ib.1]?).map (fun h => (h, ib.2)))
      ((s.peerCharge vf (kvs.map Prod.fst) true).homeWrite kvs).answerPeer key seq .ok []
  match op with
  | .release entry gen ctx =>
    (s.send (.release (entry / 2 ^ 16 % 8) (entry % 2 ^ 16) gen ctx) (claimRoute atCollective (entry / 2 ^ 16 % 8))).answerPeer key seq .ok []
  | .notice w => (s.noticeAt vf dev rvf w).answerPeer key seq .ok []
  | .withdraw ctx q =>
    ((SMap.keys s.dies).foldl (fun s d =>
      s.dropPeerWaits d (fun c => c.peer.map (· / 4096) == some key && c.ctx == ctx && c.q == q)) s).answerPeer key seq .ok []
  | .sweep l =>
    let mine (c : ClaimEntry) : Bool := c.peer.map (· / 4096) == some key && l.all (fun l => launchOf c.ctx == l)
    ((SMap.keys s.dies).foldl (fun s d => ((s.dropPeerWaits d mine).sweepDie d mine).1) s).answerPeer key seq .ok []
  | .claim m =>
    (match exp with
    | some e =>
      if e.st != 1 || !e.held then s.answerPeer key seq (.refused .peer) []
      else
        let need : Need := match m.kind with | .x => .st | .s => .ld | .a => .at_
        (match s.peerReach vf e m.base 1 need with
        | (s, .inr _) => s.answerPeer key seq (.refused .peer) []
        | (s, .inl hs) =>
          let h := hs.headD 0
          let whole := match s.walk vf (e.base.toNat + m.base) with
            | .ok x _ => decide (e.base.toNat + m.base + m.len ≤ x.va + x.size)
            | _ => false
          if !whole || !isDev h then s.answerPeer key seq (.refused .peer) []
          else s.send (.claim (homeDie h) { m with
            base := h, vf := vf, core := peerTicket key seq.toNat, peer := some (peerMark key win), importIdx := none })
            (claimRoute atCollective (homeDie h)))
    | none => s.answerPeer key seq (.refused .peer) [])
  | .flush =>
    (match exp with
    | some e => if e.st == 1 then s.send (.flushNotice vf dev rvf win seq) else nak
    | none => nak)
  | .read off n =>
    (match exp with | some e => if e.st != 1 || e.held || !e.rd then nak else read e off n true | none => nak)
  | .write off d =>
    (match exp with
    | some e => if e.st != 1 || e.held || !e.wr then nak else write e off d.length (d.zipIdx.map (fun bi => (bi.2, bi.1)))
    | none => nak)
  | .fill off n =>
    (match exp with | some e => if e.st != 1 || !e.held || !e.rd then nak else read e off n false | none => nak)
  | .writeBack off mask d =>
    (match exp with
    | some e =>
      if e.st != 1 || !e.held || !e.wr then nak
      else write e off mask.length ((d.zip mask).zipIdx.filterMap (fun bmi => if bmi.1.2 then some (bmi.2, bmi.1.1) else none))
    | none => nak)
  | .atomic off wide o a b =>
    (match exp with
    | some e =>
      if e.st != 1 || !e.held || !e.at_ then nak
      else
        let w := if wide then 8 else 4
        (match s.peerReach vf e off w .at_ with
        | (s, .inr f) => s.peerFault key vf seq f
        | (s, .inl hs) =>
          let h := hs.headD 0
          let old := Store.load s.mem h w
          let v := newVal (AOp.ofCode o) wide old a.toNat b.toNat
          let s := (s.peerCharge vf hs true).homeWrite ((bytesOf w v).zipIdx.map (fun bi => (h + bi.2, bi.1)))
          (s.signalUpdated h).answerPeer key seq .ok (bytesOf w old))
    | none => nak)

/-- A request that has been received and not yet answered. -/
def State.inService (s : State) (key vf dev rvf win : Nat) (seq : BitVec 32) : Bool :=
  let t := peerTicket key seq.toNat
  s.dies.any (fun d => d.2.claims.any (fun c => c.2.peer.isSome && c.2.st == .wait && c.2.core == t)) ||
    s.pending.any (fun i => match i.instr with
      | .claim _ m => m.peer.isSome && m.core == t
      | .flushNotice v d r w q => v == vf && d == dev && r == rvf && w == win && q == seq
      | _ => false)

/-- A request arrives: performed, answered again or dropped by its number (R295). The data of an RLD's answer leaves the port
again (R304). -/
def State.requestAt (s : State) (vf dev rvf win : Nat) (seq : BitVec 32) (op : PeerOp) : State :=
  let key := connKey vf dev rvf
  match s.conn key with
  | none => s
  | some c =>
    let d := (seq - c.low).toNat
    if c.ended || c.spilled then s
    else if 2 ^ 31 ≤ d then s.setConn key { c with out := (seq, .ok, []) :: c.out }
    else if 4096 ≤ d then s
    else match c.answered.find? (fun a => a.1 == seq) with
      | some a =>
        (s.setConn key { c with out := a :: c.out }).charge (.vf vf) 19 (match op with | .read _ _ => cdiv a.2.2.length 256 | _ => 0)
      | none => if s.inService key vf dev rvf win seq then s else s.serve key vf dev rvf win seq op

/-- A request as it goes out on its connection. -/
def Req.op_ (r : Req) : PeerOp :=
  match r.kind with
  | .read a n => .read a n
  | .write a d => .write a d
  | .flush => .flush
  | .claim m => .claim m
  | .release h => .release (h.toNat % 2 ^ 19) (genOf h) 0
  | .fill a n => .fill a n
  | .writeBack a m d _ => .writeBack a ((List.range 256).map (fun i => m.getLsbD i)) ((List.range 256).map (Store.rd d))
  | .atomic a w o x y => .atomic a w o x y
  | .notice => .notice r.win
  | .withdraw c q => .withdraw c q
  | .sweep l => .sweep l

/-- A request of this device to itself that its own receiver has not met: it turns back inside the collective die (R298). -/
def State.turned (s : State) : Option (Conn × Req) :=
  s.dev.conns.findSome? (fun kc =>
    if kc.2.dev != s.dev.devNum || kc.2.ended then none
    else
      let back := connKey kc.2.rvf kc.2.dev kc.2.vf
      (kc.2.sent.find? (fun r => !(s.conn back).any (fun c =>
        c.out.any (fun a => a.1 == r.seq) || s.inService back kc.2.rvf kc.2.dev kc.2.vf r.win r.seq))).map (fun r => (kc.2, r)))

/-- A request from a peer, or, without one, a request of the device to itself. -/
def State.peerRequest (s : State) : Option State :=
  match s.input with
  | some (.peerRequest vf dev rvf win seq op) => some (s.requestAt vf dev rvf win seq op)
  | _ => s.turned.map (fun cr =>
      (s.connect cr.1.rvf cr.1.dev cr.1.vf).requestAt cr.1.rvf cr.1.dev cr.1.vf cr.2.win cr.2.seq cr.2.op_)

def execPeerRequest (s : State) : Host.Outcome State Fault Refusal := event s.peerRequest

/-- The writes that came before a flush notice have been performed: it is answered (R300). -/
def State.flushed (s : State) (vf dev rvf win : Nat) (seq : BitVec 32) : State :=
  let _ := win
  s.answerPeer (connKey vf dev rvf) seq .ok []

def execFlushNotice (vf dev rvf win : Nat) (seq : BitVec 32) (s : State) : Host.Outcome State Fault Refusal :=
  .next (s.flushed vf dev rvf win seq)

/-! ## Answers, resends and timeouts (R295, R296) -/

/-- An answer arrives on a connection. -/
def State.answerAt (s : State) (vf dev rvf : Nat) (seq : BitVec 32) (st : PeerStatus) (data : List Byte) : State :=
  let key := connKey vf dev rvf
  match s.conn key with
  | none => s
  | some c =>
    if c.ended || c.spilled then s
    else match c.sent.find? (fun r => r.seq == seq) with
      | none => s
      | some r => s.endRequest key c r (.inl (st, data))

/-- An answer of this device to a request of its own (R298). -/
def State.turnedAnswer (s : State) : Option (Conn × (BitVec 32 × PeerStatus × List Byte)) :=
  s.dev.conns.findSome? (fun kc =>
    if kc.2.dev != s.dev.devNum || kc.2.ended then none
    else kc.2.sent.findSome? (fun r =>
      ((s.conn (connKey kc.2.rvf kc.2.dev kc.2.vf)).bind (fun c => c.out.find? (fun a => a.1 == r.seq))).map (fun a => (kc.2, a))))

/-- An answer from a peer, or, without one, an answer of the device to itself. -/
def State.peerAnswer (s : State) : Option State :=
  match s.input with
  | some (.peerAnswer vf dev rvf seq st data) => some (s.answerAt vf dev rvf seq st data)
  | _ => s.turnedAnswer.map (fun ca => s.answerAt ca.1.vf ca.1.dev ca.1.rvf ca.2.1 ca.2.2.1 ca.2.2.2)

def execPeerAnswer (s : State) : Host.Outcome State Fault Refusal := event s.peerAnswer

/-- Who pays for a resend. -/
def State.requester (s : State) (vf : Nat) (r : Req) : Payer :=
  match r.kind, SMap.find s.rems r.op, SMap.find s.accs r.op with
  | .writeBack _ _ _ t, _, _ => .team t
  | .atomic _ _ _ _ _, _, some a => payerOf a.grp
  | .write _ _, some o, _ => payerOf o.grp
  | _, _, _ => .vf vf

/-- 50 µs without an answer: the request goes out again with its number (R295, R304). -/
def State.resend (s : State) (vf dev rvf : Nat) (seq : BitVec 32) : Option State :=
  let key := connKey vf dev rvf
  match s.conn key with
  | none => none
  | some c =>
    match c.sent.find? (fun r => r.seq == seq) with
    | none => none
    | some r =>
      if c.ended || s.now < r.sentAt + 50000 || r.firstAt + r.tmo * 1000 ≤ s.now then none
      else
        let sent := c.sent.map (fun (x : Req) => if x.seq == seq then { x with sentAt := s.now } else x)
        some ((s.setConn key { c with sent := sent }).charge (s.requester vf r) 19 (cdiv r.kind.payload 256))

def execResend (vf dev rvf : Nat) (seq : BitVec 32) (s : State) : Host.Outcome State Fault Refusal :=
  event (s.resend vf dev rvf seq)

/-- The remote timeout expires (R295, R296). -/
def State.peerTimeout (s : State) (vf dev rvf : Nat) (seq : BitVec 32) : Option State :=
  let key := connKey vf dev rvf
  match s.conn key with
  | none => none
  | some c =>
    match c.sent.find? (fun r => r.seq == seq) with
    | none => none
    | some r => if c.ended || s.now < r.firstAt + r.tmo * 1000 then none else some (s.endRequest key c r (.inr 0x42))

def execPeerTimeout (vf dev rvf : Nat) (seq : BitVec 32) (s : State) : Host.Outcome State Fault Refusal :=
  event (s.peerTimeout vf dev rvf seq)

/-- A spilled connection comes back into the cache, or ends because it fails authentication (R294). -/
def State.refillConn (s : State) : Option State :=
  match s.input with
  | some (.connectionRefill vf dev rvf ok) =>
    let key := connKey vf dev rvf
    some (match s.conn key with
      | none => s
      | some c =>
        if !c.spilled then s
        else if ok then s.spillOne.setConn key { c with spilled := false }
        else
          let s := s.setConn key { c with spilled := false, ended := true }
          (s.failAll key).audit 0x06 srcErrors (BitVec.ofNat 11 vf) noPart (5 + 256 * dev + 2 ^ 32 * errUncorrected.toNat))
  | _ => none

def execConnectionRefill (s : State) : Host.Outcome State Fault Refusal := event s.refillConn

/-- No port to another device is ready, or only the host link is usable (R315). -/
def State.unlinked (s : State) (c : Conn) : Bool :=
  c.dev != s.dev.devNum && (s.dev.ready.extractLsb' 34 16 == 0 || !s.dev.ready.getLsbD 50)

/-- Requests of the connection fail with PEER_LINK: it has ended, or no port is left for them (R294, R296, R315). -/
def State.cutOff (s : State) (c : Conn) : Bool := (c.ended || s.unlinked c) && (!c.sent.isEmpty || !c.queue.isEmpty)

/-- A device leaves the pod: its connections end. Without an input, requests that stand on an ended connection, or for which no
port is ready, fail (R296, R315). -/
def State.podLeave (s : State) : Option State :=
  match s.input with
  | some (.deviceLeavesPod dev) =>
    let s := s.modDev (fun d => { d with conns := d.conns.map (fun (c : Nat × Conn) =>
      (c.1, if c.2.dev == dev then { c.2 with ended := true } else c.2)) })
    some ((s.dev.conns.filter (fun c => c.2.dev == dev)).foldl (fun s c => s.failAll c.1) s)
  | _ =>
    (s.dev.conns.find? (fun c => s.cutOff c.2)).map (fun c => s.failAll c.1)

def execDeviceLeavesPod (s : State) : Host.Outcome State Fault Refusal := event s.podLeave

/-! ## Multicast groups (R298) -/

/-- A member record of 8 B; none where its reserved bits are not zero. -/
def Member_ofBits (v : Nat) : Option Member :=
  if v / 2 ^ 32 ≠ 0 then none
  else some { dev := BitVec.ofNat 10 v, vf := BitVec.ofNat 10 (v / 2 ^ 10), win := BitVec.ofNat 12 (v / 2 ^ 20) }

/-- An export of this device that a member names is ACTIVE and open to the owner. -/
def State.memberOk (s : State) (vf : Nat) (m : Member) : Bool :=
  m.dev.toNat != s.dev.devNum ||
    (match SMap.find (s.vf m.vf.toNat).exports m.win.toNat with
    | some e => e.st == 1 && !e.held && e.pdev.toNat == s.dev.devNum && e.pvf.toNat == vf
    | none => false)

/-- The PF registers a group, or its list is refused and changes nothing. A group keeps the connections of its members (log 33). -/
def State.registerGroup (s : State) : Option State :=
  match s.input with
  | some (.multicastGroupRegistration grp vf tmo table n named) =>
    let ms := (List.range n).filterMap (fun i => Member_ofBits (Store.load s.mem (table + 8 * i) 8))
    let devs := ms.map (fun m => m.dev.toNat % 512)
    let ok := decide (grp < 4096) && decide (1 ≤ n) && decide (n ≤ 512) && ms.length == n &&
      (tmo == 0 || (decide (100 ≤ tmo) && decide (tmo ≤ 100000))) && devs.eraseDups.length == n && named && ms.all (s.memberOk vf)
    let old : List (Nat × Member) := match SMap.find s.dev.mcasts grp with | some g => g.members.map (fun m => (g.vf, m)) | none => []
    some (if ok then
        let s := s.modDev (fun d =>
          { d with mcasts := SMap.put d.mcasts grp { vf := vf, tmo := if tmo = 0 then 1000 else tmo, members := ms } })
        let s := ms.foldl (fun s m => s.connect vf m.dev.toNat m.vf.toNat) s
        old.foldl (fun s vm => s.disconnect vm.1 vm.2.dev.toNat vm.2.vf.toNat) s
      else s)
  | _ => none

def execMulticastGroupRegistration (s : State) : Host.Outcome State Fault Refusal := event s.registerGroup

/-! ## Bandwidth (R278) -/

/-- Bytes that a leaf may move in a window of 1 µs at one controller. -/
def Leaf.share (l : Leaf) : Nat := l.conf.bandwidth * 1000

/-- A new window begins: what was moved beyond the share counts against the next. -/
def State.newWindow (s : State) (n : Nat) : Option State :=
  match s.leaf n with
  | none => none
  | some l =>
    if l.window.isEmpty || s.now < l.windowAt + 1000 then none
    else some (s.modLeaf n (fun l => { l with
      window := Store.wrs [] (l.window.map (fun kv => (kv.1, BitVec.ofNat 64 (kv.2.toNat - l.share)))), windowAt := s.now }))

def execRateLimiterWindow (leaf : Nat) (s : State) : Host.Outcome State Fault Refusal := event (s.newWindow leaf)

end Sys2Proof.Machine
end

