-- ==== Sys2Proof/Machine/System.lean ====
section
/-! DEFINITION. Meanings of RDSR and WRSR (R32, R339, R434, R467, R468). -/

namespace Sys2Proof.Machine

open Sys2Proof

/-- Registers of a special register. -/
def sregWide (r : SReg) : Bool :=
  match r with
  | .clock => true
  | .time => true
  | .trappc => true
  | .faddr => true
  | _ => false

/-- A read raises DET_VIOLATION in a DET launch (R284). -/
def sregNondet (r : SReg) : Bool :=
  match r with
  | .clock => true
  | .time => true
  | .core => true
  | .die => true
  | .sect => true
  | _ => false

/-- sr.crew (R32). -/
def Launch.crewWord (l : Launch) (g : Nat) : Nat :=
  match l.crewOf g with
  | some (c, m) => c % 2 ^ 16 + m * 2 ^ 16 + l.n * 2 ^ 24
  | none => 0xFFFFFFFF

/-- The value of a special register in a lane. -/
def Ctx.sreg (x : Ctx) (s : State) (r : SReg) (lane : Nat) : Nat :=
  let l := s.launch (launchOf x.k)
  let ofLaunch (f : Launch → Nat) : Nat := match l with | some l => f l | none => 0
  match r with
  | .lane => lane
  | .group => groupNo x.k
  | .ngroups => ofLaunch (fun l => l.g)
  | .team => teamNo x.k
  | .core => x.g.core % 16
  | .sect => x.g.sect
  | .die => dieOf x.g.core
  | .crew => ofLaunch (fun l => l.crewWord (groupNo x.k))
  | .role => ofLaunch (fun l => if l.consumer (groupNo x.k) then 1 else 0)
  | .vf => vfOf x.k
  | .part => s.leafOf x.k
  | .clock => (s.core x.g.core).clock.toNat
  | .time => s.now % 2 ^ 64
  | .fmode => x.g.fmode.toNat
  | .status => (x.g.status &&& 7).toNat + (if x.g.supv x.e then 8 else 0)
  | .xlim => x.g.xlim.toNat
  | .frag => x.e.frag.toNat
  | .parent => if x.e.fr then x.e.parent.toNat else 0xFFFFFFFF
  | .sibs => (x.g.sibs x.e).toNat
  | .cause => x.g.frame.cause.toNat
  | .trappc => x.g.frame.pc.toNat
  | .skid => x.g.frame.skid.toNat
  | .faddr => x.g.frame.faddr.toNat

def opRdsr (c : Alu) (r : SReg) : Op :=
  let scalar := match c.out.dst with
    | some (.s _) => true
    | _ => false
  let u : Use :=
    { g := c.g, lu := c.lu, dst := c.out.dst, dw := if sregWide r then 2 else 1, latch := c.out.latch
      cls := some (if scalar then 4 else 0) }
  word u (fun x s =>
    if sregNondet r && s.isDet x.k then x.trapCmd s 0x28 0 else x.done (x.write u s (x.sreg s r)))
def execRdsr (c : Alu) (r : SReg) (s : State) : Host.Outcome State Fault Refusal :=
  (opRdsr c r).run s

def opWrsr (c : Ctl) (r : WReg) (a : Src) : Op :=
  let sa := { srcIn 0 a with uni := true }
  word { g := c.g, lu := c.lu, srcs := [sa], cls := some 4 } (fun x s =>
    let v := BitVec.ofNat 32 (x.uni s sa)
    x.done (s.modGroup x.k (fun g => g.putSr r v)))
def execWrsr (c : Ctl) (r : WReg) (a : Src) (s : State) : Host.Outcome State Fault Refusal :=
  (opWrsr c r a).run s

end Sys2Proof.Machine
end

