-- ==== Sys2Proof/Machine/Words.lean ====
section
/-! DEFINITION. The words as the issue takes them: the use and the body of every instruction word. -/

namespace Sys2Proof.Machine

open Sys2Proof

/-- The use and the body of a word in a state; none for what is no word of a group: events, messages, host commands and host
requests. -/
def wordOp (i : Instr) (s : State) : Option Op :=
  match i with
  | .nop => some (opNop)
  | .iadd c t a b => some (opIadd c t a b)
  | .iaddCc c pco a b ci => some (opIaddCc c pco a b ci)
  | .isub c t a b => some (opIsub c t a b)
  | .imad c t a b d => some (opImad c t a b d)
  | .imadWide c t a b d => some (opImadWide c t a b d)
  | .imul c t hi a b => some (opImul c t hi a b)
  | .imnmx c t max a b => some (opImnmx c t max a b)
  | .isetp c pd t cmp a b => some (opIsetp c pd t cmp a b)
  | .idp4 c az bz a b d => some (opIdp4 c az bz a b d)
  | .lop3 c lut a b d => some (opLop3 c lut a b d)
  | .shl c a b => some (opShl c a b)
  | .shr c t a b => some (opShr c t a b)
  | .bfe c t a b d => some (opBfe c t a b d)
  | .bfi c a b d => some (opBfi c a b d)
  | .brev c a => some (opBrev c a)
  | .clz c a => some (opClz c a)
  | .popc c a => some (opPopc c a)
  | .lea c t a b n => some (opLea c t a b n)
  | .prmt c a b d => some (opPrmt c a b d)
  | .sel c wide neg pc a b => some (opSel c wide neg pc a b)
  | .mov c t a => some (opMov c t a)
  | .fadd c t r a b => some (opFadd c t r a b)
  | .fsub c t r a b => some (opFsub c t r a b)
  | .fmul c t r a b => some (opFmul c t r a b)
  | .ffma c t r a b d => some (opFfma c t r a b d)
  | .fmnmx c t max a b => some (opFmnmx c t max a b)
  | .fsetp c pd t cmp a b => some (opFsetp c pd t cmp a b)
  | .fclass c t a m => some (opFclass c t a m)
  | .fdot2 c t a b d => some (opFdot2 c t a b d)
  | .sfnRcp c a => some (opSfnRcp c a)
  | .sfnRsq c a => some (opSfnRsq c a)
  | .sfnSqrt c a => some (opSfnSqrt c a)
  | .sfnExp2 c a => some (opSfnExp2 c a)
  | .sfnLog2 c a => some (opSfnLog2 c a)
  | .sfnSin c a => some (opSfnSin c a)
  | .sfnCos c a => some (opSfnCos c a)
  | .sfnTanh c a => some (opSfnTanh c a)
  | .hadd2 c t a b => some (opHadd2 c t a b)
  | .hmul2 c t a b => some (opHmul2 c t a b)
  | .hfma2 c t a b d => some (opHfma2 c t a b d)
  | .cvt c dt st r a => some (opCvt c dt st r a)
  | .cbenc c bf a k => some (opCbenc c bf a k)
  | .cbdec c a k => some (opCbdec c a k)
  | .shflIdx c z wc pd a b => some (opShflIdx c z wc pd a b)
  | .shflUp c z wc pd a b => some (opShflUp c z wc pd a b)
  | .shflDown c z wc pd a b => some (opShflDown c z wc pd a b)
  | .shflXor c z wc pd a b => some (opShflXor c z wc pd a b)
  | .voteAll c pd neg pa => some (opVoteAll c pd neg pa)
  | .voteAny c pd neg pa => some (opVoteAny c pd neg pa)
  | .voteUni c pd neg pa => some (opVoteUni c pd neg pa)
  | .ballot c neg pa => some (opBallot c neg pa)
  | .matchAny c wide a => some (opMatchAny c wide a)
  | .matchAll c wide pd a => some (opMatchAll c wide pd a)
  | .gred c op a => some (opGred c op a)
  | .elect g d => some (opElect g d)
  | .bra g target prio => some (opBra g target prio)
  | .brx c a prio => some (opBrx c a prio)
  | .call g d target prio => some (opCall g d target prio)
  | .ret g a => some (opRet g a)
  | .exit g => some (opExit g)
  | .conv => some (opConv)
  | .yield g => some (opYield g)
  | .bkpt g => some (opBkpt g)
  | .trap g sv => some (opTrap g sv)
  | .tret => some (opTret)
  | .tretSkip => some (opTretSkip)
  | .ld c t d m => some (opLd c t d m)
  | .ldSupv c t d off imm => some (opLdSupv c t d off imm)
  | .st c t m b => some (opSt c t m b)
  | .stSupv c t off imm b => some (opStSupv c t off imm b)
  | .ldf g t d m sl sk => some (opLdf g t d m sl sk s)
  | .stf g t d m sl sk => some (opStf g t d m sl sk s)
  | .prefL1 c m => some (opPrefL1 c m)
  | .prefL2 c m => some (opPrefL2 c m)
  | .cbld c m k => some (opCbld c m k)
  | .atomAdd c o sc wide d m b => some (opAtomAdd c o sc wide d m b)
  | .atomMin c o sc uns d m b => some (opAtomMin c o sc uns d m b)
  | .atomMax c o sc uns d m b => some (opAtomMax c o sc uns d m b)
  | .atomAnd c o sc wide d m b => some (opAtomAnd c o sc wide d m b)
  | .atomOr c o sc wide d m b => some (opAtomOr c o sc wide d m b)
  | .atomXor c o sc wide d m b => some (opAtomXor c o sc wide d m b)
  | .atomExch c o sc wide d m b => some (opAtomExch c o sc wide d m b)
  | .atomAddf c o sc d m b => some (opAtomAddf c o sc d m b)
  | .redAdd c o sc wide m b => some (opRedAdd c o sc wide m b)
  | .redMin c o sc uns m b => some (opRedMin c o sc uns m b)
  | .redMax c o sc uns m b => some (opRedMax c o sc uns m b)
  | .redAnd c o sc wide m b => some (opRedAnd c o sc wide m b)
  | .redOr c o sc wide m b => some (opRedOr c o sc wide m b)
  | .redXor c o sc wide m b => some (opRedXor c o sc wide m b)
  | .redAddf c o sc m b => some (opRedAddf c o sc m b)
  | .cas c o sc wide d m cv nv => some (opCas c o sc wide d m cv nv)
  | .borX c sd q sa sl => some (opBorX c sd q sa sl)
  | .borS c sd q sa sl => some (opBorS c sd q sa sl)
  | .borA c sd q sa sl => some (opBorA c sd q sa sl)
  | .borO c sd q sa sl => some (opBorO c sd q sa sl)
  | .borXTry c sd q sa sl => some (opBorXTry c sd q sa sl)
  | .borSTry c sd q sa sl => some (opBorSTry c sd q sa sl)
  | .borATry c sd q sa sl => some (opBorATry c sd q sa sl)
  | .borOTry c sd q sa sl => some (opBorOTry c sd q sa sl)
  | .rebor c qd qs so sl => some (opRebor c qd qs so sl)
  | .reborS c qd qs so sl => some (opReborS c qd qs so sl)
  | .split g qd qs sg sn sm => some (opSplit g qd qs sg sn sm)
  | .join g qs => some (opJoin g qs)
  | .retb g q => some (opRetb g q)
  | .qset c k q so sl => some (opQset c k q so sl)
  | .qsetEmpty g q => some (opQsetEmpty g q)
  | .qinfo g sd q sel => some (opQinfo g sd q sel)
  | .barArrive c sd sk sn => some (opBarArrive c sd sk sn)
  | .barWait c sk sp => some (opBarWait c sk sp)
  | .barSync c sk sn => some (opBarSync c sk sn)
  | .mbarInit g m sc => some (opMbarInit g m sc)
  | .mbarExpect g m sx => some (opMbarExpect g m sx)
  | .mbarArrive g sd m => some (opMbarArrive g sd m)
  | .mbarTrywait g pd m sp => some (opMbarTrywait g pd m sp)
  | .mbarWait g m sp => some (opMbarWait g m sp)
  | .fence g sc => some (opFence g sc)
  | .fenceLayout g => some (opFenceLayout g)
  | .sigDec g sc m sv => some (opSigDec g sc m sv)
  | .sigAdd g sc m sv => some (opSigAdd g sc m sv)
  | .sigSet g sc m sv => some (opSigSet g sc m sv)
  | .sigw g cmp sc m c => some (opSigw g cmp sc m c)
  | .ftile g sd => some (opFtile g sd)
  | .yardAnswer _ => none
  | .mma g q so => some (opMma g q so)
  | .capture _ _ => none
  | .mmaComplete _ => none
  | .rendezvousWithdrawal _ => none
  | .accZero g st => some (opAccZero g st)
  | .accLd g t d st sb => some (opAccLd g t d st sb s)
  | .accSt g t vs st sb => some (opAccSt g t vs st sb s)
  | .accDrain g t m st sl sm => some (opAccDrain g t m st sl sm s)
  | .copyLin c sd qd qs sa sb sl => some (opCopyLin c sd qd qs sa sb sl)
  | .copyTileLd c sd ql qg so sc => some (opCopyTileLd c sd ql qg so sc)
  | .copyTileSt c sd ql qg so sc => some (opCopyTileSt c sd ql qg so sc)
  | .copyGather c sd ql qg so sb sc => some (opCopyGather c sd ql qg so sb sc)
  | .copyLinMb c sm qd qs sa sb sl => some (opCopyLinMb c sm qd qs sa sb sl)
  | .copyTileLdMb c ql qg so sc => some (opCopyTileLdMb c ql qg so sc)
  | .copyTileStMb c ql qg so sc => some (opCopyTileStMb c ql qg so sc)
  | .copyGatherMb c ql qg so sb sc => some (opCopyGatherMb c ql qg so sb sc)
  | .copyComplete _ _ => none
  | .sweepWb g sd q so sl => some (opSweepWb g sd q so sl)
  | .sweepInv g sd q so sl => some (opSweepInv g sd q so sl)
  | .sweepWbinv g sd q so sl => some (opSweepWbinv g sd q so sl)
  | .sweepWbMb g sm q so sl => some (opSweepWbMb g sm q so sl)
  | .sweepInvMb g sm q so sl => some (opSweepInvMb g sm q so sl)
  | .sweepWbinvMb g sm q so sl => some (opSweepWbinvMb g sm q so sl)
  | .sweepComplete _ _ => none
  | .rld c t sd d q vo => some (opRld c t sd d q vo)
  | .rst c t sd q vo vs => some (opRst c t sd q vo vs)
  | .rmst c sd sg q sb sc => some (opRmst c sd sg q sb sc)
  | .rflush g sd q => some (opRflush g sd q)
  | .rflushMc c sd sg so => some (opRflushMc c sd sg so)
  | .migrateAddr lu m => some (opMigrateAddr lu m)
  | .migrateHome => some (opMigrateHome)
  | .landing _ => none
  | .flushByContextTag _ _ _ _ => none
  | .flushAcknowledge _ _ => none
  | .collAllred c sd op ty fo qd qs sc => some (opCollAllred c sd op ty fo qd qs sc)
  | .collRedsc c sd op ty fo qd qs sc => some (opCollRedsc c sd op ty fo qd qs sc)
  | .collAllga c sd ty fo qd qs sc => some (opCollAllga c sd ty fo qd qs sc)
  | .collBcast c sd ty fo qd qs sc => some (opCollBcast c sd ty fo qd qs sc)
  | .inNetworkReduction _ _ _ => none
  | .rdsr c r => some (opRdsr c r)
  | .wrsr c r a => some (opWrsr c r a)
  | .mtrVf g sd => some (opMtrVf g sd)
  | .mtrLaunch g sd => some (opMtrLaunch g sd)
  | .mtrTeam g sd => some (opMtrTeam g sd)
  | .mtrQuota g sd => some (opMtrQuota g sd)
  | .groupActivation _ _ => none
  | .swapOut _ => none
  | .registerFill _ _ => none
  | .loadComplete _ => none
  | .impreciseFault _ => none
  | .lineFill _ _ _ _ => none
  | .claim _ _ => none
  | .grant _ _ _ _ => none
  | .refuse _ _ _ => none
  | .release _ _ _ _ => none
  | .withdraw _ _ _ => none
  | .writeBackResponse _ _ => none
  | .borrowTimeout _ _ => none
  | .claimSweep _ => none
  | .walkComplete _ => none
  | .pageMissEntryTake _ => none
  | .faultBufferMove _ _ => none
  | .reportingRound => none
  | .launch _ _ => none
  | .waitsig _ _ _ _ => none
  | .setsigSet _ _ _ => none
  | .setsigAdd _ _ _ => none
  | .setsigDec _ _ _ => none
  | .hcopy _ _ _ _ _ => none
  | .hcopyComplete _ => none
  | .mark _ _ => none
  | .resume _ _ _ => none
  | .dispatch => none
  | .coreGrant _ => none
  | .teamPlacement _ => none
  | .teamCompletion _ => none
  | .completionRecord _ _ => none
  | .periodStart => none
  | .sliceEnd _ => none
  | .sliceEndEviction _ => none
  | .blockingPointEviction _ => none
  | .teamRestore _ => none
  | .posting => none
  | .forcedFullSave _ => none
  | .stopComplete _ => none
  | .hang _ => none
  | .signalPoll _ _ => none
  | .invalComplete _ => none
  | .auditAppend => none
  | .scrub _ => none
  | .scrubComplete _ => none
  | .revocationComplete _ _ => none
  | .peerGrantTimeout _ _ => none
  | .multicastReplication _ => none
  | .flushNotice _ _ _ _ _ => none
  | .resend _ _ _ _ => none
  | .peerTimeout _ _ _ _ => none
  | .unassignedOpc _ => none
  | .l1WriteBack _ _ => none
  | .atomicAcknowledgement _ _ _ => none
  | .rateLimiterWindow _ => none
  | .doorbell => none
  | .queueEnable => none
  | .sharedCosts => none
  | .reconciliation => none
  | .throttleStep => none
  | .thermalShutdown => none
  | .replayAll => none
  | .inval => none
  | .mappingRequest => none
  | .quotaWrite => none
  | .checkpoint => none
  | .residentWrite => none
  | .supvWrite => none
  | .registerWrite => none
  | .drainedWrite => none
  | .sealreq => none
  | .deviceReset => none
  | .unitBringup => none
  | .firmwareUpdate => none
  | .partitionConfiguration => none
  | .vfCreation => none
  | .vfReset => none
  | .vfRelease => none
  | .stage2Change => none
  | .errorDetected => none
  | .selfTest => none
  | .getVersion => none
  | .getCapabilities => none
  | .negotiateAlgorithms => none
  | .getDigests => none
  | .getCertificate => none
  | .challenge => none
  | .getMeasurements => none
  | .keyExchange => none
  | .sessionFinish => none
  | .endSession => none
  | .vendorDefinedMessage => none
  | .ideKmKeyProgramming => none
  | .lockInterface => none
  | .stopInterface => none
  | .ideIntegrityFailure => none
  | .debugStop => none
  | .debugRead => none
  | .debugWrite => none
  | .debugStep => none
  | .debugCancel => none
  | .debugCancelBor => none
  | .debugResume => none
  | .exportWindow => none
  | .importWindow => none
  | .revoke => none
  | .revocationNotice => none
  | .multicastGroupRegistration => none
  | .peerRequest => none
  | .peerAnswer => none
  | .connectionRefill => none
  | .deviceLeavesPod => none
  | .startInterface => none
  | .importFree => none

end Sys2Proof.Machine
end

