-- ==== Sys2Proof/Machine/Picks.lean ====
section
/-! DEFINITION. What the picks of a section look at: issue classes (R476), marked pairs (R83), and whether a group may leave the
active set (R76). -/

namespace Sys2Proof.Machine

open Sys2Proof

/-! ## The word at an entry -/

/-- OPC and operands of the word at a PC, as far as its line is cached and a form of the opcode table has it. -/
def State.useAt (s : State) (k : Nat) (g : Group) (e : Entry) (pc : VAddr) : Option (Nat × Use) :=
  match s.wordAt g k pc with
  | none => none
  | some w =>
    match decodeSlot w with
    | .error _ => none
    | .ok i => (wordOp i { s with cur := some { grp := k, frag := e.frag } }).map (fun o => ((w.extractLsb' 0 10).toNat, o.use))

/-! ## Issue classes (R476) -/

inductive IssueClass | control | loadStore | engine | pipe | uniform
deriving DecidableEq, Repr

/-- OPCs of the load/store class. -/
def opcLoadStore (o : Nat) : Bool :=
  (decide (0x140 ≤ o) && decide (o < 0x1C0) && o != 0x18D && o != 0x18E) ||
    (decide (0x1C3 ≤ o) && decide (o ≤ 0x1C7)) || (decide (0x1CA ≤ o) && decide (o ≤ 0x1CD))

/-- OPCs of the engine class. -/
def opcEngine (o : Nat) : Bool :=
  decide (0x200 ≤ o) && decide (o < 0x280) && o != 0x245 && o != 0x246

/-- OPCs that R476 names under the uniform class. -/
def opcUniform (o : Nat) : Bool :=
  [0x18D, 0x18E, 0x1C0, 0x1C1, 0x1C2, 0x1C8, 0x1C9, 0x1CE, 0x245, 0x246].contains o

/-- The operands reach a pipe: a v, latch, predicate-value, x or indexed source, a v, p, x or indexed destination, or a latch
captured. -/
def Use.piped (u : Use) : Bool :=
  !u.vr.isEmpty || !u.vw.isEmpty || !u.pr.isEmpty || !u.pw.isEmpty || u.latch.isSome ||
    u.srcs.any (fun a => match a.src with | .v _ => true | .l _ => true | .p _ => true | .x _ => true | .vx _ _ => true | _ => false) ||
    (match u.dst with | none => false | some (.s _) => false | _ => true)

/-- The class of an instruction: the first row of R476 that fits. -/
def issueClass (o : Nat) (u : Use) : IssueClass :=
  if 0x100 ≤ o && o < 0x140 then .control
  else if opcLoadStore o then .loadStore
  else if opcEngine o then .engine
  else if u.piped && !opcUniform o then .pipe
  else .uniform

/-- Blocking points by OPC (R52). -/
def opcBlocks (o : Nat) : Bool :=
  [0x180, 0x181, 0x182, 0x183, 0x1C1, 0x1C2, 0x1C7, 0x1CD, 0x245, 0x246].contains o

/-! ## Marked pairs (R83, R357) -/

/-- Two instructions of one entry may take both slots: the first is no control instruction and no blocking point, the second reads
and writes nothing that the first writes, they are not of one class but the control class, and read at most 4 distinct scalars. -/
def pairOk (g : Group) (m : BitVec 32) (a b : Nat × Use) : Bool :=
  let lanes := lanesOf m
  let w := (a.2.writes g lanes).filter (· != .p 7)
  issueClass a.1 a.2 != .control && !opcBlocks a.1 && issueClass a.1 a.2 != issueClass b.1 b.2 &&
    (b.2.reads g lanes).all (fun r => !w.contains r) && (b.2.writes g lanes).all (fun r => !w.contains r) &&
    decide ((a.2.sRead ++ b.2.sRead).eraseDups.length ≤ 4)

/-- The entry that takes the second slot of a section: it stands at the instruction that LINE.PAIR marks with the one that took the
first. -/
def State.secondSlot (s : State) (core sect : Nat) : Option (Nat × BitVec 5) :=
  match ((s.core core).sect sect).pair with
  | none => none
  | some (k, pc) =>
    match s.group k, s.cached core (vfOf k) (pcLine pc) with
    | some g, some line =>
      let j := (pc &&& 7).toNat
      if !g.active || g.core != core || g.sect != sect || decide (4 ≤ j) || !linePair line.data j then none
      else match g.entries.find? (fun e => e.st == .ready && e.pc == pc + 1) with
        | none => none
        | some e =>
          match s.useAt k g e pc, s.useAt k g e (pc + 1) with
          | some a, some b => if pairOk g e.mask a b then some (k, e.frag) else none
          | _, _ => none
    | _, _ => none

/-- The pipe, the ports or the engines that an entry's instruction needs may be occupied (R85, R86): a control instruction needs none.
When they are occupied is a free value. -/
def State.occupied (s : State) (k : Nat) (g : Group) (e : Entry) : Bool :=
  (match s.useAt k g e e.pc with
  | some (o, u) => issueClass o u != .control
  | none => false) && Config.freeBool s.tick (2 ^ 32 + 32 * k + e.frag.toNat)

/-! ## Swap-out (R76) -/

/-- The next instruction is a QINFO of a register whose borrow is not answered (R432). -/
def State.awaitsClaim (s : State) (k : Nat) (g : Group) (e : Entry) : Bool :=
  match (s.wordAt g k e.pc).map decodeSlot with
  | some (.ok (.qinfo _ _ q _)) => (g.reg q.toNat).pend
  | _ => false

/-- A READY entry waits for what R76 lists: the result of a command, of a claim or of a long load that its next instruction awaits
(R432), or long accesses that the instruction is ordered behind. -/
def State.waitsLong (s : State) (k : Nat) (g : Group) (e : Entry) : Bool :=
  match s.useAt k g e e.pc with
  | none => false
  | some (_, u) =>
    let pass := g.passing u.g e.mask
    match u.awaits g pass with
    | some p => p.kind != .load || (match SMap.find s.accs p.op with | some a => a.long | none => false) ||
        g.bors.any (fun b => b.2.op == p.op)
    | none =>
      s.awaitsClaim k g e ||
      let opens := s.openAccs k e.mask
      opens.any (fun a => a.long) && (!skidRoom opens || u.order || (u.touches && opens.any (fun a => a.acq && a.lanes &&& pass != 0)))

/-- An entry with which its group may leave: PARKED, at CONV, BLOCKED at something other than a fill that hit the L1 (R70), or READY
and waiting for something long. -/
def State.leaves_ (s : State) (k : Nat) (g : Group) (e : Entry) : Bool :=
  match e.st with
  | .ready => s.waitsLong k g e
  | .blocked => !g.wakes.any (fun w => w.frag == e.frag && w.code == 9 &&
      (SMap.find g.lines w.arg.toNat).any (fun l => l.st == .filling && !l.long))
  | _ => true

/-- The group may leave the active set: no next instruction reads a latch, no arrival at a rendezvous (R82), and each entry allows
it. That no READY entry can issue is the step's to see. -/
def State.mayLeave (s : State) (k : Nat) (g : Group) : Bool :=
  g.active && !g.entries.isEmpty && g.arrivals.isEmpty && !s.latchNext g k && g.entries.all (s.leaves_ k g)

def State.swapOutEvent (s : State) (k : Nat) : Option State :=
  match s.group k with
  | none => none
  | some g => if s.mayLeave k g then some (s.swapOut k) else none

def execSwapOut (grp : Nat) (s : State) : Host.Outcome State Fault Refusal := event (s.swapOutEvent grp)

end Sys2Proof.Machine
end

