-- ==== Sys2Proof/Machine/Registers.lean ====
section
/-! DEFINITION. The register pages of the functions and the PF's control blocks (R267 to R269, R151): what a 32-bit write does and what
a read gives. A write of a field that has a row of its own in the opcode table does what that row's event does. -/

namespace Sys2Proof.Machine

open Sys2Proof

/-! ## Fields -/

/-- Replace bits `lo` to `lo + n - 1` of a number. -/
def putBits (x lo n v : Nat) : Nat := x - x / 2 ^ lo % 2 ^ n * 2 ^ lo + v % 2 ^ n * 2 ^ lo

/-- An address [56:12] whose low or high 32 bits are written. -/
def putLow (base v : Nat) : Nat := putBits base 12 20 (v / 4096)
def putHigh (base v : Nat) : Nat := putBits base 32 25 v

/-- A locked field is written in CONFIG_LOCKED or RUN: the TDI goes to ERROR (R282). A word that holds other fields too writes a
locked one where it gives it another value (log 55). -/
def State.guardLock (s : State) (fn : Nat) (writes : Bool) (ok : State) : State :=
  if fn < 1024 && (s.vf fn).isLocked && writes then s.tdiError fn else ok

/-! ## Queue descriptors (R269) -/

/-- The descriptor after a write of one of its words; HEAD and CPROD are read-only. -/
def Queue.writeWord (q : Queue) (w v : Nat) : Queue :=
  match w with
  | 0 =>
    { q.enable (fld v 0 1 == 1) with
      cls := BitVec.ofNat 2 (fld v 1 2), sz := BitVec.ofNat 3 (fld v 4 3), ring := putLow q.ring v }
  | 1 => { q with ring := putHigh q.ring v }
  | 2 => { q with cring := putBits q.cring 12 20 (fld v 12 20) }
  | 3 => { q with cring := putBits q.cring 32 25 (fld v 0 25) }
  | 5 => { q with ccons := BitVec.ofNat 16 v }
  | _ => q

/-- The word read at a descriptor. -/
def Queue.readWord (q : Queue) (w : Nat) : Nat :=
  match w with
  | 0 => (if q.en then 1 else 0) + 2 * q.cls.toNat + (if q.err then 8 else 0) + 16 * q.sz.toNat + fld q.ring 12 20 * 4096
  | 1 => fld q.ring 32 25
  | 2 => fld q.cring 12 20 * 4096
  | 3 => fld q.cring 32 25
  | 4 => q.head.toNat + 65536 * q.cprod.toNat
  | 5 => q.ccons.toNat
  | _ => 0

def State.writeQueue (s : State) (fn q w v : Nat) : State :=
  let x := (s.fn fn).queue q
  let y := x.writeWord w v
  s.guardLock fn (w == 1 || w == 2 || w == 3 || x.ring != y.ring) (s.modQueue fn q (fun _ => y))

/-! ## Fault rings (R147, R267) -/

/-- A ring after a write at an offset of its block. -/
def Ring.writeWord (r : Ring) (off v : Nat) : Ring :=
  match off with
  | 0x0 => { r with base := putLow r.base v }
  | 0x4 => { r with base := putHigh r.base v }
  | 0x8 => { r with k := BitVec.ofNat 5 v }
  | 0x10 => { r with cons := BitVec.ofNat 32 v }
  | _ => r

def Ring.readWord (r : Ring) (off : Nat) : Nat :=
  match off with
  | 0x0 => fld r.base 12 20 * 4096
  | 0x4 => fld r.base 32 25
  | 0x8 => r.k.toNat
  | 0xC => r.prod.toNat
  | 0x10 => r.cons.toNat
  | _ => 0

def State.writeRing (s : State) (fn : Nat) (second : Bool) (off v : Nat) : State :=
  let x := (s.fn fn).ringOf second
  let y := x.writeWord off v
  s.guardLock fn (off == 0 || off == 4) (s.modFn fn (fun f => f.setRing second y))

/-! ## INVAL (R151) -/

/-- The registers after a write, ignored while a request is in progress; TVF is the PF's. -/
def Fn.writeInval (f : Fn) (fn off v : Nat) : Fn :=
  if f.invGo then f
  else match off with
    | 0x340 => { f with invVa := putBits f.invVa 16 16 (fld v 16 16) }
    | 0x344 => { f with invVa := putBits f.invVa 32 25 (fld v 0 25) }
    | 0x348 => { f with invNpg := BitVec.ofNat 32 v }
    | _ => { f with
      invGo := fld v 0 1 == 1, invIrq := fld v 1 1 == 1, invVec := BitVec.ofNat 5 (fld v 2 5)
      invTvf := if fn = 1024 then BitVec.ofNat 10 (fld v 16 10) else f.invTvf }

def Fn.readInval (f : Fn) (fn off : Nat) : Nat :=
  match off with
  | 0x340 => fld f.invVa 16 16 * 65536
  | 0x344 => fld f.invVa 32 25
  | 0x348 => f.invNpg.toNat
  | _ => (if f.invGo then 1 else 0) + (if f.invIrq then 2 else 0) + 4 * f.invVec.toNat +
    (if fn = 1024 then f.invTvf.toNat * 65536 else 0)

/-! ## MSI-X -/

/-- A word of the MSI-X table; that of a vector's control holds bit 0 inverted (log 62). -/
def State.writeMsix (s : State) (fn i v : Nat) : State :=
  let x := BitVec.ofNat 32 (if i % 4 = 3 then v ^^^ 1 else v)
  let s := s.guardLock fn true (s.modFn fn (fun f => { f with msix := Store.wr f.msix i x }))
  let n := i / 4
  if (s.fn fn).pba.getLsbD n && !(s.fn fn).masked n then (s.modFn fn (fun f => { f with pba := f.pba &&& ~~~(1#32 <<< n) })).deliverIrq fn n else s

def Fn.readMsix (f : Fn) (i : Nat) : Nat :=
  let x := (Store.rd f.msix i).toNat
  if i % 4 = 3 then x ^^^ 1 else x

/-! ## Control blocks (R268) -/

/-- The VF has no launch in flight. -/
def State.atRest (s : State) (v : Nat) : Bool := (s.launchesOf v).isEmpty

/-- Word 0 of a control block as written: EN, RESIDENT, CLAMP and WEIGHT always; COEF, TEST and LEAF while no launch is in flight,
and LEAF only to a leaf that exists, while the audit log is not full for assignments (R226, R268, R310). -/
def State.writeControl0 (s : State) (v x : Nat) : State :=
  let f := s.vf v
  let leaf := BitVec.ofNat 6 (fld x 8 6)
  let newLeaf := s.atRest v && !s.dev.auditFull && (s.leaf leaf.toNat).isSome && leaf != f.leaf
  let g : Vf := { f with
    en := fld x 0 1 == 1, resident := fld x 1 1 == 1, clamp := fld x 2 1 == 1, weight := BitVec.ofNat 4 (fld x 14 4)
    coef := if s.atRest v then fld x 3 1 == 1 else f.coef
    test := if s.atRest v then fld x 5 1 == 1 else f.test
    leaf := if newLeaf then leaf else f.leaf }
  let writes := g.clamp != f.clamp || (fld x 3 1 == 1) != f.coef || (fld x 5 1 == 1) != f.test || leaf != f.leaf
  let s' := s.setVf v g
  let s' := if newLeaf then s'.audit 0x04 srcMonitor (BitVec.ofNat 11 v) (leaf.setWidth 7) 1 else s'
  let s' := if fld x 6 1 == 1 && !s'.dev.ckpts.contains v then
      (s'.modVf v (fun f => { f with ckpt := true })).modDev (fun d => { d with ckpts := d.ckpts ++ [v] })
    else s'
  s.guardLock v writes s'

/-- SIGKEY with four of its bytes written; its first byte stands at the lowest address. -/
def putKey (key : BitVec 512) (i v : Nat) : BitVec 512 :=
  let bs := digestBytes key
  BitVec.ofNat 512 (ofBytesBe (bs.take (4 * i) ++ bytesOf 4 v ++ bs.drop (4 * i + 4)))

/-- A write of word `w` of a VF's control block. The log that CLOG names is written from its start. -/
def State.writeControl (s : State) (v w x : Nat) : State :=
  let rest := s.atRest v
  let clog (f : Vf) : Vf := { f with logPos := 0, logSeq := 0, logging := true, migr := false }
  if !(s.vf v).live then s
  else if w = 0 then s.writeControl0 v x
  else if w = 1 then (if rest then s.modVf v (fun f => { f with slice := BitVec.ofNat 32 x }) else s)
  else if w = 2 then s.modVf v (fun f => f.setQuota (BitVec.ofNat 64 (putBits f.quota.toNat 0 32 x)))
  else if w = 3 then s.modVf v (fun f => f.setQuota (BitVec.ofNat 64 (putBits f.quota.toNat 32 32 x)))
  else if w = 4 then
    let b := putBits (s.vf v).ilog 12 32 x
    s.guardLock v true (s.modVf v (fun f => { f with ilog := b }))
  else if w = 5 then
    let b := putBits (s.vf v).ilog 44 13 x
    s.guardLock v (b != (s.vf v).ilog) (s.modVf v (fun f => { f with ilog := b, ilsz := BitVec.ofNat 4 (fld x 24 4) }))
  else if 8 ≤ w && w < 24 then
    let k := putKey (s.vf v).sigkey (w - 8) x
    s.guardLock v true (if rest then s.modVf v (fun f => { f with sigkey := k }) else s)
  else if w = 24 then (if rest then s.modVf v (fun f => clog { f with clog := putBits f.clog 12 32 x }) else s)
  else if w = 25 then
    (if rest then s.modVf v (fun f => clog { f with clog := putBits f.clog 44 13 x, clsz := BitVec.ofNat 5 (fld x 16 5) }) else s)
  else s

def b2w (b : Bool) (i : Nat) : Nat := if b then 2 ^ i else 0

/-- Word `w` of a VF's control block as read. -/
def Vf.readControl (f : Vf) (w : Nat) : Nat :=
  if w = 0 then
    b2w f.en 0 + b2w f.resident 1 + b2w f.clamp 2 + b2w f.coef 3 + b2w f.migr 4 + b2w f.test 5 + b2w f.ckpt 6 +
      f.leaf.toNat * 2 ^ 8 + f.weight.toNat * 2 ^ 14
  else if w = 1 then f.slice.toNat
  else if w = 2 then fld f.quota.toNat 0 32
  else if w = 3 then fld f.quota.toNat 32 32
  else if w = 4 then fld f.ilog 12 32
  else if w = 5 then fld f.ilog 44 13 + f.ilsz.toNat * 2 ^ 24
  else if w = 6 then f.pinver.toNat
  else if 8 ≤ w && w < 24 then ofBytes (((digestBytes f.sigkey).drop (4 * (w - 8))).take 4)
  else if w = 24 then fld f.clog 12 32
  else if w = 25 then fld f.clog 44 13 + f.clsz.toNat * 2 ^ 16
  else 0

/-! ## Registers -/

/-- A 32-bit write by a function at an offset of its BAR0; a function other than the PF reaches its page only, and reserved or
read-only offsets ignore writes. -/
def State.writeReg32 (s : State) (fn off v : Nat) : State :=
  if off < 0x200 then s.writeQueue fn (off / 32) (off % 32 / 4) v
  else if off < 0x240 then ({ s with input := some (.doorbell fn ((off - 0x200) / 4) (BitVec.ofNat 16 v)) }.doorbell).getD s
  else if off = 0x300 then ({ s with input := some (.replayAll fn (fld v 0 3) (fld v 16 6)) }.replayAll).getD s
  else if 0x340 ≤ off && off < 0x350 then s.modFn fn (fun f => f.writeInval fn off v)
  else if 0x400 ≤ off && off < 0x414 then s.writeRing fn false (off - 0x400) v
  else if 0x420 ≤ off && off < 0x434 then (if fn = 1024 then s.writeRing fn true (off - 0x420) v else s)
  else if off = 0x500 then s.modFn fn (fun f => { f with meterSel := BitVec.ofNat 32 v })
  else if off = 0x800 || off = 0x804 then
    let r := (s.fn fn).s1root.toNat
    let x := if off = 0x800 then putBits r 0 32 v else putBits r 32 32 v
    s.guardLock fn true (s.modFn fn (fun f => { f with s1root := BitVec.ofNat 64 x }))
  else if 0x810 ≤ off && off < 0x820 then s.guardLock fn true s
  else if 0x1000 ≤ off && off < 0x1200 then s.writeMsix fn ((off - 0x1000) / 4) v
  else if fn = 1024 && 0x10000 ≤ off && off < 0x30000 then s.writeControl ((off - 0x10000) / 128) ((off - 0x10000) % 128 / 4) v
  else s

/-- Tags of the stopped launches of a VF, ascending. -/
def State.stoppedTags (s : State) (v : Nat) : List Nat :=
  (s.launches.filter (fun kl => launchVf kl.1 == v && (match kl.2.st with | .stopped _ => true | _ => false))).map
    (fun kl => kl.1 % 2 ^ 14)

/-- The accounts behind the meter registers: the VF account, and the D and N parts of a launch and a team selected by LTAG in
[13:0] and team in [20:14] (the places of the readings are the model's, log 71). -/
def State.readMeter (s : State) (v i : Nat) : Nat :=
  let sel := (s.fn v).meterSel.toNat
  let l := launchKey v (fld sel 0 14)
  let t := teamKey l (fld sel 14 7)
  -- the accounts of a launch that has ended stand as they were (R242)
  let last := (SMap.find (s.vf v).finals (l % 2 ^ 14)).getD {}
  let lastTeam := (SMap.find last.teams (t % 2 ^ 7)).getD ({}, {})
  let a : Acct := match i / 2, s.launch l with
    | 0, _ => (s.vf v).acct
    | 1, some x => x.acctD
    | 1, none => last.acctD
    | 2, some x => x.acctN
    | 2, none => last.acctN
    | 3, some _ => (match s.team t with | some x => x.acctD | none => {})
    | 3, none => lastTeam.1
    | _, some _ => (match s.team t with | some x => x.acctN | none => {})
    | _, none => lastTeam.2
  fld a.nj (32 * (i % 2)) 32

/-- A 32-bit read by a function at an offset of its BAR0; reserved offsets read as zero. -/
def State.readReg32 (s : State) (fn off : Nat) : Nat :=
  let f := s.fn fn
  if off < 0x200 then (f.queue (off / 32)).readWord (off % 32 / 4)
  else if 0x340 ≤ off && off < 0x350 then f.readInval fn off
  else if 0x400 ≤ off && off < 0x414 then f.ring.readWord (off - 0x400)
  else if 0x420 ≤ off && off < 0x434 then (if fn = 1024 then f.ring2.readWord (off - 0x420) else 0)
  else if off = 0x500 then f.meterSel.toNat
  else if 0x504 ≤ off && off < 0x52C then s.readMeter fn ((off - 0x504) / 4)
  else if 0x600 ≤ off && off < 0x700 then fld (Config.coef ((off - 0x600) / 8)) (32 * ((off - 0x600) / 4 % 2)) 32
  else if 0x700 ≤ off && off < 0x800 then fld (Config.nominal ((off - 0x700) / 8)) (32 * ((off - 0x700) / 4 % 2)) 32
  else if off = 0x800 || off = 0x804 then fld f.s1root.toNat (8 * (off - 0x800)) 32
  else if off = 0x810 || off = 0x814 then fld f.supvVa.toNat (8 * (off - 0x810)) 32
  else if off = 0x818 || off = 0x81C then fld f.supvLen.toNat (8 * (off - 0x818)) 32
  else if off = 0x820 then (s.stoppedTags fn).length
  else if 0x824 ≤ off && off < 0x844 then
    let i := (off - 0x824) / 2
    nth (s.stoppedTags fn) i + 65536 * nth (s.stoppedTags fn) (i + 1)
  else if 0x1000 ≤ off && off < 0x1200 then f.readMsix ((off - 0x1000) / 4)
  else if off = 0x1200 then f.pba.toNat
  else if fn = 1024 && 0x10000 ≤ off && off < 0x30000 then
    (s.vf ((off - 0x10000) / 128)).readControl ((off - 0x10000) % 128 / 4)
  else 0

/-- REGISTER_WRITE. -/
def State.registerWrite (s : State) : Option State :=
  match s.input with
  | some (.registerWrite fn off v) => some (s.writeReg32 fn (off / 4 * 4) v.toNat)
  | _ => none

def execRegisterWrite (s : State) : Host.Outcome State Fault Refusal := event s.registerWrite

/-! ## What happens outside the part -/

/-- A change that no event of the table makes: the host's own writes to its memory (R165), the ranges that it answers with
completion errors (R140), the device number (R288) and the spill area (R294) that the PF gives. -/
def State.outside (s : State) : Option State :=
  match s.input with
  | some (.hostWrite off data) => some (s.homeWrite (data.zipIdx.map (fun bi => (hostBase + off + bi.2, bi.1))))
  | some (.hostError off len on) =>
    let l := s.hostBad.filter (· != (off, len))
    some { s with hostBad := if on then (off, len) :: l else l }
  | some (.deviceNumber n) => some (s.modDev (fun d => { d with devNum := n.toNat }))
  | some (.spillArea off) => some (s.modDev (fun d => { d with spill := some off }))
  | _ => none

/-! ## The PF's view of the audit log (R310) -/

/-- SEQ of the oldest record held. -/
def Device.oldest (d : Device) : Nat := match d.audit with | r :: _ => r.seq | [] => d.auditNext

/-- A byte read at BAR2 of the PF. -/
def Device.bar2 (d : Device) (off : Nat) : Byte :=
  let num (n base : Nat) : Byte := BitVec.ofNat 8 (n / 256 ^ (off - base))
  if off < 0x008 then num d.ready.toNat 0
  else if off < 0x010 then num d.oldest 0x008
  else if off < 0x018 then num d.auditNext 0x010
  else if off < 0x020 then num d.drained 0x018
  else if 0x028 ≤ off && off < 0x030 then num d.lost 0x028
  else if 0x100 ≤ off && off < 0x100 + 32 * 144 then
    let j := (off - 0x100) / 144
    let i := (off - 0x100) % 144
    match SMap.find d.seals j with
    | some x => ((bytesOf 8 x.seq.toNat ++ bytesBe 66 x.r.toNat ++ bytesBe 66 x.s.toNat ++ bytesOf 4 0)[i]?).getD 0
    | none => 0
  else if 0x200000 ≤ off then
    let i := (off - 0x200000) / 128 % auditSlots
    match d.audit.find? (fun r => r.seq % auditSlots == i) with
    | some r => BitVec.ofNat 8 (r.bytes.toNat / 256 ^ ((off - 0x200000) % 128))
    | none => 0
  else 0

end Sys2Proof.Machine
end

