-- ==== Sys2Proof/Machine/Spdm.lean ====
section
/-! DEFINITION. The SPDM responder (R281, R307), IDE streams (R280) and TDISP (R282): one event per message. Message bytes are those of
SPDM 1.3 and TDISP 1.0, which the spec names and does not give; the model holds what each carries (log 68). -/

namespace Sys2Proof.Machine

open Sys2Proof

/-- Answer on the mailbox. -/
def State.answer (s : State) (r : Resp) : State := s.modDev (fun d => { d with answers := r :: d.answers })
/-- An error response; its code is that of SPDM: 1 invalid request, 4 unexpected, 7 unsupported. -/
def State.refuseMsg (s : State) (code : Nat) : State := s.answer (.error code)
def State.modSpdm (s : State) (f : Spdm → Spdm) : State := s.modDev (fun d => { d with spdm := f d.spdm })

/-- The transcript that signatures cover, extended with what a message carries. -/
def Spdm.note (x : Spdm) (tag : Nat) (bs : List Byte) : Spdm :=
  { x with transcript := sha512 (digestBytes x.transcript ++ bytesOf 4 tag ++ bs) }

/-- A message that needs the connection in some phase. -/
def State.inPhase (s : State) (n : Nat) (f : State → State) : Option State :=
  some (if s.dev.spdm.phase < n then s.refuseMsg 4 else f s)

/-- The session is set up. -/
def State.secured (s : State) : Bool := match s.dev.spdm.session with | some (_, done) => done | none => false

/-- A message inside a secured session. -/
def State.inSession (s : State) (ses : BitVec 32) (f : State → State) : Option State :=
  some (match s.dev.spdm.session with
    | some (id, true) => if id = ses then f s else s.refuseMsg 1
    | _ => s.refuseMsg 4)

def execGetVersion (s : State) : Host.Outcome State Fault Refusal :=
  event (match s.input with
    | some .getVersion =>
      some ((s.modSpdm (fun _ => ({ phase := 1, session := none } : Spdm).note 0x84 [])).answer (.version 0x13))
    | _ => none)

def execGetCapabilities (s : State) : Host.Outcome State Fault Refusal :=
  event (match s.input with
    | some (.getCapabilities ver flags) =>
      s.inPhase 1 (fun s =>
        if ver != 0x13 then s.refuseMsg 1
        else (s.modSpdm (fun x => { x with phase := 2 }.note 0xE1 (bytesOf 4 flags.toNat))).answer (.capabilities Config.spdmFlags))
    | _ => none)

/-- The algorithms of R281 among those offered: ECDSA on P-521, SHA-512, ephemeral Diffie-Hellman on P-521, AES-256-GCM. -/
def offersAlgorithms (asym hash : BitVec 32) (dhe aead : BitVec 16) : Bool :=
  asym.getLsbD 8 && hash.getLsbD 2 && dhe.getLsbD 5 && aead.getLsbD 1

def execNegotiateAlgorithms (s : State) : Host.Outcome State Fault Refusal :=
  event (match s.input with
    | some (.negotiateAlgorithms asym hash dhe aead) =>
      s.inPhase 2 (fun s =>
        if offersAlgorithms asym hash dhe aead then
          (s.modSpdm (fun x => { x with phase := 3 }.note 0xE3 (bytesOf 4 asym.toNat ++ bytesOf 4 hash.toNat))).answer .algorithms
        else s.refuseMsg 1)
    | _ => none)

def execGetDigests (s : State) : Host.Outcome State Fault Refusal :=
  event (match s.input with
    | some .getDigests => s.inPhase 3 (fun s => (s.modSpdm (fun x => x.note 0x81 [])).answer (.digests (sha512 Config.certificate)))
    | _ => none)

def execGetCertificate (s : State) : Host.Outcome State Fault Refusal :=
  event (match s.input with
    | some (.getCertificate slot off len) =>
      s.inPhase 3 (fun s =>
        if slot != 0 then s.refuseMsg 1
        else (s.modSpdm (fun x => x.note 0x82 (bytesOf 4 (off.toNat + 65536 * len.toNat)))).answer
          (.certificate ((Config.certificate.drop off.toNat).take len.toNat)))
    | _ => none)

/-- The measurement blocks: block m + 1 is register m (R307). -/
def Device.blocks (d : Device) : List (Nat × BitVec 512) := (List.range 32).map (fun m => (m + 1, Store.rd d.measures m))

/-- Digest of the whole set of measurements. -/
def Device.summary (d : Device) : BitVec 512 := sha512 (d.blocks.flatMap (fun b => digestBytes b.2))

def execChallenge (s : State) : Host.Outcome State Fault Refusal :=
  event (match s.input with
    | some (.challenge slot nonce) =>
      s.inPhase 3 (fun s =>
        if slot != 0 then s.refuseMsg 1
        else
          let s := s.modSpdm (fun x => x.note 0x83 (bytesOf 32 nonce.toNat ++ digestBytes s.dev.summary))
          s.answer (.challengeAuth (sha512 Config.certificate) (Config.sign s.dev.spdm.transcript)))
    | _ => none)

/-- Blocks that a GET_MEASUREMENTS asks for: none for 0, all for 0xFF, one otherwise. -/
def Device.asked (d : Device) (op : BitVec 8) : List (Nat × BitVec 512) :=
  if op = 0 then [] else if op = 0xFF then d.blocks else d.blocks.filter (fun b => b.1 == op.toNat)

def execGetMeasurements (s : State) : Host.Outcome State Fault Refusal :=
  event (match s.input with
    | some (.getMeasurements op sign nonce) =>
      s.inPhase 3 (fun s =>
        if op != 0 && op != 0xFF && 32 < op.toNat then s.refuseMsg 1
        else
          let bs := s.dev.asked op
          let s := s.modSpdm (fun x => x.note 0xE0 (bytesOf 32 nonce.toNat ++ bs.flatMap (fun b => digestBytes b.2)))
          s.answer (.measurements bs (if sign then some (Config.sign s.dev.spdm.transcript) else none)))
    | _ => none)

def execKeyExchange (s : State) : Host.Outcome State Fault Refusal :=
  event (match s.input with
    | some (.keyExchange ses random point) =>
      s.inPhase 3 (fun s =>
        let id := Config.sessionId ses
        let s := s.modSpdm (fun x => { x with session := some (id, false) }.note 0xE4 (bytesOf 32 random.toNat ++ point))
        s.answer (.keyExchange id (Config.sign s.dev.spdm.transcript)))
    | _ => none)

def execSessionFinish (s : State) : Host.Outcome State Fault Refusal :=
  event (match s.input with
    | some (.sessionFinish ses verify) =>
      some (match s.dev.spdm.session with
        | some (id, false) =>
          if id = ses && Config.finishOk ses verify then
            (s.modSpdm (fun x => { x with session := some (id, true) }.note 0xE5 (digestBytes verify))).answer .finish
          else (s.modSpdm (fun x => { x with session := none })).refuseMsg 1
        | _ => s.refuseMsg 4)
    | _ => none)

def execEndSession (s : State) : Host.Outcome State Fault Refusal :=
  event (match s.input with
    | some (.endSession ses) =>
      s.inSession ses (fun s => (s.modSpdm (fun x => { x with session := none })).answer .ended)
    | _ => none)

/-- Ranges of a function's BAR0: its register page of 64 KiB (R267). -/
def registerPages : List (Nat × Nat) := [(0, 65536)]

/-- The interface report of a TDI (R282). -/
def State.interfaceReport (s : State) (v : Nat) : Resp :=
  let f := s.vf v
  .report registerPages v f.leaf.toNat f.pinver.toNat f.supvDigest f.coef f.test (f.stream.getD 256)

/-- VENDOR_DEFINED_MESSAGE: TDISP's request for an interface report is 0x82 and the VF's number; any other payload is taken. -/
def execVendorDefinedMessage (s : State) : Host.Outcome State Fault Refusal :=
  event (match s.input with
    | some (.vendorDefinedMessage ses payload) =>
      s.inSession ses (fun s =>
        match payload with
        | [c, lo, hi] =>
          if c = 0x82 then s.answer (s.interfaceReport ((lo.toNat + 256 * hi.toNat) % 1024)) else s.answer .vendor
        | _ => s.answer .vendor)
    | _ => none)

/-! ## IDE -/

/-- Streams supported (R280). -/
def streamCount : Nat := 256

/-- IDE_KM programs a stream's keys and association in a secured session; bound TDIs of a stream that is programmed again go to
ERROR. -/
def execIdeKmKeyProgramming (s : State) : Host.Outcome State Fault Refusal :=
  event (match s.input with
    | some (.ideKmKeyProgramming n first last key) =>
      some (if !s.secured || streamCount ≤ n then s.refuseMsg 4
        else
          let s := if (SMap.find s.dev.streams n).isSome then s.streamError n else s
          (s.modDev (fun d => { d with streams := SMap.put d.streams n { first := first, last := last, key := key } })).answer .ok)
    | _ => none)

def execIdeIntegrityFailure (s : State) : Host.Outcome State Fault Refusal :=
  event (match s.input with
    | some (.ideIntegrityFailure n) => some (s.streamError n)
    | _ => none)

/-! ## TDISP -/

/-- Streams whose association covers a VF: requester IDs count from the PF's, VF v's is v + 1 (log 72). -/
def State.covering (s : State) (v : Nat) : List Nat :=
  (s.dev.streams.filter (fun x => decide (x.2.first ≤ v + 1) && decide (v + 1 ≤ x.2.last))).map Prod.fst

/-- LOCK_INTERFACE: the TDI is bound to the one stream that covers it. -/
def execLockInterface (s : State) : Host.Outcome State Fault Refusal :=
  event (match s.input with
    | some (.lockInterface v) =>
      some (match s.covering v with
        | [n] =>
          if (s.vf v).live && (s.vf v).tdi == .unlocked then
            ((s.modVf v (fun f => { f with stream := some n })).setTdi v .locked).answer .ok
          else s.refuseMsg 4
        | _ => s.refuseMsg 4)
    | _ => none)

/-- START_INTERFACE: CONFIG_LOCKED becomes RUN. -/
def execStartInterface (s : State) : Host.Outcome State Fault Refusal :=
  event (match s.input with
    | some (.startInterface v) =>
      some (if (s.vf v).tdi == .locked then (s.setTdi v .run).answer .ok else s.refuseMsg 4)
    | _ => none)

/-- STOP_INTERFACE: launches killed, swept and scrubbed, queues stopped; the TDI is unbound and CONFIG_UNLOCKED. -/
def execStopInterface (s : State) : Host.Outcome State Fault Refusal :=
  event (match s.input with
    | some (.stopInterface v) =>
      some (if (s.vf v).live then
          (((s.stopVf v).modVf v (fun f => { f with stream := none })).setTdi v .unlocked).answer .ok
        else s.refuseMsg 4)
    | _ => none)

end Sys2Proof.Machine
end

