-- ==== Sys2Proof/Machine/Dispatch.lean ====
section
/-! DEFINITION. The meaning of every instruction and event: one arm per constructor, one call each. -/

namespace Sys2Proof.Machine

open Sys2Proof

/-- The machine after an instruction or event. -/
def exec (i : Instr) (s : State) : Host.Outcome State Fault Refusal :=
  match i with
  | .nop => Sys2Proof.Machine.execNop s
  | .iadd c t a b => Sys2Proof.Machine.execIadd c t a b s
  | .iaddCc c pco a b ci => Sys2Proof.Machine.execIaddCc c pco a b ci s
  | .isub c t a b => Sys2Proof.Machine.execIsub c t a b s
  | .imad c t a b d => Sys2Proof.Machine.execImad c t a b d s
  | .imadWide c t a b d => Sys2Proof.Machine.execImadWide c t a b d s
  | .imul c t hi a b => Sys2Proof.Machine.execImul c t hi a b s
  | .imnmx c t max a b => Sys2Proof.Machine.execImnmx c t max a b s
  | .isetp c pd t cmp a b => Sys2Proof.Machine.execIsetp c pd t cmp a b s
  | .idp4 c az bz a b d => Sys2Proof.Machine.execIdp4 c az bz a b d s
  | .lop3 c lut a b d => Sys2Proof.Machine.execLop3 c lut a b d s
  | .shl c a b => Sys2Proof.Machine.execShl c a b s
  | .shr c t a b => Sys2Proof.Machine.execShr c t a b s
  | .bfe c t a b d => Sys2Proof.Machine.execBfe c t a b d s
  | .bfi c a b d => Sys2Proof.Machine.execBfi c a b d s
  | .brev c a => Sys2Proof.Machine.execBrev c a s
  | .clz c a => Sys2Proof.Machine.execClz c a s
  | .popc c a => Sys2Proof.Machine.execPopc c a s
  | .lea c t a b n => Sys2Proof.Machine.execLea c t a b n s
  | .prmt c a b d => Sys2Proof.Machine.execPrmt c a b d s
  | .sel c wide neg pc a b => Sys2Proof.Machine.execSel c wide neg pc a b s
  | .mov c t a => Sys2Proof.Machine.execMov c t a s
  | .fadd c t r a b => Sys2Proof.Machine.execFadd c t r a b s
  | .fsub c t r a b => Sys2Proof.Machine.execFsub c t r a b s
  | .fmul c t r a b => Sys2Proof.Machine.execFmul c t r a b s
  | .ffma c t r a b d => Sys2Proof.Machine.execFfma c t r a b d s
  | .fmnmx c t max a b => Sys2Proof.Machine.execFmnmx c t max a b s
  | .fsetp c pd t cmp a b => Sys2Proof.Machine.execFsetp c pd t cmp a b s
  | .fclass c t a m => Sys2Proof.Machine.execFclass c t a m s
  | .fdot2 c t a b d => Sys2Proof.Machine.execFdot2 c t a b d s
  | .sfnRcp c a => Sys2Proof.Machine.execSfnRcp c a s
  | .sfnRsq c a => Sys2Proof.Machine.execSfnRsq c a s
  | .sfnSqrt c a => Sys2Proof.Machine.execSfnSqrt c a s
  | .sfnExp2 c a => Sys2Proof.Machine.execSfnExp2 c a s
  | .sfnLog2 c a => Sys2Proof.Machine.execSfnLog2 c a s
  | .sfnSin c a => Sys2Proof.Machine.execSfnSin c a s
  | .sfnCos c a => Sys2Proof.Machine.execSfnCos c a s
  | .sfnTanh c a => Sys2Proof.Machine.execSfnTanh c a s
  | .hadd2 c t a b => Sys2Proof.Machine.execHadd2 c t a b s
  | .hmul2 c t a b => Sys2Proof.Machine.execHmul2 c t a b s
  | .hfma2 c t a b d => Sys2Proof.Machine.execHfma2 c t a b d s
  | .cvt c dt st r a => Sys2Proof.Machine.execCvt c dt st r a s
  | .cbenc c bf a k => Sys2Proof.Machine.execCbenc c bf a k s
  | .cbdec c a k => Sys2Proof.Machine.execCbdec c a k s
  | .shflIdx c z wc pd a b => Sys2Proof.Machine.execShflIdx c z wc pd a b s
  | .shflUp c z wc pd a b => Sys2Proof.Machine.execShflUp c z wc pd a b s
  | .shflDown c z wc pd a b => Sys2Proof.Machine.execShflDown c z wc pd a b s
  | .shflXor c z wc pd a b => Sys2Proof.Machine.execShflXor c z wc pd a b s
  | .voteAll c pd neg pa => Sys2Proof.Machine.execVoteAll c pd neg pa s
  | .voteAny c pd neg pa => Sys2Proof.Machine.execVoteAny c pd neg pa s
  | .voteUni c pd neg pa => Sys2Proof.Machine.execVoteUni c pd neg pa s
  | .ballot c neg pa => Sys2Proof.Machine.execBallot c neg pa s
  | .matchAny c wide a => Sys2Proof.Machine.execMatchAny c wide a s
  | .matchAll c wide pd a => Sys2Proof.Machine.execMatchAll c wide pd a s
  | .gred c op a => Sys2Proof.Machine.execGred c op a s
  | .elect g d => Sys2Proof.Machine.execElect g d s
  | .bra g target prio => Sys2Proof.Machine.execBra g target prio s
  | .brx c a prio => Sys2Proof.Machine.execBrx c a prio s
  | .call g d target prio => Sys2Proof.Machine.execCall g d target prio s
  | .ret g a => Sys2Proof.Machine.execRet g a s
  | .exit g => Sys2Proof.Machine.execExit g s
  | .conv => Sys2Proof.Machine.execConv s
  | .yield g => Sys2Proof.Machine.execYield g s
  | .bkpt g => Sys2Proof.Machine.execBkpt g s
  | .trap g sv => Sys2Proof.Machine.execTrap g sv s
  | .tret => Sys2Proof.Machine.execTret s
  | .tretSkip => Sys2Proof.Machine.execTretSkip s
  | .ld c t d m => Sys2Proof.Machine.execLd c t d m s
  | .ldSupv c t d off imm => Sys2Proof.Machine.execLdSupv c t d off imm s
  | .st c t m b => Sys2Proof.Machine.execSt c t m b s
  | .stSupv c t off imm b => Sys2Proof.Machine.execStSupv c t off imm b s
  | .ldf g t d m sl sk => Sys2Proof.Machine.execLdf g t d m sl sk s
  | .stf g t d m sl sk => Sys2Proof.Machine.execStf g t d m sl sk s
  | .prefL1 c m => Sys2Proof.Machine.execPrefL1 c m s
  | .prefL2 c m => Sys2Proof.Machine.execPrefL2 c m s
  | .cbld c m k => Sys2Proof.Machine.execCbld c m k s
  | .atomAdd c o sc wide d m b => Sys2Proof.Machine.execAtomAdd c o sc wide d m b s
  | .atomMin c o sc uns d m b => Sys2Proof.Machine.execAtomMin c o sc uns d m b s
  | .atomMax c o sc uns d m b => Sys2Proof.Machine.execAtomMax c o sc uns d m b s
  | .atomAnd c o sc wide d m b => Sys2Proof.Machine.execAtomAnd c o sc wide d m b s
  | .atomOr c o sc wide d m b => Sys2Proof.Machine.execAtomOr c o sc wide d m b s
  | .atomXor c o sc wide d m b => Sys2Proof.Machine.execAtomXor c o sc wide d m b s
  | .atomExch c o sc wide d m b => Sys2Proof.Machine.execAtomExch c o sc wide d m b s
  | .atomAddf c o sc d m b => Sys2Proof.Machine.execAtomAddf c o sc d m b s
  | .redAdd c o sc wide m b => Sys2Proof.Machine.execRedAdd c o sc wide m b s
  | .redMin c o sc uns m b => Sys2Proof.Machine.execRedMin c o sc uns m b s
  | .redMax c o sc uns m b => Sys2Proof.Machine.execRedMax c o sc uns m b s
  | .redAnd c o sc wide m b => Sys2Proof.Machine.execRedAnd c o sc wide m b s
  | .redOr c o sc wide m b => Sys2Proof.Machine.execRedOr c o sc wide m b s
  | .redXor c o sc wide m b => Sys2Proof.Machine.execRedXor c o sc wide m b s
  | .redAddf c o sc m b => Sys2Proof.Machine.execRedAddf c o sc m b s
  | .cas c o sc wide d m cv nv => Sys2Proof.Machine.execCas c o sc wide d m cv nv s
  | .borX c sd q sa sl => Sys2Proof.Machine.execBorX c sd q sa sl s
  | .borS c sd q sa sl => Sys2Proof.Machine.execBorS c sd q sa sl s
  | .borA c sd q sa sl => Sys2Proof.Machine.execBorA c sd q sa sl s
  | .borO c sd q sa sl => Sys2Proof.Machine.execBorO c sd q sa sl s
  | .borXTry c sd q sa sl => Sys2Proof.Machine.execBorXTry c sd q sa sl s
  | .borSTry c sd q sa sl => Sys2Proof.Machine.execBorSTry c sd q sa sl s
  | .borATry c sd q sa sl => Sys2Proof.Machine.execBorATry c sd q sa sl s
  | .borOTry c sd q sa sl => Sys2Proof.Machine.execBorOTry c sd q sa sl s
  | .rebor c qd qs so sl => Sys2Proof.Machine.execRebor c qd qs so sl s
  | .reborS c qd qs so sl => Sys2Proof.Machine.execReborS c qd qs so sl s
  | .split g qd qs sg sn sm => Sys2Proof.Machine.execSplit g qd qs sg sn sm s
  | .join g qs => Sys2Proof.Machine.execJoin g qs s
  | .retb g q => Sys2Proof.Machine.execRetb g q s
  | .qset c k q so sl => Sys2Proof.Machine.execQset c k q so sl s
  | .qsetEmpty g q => Sys2Proof.Machine.execQsetEmpty g q s
  | .qinfo g sd q sel => Sys2Proof.Machine.execQinfo g sd q sel s
  | .barArrive c sd sk sn => Sys2Proof.Machine.execBarArrive c sd sk sn s
  | .barWait c sk sp => Sys2Proof.Machine.execBarWait c sk sp s
  | .barSync c sk sn => Sys2Proof.Machine.execBarSync c sk sn s
  | .mbarInit g m sc => Sys2Proof.Machine.execMbarInit g m sc s
  | .mbarExpect g m sx => Sys2Proof.Machine.execMbarExpect g m sx s
  | .mbarArrive g sd m => Sys2Proof.Machine.execMbarArrive g sd m s
  | .mbarTrywait g pd m sp => Sys2Proof.Machine.execMbarTrywait g pd m sp s
  | .mbarWait g m sp => Sys2Proof.Machine.execMbarWait g m sp s
  | .fence g sc => Sys2Proof.Machine.execFence g sc s
  | .fenceLayout g => Sys2Proof.Machine.execFenceLayout g s
  | .sigDec g sc m sv => Sys2Proof.Machine.execSigDec g sc m sv s
  | .sigAdd g sc m sv => Sys2Proof.Machine.execSigAdd g sc m sv s
  | .sigSet g sc m sv => Sys2Proof.Machine.execSigSet g sc m sv s
  | .sigw g cmp sc m c => Sys2Proof.Machine.execSigw g cmp sc m c s
  | .ftile g sd => Sys2Proof.Machine.execFtile g sd s
  | .yardAnswer who => Sys2Proof.Machine.execYardAnswer who s
  | .mma g q so => Sys2Proof.Machine.execMma g q so s
  | .capture team crew => Sys2Proof.Machine.execCapture team crew s
  | .mmaComplete core => Sys2Proof.Machine.execMmaComplete core s
  | .rendezvousWithdrawal grp => Sys2Proof.Machine.execRendezvousWithdrawal grp s
  | .accZero g st => Sys2Proof.Machine.execAccZero g st s
  | .accLd g t d st sb => Sys2Proof.Machine.execAccLd g t d st sb s
  | .accSt g t vs st sb => Sys2Proof.Machine.execAccSt g t vs st sb s
  | .accDrain g t m st sl sm => Sys2Proof.Machine.execAccDrain g t m st sl sm s
  | .copyLin c sd qd qs sa sb sl => Sys2Proof.Machine.execCopyLin c sd qd qs sa sb sl s
  | .copyTileLd c sd ql qg so sc => Sys2Proof.Machine.execCopyTileLd c sd ql qg so sc s
  | .copyTileSt c sd ql qg so sc => Sys2Proof.Machine.execCopyTileSt c sd ql qg so sc s
  | .copyGather c sd ql qg so sb sc => Sys2Proof.Machine.execCopyGather c sd ql qg so sb sc s
  | .copyLinMb c sm qd qs sa sb sl => Sys2Proof.Machine.execCopyLinMb c sm qd qs sa sb sl s
  | .copyTileLdMb c ql qg so sc => Sys2Proof.Machine.execCopyTileLdMb c ql qg so sc s
  | .copyTileStMb c ql qg so sc => Sys2Proof.Machine.execCopyTileStMb c ql qg so sc s
  | .copyGatherMb c ql qg so sb sc => Sys2Proof.Machine.execCopyGatherMb c ql qg so sb sc s
  | .copyComplete core cmd => Sys2Proof.Machine.execCopyComplete core cmd s
  | .sweepWb g sd q so sl => Sys2Proof.Machine.execSweepWb g sd q so sl s
  | .sweepInv g sd q so sl => Sys2Proof.Machine.execSweepInv g sd q so sl s
  | .sweepWbinv g sd q so sl => Sys2Proof.Machine.execSweepWbinv g sd q so sl s
  | .sweepWbMb g sm q so sl => Sys2Proof.Machine.execSweepWbMb g sm q so sl s
  | .sweepInvMb g sm q so sl => Sys2Proof.Machine.execSweepInvMb g sm q so sl s
  | .sweepWbinvMb g sm q so sl => Sys2Proof.Machine.execSweepWbinvMb g sm q so sl s
  | .sweepComplete core cmd => Sys2Proof.Machine.execSweepComplete core cmd s
  | .rld c t sd d q vo => Sys2Proof.Machine.execRld c t sd d q vo s
  | .rst c t sd q vo vs => Sys2Proof.Machine.execRst c t sd q vo vs s
  | .rmst c sd sg q sb sc => Sys2Proof.Machine.execRmst c sd sg q sb sc s
  | .rflush g sd q => Sys2Proof.Machine.execRflush g sd q s
  | .rflushMc c sd sg so => Sys2Proof.Machine.execRflushMc c sd sg so s
  | .migrateAddr lu m => Sys2Proof.Machine.execMigrateAddr lu m s
  | .migrateHome => Sys2Proof.Machine.execMigrateHome s
  | .landing grp => Sys2Proof.Machine.execLanding grp s
  | .flushByContextTag grp old new ranges => Sys2Proof.Machine.execFlushByContextTag grp old new ranges s
  | .flushAcknowledge grp new => Sys2Proof.Machine.execFlushAcknowledge grp new s
  | .collAllred c sd op ty fo qd qs sc => Sys2Proof.Machine.execCollAllred c sd op ty fo qd qs sc s
  | .collRedsc c sd op ty fo qd qs sc => Sys2Proof.Machine.execCollRedsc c sd op ty fo qd qs sc s
  | .collAllga c sd ty fo qd qs sc => Sys2Proof.Machine.execCollAllga c sd ty fo qd qs sc s
  | .collBcast c sd ty fo qd qs sc => Sys2Proof.Machine.execCollBcast c sd ty fo qd qs sc s
  | .inNetworkReduction vf grp parts => Sys2Proof.Machine.execInNetworkReduction vf grp parts s
  | .rdsr c r => Sys2Proof.Machine.execRdsr c r s
  | .wrsr c r a => Sys2Proof.Machine.execWrsr c r a s
  | .mtrVf g sd => Sys2Proof.Machine.execMtrVf g sd s
  | .mtrLaunch g sd => Sys2Proof.Machine.execMtrLaunch g sd s
  | .mtrTeam g sd => Sys2Proof.Machine.execMtrTeam g sd s
  | .mtrQuota g sd => Sys2Proof.Machine.execMtrQuota g sd s
  | .groupActivation core sect => Sys2Proof.Machine.execGroupActivation core sect s
  | .swapOut grp => Sys2Proof.Machine.execSwapOut grp s
  | .registerFill grp n => Sys2Proof.Machine.execRegisterFill grp n s
  | .loadComplete acc => Sys2Proof.Machine.execLoadComplete acc s
  | .impreciseFault acc => Sys2Proof.Machine.execImpreciseFault acc s
  | .lineFill core vf line transient => Sys2Proof.Machine.execLineFill core vf line transient s
  | .claim die m => Sys2Proof.Machine.execClaim die m s
  | .grant ctx q handle orphan => Sys2Proof.Machine.execGrant ctx q handle orphan s
  | .refuse ctx q r => Sys2Proof.Machine.execRefuse ctx q r s
  | .release die entry gen ctx => Sys2Proof.Machine.execRelease die entry gen ctx s
  | .withdraw die ctx q => Sys2Proof.Machine.execWithdraw die ctx q s
  | .writeBackResponse core ret => Sys2Proof.Machine.execWriteBackResponse core ret s
  | .borrowTimeout die entry => Sys2Proof.Machine.execBorrowTimeout die entry s
  | .claimSweep launch => Sys2Proof.Machine.execClaimSweep launch s
  | .walkComplete acc => Sys2Proof.Machine.execWalkComplete acc s
  | .pageMissEntryTake acc => Sys2Proof.Machine.execPageMissEntryTake acc s
  | .faultBufferMove die part => Sys2Proof.Machine.execFaultBufferMove die part s
  | .reportingRound => Sys2Proof.Machine.execReportingRound s
  | .launch w d => Sys2Proof.Machine.execLaunch w d s
  | .waitsig w addr c cmp => Sys2Proof.Machine.execWaitsig w addr c cmp s
  | .setsigSet w addr v => Sys2Proof.Machine.execSetsigSet w addr v s
  | .setsigAdd w addr v => Sys2Proof.Machine.execSetsigAdd w addr v s
  | .setsigDec w addr v => Sys2Proof.Machine.execSetsigDec w addr v s
  | .hcopy w dst src len sig => Sys2Proof.Machine.execHcopy w dst src len sig s
  | .hcopyComplete job => Sys2Proof.Machine.execHcopyComplete job s
  | .mark w v => Sys2Proof.Machine.execMark w v s
  | .resume w ltag budget => Sys2Proof.Machine.execResume w ltag budget s
  | .dispatch => Sys2Proof.Machine.execDispatch s
  | .coreGrant wait => Sys2Proof.Machine.execCoreGrant wait s
  | .teamPlacement team => Sys2Proof.Machine.execTeamPlacement team s
  | .teamCompletion team => Sys2Proof.Machine.execTeamCompletion team s
  | .completionRecord fn q => Sys2Proof.Machine.execCompletionRecord fn q s
  | .periodStart => Sys2Proof.Machine.execPeriodStart s
  | .sliceEnd leaf => Sys2Proof.Machine.execSliceEnd leaf s
  | .sliceEndEviction launch => Sys2Proof.Machine.execSliceEndEviction launch s
  | .blockingPointEviction team => Sys2Proof.Machine.execBlockingPointEviction team s
  | .teamRestore team => Sys2Proof.Machine.execTeamRestore team s
  | .posting => Sys2Proof.Machine.execPosting s
  | .forcedFullSave grp => Sys2Proof.Machine.execForcedFullSave grp s
  | .stopComplete launch => Sys2Proof.Machine.execStopComplete launch s
  | .hang team => Sys2Proof.Machine.execHang team s
  | .signalPoll vf addr => Sys2Proof.Machine.execSignalPoll vf addr s
  | .invalComplete fn => Sys2Proof.Machine.execInvalComplete fn s
  | .auditAppend => Sys2Proof.Machine.execAuditAppend s
  | .scrub core => Sys2Proof.Machine.execScrub core s
  | .scrubComplete core => Sys2Proof.Machine.execScrubComplete core s
  | .revocationComplete vf win => Sys2Proof.Machine.execRevocationComplete vf win s
  | .peerGrantTimeout vf win => Sys2Proof.Machine.execPeerGrantTimeout vf win s
  | .multicastReplication op => Sys2Proof.Machine.execMulticastReplication op s
  | .flushNotice vf dev rvf win seq => Sys2Proof.Machine.execFlushNotice vf dev rvf win seq s
  | .resend vf dev rvf seq => Sys2Proof.Machine.execResend vf dev rvf seq s
  | .peerTimeout vf dev rvf seq => Sys2Proof.Machine.execPeerTimeout vf dev rvf seq s
  | .unassignedOpc w => Sys2Proof.Machine.execUnassignedOpc w s
  | .l1WriteBack core line => Sys2Proof.Machine.execL1WriteBack core line s
  | .atomicAcknowledgement core grp handle => Sys2Proof.Machine.execAtomicAcknowledgement core grp handle s
  | .rateLimiterWindow leaf => Sys2Proof.Machine.execRateLimiterWindow leaf s
  | .doorbell => Sys2Proof.Machine.execDoorbell s
  | .queueEnable => Sys2Proof.Machine.execQueueEnable s
  | .sharedCosts => Sys2Proof.Machine.execSharedCosts s
  | .reconciliation => Sys2Proof.Machine.execReconciliation s
  | .throttleStep => Sys2Proof.Machine.execThrottleStep s
  | .thermalShutdown => Sys2Proof.Machine.execThermalShutdown s
  | .replayAll => Sys2Proof.Machine.execReplayAll s
  | .inval => Sys2Proof.Machine.execInval s
  | .mappingRequest => Sys2Proof.Machine.execMappingRequest s
  | .quotaWrite => Sys2Proof.Machine.execQuotaWrite s
  | .checkpoint => Sys2Proof.Machine.execCheckpoint s
  | .residentWrite => Sys2Proof.Machine.execResidentWrite s
  | .supvWrite => Sys2Proof.Machine.execSupvWrite s
  | .registerWrite => Sys2Proof.Machine.execRegisterWrite s
  | .drainedWrite => Sys2Proof.Machine.execDrainedWrite s
  | .sealreq => Sys2Proof.Machine.execSealreq s
  | .deviceReset => Sys2Proof.Machine.execDeviceReset s
  | .unitBringup => Sys2Proof.Machine.execUnitBringup s
  | .firmwareUpdate => Sys2Proof.Machine.execFirmwareUpdate s
  | .partitionConfiguration => Sys2Proof.Machine.execPartitionConfiguration s
  | .vfCreation => Sys2Proof.Machine.execVfCreation s
  | .vfReset => Sys2Proof.Machine.execVfReset s
  | .vfRelease => Sys2Proof.Machine.execVfRelease s
  | .stage2Change => Sys2Proof.Machine.execStage2Change s
  | .errorDetected => Sys2Proof.Machine.execErrorDetected s
  | .selfTest => Sys2Proof.Machine.execSelfTest s
  | .getVersion => Sys2Proof.Machine.execGetVersion s
  | .getCapabilities => Sys2Proof.Machine.execGetCapabilities s
  | .negotiateAlgorithms => Sys2Proof.Machine.execNegotiateAlgorithms s
  | .getDigests => Sys2Proof.Machine.execGetDigests s
  | .getCertificate => Sys2Proof.Machine.execGetCertificate s
  | .challenge => Sys2Proof.Machine.execChallenge s
  | .getMeasurements => Sys2Proof.Machine.execGetMeasurements s
  | .keyExchange => Sys2Proof.Machine.execKeyExchange s
  | .sessionFinish => Sys2Proof.Machine.execSessionFinish s
  | .endSession => Sys2Proof.Machine.execEndSession s
  | .vendorDefinedMessage => Sys2Proof.Machine.execVendorDefinedMessage s
  | .ideKmKeyProgramming => Sys2Proof.Machine.execIdeKmKeyProgramming s
  | .lockInterface => Sys2Proof.Machine.execLockInterface s
  | .stopInterface => Sys2Proof.Machine.execStopInterface s
  | .ideIntegrityFailure => Sys2Proof.Machine.execIdeIntegrityFailure s
  | .debugStop => Sys2Proof.Machine.execDebugStop s
  | .debugRead => Sys2Proof.Machine.execDebugRead s
  | .debugWrite => Sys2Proof.Machine.execDebugWrite s
  | .debugStep => Sys2Proof.Machine.execDebugStep s
  | .debugCancel => Sys2Proof.Machine.execDebugCancel s
  | .debugCancelBor => Sys2Proof.Machine.execDebugCancelBor s
  | .debugResume => Sys2Proof.Machine.execDebugResume s
  | .exportWindow => Sys2Proof.Machine.execExportWindow s
  | .importWindow => Sys2Proof.Machine.execImportWindow s
  | .revoke => Sys2Proof.Machine.execRevoke s
  | .revocationNotice => Sys2Proof.Machine.execRevocationNotice s
  | .multicastGroupRegistration => Sys2Proof.Machine.execMulticastGroupRegistration s
  | .peerRequest => Sys2Proof.Machine.execPeerRequest s
  | .peerAnswer => Sys2Proof.Machine.execPeerAnswer s
  | .connectionRefill => Sys2Proof.Machine.execConnectionRefill s
  | .deviceLeavesPod => Sys2Proof.Machine.execDeviceLeavesPod s
  | .startInterface => Sys2Proof.Machine.execStartInterface s
  | .importFree => Sys2Proof.Machine.execImportFree s

end Sys2Proof.Machine
end

