-- ==== Sys2Proof/Machine/Schedule.lean ====
section
/-! DEFINITION. What may happen next: the words that entries may issue, commands that have been chosen, messages and completions
under way, inputs, and the events of the hardware and firmware. Which of them happens is a free value (log 1), within the orders
that the spec gives: the selection of an entry of a group (R44, R45), the order of messages between two endpoints (R20), the order of
inputs, and the posting of charges within 2 µs (R241). -/

namespace Sys2Proof.Machine

open Sys2Proof

/-- A candidate for the next event. -/
inductive Cand
  /-- the word at the PC of a READY entry; in the second slot of a marked pair (R83) -/
  | word (grp : Nat) (frag : BitVec 5) (second : Bool := false)
  /-- the command that DISPATCH has chosen for a queue -/
  | command (fn queue : Nat) (i : Instr)
  /-- the input at the head of the inbox -/
  | input (x : Input)
  /-- a message or completion under way, by its place -/
  | message (n : Nat) (i : Instr)
  /-- an event of the hardware or firmware -/
  | event (i : Instr)
deriving DecidableEq, Repr

/-- The state between two events: nobody issues, no input and no command runs. -/
def State.rest (s : State) : State := { s with cur := none, input := none, cmd := none }

/-- Answer of an event with the state at rest; none where it is not enabled. -/
def settleOut (o : Host.Outcome State Fault Refusal) : Option (Host.Outcome State Fault Refusal) :=
  match o with
  | .next s => some (.next s.rest)
  | .fault _ => none
  | .refused r => some (.refused r)

/-! ## The word of an entry -/

/-- Run the word at an entry's PC: the meaning of the instruction decoded from its cached line, or the trap of its fetch. None
where the line is not in the instruction cache. -/
def State.runWord (s : State) (k : Nat) (frag : BitVec 5) (second : Bool := false) : Host.Outcome State Fault Refusal :=
  let s := { s with cur := some { grp := k, frag := frag, second := second } }
  match s.issuer with
  | none => .fault .notEnabled
  | some (k, g, e, l) =>
    match s.cached g.core (vfOf k) (pcLine e.pc) with
    | none => .fault .notEnabled
    | some line =>
      match s.slotOf g e line with
      | .inr cause => event (s.slotTrap k g e l cause)
      | .inl w =>
        match decodeSlot w with
        | .ok i => exec i s
        | .error _ => exec (.unassignedOpc w) s

/-- What a device under thermal shutdown still does (R28): it takes inputs and appends records. -/
def Cand.whenShut : Cand → Bool
  | .input _ => true
  | .event .auditAppend => true
  | _ => false

/-- Run a candidate on a state at rest. -/
def State.run (s : State) (c : Cand) : Option (Host.Outcome State Fault Refusal) :=
  if s.dev.shut && !c.whenShut then none else
  settleOut (match c with
    | .word k f b => s.runWord k f b
    | .command fn q i => exec i { s with cmd := some { fn := fn, queue := q } }
    | .input x =>
      let s := { s with input := some x, inbox := s.inbox.tail }
      if s.dev.shut && x.fromPeer then .next s
      else (match x.instr with
      | some i => exec i s
      | none => event s.outside)
    | .message n i => exec i { s with pending := s.pending.eraseIdx n }
    | .event i => exec i s)

def State.enabled (s : State) (c : Cand) : Bool := (s.run c).isSome

/-! ## The entry that a group issues (R44, R45, R81) -/

/-- The instruction cache of a core is under self-test: what needs it waits (R317). -/
def State.icacheOut (s : State) (core : Nat) : Bool := s.dev.testing.contains (.sram core)

/-- Entries of a group, READY or released to replay a command (R50), whose words can issue, in frontier order. -/
def State.issuable (s : State) (k : Nat) (g : Group) : List Entry :=
  g.entries.filter (fun e => (e.st == .ready || s.replays k e) && s.enabled (.word k e.frag) && !s.icacheOut g.core)

/-- The entry that a group issues of some that can: the one that starved, else the first in frontier order (R44, R45). -/
def firstEntry (es : List Entry) : Option Entry := (es.find? (fun e => e.skip == 1024)).orElse (fun _ => es.head?)

/-- The word that a section issues next (R83): the second of a marked pair whose first has taken the first slot, else that of the
oldest group with an entry whose pipe and ports are free; of the oldest where none is. -/
def State.sectWord (s : State) (core sect : Nat) : Option Cand :=
  let able := ((s.core core).sect sect).active.filterMap (fun k => match s.group k with
    | some g => (match s.issuable k g with
      | [] => none
      | es => some (k, g, es))
    | none => none)
  let pick (l : List (Nat × Group × List Entry)) : Option Cand :=
    l.head?.bind (fun kge => (firstEntry kge.2.2).map (fun e => Cand.word kge.1 e.frag))
  -- one entry alone has nothing to give way to
  let free := match able with
    | [(_, _, [_])] => able
    | _ => able.filterMap (fun kge => match kge.2.2.filter (fun e => !s.occupied kge.1 kge.2.1 e) with
      | [] => none
      | es => some (kge.1, kge.2.1, es))
  match s.secondSlot core sect with
  | some (k, f) =>
    if able.any (fun kge => kge.1 == k && kge.2.2.any (fun e => e.frag == f)) then some (.word k f true) else (pick free).orElse (fun _ => pick able)
  | none => (pick free).orElse (fun _ => pick able)

/-- The words that may issue: one for each section. -/
def State.words (s : State) : List Cand :=
  s.cores.flatMap (fun kc => kc.2.sects.filterMap (fun x => s.sectWord kc.1 x.1))

/-- Active groups of the part, by core and section. -/
def State.activeGroups (s : State) : List Nat :=
  s.cores.flatMap (fun kc => kc.2.sects.flatMap (fun x => x.2.active))

/-! ## Messages (R20) -/

/-- The messages that may arrive: of those on one route, the oldest. -/
def messagesFrom : (n : Nat) → (seen : List Route) → List Msg → List Cand
  | _, _, [] => []
  | n, seen, m :: ms =>
    match m.route with
    | none => .message n m.instr :: messagesFrom (n + 1) seen ms
    | some r =>
      if seen.contains r then messagesFrom (n + 1) seen ms
      else .message n m.instr :: messagesFrom (n + 1) (r :: seen) ms

def State.messages (s : State) : List Cand := messagesFrom 0 [] s.pending

/-! ## Events of contexts -/

/-- Lines that READY entries of a core's groups are to issue from and that its instruction cache lacks. -/
def State.linesWanted (s : State) (core : Nat) : List (Nat × Nat) :=
  if s.icacheOut core then [] else
  (((s.core core).sects.flatMap (fun x => x.2.active)).flatMap (fun k =>
    match s.group k, s.launch (launchOf k) with
    | some g, some l =>
      (g.entries.filter (fun e => s.mayTry k g e l && (s.cached g.core (vfOf k) (pcLine e.pc)).isNone)).map
        (fun e => (vfOf k, pcLine e.pc))
    | _, _ => [])).eraseDups

/-- A group is swapped out when none of its entries can issue and what it waits for allows it (R76, R472). -/
def State.swaps (s : State) : List Instr :=
  (s.activeGroups.filter (fun k => match s.group k with
    | some g => s.mayLeave k g && (s.issuable k g).isEmpty
    | none => false)).map .swapOut

def State.contextEvents (s : State) : List Instr :=
  let ks := SMap.keys s.cores
  (if s.groups.any (fun kg => kg.2.queued.isSome && !kg.2.active) then
      ks.flatMap (fun c => (List.range 4).map (fun x => Instr.groupActivation c x)) else []) ++
  s.swaps ++
  s.groups.flatMap (fun kg => (kg.2.lines.filter (fun l => l.2.st == .filling)).map (fun l => Instr.registerFill kg.1 l.1)) ++
  s.groups.flatMap (fun kg => kg.2.held.map Instr.impreciseFault) ++
  ks.flatMap (fun c => (s.linesWanted c).map (fun vl => Instr.lineFill c vl.1 vl.2 (Config.freeBool s.tick 321))) ++
  (s.groups.filter (fun kg => kg.2.move.isSome || (kg.2.res == .guest && kg.2.slot.isNone))).map (fun kg => Instr.landing kg.1) ++
  (if s.groups.any (fun kg => kg.2.active && kg.2.stopped) then [Instr.debugStop] else []) ++
  (s.groups.filter (fun kg => kg.2.active && (match s.launch (launchOf kg.1) with | some l => l.saving | none => false))).map
    (fun kg => Instr.forcedFullSave kg.1)

/-! ## Events of crews and engines -/

/-- Crews with an arrival at an MMA. -/
def State.crewsAtMma (s : State) : List (Nat × Nat) :=
  (s.groups.filterMap (fun kg =>
    if kg.2.arrivals.any (fun a => a.block.isSome) then
      (s.launch (launchOf kg.1)).bind (fun l => (l.crewOf (groupNo kg.1)).map (fun c => (teamOf kg.1, c.1)))
    else none)).eraseDups

def State.engineEvents (s : State) : List Instr :=
  s.crewsAtMma.map (fun tc => Instr.capture tc.1 tc.2) ++
  (s.groups.filter (fun kg => !kg.2.arrivals.isEmpty)).map (fun kg => Instr.rendezvousWithdrawal kg.1) ++
  s.launches.filterMap (fun kl => kl.2.asks.head?.map Instr.yardAnswer) ++
  s.cores.flatMap (fun kc =>
    (if kc.2.saw.isEmpty then [] else [Instr.mmaComplete kc.1]) ++
    kc.2.hauls.map (fun h => Instr.copyComplete kc.1 h.1) ++
    kc.2.sweeps.map (fun h => Instr.sweepComplete kc.1 h.1) ++
    (kc.2.l1.filter (fun x => x.cls == 1 && x.dirty != 0)).map (fun x => Instr.l1WriteBack kc.1 x.line) ++
    (match kc.2.scrub with
    | some (.due _) => [Instr.scrub kc.1]
    | some (.record _) => [Instr.scrubComplete kc.1]
    | _ => []))

/-! ## Events of borrows, translation and faults -/

def State.memoryEvents (s : State) : List Instr :=
  s.dies.flatMap (fun kd =>
    ((kd.2.claims.filter (fun c => c.2.st == .wait && c.2.peer.isNone)).map (fun c => Instr.borrowTimeout kd.1 c.1)) ++
    ((kd.2.buffers.filter (fun b => !b.2.isEmpty)).map (fun b => Instr.faultBufferMove kd.1 b.1)) ++
    ((kd.2.notices.map (fun r => r.part)).eraseDups.map (fun p => Instr.faultBufferMove kd.1 p))) ++
  s.accs.filterMap (fun a => match a.2.st with
    | .walk => some (.walkComplete a.1)
    | .noEntry => some (.pageMissEntryTake a.1)
    | _ => none) ++
  (if s.fns.any (fun f => !f.2.ring.queue.isEmpty || !f.2.ring2.queue.isEmpty) then [Instr.reportingRound] else []) ++
  (s.fns.filter (fun f => f.2.invGo)).map (fun f => Instr.invalComplete f.1) ++
  (if s.dev.mapReqs.isEmpty then [] else [Instr.mappingRequest]) ++
  (s.launches.filter (fun kl => match kl.2.st with | .killed _ _ => true | _ => false)).map (fun kl => Instr.claimSweep kl.1)

/-! ## Events of launches, slices and the firmware -/

/-- Objects that waits poll. -/
def State.polled (s : State) : List (Nat × Nat) :=
  let sigw (kg : Nat × Group) : List (Nat × Nat) :=
    (kg.2.wakes.filter (fun w => w.code == 3)).map (fun w => (vfOf kg.1, w.addr.toNat % 2 ^ 57))
  let waits (f : Nat × Fn) : List (Nat × Nat) :=
    f.2.queues.filterMap (fun (q : Nat × Queue) => match q.2.waitsig with
      | some (_, a, _, _) => some (f.1, a.toNat)
      | none => none)
  (s.groups.flatMap sigw ++ s.fns.flatMap waits).eraseDups

def State.launchEvents (s : State) : List Instr :=
  (if s.fns.any (fun f => f.2.queues.any (fun q => q.2.en && q.2.next.isNone)) then [Instr.dispatch] else []) ++
  s.fns.flatMap (fun f => f.2.queues.flatMap (fun q =>
    (if q.2.waiting.isSome then [Instr.coreGrant (f.1 * 16 + q.1)] else []) ++
    (if q.2.held.isEmpty then [] else [Instr.completionRecord f.1 q.1]))) ++
  s.jobs.map (fun j => Instr.hcopyComplete j.1) ++
  s.polled.map (fun va => Instr.signalPoll va.1 va.2) ++
  s.teams.flatMap (fun kt => match kt.2.st with
    | .placing => [Instr.teamPlacement kt.1, .teamRestore kt.1, .teamCompletion kt.1]
    | .running => [Instr.teamCompletion kt.1, .blockingPointEviction kt.1, .hang kt.1]
    | .saving => [Instr.teamCompletion kt.1, .blockingPointEviction kt.1]
    | .saved => [Instr.teamRestore kt.1, .teamCompletion kt.1]
    | .done => [Instr.teamCompletion kt.1]) ++
  s.launches.flatMap (fun kl => match kl.2.st with
    | .stopping _ => [Instr.stopComplete kl.1]
    | .evicting => [Instr.sliceEndEviction kl.1]
    | _ => []) ++
  (if s.leaves.isEmpty then [] else [Instr.periodStart]) ++
  s.leaves.flatMap (fun kl => Instr.sliceEnd kl.1 :: (if kl.2.window.isEmpty then [] else [Instr.rateLimiterWindow kl.1])) ++
  (if s.unposted.isEmpty then [] else [Instr.posting]) ++
  (if s.dev.auditQ.isEmpty && s.dev.lost == 0 then [] else [Instr.auditAppend]) ++
  (if s.dev.ckpts.isEmpty then [] else [Instr.checkpoint]) ++
  (if s.dev.testing.isEmpty then [] else [Instr.selfTest]) ++
  (if s.dev.releasing.isEmpty then [] else [Instr.vfRelease])

/-! ## Events of peers -/

def State.peerEvents (s : State) : List Instr :=
  s.vfs.flatMap (fun kv => (kv.2.exports.filter (fun e => e.2.st == 2)).flatMap (fun e =>
    [Instr.revocationComplete kv.1 e.1, .peerGrantTimeout kv.1 e.1])) ++
  s.dev.conns.flatMap (fun kc => kc.2.sent.flatMap (fun r =>
    [Instr.resend kc.2.vf kc.2.dev kc.2.rvf r.seq, .peerTimeout kc.2.vf kc.2.dev kc.2.rvf r.seq])) ++
  (if s.turned.isSome then [Instr.peerRequest] else []) ++ (if s.turnedAnswer.isSome then [Instr.peerAnswer] else []) ++
  (if s.dev.conns.any (fun c => s.cutOff c.2) then [Instr.deviceLeavesPod] else [])

/-! ## The candidates -/

/-- Commands that DISPATCH has chosen. -/
def State.commands (s : State) : List Cand :=
  s.fns.flatMap (fun f => f.2.queues.filterMap (fun q => q.2.next.map (fun i => Cand.command f.1 q.1 i)))

def State.events (s : State) : List Instr :=
  s.contextEvents ++ s.engineEvents ++ s.memoryEvents ++ s.launchEvents ++ s.peerEvents

/-- Everything that may be tried next. -/
def State.candidates_ (s : State) : List Cand :=
  s.words ++ s.commands ++ (s.inbox.head?.map Cand.input).toList ++ s.messages ++ s.events.map Cand.event

/-! ## Bandwidth (R278) -/

/-- An event would move bytes of a leaf at a controller whose share of the window is used up: it is held. -/
def State.holdsBack (s t : State) : Bool :=
  s.leaves.any (fun kl => match t.leaf kl.1 with
    | some m => m.window.any (fun cn =>
        decide ((Store.rd kl.2.window cn.1).toNat < cn.2.toNat) && decide (kl.2.share ≤ (Store.rd kl.2.window cn.1).toNat))
    | none => false)

/-- Team whose access a candidate performs. -/
def State.teamOfCand (s : State) (c : Cand) : Option Nat :=
  let ofAcc (a : Nat) : Option Nat := (SMap.find s.accs a).map (fun x => teamOf x.grp)
  match c with
  | .word k _ _ => some (teamOf k)
  | .event (.walkComplete a) => ofAcc a
  | .event (.copyComplete c h) => (SMap.find (s.core c).hauls h).map (fun x => teamOf x.grp)
  | .event (.sweepComplete c h) => (SMap.find (s.core c).sweeps h).map (fun x => teamOf x.grp)
  | .event (.registerFill k _) => some (teamOf k)
  | _ => none

/-- The candidates that are enabled, with what each answers. -/
def State.tries (s : State) : List (Cand × Host.Outcome State Fault Refusal) :=
  s.candidates_.filterMap (fun c => (s.run c).map (fun o => (c, o)))

/-- A held try. -/
def State.isHeld (s : State) (o : Host.Outcome State Fault Refusal) : Bool :=
  !s.leaves.isEmpty && (match o with
    | .next t => s.holdsBack t
    | _ => false)

/-- One of some answers, by a free value; the only one where there is one. -/
def choose (n : Nat) (l : List (Cand × Host.Outcome State Fault Refusal)) : Option (Host.Outcome State Fault Refusal) :=
  match l with
  | [] => none
  | [x] => some x.2
  | x :: _ => some ((l[Config.pick n % l.length]?).getD x).2

/-- The charges counted are overdue for posting (R241). -/
def State.postDue (s : State) : Bool := !s.unposted.isEmpty && decide (s.dev.lastPost + 2000 ≤ s.now)

/-- Note the teams that a limiter holds. -/
def noteLimited (ts : List Nat) (o : Host.Outcome State Fault Refusal) : Host.Outcome State Fault Refusal :=
  match o with
  | .next s => .next { s with limited := ts }
  | o => o

/-- What happens at a state whose time has passed: an overdue posting, else one of the enabled events that no limiter holds; nothing
where there is none. -/
def State.happen (s : State) : Host.Outcome State Fault Refusal :=
  if s.postDue then (s.run (.event .posting)).getD (.next s)
  else
    let ts := s.tries
    let held := ts.filter (fun x => s.isHeld x.2)
    let go := ts.filter (fun x => !s.isHeld x.2)
    noteLimited (held.filterMap (fun x => s.teamOfCand x.1)).eraseDups ((choose s.tick go).getD (.next s))

end Sys2Proof.Machine
end

