-- ==== Sys2Proof/Machine/Step.lean ====
section
/-! DEFINITION. One step of the part, and the placing of an instruction where the next step runs it (log 13). -/

namespace Sys2Proof.Machine

open Sys2Proof

/-- One step: time passes, and one event happens. -/
def step (s : State) : Host.Outcome State Fault Refusal := s.rest.advance.happen

/-! ## Placing an instruction -/

/-- Keys of the launch, team and group that `withFetchWord` places: VF 0, LTAG 1, team 0, group 0. -/
def bootLaunch : Nat := launchKey 0 1
def bootTeam : Nat := teamKey bootLaunch 0
def bootGroup : Nat := groupKey bootTeam 0
/-- Address of its code. -/
def bootPc : Nat := 0x10000

/-- The launch descriptor of one group of 256 vector registers. -/
def bootDesc : LaunchDesc :=
  { code := BitVec.ofNat 64 bootPc, ctxBase := 0x100000, ctxLen := 0x100000, sigAddr := 0, gd := 1, prod := 0, crewN := 0, crewC := 0
    regsP := 0, regsC := 256, ss := 4096, lp := 0, cs := 0, ds := 0, x := 1, y := 1, z := 1, grouped := false, w := 0, igd := 0
    ix := 0, iy := 0, iz := 0, cores := 1, det := false, deadtrap := false, prodfirst := false, bpol := 0, budget := 0, wdog := 0
    btime := 0 }

/-- A running launch of one team of one group. -/
def bootLaunchState : Launch :=
  { st := .running, cmd := { irq := false, vec := 0, tag := 0 }, desc := bootDesc, leaf := 0, cores := [0], g := 1, x := 1, y := 1, z := 1 }

/-- The machine with a launch placed on core 0: its one group is active, and stands at a line in the instruction cache. -/
def State.withGroup (s : State) (line : BitVec 512) : State :=
  let g : Group := { bootLaunchState.newGroup 0 0 with started := true, res := .active, active := true }
  let c : Core := s.core 0
  let il : ILine := { vf := 0, line := bootPc, data := line }
  ((((s.setLaunch bootLaunch bootLaunchState).setTeam bootTeam { st := .running, core := 0 }).setGroup bootGroup g).modVf 0 (fun v =>
    { v with live := true, en := true })).setCore 0
    ({ c with team := some bootTeam, owner := some bootLaunch, icache := il :: c.icache }.setSect 0 { active := [bootGroup] })

/-- The machine with a command chosen for queue 0 of VF 0. -/
def State.withCommand (s : State) (i : Instr) (w : Nat) : State :=
  (s.modVf 0 (fun v => { v with live := true, en := true })).modFn 0 (fun f => f.setQueue 0 { f.queue 0 with en := true, next := some i, words := BitVec.ofNat 2048 w })

/-- The machine with an instruction placed where the next step runs it: a word of up to 96 bits in slot 0 of a fetch line at which a
group stands, a longer one as the command that DISPATCH has read. -/
def State.withFetchWord (s : State) (nbits w : Nat) : State :=
  if nbits ≤ 96 then s.withGroup (lineOf (BitVec.ofNat 96 w))
  else match decodeCommand (BitVec.ofNat 2048 w) with
    | .ok i => s.withCommand i w
    | .error _ => s

end Sys2Proof.Machine
end

