-- ==== Sys2Proof/Safety.lean ====
section
/-! DEFINITION. What counts as a safe state, and the terms in which statements speak of a step: what an observer reads, where a
word stands, when it issues, what an issue leaves behind. -/

namespace Sys2Proof.Machine

open Sys2Proof

/-- The canonical form of memory: addresses strictly rising, no byte equal to the 0 that an unlisted address reads as. -/
def Memory.wf (m : Memory) : Bool := Store.wf m

/-- A state is safe: its memory has the canonical form. -/
def State.safe (s : State) : Bool := Memory.wf s.mem

/-! ## What an observer reads -/

/-- A byte of device or host memory at its home address. -/
def State.byteAt (s : State) (a : Nat) : Byte := Store.rd s.mem a

/-- A vector register of a group in a lane (R64, R65). -/
def State.vAt (s : State) (k n lane : Nat) : BitVec 32 :=
  match s.group k with | some g => Store.rd (s.regData k g n) lane | none => 0
/-- A scalar register. -/
def State.sAt (s : State) (k n : Nat) : BitVec 32 := match s.group k with | some g => g.sreg n | none => 0
/-- A predicate register in a lane; p7 reads true (R333). -/
def State.pAt (s : State) (k n lane : Nat) : Bool := match s.group k with | some g => g.pred n lane | none => false
/-- An index register in a lane. -/
def State.xAt (s : State) (k n lane : Nat) : BitVec 16 := match s.group k with | some g => g.xreg n lane | none => 0
/-- A region register (R91). -/
def State.qAt (s : State) (k n : Nat) : Region := match s.group k with | some g => g.reg n | none => {}
/-- A valid latch in a lane (R79). -/
def State.lAt (s : State) (k n lane : Nat) : Option (BitVec 32) :=
  match s.group k with | some g => (SMap.find g.latches n).map (fun d => Store.rd d lane) | none => none

/-- The local memories of the part: scratchpads with their swizzle tags, cluster slices, tiles, codebooks, die scratchpads. -/
structure LocalSame (s t : State) : Prop where
  scratch : ∀ c, (t.core c).scratch = (s.core c).scratch
  tags : ∀ c, (t.core c).tags = (s.core c).tags
  clu : ∀ c, (t.core c).clu = (s.core c).clu
  tiles : ∀ c, (t.core c).tiles = (s.core c).tiles
  books : ∀ c, (t.core c).books = (s.core c).books
  dsp : ∀ d, (t.die d).dsp = (s.die d).dsp

/-! ## Where a word stands and when it issues -/

/-- The entry that issues a word, with its group and launch. -/
structure Site where
  k : Nat
  g : Group
  e : Entry
  l : Launch

/-- Lanes whose guard passes (R325). -/
def Site.pass (x : Site) (o : Op) : BitVec 32 := x.g.passing o.use.g x.e.mask

/-- The context in which the word reads its operands. -/
def Site.ctx (x : Site) (s : State) (o : Op) : Ctx :=
  { k := x.k, g := x.g.replayView x.e, e := x.e, pass := x.pass o, stay := x.e.mask, lanes := x.pass o, id := s.nextId }

/-- The value of a source of the word in a lane. -/
def Site.val (x : Site) (s : State) (o : Op) (a : SrcUse) (lane : Nat) : Nat := (x.ctx s o).val s a lane
/-- The value of a per-group operand: that of the lowest acting lane. -/
def Site.uni (x : Site) (s : State) (o : Op) (a : SrcUse) : Nat := (x.ctx s o).uni s a

/-- The word comes to its issue: the entry that `cur` names is READY in an active group of a running launch that no debugger steps,
and no machine check is due. -/
structure Arrives (x : Site) (s : State) : Prop where
  issuer : s.issuer = some (x.k, x.g, x.e, x.l)
  ready : x.e.st = .ready
  running : x.l.st = .running
  free : x.g.step = none
  check : x.g.checkDue x.e = false
  lanes : x.e.mask ≠ 0

/-- The word issues: it comes to its issue; its registers lie in the budget and its mode is right (R250, R341); a supervisor entry is
not divided; nothing holds it back (R81): room behind its accesses, no access, acquire or codebook load that it must wait for, no
awaited register, no absent line; and its operands raise no trap (R245). -/
structure Issues (x : Site) (s : State) (o : Op) : Prop extends Arrives x s where
  budget : o.use.overBudget x.g.bud = false
  mode : o.use.mode = none ∨ o.use.mode = some (x.g.supv x.e)
  whole : x.g.supv x.e = true → x.pass o = 0 ∨ x.pass o = x.e.mask
  room : skidRoom (s.openAccs x.k x.e.mask) = true
  order : o.use.order = true → s.openAccs x.k x.e.mask = [] ∧ s.booksOut x.k x.e.mask = false
  acquires : o.use.touches = true → (s.openAccs x.k x.e.mask).any (fun a => a.acq && a.lanes &&& x.pass o != 0) = false
  results : o.use.awaits x.g (x.pass o) = none
  lines : o.use.misses x.g (x.pass o) = []
  operands : (s.operandStage o.use (x.ctx s o) x.l.desc.deadtrap).2 = []

/-! ## What an issue leaves behind -/

/-- Some lanes of a group stand READY at a place, with a priority. -/
def StandsAt (t : State) (k : Nat) (m : BitVec 32) (pc : VAddr) (prio : BitVec 8) : Prop :=
  ∃ g, t.group k = some g ∧ ∀ i, m.getLsbD i = true →
    ∃ e ∈ g.entries, e.mask.getLsbD i = true ∧ e.st = .ready ∧ e.pc = pc ∧ e.prio = prio

/-- The word has retired: every lane of the entry stands READY at the next PC with its priority (R43, R44). -/
def Site.retired (x : Site) (t : State) : Prop := StandsAt t x.k x.e.mask (nextPc x.e.pc) x.e.prio

/-- What a destination of `w` registers holds in a lane. An indexed one is reached through the index registers as they stood. -/
def State.landed (t : State) (x : Site) (d : Dst) (w lane : Nat) : Nat :=
  match t.group x.k with
  | none => 0
  | some g => match d with
    | .v n => t.vregs x.k g n.toNat w lane
    | .s n => wordsFrom g.sreg n.toNat w
    | .p n => if g.pred n.toNat lane then 1 else 0
    | .x n => (g.xreg n.toNat lane).toNat
    | .vx i j => t.vregs x.k g (x.g.indexed i j lane) w lane

/-- What a destination takes of a result: an s register that of the lowest acting lane, a predicate the truth value, an index
register 16 bits; p7 discards (R332, R333). -/
def takes (d : Dst) (w : Nat) (mine lowest : Nat) : Nat :=
  match d with
  | .v _ => mine % 2 ^ (32 * w)
  | .s _ => lowest % 2 ^ (32 * w)
  | .p n => if n = 7 || mine != 0 then 1 else 0
  | .x _ => mine % 2 ^ 16
  | .vx _ _ => mine % 2 ^ (32 * w)

/-- The word's result has landed in its destination and its latch: `f` gives the value in each acting lane. -/
structure Site.lands (x : Site) (o : Op) (t : State) (f : Nat → Nat) : Prop where
  dst : ∀ d, o.use.dst = some d → ∀ i, i < 32 → (x.pass o).getLsbD i = true →
    t.landed x d o.use.dw i = takes d o.use.dw (f i) (f (lowLane (x.pass o)))
  latch : ∀ n, o.use.latch = some n → ∀ i, i < 32 → (x.pass o).getLsbD i = true →
    t.lAt x.k n.toNat i = some (BitVec.ofNat 32 (f i))

/-- What lies outside an issuing group and its core's clocks: memory, the local memories, every other group, the dies, functions,
launches, leaves and the device keep their values. -/
structure Site.outside (x : Site) (s t : State) : Prop where
  memory : ∀ a, t.byteAt a = s.byteAt a
  locals : LocalSame s t
  groups : ∀ j, j ≠ x.k → t.group j = s.group j
  device : t.dev = s.dev ∧ t.dies = s.dies ∧ t.launches = s.launches ∧ t.vfs = s.vfs ∧ t.fns = s.fns ∧ t.leaves = s.leaves

/-- The registers of the group keep their values but for the word's destinations, and but for those whose last use is honoured,
which are freed (R66). Lanes that do not act keep theirs. -/
structure Site.registers (x : Site) (o : Op) (s t : State) : Prop where
  vector : ∀ n i, n ∉ o.use.vWritten x.g (lanesOf (x.pass o)) → n ∉ o.use.lastUses x.g x.e (x.pass o) →
    t.vAt x.k n i = s.vAt x.k n i
  vectorIdle : ∀ n i, x.g.live.getLsbD i = true → (x.pass o).getLsbD i = false → n ∉ o.use.lastUses x.g x.e (x.pass o) →
    t.vAt x.k n i = s.vAt x.k n i
  scalar : ∀ n, n ∉ o.use.sWritten → t.sAt x.k n = s.sAt x.k n
  predicate : ∀ n i, (n ∉ o.use.pw ∧ ∀ d, o.use.dst = some (.p d) → d.toNat ≠ n) ∨ (x.pass o).getLsbD i = false →
    t.pAt x.k n i = s.pAt x.k n i
  index : ∀ n i, i < 32 → (∀ d, o.use.dst = some (.x d) → d.toNat ≠ n) ∨ (x.pass o).getLsbD i = false →
    t.xAt x.k n i = s.xAt x.k n i
  latches : ∀ n i, (∀ d, o.use.latch = some d → d.toNat ≠ n) → t.lAt x.k n i = s.lAt x.k n i

/-- The control registers and the trap frame of the group keep their values, and the region registers outside a list theirs. -/
structure Site.control (x : Site) (t : State) (qs : List Nat) : Prop where
  status : ∀ g, t.group x.k = some g → g.fmode = x.g.fmode ∧ g.status = x.g.status ∧ g.xlim = x.g.xlim ∧ g.frame = x.g.frame
  regions : ∀ g, t.group x.k = some g → ∀ n, n ∉ qs → g.reg n = x.g.reg n

/-- The frame of a word that stores nothing and writes no control register. -/
structure Site.keeps (x : Site) (o : Op) (s t : State) : Prop where
  outside : x.outside s t
  registers : x.registers o s t
  control : x.control t []

/-! ## Forms of statement -/

/-- The value of the source `a` in field `f` of the word, read as `w` registers of a type, in a lane. -/
def Site.rd (x : Site) (s : State) (o : Op) (f : Nat) (a : Src) (lane : Nat) (w : Nat := 1) (t : OTy := .i32) : Nat :=
  x.val s o (srcIn f a w t) lane

/-- Wherever the word issues, it answers a next state: it has retired, each acting lane's result is the value given, and the word
has changed nothing else. -/
def Gives (i : Instr) (f : Site → State → Op → Nat → Nat) : Prop :=
  ∀ x s o, wordOp i s = some o → Issues x s o →
    ∃ t, exec i s = .next t ∧ x.retired t ∧ x.lands o t (f x s o) ∧ x.keeps o s t

/-- The registers and the outside as `Site.keeps` has them, and every region register; the control registers are left open. -/
structure Site.only (x : Site) (o : Op) (s t : State) : Prop where
  outside : x.outside s t
  registers : x.registers o s t
  regions : ∀ g, t.group x.k = some g → ∀ n, g.reg n = x.g.reg n

/-! ## Floating point -/

/-- What a floating-point word computes in a lane: bits and exceptions; none for every other word. -/
def floatResult (i : Instr) (x : Site) (s : State) (o : Op) (l : Nat) : Option Fp.Res :=
  let v (f : Nat) (a : Src) (t : FTy) : Nat := x.rd s o f a l t.width (ftyOTy t)
  let h (f : Nat) (a : Src) (t : HTy) (j : Nat) : Nat := elem16 (x.rd s o f a l 1 (htyOTy t)) j
  match i with
  | .fadd _ t r a b => some (Fp.fadd (ftyFmt t) (x.g.rounding r) x.g.ftz (v 0 a t) (v 1 b t))
  | .fsub _ t r a b => some (Fp.fsub (ftyFmt t) (x.g.rounding r) x.g.ftz (v 0 a t) (v 1 b t))
  | .fmul _ t r a b => some (Fp.fmul (ftyFmt t) (x.g.rounding r) x.g.ftz (v 0 a t) (v 1 b t))
  | .ffma _ t r a b d => some (Fp.ffma (ftyFmt t) (x.g.rounding r) x.g.ftz (v 0 a t) (v 1 b t) (v 2 d t))
  | .fmnmx _ t mx a b => some (Fp.fmnmx (ftyFmt t) x.g.ftz mx (v 0 a t) (v 1 b t))
  | .fsetp _ _ t cmp a b =>
    let r := Fp.fcmp (ftyFmt t) x.g.ftz cmp (v 0 a t) (v 1 b t)
    some { bits := if r.1 then 1 else 0, flags := r.2 }
  | .fdot2 _ t a b d => some (fdot2 (htyFmt t) (x.rd s o 0 a l 1 (htyOTy t)) (x.rd s o 1 b l 1 (htyOTy t)) (x.rd s o 2 d l 1 .f32))
  | .sfnRcp _ a => some (Fp.sfn .rcp x.g.ftz (v 0 a .f32))
  | .sfnRsq _ a => some (Fp.sfn .rsq x.g.ftz (v 0 a .f32))
  | .sfnSqrt _ a => some (Fp.sfn .sqrt x.g.ftz (v 0 a .f32))
  | .sfnExp2 _ a => some (Fp.sfn .exp2 x.g.ftz (v 0 a .f32))
  | .sfnLog2 _ a => some (Fp.sfn .log2 x.g.ftz (v 0 a .f32))
  | .sfnSin _ a => some (Fp.sfn .sin x.g.ftz (v 0 a .f32))
  | .sfnCos _ a => some (Fp.sfn .cos x.g.ftz (v 0 a .f32))
  | .sfnTanh _ a => some (Fp.sfn .tanh x.g.ftz (v 0 a .f32))
  | .hadd2 _ t a b => some (packed2 fun j => Fp.fadd (htyFmt t) .rn false (h 0 a t j) (h 1 b t j))
  | .hmul2 _ t a b => some (packed2 fun j => Fp.fmul (htyFmt t) .rn false (h 0 a t j) (h 1 b t j))
  | .hfma2 _ t a b d => some (packed2 fun j => Fp.ffma (htyFmt t) .rn false (h 0 a t j) (h 1 b t j) (h 2 d t j))
  | .cvt _ dt st r a =>
    let ty : OTy := match st with
      | .f16 => .f16
      | .bf16 => .bf16
      | .f32 => .f32
      | .f64 => .f64
      | _ => .i32
    some (convert dt st r x.g.rm x.g.ftz (x.rd s o 0 a l st.width ty))
  | _ => none

/-- The exceptions raised in some lanes. -/
def flagsOf (m : BitVec 32) (f : Nat → Fp.Res) : BitVec 5 := (lanesOf m).foldl (fun a i => a ||| (f i).flags) 0

/-! ## Traps -/

/-- R42, R43: every FRAG of the group names a lane of its own mask, and the masks of other entries hold none of the entry's lanes. -/
def Site.tidy (x : Site) : Prop :=
  ∀ f ∈ x.g.entries, f.mask.getLsbD f.frag.toNat = true ∧ (f ≠ x.e → f.mask &&& x.e.mask = 0)

/-- A trap of the entry is delivered at once: user mode and no routine running in the group (R248), a supervisor routine in the VF
(R244), no debugger, no access of its lanes that may still fault (R246), the frontier of R43, none of whose entries
stands at the supervisor base. -/
structure Site.traps (x : Site) (s : State) : Prop where
  busy : x.g.frame.busy = false
  routine : (s.vf (vfOf x.k)).hasSupv = true
  debugger : x.l.dbg = false
  accesses : s.openAccs x.k x.e.mask = []
  tidy : x.tidy
  apart : ∀ f ∈ x.g.entries, f.pc ≠ supvBase

/-- The frame of a precise trap of some lanes of the entry, and where they stand (R247, R249). -/
def Site.trapped (x : Site) (t : State) (m : BitVec 32) (cause : BitVec 8) (faddr : BitVec 57) (info : BitVec 32) : Prop :=
  ∃ g, t.group x.k = some g ∧ g.frame.cause = cause ∧ g.frame.impr = false ∧ g.frame.busy = true ∧ g.frame.lanes = m ∧
    g.frame.skid = 0 ∧ g.frame.prio = x.e.prio ∧ g.frame.pc = x.e.pc ∧ g.frame.rpc = x.e.pc ∧ g.frame.faddr = faddr ∧
    g.frame.info = info ∧ (∃ e ∈ g.entries, e.frag = g.frame.frag ∧ m &&& ~~~e.mask = 0 ∧ e.st = .ready ∧ e.pc = supvBase ∧ e.prio = 255) ∧
    m.getLsbD g.frame.frag.toNat = true

/-! ## Branches -/

/-- Where a branch word sends a lane and with what priority, and whether it raises BAD_TARGET there (R322, R376, R378, R379, R438). -/
structure Jump where
  to_ : VAddr
  prio : BitVec 8
  bad : Bool

/-- The jump of a lane; none for a word that is no branch. -/
def branchOf (i : Instr) (x : Site) (s : State) (o : Op) (l : Nat) : Option Jump :=
  let bad (tgt : Bool) (to_ : VAddr) : Bool := s.badTarget x.g x.k (x.g.supv x.e) tgt to_
  match i with
  | .bra _ target prio => some { to_ := branchTarget x.e.pc target, prio := prio, bad := bad true (branchTarget x.e.pc target) }
  | .brx _ a prio =>
    let to_ := BitVec.ofNat 57 (x.rd s o 0 a l 2 .z64)
    some { to_ := to_, prio := prio, bad := bad true to_ }
  | .call _ _ target prio => some { to_ := branchTarget x.e.pc target, prio := prio, bad := bad true (branchTarget x.e.pc target) }
  | .ret _ a =>
    let link := x.rd s o 0 a l 2 .z64
    let to_ := BitVec.ofNat 57 (link / 2 ^ 11 % 2 ^ 51 * 64 + link % 8)
    some { to_ := to_, prio := BitVec.ofNat 8 (link / 8), bad := decide (4 < link % 8) || link / 2 ^ 62 % 4 != 0 || bad false to_ }
  | _ => none

/-! ## Memory accesses -/

/-- The region register of a memory operand. -/
def Site.region (x : Site) (s : State) (o : Op) (m : MemOp) : Region := (x.ctx s o).g.reg m.q.toNat
/-- The address of a memory operand in a lane: base, offset and immediate, exact (R364). -/
def Site.ea (x : Site) (s : State) (o : Op) (m : MemOp) (i : Nat) : Int :=
  ((x.region s o m).base.toNat : Int) + x.rd s o 0 m.off i + m.imm.toInt

/-- The access of every acting lane passes the checks of R95: the register is neither EMPTY nor PEND nor LENT and permits the access,
each range of `n` bytes lies in it, it lies in the 57-bit space, each address is aligned to `n`. -/
structure Site.reaches (x : Site) (s : State) (o : Op) (m : MemOp) (kind : AccKind) (n : Nat) : Prop where
  held : (x.region s o m).kind ≠ 0 ∧ (x.region s o m).pend = false ∧ (x.region s o m).lent = false
  permits : permits (x.region s o m).kind kind = true
  small : (x.region s o m).base.toNat + (x.region s o m).len.toNat ≤ 2 ^ 57
  home : (x.region s o m).kind = 4 → apertureIdx (x.region s o m).base.toNat = none
  bounds : ∀ i, (x.pass o).getLsbD i = true → ((x.region s o m).base.toNat : Int) ≤ x.ea s o m i ∧
    x.ea s o m i + n ≤ (x.region s o m).base.toNat + (x.region s o m).len.toNat
  aligned : ∀ i, (x.pass o).getLsbD i = true → x.ea s o m i % (n : Int) = 0

/-- What an ATOM, RED or CAS word asks for: operation, width, destination, operand and new value of CAS, scope. -/
structure AtomicWord where
  op : AOp
  wide : Bool
  dst : Option Dst
  mem : MemOp
  b : Src
  nv : Option Src
  sc : Scope

/-- The atomic that a word performs. -/
def atomicOf (i : Instr) : Option AtomicWord :=
  match i with
  | .atomAdd _ _ sc w d m b => some ⟨.add, w, d, m, b, none, sc⟩
  | .atomMin _ _ sc u d m b => some ⟨if u then .minZ else .minS, false, d, m, b, none, sc⟩
  | .atomMax _ _ sc u d m b => some ⟨if u then .maxZ else .maxS, false, d, m, b, none, sc⟩
  | .atomAnd _ _ sc w d m b => some ⟨.and, w, d, m, b, none, sc⟩
  | .atomOr _ _ sc w d m b => some ⟨.or, w, d, m, b, none, sc⟩
  | .atomXor _ _ sc w d m b => some ⟨.xor, w, d, m, b, none, sc⟩
  | .atomExch _ _ sc w d m b => some ⟨.exch, w, d, m, b, none, sc⟩
  | .atomAddf _ _ sc d m b => some ⟨.addf, false, d, m, b, none, sc⟩
  | .redAdd _ _ sc w m b => some ⟨.add, w, none, m, b, none, sc⟩
  | .redMin _ _ sc u m b => some ⟨if u then .minZ else .minS, false, none, m, b, none, sc⟩
  | .redMax _ _ sc u m b => some ⟨if u then .maxZ else .maxS, false, none, m, b, none, sc⟩
  | .redAnd _ _ sc w m b => some ⟨.and, w, none, m, b, none, sc⟩
  | .redOr _ _ sc w m b => some ⟨.or, w, none, m, b, none, sc⟩
  | .redXor _ _ sc w m b => some ⟨.xor, w, none, m, b, none, sc⟩
  | .redAddf _ _ sc m b => some ⟨.addf, false, none, m, b, none, sc⟩
  | .cas _ _ sc w d m cv nv => some ⟨.cas, w, d, m, cv, some nv, sc⟩
  | _ => none

/-- The local memories of two states hold the same bytes. -/
def SameLocals (s t : State) : Prop := ∀ u a, t.unitRd u a = s.unitRd u a

/-- A group differs at most in what a waking changes: its frontier, wake records, place in the ready list, and a register that a JOIN
gives back. -/
def Woken (g h : Group) : Prop :=
  h = { g with entries := h.entries, wakes := h.wakes, queued := h.queued, atHead := h.atHead, q := h.q }

/-- What a word leaves outside its group where it may wake others: memory, the device, functions, launches, leaves keep their
values; every other group at most wakes. -/
structure Site.wakes (x : Site) (s t : State) : Prop where
  memory : ∀ a, t.byteAt a = s.byteAt a
  groups : ∀ j, j ≠ x.k → ∀ g, s.group j = some g → ∃ h, t.group j = some h ∧ Woken g h
  device : t.dev = s.dev ∧ t.launches = s.launches ∧ t.vfs = s.vfs ∧ t.fns = s.fns ∧ t.leaves = s.leaves

/-- The same where tiles, codebooks and swizzle tags keep their values too. -/
structure Site.beside (x : Site) (s t : State) : Prop extends x.wakes s t where
  tiles : ∀ c, (t.core c).tiles = (s.core c).tiles ∧ (t.core c).books = (s.core c).books ∧ (t.core c).tags = (s.core c).tags

/-- A store or atomic of lanes in local memory, in ascending lane order: the state after it and the old values. -/
def State.localRun (s : State) (ea : Nat → Nat) (f : State → Nat → Nat → State × Nat) (lanes : List Nat) :
    State × (Nat → Nat) :=
  lanes.foldl (fun sv i => let r := f sv.1 i (ea i); (r.1, fun j => if j = i then r.2 else sv.2 j)) (s, fun _ => 0)

/-- An LDF or STF reaches its fragment (R416, R458): the shape operand is in bounds and the layout word well formed for it, the
registers lie in the budget, the register names the scratchpad or the cluster slice, and every byte of the fragment lies in it. -/
structure Site.fragment (x : Site) (s : State) (o : Op) (ty : FragTy) (d : Nat) (m : MemOp) (lay sk : Nat) (sp : LSpace)
    (kk n mem : Nat) : Prop where
  shape : fragShape sk = some (kk, n, mem)
  word : layBad lay 128 kk (fragBits ty) = false ∧ layEw lay = ewCode (fragBits ty)
  regs : d + fragRegs kk (fragBits ty) n ≤ x.g.bud
  held : (x.region s o m).pend = false ∧ (x.region s o m).lent = false ∧ LSpace.ofKind (x.region s o m).kind = some sp ∧
    (sp = .scr ∨ sp = .clu)
  base : 0 ≤ x.ea s o m (lowLane (x.pass o))
  bounds : ∀ a ∈ fragAll (x.ea s o m (lowLane (x.pass o))).toNat lay (fragBits ty) kk n mem,
    (x.region s o m).base.toNat ≤ a.1 ∧
      a.1 + (if fragBits ty = 16 then 2 else 1) ≤ (x.region s o m).base.toNat + (x.region s o m).len.toNat

/-- The word waits (R52): its lanes stand BLOCKED at it as one entry, whose wake record has a code, argument, address and value. -/
def Site.waits (x : Site) (t : State) (code : BitVec 4) (arg : BitVec 16) (addr value : BitVec 64) : Prop :=
  ∃ h e w, t.group x.k = some h ∧ e ∈ h.entries ∧ e.mask = x.e.mask ∧ e.st = .blocked ∧ e.pc = x.e.pc ∧ e.prio = x.e.prio ∧
    w ∈ h.wakes ∧ w.frag = e.frag ∧ w.code = code ∧ w.arg = arg ∧ w.addr = addr ∧ w.value = value

/-- An entry of a group waits on a wake record, and the group's records are in order: each names one BLOCKED entry. -/
structure Waiter (s : State) (j : Nat) (w : Wake) (e : Entry) (h : Group) : Prop where
  group : s.group j = some h
  wake : w ∈ h.wakes
  entry : e ∈ h.entries ∧ e.frag = w.frag
  frags : (h.entries.map Entry.frag).Nodup ∧ (h.wakes.map Wake.frag).Nodup
  blocked : ∀ v ∈ h.wakes, ∀ f ∈ h.entries, f.frag = v.frag → f.st = .blocked
  idle : h.issuing = none
  keys : SMap.sorted s.groups = true

/-- The object of a barrier word lies in its register, the scratchpad's or the cluster slice's, aligned (R420). -/
structure Site.object (x : Site) (s : State) (o : Op) (m : MemOp) : Prop where
  held : ((x.region s o m).kind = 9 ∨ (x.region s o m).kind = 10) ∧ (x.region s o m).pend = false ∧ (x.region s o m).lent = false
  bounds : ((x.region s o m).base.toNat : Int) ≤ x.ea s o m (lowLane (x.pass o)) ∧
    x.ea s o m (lowLane (x.pass o)) + 16 ≤ (x.region s o m).base.toNat + (x.region s o m).len.toNat
  aligned : x.ea s o m (lowLane (x.pass o)) % 16 = 0

/-- A signal object lies in an open register that is no peer's, aligned, its page in the TLBs with the permission (R450), and
the host, where it is the home, answers without an error. -/
structure Site.signal (x : Site) (s : State) (o : Op) (m : MemOp) (need : Need) (p : Xlat) : Prop where
  held : (x.region s o m).kind = 4 ∧ (x.region s o m).pend = false ∧ (x.region s o m).lent = false ∧ apertureIdx (x.region s o m).base.toNat = none
  bounds : ((x.region s o m).base.toNat : Int) ≤ x.ea s o m (lowLane (x.pass o)) ∧
    x.ea s o m (lowLane (x.pass o)) + 8 ≤ (x.region s o m).base.toNat + (x.region s o m).len.toNat
  small : x.ea s o m (lowLane (x.pass o)) < 2 ^ 57
  aligned : x.ea s o m (lowLane (x.pass o)) % 8 = 0
  page : ∃ n, s.lookup x.g.core (vfOf x.k) (x.ea s o m (lowLane (x.pass o))).toNat = some (.ok p n)
  allowed : p.deny (s.vf (vfOf x.k)) (some 1) need = none
  near : isPeer p.home = false ∧ isPeer (p.at (x.ea s o m (lowLane (x.pass o))).toNat) = false
  answers : s.hostFails (p.at (x.ea s o m (lowLane (x.pass o))).toNat) 8 = false

/-- The vector registers of a group's record lie apart from some home addresses. -/
def State.recordApart (s : State) (k : Nat) (g : Group) (a n : Nat) : Prop :=
  ∀ r p, s.recXlat k g (s.regVa k r) = some p → p.at (s.regVa k r) + 128 ≤ a ∨ a + n ≤ p.at (s.regVa k r)

/-- A result of the word is under way: the access with what was read and where each acting lane's registers are, and its arrival
among the messages (R23, R76). -/
def Site.comes (x : Site) (s : State) (o : Op) (t : State) (d : Option Dst) (w : Nat) (f : Nat → Nat) : Prop :=
  ∃ id a, { instr := .loadComplete id } ∈ t.pending ∧ SMap.find t.accs id = some a ∧ a.st = .data ∧ a.grp = x.k ∧
    a.lanes = x.pass o ∧ a.poison = 0 ∧ ∀ i n j, (x.pass o).getLsbD i = true → (x.ctx s o).dstReg d i = some n → j < w →
      Store.rd a.res ((n + j) * 32 + i) = BitVec.ofNat 32 (f i / 2 ^ (32 * j))

/-- The word is accepted by an engine (R217, R218): it retires, changes nothing else, and a token register awaits its command. -/
structure Site.accepted (x : Site) (o : Op) (s t : State) (id : Nat) (d : Done) : Prop where
  retired : x.retired t
  keeps : x.keeps o s t
  number : s.nextId ≤ id ∧ id < t.nextId
  token : ∀ k sd, d = .token k sd → k = x.k ∧ ∃ g, t.group k = some g ∧ { reg := .s sd, kind := .token, op := id, lanes := 0xFFFFFFFF } ∈ g.pend

/-- Where a command of either form is to report: the scalar of its token, or a barrier object that lies aligned in its space. -/
def Site.reports (x : Site) (s : State) (sd : Option (BitVec 7)) (mb : Nat) (d : Done) : Prop :=
  match sd with
  | some r => d = .token x.k r.toNat
  | none => d = .mbar (decide (2 ^ 31 ≤ mb)) (mb % 2 ^ 31) ∧ mb % 2 ^ 31 % 16 = 0 ∧
      mb % 2 ^ 31 + 16 ≤ s.spaceLen x.k (mbSpace (decide (2 ^ 31 ≤ mb)))

/-- Requests that a connection holds, sent or waiting for a number (R295). -/
def State.requests (s : State) (vf dev rvf : Nat) : List Req :=
  match SMap.find s.dev.conns (connKey vf dev rvf) with | some c => c.sent ++ c.queue | none => []

/-- A remote word retires and its operation stands under way with its token awaited (R296); what it changes beside is connections
and counts. -/
structure Site.starts (x : Site) (o : Op) (s t : State) (id : Nat) (m : RemOp) : Prop where
  retired : x.retired t
  registers : x.registers o s t
  control : x.control t []
  memory : ∀ a, t.byteAt a = s.byteAt a
  locals : SameLocals s t
  groups : ∀ j, j ≠ x.k → t.group j = s.group j
  number : s.nextId ≤ id ∧ id < t.nextId
  operation : t.rems = SMap.put s.rems id m
  owner : m.grp = x.k ∧ m.vf = vfOf x.k ∧ m.pc = x.e.pc ∧ m.core = x.g.core ∧ m.fails = []
  token : ∃ g, t.group x.k = some g ∧ { reg := .s m.sd, kind := .token, op := id, lanes := 0xFFFFFFFF } ∈ g.pend

/-- The registers in the header of two groups are the same. -/
def SameHeader (g h : Group) : Prop :=
  (∀ n, h.sreg n = g.sreg n) ∧ (∀ n i, h.pred n i = g.pred n i) ∧ (∀ n i, h.xreg n i = g.xreg n i) ∧ (∀ n, h.reg n = g.reg n) ∧
    h.fmode = g.fmode ∧ h.status = g.status ∧ h.xlim = g.xlim ∧ h.frame = g.frame

end Sys2Proof.Machine
end

