-- ==== Sys2Proof/Certificates/Slice0/Obligations.lean ====
section
/-! DEFINITION. The statements for the provers. Each follows from rules of the spec that its entry in OBLIGATIONS.json cites. -/

open Sys2Proof Sys2Proof.Machine

/-- Decoding an encoded well-formed instruction word or host command gives it back, and what decodes encodes to the same bits (R324,
R325, R327, R329, R332, R336, R338, R361, R362, R270, R275). -/
def Obligations.EncodedWordsDecode : Prop :=
  (∀ i w, Instr.wf i = true → i.encode = some w → (∀ v, i ≠ .unassignedOpc v) → decodeSlot w = .ok i) ∧
  (∀ i s, (wordOp i s).isSome = true → (i.encode).isSome = true) ∧
  (∀ w i, decodeSlot w = .ok i → i.wf = true ∧ i.encode = some w) ∧
  (∀ w : BitVec 96, assignedOpc (w.extractLsb' 0 10).toNat = false → decodeSlot w = .ok (.unassignedOpc w)) ∧
  (∀ i w, i.commandOk = true → i.encodeCommand = some w → decodeCommand w = .ok i) ∧
  ∀ w i, decodeCommand w = .ok i → i.commandOk = true ∧ i.encodeCommand = some w

/-- Words written out field by field from the encoding tables decode to the instructions they stand for (R324, R327, R338, R360,
R361, R394, R362, R270). -/
def Obligations.WrittenWordsDecode : Prop :=
  let w (fs : List (Nat × Nat)) : BitVec 96 := BitVec.ofNat 96 (fs.foldl (fun a f => a + f.2 * 2 ^ f.1) 0)
  let g : Guard := { gp := 7, gn := false }
  let dest (d : Dst) : Alu := { g := g, lu := 0, out := { dst := some d, latch := none } }
  decodeSlot (w [(0, 0x001), (11, 7), (15, 0x001), (26, 0x002), (36, 0x103), (85, 4)]) = .ok (.iadd (dest (.v 1)) .s32 (.v 2) (.s 3)) ∧
  decodeSlot 0x03600000010140400C033843 = .ok (.ffma (dest (.v 6)) .f32 (some .rz) (.v 3) (.v 4) (.v 5)) ∧
  decodeSlot 0x29604FF0000010500C035443 = .ok (.ffma { g := { gp := 2, gn := true }, lu := 1, out := { dst := some (.v 6), latch := some 1 } }
    .f32 none (.v 3) (.s 5) (.lit 0x3FC00000)) ∧
  decodeSlot (w [(0, 0x080), (11, 7), (15, 0x001), (26, 0x000), (56, 10 + 16 * 11)]) = .ok (.cvt (dest (.v 1)) .bf16 .f32 none (.v 0)) ∧
  decodeSlot (w [(0, 0x0CA), (11, 7), (15, 0x104), (26, 0x000), (56, 0), (85, 11)]) = .ok (.gred (dest (.s 4)) .addF (.v 0)) ∧
  decodeSlot (w [(0, 0x100), (11, 1), (14, 1), (46, 128), (56, 2 ^ 22 - 8 + 2)]) = .ok (.bra { gp := 1, gn := true } 0x3FFFFA 128) ∧
  decodeSlot (w [(0, 0x140), (11, 7), (15, 0x002), (26, 0x005), (56, 16), (78, 1), (81, 8), (85, 7)]) =
    .ok (.ld { g := g, lu := 1 } .b64 (some (.v 2)) { q := 8, off := .v 5, imm := 16 }) ∧
  decodeSlot (w [(0, 0x180), (10, 1), (11, 7), (15, 0x101), (26, 0x102), (46, 256), (81, 4)]) =
    .ok (.borX { g := g, lu := 0 } 1 4 2 (.lit 256)) ∧
  decodeSlot (w [(0, 0x1CE), (11, 7), (15, 0x108)]) = .ok (.ftile g 8) ∧
  decodeSlot (w [(0, 0x200), (11, 7), (26, 0x105), (81, 13)]) = .ok (.mma g 13 (.s 5)) ∧
  decodeSlot (w [(0, 0x240), (11, 7), (15, 0x008), (26, 0x003), (56, 0x011), (81, 2), (85, 6)]) =
    .ok (.rld { g := g, lu := 0 } .b32 17 8 2 (.v 3)) ∧
  decodeSlot (w [(0, 0x280), (11, 7), (15, 0x000), (56, 0x00)]) = .ok (.rdsr (dest (.v 0)) .lane) ∧
  decodeCommand (BitVec.ofNat 2048 (0x05 + 2 ^ 8 + 3 * 2 ^ 9 + 77 * 2 ^ 32 + 0x1234 * 2 ^ 64)) =
    .ok (.mark { irq := true, vec := 3, tag := 77 } 0x1234)

/-- Every step keeps the canonical form of memory: addresses strictly rising, no listed byte equal to what an unlisted address reads
as; what the rules leave open here is the model's choice, log 2 (chapter 5, device and host memory, chapter 2, execution model). -/
def Obligations.StepsKeepTheMemoryForm : Prop := ∀ s t, s.safe = true → step s = .next t → t.safe = true

/-- After device reset the measurement registers and the ready map are zero, the log is empty from sequence 0, and no work exists;
what the rules leave open here is the model's choice, log 2, 3, 11, 14 (R306, R308, R315, chapter 13, bring-up). -/
def Obligations.ResetIsZeroedAndSafe : Prop :=
  let s := State.reset
  s.safe = true ∧ (∀ a, s.byteAt a = 0) ∧ (∀ m, Store.rd s.dev.measures m = 0) ∧ s.dev.ready = 0 ∧
    s.dev.audit = [] ∧ s.dev.auditNext = 0 ∧ s.dev.seals = [] ∧ s.dev.throttleLog = [] ∧ s.dev.parts = [] ∧
    (∀ k, s.group k = none) ∧ (∀ k, s.launch k = none) ∧ s.teams = [] ∧ s.vfs = [] ∧ s.leaves = [] ∧ s.pending = [] ∧ s.accs = [] ∧
    s.rems = [] ∧ s.jobs = [] ∧ s.input = none

/-- A step lets time pass and does what one enabled candidate does; an entry's candidate runs the instruction decoded from its line;
what the rules leave open here is the model's choice, log 1, 4 (R28, R40, R318, R320, R321, R362, chapter 2, execution model). -/
def Obligations.AStepRunsTheDecodedWord : Prop :=
  (∀ s, step s = s.rest.advance.happen) ∧
  (∀ (s : State) c o, s.postDue = false → s.tries = [(c, o)] → s.isHeld o = false → s.happen = noteLimited [] o) ∧
  (∀ (s t : State), s.happen = .next t →
    (∃ ts : List Nat, t = { s with limited := ts }) ∨ ∃ (c : Cand) (u : State) (ts : List Nat), s.run c = some (.next u) ∧ t = { u with limited := ts }) ∧
  (∀ (s : State) k frag g e l line i,
    let r : State := { s with cur := some { grp := k, frag := frag } }
    r.issuer = some (k, g, e, l) → r.cached g.core (vfOf k) (pcLine e.pc) = some line → (line.line < supvNat ∨ g.supv e = true) →
    lineBad line.data = false → line.bad.getLsbD (e.pc &&& 7).toNat = false → decodeSlot (lineSlot line.data (e.pc &&& 7).toNat) = .ok i →
    s.run (.word k frag) = settleOut (exec i r)) ∧
  (∀ (s : State) f q i, s.dev.shut = false → s.run (.command f q i) = settleOut (exec i { s with cmd := some { fn := f, queue := q } })) ∧
  (∀ (s : State) (x : Input) i, s.dev.shut = false → x.instr = some i →
    s.run (.input x) = settleOut (exec i { s with input := some x, inbox := s.inbox.tail })) ∧
  (∀ (s : State) n i, s.dev.shut = false → s.run (.message n i) = settleOut (exec i { s with pending := s.pending.eraseIdx n })) ∧
  (∀ (s : State) i, s.dev.shut = false → s.run (.event i) = settleOut (exec i s)) ∧
  (∀ (s : State) c, s.dev.shut = true → c.whenShut = false → s.run c = none) ∧
  (∀ t : State, settleOut (.next t) = some (.next t.rest)) ∧ ∀ f, settleOut (.fault f) = none

/-- IADD, ISUB, IMAD, IMUL, IMNMX and IDP4 retire with the results of R406 to R410 (R406, R407, R408, R409, R410, R333). -/
def Obligations.IntegerSumsAndProducts : Prop :=
  (∀ c t a b, Gives (.iadd c t a b) fun x s o i => (x.rd s o 0 a i + x.rd s o 1 b i) % 2 ^ 32) ∧
  (∀ c t a b, Gives (.isub c t a b) fun x s o i => intBits 32 ((x.rd s o 0 a i : Int) - (x.rd s o 1 b i : Int))) ∧
  (∀ c t a b d, Gives (.imad c t a b d) fun x s o i => (x.rd s o 0 a i * x.rd s o 1 b i + x.rd s o 2 d i) % 2 ^ 32) ∧
  (∀ c a b d, Gives (.imadWide c .z32 a b d) fun x s o i =>
    (x.rd s o 0 a i * x.rd s o 1 b i + x.rd s o 2 d i 2 .z64) % 2 ^ 64) ∧
  (∀ c a b d, Gives (.imadWide c .s32 a b d) fun x s o i =>
    intBits 64 (sInt 32 (x.rd s o 0 a i) * sInt 32 (x.rd s o 1 b i) + (x.rd s o 2 d i 2 .s64 : Int))) ∧
  (∀ c t a b, Gives (.imul c t false a b) fun x s o i => x.rd s o 0 a i * x.rd s o 1 b i % 2 ^ 32) ∧
  (∀ c a b, Gives (.imul c .z32 true a b) fun x s o i => x.rd s o 0 a i * x.rd s o 1 b i / 2 ^ 32) ∧
  (∀ c a b, Gives (.imul c .s32 true a b) fun x s o i =>
    intBits 32 (sInt 32 (x.rd s o 0 a i) * sInt 32 (x.rd s o 1 b i) / 2 ^ 32)) ∧
  (∀ c t a b, Gives (.imnmx c t true a b) fun x s o i =>
    intBits 32 (max (sgnInt t (x.rd s o 0 a i)) (sgnInt t (x.rd s o 1 b i)))) ∧
  (∀ c t a b, Gives (.imnmx c t false a b) fun x s o i =>
    intBits 32 (min (sgnInt t (x.rd s o 0 a i)) (sgnInt t (x.rd s o 1 b i)))) ∧
  (∀ c az bz a b d, Gives (.idp4 c az bz a b d) fun x s o i =>
    let p (j : Nat) : Int := byteInt az (x.rd s o 0 a i 1 .b8) j * byteInt bz (x.rd s o 1 b i 1 .b8) j
    intBits 32 ((x.rd s o 2 d i : Int) + p 0 + p 1 + p 2 + p 3))

/-- IADD.CC writes the 33-bit sum: the low word to vd and the carry to p[pco], reading pci first (R406, R333). -/
def Obligations.AddWithCarry : Prop :=
  ∀ c pco a b ci x s o, (Instr.iaddCc c pco a b ci).wf = true → wordOp (.iaddCc c pco a b ci) s = some o → Issues x s o →
    let sum (i : Nat) : Nat := x.rd s o 0 a i + x.rd s o 1 b i + x.rd s o 2 ci i
    ∃ t, exec (.iaddCc c pco a b ci) s = .next t ∧ x.retired t ∧ x.lands o t (fun i => sum i % 2 ^ 32) ∧ x.keeps o s t ∧
      ∀ i, i < 32 → (x.pass o).getLsbD i = true → pco ≠ 7 → t.pAt x.k pco.toNat i = decide (2 ^ 32 ≤ sum i)

/-- SHL, SHR, BFE, BFI, BREV, CLZ, POPC and LOP3 retire with the results of R372, R373, R377, R384, R418, R428 and R449 (R372, R373,
R377, R384, R418, R428, R449). -/
def Obligations.ShiftsFieldsAndCounts : Prop :=
  (∀ c a b, Gives (.shl c a b) fun x s o i => if 32 ≤ x.rd s o 1 b i then 0 else x.rd s o 0 a i * 2 ^ x.rd s o 1 b i % 2 ^ 32) ∧
  (∀ c a b, Gives (.shr c .z32 a b) fun x s o i => if 32 ≤ x.rd s o 1 b i then 0 else x.rd s o 0 a i / 2 ^ x.rd s o 1 b i) ∧
  (∀ c a b, Gives (.shr c .s32 a b) fun x s o i =>
    if 32 ≤ x.rd s o 1 b i then (if (x.rd s o 0 a i).testBit 31 then 0xFFFFFFFF else 0)
    else intBits 32 (sInt 32 (x.rd s o 0 a i) / ((2 ^ x.rd s o 1 b i : Nat) : Int))) ∧
  (∀ c t a b d, Gives (.bfe c t a b d) fun x s o i =>
    let v := BitVec.ofNat 32 (x.rd s o 0 a i)
    let pos := x.rd s o 1 b i % 256
    let len := min (x.rd s o 2 d i % 256) 32
    let bit (j : Nat) : Bool := if pos + j < 32 then v.getLsbD (pos + j) else t == .s32 && v.getLsbD 31
    (maskOf fun j => if j < len then bit j else t == .s32 && len != 0 && bit (len - 1)).toNat) ∧
  (∀ c a b d, Gives (.bfi c a b d) fun x s o i =>
    let pos := x.rd s o 2 d i % 256
    let len := min (x.rd s o 2 d i / 256 % 256) 32
    (maskOf fun m => if pos ≤ m ∧ m < pos + len then (x.rd s o 0 a i).testBit (m - pos) else (x.rd s o 1 b i).testBit m).toNat) ∧
  (∀ c a, Gives (.brev c a) fun x s o i => (maskOf fun j => (x.rd s o 0 a i).testBit (31 - j)).toNat) ∧
  (∀ c a, Gives (.clz c a) fun x s o i => clz32 (x.rd s o 0 a i)) ∧
  (∀ v : BitVec 32, clz32 v.toNat ≤ 32 ∧ (∀ j, 31 < j + clz32 v.toNat → v.getLsbD j = false) ∧
    (clz32 v.toNat < 32 → v.getLsbD (31 - clz32 v.toNat) = true)) ∧
  (∀ c a, Gives (.popc c a) fun x s o i => ((List.range 32).filter fun j => (x.rd s o 0 a i).testBit j).length) ∧
  (∀ c lut a b d, Gives (.lop3 c lut a b d) fun x s o i =>
    (maskOf fun m => lut.getLsbD (((x.rd s o 0 a i).testBit m).toNat + 2 * ((x.rd s o 1 b i).testBit m).toNat +
      4 * ((x.rd s o 2 d i).testBit m).toNat)).toNat)

/-- MOV, SEL, LEA, PRMT and ISETP retire with the results of R411, R417, R425, R431 and R445; NOP changes nothing (R411, R417, R425,
R427, R431, R445). -/
def Obligations.MovesAndSelections : Prop :=
  (∀ c t a, Gives (.mov c t a) fun x s o i => x.rd s o 0 a i t.width .z64) ∧
  (∀ c wide neg pc a b, Gives (.sel c wide neg pc a b) fun x s o i =>
    if (x.g.pred pc.toNat i != neg) = true then x.rd s o 1 a i (if wide then 2 else 1) .z64
    else x.rd s o 2 b i (if wide then 2 else 1) .z64) ∧
  (∀ c a b n, Gives (.lea c .b32 a b n) fun x s o i =>
    (x.rd s o 0 a i 1 .z64 + x.rd s o 1 b i * 2 ^ (x.rd s o 2 n i % 32)) % 2 ^ 32) ∧
  (∀ c a b n, Gives (.lea c .z64 a b n) fun x s o i =>
    (x.rd s o 0 a i 2 .z64 + x.rd s o 1 b i * 2 ^ (x.rd s o 2 n i % 32)) % 2 ^ 64) ∧
  (∀ c a b n, Gives (.lea c .s64 a b n) fun x s o i =>
    intBits 64 ((x.rd s o 0 a i 2 .z64 : Int) + sInt 32 (x.rd s o 1 b i) * ((2 ^ (x.rd s o 2 n i % 32) : Nat) : Int))) ∧
  (∀ c a b d, Gives (.prmt c a b d) fun x s o i =>
    let byte (j : Nat) : Nat := prmtByte (x.rd s o 0 a i + 2 ^ 32 * x.rd s o 1 b i) (x.rd s o 2 d i / 2 ^ (8 * j) % 256)
    byte 0 + 2 ^ 8 * byte 1 + 2 ^ 16 * byte 2 + 2 ^ 24 * byte 3) ∧
  (∀ c pd t cmp a b, Gives (.isetp c pd t cmp a b) fun x s o i =>
    if cmpInt cmp (sgnInt t (x.rd s o 0 a i)) (sgnInt t (x.rd s o 1 b i)) then 1 else 0) ∧
  Gives .nop fun _ _ _ _ => 0

/-- SHFL gives each participant the value of its source lane, or its own or 0 where that lane is no participant (R448). -/
def Obligations.ShufflesExchangeAmongParticipants : Prop :=
  ∀ (m : ShflMode) c z wc pd a b x s o,
    let i : Instr := match m with
      | .idx => .shflIdx c z wc pd a b
      | .up => .shflUp c z wc pd a b
      | .down => .shflDown c z wc pd a b
      | .xor => .shflXor c z wc pd a b
    i.wf = true → wordOp i s = some o → Issues x s o →
    let w := 32 / 2 ^ wc.toNat
    let source (l : Nat) : Option Nat :=
      let base := l - l % w
      let d := x.rd s o 1 b l
      let j : Option Nat := match m with
        | .idx => some (base + d % w)
        | .up => if d ≤ l - base then some (l - d) else none
        | .down => if l + d < base + w then some (l + d) else none
        | .xor => some (l ^^^ (d % w))
      j.filter fun j => (x.pass o).getLsbD j
    ∃ t, exec i s = .next t ∧ x.retired t ∧
      x.lands o t (fun l => match source l with | some j => x.rd s o 0 a j | none => if z then 0 else x.rd s o 0 a l) ∧
      x.keeps o s t ∧
      ∀ p l, pd = some p → p ≠ 7 → l < 32 → (x.pass o).getLsbD l = true → t.pAt x.k p.toNat l = (source l).isSome

/-- VOTE, BALLOT, MATCH and ELECT retire with the results of R391, R419 and R466 (R391, R419, R466). -/
def Obligations.VotesMatchesAndElections : Prop :=
  let m (x : Site) (o : Op) (neg : Bool) (pa : BitVec 3) : BitVec 32 :=
    maskOf fun i => (x.pass o).getLsbD i && (x.g.pred pa.toNat i != neg)
  let same (x : Site) (s : State) (o : Op) (wide : Bool) (a : Src) (i : Nat) : BitVec 32 :=
    maskOf fun j => (x.pass o).getLsbD j && x.rd s o 0 a j (if wide then 2 else 1) .z64 == x.rd s o 0 a i (if wide then 2 else 1) .z64
  (∀ c pd neg pa, Gives (.voteAll c pd neg pa) fun x _ o _ => if m x o neg pa = x.pass o then 1 else 0) ∧
  (∀ c pd neg pa, Gives (.voteAny c pd neg pa) fun x _ o _ => if m x o neg pa ≠ 0 then 1 else 0) ∧
  (∀ c pd neg pa, Gives (.voteUni c pd neg pa) fun x _ o _ => if m x o neg pa = 0 ∨ m x o neg pa = x.pass o then 1 else 0) ∧
  (∀ c neg pa, Gives (.ballot c neg pa) fun x _ o _ => (m x o neg pa).toNat) ∧
  (∀ c wide a, Gives (.matchAny c wide a) fun x s o i => (same x s o wide a i).toNat) ∧
  (∀ c wide pd a x s o, (Instr.matchAll c wide pd a).wf = true → wordOp (.matchAll c wide pd a) s = some o → Issues x s o →
    ∃ t e, (e = true ↔ ∀ i j, i < 32 → j < 32 → (x.pass o).getLsbD i = true → (x.pass o).getLsbD j = true →
        x.rd s o 0 a i (if wide then 2 else 1) .z64 = x.rd s o 0 a j (if wide then 2 else 1) .z64) ∧
      exec (.matchAll c wide pd a) s = .next t ∧ x.retired t ∧
      x.lands o t (fun _ => if e then (x.pass o).toNat else 0) ∧ x.keeps o s t ∧
      ∀ i, i < 32 → (x.pass o).getLsbD i = true → pd ≠ 7 → t.pAt x.k pd.toNat i = e) ∧
  (∀ g pd, Gives (.elect g (.p pd)) fun x _ o i => if i = lowLane (x.pass o) then 1 else 0) ∧
  (∀ g sd, Gives (.elect g (.s sd)) fun x _ o _ => lowLane (x.pass o))

/-- GRED retires with the reduction of its participants' values (R404, chapter 17, GRED). -/
def Obligations.ReductionsOverAGroup : Prop :=
  let vals (x : Site) (s : State) (o : Op) (a : Src) : List Nat := (lanesOf (x.pass o)).map fun i => x.rd s o 0 a i
  (∀ c op a, Gives (.gred c op a) fun x s o _ =>
    gred op ((List.range 32).map fun i => if (x.pass o).getLsbD i then some (x.rd s o 0 a i) else none)) ∧
  (∀ c a, Gives (.gred c .addS a) fun x s o _ => (vals x s o a).sum % 2 ^ 32) ∧
  (∀ c a, Gives (.gred c .addZ a) fun x s o _ => (vals x s o a).sum % 2 ^ 32) ∧
  (∀ c a, Gives (.gred c .and a) fun x s o _ => (maskOf fun m => (vals x s o a).all fun v => v.testBit m).toNat) ∧
  (∀ c a, Gives (.gred c .or a) fun x s o _ => (maskOf fun m => (vals x s o a).any fun v => v.testBit m).toNat)

/-- FADD, FSUB, FMUL, FFMA, FMNMX, FSETP, FDOT2, SFN, HADD2, HMUL2, HFMA2 and CVT write rounded results and set FLG; what the rules
leave open here is the model's choice, log 77 (R180, R181, R182, R188, R394, R395, R396, R399, R400, R401, R405, R446). -/
def Obligations.FloatingPointWordsRetire : Prop :=
  (∀ i x s o (f : Nat → Fp.Res), (∀ l, floatResult i x s o l = some (f l)) → wordOp i s = some o → Issues x s o →
    (∀ l, (x.pass o).getLsbD l = true → (f l).flags &&& x.g.trapsOn = 0) →
    ∃ t, exec i s = .next t ∧ x.retired t ∧ x.lands o t (fun l => (f l).bits) ∧ x.only o s t ∧
      ∀ g, t.group x.k = some g → g.fmode = x.g.fmode ||| ((flagsOf (x.pass o) f).setWidth 32 <<< 8) ∧
        g.status = x.g.status ∧ g.xlim = x.g.xlim ∧ g.frame = x.g.frame) ∧
  (∀ c t a m, Gives (.fclass c t a m) fun x s o l =>
    let b := classBit (Fp.classOf (ftyFmt t) (x.rd s o 0 a l t.width (ftyOTy t)))
    if (x.rd s o 1 m l).testBit b then 2 ^ b else 0)

/-- Lanes that raise an exception enabled in FMODE.TE trap with the lowest cause; the others complete (R188). -/
def Obligations.FloatingPointTrapsByLane : Prop :=
  ∀ i x s o (f : Nat → Fp.Res), (∀ l, floatResult i x s o l = some (f l)) → wordOp i s = some o → Issues x s o → x.traps s →
    let bad := maskOf fun l => (x.pass o).getLsbD l && (f l).flags &&& x.g.trapsOn != 0
    let ok := x.pass o &&& ~~~bad
    bad ≠ 0 →
    ∃ t, exec i s = .next t ∧
      x.trapped t bad (fpCause (flagsOf bad f &&& x.g.trapsOn)) 0 ((flagsOf bad f).setWidth 32) ∧
      StandsAt t x.k (x.e.mask &&& ~~~bad) (nextPc x.e.pc) x.e.prio ∧ x.outside s t ∧
      (∀ d, o.use.dst = some d → ∀ l, l < 32 → ok.getLsbD l = true →
        t.landed x d o.use.dw l = takes d o.use.dw (f l).bits (f (lowLane ok)).bits) ∧
      (∀ n l, x.g.live.getLsbD l = true → ok.getLsbD l = false → t.vAt x.k n l = s.vAt x.k n l) ∧
      ∀ g, t.group x.k = some g → g.fmode = x.g.fmode ||| ((flagsOf ok f).setWidth 32 <<< 8)

/-- NaN inputs and the invalid sums and products give the canonical NaN; FMNMX and FSETP treat NaN as R184 says (R184). -/
def Obligations.NanAndInvalidResults : Prop :=
  let fmts := [Fp.f16, Fp.bf16, Fp.f32, Fp.f64]
  let isNan (f : Fp.Fmt) (v : Nat) : Bool := (Fp.decode f v).isNan
  let isSig (f : Fp.Fmt) (v : Nat) : Bool := (Fp.decode f v).isSig
  (∀ f ∈ fmts, ∀ md ftz a b, (isNan f a = true ∨ isNan f b = true) →
    ∀ r ∈ [Fp.fadd f md ftz a b, Fp.fsub f md ftz a b, Fp.fmul f md ftz a b],
      r.bits = f.nanBits ∧ r.flags = if isSig f a || isSig f b then Fp.inv else 0) ∧
  (∀ f ∈ fmts, ∀ md ftz n, Fp.fadd f md ftz (f.infBits n) (f.infBits (!n)) = { bits := f.nanBits, flags := Fp.inv } ∧
    Fp.fsub f md ftz (f.infBits n) (f.infBits n) = { bits := f.nanBits, flags := Fp.inv }) ∧
  (∀ f ∈ fmts, ∀ md ftz n m c, Fp.fmul f md ftz (f.infBits n) (f.zeroBits m) = { bits := f.nanBits, flags := Fp.inv } ∧
    Fp.fmul f md ftz (f.zeroBits m) (f.infBits n) = { bits := f.nanBits, flags := Fp.inv } ∧
    Fp.ffma f md ftz (f.infBits n) (f.zeroBits m) c = { bits := f.nanBits, flags := Fp.inv }) ∧
  (∀ f ∈ fmts, ∀ md ftz a b c, (isNan f a = true ∨ isNan f b = true ∨ isNan f c = true) →
    (Fp.ffma f md ftz a b c).bits = f.nanBits ∧
      ((isSig f a || isSig f b || isSig f c) = true → (Fp.ffma f md ftz a b c).flags = Fp.inv)) ∧
  (∀ fn ftz a, isNan Fp.f32 a = true → Fp.sfn fn ftz a = { bits := Fp.f32.nanBits, flags := if isSig Fp.f32 a then Fp.inv else 0 }) ∧
  (∀ f ∈ fmts, ∀ mx a b, isNan f a = true →
    (Fp.fmnmx f false mx a b).bits = (if isNan f b then f.nanBits else b) ∧
    (Fp.fmnmx f false mx b a).bits = (if isNan f b then f.nanBits else b)) ∧
  (∀ f ∈ fmts, ∀ ftz cmp a b, (isNan f a = true ∨ isNan f b = true) →
    Fp.fcmp f ftz cmp a b = (cmp == .ne, if cmp == .eq || cmp == .ne then (if isSig f a || isSig f b then Fp.inv else 0) else Fp.inv))

/-- The special cases of SFN give the results and exceptions of R185 (R185). -/
def Obligations.SpecialFunctionCases : Prop :=
  let inf (n : Bool) : Nat := Fp.f32.infBits n
  let zero (n : Bool) : Nat := Fp.f32.zeroBits n
  let nan : Fp.Res := { bits := Fp.f32.nanBits, flags := Fp.inv }
  (∀ z n, Fp.sfn .rcp z (zero n) = { bits := inf n, flags := Fp.dz } ∧ Fp.sfn .rcp z (inf n) = { bits := zero n } ∧
    Fp.sfn .rsq z (zero n) = { bits := inf n, flags := Fp.dz } ∧ Fp.sfn .log2 z (zero n) = { bits := inf true, flags := Fp.dz } ∧
    Fp.sfn .sin z (inf n) = nan ∧ Fp.sfn .cos z (inf n) = nan ∧
    Fp.sfn .tanh z (inf n) = { bits := if n then 0xBF800000 else 0x3F800000 }) ∧
  (∀ z, Fp.sfn .rsq z (inf false) = { bits := zero false } ∧ Fp.sfn .sqrt z (zero true) = { bits := zero true } ∧
    Fp.sfn .sqrt z (inf false) = { bits := inf false } ∧ Fp.sfn .exp2 z (inf true) = { bits := zero false } ∧
    Fp.sfn .exp2 z (inf false) = { bits := inf false } ∧ Fp.sfn .log2 z (inf false) = { bits := inf false }) ∧
  ∀ v, v / Fp.f32.signBit % 2 = 1 → (Fp.decode Fp.f32 v).isNan = false → (Fp.decodeIn Fp.f32 false v).isZero = false →
    Fp.sfn .rsq false v = nan ∧ Fp.sfn .sqrt false v = nan ∧ Fp.sfn .log2 false v = nan

/-- Conversions between integer types extend or saturate without exceptions; floating values out of range saturate with FP_INVALID,
to 8 bits with FP_INEXACT (R186). -/
def Obligations.ConversionsSaturate : Prop :=
  let ints : List NumTy := [.s8, .z8, .s16, .z16, .s32, .z32]
  let floats : List NumTy := [.f16, .bf16, .f32, .f64]
  (∀ st ∈ ints, ∀ dt ∈ ints, dt ≠ st → ∀ r rm z v, (convert dt st r rm z v).flags = 0 ∧
    (numBits dt ≤ numBits st → numInt dt (convert dt st r rm z v).bits = max (numLo dt) (min (numInt st v) (numHi dt))) ∧
    (numBits st < numBits dt → (convert dt st r rm z v).bits % 2 ^ numBits dt = intBits (numBits dt) (numInt st v))) ∧
  (∀ st ∈ floats, ∀ f, numFmt st = some f → ∀ dt ∈ ints, ∀ r rm z,
    (∀ v, v < 2 ^ numBits st → (Fp.decode f v).isNan = true → convert dt st r rm z v = { bits := 0, flags := Fp.inv }) ∧
    ∀ n, (convert dt st r rm z (f.infBits n)).bits = intImage dt (if n then numLo dt else numHi dt) ∧
      (convert dt st r rm z (f.infBits n)).flags = if numBits dt = 8 then Fp.inx else Fp.inv) ∧
  (∀ st ∈ floats, ∀ f, numFmt st = some f → ∀ dt ∈ floats, ∀ h, numFmt dt = some h → ∀ r rm z v, v < 2 ^ numBits st →
    (Fp.decode f v).isNan = true →
    convert dt st r rm z v = { bits := h.nanBits, flags := if (Fp.decode f v).isSig then Fp.inv else 0 })

/-- CBDEC maps codes to the slot's entries, CBENC values to codes; a slot above 15 raises INDEX_BOUNDS (R178, R381, R382). -/
def Obligations.CodebookWords : Prop :=
  (∀ c a sk x s o, wordOp (.cbdec c a sk) s = some o → Issues x s o → x.pass o ≠ 0 →
    let k := x.uni s o (srcIn 1 sk)
    (k ≤ 15 → s.bookPending x.k k = false →
      ∃ t, exec (.cbdec c a sk) s = .next t ∧ x.retired t ∧ x.keeps o s t ∧
        x.lands o t fun l => (List.range 8).foldl (fun r j =>
          r + (Store.rd (s.core x.g.core).books (k * 16 + x.rd s o 0 a l / 16 ^ j % 16)).toNat * 2 ^ (16 * j)) 0) ∧
    (15 < k → x.traps s → ∃ t, exec (.cbdec c a sk) s = .next t ∧ x.trapped t (x.pass o) 0x11 0 0)) ∧
  (∀ c bf a sk x s o, wordOp (.cbenc c bf a sk) s = some o → Issues x s o → x.pass o ≠ 0 →
    let k := x.uni s o (srcIn 1 sk)
    let book := s.book x.g.core k
    let code (f : Fp.Fmt) (v : Nat) : Nat × Fp.Flags := Fp.encodeCode book (Fp.decode f v)
    let r (l : Nat) : Fp.Res :=
      let v := x.rd s o 0 a l 1 (if bf then .bf16 else .f32)
      if bf then
        { bits := (code Fp.bf16 (elem16 v 0)).1 + 16 * (code Fp.bf16 (elem16 v 1)).1,
          flags := (code Fp.bf16 (elem16 v 0)).2 ||| (code Fp.bf16 (elem16 v 1)).2 }
      else { bits := (code Fp.f32 v).1, flags := (code Fp.f32 v).2 }
    (k ≤ 15 → s.bookPending x.k k = false → (∀ l, (x.pass o).getLsbD l = true → (r l).flags &&& x.g.trapsOn = 0) →
      ∃ t, exec (.cbenc c bf a sk) s = .next t ∧ x.retired t ∧ x.only o s t ∧ x.lands o t fun l => (r l).bits) ∧
    (15 < k → x.traps s → ∃ t, exec (.cbenc c bf a sk) s = .next t ∧ x.trapped t (x.pass o) 0x11 0 0))

/-- BRA, BRX, CALL and RET send each lane whose guard passes to its target; the others fall through; CALL writes its link (R326,
R376, R378, R379, R438, chapter 14, guard and AUX). -/
def Obligations.BranchesMoveTheirLanes : Prop :=
  (∀ i x s o (j : Nat → Jump), (∀ l, branchOf i x s o l = some (j l)) → wordOp i s = some o → Issues x s o →
    (∀ l, (x.pass o).getLsbD l = true → (j l).bad = false) →
    (x.g.supv x.e = true → ∀ l m, (x.pass o).getLsbD l = true → (x.pass o).getLsbD m = true → (j l).to_ = (j m).to_ ∧ (j l).prio = (j m).prio) →
    ∃ t, exec i s = .next t ∧
      (∀ l, l < 32 → (x.pass o).getLsbD l = true → StandsAt t x.k (1#32 <<< l) (j l).to_ (j l).prio) ∧
      StandsAt t x.k (x.e.mask &&& ~~~x.pass o) (nextPc x.e.pc) x.e.prio ∧ x.keeps o s t ∧
      ∀ g d a p, i = .call g d a p → x.lands o t fun _ =>
        (nextPc x.e.pc).toNat % 8 + 8 * x.e.prio.toNat + 2 ^ 11 * ((nextPc x.e.pc).toNat / 64)) ∧
  ∀ pc : VAddr, ∀ a : BitVec 22, (branchTarget pc a).toNat =
    ((pc.toNat / 64 + ((a.extractLsb' 3 19).signExtend 51).toNat) % 2 ^ 51) * 64 + (a.extractLsb' 0 3).toNat

/-- A taken branch to a bad slot, a nonzero [5:3], a clear TGT or a supervisor page raises BAD_TARGET at the branch (R322). -/
def Obligations.BadTargetsTrap : Prop :=
  (∀ i x s o (j : Nat → Jump), (∀ l, branchOf i x s o l = some (j l)) → wordOp i s = some o → Issues x s o → x.traps s →
    let bad := maskOf fun l => (x.pass o).getLsbD l && (j l).bad
    bad ≠ 0 →
    ∃ t, exec i s = .next t ∧ x.trapped t bad 0x03 (j (lowLane bad)).to_ 0 ∧
      (∀ l, l < 32 → (x.pass o &&& ~~~bad).getLsbD l = true → StandsAt t x.k (1#32 <<< l) (j l).to_ (j l).prio) ∧
      StandsAt t x.k (x.e.mask &&& ~~~x.pass o) (nextPc x.e.pc) x.e.prio ∧ x.outside s t) ∧
  ∀ (s : State) (g : Group) (k : Nat) (pc : VAddr), s.badTarget g k false true pc = true ↔
    4 < pc.toNat % 8 ∨ pc.toNat / 8 % 8 ≠ 0 ∨ supvNat ≤ pc.toNat ∨
      ∃ l, s.peekLine g.core (vfOf k) (pcLine pc) = some l ∧ lineTgt l (pc.toNat % 8) = false

/-- CONV waits until every lane of the group has arrived, then releases all at the next PC; EXIT removes its lanes and may end the
group (R46, R47, R55, R392). -/
def Obligations.ConvAndExitShapeTheFrontier : Prop :=
  (∀ x s o, wordOp .conv s = some o → Issues x s o → x.tidy →
    ((∀ f ∈ x.g.entries, f ≠ x.e → f.st = .conv) → ∀ f ∈ x.g.entries, f ≠ x.e → f.pc = x.e.pc) →
    ∃ t g, exec .conv s = .next t ∧ t.group x.k = some g ∧ x.outside s t ∧ x.registers o s t ∧
      ((∃ f ∈ x.g.entries, f ≠ x.e ∧ f.st ≠ .conv) → ∀ i, x.e.mask.getLsbD i = true →
        ∃ f ∈ g.entries, f.mask.getLsbD i = true ∧ f.st = .conv ∧ f.pc = x.e.pc ∧ f.prio = x.e.prio) ∧
      ((∀ f ∈ x.g.entries, f ≠ x.e → f.st = .conv ∧ f.pc = x.e.pc) → ∃ r, g.entries = [r] ∧ r.st = .ready ∧ r.pc = nextPc x.e.pc ∧
        r.mask = x.g.live ∧ (∀ f ∈ x.g.entries, f.prio ≤ r.prio ∧ r.frag ≤ f.frag) ∧
        (∃ f ∈ x.g.entries, f.prio = r.prio) ∧ ∃ f ∈ x.g.entries, f.frag = r.frag)) ∧
  (∀ x s o, wordOp .conv s = some o → Issues x s o → x.traps s → s.openAccs x.k x.g.live = [] →
    (∀ f ∈ x.g.entries, f ≠ x.e → f.st = .conv) → (∃ f ∈ x.g.entries, f ≠ x.e ∧ f.pc ≠ x.e.pc) →
    ∃ t g, exec .conv s = .next t ∧ t.group x.k = some g ∧ g.frame.cause = 0x01 ∧ g.frame.busy = true ∧
      ∃ f ∈ x.g.entries, g.frame.pc = f.pc) ∧
  (∀ gd x s o, wordOp (.exit gd) s = some o → Issues x s o → x.tidy →
    (x.pass o = x.e.mask → (∀ f ∈ x.g.entries, f ≠ x.e → f.st = .conv) → ∀ f ∈ x.g.entries, ∀ h ∈ x.g.entries, f ≠ x.e → h ≠ x.e → f.pc = h.pc) →
    (x.g.live &&& ~~~x.pass o = 0 → ∀ kv ∈ (x.g.replayView x.e).q, kv.2.lent = false) →
    ∃ t g, exec (.exit gd) s = .next t ∧ t.group x.k = some g ∧
      (∀ f ∈ g.entries, f.mask &&& x.pass o = 0) ∧
      StandsAt t x.k (x.e.mask &&& ~~~x.pass o) (nextPc x.e.pc) x.e.prio ∧
      (x.g.live &&& ~~~x.pass o = 0 → g.res = .ended ∧ g.entries = []) ∧
      (x.g.live &&& ~~~x.pass o ≠ 0 → x.keeps o s t))

/-- TRAP, BKPT, a word of the wrong mode or over the budget save their place in the trap frame and enter the supervisor routine
(R249, R374, R462, R31, R251). -/
def Obligations.TrapsSaveAndVector : Prop :=
  (∀ gd sv x s o, wordOp (.trap gd sv) s = some o → Issues x s o → x.traps s → x.pass o ≠ 0 →
    ∃ t, exec (.trap gd sv) s = .next t ∧ x.trapped t (x.pass o) 0x30 0 (BitVec.ofNat 32 (x.uni s o (srcIn 0 sv))) ∧
      StandsAt t x.k (x.e.mask &&& ~~~x.pass o) (nextPc x.e.pc) x.e.prio ∧ x.only o s t) ∧
  (∀ gd x s o, wordOp (.bkpt gd) s = some o → Issues x s o → x.traps s → x.pass o ≠ 0 →
    ∃ t, exec (.bkpt gd) s = .next t ∧ x.trapped t (x.pass o) 0x31 0 0 ∧
      StandsAt t x.k (x.e.mask &&& ~~~x.pass o) (nextPc x.e.pc) x.e.prio ∧ x.only o s t) ∧
  (∀ i x s o, wordOp i s = some o → Arrives x s → x.traps s →
    (o.use.overBudget x.g.bud = true ∨ o.use.mode = some true) →
    ∃ t, exec i s = .next t ∧ x.trapped t x.e.mask 0x01 0 0 ∧ x.outside s t) ∧
  ∀ i ∈ [Instr.tret, .tretSkip], ∀ s o, wordOp i s = some o → o.use.mode = some true

/-- A trap of the supervisor routine kills the launch with the nested cause (R250). -/
def Obligations.TrapsInSupervisorModeKill : Prop :=
  let killed (x : Site) (t : State) (cause : BitVec 8) : Prop :=
    (t.launch (launchOf x.k)).map Launch.st = some (.killed cause false) ∧ ∀ k, launchOf k = launchOf x.k → t.group k = none
  let inside (x : Site) (s : State) : Prop :=
    x.g.supv x.e = true ∧ x.l.dbg = false ∧ x.tidy ∧ s.openAccs x.k x.e.mask = []
  (∀ i x s o, wordOp i s = some o → Arrives x s → inside x s →
    (o.use.overBudget x.g.bud = true ∨ o.use.mode = some false) → ∃ t, exec i s = .next t ∧ killed x t 0x01) ∧
  (∀ i x s o, wordOp i s = some o → Arrives x s → inside x s → o.use.overBudget x.g.bud = false →
    (o.use.mode = none ∨ o.use.mode = some true) → s.booksOut x.k x.e.mask = false → o.use.awaits x.g (x.pass o) = none →
    o.use.misses x.g (x.pass o) = [] → (s.operandStage o.use (x.ctx s o) x.l.desc.deadtrap).2 = [] →
    x.pass o ≠ 0 → x.pass o ≠ x.e.mask → ∃ t, exec i s = .next t ∧ killed x t 0x12) ∧
  (∀ gd sv x s o, wordOp (.trap gd sv) s = some o → Issues x s o → inside x s → x.pass o ≠ 0 →
    ∃ t, exec (.trap gd sv) s = .next t ∧ killed x t 0x30) ∧
  (∀ gd x s o, wordOp (.bkpt gd) s = some o → Issues x s o → inside x s → x.pass o ≠ 0 →
    ∃ t, exec (.bkpt gd) s = .next t ∧ killed x t 0x31) ∧
  ∀ i s o, wordOp i s = some o → (match i with
    | .exit _ | .migrateAddr _ _ | .migrateHome | .borX .. | .borS .. | .borA .. | .borO .. | .borXTry .. | .borSTry .. | .borATry ..
    | .borOTry .. | .split .. | .join .. => True
    | _ => False) → o.use.mode = some false

/-- TRET resumes at RPC, TRET.SKIP past a precise trap, clear BUSY and leave the rest of the frame; a bad PC kills the launch (R251,
R464). -/
def Obligations.ReturnsFromTheRoutine : Prop :=
  ∀ (skip : Bool) x s o, let i : Instr := if skip = true then .tretSkip else .tret
    wordOp i s = some o → Issues x s o →
    let f := x.g.frame
    let next : VAddr := if (skip && !f.impr) = true then
        (if f.pc.toNat % 8 < 4 then f.pc + 1 else BitVec.ofNat 57 ((f.pc.toNat / 64 + 1) * 64)) else f.rpc
    ((4 < next.toNat % 8 ∨ next.toNat / 8 % 8 ≠ 0 ∨ supvNat ≤ next.toNat) →
      ∃ t, exec i s = .next t ∧ (t.launch (launchOf x.k)).map Launch.st = some (.killed 0x03 false)) ∧
    (¬(4 < next.toNat % 8 ∨ next.toNat / 8 % 8 ≠ 0 ∨ supvNat ≤ next.toNat) →
      ∃ t g, exec i s = .next t ∧ StandsAt t x.k x.e.mask next f.prio ∧ t.group x.k = some g ∧
        g.frame = { f with busy := false } ∧ x.only o s t)

/-- YIELD moves every lane on, and swaps its group out where the section's ready list holds another; what the rules leave open here
is the model's choice, log 74 (R469, R74, chapter 19, YIELD). -/
def Obligations.YieldGivesWay : Prop :=
  ∀ gd x s o, wordOp (.yield gd) s = some o → Issues x s o →
    let waits := ∃ kg ∈ s.groups, kg.2.core = x.g.core ∧ kg.2.sect = x.g.sect ∧ kg.2.queued.isSome = true
    ∃ t, exec (.yield gd) s = .next t ∧
      ((x.pass o = 0 ∨ ¬waits) → x.retired t ∧ x.keeps o s t) ∧
      (x.pass o ≠ 0 → x.g.res ≠ .ended → waits → x.g.arrivals = [] → x.g.move = none → x.g.cfault = false →
        (∀ pc ∈ nextPc x.e.pc :: x.g.entries.map Entry.pc, (s.wordAt x.g x.k pc).any readsLatch = false) →
        x.retired t ∧ ∃ g, t.group x.k = some g ∧ g.active = false ∧ g.queued.isSome = true)

/-- LD from local memory writes the extended bytes at base + offset + immediate; CBLD loads a codebook slot; PREF changes nothing
there (R23, R414, R364, R383, R430, chapter 17, LD). -/
def Obligations.LocalLoadsReadTheirBytes : Prop :=
  (∀ c t d m x s o sp, wordOp (.ld c t d m) s = some o → Issues x s o → LSpace.ofKind (x.region s o m).kind = some sp →
    x.reaches s o m .load (ldBytes t) →
    let got (i : Nat) : Nat := ldImage t (s.localLoad x.k i sp (x.ea s o m i).toNat (ldBytes t))
    ∃ r, exec (.ld c t d m) s = .next r ∧ x.retired r ∧ x.keeps o s r ∧ (sp ≠ .dsp → x.lands o r got) ∧
      (sp = .dsp → x.pass o ≠ 0 → x.comes s o r d (ldWidth t) got)) ∧
  (∀ c m sk x s o sp, wordOp (.cbld c m sk) s = some o → Issues x s o → LSpace.ofKind (x.region s o m).kind = some sp →
    x.reaches s o m .load 32 → x.pass o ≠ 0 → x.g.res ≠ .guest →
    let k := x.uni s o (srcIn 1 sk)
    k ≤ 15 → s.bookPending x.k k = false →
    let got : Nat := s.localLoad x.k (lowLane (x.pass o)) sp (x.ea s o m (lowLane (x.pass o))).toNat 32
    ∃ t, exec (.cbld c m sk) s = .next t ∧ x.retired t ∧ x.registers o s t ∧ (∀ a, t.byteAt a = s.byteAt a) ∧ SameLocals s t ∧
      (sp ≠ .dsp → ∀ n, Store.rd (t.core x.g.core).books n = if 16 * k ≤ n ∧ n < 16 * k + 16 then
        BitVec.ofNat 16 (got / 2 ^ (16 * (n - 16 * k))) else Store.rd (s.core x.g.core).books n) ∧
      (sp = .dsp → (∀ c, (t.core c).books = (s.core c).books) ∧ ∃ id a, { instr := .loadComplete id } ∈ t.pending ∧
        SMap.find t.accs id = some a ∧ a.st = .data ∧ a.book = some (k, BitVec.ofNat 256 got))) ∧
  (∀ c m x s o, (LSpace.ofKind (x.region s o m).kind).isSome = true → x.reaches s o m .load 1 →
    ∀ i ∈ [Instr.prefL1 c m, .prefL2 c m], wordOp i s = some o → Issues x s o →
      ∃ t, exec i s = .next t ∧ x.retired t ∧ x.keeps o s t) ∧
  ∀ v, ldImage .z8 v = v ∧ ldImage .z16 v = v ∧ ldImage .b32 v = v ∧ ldImage .b64 v = v ∧ ldImage .b128 v = v ∧
    ldImage .s8 v = intBits 32 (sInt 8 v) ∧ ldImage .s16 v = intBits 32 (sInt 16 v)

/-- ST to local memory writes the low bytes of vs at base + offset + immediate, lanes in ascending order, and nothing else (R457).
-/
def Obligations.LocalStoresWriteTheirBytes : Prop :=
  ∀ c t m b x s o sp, wordOp (.st c t m b) s = some o → Issues x s o → LSpace.ofKind (x.region s o m).kind = some sp →
    x.reaches s o m .store (stBytes t) →
    let ea (i : Nat) : Nat := (x.ea s o m i).toNat
    let stored := s.localRun ea
      (fun s i a => (s.localStore x.k i sp a (stBytes t) (x.rd s o 1 b i (stWidth t)), 0)) (lanesOf (x.pass o))
    ∃ r, exec (.st c t m b) s = .next r ∧ x.retired r ∧ x.registers o s r ∧ x.beside s r ∧ SameLocals stored.1 r ∧
      ∀ u a, (∀ i j, (x.pass o).getLsbD i = true → j < stBytes t → s.localAt x.k i sp (ea i + j) ≠ (u, a)) →
        r.unitRd u a = s.unitRd u a

/-- ATOM, RED and CAS in local memory replace old by New(old, b) lane by lane in ascending order and give each lane the old value
(R368, R369, R380). -/
def Obligations.LocalAtomicsActInLaneOrder : Prop :=
  (∀ i x s o a sp, atomicOf i = some a → wordOp i s = some o → Issues x s o → LSpace.ofKind (x.region s o a.mem).kind = some sp →
    x.reaches s o a.mem .atomic (if a.wide then 8 else 4) →
    (s.isDet x.k = true → a.op ≠ .addf ∧ (x.region s o a.mem).kind ≠ 10 ∧ (x.region s o a.mem).kind ≠ 11) →
    let w := if a.wide then 2 else 1
    let ty : OTy := if a.op = .addf then .f32 else if a.wide then .z64 else .i32
    let b (l : Nat) : Nat := x.rd s o 1 a.b l w ty
    let n (l : Nat) : Nat := match a.nv with | some nv => x.rd s o 2 nv l w ty | none => 0
    let done := s.localRun (fun l => (x.ea s o a.mem l).toNat) (fun s l ad => s.localAtomic x.k l sp ad a.op a.wide (b l) (n l))
      (lanesOf (x.pass o))
    ∃ t, exec i s = .next t ∧ x.retired t ∧ x.registers o s t ∧ x.beside s t ∧ SameLocals done.1 t ∧
      (sp ≠ .dsp ∨ a.dst = none → x.lands o t done.2) ∧
      (sp = .dsp → a.dst.isSome = true → x.pass o ≠ 0 → x.comes s o t a.dst w done.2) ∧
      ∀ g, t.group x.k = some g → g.status = if x.pass o ≠ 0 ∧ a.sc = .system ∧ (s.vf (vfOf x.k)).clamp = true
        then x.g.status ||| 1 else x.g.status) ∧
  (∀ old b n, newVal .exch false old b n = b ∧ newVal .cas false old b n = (if old = b then n else old) ∧
    newVal .add false old b n = (old + b) % 2 ^ 32 ∧ newVal .add true old b n = (old + b) % 2 ^ 64 ∧
    newVal .and true old b n = old &&& b ∧ newVal .or true old b n = old ||| b ∧ newVal .xor true old b n = old ^^^ b ∧
    (sInt 32 (newVal .minS false old b n) = min (sInt 32 old) (sInt 32 b)) ∧
    (sInt 32 (newVal .maxS false old b n) = max (sInt 32 old) (sInt 32 b)) ∧
    (newVal .minZ false old b n % 2 ^ 32 = min (old % 2 ^ 32) (b % 2 ^ 32)) ∧
    (newVal .maxZ false old b n % 2 ^ 32 = max (old % 2 ^ 32) (b % 2 ^ 32)) ∧
    newVal .addf false old b n = (Fp.fadd Fp.f32 .rn false old b).bits) ∧
  ∀ (s : State) k l sp a op wide b n,
    (s.localAtomic k l sp a op wide b n).2 = s.localLoad k l sp a (if wide then 8 else 4) ∧
    (s.localAtomic k l sp a op wide b n).1 = s.localStore k l sp a (if wide then 8 else 4) (newVal op wide (s.localLoad k l sp a (if wide then 8 else 4)) b n)

/-- A lane whose access fails a check of R95 is killed, recorded and skipped, or trapped, as the launch trap policy says; a
misaligned one traps; what the rules leave open here is the model's choice, log 18 (R95, R96, chapter 4, access checks). -/
def Obligations.RefusedAccessesFollowThePolicy : Prop :=
  ∀ (i : Instr) (m : MemOp) (kind : AccKind) (n : Nat) x s o,
    ((∃ c t d, i = .ld c t d m ∧ kind = .load ∧ n = ldBytes t) ∨ ∃ c t b, i = .st c t m b ∧ kind = .store ∧ n = stBytes t) →
    wordOp i s = some o → Issues x s o → x.g.frame.busy = false → x.pass o ≠ 0 →
    let r := x.region s o m
    let cause : BitVec 8 := if r.kind = 0 ∨ r.pend = true then 0x0A else 0x08
    let refused := r.kind = 0 ∨ r.pend = true ∨ permits r.kind kind = false ∨ r.lent = true
    (refused → x.l.desc.bpol = 2 → x.traps s → ∃ t f, exec i s = .next t ∧ x.trapped t (x.pass o) cause f 0 ∧ x.only o s t) ∧
    (refused → x.l.desc.bpol = 1 → ∃ t f, exec i s = .next t ∧ x.retired t ∧ x.registers o s t ∧ (∀ a, t.byteAt a = s.byteAt a) ∧
      SameLocals s t ∧ (let d := s.die (dieOf x.g.core)
        let e := t.die (dieOf x.g.core)
        let fault : FaultRec :=
          { va := f, cause := cause, access := .refusal, vf := vfOf x.k, part := x.l.leaf, ctx := x.k, die := dieOf x.g.core,
            core := x.g.core % 16, lanes := x.pass o, pc := x.e.pc }
        if d.roomFor x.l.leaf = true then e.buffers = (d.record fault).buffers ∧ e.waiting = d.waiting
        else e.buffers = d.buffers ∧ e.waiting = d.waiting ++ [{ fault := fault }])) ∧
    (refused → x.l.desc.bpol ≠ 1 → x.l.desc.bpol ≠ 2 →
      ∃ t, exec i s = .next t ∧ (t.launch (launchOf x.k)).map Launch.st = some (.killed cause false)) ∧
    (¬refused → (LSpace.ofKind r.kind).isSome = true → r.base.toNat + r.len.toNat ≤ 2 ^ 57 →
      (∀ l, (x.pass o).getLsbD l = true → (r.base.toNat : Int) ≤ x.ea s o m l ∧ x.ea s o m l + n ≤ r.base.toNat + r.len.toNat) →
      let bad := maskOf fun l => (x.pass o).getLsbD l && x.ea s o m l % (n : Int) != 0
      bad ≠ 0 → x.traps s →
      ∃ t, exec i s = .next t ∧ x.trapped t bad 0x10 (BitVec.ofInt 57 (x.ea s o m (lowLane bad))) 0 ∧
        StandsAt t x.k (x.e.mask &&& ~~~bad) (nextPc x.e.pc) x.e.prio ∧ ∀ a, t.byteAt a = s.byteAt a)

/-- LD.SUPV and ST.SUPV read and write the live registers of their own group at the offsets of the record (R341, R414, R457, chapter
14, supervisor access). -/
def Obligations.SupervisorAccessesReachTheRecord : Prop :=
  let fits (x : Site) (o : Op) (ea : Nat → Int) (n : Nat) (reads : Bool) : Prop :=
    (∀ i, (x.pass o).getLsbD i = true → 0 ≤ ea i ∧ ea i + n ≤ 0xC00 + 128 * x.g.bud ∧ ea i % (n : Int) = 0) ∧
    ∀ i, (x.pass o).getLsbD i = true → 0xC00 ≤ ea i →
      let r := ((ea i).toNat - 0xC00) / 128
      (∀ p ∈ (x.g.replayView x.e).pend, p.reg ≠ .v r) ∧ (reads = true → x.g.absent r = false ∧ x.g.filling r = false)
  (∀ c t d off imm x s o, wordOp (.ldSupv c t d off imm) s = some o → Issues x s o →
    let ea (i : Nat) : Int := (x.rd s o 0 off i : Int) + imm.toInt
    fits x o ea (ldBytes t) true →
    ∃ r f, exec (.ldSupv c t d off imm) s = .next r ∧ x.retired r ∧ x.keeps o s r ∧ x.lands o r f ∧
      ∀ i, (x.pass o).getLsbD i = true → (0xC00 ≤ ea i ∨ ∀ j, (x.pass o).getLsbD j = true → ea j < 0xC00) →
        f i = ldImage t (s.supvRead x.k x.g (ea i).toNat (ldBytes t))) ∧
  (∀ c t off imm b x s o s1 g1, wordOp (.stSupv c t off imm b) s = some o → Issues x s o →
    let ea (i : Nat) : Int := (x.rd s o 0 off i : Int) + imm.toInt
    fits x o ea (stBytes t) (decide (stBytes t < 4)) →
    (lanesOf (x.pass o)).foldl (fun q i => q.bind fun s1 =>
      s1.supvWrite x.k (ea i).toNat (stBytes t) (x.rd s o 1 b i (stWidth t) % 2 ^ (8 * stBytes t))) (some s) = some s1 →
    s1.group x.k = some g1 →
    ∃ r g, exec (.stSupv c t off imm b) s = .next r ∧ x.retired r ∧ x.outside s r ∧ r.group x.k = some g ∧ SameHeader g1 g ∧
      ∀ n i, n ∉ o.use.lastUses x.g x.e (x.pass o) → r.vAt x.k n i = s1.vAt x.k n i) ∧
  (∀ (s : State) k g n i, s.group k = some g → n < 128 → i < 32 →
    s.supvRead k g (0x200 + 4 * n) 4 = (g.sreg n).toNat ∧
    s.supvRead k g (0xC00 + 128 * n + 4 * i) 4 = (s.vAt k n i).toNat ∧
    s.supvRead k g 0x998 8 = g.frame.rpc.toNat) ∧
  ∀ (s : State) k g n v, s.group k = some g → n < 128 → v < 2 ^ 32 →
    ∃ t, s.supvWrite k (0x200 + 4 * n) 4 v = some t ∧
      ∀ m, t.sAt k m = if m = n then BitVec.ofNat 32 v else s.sAt k m

/-- LDF gives every lane of the fragment's registers its packed elements through the layout; STF stores them and tags the blocks
(R195, R196, R197, R416, R459). -/
def Obligations.FragmentsLoadAndStore : Prop :=
  (∀ g ty d m sl sk x s o sp kk n mem, Instr.wf (.ldf g ty d m sl sk) = true → wordOp (.ldf g ty d m sl sk) s = some o →
    Issues x s o → x.pass o ≠ 0 →
    let lay := x.uni s o (srcIn 1 (.s sl))
    let w := fragBits ty
    let at_ := (x.ea s o m (lowLane (x.pass o))).toNat
    x.fragment s o ty d.toNat m lay (x.uni s o (srcIn 2 sk)) sp kk n mem →
    s.tagsDiffer x.k sp (laySpan lay) (fragBytes at_ lay w kk n mem) = false →
    ∃ t, exec (.ldf g ty d m sl sk) s = .next t ∧ x.retired t ∧ x.outside s t ∧ (∃ h, t.group x.k = some h ∧ SameHeader x.g h) ∧
      (∀ j l, t.lAt x.k j l = s.lAt x.k j l) ∧
      (∀ r l, r < fragRegs kk w n → l < 32 → t.vAt x.k (d.toNat + r) l =
        BitVec.ofNat 32 ((fragPlaces at_ lay w kk n mem r l).foldr (fun p v => s.elemRd x.k sp w p + 2 ^ w * v) 0)) ∧
      ∀ j l, (j < d.toNat ∨ d.toNat + fragRegs kk w n ≤ j) → j ∉ o.use.lastUses x.g x.e (x.pass o) → t.vAt x.k j l = s.vAt x.k j l) ∧
  (∀ g ty d m sl sk x s o sp kk n mem, Instr.wf (.stf g ty d m sl sk) = true → wordOp (.stf g ty d m sl sk) s = some o →
    Issues x s o → x.pass o ≠ 0 →
    let lay := x.uni s o (srcIn 1 (.s sl))
    let w := fragBits ty
    let at_ := (x.ea s o m (lowLane (x.pass o))).toNat
    let all := fragAll at_ lay w kk n mem
    x.fragment s o ty d.toNat m lay (x.uni s o (srcIn 2 sk)) sp kk n mem → (sp = .clu → laySpan lay = 0) →
    let stored := (List.range (fragRegs kk w n)).foldl (fun s1 r => (List.range 32).foldl (fun s1 l =>
      (fragPlaces at_ lay w kk n mem r l).zipIdx.foldl (fun s1 pj =>
        s1.elemWr x.k sp w pj.1 ((s.vAt x.k (d.toNat + r) l).toNat / 2 ^ (w * pj.2) % 2 ^ w)) s1) s1) s
    ∃ t, exec (.stf g ty d m sl sk) s = .next t ∧ x.retired t ∧ x.registers o s t ∧ x.wakes s t ∧ SameLocals stored t ∧
      (∀ u a, (∀ p ∈ all, ∀ j, j < (if w = 16 then 2 else 1) → s.localAt x.k 0 sp (p.1 + j) ≠ (u, a)) → t.unitRd u a = s.unitRd u a) ∧
      (∀ c, (t.core c).tiles = (s.core c).tiles ∧ (t.core c).books = (s.core c).books) ∧
      (∀ b, Store.rd (t.core (s.homeCore x.k)).tags b = if sp = .scr ∧ ∃ a ∈ fragBytes at_ lay w kk n mem, a / 2048 = b then BitVec.ofNat 3 (laySpan lay)
        else Store.rd (s.core (s.homeCore x.k)).tags b) ∧
      ∀ c, c ≠ s.homeCore x.k → (t.core c).tags = (s.core c).tags) ∧
  ∀ at_ lay w kk n mem r l j, (w = 4 ∨ w = 8 ∨ w = 16) → 0 < kk → j < 32 / w →
    let e := (1024 * r + 32 * l + w * j) / w
    (fragPlaces at_ lay w kk n mem r l)[j]? = some (layPlace at_ lay w (128 / n * mem + e / kk) (e % kk))

/-- An element lies at base + row * pitch + column * w / 8 (transposed: the other way), its 16-byte place in the span permuted by
XOR (R197). -/
def Obligations.TheLayoutWordPlacesElements : Prop :=
  ∀ at_ lay w row col,
    let a := if layT lay then col else row
    let b := if layT lay then row else col
    let lin := at_ + a * layPitch lay + b * w / 8
    let sp := 16 * 2 ^ laySpan lay
    (layPlace at_ lay w row col).1 = lin ^^^ (16 * (lin / sp % (sp / 16))) ∧
    (layPlace at_ lay w row col).1 / sp = lin / sp ∧
    (layPlace at_ lay w row col).2 = (if w = 4 then b % 2 else 0) ∧
    (laySpan lay = 0 → (layPlace at_ lay w row col).1 = lin) ∧
    ∀ row2 col2 rows cols, w = 4 ∨ w = 8 ∨ w = 16 ∨ w = 32 → layBad lay rows cols w = false → row < rows → col < cols →
      row2 < rows → col2 < cols → layPlace at_ lay w row col = layPlace at_ lay w row2 col2 → row = row2 ∧ col = col2

/-- ACC.ZERO clears a tile, ACC.LD and ACC.ST move converted elements between tile rows and lanes, ACC.DRAIN hands the tile to the
haul engine (R211, R212, R213, R214, R367). -/
def Obligations.AccumulatorWords : Prop :=
  let cells (t : State) (c q row col : Nat) : Nat := (t.core c).tile q row col
  (∀ g st x s o, Instr.wf (.accZero g st) = true → wordOp (.accZero g st) s = some o → Issues x s o → x.pass o ≠ 0 →
    let q := x.uni s o (srcIn 0 st)
    q ≤ 63 → s.isGuest x.k x.g = false → s.tileBusy (s.homeCore x.k) q = false →
    ∃ t, exec (.accZero g st) s = .next t ∧ x.retired t ∧ x.registers o s t ∧ (∀ a, t.byteAt a = s.byteAt a) ∧ SameLocals s t ∧
      (∀ c p row col, row < 128 → col < 128 → cells t c p row col = if c = s.homeCore x.k ∧ p = q then 0 else cells s c p row col) ∧
      ∀ m, s.team (teamOf x.k) = some m → (t.team (teamOf x.k)).map Team.tilemap = some (m.tilemap ||| (1#64 <<< q))) ∧
  (∀ g ty d st sb x s o row0 col0 n, Instr.wf (.accLd g ty d st sb) = true → wordOp (.accLd g ty d st sb) s = some o →
    Issues x s o → x.pass o ≠ 0 →
    let q := x.uni s o (srcIn 0 st)
    let e := accPer ty
    accShape ty d.toNat x.g.bud (x.uni s o (srcIn 1 sb)) = .inl (row0, col0, n) →
    q ≤ 63 → s.isGuest x.k x.g = false → s.tileBusy (s.homeCore x.k) q = false →
    ∃ t, exec (.accLd g ty d st sb) s = .next t ∧ x.retired t ∧ x.keeps o s t ∧
      (∀ j l, (j < d.toNat ∨ d.toNat + n / e ≤ j) → j ∉ o.use.lastUses x.g x.e (x.pass o) → t.vAt x.k j l = s.vAt x.k j l) ∧
      ∀ m l, m < n / e → (x.pass o).getLsbD l = true → t.vAt x.k (d.toNat + m) l =
        BitVec.ofNat 32 ((List.range e).foldr (fun j v =>
          accConvert ty (cells s (s.homeCore x.k) q (row0 + l) (col0 + m * e + j)) + 2 ^ accBits ty * v) 0)) ∧
  (∀ g ty d st sb x s o row0 col0 n, Instr.wf (.accSt g ty d st sb) = true → wordOp (.accSt g ty d st sb) s = some o →
    Issues x s o → x.pass o ≠ 0 →
    let q := x.uni s o (srcIn 1 st)
    let e := accPer ty
    accShape ty d.toNat x.g.bud (x.uni s o (srcIn 2 sb)) = .inl (row0, col0, n) →
    q ≤ 63 → s.isGuest x.k x.g = false → s.tileBusy (s.homeCore x.k) q = false →
    ∃ t, exec (.accSt g ty d st sb) s = .next t ∧ x.retired t ∧ x.registers o s t ∧ (∀ a, t.byteAt a = s.byteAt a) ∧ SameLocals s t ∧
      (∀ c p row col, row < 128 → col < 128 → cells t c p row col =
        if c = s.homeCore x.k ∧ p = q ∧ row0 ≤ row ∧ row < row0 + 32 ∧ (x.pass o).getLsbD (row - row0) = true ∧ col0 ≤ col ∧ col < col0 + n
        then accWiden ty ((s.vAt x.k (d.toNat + (col - col0) / e) (row - row0)).toNat / 2 ^ (accBits ty * ((col - col0) % e)) % 2 ^ accBits ty)
        else cells s c p row col) ∧
      ∀ m, s.team (teamOf x.k) = some m → (t.team (teamOf x.k)).map Team.tilemap = some (m.tilemap ||| (1#64 <<< q))) ∧
  ∀ g ty m st sl sm x s o, Instr.wf (.accDrain g ty m st sl sm) = true → wordOp (.accDrain g ty m st sl sm) s = some o →
    Issues x s o → x.pass o ≠ 0 →
    let q := x.uni s o (srcIn 1 st)
    let lay := x.uni s o (srcIn 2 sl)
    let off := x.uni s o (srcIn 3 sm)
    let w := accBits (drainAcc ty)
    let r := x.region s o m
    let at_ := x.ea s o m (lowLane (x.pass o))
    let clu := r.kind == 10
    layBad lay 128 128 w = false → layEw lay = ewCode w → q ≤ 63 → r.pend = false → r.lent = false → (r.kind = 9 ∨ r.kind = 10) → 0 ≤ at_ →
    (∀ i, i < 16384 → r.base.toNat ≤ drainPlace at_.toNat lay w i ∧ drainPlace at_.toNat lay w i + w / 8 ≤ r.base.toNat + r.len.toNat) →
    off + 16 ≤ s.spaceLen x.k (mbSpace clu) → off % 16 = 0 → s.isGuest x.k x.g = false → s.haulRoom (s.homeCore x.k) = true →
    s.tileBusy (s.homeCore x.k) q = false →
    ∃ t id h, exec (.accDrain g ty m st sl sm) s = .next t ∧ x.retired t ∧ x.keeps o s t ∧ s.nextId ≤ id ∧ id < t.nextId ∧
      (t.core (s.homeCore x.k)).hauls = SMap.put (s.core (s.homeCore x.k)).hauls id h ∧ h.form = .drain ty q (BitVec.ofNat 32 lay) ∧
      h.grp = x.k ∧ h.dst = r ∧ h.dOff = at_.toNat ∧ h.len = 16384 * w / 8 ∧ h.done = .mbar clu off ∧ h.pos = 0

/-- FTILE asks the yard once per group or crew; the yard answers its requests in order with the next ordinal and its coordinates
(R33, R34, R35, R36, R403, R82). -/
def Obligations.TheYardAnswersInOrder : Prop :=
  (∀ g sd x s o, wordOp (.ftile g sd) s = some o → Issues x s o → x.pass o ≠ 0 → x.l.crewOf (groupNo x.k) = none →
    ∃ t h, exec (.ftile g sd) s = .next t ∧ x.retired t ∧ x.registers o s t ∧ (∀ a, t.byteAt a = s.byteAt a) ∧ LocalSame s t ∧
      t.launch (launchOf x.k) = some { x.l with asks := x.l.asks ++ [[(x.k, sd)]] } ∧ t.group x.k = some h ∧
      ∀ i, i < 4 → ∃ p ∈ h.pend, p.reg = .s (sd.toNat + i)) ∧
  (∀ g sd x s o crew rank, wordOp (.ftile g sd) s = some o → Issues x s o → x.pass o ≠ 0 →
    x.l.crewOf (groupNo x.k) = some (crew, rank) → s.crewLost x.l (teamOf x.k) crew = false →
    (∀ a ∈ x.g.arrivals, a.block.isSome = true) →
    let a : Arrival := { pc := x.e.pc, prio := x.e.prio, g := g, block := none, sd := sd, at_ := (s.core x.g.core).clock }
    ((∃ n ∈ x.l.members crew, groupKey (teamOf x.k) n ≠ x.k ∧
        ∀ h, s.group (groupKey (teamOf x.k) n) = some h → h.active = false ∨ ∀ b ∈ h.arrivals, b.block.isSome = true) →
      ∃ t h, exec (.ftile g sd) s = .next t ∧ x.keeps o s t ∧ t.group x.k = some h ∧ h.arrivals = x.g.arrivals ++ [a] ∧
        StandsAt t x.k x.e.mask x.e.pc x.e.prio) ∧
    (∀ mem, (∃ m, s.team (teamOf x.k) = some m ∧ m.st = .running) → (s.modGroup x.k fun h => { h with arrivals := h.arrivals ++ [a] }).assembled x.l (teamOf x.k) crew false = some mem →
      (∀ b ∈ mem, ∃ h e p, s.group b.1 = some h ∧ h.arrivalEntry b.2 = some (e, p) ∧ e.mask ≠ 0) →
      ∃ t l, exec (.ftile g sd) s = .next t ∧ t.launch (launchOf x.k) = some l ∧
        l.asks = x.l.asks ++ [mem.map fun b => (b.1, b.2.sd)] ∧
        ∀ b ∈ mem, ∃ h, t.group b.1 = some h ∧ b.2 ∉ h.arrivals ∧ ∀ i, i < 4 → ∃ p ∈ h.pend, p.reg = .s (b.2.sd.toNat + i))) ∧
  (∀ who k sd rest s l m, who = (k, sd) :: rest → s.launch (launchOf k) = some l → s.team (teamOf k) = some m →
    l.asks.head? = some who → (who.map Prod.fst).Nodup → (∀ p ∈ who, (s.group p.1).isSome = true) →
    let total := l.x * l.y * l.z
    let unit := l.unitOf (groupNo k)
    let ord := if l.desc.det then teamNo k * l.units + unit + (Store.rd m.drawn unit).toNat * (l.cores.length * l.units) else l.yard
    ∃ t l', exec (.yardAnswer who) s = .next t ∧ t.launch (launchOf k) = some l' ∧ l'.asks = l.asks.tail ∧
      l'.yard = (if l.desc.det || total ≤ l.yard then l.yard else l.yard + 1) ∧ (∀ a, t.byteAt a = s.byteAt a) ∧ SameLocals s t ∧
      ∀ p ∈ who, ∀ j, t.sAt p.1 j =
        if p.2.toNat ≤ j ∧ j < p.2.toNat + 4 then
          (if total ≤ ord then 0xFFFFFFFF
           else BitVec.ofNat 32 (([(l.coords ord).1, (l.coords ord).2.1, (l.coords ord).2.2, ord][j - p.2.toNat]?).getD 0))
        else s.sAt p.1 j) ∧
  ∀ (l : Launch) ord, l.desc.grouped = false →
    ord = (l.coords ord).1 + l.x * ((l.coords ord).2.1 + l.y * (l.coords ord).2.2) ∧
    (0 < l.x → (l.coords ord).1 < l.x) ∧ (0 < l.x → 0 < l.y → (l.coords ord).2.1 < l.y)

/-- MMA records an arrival; a whole crew's arrivals are captured with operands and tile and retire; an incomplete rendezvous is
withdrawn; what the rules leave open here is the model's choice, log 4, 28 (R198, R199, R200, R201, R424, R82). -/
def Obligations.CrewsMeetAndTheSawCaptures : Prop :=
  (∀ g q so x s o crew rank, wordOp (.mma g q so) s = some o → Issues x s o → x.pass o ≠ 0 →
    let r := x.g.replayView x.e |>.reg q.toNat
    let off := r.base.toNat + x.rd s o 0 so (lowLane (x.pass o))
    r.kind = 9 → r.pend = false → r.lent = false → off + 64 ≤ r.base.toNat + r.len.toNat → off % 64 = 0 →
    x.l.crewOf (groupNo x.k) = some (crew, rank) → s.isGuest x.k x.g = false → s.crewLost x.l (teamOf x.k) crew = false →
    (∀ n ∈ x.l.members crew, ∀ h, s.group (groupKey (teamOf x.k) n) = some h → ∀ a ∈ h.arrivals, a.block = none ∨ a.block = some off) →
    (∀ a ∈ x.g.arrivals, a.block = none) →
    ∃ t h, exec (.mma g q so) s = .next t ∧ x.keeps o s t ∧ StandsAt t x.k x.e.mask x.e.pc x.e.prio ∧ t.group x.k = some h ∧
      h.arrivals = x.g.arrivals ++ [{ pc := x.e.pc, prio := x.e.prio, g := g, block := some off, sd := 0, at_ := (s.core x.g.core).clock }]) ∧
  (∀ tk crew s tm l k0 a0 rest kk cls, s.team tk = some tm → s.launch (teamLaunch tk) = some l → l.st = .running → tm.st = .running →
    s.assembled l tk crew true = some ((k0, a0) :: rest) →
    let mem := (k0, a0) :: rest
    let ks := mem.map Prod.fst
    let c := s.core tm.core
    let off := a0.block.getD 0
    let b := readBlock (s.localLoad k0 0 .scr off 64)
    let bud := ks.foldl (fun m k => min m (match s.group k with | some g => g.bud | none => 0)) 256
    c.sawHeld = false → c.retired = false → c.saw.length < 4 → s.dev.shut = false → mmaShape b.afmt b.bfmt = some (kk, cls) →
    blockBad b kk ks.length bud l.desc = false → s.tagMembers ks kk b.afmt b.asrc b.aoff b.alay = [] →
    s.tagMembers ks kk b.bfmt b.bsrc b.boff b.blay = [] →
    (∀ ka ∈ mem, ∃ g e p, s.group ka.1 = some g ∧ g.arrivalEntry ka.2 = some (e, p) ∧ e.mask ≠ 0 ∧ g.step = none ∧
      (∀ n ∈ b.regs kk ks.length, g.absent n = false ∧ g.filling n = false ∧ ∀ p ∈ g.pend, p.reg ≠ .v n) ∧ (b.afmt = 2 → s.bookPending ka.1 b.acb = false) ∧
      (b.bfmt = 2 → s.bookPending ka.1 b.bcb = false)) →
    ∃ t op, exec (.capture tk crew) s = .next t ∧ (t.core tm.core).saw = c.saw ++ [op] ∧ op.members = ks ∧ op.team = tk ∧ op.block = off ∧
      op.afmt = b.afmt ∧ op.bfmt = b.bfmt ∧ op.tile = b.tile ∧ op.accum = b.accum ∧ op.chk = b.chk ∧
      op.a = s.operandAll ks kk b.afmt b.asrc b.areg b.aoff b.alay ∧ op.b = s.operandAll ks kk b.bfmt b.bsrc b.breg b.boff b.blay ∧
      op.abook = s.book tm.core b.acb ∧ op.bbook = s.book tm.core b.bcb ∧ op.mboff = b.mboff ∧ op.mbclu = b.mbclu ∧ op.nomb = b.nomb ∧
      (∀ a, t.byteAt a = s.byteAt a) ∧ SameLocals s t ∧
      ∀ ka ∈ mem, ∃ g h, s.group ka.1 = some g ∧ t.group ka.1 = some h ∧ ka.2 ∉ h.arrivals ∧ ∀ e pass, g.arrivalEntry ka.2 = some (e, pass) →
        (∀ f ∈ g.entries, f.st = .ready → f.pc = e.pc → f.prio = e.prio → f = e) → StandsAt t ka.1 e.mask (nextPc e.pc) e.prio) ∧
  ∀ k s g l crew rank, s.group k = some g → s.launch (launchOf k) = some l → l.crewOf (groupNo k) = some (crew, rank) →
    g.active = true → (∃ a ∈ g.arrivals, 64 ≤ ((s.core g.core).clock - a.at_).toNat) →
    (∃ n ∈ l.members crew, ∀ h, s.group (groupKey (teamOf k) n) = some h → h.active = false) →
    ∃ t h, exec (.rendezvousWithdrawal k) s = .next t ∧ t.group k = some h ∧ h.arrivals = [] ∧ h.active = false ∧ h.entries = g.entries ∧
      SameHeader g h ∧
      ∀ n ∈ l.members crew, groupKey (teamOf k) n ≠ k → ∀ p, s.group (groupKey (teamOf k) n) = some p → p.res = .pending → p.active = false →
        ∃ p', t.group (groupKey (teamOf k) n) = some p' ∧ p' = { p with urgent := true }

/-- The oldest captured operation writes the tile, its STATUS and RESID, and arrives on its barrier object; a second failed pass
leaves the tile; what the rules leave open here is the model's choice, log 51, 98 (R189, R190, R191, R192, R203, R206, R207, R208).
-/
def Obligations.TheSawCompletes : Prop :=
  (∀ core s op rest tm, (s.core core).saw = op :: rest → (s.core core).sawHeld = false →
    (∀ h ∈ (s.core core).hauls, ∀ ty q lay, h.2.form = .drain ty q lay → q ≠ op.tile) →
    let k0 := op.members.headD 0
    s.team (teamOf k0) = some tm → tm.core = core →
    let fail1 := op.inj || op.mismatch || (op.chk && Config.arrayFault s.tick 0)
    let fail2 := fail1 && (op.mismatch || (op.chk && Config.arrayFault s.tick 1))
    let status := 1 + (if fail1 then 6 else 0) + (if fail2 then 16 else 0) + (if op.inj then 32 else 0)
    ∃ t resid, exec (.mmaComplete core) s = .next t ∧ (t.core core).saw = rest ∧ (∀ a, t.byteAt a = s.byteAt a) ∧
      (∀ q row col, row < 128 → col < 128 → (t.core core).tile q row col =
        if fail2 = false ∧ q = op.tile then op.result row col ((s.core core).tile q row col) else (s.core core).tile q row col) ∧
      (fail2 = false → resid = op.resid) ∧
      (let s1 := (s.localStore k0 0 .scr (op.block + 48) 4 status).localStore k0 0 .scr (op.block + 52) 4 resid
       let ob := s1.objAt k0 op.mbclu op.mboff
       SameLocals (if op.nomb then s1 else s1.objWr ob (objUpdate (s1.objRd ob) 1 0 0)) t) ∧
      (fail2 = true → ∀ k ∈ op.members, ∀ g, s.group k = some g → ∃ h, t.group k = some h ∧ g.mcheck.length < h.mcheck.length)) ∧
  (∀ (op : MmaOp) i j old, op.isInt = true → op.accum = false → (op.result i j old : Int) = op.intSum i j % 2 ^ 32) ∧
  (∀ (op : MmaOp) i j old, op.isInt = true → op.accum = true → op.result i j old = (old + (op.intSum i j % 2 ^ 32).toNat) % 2 ^ 32) ∧
  (∀ (op : MmaOp) i j old, op.isInt = false → op.accum = false → op.result i j old = valBits ((tree (Nat.log2 op.depth) (op.leaves i j)).headD (.fin false 0 0))) ∧
  ∀ a b c d : Fp.Val, tree 2 [a, b, c, d] = [Fp.rne32 (Fp.rne32 a b) (Fp.rne32 c d)]

/-- RDSR gives the register's value, WRSR writes sr.fmode, sr.status or sr.xlim, MTR reads an account; a nondeterministic read in a
DET launch traps (R32, R339, R340, R434, R467, R468, R240, R426, R284). -/
def Obligations.SpecialRegistersAndMeters : Prop :=
  (∀ c r x s o, wordOp (.rdsr c r) s = some o → Issues x s o → (sregNondet r = true → s.isDet x.k = false) →
    ∃ t, exec (.rdsr c r) s = .next t ∧ x.retired t ∧ x.lands o t ((x.ctx s o).sreg s r) ∧ x.keeps o s t) ∧
  (∀ c r x s o, wordOp (.rdsr c r) s = some o → Issues x s o → sregNondet r = true → s.isDet x.k = true → x.pass o ≠ 0 → x.traps s →
    ∃ t, exec (.rdsr c r) s = .next t ∧ x.trapped t (x.pass o) 0x28 0 0 ∧ x.only o s t) ∧
  (∀ x s o l, Arrives x s → let v (r : SReg) : Nat := (x.ctx s o).sreg s r l
    v .lane = l ∧ v .group = groupNo x.k ∧ v .ngroups = x.l.g ∧ v .team = teamNo x.k ∧ v .core = x.g.core % 16 ∧ v .sect = x.g.sect ∧
    v .die = x.g.core / 16 ∧ v .crew = x.l.crewWord (groupNo x.k) ∧ v .role = (if x.l.consumer (groupNo x.k) then 1 else 0) ∧
    v .vf = vfOf x.k ∧ v .part = x.l.leaf ∧ v .clock = (s.core x.g.core).clock.toNat ∧ v .time = s.now % 2 ^ 64 ∧
    v .fmode = x.g.fmode.toNat ∧ v .status = (x.g.status &&& 7).toNat + (if x.g.supv x.e = true then 8 else 0) ∧
    v .xlim = x.g.xlim.toNat ∧ v .frag = x.e.frag.toNat ∧ v .parent = (if x.e.fr then x.e.parent.toNat else 0xFFFFFFFF) ∧
    v .cause = x.g.frame.cause.toNat ∧ v .trappc = x.g.frame.pc.toNat ∧ v .skid = x.g.frame.skid.toNat ∧ v .faddr = x.g.frame.faddr.toNat) ∧
  (∀ c r a x s o, wordOp (.wrsr c r a) s = some o → Issues x s o → x.pass o ≠ 0 →
    let v := BitVec.ofNat 32 (x.rd s o 0 a (lowLane (x.pass o)))
    ∃ t g, exec (.wrsr c r a) s = .next t ∧ x.retired t ∧ x.outside s t ∧ x.registers o s t ∧ t.group x.k = some g ∧
      g.fmode = (if r = .fmode then v &&& 0x1FFF else x.g.fmode) ∧ g.status = (if r = .status then v &&& 7 else x.g.status) ∧
      g.xlim = (if r = .xlim then v &&& 0x01FF01FF else x.g.xlim) ∧ g.frame = x.g.frame ∧ ∀ n, g.reg n = x.g.reg n) ∧
  (∀ g sd x s o, x.l.desc.det = false → x.pass o ≠ 0 →
    let pair (i : Instr) (v : Nat) : Prop := wordOp i s = some o → Issues x s o →
      ∃ t, exec i s = .next t ∧ x.retired t ∧ x.keeps o s t ∧ t.sAt x.k sd.toNat = BitVec.ofNat 32 v ∧
        t.sAt x.k (sd.toNat + 1) = BitVec.ofNat 32 (v / 2 ^ 32)
    let vf := s.vf (vfOf x.k)
    pair (.mtrVf g sd) vf.acct.nj ∧
    pair (.mtrLaunch g sd) (Acct.sum x.l.acctD x.l.acctN) ∧
    (∀ m, s.team (teamOf x.k) = some m → pair (.mtrTeam g sd) (Acct.sum m.acctD m.acctN)) ∧
    pair (.mtrQuota g sd) (if vf.quota = 0 then 2 ^ 64 - 1 else vf.quota.toNat - vf.used / 1000000)) ∧
  (∀ g sd x s o, x.l.desc.det = true → x.pass o ≠ 0 → x.traps s → ∀ i ∈ [Instr.mtrVf g sd, .mtrLaunch g sd, .mtrTeam g sd, .mtrQuota g sd],
    wordOp i s = some o → Issues x s o → ∃ t, exec i s = .next t ∧ x.trapped t (x.pass o) 0x28 0 0 ∧ x.only o s t) ∧
  ∀ r, sregNondet r = true ↔ r = .clock ∨ r = .time ∨ r = .core ∨ r = .die ∨ r = .sect

/-- BOR.X, .S and .A send a claim to the home and wait (or with .TRY go on); BOR.O is granted at once (R99, R375, chapter 4,
requests). -/
def Obligations.BorClaimsOrGrants : Prop :=
  let word (i : Instr) (kind : Option HeldKind) (try_ : Bool) (c : Ctl) (sd : BitVec 7) (q : BitVec 4) (sa : BitVec 7) (sl : Src) : Prop :=
    match kind, try_ with
    | some .x, false => i = .borX c sd q sa sl
    | some .s, false => i = .borS c sd q sa sl
    | some .a, false => i = .borA c sd q sa sl
    | none, false => i = .borO c sd q sa sl
    | some .x, true => i = .borXTry c sd q sa sl
    | some .s, true => i = .borSTry c sd q sa sl
    | some .a, true => i = .borATry c sd q sa sl
    | none, true => i = .borOTry c sd q sa sl
  ∀ i kind try_ c sd q sa sl x s o, word i kind try_ c sd q sa sl → wordOp i s = some o → Issues x s o → x.pass o ≠ 0 →
    let b64 := x.uni s o (srcIn 0 (.s sa) 2 .z64)
    let base := b64 % 2 ^ 57
    let len := x.rd s o 1 sl (lowLane (x.pass o))
    let vf := vfOf x.k
    let fine (p : Xlat) : Prop := (isHost p.home = true → (s.vf vf).tdi = .run) ∧ base % grainBytes p.grain = 0 ∧ len % grainBytes p.grain = 0
    (x.g.reg q.toNat).kind = 0 → (x.g.reg q.toNat).pend = false → canonical b64 = true → len ≠ 0 → ¬(try_ = true ∧ s.isDet x.k = true) →
    (∀ k p n, kind = some k → s.lookup x.g.core vf base = some (.ok p n) → p.cls = 0 → fine p → base + len ≤ p.va + p.size →
      isPeer p.home = false → isPeer (p.at base) = false → s.returning x.g.core vf base len = false → (try_ = false → x.g.wakes.length < 8) →
      ∃ t g b, exec i s = .next t ∧ x.outside s t ∧ x.registers o s t ∧ x.control t [q.toNat] ∧ t.group x.k = some g ∧
        g.reg q.toNat = { pend := true } ∧ SMap.find g.bors q.toNat = some b ∧ b.sd = sd.toNat ∧ b.try_ = try_ ∧
        b.region = { base := BitVec.ofNat 57 base, len := BitVec.ofNat 40 len, kind := heldCode k, grain := p.grain } ∧
        (∃ m : ClaimMsg, { instr := .claim (homeDie (p.at base)) m, route := claimRoute x.g.core (homeDie (p.at base)) } ∈ t.pending ∧ m.base = p.at base ∧ m.len = len ∧ m.kind = k ∧ m.try_ = try_ ∧
          m.ctx = x.k ∧ m.vf = vf ∧ m.core = x.g.core ∧ m.q = q ∧ m.peer = none ∧ m.importIdx = none) ∧
        (if try_ = true then x.retired t ∧ b.stay = x.e.mask ∧ ∃ p ∈ g.pend, p.reg = .s sd.toNat else
          ∃ e ∈ g.entries, e.mask = x.e.mask ∧ e.st = .blocked ∧ e.pc = x.e.pc ∧ e.prio = x.e.prio ∧
            ∃ w ∈ g.wakes, w.code = 4 ∧ w.frag = e.frag ∧ w.arg = q.setWidth 16)) ∧
    (∀ gr, kind = none →
      (∀ a, base ≤ a → a < base + len → ∃ p n, s.lookup x.g.core vf a = some (.ok p n) ∧ p.va ≤ a ∧ a < p.va + p.size ∧ p.cls = 1 ∧
        p.grain = gr ∧ fine p) →
      ∃ t, exec i s = .next t ∧ x.retired t ∧ x.outside s t ∧ x.registers o s t ∧ x.control t [q.toNat] ∧ t.sAt x.k sd.toNat = 1 ∧
        t.qAt x.k q.toNat = { base := BitVec.ofNat 57 base, len := BitVec.ofNat 40 len, kind := 4, grain := gr })

/-- The home grants a claim that conflicts with nothing, refuses SELF, BUSY or FULL, or makes it wait; a release frees the entry,
advances GEN and regrants; what the rules leave open here is the model's choice, log 92, 99 (R97, R101, R103, R112, R117). -/
def Obligations.TheClaimTableDecides : Prop :=
  let answer (s : State) (d ctx core : Nat) (i : Instr) : Msg :=
    { instr := i, route := answerRoute d (match s.group ctx with | some g => g.core | none => core) }
  (∀ d (m : ClaimMsg) s, m.peer = none →
    let die := s.die d
    let at_ := answer s d
    let n := SMap.fresh die.claims 0
    let hits (c : Nat × ClaimEntry) : Bool := c.2.conflicts m.base m.len m.kind die.claimSeq
    let own (c : Nat × ClaimEntry) : Prop := c.2.st = .held ∧ c.2.ctx = m.ctx ∧ c.2.peer = none
    ∃ t, exec (.claim d m) s = .next t ∧ (∀ a, t.byteAt a = s.byteAt a) ∧ t.groups = s.groups ∧
      ((∀ c ∈ die.claims, hits c = false) → n < 65536 → ∃ e orph, SMap.find (t.die d).claims n = some e ∧ e.st = .held ∧
        e.base = m.base ∧ e.len = m.len ∧ e.kind = m.kind ∧ e.ctx = m.ctx ∧
        at_ m.ctx m.core (.grant m.ctx m.q (handleOf d n (Store.rd die.gens n).toNat) orph) ∈ t.pending ∧
        (orph = true ↔ ∃ c ∈ die.claims, c.2.st = .orphan ∧ c.2.overlaps m.base m.len = true)) ∧
      ((∃ c ∈ die.claims, hits c = true) → (∀ c ∈ die.claims, hits c = true → own c) →
        at_ m.ctx m.core (.refuse m.ctx m.q .self_) ∈ t.pending ∧ (t.die d).claims = die.claims) ∧
      ((∀ c ∈ die.claims, hits c = false) → 65536 ≤ n →
        at_ m.ctx m.core (.refuse m.ctx m.q .full) ∈ t.pending ∧ (t.die d).claims = die.claims) ∧
      ((∃ c ∈ die.claims, hits c = true ∧ ¬own c) →
        (65536 ≤ n → at_ m.ctx m.core (.refuse m.ctx m.q .full) ∈ t.pending ∧ (t.die d).claims = die.claims) ∧
        (n < 65536 → m.try_ = true → at_ m.ctx m.core (.refuse m.ctx m.q .busy) ∈ t.pending ∧ (t.die d).claims = die.claims) ∧
        (n < 65536 → m.try_ = false → t.pending = s.pending ∧ ∃ e, SMap.find (t.die d).claims n = some e ∧ e.st = .wait ∧
          e.base = m.base ∧ e.len = m.len ∧ e.kind = m.kind ∧ e.ctx = m.ctx ∧ e.q = m.q ∧ e.seq = die.claimSeq ∧ e.age = 0))) ∧
  (∀ k m, compatible k m = true ↔ k = m ∧ k ≠ .x) ∧
  (∀ d n gen ctx s, let die := s.die d
    ∃ t, exec (.release d n gen ctx) s = .next t ∧
      (∀ e, SMap.find die.claims n = some e → e.st = .held → (Store.rd die.gens n).toNat = gen →
        SMap.find (t.die d).claims n = none ∧ Store.rd (t.die d).gens n = BitVec.ofNat 4 (gen + 1) ∧
        ∀ w ∈ die.claims, w.1 ≠ n → w.2.st = .wait → w.2.peer = none →
          (∀ c ∈ die.claims, c.1 ≠ n → c ≠ w → c.2.overlaps w.2.base w.2.len = false) → ∃ h orph, answer s d w.2.ctx w.2.core (.grant w.2.ctx w.2.q h orph) ∈ t.pending) ∧
      ((∀ e, SMap.find die.claims n = some e → e.st ≠ .held ∨ (Store.rd die.gens n).toNat ≠ gen) →
        (t.die d).claims = die.claims ∧ t.pending = s.pending)) ∧
  (∀ d ctx q s n e,
    (s.die d).claims.find? (fun c => c.2.st == .wait && c.2.ctx == ctx && c.2.q == q && c.2.peer.isNone) = some (n, e) →
    ∃ t, exec (.withdraw d ctx q) s = .next t ∧ SMap.find (t.die d).claims n = none) ∧
  (∀ d n s e l, SMap.find (s.die d).claims n = some e → e.st = .wait → e.peer = none → s.launch (launchOf e.ctx) = some l →
    (if l.desc.btime = 0 then 10000 else l.desc.btime.toNat) * 1000 ≤ e.age →
    ∃ t, exec (.borrowTimeout d n) s = .next t ∧ SMap.find (t.die d).claims n = none ∧ answer s d e.ctx e.core (.refuse e.ctx e.q .timeout) ∈ t.pending) ∧
  ∀ lk s l cause hang, s.launch lk = some l → l.st = .killed cause hang →
    (∀ m ∈ s.pending, claimInFlight (fun k => launchOf k == lk) m.instr = false) →
    ∃ t m, exec (.claimSweep lk) s = .next t ∧ t.launch lk = some m ∧ m.st = .swept cause hang ∧
      ∀ d n e, (n, e) ∈ (t.die d).claims → e.peer = none → launchOf e.ctx = lk → e.st = .orphan

/-- A grant fills the register and the status scalar and lets the BOR go on; a refusal leaves it EMPTY; cancelled ones are sent
back; what the rules leave open here is the model's choice, log 34, 81 (R99, R100, R102, R103, R105, R133, R263). -/
def Obligations.BorAnswersAtTheCore : Prop :=
  let goesOn (t : State) (k : Nat) (g : Group) (q : BitVec 4) (b : PendBor) : Prop :=
    b.try_ = false → ∀ w e, g.wakes.filter (fun w => w.code == 4 && w.arg.toNat == q.toNat) = [w] → g.entry w.frag = some e →
      w.join = none → g.issuing = none → StandsAt t k e.mask (nextPc e.pc) e.prio
  (∀ k q h orphan s g b, s.group k = some g → SMap.find g.bors q.toNat = some b →
    q.toNat + 16 * (if h.getLsbD 23 then 8 else (h >>> 16 &&& 7).toNat) ∉ g.cancelled →
    ∃ t, exec (.grant k q h orphan) s = .next t ∧ t.qAt k q.toNat = { b.region with handle := h, orph := orphan } ∧
      t.sAt k b.sd = (if orphan then 3 else 1) ∧ (∀ n, n ≠ b.sd → t.sAt k n = s.sAt k n) ∧ (∀ n, n ≠ q.toNat → t.qAt k n = s.qAt k n) ∧
      (∀ a, t.byteAt a = s.byteAt a) ∧ goesOn t k g q b) ∧
  (∀ k q (h : BitVec 24) orphan s g, s.group k = some g → h.getLsbD 23 = false → q.toNat + 16 * (h >>> 16 &&& 7).toNat ∈ g.cancelled →
    ∃ t, exec (.grant k q h orphan) s = .next t ∧
      { instr := .release (h >>> 16 &&& 7).toNat (h &&& 0xFFFF).toNat (genOf h) k, route := claimRoute g.core (h >>> 16 &&& 7).toNat } ∈ t.pending ∧ ∀ n, t.qAt k n = s.qAt k n) ∧
  (∀ k q r s g b, s.group k = some g → SMap.find g.bors q.toNat = some b → r ≠ .timeout → (∀ c ∈ g.cancelled, c % 16 ≠ q.toNat) →
    ∃ t, exec (.refuse k q r) s = .next t ∧ t.qAt k q.toNat = {} ∧ t.sAt k b.sd = refuseStatus r ∧
      (∀ n, n ≠ b.sd → t.sAt k n = s.sAt k n) ∧ (∀ a, t.byteAt a = s.byteAt a) ∧ goesOn t k g q b) ∧
  (∀ k q s g b w e l, s.group k = some g → SMap.find g.bors q.toNat = some b → (∀ c ∈ g.cancelled, c % 16 ≠ q.toNat) →
    g.wakes.find? (fun w => w.code == 4 && w.arg.toNat == q.toNat) = some w → g.entry w.frag = some e → g.supv e = false →
    s.launch (launchOf k) = some l → l.st = .running →
    (l.desc.bpol = 1 → ∃ t, exec (.refuse k q .timeout) s = .next t ∧ t.qAt k q.toNat = {} ∧ t.sAt k b.sd = 0x40) ∧
    (l.desc.bpol = 0 → ∃ t, exec (.refuse k q .timeout) s = .next t ∧
      (t.launch (launchOf k)).map Launch.st = some (.killed 0x0C false))) ∧
  (refuseStatus .busy = 4 ∧ refuseStatus .self_ = 8 ∧ refuseStatus .full = 0x10 ∧ refuseStatus .peer = 0x20) ∧
  (∀ core id s r, SMap.find (s.core core).rets id = some r →
    ∃ t, exec (.writeBackResponse core id) s = .next t ∧ (∀ a, t.byteAt a = s.byteAt a) ∧
      (1 < r.wbs → SMap.find (t.core core).rets id = some { r with wbs := r.wbs - 1 } ∧ t.pending = s.pending) ∧
      (r.wbs = 1 → r.kind ≠ 3 → r.handle.getLsbD 23 = false → SMap.find (t.core core).rets id = none ∧
        { instr := .release (r.handle >>> 16 &&& 7).toNat (r.handle &&& 0xFFFF).toNat (genOf r.handle) r.grp, route := claimRoute core (r.handle >>> 16 &&& 7).toNat } ∈ t.pending)) ∧
  (∀ core k h s, ∃ t, exec (.atomicAcknowledgement core k h) s = .next t ∧
    (t.core core).unacked = (s.core core).unacked.erase (k, h) ∧ (∀ a, t.byteAt a = s.byteAt a)) ∧
  ∀ core line s x, (s.core core).l1.find? (fun y => y.line == line && y.cls == 1 && y.dirty != 0) = some x →
    isPeer (x.line * 512) = false → (isHost (x.line * 512) = true → (s.vf x.vf).tdi = .run) →
    ∃ t, exec (.l1WriteBack core line) s = .next t ∧
      (∀ y ∈ (t.core core).l1, y.line = x.line → y.vf = x.vf → y = { x with dirty := 0 }) ∧
      ∀ a, t.byteAt a = if a / 512 = line ∧ x.dirty.getLsbD (a % 512) = true then Store.rd x.data (a % 512) else s.byteAt a

/-- REBOR derives a sub-range of the same or S kind; QSET sets a local range or empties a register; QINFO reads a register's fields
(R104, R432, R433). -/
def Obligations.RegionRegistersAreDerivedAndSet : Prop :=
  let writes (i : Instr) (x : Site) (s : State) (o : Op) (q : BitVec 4) (r : Region) : Prop :=
    ∃ t, exec i s = .next t ∧ x.retired t ∧ x.outside s t ∧ x.registers o s t ∧ x.control t [q.toNat] ∧ t.qAt x.k q.toNat = r
  (∀ (toS : Bool) c qd qs so sl x s o, let i : Instr := if toS then .reborS c qd qs so sl else .rebor c qd qs so sl
    wordOp i s = some o → Issues x s o → x.pass o ≠ 0 →
    let r := (x.ctx s o).g.reg qs.toNat
    let d := (x.ctx s o).g.reg qd.toNat
    let off := x.uni s o (srcIn 0 so)
    let n := x.uni s o (srcIn 1 sl)
    let gr := if (LSpace.ofKind r.kind).isSome then 32 else grainBytes r.grain
    qd ≠ qs → r.kind ≠ 0 → r.pend = false → r.lent = false → d.kind = 0 → d.pend = false → (toS = true → r.kind = 1 ∨ r.kind = 2) →
    n ≠ 0 → off + n ≤ r.len.toNat → off % gr = 0 → n % gr = 0 →
    writes i x s o qd { r with base := r.base + BitVec.ofNat 57 off, len := BitVec.ofNat 40 n, kind := if toS then 2 else r.kind, drv := true }) ∧
  (∀ c lk q so sl x s o sp, wordOp (.qset c lk q so sl) s = some o → Issues x s o → x.pass o ≠ 0 →
    let r := (x.ctx s o).g.reg q.toNat
    let off := x.uni s o (srcIn 0 so)
    let n := x.uni s o (srcIn 1 sl)
    LSpace.ofKind (localKindCode lk) = some sp → (r.kind = 0 ∨ (LSpace.ofKind r.kind).isSome = true) → r.pend = false →
    s.isGuest x.k x.g = false → n ≠ 0 → off + n ≤ s.spaceLen x.k sp → off % 32 = 0 → n % 32 = 0 →
    writes (.qset c lk q so sl) x s o q { base := BitVec.ofNat 57 off, len := BitVec.ofNat 40 n, kind := localKindCode lk, grain := 3 }) ∧
  (∀ g q x s o, wordOp (.qsetEmpty g q) s = some o → Issues x s o → x.pass o ≠ 0 →
    let r := (x.ctx s o).g.reg q.toNat
    (r.kind = 0 ∨ (LSpace.ofKind r.kind).isSome = true) → r.pend = false → writes (.qsetEmpty g q) x s o q {}) ∧
  (∀ g sd q sel x s o, wordOp (.qinfo g sd q sel) s = some o → Issues x s o → x.pass o ≠ 0 →
    let r := (x.ctx s o).g.reg q.toNat
    r.pend = false →
    ∃ t, exec (.qinfo g sd q sel) s = .next t ∧ x.retired t ∧ x.keeps o s t ∧
      t.sAt x.k sd.toNat = BitVec.ofNat 32 (qinfo r (s.isDet x.k) sel)) ∧
  (∀ r det, r.kind ≠ 0 → qinfo r det 0 + 2 ^ 32 * (qinfo r det 1 % 2 ^ 25) = r.base.toNat ∧ qinfo r det 2 + 2 ^ 32 * qinfo r det 3 = r.len.toNat ∧
    qinfo r det 5 = (if det then 0 else r.handle.toNat) ∧ qinfo r det 6 = r.pgrp.toNat ∧ qinfo r det 7 = r.mboff.toNat ∧
    qinfo r det 4 % 16 = r.kind.toNat ∧ qinfo r det 4 / 2 ^ 4 % 4 = r.grain.toNat ∧ qinfo r det 4 / 2 ^ 12 % 256 = r.nm1.toNat ∧
    qinfo r det 4 / 2 ^ 20 % 256 = r.pidx.toNat ∧ qinfo r det 4 / 2 ^ 28 = r.pq.toNat) ∧
  ∀ r det sel, r.kind = 0 → qinfo r det sel = 0

/-- SPLIT divides an X range among consecutive groups and lends the register; JOIN takes it back once all parts returned; RETB
empties and releases; what the rules leave open here is the model's choice, log 29 (R105, R107, R108, R109, R412, R439, R440, R454).
-/
def Obligations.SplitsJoinsAndReturns : Prop :=
  (∀ g qd qs sg sn sm x s o, wordOp (.split g qd qs sg sn sm) s = some o → Issues x s o → x.pass o ≠ 0 →
    let r := (x.ctx s o).g.reg qs.toNat
    let first := x.uni s o (srcIn 0 sg)
    let n := x.uni s o (srcIn 1 sn)
    let m := x.uni s o (srcIn 2 sm)
    let ob := s.objAt x.k false m
    let v := s.objRd ob
    (qd ≠ qs ∨ groupNo x.k < first ∨ first + n ≤ groupNo x.k) → 1 ≤ n → n ≤ 256 → first + n ≤ x.l.g →
    r.kind = 1 → r.pend = false → r.drv = false → r.lent = false → r.part = false → s.isGuest x.k x.g = false →
    m + 16 ≤ s.spaceLen x.k .scr → r.len.toNat % (n * grainBytes r.grain) = 0 → m % 16 = 0 →
    (∀ i, i < n → ∃ h, s.group (groupKey (teamOf x.k) (first + i)) = some h ∧ h.active = true ∧ s.isGuest (groupKey (teamOf x.k) (first + i)) h = false ∧
      h.res ≠ .ended ∧ (h.reg qd.toNat).kind = 0 ∧ (h.reg qd.toNat).pend = false) →
    ∃ t, exec (.split g qd qs sg sn sm) s = .next t ∧ x.retired t ∧ x.registers o s t ∧ (∀ a, t.byteAt a = s.byteAt a) ∧
      t.qAt x.k qs.toNat = { r with lent := true, ph := objPhase v, nm1 := BitVec.ofNat 8 (n - 1), mboff := BitVec.ofNat 19 m } ∧
      (∀ i, i < n → t.qAt (groupKey (teamOf x.k) (first + i)) qd.toNat =
        { r with base := r.base + BitVec.ofNat 57 (i * (r.len.toNat / n)), len := BitVec.ofNat 40 (r.len.toNat / n), pend := false, lent := false, ph := false, drv := false, part := true, pidx := BitVec.ofNat 8 i, pgrp := BitVec.ofNat 16 (groupNo x.k), pq := qs, mboff := BitVec.ofNat 19 m, nm1 := BitVec.ofNat 8 (n - 1) }) ∧
      (let w := t.objRd ob
       objPhase w = objPhase v ∧ fld w 8 20 = n ∧ fld w 32 20 = 0 ∧ fld w 64 32 = 0 ∧ fld w 96 8 = fld v 96 8)) ∧
  (∀ g qs x s o, wordOp (.join g qs) s = some o → Issues x s o → x.pass o ≠ 0 →
    let r := (x.ctx s o).g.reg qs.toNat
    let phase := objPhase (s.objRd (s.objAt x.k false r.mboff.toNat))
    r.lent = true →
    (phase ≠ r.ph → ∃ t, exec (.join g qs) s = .next t ∧ x.retired t ∧ x.outside s t ∧ x.registers o s t ∧ x.control t [qs.toNat] ∧
      t.qAt x.k qs.toNat = { r with lent := false, ph := false, nm1 := 0, pidx := 0, pgrp := 0, pq := 0, mboff := 0 }) ∧
    (phase = r.ph → x.g.wakes.length < 8 → ∃ t h, exec (.join g qs) s = .next t ∧ x.outside s t ∧ x.control t [] ∧ t.group x.k = some h ∧
      ∃ e ∈ h.entries, e.mask = x.e.mask ∧ e.st = .blocked ∧ e.pc = x.e.pc ∧
        ∃ w ∈ h.wakes, w.code = 2 ∧ w.frag = e.frag ∧ w.addr = objAddr false r.mboff.toNat ∧ w.join = some qs)) ∧
  ∀ g q x s o, wordOp (.retb g q) s = some o → Issues x s o → x.pass o ≠ 0 → (x.ctx s o).g = x.g → SMap.sorted x.g.q = true →
    let r := x.g.reg q.toNat
    r.kind ≠ 0 → r.pend = false → r.lent = false →
    (r.releases = true → s.openAccs x.k x.e.mask = [] ∧ s.booksOut x.k x.e.mask = false) →
    ∃ t, exec (.retb g q) s = .next t ∧ x.retired t ∧ x.registers o s t ∧ t.qAt x.k q.toNat = {} ∧
      ((r.drv = true ∨ (r.part = false ∧ 4 ≤ r.kind.toNat)) → x.outside s t ∧ x.control t [q.toNat]) ∧
      (r.drv = false → r.part = true → s.handleBusy x.g.core x.k r.handle = false →
        let ob := s.objAt x.k false r.mboff.toNat
        ∀ u a, t.unitRd u a = (s.objWr ob (objUpdate (s.objRd ob) 1 0 0)).unitRd u a) ∧
      (r.drv = false → r.part = false → (r.kind = 2 ∨ (r.kind = 3 ∧ (x.k, r.handle) ∉ (s.core x.g.core).unacked)) →
        s.handleBusy x.g.core x.k r.handle = false → r.handle.getLsbD 23 = false →
        { instr := .release (r.handle >>> 16 &&& 7).toNat (r.handle &&& 0xFFFF).toNat (genOf r.handle) x.k, route := claimRoute x.g.core (r.handle >>> 16 &&& 7).toNat } ∈ t.pending ∧
        (∀ a, t.byteAt a = s.byteAt a) ∧
        ∀ n, (x.g.reg n).handle = r.handle → 1 ≤ (x.g.reg n).kind.toNat → (x.g.reg n).kind.toNat < 4 → t.qAt x.k n = {})

/-- BAR.ARRIVE and BAR.SYNC count an arrival and wake the waiters when the expected number is reached; BAR.WAIT and SYNC wait for
the phase to change (R370, R371, R62). -/
def Obligations.NamedBarriersCountArrivals : Prop :=
  let arrived (x : Site) (s : State) (o : Op) (t : State) (k n : Nat) : Prop :=
    x.registers o s t ∧ x.wakes s t ∧ SameLocals s t ∧ ∀ m, s.team (teamOf x.k) = some m →
      let b := (m.bar k).arrive n x.l.g
      (∃ u, t.team (teamOf x.k) = some u ∧ u.bar k = b ∧ (∀ j, j ≠ k → u.bar j = m.bar j) ∧ u.core = m.core ∧ u.tilemap = m.tilemap) ∧
      ∀ j w e h, j ≠ x.k → teamOf j = teamOf x.k → Waiter s j w e h → w.join = none → w.code = 1 → (w.arg &&& 15).toNat = k →
        w.arg.getLsbD 4 ≠ b.ph → StandsAt t j e.mask (nextPc e.pc) e.prio
  (∀ c sd sk sn x s o m, wordOp (.barArrive c sd sk sn) s = some o → Issues x s o → x.pass o ≠ 0 → s.team (teamOf x.k) = some m →
    let k := x.rd s o 0 sk (lowLane (x.pass o))
    let n := x.rd s o 1 sn (lowLane (x.pass o))
    k ≤ 15 → n ≤ x.l.g →
    ∃ t, exec (.barArrive c sd sk sn) s = .next t ∧ x.retired t ∧ arrived x s o t k n ∧
      ∀ d, sd = some d → t.sAt x.k d.toNat = if (m.bar k).ph then 1 else 0) ∧
  (∀ c sk sp x s o m, wordOp (.barWait c sk sp) s = some o → Issues x s o → x.pass o ≠ 0 → s.team (teamOf x.k) = some m →
    let k := x.rd s o 0 sk (lowLane (x.pass o))
    let ph := x.rd s o 1 sp (lowLane (x.pass o)) % 2
    k ≤ 15 →
    ((if (m.bar k).ph then 1 else 0) ≠ ph → ∃ t, exec (.barWait c sk sp) s = .next t ∧ x.retired t ∧ x.keeps o s t) ∧
    ((if (m.bar k).ph then 1 else 0) = ph → x.g.wakes.length < 8 →
      ∃ t, exec (.barWait c sk sp) s = .next t ∧ x.waits t 1 (BitVec.ofNat 16 (k + 16 * ph)) 0 0 ∧ x.keeps o s t)) ∧
  (∀ c sk sn x s o m, wordOp (.barSync c sk sn) s = some o → Issues x s o → x.pass o ≠ 0 → s.team (teamOf x.k) = some m →
    let k := x.rd s o 0 sk (lowLane (x.pass o))
    let n := x.rd s o 1 sn (lowLane (x.pass o))
    let b := m.bar k
    k ≤ 15 → n ≤ x.l.g →
    ((b.arrive n x.l.g).ph ≠ b.ph → ∃ t, exec (.barSync c sk sn) s = .next t ∧ x.retired t ∧ arrived x s o t k n) ∧
    ((b.arrive n x.l.g).ph = b.ph → x.g.wakes.length < 8 → ∃ t, exec (.barSync c sk sn) s = .next t ∧ arrived x s o t k n ∧
      x.waits t 1 (BitVec.ofNat 16 (k + 16 * if b.ph then 1 else 0)) 0 0)) ∧
  ∀ (b : Bar) n g, let exp : BitVec 17 := if b.exp = 0 then BitVec.ofNat 17 (if n = 0 then g else n) else b.exp
    (b.arr + 1 = exp → b.arrive n g = { arr := 0, ph := !b.ph, exp := 0 }) ∧
    (b.arr + 1 ≠ exp → b.arrive n g = { arr := b.arr + 1, ph := b.ph, exp := exp })

/-- MBAR.INIT, EXPECT and ARRIVE update the 16-byte object, TRYWAIT reads its phase, WAIT waits for it to change (R215, R216, R420,
R421, R422). -/
def Obligations.BarrierObjectsCountArrivalsAndBytes : Prop :=
  let at_ (x : Site) (s : State) (o : Op) (m : MemOp) : LUnit × Nat :=
    s.objAt x.k ((x.region s o m).kind == 10) (x.ea s o m (lowLane (x.pass o))).toNat
  let updates (x : Site) (s : State) (o : Op) (t : State) (ob : LUnit × Nat) (v : Nat) : Prop :=
    x.retired t ∧ x.registers o s t ∧ x.wakes s t ∧ SameLocals (s.objWr ob v) t ∧
      ∀ j w e h, j ≠ x.k → Waiter s j w e h → w.join = none → w.code = 2 →
        objPhase (t.objRd (s.objAt j (w.addr.getLsbD 63) (w.addr.toNat % 2 ^ 63))) ≠ w.arg.getLsbD 0 →
        StandsAt t j e.mask (nextPc e.pc) e.prio
  (∀ g m sc x s o, wordOp (.mbarInit g m sc) s = some o → Issues x s o → x.pass o ≠ 0 → x.object s o m →
    let n := x.rd s o 1 sc (lowLane (x.pass o))
    1 ≤ n → n < 2 ^ 20 → ∃ t, exec (.mbarInit g m sc) s = .next t ∧ updates x s o t (at_ x s o m) (n * 2 ^ 8)) ∧
  (∀ g m sx x s o, wordOp (.mbarExpect g m sx) s = some o → Issues x s o → x.pass o ≠ 0 → x.object s o m →
    ∃ t, exec (.mbarExpect g m sx) s = .next t ∧ updates x s o t (at_ x s o m)
      (objUpdate (s.objRd (at_ x s o m)) 0 (BitVec.ofNat 32 (x.rd s o 1 sx (lowLane (x.pass o)))) 0)) ∧
  (∀ g sd m x s o, wordOp (.mbarArrive g sd m) s = some o → Issues x s o → x.pass o ≠ 0 → x.object s o m →
    ∃ t, exec (.mbarArrive g sd m) s = .next t ∧ updates x s o t (at_ x s o m) (objUpdate (s.objRd (at_ x s o m)) 1 0 0) ∧
      ∀ d, sd = some d → t.sAt x.k d.toNat = if objPhase (s.objRd (at_ x s o m)) then 1 else 0) ∧
  (∀ g pd m sp x s o, wordOp (.mbarTrywait g pd m sp) s = some o → Issues x s o → x.pass o ≠ 0 → x.object s o m → s.isDet x.k = false →
    ∃ t, exec (.mbarTrywait g pd m sp) s = .next t ∧ x.retired t ∧ x.keeps o s t ∧
      ∀ i, i < 32 → (x.pass o).getLsbD i = true → t.pAt x.k pd.toNat i =
        (pd = 7 || objPhase (s.objRd (at_ x s o m)) != (x.rd s o 1 sp (lowLane (x.pass o)) % 2 == 1))) ∧
  (∀ g m sp x s o, wordOp (.mbarWait g m sp) s = some o → Issues x s o → x.pass o ≠ 0 → x.object s o m →
    let n := x.rd s o 1 sp (lowLane (x.pass o)) % 2
    ((if objPhase (s.objRd (at_ x s o m)) then 1 else 0) ≠ n → ∃ t, exec (.mbarWait g m sp) s = .next t ∧ x.retired t ∧ x.keeps o s t) ∧
    ((if objPhase (s.objRd (at_ x s o m)) then 1 else 0) = n → x.g.wakes.length < 8 →
      ∃ t, exec (.mbarWait g m sp) s = .next t ∧ x.keeps o s t ∧ x.waits t 2 (BitVec.ofNat 16 n)
        (objAddr ((x.region s o m).kind == 10) (x.ea s o m (lowLane (x.pass o))).toNat) 0)) ∧
  ∀ v da (db : BitVec 32) cause, v < 2 ^ 128 → da ≤ 1 →
    let arr := fld v 32 20 + da
    let bytes := BitVec.ofNat 32 (fld v 64 32) + db
    let u := objUpdate v da db cause
    fld u 8 20 = fld v 8 20 ∧ fld u 96 8 = (if fld v 96 8 = 0 then cause.toNat else fld v 96 8) ∧
    (arr = fld v 8 20 → bytes = 0 → objPhase u = !objPhase v ∧ fld u 32 20 = 0 ∧ fld u 64 32 = 0) ∧
    (arr < fld v 8 20 → objPhase u = objPhase v ∧ fld u 32 20 = arr ∧ fld u 64 32 = bytes.toNat) ∧
    (fld v 8 20 < arr → fld u 1 1 = 1)

/-- FENCE retires and the entry's later accesses wait for its earlier ones; SIG updates the 64-bit object at its home; SIGW compares
or waits; what the rules leave open here is the model's choice, log 29, 35, 93 (R397, R398, R450, R451, R452, R453, R273). -/
def Obligations.FencesAndSignals : Prop :=
  let clamp (x : Site) (s t : State) (sc : Scope) : Prop :=
    ∀ g, t.group x.k = some g → g.fmode = x.g.fmode ∧ g.xlim = x.g.xlim ∧ g.frame = x.g.frame ∧ (∀ n, g.reg n = x.g.reg n) ∧
      g.status = if sc = .system ∧ (s.vf (vfOf x.k)).clamp = true then x.g.status ||| 1 else x.g.status
  (∀ g sc x s o, wordOp (.fence g sc) s = some o → Issues x s o → x.pass o ≠ 0 →
    ∃ t, exec (.fence g sc) s = .next t ∧ x.retired t ∧ x.outside s t ∧ x.registers o s t ∧ clamp x s t sc ∧
      ∀ a ∈ t.openAccs x.k x.e.mask, a.acq = true) ∧
  (∀ g x s o, wordOp (.fenceLayout g) s = some o → Issues x s o → x.pass o ≠ 0 →
    ∃ t, exec (.fenceLayout g) s = .next t ∧ x.retired t ∧ x.keeps o s t ∧ (t.core x.g.core).layouts = []) ∧
  (∀ (i : Instr) (g : Guard) sc m sv (f : Nat → Nat → Nat) x s o p,
    ((i = .sigDec g sc m sv ∧ f = fun old v => (old + (2 ^ 64 - v)) % 2 ^ 64) ∨
     (i = .sigAdd g sc m sv ∧ f = fun old v => (old + v) % 2 ^ 64) ∨ (i = .sigSet g sc m sv ∧ f = fun _ v => v)) →
    wordOp i s = some o → Issues x s o → x.pass o ≠ 0 → x.signal s o m .at_ p →
    let ea := (x.ea s o m (lowLane (x.pass o))).toNat
    let home := p.at ea
    (∀ y ∈ (s.core x.g.core).l1, y.vf = vfOf x.k → y.line = home / 512 → ∀ j, j < 32 → y.dirty.getLsbD (home % 512 / 32 * 32 + j) = false) →
    s.recordApart x.k x.g (home / 32 * 32) 64 →
    let v := x.rd s o 1 sv (lowLane (x.pass o)) 2 .s64 % 2 ^ 64
    ∃ t, exec i s = .next t ∧ x.retired t ∧ x.registers o s t ∧ SameLocals s t ∧ ((∀ w ∈ x.g.wakes, w.code ≠ 3) → clamp x s t sc) ∧
      (s.waitsigs (fun _ _ => true) = [] →
        Store.load t.mem home 8 = f (Store.load s.mem home 8) v ∧ ∀ a, a < home ∨ home + 8 ≤ a → t.byteAt a = s.byteAt a)) ∧
  (∀ g cmp sc m c x s o p, wordOp (.sigw g cmp sc m c) s = some o → Issues x s o → x.pass o ≠ 0 → x.signal s o m .ld p →
    s.openAccs x.k x.e.mask = [] →
    let ea := (x.ea s o m (lowLane (x.pass o))).toNat
    let v := BitVec.ofNat 64 (x.rd s o 1 c (lowLane (x.pass o)) 2 .s64)
    (cmpHolds cmp (s.signalAt (p.at ea)) v = true →
      ∃ t, exec (.sigw g cmp sc m c) s = .next t ∧ x.retired t ∧ x.registers o s t ∧ (∀ a, t.byteAt a = s.byteAt a) ∧ SameLocals s t ∧
        clamp x s t sc) ∧
    (cmpHolds cmp (s.signalAt (p.at ea)) v = false → x.g.wakes.length < 8 →
      ∃ t, exec (.sigw g cmp sc m c) s = .next t ∧ x.registers o s t ∧ (∀ a, t.byteAt a = s.byteAt a) ∧ SameLocals s t ∧
        x.control t [] ∧ x.waits t 3 (BitVec.ofNat 16 (cmpCode cmp)) (BitVec.ofNat 64 ea) v)) ∧
  ∀ (v c : BitVec 64), (cmpHolds .eq v c = true ↔ v = c) ∧ (cmpHolds .ne v c = true ↔ v ≠ c) ∧ (cmpHolds .le v c = true ↔ v.toInt ≤ c.toInt) ∧
    (cmpHolds .ge v c = true ↔ c.toInt ≤ v.toInt) ∧ (cmpHolds .lt v c = true ↔ v.toInt < c.toInt) ∧ (cmpHolds .gt v c = true ↔ c.toInt < v.toInt)

/-- COPY.LIN, .TILE and .GATHER hand a command to the haul engine; a chunk of a linear copy moves its bytes and the last one
completes the token; what the rules leave open here is the model's choice, log 6, 12, 31 (R217, R218, R219, R220, R221, R387, R388).
-/
def Obligations.TheHaulEngineCopies : Prop :=
  let taken (i : Instr) (x : Site) (s : State) (o : Op) (sd : Option (BitVec 7)) (mb : Nat) (h : Haul) : Prop :=
    ∀ d, x.reports s sd mb d → s.haulRoom x.g.core = true →
      ∃ t id, exec i s = .next t ∧ x.accepted o s t id d ∧
        (t.core x.g.core).hauls = SMap.put (s.core x.g.core).hauls id { h with done := d }
  (∀ c sd sm qd qs sa sb sl x s o, let i : Instr := match sd with | some r => .copyLin c r qd qs sa sb sl | none => .copyLinMb c sm qd qs sa sb sl
    wordOp i s = some o → Issues x s o → x.pass o ≠ 0 →
    let low := lowLane (x.pass o)
    let d := (x.ctx s o).g.reg qd.toNat
    let r := (x.ctx s o).g.reg qs.toNat
    let da := d.base.toNat + x.rd s o 0 sa low
    let ra := r.base.toNat + x.rd s o 1 sb low
    let n := x.rd s o 2 sl low
    1 ≤ n → n ≤ 2 ^ 30 → d.extent .store da n = none → r.extent .load ra n = none →
    taken i x s o sd (x.rd s o 3 sm low)
      { form := .lin, grp := x.k, lane := low, pc := x.e.pc, dst := d, src := r, dOff := da, sOff := ra, len := n, done := .mbar false 0 }) ∧
  (∀ (st : Bool) c sd ql qg so sc x s o, let i : Instr := match sd, st with
      | some r, false => .copyTileLd c r ql qg so sc
      | some r, true => .copyTileSt c r ql qg so sc
      | none, false => .copyTileLdMb c ql qg so sc
      | none, true => .copyTileStMb c ql qg so sc
    wordOp i s = some o → Issues x s o → x.pass o ≠ 0 →
    let low := lowLane (x.pass o)
    let l := (x.ctx s o).g.reg ql.toNat
    let r := (x.ctx s o).g.reg qg.toNat
    let la := l.base.toNat + x.rd s o 0 so low
    let b (j : Nat) : Nat := ((x.ctx s o).g.sreg (sc.toNat + j)).toNat
    let rec_ := b 0 + 2 ^ 32 * b 1
    (l.kind = 9 ∨ l.kind = 10) → LSpace.ofKind r.kind = none →
    s.boxExtent x.g.core (vfOf x.k) l (if st then .load else .store) la (rec_ % 2 ^ 57) = none →
    r.extent (if st then .store else .load) r.base.toNat 0 = none → rec_ % 64 = 0 →
    taken i x s o sd (b 5)
      { form := if st then .tileSt else .tileLd, grp := x.k, lane := low, pc := x.e.pc, dst := if st then r else l, src := if st then l else r, dOff := if st then r.base.toNat else la, sOff := if st then la else r.base.toNat, layRec := rec_ % 2 ^ 57, xyz := [b 2, b 3, b 4], done := .mbar false 0 }) ∧
  (∀ c sd ql qg so sb sc x s o, let i : Instr := match sd with | some r => .copyGather c r ql qg so sb sc | none => .copyGatherMb c ql qg so sb sc
    wordOp i s = some o → Issues x s o → x.pass o ≠ 0 →
    let low := lowLane (x.pass o)
    let l := (x.ctx s o).g.reg ql.toNat
    let r := (x.ctx s o).g.reg qg.toNat
    let la := l.base.toNat + x.rd s o 0 so low
    let ga := r.base.toNat + x.rd s o 1 sb low
    let b (j : Nat) : Nat := ((x.ctx s o).g.sreg (sc.toNat + j)).toNat
    1 ≤ b 1 → b 1 ≤ 4096 → 1 ≤ b 2 → b 2 ≤ 4096 → b 2 % 16 = 0 → b 0 + 4 * b 1 ≤ s.spaceLen x.k .scr →
    (LSpace.ofKind l.kind).isSome = true → LSpace.ofKind r.kind = none → l.extent .store la (b 1 * b 2) = none → r.extent .load r.base.toNat 0 = none →
    taken i x s o sd (b 5)
      { form := .gather, grp := x.k, lane := low, pc := x.e.pc, dst := l, src := r, dOff := la, sOff := ga, len := b 1 * b 2, list := b 0, n := b 1, rb := b 2, stride := b 3, done := .mbar false 0 }) ∧
  (∀ (r : Region) kind ea n, r.extent kind ea n = none ↔ r.kind ≠ 0 ∧ r.pend = false ∧ permits r.kind kind = true ∧ r.lent = false ∧
    (r.kind = 4 → apertureIdx r.base.toNat = none) ∧ ea + n ≤ r.base.toNat + r.len.toNat) ∧
  ∀ core id s h k sd l m g, SMap.find (s.core core).hauls id = some h → h.form = .lin → h.acc = none → s.dev.shut = false →
    s.launch (launchOf h.grp) = some l → l.st = .running → s.team (teamOf h.grp) = some m → m.st = .running →
    h.src.kind = 9 → h.dst.kind = 9 → h.pos < h.len → (h.sOff + h.len ≤ h.dOff ∨ h.dOff + h.len ≤ h.sOff) →
    h.done = .token k sd → s.group k = some g → (s.core core).rets = [] →
    let n := min 512 (h.len - h.pos)
    ∃ t, exec (.copyComplete core id) s = .next t ∧ (∀ a, t.byteAt a = s.byteAt a) ∧
      t.localBytes h.grp 0 .scr (h.dOff + h.pos) n = s.localBytes h.grp 0 .scr (h.sOff + h.pos) n ∧
      (∀ u a, (∀ j, j < n → s.localAt h.grp 0 .scr (h.dOff + h.pos + j) ≠ (u, a)) → t.unitRd u a = s.unitRd u a) ∧
      (h.pos + n < h.len → SMap.find (t.core core).hauls id = some { h with pos := h.pos + n } ∧ t.sAt k sd = s.sAt k sd) ∧
      (h.pos + n = h.len → SMap.find (t.core core).hauls id = none ∧ t.sAt k sd = BitVec.ofNat 32 (h.len % 2 ^ 31))

/-- SWEEP hands a range to the sweep engine, which writes back or discards the bytes dirty at acceptance and completes its token or
object; what the rules leave open here is the model's choice, log 12, 31 (R134, R135, R460, R461). -/
def Obligations.TheSweepEngineWritesBack : Prop :=
  (∀ (op : SweepOp) g sd sm q so sl x s o d, let i : Instr := match op, sd with
      | .wb, some r => .sweepWb g r q so sl
      | .inv, some r => .sweepInv g r q so sl
      | .wbinv, some r => .sweepWbinv g r q so sl
      | .wb, none => .sweepWbMb g sm q so sl
      | .inv, none => .sweepInvMb g sm q so sl
      | .wbinv, none => .sweepWbinvMb g sm q so sl
    wordOp i s = some o → Issues x s o → x.pass o ≠ 0 →
    let low := lowLane (x.pass o)
    let r := (x.ctx s o).g.reg q.toNat
    let off := x.rd s o 0 so low
    let n := x.rd s o 1 sl low
    r.kind = 4 → r.pend = false → r.lent = false → apertureIdx r.base.toNat = none → n ≤ 2 ^ 30 → off + n ≤ r.len.toNat → off % 32 = 0 → n % 32 = 0 → n ≠ 0 →
    x.reports s sd (x.rd s o 3 sm low) d → (s.core x.g.core).sweeps.length < 8 →
    ∃ t id w, exec i s = .next t ∧ x.accepted o s t id d ∧ (t.core x.g.core).sweeps = SMap.put (s.core x.g.core).sweeps id w ∧
      w.op = op ∧ w.grp = x.k ∧ w.base = r.base.toNat + off ∧ w.len = n ∧ w.pos = 0 ∧ w.done = d ∧
      ∀ a, a ∈ w.snap ↔ ∃ y m, (y, m) ∈ s.l1Lines x.g.core (vfOf x.k) (r.base.toNat + off) n ∧ a / 512 = y.line ∧
        (y.dirty &&& m).getLsbD (a % 512) = true) ∧
  ∀ core id s w, SMap.find (s.core core).sweeps id = some w →
    let a := w.base + w.pos
    let n := min (512 - a % 512) (w.len - w.pos)
    ∃ t, exec (.sweepComplete core id) s = .next t ∧
      (w.pos + n < w.len → ∃ v, SMap.find (t.core core).sweeps id = some v ∧ v.pos = w.pos + n ∧ v.op = w.op ∧ v.snap = w.snap) ∧
      (w.len ≤ w.pos + n → SMap.find (t.core core).sweeps id = none ∧ ∀ k sd g, w.done = .token k sd → s.group k = some g →
        t.sAt k sd = BitVec.ofNat 32 (w.len % 2 ^ 31)) ∧
      (w.op = .inv → ∀ b, t.byteAt b = s.byteAt b) ∧
      ∀ y m, s.l1Lines core (vfOf w.grp) a n = [(y, m)] → isPeer (y.line * 512) = false → (isHost (y.line * 512) = true → (s.vf y.vf).tdi = .run) →
        (w.op ≠ .inv → ∀ b, b < 512 → (y.dirty &&& m).getLsbD b = true → y.line * 512 + b ∈ w.snap →
          t.byteAt (y.line * 512 + b) = Store.rd y.data b) ∧
        (w.op = .inv → ∀ b g, b < 512 → (y.dirty &&& m).getLsbD b = true → y.line * 512 + b ∈ w.snap → s.group w.grp = some g →
          ∃ h, t.group w.grp = some h ∧ h.status = g.status ||| 4)

/-- RLD and RST send a request per contiguous run of lanes, RMST a block to every member, RFLUSH a notice to its target or members;
what the rules leave open here is the model's choice, log 32 (R297, R299, R300, R441, R442, R443, R444). -/
def Obligations.RemoteWordsSendTheirRequests : Prop :=
  let window (x : Site) (s : State) (o : Op) (q : BitVec 4) (vo : Src) (n : Nat) (need : Need) : Prop :=
    let r := (x.ctx s o).g.reg q.toNat
    r.kind = 4 ∧ r.pend = false ∧ r.lent = false ∧ (apertureIdx r.base.toNat).isSome = true ∧ ∀ i, (x.pass o).getLsbD i = true →
      let a := r.base.toNat + x.rd s o 0 vo i
      a + n ≤ r.base.toNat + r.len.toNat ∧ a % n = 0 ∧ ∃ p c, s.walk (vfOf x.k) a = .ok p c ∧ p.deny (s.vf (vfOf x.k)) (some 1) need = none
  let runs (x : Site) (s : State) (o : Op) (q : BitVec 4) (vo : Src) (n : Nat) : List (Nat × Nat × BitVec 32) :=
    packLanes (fun i => ((x.ctx s o).g.reg q.toNat).base.toNat + x.rd s o 0 vo i) n (lanesOf (x.pass o))
  let sent (x : Site) (s t : State) (id : Nat) (rs : List (Nat × Nat × BitVec 32)) (f : Nat → Nat → BitVec 32 → ReqKind) : Prop :=
    ∀ (j : Nat) a len m im, rs[j]? = some (a, len, m) → SMap.find (s.vf (vfOf x.k)).imports ((apertureIdx a).getD 0) = some im →
      ∃ r ∈ t.requests (vfOf x.k) im.rdev.toNat im.rvf.toNat, r.kind = f a len m ∧ r.op = id ∧ r.part = j ∧ r.win = im.rwin.toNat
  (∀ c ty sd d q vo x s o, wordOp (.rld c ty sd d q vo) s = some o → Issues x s o → x.pass o ≠ 0 → window x s o q vo (stBytes ty) .ld →
    let rs := runs x s o q vo (stBytes ty)
    ∃ t id m, exec (.rld c ty sd d q vo) s = .next t ∧ x.starts o s t id m ∧ m.kind = .rld d.toNat ty ∧ m.sd = sd.toNat ∧
      m.left = rs.length ∧ m.bytes = stBytes ty * laneCount (x.pass o) ∧
      sent x s t id rs (fun a len _ => .read ((a - apertureBase) % 2 ^ 40) len) ∧
      ∀ r ∈ remRegs d.toNat ty, ∃ g, t.group x.k = some g ∧ { reg := .v r, kind := .rld, op := id, lanes := x.pass o } ∈ g.pend) ∧
  (∀ c ty sd q vo vs x s o, wordOp (.rst c ty sd q vo vs) s = some o → Issues x s o → x.pass o ≠ 0 → window x s o q vo (stBytes ty) .st →
    let rs := runs x s o q vo (stBytes ty)
    ∃ t id m, exec (.rst c ty sd q vo vs) s = .next t ∧ x.starts o s t id m ∧ m.kind = .rst ∧ m.sd = sd.toNat ∧
      m.left = rs.length ∧ m.bytes = stBytes ty * laneCount (x.pass o) ∧
      sent x s t id rs (fun a _ mask => .write ((a - apertureBase) % 2 ^ 40)
        ((lanesOf mask).flatMap fun i => bytesOf (stBytes ty) (x.rd s o 1 (.v vs) i (stWidth ty))))) ∧
  (∀ (ea : Nat → Nat) n (m : BitVec 32), 1 ≤ n → n ≤ 16 →
    (∀ r ∈ packLanes ea n (lanesOf m), r.2.1 ≤ 256 ∧ r.2.1 = n * laneCount r.2.2 ∧ r.1 = ea (lowLane r.2.2)) ∧
    ((packLanes ea n (lanesOf m)).foldl (fun u r => u ||| r.2.2) 0 = m)) ∧
  (∀ c sd sg q sb sc x s o sp mc, wordOp (.rmst c sd sg q sb sc) s = some o → Issues x s o → x.pass o ≠ 0 →
    let low := lowLane (x.pass o)
    let grp := x.rd s o 0 sg low
    let r := (x.ctx s o).g.reg q.toNat
    let a := r.base.toNat + x.rd s o 1 sb low
    let b (j : Nat) : Nat := ((x.ctx s o).g.sreg (sc.toNat + j)).toNat
    grp ≤ 4095 → SMap.find s.dev.mcasts grp = some mc → mc.vf = vfOf x.k → LSpace.ofKind r.kind = some sp → r.extent .load a (b 1) = none →
    b 0 % 16 = 0 → 16 ≤ b 1 → b 1 ≤ 256 → b 1 % 16 = 0 → b 2 % 64 = 0 → b 2 + 64 ≤ s.spaceLen x.k .scr →
    ∃ t id m, exec (.rmst c sd sg q sb sc) s = .next t ∧ x.starts o s t id m ∧ m.sd = sd.toNat ∧ m.left = mc.members.length ∧
      m.bytes = b 1 ∧ m.kind = .rmst grp (b 2) (b 0) (s.localBytes x.k low sp a (b 1)) [] ∧ { instr := .multicastReplication id, route := remoteRoute x.g.core } ∈ t.pending) ∧
  (∀ id s, ∃ t, exec (.multicastReplication id) s = .next t ∧ (∀ a, t.byteAt a = s.byteAt a) ∧
    ∀ m grp ack off data ranks mc, SMap.find s.rems id = some m → m.kind = .rmst grp ack off data ranks →
      SMap.find s.dev.mcasts grp = some mc → ∀ (j : Nat) mem, mc.members[j]? = some mem →
        ∃ r ∈ t.requests m.vf mem.dev.toNat mem.vf.toNat, r.kind = .write off data ∧ r.op = id ∧ r.part = j ∧ r.win = mem.win.toNat) ∧
  (∀ g sd q x s o w, wordOp (.rflush g sd q) s = some o → Issues x s o → x.pass o ≠ 0 →
    let r := (x.ctx s o).g.reg q.toNat
    r.kind = 4 → r.pend = false → r.lent = false → s.rmstOut (vfOf x.k) = false → apertureIdx r.base.toNat = some w →
    (∀ im, SMap.find (s.vf (vfOf x.k)).imports w = some im →
      ∃ t id m, exec (.rflush g sd q) s = .next t ∧ x.starts o s t id m ∧ m.kind = .rflush ∧ m.left = 1 ∧ m.bytes = 1 ∧ m.sd = sd.toNat ∧
        ∃ e ∈ t.requests (vfOf x.k) im.rdev.toNat im.rvf.toNat, e.kind = .flush ∧ e.op = id ∧ e.win = im.rwin.toNat) ∧
    (SMap.find (s.vf (vfOf x.k)).imports w = none → s.remoteWaits x.g.core x.k = false →
      ∃ t, exec (.rflush g sd q) s = .next t ∧ x.retired t ∧ t.sAt x.k sd.toNat = 0x80430001)) ∧
  ∀ c sd sg so x s o mc, wordOp (.rflushMc c sd sg so) s = some o → Issues x s o → x.pass o ≠ 0 →
    let low := lowLane (x.pass o)
    let grp := x.rd s o 0 sg low
    let off := x.rd s o 1 so low
    let all := decide (2 ^ 31 ≤ off)
    grp ≤ 4095 → SMap.find s.dev.mcasts grp = some mc → mc.vf = vfOf x.k → (all = true ∨ (off % 64 = 0 ∧ off + 64 ≤ s.spaceLen x.k .scr)) →
    s.rmstOut (vfOf x.k) = false →
    let ts := mc.members.zipIdx.filter fun mj => all || !(s.localLoad x.k 0 .scr off 64).testBit (mj.1.dev.toNat % 512)
    (ts ≠ [] → ∃ t id m, exec (.rflushMc c sd sg so) s = .next t ∧ x.starts o s t id m ∧ m.kind = .rflush ∧ m.left = ts.length ∧
      m.bytes = ts.length ∧ ∀ mj ∈ ts, ∃ e ∈ t.requests (vfOf x.k) mj.1.dev.toNat mj.1.vf.toNat, e.kind = .flush ∧ e.op = id ∧
        e.win = mj.1.win.toNat ∧ e.part = mj.2) ∧
    (ts = [] → s.remoteWaits x.g.core x.k = false → ∃ t, exec (.rflushMc c sd sg so) s = .next t ∧ x.retired t ∧ t.sAt x.k sd.toNat = 0)

/-- COLL sends the member's block to the collective die; the reduction delivers this rank's result, in rank order where FO is set;
what the rules leave open here is the model's choice, log 33 (R302, R303, R385). -/
def Obligations.CollectivesReduceInOrder : Prop :=
  (∀ (form : Nat) c sd op ty fo qd qs sc x s o mc rank sp dp, let i : Instr := match form with
      | 0 => .collAllred c sd op ty fo qd qs sc
      | 1 => .collRedsc c sd op ty fo qd qs sc
      | 2 => .collAllga c sd ty fo qd qs sc
      | _ => .collBcast c sd ty fo qd qs sc
    form ≤ 3 → wordOp i s = some o → Issues x s o → x.pass o ≠ 0 →
    let b (j : Nat) : Nat := ((x.ctx s o).g.sreg (sc.toNat + j)).toNat
    let d := (x.ctx s o).g.reg qd.toNat
    let r := (x.ctx s o).g.reg qs.toNat
    let sizes := collSizes form (b 3) (collWidth ty) (max 1 mc.members.length) rank
    b 0 ≤ 4095 → 1 ≤ b 3 → b 3 ≤ 2 ^ 24 → SMap.find s.dev.mcasts (b 0) = some mc → mc.vf = vfOf x.k →
    s.rankIn mc (vfOf x.k) = some rank → LSpace.ofKind d.kind = some dp → LSpace.ofKind r.kind = some sp →
    d.extent .store (d.base.toNat + b 2) sizes.2 = none → r.extent .load (r.base.toNat + b 1) sizes.1 = none →
    (s.isDet x.k = true → fo = true) →
    ∃ t id m p mc', exec i s = .next t ∧ x.starts o s t id m ∧ m.kind = .coll form (b 0) mc.issued (b 3) (collWidth ty) ∧ m.sd = sd.toNat ∧
      m.left = 1 ∧ m.bytes = b 3 ∧ m.dst = d.base.toNat + b 2 ∧ SMap.find t.dev.mcasts (b 0) = some mc' ∧
      mc'.arrived = mc.arrived ++ [(mc.issued, p)] ∧ mc'.issued = mc.issued + 1 ∧ p.rank = rank ∧ p.form = form ∧ p.fo = fo ∧ p.e = b 3 ∧
      p.ty = ty ∧ (form ≤ 1 → p.op = op) ∧ p.data = s.localBytes x.k (lowLane (x.pass o)) sp (r.base.toNat + b 1) sizes.1) ∧
  (∀ vf grp parts s mc number own rest rank id (o : RemOp) g d0 dp, SMap.find s.dev.mcasts grp = some mc → mc.arrived = (number, own) :: rest →
    s.rankIn mc vf = some rank → mc.vf = vf →
    let ps := parts.map fun p => if p.rank = rank then own else p
    (byRank ps).map (fun p => p.rank) = List.range mc.members.length →
    s.rems.find? (fun q => match q.2.kind with | .coll _ g k _ _ => g == grp && k == number | _ => false) = some (id, o) →
    SMap.find s.rems id = some o → o.left = 1 → o.fails = [] → s.remoteWaits o.core o.grp = false → s.group o.grp = some g →
    (s.core o.core).rets = [] →
    (∀ p ∈ ps, ∀ q ∈ ps, p.form = q.form ∧ p.op = q.op ∧ p.ty = q.ty ∧ p.e = q.e ∧ p.fo = q.fo) → (∀ p ∈ ps, p.failed = none) →
    (own.form = 1 → own.e % max 1 mc.members.length = 0) → own ∈ ps →
    o.regs[0]? = some d0 → LSpace.ofKind d0.kind = some dp →
    let data := collResult ps own mc.members.length rank
    ∃ t mc', exec (.inNetworkReduction vf grp parts) s = .next t ∧ t.sAt o.grp o.sd = BitVec.ofNat 32 (o.bytes % 2 ^ 31) ∧
      SMap.find t.dev.mcasts grp = some mc' ∧ mc'.arrived = rest ∧ (∀ a, t.byteAt a = s.byteAt a) ∧
      t.localBytes o.grp (lowLane ((SMap.find o.lanes 0).getD 1)) dp o.dst data.length = data) ∧
  (∀ ps p n rank, p.form = 0 → collResult ps p n rank = (List.range p.e).flatMap fun i =>
    bytesOf (collWidth p.ty) (collElem (if p.fo then byRank ps else ps) p.op p.ty i)) ∧
  (∀ ps p n rank, p.form = 1 → collResult ps p n rank = (List.range (p.e / n)).flatMap fun i =>
    bytesOf (collWidth p.ty) (collElem (if p.fo then byRank ps else ps) p.op p.ty (rank * (p.e / n) + i))) ∧
  (∀ (p : CollPart) ps i, collElem (p :: ps) .sum .s32 i % 2 ^ 32 =
    (collIn p i + (ps.map fun q => collIn q i).sum) % 2 ^ 32) ∧
  ∀ p q r i, collElem [p, q, r] .sum .f32 i = (Fp.fadd Fp.f32 .rn false (Fp.fadd Fp.f32 .rn false (collIn p i) (collIn q i)).bits (collIn r i)).bits

/-- MIGRATE waits for a landing or goes on; LANDING moves the group, empties its local registers and flushes its ranges before it
issues again; what the rules leave open here is the model's choice, log 30, 36 (R257, R258, R259, R423, R172, R115). -/
def Obligations.GroupsMoveBetweenCores : Prop :=
  (∀ lu m x s o p n, wordOp (.migrateAddr lu m) s = some o → Issues x s o → x.pass o ≠ 0 → x.g.entries.length = 1 →
    let r := x.region s o m
    let ea := x.ea s o m (lowLane (x.pass o))
    r.kind ≠ 0 → r.pend = false → LSpace.ofKind r.kind = none → x.g.pinned = false → (r.base.toNat : Int) ≤ ea →
    ea + 1 ≤ r.base.toNat + r.len.toNat → s.lookup x.g.core (vfOf x.k) ea.toNat = some (.ok p n) →
    let home := p.at ea.toNat
    let stays := isDev home = false ∨ homeDie home = dieOf x.g.core ∨ s.candidates (launchOf x.k) (homeDie home) = []
    (stays → ∃ t, exec (.migrateAddr lu m) s = .next t ∧ x.retired t ∧ x.keeps o s t) ∧
    (¬stays → x.g.wakes.length < 8 → ∃ t g, exec (.migrateAddr lu m) s = .next t ∧ x.keeps o s t ∧
      x.waits t 8 0 (BitVec.ofNat 64 home) 0 ∧ t.group x.k = some g ∧ g.move = some (some home))) ∧
  (∀ x s o, wordOp .migrateHome s = some o → Issues x s o → x.g.entries.length = 1 → (x.ctx s o).g.pinned = false →
    (s.isGuest x.k x.g = false → ∃ t, exec .migrateHome s = .next t ∧ x.retired t ∧ x.keeps o s t) ∧
    (s.isGuest x.k x.g = true → x.g.wakes.length < 8 → ∃ t g, exec .migrateHome s = .next t ∧ x.keeps o s t ∧ x.waits t 8 0 0 0 ∧
      t.group x.k = some g ∧ g.move = some none)) ∧
  (∀ k s g l, s.group k = some g → s.launch (launchOf k) = some l → l.st = .running → g.stopped = false → s.dev.shut = false →
    g.pend = [] → (∀ a ∈ s.accs, a.2.grp ≠ k) →
    let landed (t : State) (new : Nat) : Prop := ∃ h, t.group k = some h ∧ h.core = new ∧ h.active = false ∧ h.move = none ∧
      (∀ j, (LSpace.ofKind (h.reg j).kind) = none) ∧ h.flush = some g.dropLocal.flushRanges ∧
      { instr := .flushByContextTag k g.core new g.dropLocal.flushRanges } ∈ t.pending
    (∀ home c, g.move = some (some home) → s.bestCandidate (s.candidates (launchOf k) (homeDie home)) = some c →
      ∃ t, exec (.landing k) s = .next t ∧ landed t c ∧ ∃ h, t.group k = some h ∧ h.res = .guest) ∧
    (∀ m, g.move = some none → s.team (teamOf k) = some m → m.st = .running →
      ∃ t, exec (.landing k) s = .next t ∧ landed t m.core ∧ ∃ h, t.group k = some h ∧ h.res = .pending) ∧
    (∀ home, g.move = some (some home) → s.candidates (launchOf k) (homeDie home) = [] →
      ∃ t h, exec (.landing k) s = .next t ∧ t.group k = some h ∧ h.core = g.core ∧ h.move = none ∧ ∀ w ∈ h.wakes, w.code ≠ 8) ∧
    (g.move ≠ none → ∀ w e, Waiter s k w e g → w.code = 8 → w.join = none → g.wakes.filter (fun v => v.code == 8) = [w] → ∀ t,
      exec (.landing k) s = .next t → StandsAt t k e.mask (nextPc e.pc) e.prio)) ∧
  (∀ k old new rs s, ∃ t, exec (.flushByContextTag k old new rs) s = .next t ∧ { instr := .flushAcknowledge k new } ∈ t.pending ∧ t.groups = s.groups) ∧
  (∀ k old new va n s y m, s.l1Lines old (vfOf k) va n = [(y, m)] → isPeer (y.line * 512) = false →
    (isHost (y.line * 512) = true → (s.vf y.vf).tdi = .run) →
    ∃ t, exec (.flushByContextTag k old new [(va, n)]) s = .next t ∧ ∀ a, t.byteAt a =
      if a / 512 = y.line ∧ (y.dirty &&& m).getLsbD (a % 512) = true then Store.rd y.data (a % 512) else s.byteAt a) ∧
  ∀ k new s, ∃ t, exec (.flushAcknowledge k new) s = .next t ∧ (∀ j, j ≠ k → t.group j = s.group j) ∧
    ∀ g, s.group k = some g → t.group k = some (if g.core = new then { g with flush := none } else g)

/-- Activation binds a probed record, a swap-out writes back, a fill and a load's data reach registers, a fetch fills its line; what
the rules leave open here is the model's choice, log 36, 37, 38, 39, 41, 103 (R42, R66, R71, R74, R76, R77, R78, R89, R321, R323,
R325, R362). -/
def Obligations.ContextsComeAndGo : Prop :=
  (∀ core sect s k g l p n, SMap.sorted s.groups = true → ((s.core core).sect sect).active.length < 8 → s.dev.shut = false →
    s.nextReady core sect = some (k, g) → s.launch (launchOf k) = some l → g.step = none →
    let va := l.recVa (teamNo k) (groupNo k)
    s.lookup core (vfOf k) va = some (.ok p n) → p.va ≤ va → va + recSize (l.budgetOf (groupNo k)) ≤ p.va + p.size →
    p.deny (s.vf (vfOf k)) (some 2) .ld = none → p.deny (s.vf (vfOf k)) (some 2) .st = none →
    let m := Store.slice s.mem (p.at va) hdrLen
    let bound (t : State) (g h : Group) : Prop := t.group k = some h ∧ h.active = true ∧
      h.res = (if g.res = .guest then .guest else .active) ∧ h.queued = none ∧ h.entries = g.entries ∧ SameHeader g h ∧
      k ∈ ((t.core core).sect sect).active ∧ h.recPages = [p] ∧
      (∀ c, c < 4 → (s.boundTo core sect h.pipe).length ≤ (s.boundTo core sect c).length ∧
        (c < h.pipe → (s.boundTo core sect h.pipe).length < (s.boundTo core sect c).length)) ∧
      ∀ c i, t.lAt k c i = if g.full = true ∧ g.lv.getLsbD c = true then (SMap.find g.saved c).map fun d => Store.rd d i else none
    (g.started = false → g.parts = [] → ∃ t h, exec (.groupActivation core sect) s = .next t ∧ bound t g h ∧
      (∀ a, ¬(p.at va ≤ a ∧ a < p.at va + hdrLen) → t.byteAt a = s.byteAt a) ∧
      ∀ n, n < hdrLen → t.byteAt (p.at va + n) = h.hdrByte false n) ∧
    (∀ h0, g.started = true → g.loadHeader m = .inl h0 → h0.parts = [] →
      ∃ t h, exec (.groupActivation core sect) s = .next t ∧ bound t h0 h ∧ ∀ a, t.byteAt a = s.byteAt a) ∧
    (∀ n, g.started = true → g.loadHeader m = .inr n → ∃ t c, exec (.groupActivation core sect) s = .next t ∧
      t.launch (launchOf k) = some c ∧ c.st = .killed 0x22 false ∧ c.faddr = some (BitVec.ofNat 57 (s.recordVa k n))) ∧
    (g.rewritten m = [] → g.loadHeader m = if frontierOk g.entries then .inl g else .inr (16 * firstBad g.entries))) ∧
  (∀ k s g, s.group k = some g → s.mayLeave k g = true → ∃ t h, exec (.swapOut k) s = .next t ∧ t.group k = some h ∧ h.active = false ∧
    h.res = (if g.res = .active then .pending else g.res) ∧ h.latches = [] ∧ h.entries = g.entries ∧ SameHeader g h ∧
    k ∉ ((t.core g.core).sect g.sect).active ∧
    (∀ n i ln, SMap.find g.lines n = some ln → ln.st ≠ .filling → t.vAt k n i = s.vAt k n i) ∧
    (∀ a, (∀ v ∈ g.lines, v.2.newer = 0) → s.recHomes k { g with active := false } 0 hdrLen = some [(a, hdrLen)] →
      (∀ b, ¬(a ≤ b ∧ b < a + hdrLen) → t.byteAt b = s.byteAt b) ∧
      ((∀ n, n < hdrLen → s.byteAt (a + n) = Store.rd g.wrote n) → ∀ n, n < hdrLen → t.byteAt (a + n) = h.hdrByte false n)) ∧
    ∀ n ln p, s.hosts k g = true → g.lines.filter (fun v => v.2.newer != 0) = [(n, ln)] → ln.st = .dirty →
      s.recXlat k g (s.regVa k n) = some p → p.at (s.regVa k n) % 512 ≤ 384 →
      ∀ i, i < 32 → ofBytes ((List.range 4).map fun j => t.recByte g.core p (s.regVa k n + 4 * i + j)) = (Store.rd ln.data i).toNat) ∧
  (∀ k n s g ln, s.group k = some g → g.active = true → SMap.find g.lines n = some ln → ln.st = .filling →
    ∃ t h, exec (.registerFill k n) s = .next t ∧ t.group k = some h ∧ SameHeader g h ∧
      SMap.find h.lines n = some { st := if ln.got == 0#32 then .clean else .dirty, data := overlaid ln.got ln.data (t.recordLanes k g n) } ∧
      ((∀ p, s.recXlat k g (s.regVa k n) = some p →
          ((s.core g.core).l1.filter fun y => y.line % 64 == p.at (s.regVa k n) / 512 % 64).length < 8) →
        (∀ i, t.vAt k n i = s.vAt k n i) ∧ ∀ a, t.byteAt a = s.byteAt a) ∧
      ∀ w e, Waiter s k w e g → w.code = 9 → w.arg.toNat = n → StandsAt t k e.mask e.pc e.prio) ∧
  (∀ id s, ∃ t, exec (.loadComplete id) s = .next t ∧ ∀ a g, SMap.find s.accs id = some a → a.st = .data → a.poison = 0 →
    s.group a.grp = some g → g.active = true → SMap.find t.accs id = none ∧ (∀ b, t.byteAt b = s.byteAt b) ∧
    (∀ i j b, a.lanes.getLsbD i = true → g.live.getLsbD i = true → SMap.find a.dst i = some b → j < a.w →
      t.vAt a.grp (b + j) i = Store.rd a.res ((b + j) * 32 + i)) ∧
    (∀ n i, (∀ j b, SMap.find a.dst j = some b → n < b ∨ b + a.w ≤ n) → t.vAt a.grp n i = s.vAt a.grp n i) ∧
    (∀ slot v n, a.book = some (slot, v) → n < 16 → Store.rd (t.core a.core).books (16 * slot + n) = v.extractLsb' (16 * n) 16) ∧
    ∃ h, t.group a.grp = some h ∧ SameHeader g h ∧ ∀ q ∈ h.pend, q.op ≠ id) ∧
  (∀ core vf line tr s k g e l rest p n, s.cached core vf line = none → s.fetching core vf line = (k, g, e, l) :: rest → line < supvNat →
    s.lookup core vf line = some (.ok p n) → p.deny (s.vf vf) none .ex = none →
    ∃ t d, exec (.lineFill core vf line tr) s = .next t ∧ t.cached core vf line = some d ∧ d.data = s.memLine (p.at line) ∧
      d.bad = lineFails d.data ∧ (∀ a, t.byteAt a = s.byteAt a) ∧ t.groups = s.groups) ∧
  ∀ w x s, Arrives x s → x.traps s → noForm w = true → ∃ t, exec (.unassignedOpc w) s = .next t ∧ x.trapped t x.e.mask 0x01 0 0

/-- A walk performs, parks or faults its access; records reach the rings; REPLAY ALL releases; invalidations drop translations; what
the rules leave open here is the model's choice, log 21, 24, 40, 89, 93, 96 (R140, R143, R144, R145, R146, R147, R148, R149, R150,
R151, R246, R248). -/
def Obligations.PagesAreWalkedAndFaultsReported : Prop :=
  (∀ id s a, SMap.find s.accs id = some a → a.st = .walk → a.supv = false →
    let die := dieOf a.core
    let va := a.page * 65536
    ∀ m, (s.die die).miss a.vf va = some m → s.walking die m = [(id, a)] →
    (SMap.vals s.accs).filter (fun b => b.grp == a.grp && b.issue == a.issue && b.st == .walk) = [a] →
    let r (cause : BitVec 8) (reason : BitVec 4) (st : Bool) := a.record cause reason st
    (∀ p n i ty, s.walk a.vf (a.addr (lowLane a.lanes)) = .ok p n → a.use = .word i → a.again = false → accessOf i = .ld ty → a.n = ldBytes ty →
      p.deny (s.vf a.vf) (some (if a.region.kind == 4 then 1 else 0)) .ld = none → isPeer p.home = false →
      p.covers a.vf (a.addr (lowLane a.lanes)) = true → (∀ l, a.lanes.getLsbD l = true → s.hostFails (p.at (a.addr l)) a.n = false) → (s.core a.core).l1 = [] →
      (∀ l, a.lanes.getLsbD l = true → (SMap.find a.addrs l).isSome = true ∧ p.at (a.addr l) % ldBytes ty = 0) →
      ∃ t b, exec (.walkComplete id) s = .next t ∧ (t.die die).miss a.vf va = none ∧ (t.core a.core).tlb.head? = some p ∧
        (t.die die).tlb.head? = some p ∧ (∀ c, t.byteAt c = s.byteAt c) ∧ SMap.find t.accs id = some b ∧ b.st = .data ∧
        { instr := .loadComplete id } ∈ t.pending ∧ ∀ l d j, a.lanes.getLsbD l = true → SMap.find a.dst l = some d → j < a.w →
          Store.rd b.res ((d + j) * 32 + l) = BitVec.ofNat 32 (ldImage ty (Store.load s.mem (p.at (a.addr l)) (ldBytes ty)) / 2 ^ (32 * j))) ∧
    (∀ reason st n g, s.walk a.vf (a.addr (lowLane a.lanes)) = .retry reason st n → s.group a.grp = some g → frontierOk g.entries = true →
      (∀ e ∈ g.entries, e.mask.getLsbD e.frag.toNat = true) →
      ∃ t b h, exec (.walkComplete id) s = .next t ∧ SMap.find t.accs id = some b ∧ b.st = .parked ∧ t.group a.grp = some h ∧
        (∀ e ∈ g.entries, ∀ l, (e.mask &&& a.lanes).getLsbD l = true →
          ∃ f ∈ h.entries, f.mask.getLsbD l = true ∧ f.st = .parked ∧ f.pc = e.pc ∧ f.prio = e.prio) ∧
        ((s.die die).roomFor a.part = true → ((s.die die).misses.filter fun m => m.part == a.part && m.faulted).length < 8 →
          a.vf ∉ (s.die die).dropped → ((t.die die).buffer a.part).getLast? = some (r 0x20 reason st) ∧
            ∃ q ∈ (t.die die).misses, q.covers a.vf va = true ∧ q.faulted = true)) ∧
    (∀ reason st n g, s.walk a.vf (a.addr (lowLane a.lanes)) = .term reason st n → s.group a.grp = some g →
      (s.die die).roomFor a.part = true →
      ∃ t b h, exec (.walkComplete id) s = .next t ∧ ((t.die die).buffer a.part).getLast? = some (r 0x21 reason st) ∧
        SMap.find t.accs id = some b ∧ b.st = .fault 0x21 (faultInfo reason a.kind) ∧ t.group a.grp = some h ∧ h.held = g.held ++ [id])) ∧
  (∀ id s a cause info (x : Site), SMap.find s.accs id = some a → a.st = .fault cause info → a.supv = false → a.again = false → x.k = a.grp → s.group x.k = some x.g →
    s.launch (launchOf x.k) = some x.l → x.l.dbg = false → (s.vf (vfOf x.k)).hasSupv = true → x.g.held.head? = some id → x.g.stopped = false →
    x.g.frame.busy = false → x.g.entries.find? (fun e => e.mask &&& (a.lanes &&& x.g.live) != 0) = some x.e →
    s.trapReady id x.k x.g x.e = true → x.tidy → (∀ f ∈ x.g.entries, f.pc ≠ supvBase) →
    let m := x.e.mask &&& a.lanes
    ∃ t h, exec (.impreciseFault id) s = .next t ∧ t.group x.k = some h ∧ h.frame.cause = cause ∧ h.frame.impr = true ∧ h.frame.busy = true ∧
      h.frame.lanes = m ∧ h.frame.pc = a.pc ∧ h.frame.rpc = x.e.pc ∧ h.frame.prio = x.e.prio ∧ h.frame.info = info ∧
      h.frame.faddr = (SMap.find a.addrs (lowLane m)).getD 0 ∧ StandsAt t x.k m supvBase 255 ∧
      (∀ l, (x.e.mask &&& ~~~a.lanes).getLsbD l = true →
        ∃ f ∈ h.entries, f.mask.getLsbD l = true ∧ f.st = x.e.st ∧ f.pc = x.e.pc ∧ f.prio = x.e.prio) ∧
      ((∀ l, (SMap.find a.skid l).getD 0 ≤ 63) → (∀ l, m.getLsbD l = true → (SMap.find a.skid l).getD 0 ≤ h.frame.skid.toNat) ∧
        ∃ l, m.getLsbD l = true ∧ (SMap.find a.skid l).getD 0 = h.frame.skid.toNat) ∧
      (a.lanes &&& x.g.live &&& ~~~x.e.mask = 0 → SMap.find t.accs id = none ∧ h.held = x.g.held.tail)) ∧
  (∀ id s a, SMap.find s.accs id = some a → a.st = .noEntry → (s.die (dieOf a.core)).miss a.vf (a.page * 65536) = none →
    s.mayTake (dieOf a.core) a.part = true → ∃ t b, exec (.pageMissEntryTake id) s = .next t ∧ SMap.find t.accs id = some b ∧ b.st = .walk ∧
      (t.die (dieOf a.core)).miss a.vf (a.page * 65536) = some (s.missEntry a.vf (a.page * 65536) a.part)) ∧
  (∀ die part s r, ((s.die die).buffer part).find? s.ringsRoom = some r → s.rems = [] →
    ∃ t, exec (.faultBufferMove die part) s = .next t ∧ (∀ c, t.byteAt c = s.byteAt c) ∧
      (∀ fb ∈ r.rings, r ∈ ((t.fn fb.1).ringOf fb.2).queue) ∧
      ((∀ w ∈ (s.die die).waiting, w.fault.part ≠ part) →
        (t.die die).buffer part = ((s.die die).buffer part).erase r) ∧
      ∀ w, (s.die die).waiting.find? (fun q => q.fault.part == part) = some w →
        (t.die die).buffer part = ((s.die die).buffer part).erase r ++ [w.fault]) ∧
  (∀ s fn r, (s.fns.filter fun kv => s.reaches kv.1 && (!kv.2.ring.queue.isEmpty || !kv.2.ring2.queue.isEmpty)).map Prod.fst = [fn] →
    (s.fn fn).ring.queue = [r] → (s.fn fn).ring2.queue = [] →
    let g := (s.fn fn).ring
    let a := hostBase + g.base + 32 * (g.prod.toNat % 2 ^ g.k.toNat)
    ∃ t, exec .reportingRound s = .next t ∧ (t.fn fn).ring = { g with prod := g.prod + 1, seq := g.seq + 1, queue := [] } ∧
      Store.load t.mem a 32 = r.bits g.seq.toNat ∧ ∀ c, c < a ∨ a + 32 ≤ c → t.byteAt c = s.byteAt c) ∧
  (∀ (r : FaultRec) seq, r.bits seq % 2 ^ 57 = r.va.toNat ∧ r.bits seq / 2 ^ 64 % 2 ^ 8 = r.cause.toNat ∧
    r.bits seq / 2 ^ 72 % 2 ^ 4 = r.access.code ∧ r.bits seq / 2 ^ 76 % 2 ^ 4 = r.reason.toNat ∧
    r.bits seq / 2 ^ 152 % 2 ^ 32 = r.lanes.toNat ∧ r.bits seq / 2 ^ 184 % 2 ^ 57 = r.pc.toNat ∧ r.bits seq / 2 ^ 241 = seq % 2 ^ 15) ∧
  (∀ s fn die part, s.input = some (.replayAll fn die part) → SMap.sorted s.accs = true →
    let covers (v : Nat) : Bool := if fn = 1024 then (s.vf v).live && (s.vf v).leaf.toNat == part else v == fn
    ∃ t, exec .replayAll s = .next t ∧ (∀ m ∈ (t.die die).misses, m.faulted = true → covers m.vf = false) ∧
      (∀ v ∈ (t.die die).dropped, covers v = false) ∧ (∀ c, t.byteAt c = s.byteAt c) ∧
      (∀ id a, SMap.find s.accs id = some a → a.st = .parked → dieOf a.core = die → covers a.vf = true → a.again = false →
        (∀ h, a.use ≠ .engine h) → ∃ b, SMap.find t.accs id = some b ∧ (b.st = .walk ∨ b.st = .noEntry)) ∧
      ∀ k g, s.group k = some g → g.cfault = true → dieOf g.core = die → covers (vfOf k) = true → ∃ h, t.group k = some h ∧ h.cfault = false) ∧
  (∀ s fn va npg irq vec tvf, s.input = some (.inval fn va npg irq vec tvf) →
    ((s.fn fn).invGo = true → exec .inval s = .next s) ∧
    ((s.fn fn).invGo = false → ∃ t, exec .inval s = .next t ∧ t.fn fn = { s.fn fn with
      invVa := va % 2 ^ 57 / 65536 * 65536, invNpg := BitVec.ofNat 32 npg, invIrq := irq, invVec := vec, invTvf := BitVec.ofNat 10 tvf, invGo := true })) ∧
  (∀ s fn vf va n, (s.fn fn).invGo = true → (s.fn fn).invRange fn = (vf, va, n) → s.deferred vf va n = false →
    ∃ t, exec (.invalComplete fn) s = .next t ∧ (t.fn fn).invGo = false ∧
      (∀ c y, y ∈ (t.core c).tlb ∨ y ∈ (t.die c).tlb → y.vf = vf → meets y.va y.size va n = false) ∧
      (∀ c y v, y ∈ (t.core c).l1 → y.vf = vf → v ∈ y.views → v.meets va n = false) ∧
      ∀ c y, (SMap.keys s.cores).flatMap (fun c => ((s.core c).l1.filter fun y => y.vf == vf && y.views.any fun v => v.meets va n).map
          fun y => (c, y)) = [(c, y)] → isPeer (y.line * 512) = false → (isHost (y.line * 512) = true → (s.vf vf).tdi = .run) →
        (s.fn fn).invIrq = false → ∀ i, i < 512 → t.byteAt (y.line * 512 + i) =
          if y.dirty.getLsbD i then Store.rd y.data i else s.byteAt (y.line * 512 + i)) ∧
  ∀ s r, s.input = some (.mappingRequest r) → r.force = false → s.dev.mapReqs = [] →
    (s.deferred r.vf (r.page * 65536) 65536 = true → ∃ t, exec .mappingRequest s = .next t ∧ t.dev.mapReqs = [r] ∧ ∀ c, t.byteAt c = s.byteAt c) ∧
    (s.deferred r.vf (r.page * 65536) 65536 = false → ∃ t, exec .mappingRequest s = .next t ∧
      Store.load t.mem (r.table + 8 * r.index) 8 = r.entry.toNat ∧
      ∀ c y, y ∈ (t.core c).tlb ∨ y ∈ (t.die c).tlb → y.vf = r.vf → meets y.va y.size (r.page * 65536) 65536 = false)

/-- DISPATCH reads the chosen queue's head command; each host command has its effect, its completion record waits and is written to
the ring; what the rules leave open here is the model's choice, log 44, 45, 65 (R268, R269, R270, R271, R272, R273, R274, R275,
R239, R277, R285). -/
def Obligations.HostCommandsRun : Prop :=
  let runs (s : State) (i : Instr) (f q : Nat) (x : Queue) : Prop :=
    s.cmd = some { fn := f, queue := q } ∧ (s.fn f).queue q = x ∧ x.next = some i ∧ (s.vf f).logging = false ∧ (s.vf f).exhausted = false
  let ends (t : State) (f q n : Nat) (x : Queue) (w : CmdWord) (r : BitVec 256) : Prop :=
    let y := (t.fn f).queue q
    y.head = x.head + BitVec.ofNat 16 n ∧ y.held = x.held ++ [(r, w)] ∧ y.next = none
  let page (s : State) (v va : Nat) (need : Need) (p : Xlat) : Prop :=
    (∃ n, s.walk v va = .ok p n) ∧ isPeer p.home = false ∧ p.deny (s.vf v) (some 1) need = none ∧
      (isHost p.home = true ∨ ((s.die fwDie).miss v va).any MissEntry.faulted = false) ∧ (need = .st ∨ s.hostFails (p.at va) 1 = false)
  (∀ s leaf v qn p, s.dispatches = true → s.chosen = some (leaf, v, qn) → s.headOp v ((s.fn v).queue qn) ≠ 1 →
    let x := (s.fn v).queue qn
    page s v (x.entryVa x.head) .ld p →
    let w := BitVec.ofNat 2048 (Store.load s.mem (p.at (x.entryVa x.head)) 64)
    ∃ t, exec .dispatch s = .next t ∧ (∀ a, t.byteAt a = s.byteAt a) ∧
      (∀ i, decodeCommand w = .ok i → (t.fn v).queue qn = { x with next := some i, entry := x.head, words := w }) ∧
      ∀ e, decodeCommand w = .error e → (t.fn v).queue qn = { x with
        err := true, held := x.held ++ [(complBits (CmdWord.dec w) (w.setWidth 8) 1 0 false 0 0, CmdWord.dec w)] }) ∧
  (∀ s w d f q x l, runs s (.launch w d) f q x → s.leaf (s.vf f).leaf.toNat = some l →
    ∃ t, exec (.launch w d) s = .next t ∧ (∀ a, t.byteAt a = s.byteAt a) ∧
      (withinLimits d l.conf.cores.length = true → (t.fn f).queue q = { x with next := none, waiting := some (w, d) }) ∧
      (withinLimits d l.conf.cores.length = false → ends t f q 4 x w (complBits w 1 2 0 false 0 0))) ∧
  (∀ s w addr c cmp f q x p, runs s (.waitsig w addr c cmp) f q x → page s f (addr.toNat % 2 ^ 57) .ld p →
    let v := s.signalAt (p.at (addr.toNat % 2 ^ 57))
    ∃ t, exec (.waitsig w addr c cmp) s = .next t ∧ (∀ a, t.byteAt a = s.byteAt a) ∧
      (cmpHolds cmp v c = true → ends t f q 1 x w (complBits w 2 0 0 false 0 0) ∧ ((t.fn f).queue q).waitsig = none) ∧
      (cmpHolds cmp v c = false → ((t.fn f).queue q).waitsig = some (w, addr, c, cmp) ∧ ((t.fn f).queue q).held = x.held ∧
        ((t.fn f).queue q).head = x.head + 1)) ∧
  (∀ s (i : Instr) w (addr v : BitVec 64) (g : Nat → Nat) f q x p,
    ((i = .setsigSet w addr v ∧ g = fun _ => v.toNat) ∨ (i = .setsigAdd w addr v ∧ g = fun old => (old + v.toNat) % 2 ^ 64) ∨
      (i = .setsigDec w addr v ∧ g = fun old => (old + (2 ^ 64 - v.toNat)) % 2 ^ 64)) →
    runs s i f q x → page s f (addr.toNat % 2 ^ 57) .at_ p → s.waitsigs (fun _ _ => true) = [] →
    let home := p.at (addr.toNat % 2 ^ 57)
    ∃ t, exec i s = .next t ∧ ends t f q 1 x w (complBits w 3 0 0 false 0 0) ∧
      Store.load t.mem home 8 = g (Store.load s.mem home 8) ∧ ∀ a, a < home ∨ home + 8 ≤ a → t.byteAt a = s.byteAt a) ∧
  (∀ s w dst src len sig f q x, runs s (.hcopy w dst src len sig) f q x →
    ∃ t, exec (.hcopy w dst src len sig) s = .next t ∧ (∀ a, t.byteAt a = s.byteAt a) ∧
      (len.toNat = 0 ∨ 2 ^ 40 < len.toNat → ends t f q 1 x w (complBits w 4 2 0 false 0 0)) ∧
      (1 ≤ len.toNat → len.toNat ≤ 2 ^ 40 → ((t.fn f).queue q).head = x.head + 1 ∧ ((t.fn f).queue q).held = x.held ∧
        ∃ id j, SMap.find t.jobs id = some j ∧ j.kind = .hcopy (dst.toNat % 2 ^ 57) (src.toNat % 2 ^ 57) len.toNat sig.toNat 0 false ∧
          j.fn = f ∧ j.queue = q ∧ j.cmd = w ∧ j.stuck = none)) ∧
  (∀ s id j dst src len sig p r, SMap.find s.jobs id = some j → j.stuck = none → s.dev.shut = false →
    j.kind = .hcopy dst src len sig 0 false → page s j.fn dst .st p → page s j.fn src .ld r → 1 ≤ len →
    p.va ≤ dst → dst + len ≤ p.va + p.size → dst + len ≤ 2 ^ 57 → r.va ≤ src → src + len ≤ r.va + r.size → src + len ≤ 2 ^ 57 →
    ∃ t, exec (.hcopyComplete id) s = .next t ∧ SMap.find t.jobs id = some { j with kind := .hcopy dst src len sig 0 true } ∧
      ∀ a, t.byteAt a = s.byteAt a) ∧
  (∀ s id j dst src len sig pos p r, SMap.find s.jobs id = some j → j.stuck = none → s.dev.shut = false →
    j.kind = .hcopy dst src len sig pos true → pos < len →
    let d := (dst + pos) % 2 ^ 57
    let a := (src + pos) % 2 ^ 57
    let n := min (len - pos) (min (512 - a % 512) (512 - d % 512))
    page s j.fn d .st p → page s j.fn a .ld r → (pos + n < len ∨ sig = 0) →
    ∃ t, exec (.hcopyComplete id) s = .next t ∧ (∀ k, k < n → t.byteAt (p.at d + k) = s.byteAt (r.at a + k)) ∧
      (∀ b, b < p.at d ∨ p.at d + n ≤ b → t.byteAt b = s.byteAt b) ∧
      (pos + n < len → SMap.find t.jobs id = some { j with kind := .hcopy dst src len sig (pos + n) true }) ∧
      (pos + n = len → SMap.find t.jobs id = none ∧ ((t.fn j.fn).queue j.queue).held =
        ((s.fn j.fn).queue j.queue).held ++ [(complBits j.cmd 4 0 0 false 0 0, j.cmd)])) ∧
  (∀ s w v f q x, runs s (.mark w v) f q x →
    ∃ t, exec (.mark w v) s = .next t ∧ ends t f q 1 x w (complBits w 5 0 0 false 0 0) ∧ ∀ a, t.byteAt a = s.byteAt a) ∧
  (∀ s w ltag budget f q x m quota, runs s (.resume w ltag budget) f q x → ltag.toNat < 2 ^ 14 →
    s.launch (launchKey f ltag.toNat) = some m → m.st = .stopped quota →
    let b := if budget = 0 then m.budget else budget.toNat
    (b = 0 ∨ Acct.sum m.acctD m.acctN < b) → (s.vf f).exhausted = false →
    ∃ t, exec (.resume w ltag budget) s = .next t ∧ ends t f q 1 x w (complBits w 6 0 0 false ltag.toNat 0) ∧
      t.launch (launchKey f ltag.toNat) = some { m with st := .evicted, budget := b }) ∧
  (∀ s f q r w rest p, let x := (s.fn f).queue q
    x.held = (r, w) :: rest → x.stuck = none → x.sz ≠ 7 → (x.cprod - x.ccons).toNat < x.size →
    let va := x.cring + 32 * (x.cprod.toNat % x.size)
    page s f va .st p →
    ∃ t, exec (.completionRecord f q) s = .next t ∧ ((t.fn f).queue q).held = rest ∧ ((t.fn f).queue q).cprod = x.cprod + 1 ∧
      (w.irq = false → t.dev.irqs = s.dev.irqs) ∧ (w.irq = false ∨ (s.vf f).resident = true →
        Store.load t.mem (p.at va) 32 = (r ||| (BitVec.ofNat 256 s.now <<< 192)).toNat ∧
        ∀ a, a < p.at va ∨ p.at va + 32 ≤ a → t.byteAt a = s.byteAt a) ∧
      (w.irq = true → (s.vf f).resident = true → (s.fn f).masked w.vec.toNat = false →
        t.dev.irqs = (f, w.vec.toNat, s.now) :: s.dev.irqs)) ∧
  (∀ s v addr h, s.homeOf v addr = some h → isHost h = true → (∀ kq ∈ (s.fn v).queues, kq.2.read = false) →
    ∃ t, exec (.signalPoll v addr) s = .next t ∧ ∀ j w e g, Waiter s j w e g → w.code = 3 → w.join = none →
      s.homeOf (vfOf j) (w.addr.toNat % 2 ^ 57) = some h → cmpHolds (wakeCmp w) (s.signalAt h) w.value = true →
      StandsAt t j e.mask (nextPc e.pc) e.prio) ∧
  (∀ s fn q tail, s.input = some (.doorbell fn q tail) → s.waitsigs (fun f _ => f == fn) = [] →
    ∃ t, exec .doorbell s = .next t ∧ (t.fn fn).queue q = { (s.fn fn).queue q with
      tail := tail, bell := ((s.fn fn).queue q).bell ++ [(tail, s.now)], stuck := none } ∧
      ∀ id j, SMap.find s.jobs id = some j → j.fn = fn → SMap.find t.jobs id = some { j with stuck := none }) ∧
  ∀ s fn q en, s.input = some (.queueEnable fn q en) → ∃ t, exec .queueEnable s = .next t ∧
    ((t.fn fn).queue q).en = en ∧ ((t.fn fn).queue q).head = ((s.fn fn).queue q).head ∧
    (en = true → ((t.fn fn).queue q).err = false) ∧
    (en = false → ((t.fn fn).queue q).next = none ∧ ((t.fn fn).queue q).err = ((s.fn fn).queue q).err)

/-- A launch takes cores, its teams are placed, saved, restored and complete; slices, stops and the watchdog end or suspend it; what
the rules leave open here is the model's choice, log 8, 47, 48, 90, 101 (R38, R39, R120, R237, R238, R254, R255, R256, R265, R275,
R276, R277). -/
def Obligations.LaunchesComeAndGo : Prop :=
  let report (s t : State) (l : Nat) (m : Launch) (status cause : BitVec 8) : Prop :=
    ∃ r : BitVec 256, ((t.fn (launchVf l)).queue m.queue).held = ((s.fn (launchVf l)).queue m.queue).held ++ [(r, m.cmd)] ∧
      r.extractLsb' 0 32 = m.cmd.tag ∧ r.extractLsb' 32 8 = 1#8 ∧ r.extractLsb' 40 8 = status ∧ r.extractLsb' 48 8 = cause
  let left (t : State) (c : Nat) (st : ScrubSt) : Prop := (t.core c).owner = none ∧ (t.core c).team = none ∧ (t.core c).scrub = some st
  (∀ s wait w d leaf cs, let f := wait / 16
    let q := (s.fn f).queue (wait % 16)
    let n := (s.vf f).leaf.toNat
    q.waiting = some (w, d) → s.leaf n = some leaf → s.dispatches = true → s.firstWaiting n leaf = some (f, wait % 16) → leaf.timeLeft = true →
    s.coresFor leaf d = some cs → d.igd = 0 → d.ix = 0 → d.iy = 0 → d.iz = 0 → (s.vf f).logging = false →
    ∀ tag, s.freshTag f = some tag →
    (∀ c ∈ cs, c ∈ leaf.conf.cores ∧ s.isFree c = true) ∧
    (d.ctxLen.toNat < cs.length * teamStride d → d.sigAddr = 0 → ∃ t, exec (.coreGrant wait) s = .next t ∧ t.launches = s.launches ∧
      ((t.fn f).queue (wait % 16)).head = q.head + 4 ∧
      ((t.fn f).queue (wait % 16)).held = q.held ++ [(complBits w 1 2 0 false 0 0, w)]) ∧
    (cs.length * teamStride d ≤ d.ctxLen.toNat → (d.ds = 0 ∨ ∀ c ∈ cs, d.ds.toNat ≤ leaf.dspShare (dieOf c)) →
      s.dspRoom n leaf d.ds.toNat (cs.map dieOf).eraseDups = true →
      let l := launchKey f tag
      ∃ t m, exec (.coreGrant wait) s = .next t ∧ t.launch l = some m ∧ m.st = .granted ∧ m.cores = cs ∧ m.desc = d ∧ m.cmd = w ∧ m.leaf = n ∧
        (m.g, m.p, m.c) = effective d d.gd.toNat ∧ (m.x, m.y, m.z) = (d.x.toNat, d.y.toNat, d.z.toNat) ∧ m.budget = d.budget.toNat ∧
        ((t.fn f).queue (wait % 16)).head = q.head + 4 ∧ ((t.fn f).queue (wait % 16)).waiting = none ∧
        ((t.fn f).queue (wait % 16)).held = q.held ∧
        ∀ (j c : Nat), cs[j]? = some c → (∃ u, t.team (teamKey l j) = some u ∧ u.st = .placing ∧ u.core = c) ∧ (t.core c).owner = some l)) ∧
  (∀ s k m l, s.team k = some m → s.launch (teamLaunch k) = some l → m.st = .placing → (l.st = .granted ∨ l.st = .running) →
    (s.core m.core).owner = some (teamLaunch k) → s.scrubbed (teamLaunch k) = true →
    ∃ t, exec (.teamPlacement k) s = .next t ∧ t.team k = some { m with st := .running, idle := 0 } ∧
      t.launch (teamLaunch k) = some { l with st := .running } ∧ (t.core m.core).team = some k ∧ (∀ a, t.byteAt a = s.byteAt a) ∧
      (∀ y ∈ (t.core m.core).icache, y.vf ≠ launchVf (teamLaunch k)) ∧
      ∀ n, n < l.g → ∃ h, t.group (groupKey k n) = some h ∧ h.core = m.core ∧ h.sect = n % 4 ∧ h.bud = l.budgetOf n ∧
        h.xlim = BitVec.ofNat 32 (l.budgetOf n) ∧ h.queued.isSome = true ∧ h.active = false ∧ h.dead = BitVec.allOnes 256 ∧
        (∃ e, h.entries = [e] ∧ e.pc = l.desc.code.setWidth 57 ∧ e.mask = BitVec.allOnes 32 ∧ e.prio = 128 ∧ e.st = .ready) ∧
        (∀ i, h.sreg i = 0) ∧ ∀ i, h.reg i =
          let r (kind : BitVec 4) (len : Nat) : Region := if len = 0 then {} else { len := BitVec.ofNat 40 len, kind := kind, grain := 3 }
          if i = 12 then r 11 l.desc.ds.toNat else if i = 13 then r 10 (4 * l.desc.cs.toNat) else if i = 14 then r 8 l.desc.lp.toNat
          else if i = 15 then r 9 l.desc.ss.toNat else {}) ∧
  (∀ s k m l, s.team k = some m → s.launch (teamLaunch k) = some l →
    let mates := s.clusterMates k m l.desc
    (l.desc.cs = 0 → mates = [k]) ∧
    (l.st = .running → s.teamOver k = true → (∀ u ∈ mates, s.teamOver u = true) →
      ∃ t, exec (.teamCompletion k) s = .next t ∧ (∀ u ∈ mates, ∀ y, s.team u = some y → left t y.core (.due (teamLaunch k))) ∧
        (∀ j, teamOf j ∈ mates → t.group j = none) ∧
        ((∃ u y, u ∉ mates ∧ s.team u = some y ∧ teamLaunch u = teamLaunch k ∧ y.st ≠ .done) →
          (∀ u ∈ mates, ∀ y, s.team u = some y → t.team u = some { y with st := .done }) ∧ t.launch (teamLaunch k) = some l) ∧
        ((∀ u y, u ∉ mates → s.team u = some y → teamLaunch u = teamLaunch k → y.st = .done) → l.desc.sigAddr = 0 →
          t.launch (teamLaunch k) = none ∧ report s t (teamLaunch k) l 0 0)) ∧
    (∀ cause hang, l.st = .swept cause hang → l.desc.sigAddr = 0 → ∃ t, exec (.teamCompletion k) s = .next t ∧
      t.launch (teamLaunch k) = none ∧ (∀ c, (t.core c).owner ≠ some (teamLaunch k)) ∧
      report s t (teamLaunch k) l (if hang = true then 5 else 4) (if hang = true then 0 else cause))) ∧
  (∀ s, s.leaves ≠ [] → s.dev.periodStart + 1000000 ≤ s.now → ∃ t, exec .periodStart s = .next t ∧
    t.dev.periodStart = s.now / 1000000 * 1000000 ∧ ∀ n, t.leaf n = (s.leaf n).map fun l => { l with used := 0 }) ∧
  (∀ s n l, s.leaf n = some l →
    let evicts (t : State) (p : Nat → Prop) : Prop := ∀ k m, s.launch k = some m → m.leaf = n → (m.st = .running ∨ m.st = .granted) → p k →
      ∃ m', t.launch k = some m' ∧ m'.st = .evicting ∧ m'.since = s.now
    (l.timeLeft = false → s.runningOn n none ≠ [] → ∃ t, exec (.sliceEnd n) s = .next t ∧ evicts t fun _ => True) ∧
    (l.timeLeft = true → s.turnOf n l = l.turn → s.hasLaunch l.turn = true → l.sliceStart + (s.vf l.turn).slice.toNat * 1000 ≤ s.now →
      (∀ u, s.nextTurn n l.turn = some u → u ≠ l.turn → ∃ t y, exec (.sliceEnd n) s = .next t ∧ (evicts t fun k => launchVf k = l.turn) ∧
        t.leaf n = some y ∧ y.turn = u ∧ y.sliceStart = s.now) ∧
      (s.nextTurn n l.turn = none → ∃ t, exec (.sliceEnd n) s = .next t ∧ t.leaf n = some { l with sliceStart := s.now } ∧
        t.launches = s.launches))) ∧
  (∀ s k m u y, s.launch k = some m → s.launchRests k = true → s.poolFor m.leaf (s.teamsOf k) = true → s.teamsOf k = [u] → s.team u = some y →
    y.st = .running →
    let saved (t : State) : Prop := left t y.core (.left k) ∧ ∃ z f, t.team u = some z ∧ z.st = .saved ∧ z.frame = some f ∧
      f.bytes = y.frameBytes (s.core y.core) (teamSa m.desc) m.desc.cs.toNat ∧ (∀ j, SMap.find f.hauls j =
        (SMap.find (s.core y.core).hauls j).map fun h => { h with acc := none }) ∧ f.rets = (s.core y.core).rets
    (m.st = .evicting → ∃ t z, exec (.sliceEndEviction k) s = .next t ∧ t.launch k = some z ∧ z.st = .evicted ∧ saved t) ∧
    (∀ quota, m.st = .stopping quota → ∃ t z, exec (.stopComplete k) s = .next t ∧ t.launch k = some z ∧ z.st = .stopped quota ∧ saved t ∧
      report s t k m (if quota = true then 7 else 6) 0)) ∧
  (∀ (y : Team) (c : Core) sa cs, sa ≤ frameTags → cs ≤ 131072 → SMap.sorted c.tiles = true →
    let b := y.frameBytes c sa cs
    (∀ a, a < sa → Store.rd b a = Store.rd c.scratch a) ∧
    (∀ i, i < 256 → (Store.rd b (0x080000 + i / 2)).toNat / 16 ^ (i % 2) % 16 = (Store.rd c.tags i).toNat) ∧
    (∀ i, i < 16 → Store.load b (0x080080 + 8 * i) 8 = (y.bar i).bits) ∧
    (∀ i, i < 256 → Store.load b (0x080100 + 2 * i) 2 = (Store.rd c.books i).toNat) ∧
    Store.load b 0x080300 8 = y.tilemap.toNat ∧ (∀ a, a < cs → Store.rd b (0x100000 + a) = Store.rd c.clu a) ∧
    ∀ a, y.tilemap.getLsbD (a / 16384) = true → Store.load b (0x200000 + 4 * a) 4 = (Store.rd c.tiles a).toNat) ∧
  (∀ s k m l, s.team k = some m → s.launch (teamLaunch k) = some l → l.desc.cs = 0 → s.poolFor l.leaf [k] = true → l.st = .running →
    (m.st = .running → s.outranked (teamLaunch k) l = true → s.allWait k m.core = true → ∃ t y, exec (.blockingPointEviction k) s = .next t ∧
      t.team k = some y ∧ y.st = if s.quiet (s.withTeam k m.core) = true then .saved else .saving) ∧
    (m.st = .saving → s.allWait k m.core = false → ∃ t, exec (.blockingPointEviction k) s = .next t ∧
      t.team k = some { m with st := .running })) ∧
  (∀ s k m l leaf, s.team k = some m → s.launch (teamLaunch k) = some l → l.desc.cs = 0 → m.st = .saved →
    (l.st = .running ∨ l.st = .evicted) → s.leaf l.leaf = some leaf → leaf.timeLeft = true → s.dispatches = true →
    s.serves (launchVf (teamLaunch k)) = true → s.turnOf l.leaf leaf = launchVf (teamLaunch k) → s.firstWaiting l.leaf leaf = none →
    (∀ c, m.to_ = none → s.placesFor leaf l.desc [m.core] = some [c] → ∃ t, exec (.teamRestore k) s = .next t ∧
      t.team k = some { m with to_ := some c } ∧ (t.core c).owner = some (teamLaunch k)) ∧
    (∀ c f, m.to_ = some c → m.frame = some f → (s.core c).scrub = none → f.rets = [] → ∃ t, exec (.teamRestore k) s = .next t ∧
      t.team k = some { m with st := .running, core := c, bars := f.bars, tilemap := f.tilemap, frame := none, to_ := none, idle := 0 } ∧
      (∀ a, a < 0x080000 → Store.rd (t.core c).scratch a = Store.rd f.bytes a) ∧
      (∀ i, i < 256 → (Store.rd (t.core c).tags i).toNat = (Store.rd f.bytes (0x080000 + i / 2)).toNat / 16 ^ (i % 2) % 8) ∧
      (∀ i, i < 256 → (Store.rd (t.core c).books i).toNat = Store.load f.bytes (0x080100 + 2 * i) 2) ∧
      (∀ a, a < 131072 → Store.rd (t.core c).clu a = Store.rd f.bytes (0x100000 + a)) ∧
      (SMap.sorted f.bytes = true → ∀ a, a < 2 ^ 20 → (Store.rd (t.core c).tiles a).toNat = Store.load f.bytes (0x200000 + 4 * a) 4) ∧
      f.tilemap.toNat = Store.load f.bytes 0x080300 8 ∧ (t.core c).hauls = f.hauls ∧ (t.core c).team = some k ∧
      (∃ y, t.launch (teamLaunch k) = some y ∧ y.st = .running) ∧
      ∀ j g, s.group j = some g → teamOf j = k → g.res ≠ .guest → ∃ h, t.group j = some h ∧ h.core = c)) ∧
  (∀ s k g l, s.group k = some g → s.launch (launchOf k) = some l → l.saving = true → g.active = true → l.since + 20000 ≤ s.now →
    ∃ t h, exec (.forcedFullSave k) s = .next t ∧ t.group k = some h ∧ h.active = false ∧ h.full = true ∧ h.saved = g.latches ∧
      h.entries = g.entries ∧ SameHeader g h ∧ ∀ n, n < 4 → h.lv.getLsbD n = (SMap.find g.latches n).isSome) ∧
  ∀ s k m l, s.team k = some m → s.launch (teamLaunch k) = some l → m.placed = true → s.teamEnded k = false →
    (∀ c h, l.st ≠ .killed c h ∧ l.st ≠ .swept c h) → l.desc.wdog ≠ 0 →
    l.desc.wdog.toNat * 1000 ≤ m.idle → ∃ t y, exec (.hang k) s = .next t ∧ t.launch (teamLaunch k) = some y ∧ y.st = .killed 0 true

/-- Posting charges its accounts and declares exhaustion; shared costs and residuals are divided; throttling, shutdown, quotas,
windows; what the rules leave open here is the model's choice, log 7, 50, 66, 80, 85, 95 (R25, R27, R28, R229, R230, R232, R233,
R234, R235, R236, R237, R278). -/
def Obligations.EnergyIsCharged : Prop :=
  (∀ s c k x y, s.unposted = [c] → c.payer = .team k → s.badMeter c = false → s.team k = some y → s.launch (teamLaunch k) = some x →
    let v := launchVf (teamLaunch k)
    let m := c.n * (s.vf v).coefOf c.cls
    let used := if (s.vf v).quota = 0 then (s.vf v).used else (s.vf v).used + m
    let accounts (d n d' n' : Acct) : Prop := if c.nd = true then d' = d ∧ n' = n.add m else d' = d.add m ∧ n' = n
    ∃ t x' y', exec .posting s = .next t ∧ t.dev.lastPost = s.now ∧ (t.vf v).acct = (s.vf v).acct.add m ∧ (t.vf v).used = used ∧
      (t.vf v).dyn = (s.vf v).dyn + m ∧ t.launch (teamLaunch k) = some x' ∧ accounts x.acctD x.acctN x'.acctD x'.acctN ∧
      t.team k = some y' ∧ accounts y.acctD y.acctN y'.acctD y'.acctN ∧
      let spent := x.budget ≠ 0 ∧ x.budget ≤ Acct.sum x'.acctD x'.acctN
      let over_ := (s.vf v).quota ≠ 0 ∧ (s.vf v).quota.toNat * 1000000 ≤ used
      (x.st = .running → y.st ≠ .done → spent → x'.st = .stopping false ∧ x'.since = s.now) ∧
      (x.st = .running → y.st ≠ .done → ¬spent → over_ → x'.st = .stopping true ∧ x'.since = s.now) ∧
      (¬spent → ¬over_ → x'.st = x.st ∧ t.unposted = [])) ∧
  (∀ s c, s.unposted = [c] → c.payer = .house → ∃ t, exec .posting s = .next t ∧ t.unposted = [] ∧
    t.dev.house = s.dev.house.add (c.n * Config.coef c.cls) ∧ t.vfs = s.vfs ∧ t.launches = s.launches) ∧
  (∀ (a : Acct) c, a.nj + (a.fj + c) / 1000000 < 2 ^ 64 → (a.add c).nj * 1000000 + (a.add c).fj = a.nj * 1000000 + a.fj + c ∧ (a.add c).fj < 1000000) ∧
  (∀ s cost uncore firmware n l, s.input = some (.sharedCosts [] [cost] uncore firmware) → s.dev.sharedAt + 1000000 ≤ s.now →
    SMap.sorted s.vfs = true →
    s.leaves.find? (fun kl => kl.2.conf.cores.contains 0) = some (n, l) →
    let ran (v : Nat) : Nat := (Store.rd (s.vf v).runtime 0).toNat
    let total := ((s.vfsOf n).map ran).sum
    total ≠ 0 → ∃ t, exec .sharedCosts s = .next t ∧
      (∀ v ∈ s.vfsOf n, (t.vf v).acct = (s.vf v).acct.add (cost * ran v / total) ∧ (t.vf v).runtime = []) ∧
      t.dev.house = ((s.dev.house.add (cost - ((s.vfsOf n).map fun v => cost * ran v / total).sum)).add uncore).add firmware) ∧
  (∀ s cost uncore firmware, s.input = some (.sharedCosts [cost] [] uncore firmware) → s.dev.sharedAt + 1000000 ≤ s.now → SMap.sorted s.vfs = true → ∃ t, exec .sharedCosts s = .next t ∧
    ∀ v ∈ s.liveVfs, (t.vf v).acct = (s.vf v).acct.add (cost * s.bytesOn v 0 / (48 * 2 ^ 30))) ∧
  (∀ s em, s.input = some (.reconciliation em) → s.dev.intervalStart + 1000000 ≤ s.now → s.unposted = [] → SMap.sorted s.vfs = true →
    let r := absDiff em s.dev.interval
    let total := (s.liveVfs.map fun v => (s.vf v).dyn).sum
    let share (v : Nat) : Nat := r * (s.vf v).dyn / total
    let put (a : Acct) (n : Nat) : Acct := if em < s.dev.interval then a.sub n else a.add n
    ∃ t, exec .reconciliation s = .next t ∧ t.dev.interval = 0 ∧ t.dev.intervalStart = s.now ∧ (∀ v, (t.vf v).dyn = 0) ∧
      (r * 50 ≤ em → total ≠ 0 → (∀ v ∈ s.liveVfs, (t.vf v).acct = put (s.vf v).acct (share v)) ∧
        t.dev.house = put s.dev.house (r - (s.liveVfs.map share).sum) ∧ t.dev.meterLog = s.dev.meterLog) ∧
      (em < r * 50 → (∀ v, (t.vf v).acct = (s.vf v).acct) ∧ t.dev.house = put s.dev.house r ∧
        t.dev.meterLog = s.dev.meterLog ++ [s.dev.intervalStart] ∧ ∃ a ∈ t.dev.auditQ, a.typ = 0x09)) ∧
  (∀ s die down cause, s.input = some (.throttleStep die down cause) → ∃ t, exec .throttleStep s = .next t ∧
    let d := s.die die
    ((t.die die).throttle, (t.die die).idleSlots) = (if down = true then (if d.throttle < 36 then (d.throttle + 1, d.idleSlots) else (d.throttle, true))
      else if d.idleSlots = true then (d.throttle, false) else (d.throttle - 1, false)) ∧
    (t.die die).claims = d.claims ∧ t.dev.throttleLog = s.dev.throttleLog ++ [(cause, die, s.now)]) ∧
  (∀ s dies, s.input = some (.thermalShutdown dies) → ∃ t, exec .thermalShutdown s = .next t ∧ t.dev.shut = true ∧
    (∀ i, i < 64 → t.dev.ready.getLsbD i = (s.dev.ready.getLsbD i && !dies.any fun d => (decide (d < 8) && i == 9 + d) || (d == 8 && i == 33))) ∧
    (∃ a ∈ t.dev.auditQ, a.typ = 0x0A) ∧ t.groups = s.groups ∧ ∀ a, t.byteAt a = s.byteAt a) ∧
  (∀ s v quota, s.input = some (.quotaWrite v quota) → ∃ t, exec .quotaWrite s = .next t ∧
    t.vf v = { s.vf v with quota := quota, used := if (s.vf v).quota = 0 then 0 else (s.vf v).used } ∧ ∀ u, u ≠ v → t.vf u = s.vf u) ∧
  ∀ s n l, s.leaf n = some l → l.window ≠ [] → SMap.sorted l.window = true → l.windowAt + 1000 ≤ s.now →
    ∃ t y, exec (.rateLimiterWindow n) s = .next t ∧ t.leaf n = some y ∧ y.windowAt = s.now ∧
      ∀ c, (Store.rd y.window c).toNat = (Store.rd l.window c).toNat - l.conf.bandwidth * 1000

/-- Audit records chain and seal; scrubs, errors, self-tests, reset, bring-up and updates are recorded; stage 2 and SUPV are
digested; what the rules leave open here is the model's choice, log 52, 53, 55, 60 (R141, R287, R305, R306, R308, R309, R310, R312,
R313, R315, R316, R317). -/
def Obligations.TheLogAndErrorsAreKept : Prop :=
  let appended (d e : Device) (now : Nat) (r : AuditReq) : Prop :=
    let head := bytesOf 64 (auditHead d.auditNext now r)
    let bytes := head ++ digestBytes (sha512 (d.prior ++ head))
    e.auditNext = d.auditNext + 1 ∧ e.chain = sha512 (d.prior ++ head) ∧ e.prior = bytes ∧
      ((d.auditNext + 1) % 1024 ≠ 0 → e.audit = d.audit ++ [{ seq := d.auditNext, bytes := BitVec.ofNat 1024 (ofBytes bytes) }] ∧ e.seals = d.seals) ∧
      ((d.auditNext + 1) % 1024 = 0 → ∃ x, SMap.find e.seals (d.sealNext % 32) = some x ∧ x.seq = BitVec.ofNat 64 d.auditNext ∧
        (x.r ++ x.s) = Config.sign e.chain)
  (∀ s r, s.dev.lost = 0 → s.dev.auditQ.find? (fun q => s.dev.auditRoom q.typ) = some r →
    ∃ t, exec .auditAppend s = .next t ∧ appended s.dev t.dev s.now r ∧ t.dev.auditQ = s.dev.auditQ.erase r ∧ t.groups = s.groups ∧
      ∀ a, t.byteAt a = s.byteAt a) ∧
  (∀ s, s.dev.lost ≠ 0 → s.dev.audit.length < 16384 → ∃ t r, exec .auditAppend s = .next t ∧ r.typ = 0x0C ∧
    r.payload = BitVec.ofNat 320 s.dev.lost ∧ appended s.dev t.dev s.now r ∧ t.dev.lost = 0) ∧
  (∀ seq now (r : AuditReq), auditHead seq now r % 2 ^ 64 = seq % 2 ^ 64 ∧ auditHead seq now r / 2 ^ 128 % 2 ^ 8 = r.typ.toNat ∧
    auditHead seq now r / 2 ^ 192 = r.payload.toNat) ∧
  (∀ s v, s.input = some (.drainedWrite v) → ∃ t, exec .drainedWrite s = .next t ∧ t.dev.drained = max s.dev.drained v.toNat ∧
    ∀ r, r ∈ t.dev.audit ↔ r ∈ s.dev.audit ∧ ¬(r.seq < max s.dev.drained v.toNat ∧ ∃ x ∈ s.dev.seals, r.seq ≤ x.2.seq.toNat)) ∧
  (∀ s, s.input = some .sealreq → s.dev.auditNext ≠ 0 → ∃ t x, exec .sealreq s = .next t ∧
    SMap.find t.dev.seals (s.dev.sealNext % 32) = some x ∧ x.seq = BitVec.ofNat 64 (s.dev.auditNext - 1) ∧
    (x.r ++ x.s) = Config.sign s.dev.chain ∧ t.dev.sealNext = s.dev.sealNext + 1) ∧
  (∀ s c l, (s.core c).scrub = some (.due l) → (∀ k g, s.group k = some g → g.core = c → g.active = false) →
    ∃ t, exec (.scrub c) s = .next t ∧ ((s.vf (launchVf l)).quota = 0 → ∀ a, t.byteAt a = s.byteAt a) ∧
    let k := t.core c
    k.scratch = [] ∧ k.tags = [] ∧ k.clu = [] ∧ k.tiles = [] ∧ k.books = [] ∧ k.l1 = [] ∧ k.icache = [] ∧ k.scrub = some (.record l) ∧
    (∀ y ∈ k.tlb, y.vf ≠ launchVf l) ∧ k.clock = (s.core c).clock) ∧
  (∀ s c l, (s.core c).scrub = some (.record l) → s.dev.auditQ = [] → s.dev.lost = 0 → s.dev.auditRoom 0x05 = true →
    ∃ t r, exec (.scrubComplete c) s = .next t ∧ (t.core c).scrub = none ∧ r.typ = 0x05 ∧ r.vf = BitVec.ofNat 11 (launchVf l) ∧
      appended s.dev t.dev s.now r) ∧
  (∀ s unit kind syn bad, s.input = some (.errorDetected unit kind syn bad) → ∃ t, exec .errorDetected s = .next t ∧
    unit ∈ t.dev.testing ∧ (∃ r, t.dev.auditQ = s.dev.auditQ ++ [r] ∧ r.typ = 0x06) ∧
    (∀ a ∈ bad, t.poisoned a = true) ∧ (∀ a, a ∉ bad → t.poisoned a = s.poisoned a) ∧ (∀ a, t.byteAt a = s.byteAt a) ∧
    ∀ c, unit = .array c → (t.core c).sawHeld = true) ∧
  (∀ s unit bad, s.input = some (.selfTest unit bad) → ∃ t, exec .selfTest s = .next t ∧
    (∃ r, t.dev.auditQ = s.dev.auditQ ++ [r] ∧ r.typ = 0x07) ∧ t.dev.testing = s.dev.testing.erase unit ∧
    (bad = false → t.launches = s.launches ∧ t.dev.degraded = s.dev.degraded) ∧
    (∀ c, unit = .array c → (t.core c).sawHeld = false ∧ (bad = true → (t.core c).retired = true ∧
      ∀ k m, (s.core c).team = some k → s.launch (teamLaunch k) = some m → m.st = .running →
        ∃ m', t.launch (teamLaunch k) = some m' ∧ m'.st = .killed 0x38 false)) ∧
    (∀ k, unit = .weighbridge k → bad = true → k ∈ t.dev.badMeters)) ∧
  (∀ s, s.input = some .deviceReset → ∃ t, exec .deviceReset s = .next t ∧ t.groups = [] ∧ t.teams = [] ∧ t.launches = [] ∧
    t.cores = [] ∧ t.dies = [] ∧ t.fns = [] ∧ t.vfs = [] ∧ t.leaves = [] ∧ t.accs = [] ∧ t.dev.ready = 0 ∧ t.now = 0 ∧
    ∀ a, t.byteAt a = if isHost a = true then s.byteAt a else 0) ∧
  (∀ s bit, s.input = some (.unitBringup bit) → bit ≤ 50 → bit ∉ s.dev.failed → ∃ t, exec .unitBringup s = .next t ∧
    ∀ i, i < 64 → t.dev.ready.getLsbD i = (s.dev.ready.getLsbD i || i == bit)) ∧
  (∀ s n image, s.input = some (.firmwareUpdate (.function n) image) → n < 8 → Config.imageOk (sha512 image) = true →
    ∃ t, exec .firmwareUpdate s = .next t ∧ (∃ r, t.dev.auditQ = s.dev.auditQ ++ [r] ∧ r.typ = 0x02) ∧
      Store.rd t.dev.measures (2 + n) = sha512 (digestBytes (Store.rd s.dev.measures (2 + n)) ++ digestBytes (sha512 image)) ∧
      ∀ j, j ≠ 2 + n → Store.rd t.dev.measures j = Store.rd s.dev.measures j) ∧
  (∀ s v w, s.input = some (.stage2Change v [w]) → ∃ t, exec .stage2Change s = .next t ∧
    Store.load t.mem (w.table + 8 * w.index) 8 = w.entry.toNat ∧ t.dev.s2digest = t.s2Digest ∧
    Store.rd t.dev.measures 11 = sha512 (digestBytes (Store.rd s.dev.measures 11) ++ digestBytes t.s2Digest) ∧
    ∀ c y, y ∈ (t.core c).tlb ∨ y ∈ (t.die c).tlb → y.vf = v → y.va < 2 ^ 57 → y.size = 0) ∧
  ∀ s v va len key r sg, s.input = some (.supvWrite v va len key r sg) →
    ((s.vf v).tdi = .run → ∃ t, exec .supvWrite s = .next t ∧ (t.vf v).tdi = .error) ∧
    ((s.vf v).tdi = .unlocked → s.launchesOf v = [] → 1 ≤ len → len ≤ 2 ^ 18 → ∀ bs, s.imageBytes v va.toNat len = some bs →
      sha512 (bytesBe 133 key.toNat) = (s.vf v).sigkey → Config.verify key (sha512 bs) r sg = true →
      ∃ t, exec .supvWrite s = .next t ∧ (t.vf v).supvLen = len ∧ (t.vf v).supvDigest = sha512 bs ∧
        ∀ i b, i < bs.length → bs[i]? = some b → t.byteAt ((t.vf v).supvHome + i) = b)

/-- Register writes, partitions, VF creation, reset and release, RESIDENT and CHECKPOINT do what chapter 11 says or change nothing;
what the rules leave open here is the model's choice, log 53, 54, 56, 70, 102 (R226, R267, R268, R269, R278, R282, R283, R285, R287,
R310, R312). -/
def Obligations.FunctionsAreConfigured : Prop :=
  let killed (s t : State) (v : Nat) : Prop := ∀ l m, s.launch l = some m → launchVf l = v → m.st = .running →
    ∃ m', t.launch l = some m' ∧ m'.st = .killed 0x38 false
  (∀ s fn off v, s.input = some (.registerWrite fn off v) → ∃ t, exec .registerWrite s = .next t ∧
    let o := off / 4 * 4
    let free := fn < 1024 → (s.vf fn).isLocked = false
    (∀ q, q < 16 → o = 32 * q → free → ((t.fn fn).queue q).en = v.getLsbD 0 ∧ ((t.fn fn).queue q).cls = v.extractLsb' 1 2 ∧
      ((t.fn fn).queue q).sz = v.extractLsb' 4 3 ∧ ((t.fn fn).queue q).head = ((s.fn fn).queue q).head) ∧
    (∀ q, q < 16 → o = 0x200 + 4 * q → s.waitsigs (fun f _ => f == fn) = [] → ((t.fn fn).queue q).tail = v.setWidth 16) ∧
    (o = 0x408 → (t.fn fn).ring = { (s.fn fn).ring with k := v.setWidth 5 }) ∧
    (o = 0x410 → (t.fn fn).ring = { (s.fn fn).ring with cons := v }) ∧
    (o = 0x500 → t.fn fn = { s.fn fn with meterSel := v }) ∧
    (o = 0x800 → free → (t.fn fn).s1root = (s.fn fn).s1root.extractLsb' 32 32 ++ v) ∧
    ((o < 0x200 ∧ (o % 32 = 4 ∨ o % 32 = 8 ∨ o % 32 = 12)) ∨ o = 0x400 ∨ o = 0x404 ∨ o = 0x800 ∨ o = 0x804 ∨ (0x810 ≤ o ∧ o < 0x820) ∨
      (0x1000 ≤ o ∧ o < 0x1200) → fn < 1024 → (s.vf fn).isLocked = true → (t.vf fn).tdi = .error) ∧
    (0x1200 ≤ o → fn ≠ 1024 → t = s)) ∧
  (∀ s c, s.input = some (.partitionConfiguration c) →
    let busy := ∃ kl ∈ s.launches, kl.2.leaf ∈ s.changed c
    (s.dev.auditFull = true ∨ confOk s.dev.ready c = false ∨ busy → exec .partitionConfiguration s = .next s) ∧
    (s.dev.auditFull = false → confOk s.dev.ready c = true → ¬busy → ∃ t, exec .partitionConfiguration s = .next t ∧
      (∀ n l, (n, l) ∈ c.leaves → ∃ y, t.leaf n = some y ∧ y.conf = l) ∧
      (∀ n, (∀ x ∈ c.leaves, x.1 ≠ n) → t.leaf n = none) ∧ t.dev.parts = c.parts ∧
      Store.rd t.dev.measures 13 = sha512 (digestBytes (Store.rd s.dev.measures 13) ++ digestBytes (sha512 (confBytes c))) ∧
      (∃ r ∈ t.dev.auditQ, r.typ = 0x03) ∧
      ∀ k a b, k < 128 → ownerOf (s.leaves.map fun kl => (kl.1, kl.2.conf)) k = some a → ownerOf c.leaves k = some b → a ≠ b →
        (t.core k).scratch = [] ∧ (t.core k).tiles = [] ∧ (t.core k).l1 = [])) ∧
  (∀ ready c, confOk ready c = true →
    (∀ a ∈ c.leaves, ∀ b ∈ c.leaves, a ≠ b → a.1 ≠ b.1 ∧ ∀ k ∈ a.2.cores, k ∉ b.2.cores) ∧
    (∀ a ∈ c.leaves, ∀ k ∈ a.2.cores, k < 128 ∧ 1 ≤ nth a.2.l2ways (dieOf k)) ∧
    ∀ d, d < 8 → (c.parts.map fun p => nth p.2.l2ways d).sum ≤ 16) ∧
  (∀ s v leaf policy root, s.input = some (.vfCreation v leaf policy root) →
    let bad := s.dev.auditFull = true ∨ 1024 ≤ v ∨ (s.vf v).live = true ∨ s.leaf leaf = none ∨ BitVec.ofNat 8 policy ∉ s.dev.images
    (bad → exec .vfCreation s = .next s) ∧
    (¬bad → ∃ t, exec .vfCreation s = .next t ∧
      t.vf v = { live := true, leaf := BitVec.ofNat 6 leaf, pinver := BitVec.ofNat 8 policy, s2root := root } ∧ t.fn v = {} ∧
      (∃ r, t.dev.auditQ = s.dev.auditQ ++ [r] ∧ r.typ = 0x04 ∧ r.vf = BitVec.ofNat 11 v) ∧ ∀ u, u ≠ v → t.vf u = s.vf u ∧ t.fn u = s.fn u)) ∧
  (∀ s v policy, s.input = some (.vfReset v policy) → (s.vf v).live = true → BitVec.ofNat 8 policy ∈ s.dev.images →
    ∃ t, exec .vfReset s = .next t ∧ killed s t v ∧ (t.vf v).pinver = BitVec.ofNat 8 policy ∧
      (∀ q, ((t.fn v).queue q).en = false) ∧ ∀ a, t.byteAt a = s.byteAt a) ∧
  (∀ s v, s.input = some (.vfRelease v) → (s.vf v).live = true → ∃ t, exec .vfRelease s = .next t ∧ killed s t v ∧
    (t.vf v).en = false ∧ v ∈ t.dev.releasing) ∧
  (∀ s v, s.input = none → s.dev.releasing.find? s.vfIdle = some v → ∃ t, exec .vfRelease s = .next t ∧ t.vf v = {} ∧ t.fn v = {} ∧
    (∀ a, t.byteAt a = if (s.ownPages v).any (fun p => decide (p.1 ≤ a) && decide (a < p.1 + p.2)) = true then 0 else s.byteAt a) ∧
    ∀ c y, y ∈ (t.core c).l1 → y.vf ≠ v) ∧
  (∀ s v on, s.input = some (.residentWrite v on) → ∃ t, exec .residentWrite s = .next t ∧ t.vf v = { s.vf v with resident := on }) ∧
  (∀ s v, s.input = some (.checkpoint v) → ∃ t, exec .checkpoint s = .next t ∧ (t.vf v).ckpt = true ∧ v ∈ t.dev.ckpts ∧ t.serves v = false) ∧
  ∀ s v p n, s.input = none → s.dev.ckpts.find? s.drained = some v → s.walk v (s.vf v).clog = .ok p n → p.cls = 1 → p.wr = true →
    isDev p.home = true → ∃ t, exec .checkpoint s = .next t ∧ (t.vf v).ckpt = false ∧ (t.vf v).migr = !(s.vf v).hasWindows ∧ (t.vf v).logging = true ∧
      (t.vf v).logPos = 64 ∧ (t.vf v).logSeq = 1 ∧ t.dev.ckpts = s.dev.ckpts.erase v

/-- The SPDM responder answers in order, signing what was exchanged; a session programs IDE streams; TDIs are locked, started,
stopped; what the rules leave open here is the model's choice, log 9, 68, 72 (R280, R281, R282, R307). -/
def Obligations.TheTrustedInterfaceAnswers : Prop :=
  let answers (s t : State) (r : Resp) : Prop := t.dev.answers = r :: s.dev.answers
  (∀ s, s.input = some .getVersion → ∃ t, exec .getVersion s = .next t ∧ answers s t (.version 0x13) ∧ t.dev.spdm.phase = 1 ∧
    t.dev.spdm.session = none) ∧
  (∀ s ver flags, s.input = some (.getCapabilities ver flags) →
    (s.dev.spdm.phase = 0 → ∃ t, exec .getCapabilities s = .next t ∧ answers s t (.error 4) ∧ t.dev.spdm = s.dev.spdm) ∧
    (1 ≤ s.dev.spdm.phase → ver = 0x13 → ∃ t, exec .getCapabilities s = .next t ∧ answers s t (.capabilities Config.spdmFlags) ∧
      t.dev.spdm.phase = 2)) ∧
  (∀ s asym hash dhe aead, s.input = some (.negotiateAlgorithms asym hash dhe aead) → 2 ≤ s.dev.spdm.phase →
    (asym.getLsbD 8 = true → hash.getLsbD 2 = true → dhe.getLsbD 5 = true → aead.getLsbD 1 = true →
      ∃ t, exec .negotiateAlgorithms s = .next t ∧ answers s t .algorithms ∧ t.dev.spdm.phase = 3) ∧
    (asym.getLsbD 8 = false ∨ hash.getLsbD 2 = false ∨ dhe.getLsbD 5 = false ∨ aead.getLsbD 1 = false →
      ∃ t, exec .negotiateAlgorithms s = .next t ∧ answers s t (.error 1) ∧ t.dev.spdm = s.dev.spdm)) ∧
  (∀ s, s.input = some .getDigests → 3 ≤ s.dev.spdm.phase → ∃ t, exec .getDigests s = .next t ∧
    answers s t (.digests (sha512 Config.certificate))) ∧
  (∀ s off len, s.input = some (.getCertificate 0 off len) → 3 ≤ s.dev.spdm.phase → ∃ t, exec .getCertificate s = .next t ∧
    answers s t (.certificate ((Config.certificate.drop off.toNat).take len.toNat))) ∧
  (∀ s nonce, s.input = some (.challenge 0 nonce) → 3 ≤ s.dev.spdm.phase → ∃ t, exec .challenge s = .next t ∧
    t.dev.spdm = s.dev.spdm.note 0x83 (bytesOf 32 nonce.toNat ++ digestBytes s.dev.summary) ∧
    answers s t (.challengeAuth (sha512 Config.certificate) (Config.sign t.dev.spdm.transcript))) ∧
  (∀ s op sign nonce, s.input = some (.getMeasurements op sign nonce) → 3 ≤ s.dev.spdm.phase → ∃ t, exec .getMeasurements s = .next t ∧
    let sig := if sign = true then some (Config.sign t.dev.spdm.transcript) else none
    (op = 0 → answers s t (.measurements [] sig)) ∧
    (1 ≤ op.toNat → op.toNat ≤ 32 → answers s t (.measurements [(op.toNat, Store.rd s.dev.measures (op.toNat - 1))] sig)) ∧
    (op = 0xFF → ∃ bs, bs.length = 32 ∧ answers s t (.measurements bs sig) ∧ ∀ m, m < 32 → bs[m]? = some (m + 1, Store.rd s.dev.measures m)) ∧
    (32 < op.toNat → op ≠ 0xFF → answers s t (.error 1))) ∧
  (∀ s ses random point, s.input = some (.keyExchange ses random point) → 3 ≤ s.dev.spdm.phase → ∃ t, exec .keyExchange s = .next t ∧
    t.dev.spdm.session = some (Config.sessionId ses, false) ∧
    answers s t (.keyExchange (Config.sessionId ses) (Config.sign t.dev.spdm.transcript))) ∧
  (∀ s ses verify, s.input = some (.sessionFinish ses verify) → s.dev.spdm.session = some (ses, false) → ∃ t,
    exec .sessionFinish s = .next t ∧
    (Config.finishOk ses verify = true → t.dev.spdm.session = some (ses, true) ∧ answers s t .finish) ∧
    (Config.finishOk ses verify = false → t.dev.spdm.session = none ∧ answers s t (.error 1))) ∧
  (∀ s ses, s.input = some (.endSession ses) → s.dev.spdm.session = some (ses, true) → ∃ t, exec .endSession s = .next t ∧
    t.dev.spdm.session = none ∧ answers s t .ended) ∧
  (∀ s ses v, s.input = some (.vendorDefinedMessage ses [0x82, BitVec.ofNat 8 v, BitVec.ofNat 8 (v / 256)]) → v < 1024 →
    s.dev.spdm.session = some (ses, true) → ∃ t, exec .vendorDefinedMessage s = .next t ∧
    answers s t (.report [(0, 65536)] v (s.vf v).leaf.toNat (s.vf v).pinver.toNat (s.vf v).supvDigest (s.vf v).coef (s.vf v).test ((s.vf v).stream.getD 256))) ∧
  (∀ s n first last key, s.input = some (.ideKmKeyProgramming n first last key) →
    (s.secured = false → ∃ t, exec .ideKmKeyProgramming s = .next t ∧ answers s t (.error 4) ∧ t.dev.streams = s.dev.streams) ∧
    (s.secured = true → n < 256 → ∃ t, exec .ideKmKeyProgramming s = .next t ∧ answers s t .ok ∧
      SMap.find t.dev.streams n = some { first := first, last := last, key := key } ∧
      ((SMap.find s.dev.streams n).isSome = true → ∀ v, (s.vf v).live = true → (s.vf v).stream = some n → (t.vf v).tdi = .error))) ∧
  (∀ s n, s.input = some (.ideIntegrityFailure n) → ∃ t, exec .ideIntegrityFailure s = .next t ∧
    (∀ v, (s.vf v).live = true → (s.vf v).stream = some n → (t.vf v).tdi = .error) ∧
    (SMap.sorted s.vfs = true → ∀ v, (s.vf v).stream ≠ some n → t.vf v = s.vf v)) ∧
  (∀ s v n, s.input = some (.lockInterface v) → s.covering v = [n] → (s.vf v).live = true → (s.vf v).tdi = .unlocked →
    ∃ t, exec .lockInterface s = .next t ∧ answers s t .ok ∧ t.vf v = { s.vf v with stream := some n, tdi := .locked }) ∧
  (∀ s v, s.input = some (.startInterface v) →
    ((s.vf v).tdi = .locked → ∃ t, exec .startInterface s = .next t ∧ answers s t .ok ∧ t.vf v = { s.vf v with tdi := .run }) ∧
    ((s.vf v).tdi ≠ .locked → ∃ t, exec .startInterface s = .next t ∧ answers s t (.error 4) ∧ t.vfs = s.vfs)) ∧
  ∀ s v, s.input = some (.stopInterface v) → (s.vf v).live = true → ∃ t, exec .stopInterface s = .next t ∧ answers s t .ok ∧
    (t.vf v).tdi = .unlocked ∧ (t.vf v).stream = none ∧ ∀ l m, s.launch l = some m → launchVf l = v → m.st = .running →
      ∃ m', t.launch l = some m' ∧ m'.st = .killed 0x38 false

/-- STOP marks and saves groups; a stopped one's record can be read, written, stepped, its parked fragments cancelled; RESUME lets
it go; what the rules leave open here is the model's choice, log 57, 58 (R260, R261, R262, R263, R264, R342, R88). -/
def Obligations.TheDebuggerStopsAndWrites : Prop :=
  let replies (s t : State) (r : DebugResp) : Prop := t.dev.debug = r :: s.dev.debug
  let inert (g : Group) : Prop := g.stopped = true ∧ g.active = false ∧ g.res ≠ .ended
  -- the record lies whole in a page that the device reaches, and the L1 of the group's core holds none of it
  let onePage (s : State) (k : Nat) (g : Group) (p : Xlat) : Prop := p.vf = vfOf k ∧ p.va ≤ s.recordVa k 0 ∧
    ∀ o, o < 0xC00 + 128 * g.bud → s.recordVa k o = s.recordVa k 0 + o ∧ s.recordVa k o < p.va + p.size ∧
      s.recXlat k g (s.recordVa k o) = some p ∧ ∀ x ∈ (s.core g.core).l1, x.vf = vfOf k → x.line ≠ p.at (s.recordVa k o) / 512
  -- no page table lies in the record
  let apart (s : State) (k a n : Nat) : Prop := ∀ m : Memory, (∀ b, b < a ∨ a + n ≤ b → Store.rd m b = s.byteAt b) →
    ∀ o, o < n → ({ s with mem := m }).walk (vfOf k) (s.recordVa k o) = s.walk (vfOf k) (s.recordVa k o)
  (∀ s byPf w, s.input = some (.debugStop byPf w) → ∃ t, exec .debugStop s = .next t ∧ replies s t .done ∧
    (byPf = true → ∃ r ∈ t.dev.auditQ, r.typ = 0x08) ∧
    (∀ l, s.launch (DebugScope_launch w) = some l → t.launch (DebugScope_launch w) = some { l with dbg := true }) ∧
    ∀ k g, s.group k = some g → DebugScope_has w k = true → g.res ≠ .ended → ∃ h, t.group k = some h ∧ h.stopped = true ∧ h.step = none ∧
      h.entries = g.entries ∧ SameHeader g h ∧ (g.active = true → s.stopReady k g = true → h.active = false ∧ h.full = true ∧ h.saved = g.latches)) ∧
  (∀ s k g, s.input = none → SMap.sorted s.groups = true →
    s.groups.find? (fun kg => kg.2.active && kg.2.stopped && kg.2.step.isNone && s.stopReady kg.1 kg.2) = some (k, g) →
    ∃ t h, exec .debugStop s = .next t ∧ t.group k = some h ∧ h.active = false ∧ h.full = true ∧ h.saved = g.latches ∧ h.entries = g.entries) ∧
  (∀ s byPf k off len g, s.input = some (.debugRead byPf k off len) → s.group k = some g → inert g → off + len ≤ 0xC00 + 128 * g.bud →
    ∃ t bs, exec .debugRead s = .next t ∧ replies s t (.bytes bs) ∧ bs.length = len ∧ (∀ i, i < len → bs[i]? = some (if 0xC00 ≤ off + i then s.recordAt k g (off + i) else Store.rd (s.shownHeader k g) (off + i))) ∧
      (∀ p n i b, onePage s k g p → n < g.bud → i < 32 → b < 4 →
        s.recordAt k g (0xC00 + 128 * n + 4 * i + b) = s.byteAt (p.at (s.recordVa k 0) + 0xC00 + 128 * n + 4 * i + b) ∧
        (g.isDead n = false → SMap.find g.lines n = none →
          s.recordAt k g (0xC00 + 128 * n + 4 * i + b) = (s.vAt k n i).extractLsb' (8 * b) 8)) ∧
      t.groups = s.groups ∧ ∀ a, t.byteAt a = s.byteAt a) ∧
  (∀ s byPf k off data g, s.input = some (.debugWrite byPf k off data) → s.group k = some g →
    (g.res ≠ .ended → g.active = true → ∃ t, exec .debugWrite s = .next t ∧ replies s t .refused ∧ t.groups = s.groups) ∧
    (g.res = .ended → ∃ t, exec .debugWrite s = .next t ∧ replies s t .done ∧ t.groups = s.groups ∧ ∀ a, t.byteAt a = s.byteAt a) ∧
    (inert g → g.started = true → ∀ b, off = 0xAE0 → data = [b] → ∃ t h, exec .debugWrite s = .next t ∧ replies s t .done ∧
      t.group k = some h ∧ h.cfault = (g.cfault && b.getLsbD 7) ∧ SameHeader g h ∧ h.entries = g.entries) ∧
    (inert g → ∀ n v, n < 128 → off = 0x200 + 4 * n → data = bytesOf 4 v → (∃ p ∈ g.pend, p.kind = .token ∧ p.reg = .s n) →
      ∃ t, exec .debugWrite s = .next t ∧ replies s t .pending ∧ t.groups = s.groups) ∧
    ∀ p, inert g → g.started = true → g.bud ≤ 256 → onePage s k g p →
      let a := p.at (s.recordVa k 0)
      apart s k a (0xC00 + 128 * g.bud) →
      (∀ n v, n < 128 → off = 0x200 + 4 * n → data = bytesOf 4 v → (∀ p ∈ g.pend, p.kind = .token → p.reg ≠ .s n) →
        ∃ t h, exec .debugWrite s = .next t ∧ replies s t .done ∧ t.group k = some h ∧ SameHeader g h ∧ h.entries = g.entries ∧
          (∀ i, i < 4 → some (Store.rd (t.shownHeader k h) (off + i)) = data[i]?) ∧
          (∀ o, o < 0xAE0 → o < off ∨ off + 4 ≤ o → Store.rd (t.shownHeader k h) o = Store.rd (s.shownHeader k g) o) ∧
          ∀ b, b < a ∨ a + hdrLen ≤ b → t.byteAt b = s.byteAt b) ∧
      ∀ n i v, n < g.bud → i < 32 → off = 0xC00 + 128 * n + 4 * i → data = bytesOf 4 v →
        ∃ t h, exec .debugWrite s = .next t ∧ replies s t .done ∧ t.group k = some h ∧ SameHeader g h ∧ h.entries = g.entries ∧
          h.isDead n = false ∧ (∀ j, j < 4 → some (t.byteAt (a + off + j)) = data[j]?) ∧
          (∀ b, a + hdrLen ≤ b → b < a + off ∨ a + off + 4 ≤ b → t.byteAt b = s.byteAt b) ∧
          (SMap.sorted g.lines = true → g.filling n = false → t.vAt k n i = BitVec.ofNat 32 v) ∧
          (g.isDead n = false → SMap.find g.lines n = none → ∀ j, j < 32 → j ≠ i → t.vAt k n j = s.vAt k n j)) ∧
  (∀ s byPf k frag g e, s.input = some (.debugStep byPf k frag) → s.group k = some g → inert g → g.step = none → g.entry frag = some e →
    e.st = .ready → g.cfault = false → g.move = none → g.queued = none →
    ∃ t h, exec .debugStep s = .next t ∧ replies s t .done ∧ t.group k = some h ∧ h.step = some frag ∧ h.queued.isSome = true ∧ h.stopped = true ∧
      h.entries = g.entries) ∧
  (∀ s byPf k frag g e, s.input = some (.debugCancel byPf k frag) → s.group k = some g → inert g → g.entry frag = some e → e.st = .parked →
    (g.entries.map Entry.frag).Nodup → SMap.sorted s.accs = true →
    (∀ kv ∈ s.accs, kv.2.grp = k → kv.2.lanes &&& e.mask ≠ 0 → kv.2.cancels = true ∧ kv.2.vf = vfOf k ∧ kv.2.lanes &&& ~~~e.mask = 0) →
    ∃ t, exec .debugCancel s = .next t ∧ replies s t .done ∧ (∀ n i, t.vAt k n i = s.vAt k n i) ∧ (∀ b, t.byteAt b = s.byteAt b) ∧
      (∀ id a, SMap.find s.accs id = some a → a.grp = k → a.lanes &&& e.mask ≠ 0 → SMap.find t.accs id = none) ∧
      StandsAt t k e.mask (if g.kept.any (fun x => x.lanes &&& e.mask != 0) = true then nextPc e.pc else e.pc) e.prio) ∧
  (∀ s byPf k w e g b, s.input = some (.debugCancelBor byPf k w.frag) → Waiter s k w e g → inert g → w.code = 4 →
    SMap.find g.bors w.arg.toNat = some b → ∃ t h, exec .debugCancelBor s = .next t ∧ replies s t .done ∧ t.group k = some h ∧
      h.reg w.arg.toNat = {} ∧ SMap.find h.bors w.arg.toNat = none ∧ StandsAt t k e.mask e.pc e.prio ∧
      (∀ d, d < 8 → s.borHome k b.region = some (d, false) →
        { instr := .withdraw d k (BitVec.ofNat 4 w.arg.toNat), route := claimRoute g.core d } ∈ t.pending) ∧
      ∀ x im, s.borHome k b.region = some (8, true) → apertureIdx b.region.base.toNat = some x →
        SMap.find (s.vf (vfOf k)).imports x = some im → ∃ r ∈ t.requests (vfOf k) im.rdev.toNat im.rvf.toNat,
          r.kind = .withdraw k (BitVec.ofNat 4 w.arg.toNat)) ∧
  ∀ s byPf w, s.input = some (.debugResume byPf w) → ∃ t, exec .debugResume s = .next t ∧ replies s t .done ∧
    ∀ k g, s.group k = some g → DebugScope_has w k = true → g.res ≠ .ended → ∃ h, t.group k = some h ∧ h.stopped = false ∧
      (g.stopped = true → h.step = none) ∧ h.entries = g.entries ∧
      (g.active = false → g.cfault = false → g.move = none → (∃ e ∈ g.entries, e.st = .ready) → h.queued.isSome = true)

/-- Windows are exported, imported, revoked and freed; requests of peers are served once; answers and timeouts end requests of this
device; what the rules leave open here is the model's choice, log 59, 73 (R289, R290, R292, R293, R294, R295, R296, R297, R298,
R300). -/
def Obligations.PeersExchangeRequests : Prop :=
  let conn (s : State) (vf dev rvf : Nat) : Option Conn := SMap.find s.dev.conns (connKey vf dev rvf)
  let rst (s : State) (c : Conn) (r : Req) (o : RemOp) : Prop := c.sent = [r] ∧ c.queue = [] ∧ (∃ a d, r.kind = .write a d) ∧
    SMap.find s.rems r.op = some o ∧ o.kind = .rst ∧ o.left = 1 ∧ o.fails = [] ∧ (s.group o.grp).isSome = true ∧
    s.remoteWaits o.core o.grp = false ∧ (s.die (dieOf o.core)).roomFor (s.leafOf o.grp) = true
  let ended (t : State) (vf dev rvf : Nat) (o : RemOp) (v : BitVec 32) : Prop :=
    t.sAt o.grp o.sd = v ∧ ∀ c, conn t vf dev rvf = some c → ∀ q ∈ c.sent, ∀ a d, q.kind ≠ .write a d
  (∀ s vf win e, s.input = some (.exportWindow vf win e) →
    let free := ∀ x, SMap.find (s.vf vf).exports win = some x → x.st = 0
    let shape := win < 4096 ∧ e.base.toNat % 65536 = 0 ∧ e.len.toNat % 65536 = 0 ∧ e.len ≠ 0
    ((s.vf vf).live = false ∨ ¬free ∨ ¬shape → exec .exportWindow s = .next s) ∧
    (∀ ps, (s.vf vf).live = true → free → shape →
      s.pageKinds vf (e.base.toNat + e.len.toNat) (e.len.toNat / 65536 + 1) e.base.toNat = some ps → exportPagesOk e.held ps = true →
      ∃ t, exec .exportWindow s = .next t ∧ SMap.find (t.vf vf).exports win = some { base := e.base, len := e.len, held := e.held, rd := e.rd, wr := e.wr, at_ := e.at_, st := 1, pdev := e.pdev, pvf := e.pvf } ∧ (conn t vf e.pdev.toNat e.pvf.toNat).isSome = true)) ∧
  (∀ s vf idx e, s.input = some (.importWindow vf idx e) →
    let free := ∀ x, SMap.find (s.vf vf).imports idx = some x → x.st = 0
    let good := (s.vf vf).live = true ∧ idx < 4095 ∧ free ∧ e.named = true ∧ (e.tmo = 0 ∨ (100 ≤ e.tmo.toNat ∧ e.tmo.toNat ≤ 100000))
    (¬good → exec .importWindow s = .next s) ∧
    (good → ∃ t, exec .importWindow s = .next t ∧ SMap.find (t.vf vf).imports idx = some { rdev := e.rdev, rvf := e.rvf, rwin := e.rwin, held := e.held, perm := e.perm, grain := e.grain, pgsz := e.pgsz, st := 1, len := e.len, tmo := e.tmo } ∧
      (conn t vf e.rdev.toNat e.rvf.toNat).isSome = true)) ∧
  (∀ s vf idx i, s.input = some (.importFree vf idx) → SMap.find (s.vf vf).imports idx = some i →
    (i.st = 2 → ∃ t, exec .importFree s = .next t ∧ SMap.find (t.vf vf).imports idx = none) ∧ (i.st ≠ 2 → exec .importFree s = .next s)) ∧
  (∀ s vf win e, s.input = some (.revoke vf win) → SMap.find (s.vf vf).exports win = some e →
    (e.st = 1 → ∃ t, exec .revoke s = .next t ∧ SMap.find (t.vf vf).exports win = some { e with st := 2, since := s.now } ∧
      ∃ r ∈ t.requests vf e.pdev.toNat e.pvf.toNat, r.kind = .notice ∧ r.win = win) ∧ (e.st ≠ 1 → exec .revoke s = .next s)) ∧
  (∀ s vf dev rvf rwin, s.input = some (.revocationNotice vf dev rvf rwin) → ∃ t, exec .revocationNotice s = .next t ∧
    ∀ i im, SMap.find (s.vf vf).imports i = some im → SMap.find (t.vf vf).imports i =
      some (if im.st = 1 ∧ im.rdev.toNat = dev ∧ im.rvf.toNat = rvf ∧ im.rwin.toNat = rwin then { im with st := 2 } else im)) ∧
  (∀ s vf win e, SMap.find (s.vf vf).exports win = some e → e.st = 2 →
    (s.peerClaims (peerMark (connKey vf e.pdev.toNat e.pvf.toNat) win) = false → s.flushDue vf e.pdev.toNat e.pvf.toNat win = false →
      ∃ t, exec (.revocationComplete vf win) s = .next t ∧ SMap.find (t.vf vf).exports win = none ∧ .revoked vf win ∈ t.dev.answers) ∧
    (e.swept = false → e.since + 1000000 ≤ s.now → (∀ d, ∀ c ∈ (s.die d).claims, c.2.st ≠ .wait) →
      ∃ t, exec (.peerGrantTimeout vf win) s = .next t ∧ SMap.find (t.vf vf).exports win = some { e with swept := true } ∧
        ∀ d n c, SMap.find (s.die d).claims n = some c → c.peer = some (peerMark (connKey vf e.pdev.toNat e.pvf.toNat) win) → c.st = .held →
          SMap.find (t.die d).claims n = some { c with st := .orphan })) ∧
  (∀ s grp vf tmo table n named, s.input = some (.multicastGroupRegistration grp vf tmo table n named) →
    let ms := (List.range n).map fun i => Member_ofBits (Store.load s.mem (table + 8 * i) 8)
    (4096 ≤ grp ∨ n = 0 ∨ 512 < n ∨ none ∈ ms ∨ named = false → exec .multicastGroupRegistration s = .next s) ∧
    ∀ l, grp < 4096 → 1 ≤ n → n ≤ 512 → ms = l.map some → named = true → (tmo = 0 ∨ (100 ≤ tmo ∧ tmo ≤ 100000)) →
      (l.map fun m => m.dev.toNat % 512).Nodup → (∀ m ∈ l, s.memberOk vf m = true) → ∃ t, exec .multicastGroupRegistration s = .next t ∧
      SMap.find t.dev.mcasts grp = some { vf := vf, tmo := if tmo = 0 then 1000 else tmo, members := l }) ∧
  (∀ s vf dev rvf win seq op c, s.input = some (.peerRequest vf dev rvf win seq op) → conn s vf dev rvf = some c → c.ended = false →
    c.spilled = false →
    let d := (seq - c.low).toNat
    (2 ^ 31 ≤ d → ∃ t b, exec .peerRequest s = .next t ∧ conn t vf dev rvf = some b ∧ b.out = (seq, .ok, []) :: c.out ∧
      ∀ a, t.byteAt a = s.byteAt a) ∧
    (4096 ≤ d → d < 2 ^ 31 → exec .peerRequest s = .next s) ∧
    (∀ a, d < 4096 → c.answered.find? (fun x => x.1 == seq) = some a → ∃ t b, exec .peerRequest s = .next t ∧ conn t vf dev rvf = some b ∧
      b.out = a :: c.out ∧ ∀ a, t.byteAt a = s.byteAt a) ∧
    ∀ e p k off, d < 4096 → c.answered.find? (fun x => x.1 == seq) = none → s.inService (connKey vf dev rvf) vf dev rvf win seq = false →
      SMap.find (s.vf vf).exports win = some e → e.st = 1 → e.pdev.toNat = dev → e.pvf.toNat = rvf → e.held = false →
      s.walk vf (e.base.toNat + off) = .ok p k → isPeer p.home = false →
      let fits (n : Nat) := 1 ≤ n ∧ off + n ≤ e.len.toNat ∧ e.base.toNat + off + n ≤ 2 ^ 57 ∧ p.va ≤ e.base.toNat + off ∧
        e.base.toNat + off + n ≤ p.va + p.size ∧ s.walk vf (e.base.toNat + off + n - 1) = .ok p k
      let home := p.at (e.base.toNat + off)
      (∀ n, op = .read off n → e.rd = true → fits n → p.vf = vf → p.deny (s.vf vf) (some 1) .ld = none → ∃ t b, exec .peerRequest s = .next t ∧
        conn t vf dev rvf = some b ∧ b.out = (seq, .ok, Store.bytes s.mem home n) :: c.out ∧ ∀ a, t.byteAt a = s.byteAt a) ∧
      (∀ bs, op = .write off bs → e.wr = true → fits bs.length → p.vf = vf → p.deny (s.vf vf) (some 1) .st = none → ∃ t b,
        exec .peerRequest s = .next t ∧ conn t vf dev rvf = some b ∧ b.out = (seq, .ok, []) :: c.out ∧
        Store.bytes t.mem home bs.length = bs ∧ ∀ a, a < home ∨ home + bs.length ≤ a → t.byteAt a = s.byteAt a)) ∧
  (∀ vf dev rvf win seq s c, conn s vf dev rvf = some c → ∃ t b, exec (.flushNotice vf dev rvf win seq) s = .next t ∧
    conn t vf dev rvf = some b ∧ b.out = (seq, .ok, []) :: c.out ∧ t.mem = s.mem) ∧
  (∀ s vf dev rvf c r o, conn s vf dev rvf = some c → c.ended = false → rst s c r o → c.vf = vf →
    (∀ st data, s.input = some (.peerAnswer vf dev rvf r.seq st data) → c.spilled = false → ∃ t, exec .peerAnswer s = .next t ∧
      (st = .ok → ended t vf dev rvf o (BitVec.ofNat 32 (o.bytes % 2 ^ 31))) ∧ (st = .nak → ended t vf dev rvf o 0x80400001)) ∧
    (r.firstAt + r.tmo * 1000 ≤ s.now → ∃ t, exec (.peerTimeout vf dev rvf r.seq) s = .next t ∧ ended t vf dev rvf o 0x80420001) ∧
    (r.sentAt + 50000 ≤ s.now → s.now < r.firstAt + r.tmo * 1000 → ∃ t b, exec (.resend vf dev rvf r.seq) s = .next t ∧
      conn t vf dev rvf = some b ∧ b.sent = [{ r with sentAt := s.now }]) ∧
    (s.input = some (.deviceLeavesPod dev) → s.dev.conns.filter (fun x => x.2.dev == dev) = [(connKey vf dev rvf, c)] →
      ∃ t b, exec .deviceLeavesPod s = .next t ∧ ended t vf dev rvf o 0x80430001 ∧ conn t vf dev rvf = some b ∧ b.ended = true)) ∧
  ∀ s vf dev rvf ok c, s.input = some (.connectionRefill vf dev rvf ok) → conn s vf dev rvf = some c → c.spilled = true →
    ∃ t b, exec .connectionRefill s = .next t ∧ conn t vf dev rvf = some b ∧ b.spilled = false ∧
      (ok = true → b = { c with spilled := false }) ∧ (ok = false → b.ended = true ∧ ∃ r ∈ t.dev.auditQ, r.typ = 0x06)
end

