-- ==== Sys2Proof/Laws/Store.lean ====
section
/-! SUPPORT. Laws of the sorted maps and stores: a read after a write, and that every operation keeps the canonical form. -/

namespace Sys2Proof

/-- Every key of the map lies above a bound. -/
def SMap.above {α : Type} (b : Nat) (m : SMap α) : Prop := ∀ kv ∈ m, b < kv.1

theorem SMap.sorted_nil {α : Type} : SMap.sorted ([] : SMap α) = true := rfl

theorem SMap.sorted_cons {α : Type} (k : Nat) (v : α) (m : SMap α) :
    SMap.sorted ((k, v) :: m) = true ↔ SMap.above k m ∧ SMap.sorted m = true := by
  induction m generalizing k v with
  | nil => simp [SMap.sorted, SMap.above]
  | cons x m ih =>
    obtain ⟨k', v'⟩ := x
    simp only [SMap.sorted, Bool.and_eq_true, decide_eq_true_eq]
    constructor
    · rintro ⟨h, hs⟩
      refine ⟨?_, hs⟩
      have ha := ((ih k' v').mp hs).1
      intro kv hkv
      rcases List.mem_cons.mp hkv with rfl | hm
      · exact h
      · exact Nat.lt_trans h (ha kv hm)
    · rintro ⟨ha, hs⟩
      exact ⟨ha (k', v') (by simp), hs⟩

@[simp] theorem SMap.find_put_same {α : Type} (m : SMap α) (k : Nat) (v : α) : SMap.find (SMap.put m k v) k = some v := by
  induction m with
  | nil => simp [SMap.put, SMap.find]
  | cons x m ih =>
    obtain ⟨k', v'⟩ := x
    simp only [SMap.put]
    split
    · simp [SMap.find]
    · split
      · simp [SMap.find]
      · rename_i h1 h2
        simp [SMap.find, h2, ih]

theorem SMap.find_put_other {α : Type} (m : SMap α) (k j : Nat) (v : α) (h : j ≠ k) :
    SMap.find (SMap.put m k v) j = SMap.find m j := by
  induction m with
  | nil => simp [SMap.put, SMap.find, h]
  | cons x m ih =>
    obtain ⟨k', v'⟩ := x
    simp only [SMap.put]
    split
    · simp [SMap.find, h]
    · split
      · rename_i h1 h2
        subst h2
        simp [SMap.find, h]
      · simp [SMap.find, ih]

theorem SMap.find_put {α : Type} (m : SMap α) (k j : Nat) (v : α) :
    SMap.find (SMap.put m k v) j = if j = k then some v else SMap.find m j := by
  split
  · rename_i h; subst h; simp
  · rename_i h; exact SMap.find_put_other m k j v h

@[simp] theorem SMap.find_del_same {α : Type} (m : SMap α) (k : Nat) : SMap.find (SMap.del m k) k = none := by
  induction m with
  | nil => rfl
  | cons x m ih =>
    obtain ⟨k', v'⟩ := x
    simp only [SMap.del, List.filter_cons] at ih ⊢
    split
    · rename_i h
      have h' : k' ≠ k := by simpa using h
      simp [SMap.find, Ne.symm h', ih]
    · exact ih

theorem SMap.find_del_other {α : Type} (m : SMap α) (k j : Nat) (hj : j ≠ k) : SMap.find (SMap.del m k) j = SMap.find m j := by
  induction m with
  | nil => rfl
  | cons x m ih =>
    obtain ⟨k', v'⟩ := x
    simp only [SMap.del, List.filter_cons] at ih ⊢
    split
    · simp [SMap.find, ih]
    · rename_i h
      have h' : k' = k := by simpa using h
      subst h'
      simp [SMap.find, hj, ih]

theorem SMap.above_put {α : Type} (b k : Nat) (v : α) (m : SMap α) (h : SMap.above b m) (hk : b < k) :
    SMap.above b (SMap.put m k v) := by
  induction m with
  | nil => simpa [SMap.put, SMap.above] using hk
  | cons x m ih =>
    obtain ⟨k', v'⟩ := x
    have hb : b < k' := h (k', v') (by simp)
    have hm : SMap.above b m := fun kv hkv => h kv (by simp [hkv])
    simp only [SMap.put]
    split
    · intro kv hkv
      rcases List.mem_cons.mp hkv with rfl | hx
      · exact hk
      · exact h kv hx
    · split
      · intro kv hkv
        rcases List.mem_cons.mp hkv with rfl | hx
        · exact hk
        · exact hm kv hx
      · intro kv hkv
        rcases List.mem_cons.mp hkv with rfl | hx
        · exact hb
        · exact ih hm kv hx

/-- Putting a value keeps the keys rising. -/
theorem SMap.sorted_put {α : Type} (m : SMap α) (k : Nat) (v : α) (h : SMap.sorted m = true) :
    SMap.sorted (SMap.put m k v) = true := by
  induction m with
  | nil => rfl
  | cons x m ih =>
    obtain ⟨k', v'⟩ := x
    obtain ⟨ha, hs⟩ := (SMap.sorted_cons k' v' m).mp h
    simp only [SMap.put]
    split
    · rename_i hk
      refine (SMap.sorted_cons _ _ _).mpr ⟨?_, h⟩
      intro kv hkv
      rcases List.mem_cons.mp hkv with rfl | hx
      · exact hk
      · exact Nat.lt_trans hk (ha kv hx)
    · split
      · rename_i h2
        subst h2
        exact (SMap.sorted_cons _ _ _).mpr ⟨ha, hs⟩
      · exact (SMap.sorted_cons _ _ _).mpr ⟨SMap.above_put k' k v m ha (by omega), ih hs⟩

/-- Keeping some pairs keeps the keys rising. -/
theorem SMap.sorted_filter {α : Type} (m : SMap α) (p : Nat × α → Bool) (h : SMap.sorted m = true) :
    SMap.sorted (m.filter p) = true := by
  induction m with
  | nil => rfl
  | cons x m ih =>
    obtain ⟨k', v'⟩ := x
    obtain ⟨ha, hs⟩ := (SMap.sorted_cons k' v' m).mp h
    simp only [List.filter_cons]
    split
    · exact (SMap.sorted_cons _ _ _).mpr ⟨fun kv hkv => ha kv ((List.mem_filter.mp hkv).1), ih hs⟩
    · exact ih hs

/-- Removing a key keeps the keys rising. -/
theorem SMap.sorted_del {α : Type} (m : SMap α) (k : Nat) (h : SMap.sorted m = true) : SMap.sorted (SMap.del m k) = true :=
  SMap.sorted_filter m _ h

/-! ## Stores -/

theorem Store.wf_iff {w : Nat} (m : Store w) : Store.wf m = true ↔ SMap.sorted m = true ∧ ∀ kv ∈ m, kv.2 ≠ 0 := by
  simp [Store.wf, Bool.and_eq_true]

@[simp] theorem Store.wf_nil {w : Nat} : Store.wf ([] : Store w) = true := rfl

theorem SMap.mem_put {α : Type} (m : SMap α) (k : Nat) (v : α) (kv : Nat × α) (h : kv ∈ SMap.put m k v) :
    kv = (k, v) ∨ kv ∈ m := by
  induction m with
  | nil => simpa [SMap.put] using h
  | cons x m ih =>
    obtain ⟨k', v'⟩ := x
    simp only [SMap.put] at h
    split at h
    · simpa using h
    · split at h
      · simp only [List.mem_cons] at h ⊢
        rcases h with h | h
        · exact .inl h
        · exact .inr (.inr h)
      · simp only [List.mem_cons] at h ⊢
        rcases h with h | h
        · exact .inr (.inl h)
        · rcases ih h with h | h
          · exact .inl h
          · exact .inr (.inr h)

theorem SMap.mem_del {α : Type} (m : SMap α) (k : Nat) (kv : Nat × α) (h : kv ∈ SMap.del m k) : kv ∈ m := (List.mem_filter.mp h).1

/-- A write keeps the canonical form. -/
theorem Store.wf_wr {w : Nat} (m : Store w) (k : Nat) (v : BitVec w) (h : Store.wf m = true) : Store.wf (Store.wr m k v) = true := by
  obtain ⟨hs, hz⟩ := (Store.wf_iff m).mp h
  simp only [Store.wr]
  split
  · exact (Store.wf_iff _).mpr ⟨SMap.sorted_del m k hs, fun kv hkv => hz kv (SMap.mem_del m k kv hkv)⟩
  · rename_i hv
    refine (Store.wf_iff _).mpr ⟨SMap.sorted_put m k v hs, fun kv hkv => ?_⟩
    rcases SMap.mem_put m k v kv hkv with rfl | hm
    · exact hv
    · exact hz kv hm

/-- Keeping some cells keeps the canonical form. -/
theorem Store.wf_filter {w : Nat} (m : Store w) (p : Nat × BitVec w → Bool) (h : Store.wf m = true) :
    Store.wf (w := w) (m.filter p) = true := by
  obtain ⟨hs, hz⟩ := (Store.wf_iff m).mp h
  exact (Store.wf_iff _).mpr ⟨SMap.sorted_filter m p hs, fun kv hkv => hz kv ((List.mem_filter.mp hkv).1)⟩

/-- Writing several cells keeps the canonical form. -/
theorem Store.wf_wrs {w : Nat} (kvs : List (Nat × BitVec w)) (m : Store w) (h : Store.wf m = true) : Store.wf (Store.wrs m kvs) = true := by
  induction kvs generalizing m with
  | nil => exact h
  | cons x kvs ih => exact ih _ (Store.wf_wr m x.1 x.2 h)

/-- Removing a range keeps the canonical form. -/
theorem Store.wf_clear {w : Nat} (m : Store w) (b n : Nat) (h : Store.wf m = true) : Store.wf (Store.clear m b n) = true :=
  Store.wf_filter m _ h

/-- Pasting a range keeps the canonical form. -/
theorem Store.wf_paste {w : Nat} (m t : Store w) (b n : Nat) (h : Store.wf m = true) : Store.wf (Store.paste m b n t) = true :=
  Store.wf_wrs _ _ (Store.wf_clear m b n h)

/-- Writing bytes keeps the canonical form. -/
theorem Store.wf_putBytes (bs : List Byte) (m : Store 8) (a : Nat) (h : Store.wf m = true) : Store.wf (Store.putBytes m a bs) = true := by
  induction bs generalizing m a with
  | nil => exact h
  | cons b bs ih => exact ih _ _ (Store.wf_wr m a b h)

/-- Storing a value keeps the canonical form. -/
theorem Store.wf_store (m : Store 8) (a n v : Nat) (h : Store.wf m = true) : Store.wf (Store.store m a n v) = true :=
  Store.wf_putBytes _ m a h

/-- A cell reads as it was written. -/
@[simp] theorem Store.rd_wr_same {w : Nat} (m : Store w) (k : Nat) (v : BitVec w) : Store.rd (Store.wr m k v) k = v := by
  simp only [Store.rd, Store.wr]
  split
  · rename_i hv
    simp [hv]
  · simp

/-- A write leaves every other cell alone. -/
theorem Store.rd_wr_other {w : Nat} (m : Store w) (k j : Nat) (v : BitVec w) (hj : j ≠ k) :
    Store.rd (Store.wr m k v) j = Store.rd m j := by
  simp only [Store.rd, Store.wr]
  split
  · rw [SMap.find_del_other m k j hj]
  · rw [SMap.find_put_other m k j v hj]

theorem Store.rd_wr {w : Nat} (m : Store w) (k j : Nat) (v : BitVec w) :
    Store.rd (Store.wr m k v) j = if j = k then v else Store.rd m j := by
  split
  · rename_i h; subst h; simp
  · rename_i h; exact Store.rd_wr_other m k j v h

/-- Cells outside those written keep their value. -/
theorem Store.rd_wrs_other {w : Nat} (kvs : List (Nat × BitVec w)) (m : Store w) (j : Nat) (hj : ∀ kv ∈ kvs, kv.1 ≠ j) :
    Store.rd (Store.wrs m kvs) j = Store.rd m j := by
  induction kvs generalizing m with
  | nil => rfl
  | cons x kvs ih =>
    show Store.rd (Store.wrs (Store.wr m x.1 x.2) kvs) j = Store.rd m j
    rw [ih _ (fun kv hkv => hj kv (by simp [hkv])), Store.rd_wr_other m x.1 j x.2 (Ne.symm (hj x (by simp)))]

/-- A cell written once among several reads as it was written. -/
theorem Store.rd_wrs_mem {w : Nat} (kvs : List (Nat × BitVec w)) (m : Store w) (kv : Nat × BitVec w) (hm : kv ∈ kvs)
    (hd : kvs.Pairwise (fun a b => a.1 ≠ b.1)) : Store.rd (Store.wrs m kvs) kv.1 = kv.2 := by
  induction kvs generalizing m with
  | nil => cases hm
  | cons x kvs ih =>
    obtain ⟨hx, hr⟩ := List.pairwise_cons.mp hd
    rcases List.mem_cons.mp hm with rfl | h
    · show Store.rd (Store.wrs (Store.wr m kv.1 kv.2) kvs) kv.1 = kv.2
      rw [Store.rd_wrs_other _ _ _ (fun y hy => Ne.symm (hx y hy)), Store.rd_wr_same]
    · exact ih _ h hr

/-- Bytes outside those put keep their value. -/
theorem Store.rd_putBytes_other (bs : List Byte) (m : Store 8) (a j : Nat) (hj : j < a ∨ a + bs.length ≤ j) :
    Store.rd (Store.putBytes m a bs) j = Store.rd m j := by
  induction bs generalizing m a with
  | nil => rfl
  | cons b bs ih =>
    simp only [List.length_cons] at hj
    show Store.rd (Store.putBytes (Store.wr m a b) (a + 1) bs) j = _
    rw [ih _ _ (by omega), Store.rd_wr_other _ _ _ _ (by omega)]

end Sys2Proof
end

