-- ==== Sys2Proof/Laws/State.lean ====
section
/-! SUPPORT. What each update of the state leaves alone: one lemma per field and update, and what the readers of the parts of a
state see after an update. -/

namespace Sys2Proof.Machine

open Sys2Proof

@[simp] theorem State.setGroup_tick (s : State) (k : Nat) (g : Group) : (s.setGroup k g).tick = s.tick := rfl
@[simp] theorem State.setGroup_now (s : State) (k : Nat) (g : Group) : (s.setGroup k g).now = s.now := rfl
@[simp] theorem State.setGroup_pending (s : State) (k : Nat) (g : Group) : (s.setGroup k g).pending = s.pending := rfl
@[simp] theorem State.setGroup_nextId (s : State) (k : Nat) (g : Group) : (s.setGroup k g).nextId = s.nextId := rfl
@[simp] theorem State.setGroup_inbox (s : State) (k : Nat) (g : Group) : (s.setGroup k g).inbox = s.inbox := rfl
@[simp] theorem State.setGroup_input (s : State) (k : Nat) (g : Group) : (s.setGroup k g).input = s.input := rfl
@[simp] theorem State.setGroup_limited (s : State) (k : Nat) (g : Group) : (s.setGroup k g).limited = s.limited := rfl
@[simp] theorem State.setGroup_cur (s : State) (k : Nat) (g : Group) : (s.setGroup k g).cur = s.cur := rfl
@[simp] theorem State.setGroup_cmd (s : State) (k : Nat) (g : Group) : (s.setGroup k g).cmd = s.cmd := rfl
@[simp] theorem State.setGroup_mem (s : State) (k : Nat) (g : Group) : (s.setGroup k g).mem = s.mem := rfl
@[simp] theorem State.setGroup_poison (s : State) (k : Nat) (g : Group) : (s.setGroup k g).poison = s.poison := rfl
@[simp] theorem State.setGroup_teams (s : State) (k : Nat) (g : Group) : (s.setGroup k g).teams = s.teams := rfl
@[simp] theorem State.setGroup_launches (s : State) (k : Nat) (g : Group) : (s.setGroup k g).launches = s.launches := rfl
@[simp] theorem State.setGroup_cores (s : State) (k : Nat) (g : Group) : (s.setGroup k g).cores = s.cores := rfl
@[simp] theorem State.setGroup_dies (s : State) (k : Nat) (g : Group) : (s.setGroup k g).dies = s.dies := rfl
@[simp] theorem State.setGroup_fns (s : State) (k : Nat) (g : Group) : (s.setGroup k g).fns = s.fns := rfl
@[simp] theorem State.setGroup_vfs (s : State) (k : Nat) (g : Group) : (s.setGroup k g).vfs = s.vfs := rfl
@[simp] theorem State.setGroup_leaves (s : State) (k : Nat) (g : Group) : (s.setGroup k g).leaves = s.leaves := rfl
@[simp] theorem State.setGroup_accs (s : State) (k : Nat) (g : Group) : (s.setGroup k g).accs = s.accs := rfl
@[simp] theorem State.setGroup_jobs (s : State) (k : Nat) (g : Group) : (s.setGroup k g).jobs = s.jobs := rfl
@[simp] theorem State.setGroup_rems (s : State) (k : Nat) (g : Group) : (s.setGroup k g).rems = s.rems := rfl
@[simp] theorem State.setGroup_unposted (s : State) (k : Nat) (g : Group) : (s.setGroup k g).unposted = s.unposted := rfl
@[simp] theorem State.setGroup_dev (s : State) (k : Nat) (g : Group) : (s.setGroup k g).dev = s.dev := rfl

@[simp] theorem State.modGroup_tick (s : State) (k : Nat) (f : Group → Group) : (s.modGroup k f).tick = s.tick := by unfold State.modGroup; split <;> rfl
@[simp] theorem State.modGroup_now (s : State) (k : Nat) (f : Group → Group) : (s.modGroup k f).now = s.now := by unfold State.modGroup; split <;> rfl
@[simp] theorem State.modGroup_pending (s : State) (k : Nat) (f : Group → Group) : (s.modGroup k f).pending = s.pending := by unfold State.modGroup; split <;> rfl
@[simp] theorem State.modGroup_nextId (s : State) (k : Nat) (f : Group → Group) : (s.modGroup k f).nextId = s.nextId := by unfold State.modGroup; split <;> rfl
@[simp] theorem State.modGroup_inbox (s : State) (k : Nat) (f : Group → Group) : (s.modGroup k f).inbox = s.inbox := by unfold State.modGroup; split <;> rfl
@[simp] theorem State.modGroup_input (s : State) (k : Nat) (f : Group → Group) : (s.modGroup k f).input = s.input := by unfold State.modGroup; split <;> rfl
@[simp] theorem State.modGroup_limited (s : State) (k : Nat) (f : Group → Group) : (s.modGroup k f).limited = s.limited := by unfold State.modGroup; split <;> rfl
@[simp] theorem State.modGroup_cur (s : State) (k : Nat) (f : Group → Group) : (s.modGroup k f).cur = s.cur := by unfold State.modGroup; split <;> rfl
@[simp] theorem State.modGroup_cmd (s : State) (k : Nat) (f : Group → Group) : (s.modGroup k f).cmd = s.cmd := by unfold State.modGroup; split <;> rfl
@[simp] theorem State.modGroup_mem (s : State) (k : Nat) (f : Group → Group) : (s.modGroup k f).mem = s.mem := by unfold State.modGroup; split <;> rfl
@[simp] theorem State.modGroup_poison (s : State) (k : Nat) (f : Group → Group) : (s.modGroup k f).poison = s.poison := by unfold State.modGroup; split <;> rfl
@[simp] theorem State.modGroup_teams (s : State) (k : Nat) (f : Group → Group) : (s.modGroup k f).teams = s.teams := by unfold State.modGroup; split <;> rfl
@[simp] theorem State.modGroup_launches (s : State) (k : Nat) (f : Group → Group) : (s.modGroup k f).launches = s.launches := by unfold State.modGroup; split <;> rfl
@[simp] theorem State.modGroup_cores (s : State) (k : Nat) (f : Group → Group) : (s.modGroup k f).cores = s.cores := by unfold State.modGroup; split <;> rfl
@[simp] theorem State.modGroup_dies (s : State) (k : Nat) (f : Group → Group) : (s.modGroup k f).dies = s.dies := by unfold State.modGroup; split <;> rfl
@[simp] theorem State.modGroup_fns (s : State) (k : Nat) (f : Group → Group) : (s.modGroup k f).fns = s.fns := by unfold State.modGroup; split <;> rfl
@[simp] theorem State.modGroup_vfs (s : State) (k : Nat) (f : Group → Group) : (s.modGroup k f).vfs = s.vfs := by unfold State.modGroup; split <;> rfl
@[simp] theorem State.modGroup_leaves (s : State) (k : Nat) (f : Group → Group) : (s.modGroup k f).leaves = s.leaves := by unfold State.modGroup; split <;> rfl
@[simp] theorem State.modGroup_accs (s : State) (k : Nat) (f : Group → Group) : (s.modGroup k f).accs = s.accs := by unfold State.modGroup; split <;> rfl
@[simp] theorem State.modGroup_jobs (s : State) (k : Nat) (f : Group → Group) : (s.modGroup k f).jobs = s.jobs := by unfold State.modGroup; split <;> rfl
@[simp] theorem State.modGroup_rems (s : State) (k : Nat) (f : Group → Group) : (s.modGroup k f).rems = s.rems := by unfold State.modGroup; split <;> rfl
@[simp] theorem State.modGroup_unposted (s : State) (k : Nat) (f : Group → Group) : (s.modGroup k f).unposted = s.unposted := by unfold State.modGroup; split <;> rfl
@[simp] theorem State.modGroup_dev (s : State) (k : Nat) (f : Group → Group) : (s.modGroup k f).dev = s.dev := by unfold State.modGroup; split <;> rfl

@[simp] theorem State.setTeam_tick (s : State) (t : Nat) (m : Team) : (s.setTeam t m).tick = s.tick := rfl
@[simp] theorem State.setTeam_now (s : State) (t : Nat) (m : Team) : (s.setTeam t m).now = s.now := rfl
@[simp] theorem State.setTeam_pending (s : State) (t : Nat) (m : Team) : (s.setTeam t m).pending = s.pending := rfl
@[simp] theorem State.setTeam_nextId (s : State) (t : Nat) (m : Team) : (s.setTeam t m).nextId = s.nextId := rfl
@[simp] theorem State.setTeam_inbox (s : State) (t : Nat) (m : Team) : (s.setTeam t m).inbox = s.inbox := rfl
@[simp] theorem State.setTeam_input (s : State) (t : Nat) (m : Team) : (s.setTeam t m).input = s.input := rfl
@[simp] theorem State.setTeam_limited (s : State) (t : Nat) (m : Team) : (s.setTeam t m).limited = s.limited := rfl
@[simp] theorem State.setTeam_cur (s : State) (t : Nat) (m : Team) : (s.setTeam t m).cur = s.cur := rfl
@[simp] theorem State.setTeam_cmd (s : State) (t : Nat) (m : Team) : (s.setTeam t m).cmd = s.cmd := rfl
@[simp] theorem State.setTeam_mem (s : State) (t : Nat) (m : Team) : (s.setTeam t m).mem = s.mem := rfl
@[simp] theorem State.setTeam_poison (s : State) (t : Nat) (m : Team) : (s.setTeam t m).poison = s.poison := rfl
@[simp] theorem State.setTeam_groups (s : State) (t : Nat) (m : Team) : (s.setTeam t m).groups = s.groups := rfl
@[simp] theorem State.setTeam_launches (s : State) (t : Nat) (m : Team) : (s.setTeam t m).launches = s.launches := rfl
@[simp] theorem State.setTeam_cores (s : State) (t : Nat) (m : Team) : (s.setTeam t m).cores = s.cores := rfl
@[simp] theorem State.setTeam_dies (s : State) (t : Nat) (m : Team) : (s.setTeam t m).dies = s.dies := rfl
@[simp] theorem State.setTeam_fns (s : State) (t : Nat) (m : Team) : (s.setTeam t m).fns = s.fns := rfl
@[simp] theorem State.setTeam_vfs (s : State) (t : Nat) (m : Team) : (s.setTeam t m).vfs = s.vfs := rfl
@[simp] theorem State.setTeam_leaves (s : State) (t : Nat) (m : Team) : (s.setTeam t m).leaves = s.leaves := rfl
@[simp] theorem State.setTeam_accs (s : State) (t : Nat) (m : Team) : (s.setTeam t m).accs = s.accs := rfl
@[simp] theorem State.setTeam_jobs (s : State) (t : Nat) (m : Team) : (s.setTeam t m).jobs = s.jobs := rfl
@[simp] theorem State.setTeam_rems (s : State) (t : Nat) (m : Team) : (s.setTeam t m).rems = s.rems := rfl
@[simp] theorem State.setTeam_unposted (s : State) (t : Nat) (m : Team) : (s.setTeam t m).unposted = s.unposted := rfl
@[simp] theorem State.setTeam_dev (s : State) (t : Nat) (m : Team) : (s.setTeam t m).dev = s.dev := rfl

@[simp] theorem State.modTeam_tick (s : State) (t : Nat) (f : Team → Team) : (s.modTeam t f).tick = s.tick := by unfold State.modTeam; split <;> rfl
@[simp] theorem State.modTeam_now (s : State) (t : Nat) (f : Team → Team) : (s.modTeam t f).now = s.now := by unfold State.modTeam; split <;> rfl
@[simp] theorem State.modTeam_pending (s : State) (t : Nat) (f : Team → Team) : (s.modTeam t f).pending = s.pending := by unfold State.modTeam; split <;> rfl
@[simp] theorem State.modTeam_nextId (s : State) (t : Nat) (f : Team → Team) : (s.modTeam t f).nextId = s.nextId := by unfold State.modTeam; split <;> rfl
@[simp] theorem State.modTeam_inbox (s : State) (t : Nat) (f : Team → Team) : (s.modTeam t f).inbox = s.inbox := by unfold State.modTeam; split <;> rfl
@[simp] theorem State.modTeam_input (s : State) (t : Nat) (f : Team → Team) : (s.modTeam t f).input = s.input := by unfold State.modTeam; split <;> rfl
@[simp] theorem State.modTeam_limited (s : State) (t : Nat) (f : Team → Team) : (s.modTeam t f).limited = s.limited := by unfold State.modTeam; split <;> rfl
@[simp] theorem State.modTeam_cur (s : State) (t : Nat) (f : Team → Team) : (s.modTeam t f).cur = s.cur := by unfold State.modTeam; split <;> rfl
@[simp] theorem State.modTeam_cmd (s : State) (t : Nat) (f : Team → Team) : (s.modTeam t f).cmd = s.cmd := by unfold State.modTeam; split <;> rfl
@[simp] theorem State.modTeam_mem (s : State) (t : Nat) (f : Team → Team) : (s.modTeam t f).mem = s.mem := by unfold State.modTeam; split <;> rfl
@[simp] theorem State.modTeam_poison (s : State) (t : Nat) (f : Team → Team) : (s.modTeam t f).poison = s.poison := by unfold State.modTeam; split <;> rfl
@[simp] theorem State.modTeam_groups (s : State) (t : Nat) (f : Team → Team) : (s.modTeam t f).groups = s.groups := by unfold State.modTeam; split <;> rfl
@[simp] theorem State.modTeam_launches (s : State) (t : Nat) (f : Team → Team) : (s.modTeam t f).launches = s.launches := by unfold State.modTeam; split <;> rfl
@[simp] theorem State.modTeam_cores (s : State) (t : Nat) (f : Team → Team) : (s.modTeam t f).cores = s.cores := by unfold State.modTeam; split <;> rfl
@[simp] theorem State.modTeam_dies (s : State) (t : Nat) (f : Team → Team) : (s.modTeam t f).dies = s.dies := by unfold State.modTeam; split <;> rfl
@[simp] theorem State.modTeam_fns (s : State) (t : Nat) (f : Team → Team) : (s.modTeam t f).fns = s.fns := by unfold State.modTeam; split <;> rfl
@[simp] theorem State.modTeam_vfs (s : State) (t : Nat) (f : Team → Team) : (s.modTeam t f).vfs = s.vfs := by unfold State.modTeam; split <;> rfl
@[simp] theorem State.modTeam_leaves (s : State) (t : Nat) (f : Team → Team) : (s.modTeam t f).leaves = s.leaves := by unfold State.modTeam; split <;> rfl
@[simp] theorem State.modTeam_accs (s : State) (t : Nat) (f : Team → Team) : (s.modTeam t f).accs = s.accs := by unfold State.modTeam; split <;> rfl
@[simp] theorem State.modTeam_jobs (s : State) (t : Nat) (f : Team → Team) : (s.modTeam t f).jobs = s.jobs := by unfold State.modTeam; split <;> rfl
@[simp] theorem State.modTeam_rems (s : State) (t : Nat) (f : Team → Team) : (s.modTeam t f).rems = s.rems := by unfold State.modTeam; split <;> rfl
@[simp] theorem State.modTeam_unposted (s : State) (t : Nat) (f : Team → Team) : (s.modTeam t f).unposted = s.unposted := by unfold State.modTeam; split <;> rfl
@[simp] theorem State.modTeam_dev (s : State) (t : Nat) (f : Team → Team) : (s.modTeam t f).dev = s.dev := by unfold State.modTeam; split <;> rfl

@[simp] theorem State.setLaunch_tick (s : State) (l : Nat) (m : Launch) : (s.setLaunch l m).tick = s.tick := rfl
@[simp] theorem State.setLaunch_now (s : State) (l : Nat) (m : Launch) : (s.setLaunch l m).now = s.now := rfl
@[simp] theorem State.setLaunch_pending (s : State) (l : Nat) (m : Launch) : (s.setLaunch l m).pending = s.pending := rfl
@[simp] theorem State.setLaunch_nextId (s : State) (l : Nat) (m : Launch) : (s.setLaunch l m).nextId = s.nextId := rfl
@[simp] theorem State.setLaunch_inbox (s : State) (l : Nat) (m : Launch) : (s.setLaunch l m).inbox = s.inbox := rfl
@[simp] theorem State.setLaunch_input (s : State) (l : Nat) (m : Launch) : (s.setLaunch l m).input = s.input := rfl
@[simp] theorem State.setLaunch_limited (s : State) (l : Nat) (m : Launch) : (s.setLaunch l m).limited = s.limited := rfl
@[simp] theorem State.setLaunch_cur (s : State) (l : Nat) (m : Launch) : (s.setLaunch l m).cur = s.cur := rfl
@[simp] theorem State.setLaunch_cmd (s : State) (l : Nat) (m : Launch) : (s.setLaunch l m).cmd = s.cmd := rfl
@[simp] theorem State.setLaunch_mem (s : State) (l : Nat) (m : Launch) : (s.setLaunch l m).mem = s.mem := rfl
@[simp] theorem State.setLaunch_poison (s : State) (l : Nat) (m : Launch) : (s.setLaunch l m).poison = s.poison := rfl
@[simp] theorem State.setLaunch_groups (s : State) (l : Nat) (m : Launch) : (s.setLaunch l m).groups = s.groups := rfl
@[simp] theorem State.setLaunch_teams (s : State) (l : Nat) (m : Launch) : (s.setLaunch l m).teams = s.teams := rfl
@[simp] theorem State.setLaunch_cores (s : State) (l : Nat) (m : Launch) : (s.setLaunch l m).cores = s.cores := rfl
@[simp] theorem State.setLaunch_dies (s : State) (l : Nat) (m : Launch) : (s.setLaunch l m).dies = s.dies := rfl
@[simp] theorem State.setLaunch_fns (s : State) (l : Nat) (m : Launch) : (s.setLaunch l m).fns = s.fns := rfl
@[simp] theorem State.setLaunch_vfs (s : State) (l : Nat) (m : Launch) : (s.setLaunch l m).vfs = s.vfs := rfl
@[simp] theorem State.setLaunch_leaves (s : State) (l : Nat) (m : Launch) : (s.setLaunch l m).leaves = s.leaves := rfl
@[simp] theorem State.setLaunch_accs (s : State) (l : Nat) (m : Launch) : (s.setLaunch l m).accs = s.accs := rfl
@[simp] theorem State.setLaunch_jobs (s : State) (l : Nat) (m : Launch) : (s.setLaunch l m).jobs = s.jobs := rfl
@[simp] theorem State.setLaunch_rems (s : State) (l : Nat) (m : Launch) : (s.setLaunch l m).rems = s.rems := rfl
@[simp] theorem State.setLaunch_unposted (s : State) (l : Nat) (m : Launch) : (s.setLaunch l m).unposted = s.unposted := rfl
@[simp] theorem State.setLaunch_dev (s : State) (l : Nat) (m : Launch) : (s.setLaunch l m).dev = s.dev := rfl

@[simp] theorem State.modLaunch_tick (s : State) (l : Nat) (f : Launch → Launch) : (s.modLaunch l f).tick = s.tick := by unfold State.modLaunch; split <;> rfl
@[simp] theorem State.modLaunch_now (s : State) (l : Nat) (f : Launch → Launch) : (s.modLaunch l f).now = s.now := by unfold State.modLaunch; split <;> rfl
@[simp] theorem State.modLaunch_pending (s : State) (l : Nat) (f : Launch → Launch) : (s.modLaunch l f).pending = s.pending := by unfold State.modLaunch; split <;> rfl
@[simp] theorem State.modLaunch_nextId (s : State) (l : Nat) (f : Launch → Launch) : (s.modLaunch l f).nextId = s.nextId := by unfold State.modLaunch; split <;> rfl
@[simp] theorem State.modLaunch_inbox (s : State) (l : Nat) (f : Launch → Launch) : (s.modLaunch l f).inbox = s.inbox := by unfold State.modLaunch; split <;> rfl
@[simp] theorem State.modLaunch_input (s : State) (l : Nat) (f : Launch → Launch) : (s.modLaunch l f).input = s.input := by unfold State.modLaunch; split <;> rfl
@[simp] theorem State.modLaunch_limited (s : State) (l : Nat) (f : Launch → Launch) : (s.modLaunch l f).limited = s.limited := by unfold State.modLaunch; split <;> rfl
@[simp] theorem State.modLaunch_cur (s : State) (l : Nat) (f : Launch → Launch) : (s.modLaunch l f).cur = s.cur := by unfold State.modLaunch; split <;> rfl
@[simp] theorem State.modLaunch_cmd (s : State) (l : Nat) (f : Launch → Launch) : (s.modLaunch l f).cmd = s.cmd := by unfold State.modLaunch; split <;> rfl
@[simp] theorem State.modLaunch_mem (s : State) (l : Nat) (f : Launch → Launch) : (s.modLaunch l f).mem = s.mem := by unfold State.modLaunch; split <;> rfl
@[simp] theorem State.modLaunch_poison (s : State) (l : Nat) (f : Launch → Launch) : (s.modLaunch l f).poison = s.poison := by unfold State.modLaunch; split <;> rfl
@[simp] theorem State.modLaunch_groups (s : State) (l : Nat) (f : Launch → Launch) : (s.modLaunch l f).groups = s.groups := by unfold State.modLaunch; split <;> rfl
@[simp] theorem State.modLaunch_teams (s : State) (l : Nat) (f : Launch → Launch) : (s.modLaunch l f).teams = s.teams := by unfold State.modLaunch; split <;> rfl
@[simp] theorem State.modLaunch_cores (s : State) (l : Nat) (f : Launch → Launch) : (s.modLaunch l f).cores = s.cores := by unfold State.modLaunch; split <;> rfl
@[simp] theorem State.modLaunch_dies (s : State) (l : Nat) (f : Launch → Launch) : (s.modLaunch l f).dies = s.dies := by unfold State.modLaunch; split <;> rfl
@[simp] theorem State.modLaunch_fns (s : State) (l : Nat) (f : Launch → Launch) : (s.modLaunch l f).fns = s.fns := by unfold State.modLaunch; split <;> rfl
@[simp] theorem State.modLaunch_vfs (s : State) (l : Nat) (f : Launch → Launch) : (s.modLaunch l f).vfs = s.vfs := by unfold State.modLaunch; split <;> rfl
@[simp] theorem State.modLaunch_leaves (s : State) (l : Nat) (f : Launch → Launch) : (s.modLaunch l f).leaves = s.leaves := by unfold State.modLaunch; split <;> rfl
@[simp] theorem State.modLaunch_accs (s : State) (l : Nat) (f : Launch → Launch) : (s.modLaunch l f).accs = s.accs := by unfold State.modLaunch; split <;> rfl
@[simp] theorem State.modLaunch_jobs (s : State) (l : Nat) (f : Launch → Launch) : (s.modLaunch l f).jobs = s.jobs := by unfold State.modLaunch; split <;> rfl
@[simp] theorem State.modLaunch_rems (s : State) (l : Nat) (f : Launch → Launch) : (s.modLaunch l f).rems = s.rems := by unfold State.modLaunch; split <;> rfl
@[simp] theorem State.modLaunch_unposted (s : State) (l : Nat) (f : Launch → Launch) : (s.modLaunch l f).unposted = s.unposted := by unfold State.modLaunch; split <;> rfl
@[simp] theorem State.modLaunch_dev (s : State) (l : Nat) (f : Launch → Launch) : (s.modLaunch l f).dev = s.dev := by unfold State.modLaunch; split <;> rfl

@[simp] theorem State.setCore_tick (s : State) (c : Nat) (m : Core) : (s.setCore c m).tick = s.tick := rfl
@[simp] theorem State.setCore_now (s : State) (c : Nat) (m : Core) : (s.setCore c m).now = s.now := rfl
@[simp] theorem State.setCore_pending (s : State) (c : Nat) (m : Core) : (s.setCore c m).pending = s.pending := rfl
@[simp] theorem State.setCore_nextId (s : State) (c : Nat) (m : Core) : (s.setCore c m).nextId = s.nextId := rfl
@[simp] theorem State.setCore_inbox (s : State) (c : Nat) (m : Core) : (s.setCore c m).inbox = s.inbox := rfl
@[simp] theorem State.setCore_input (s : State) (c : Nat) (m : Core) : (s.setCore c m).input = s.input := rfl
@[simp] theorem State.setCore_limited (s : State) (c : Nat) (m : Core) : (s.setCore c m).limited = s.limited := rfl
@[simp] theorem State.setCore_cur (s : State) (c : Nat) (m : Core) : (s.setCore c m).cur = s.cur := rfl
@[simp] theorem State.setCore_cmd (s : State) (c : Nat) (m : Core) : (s.setCore c m).cmd = s.cmd := rfl
@[simp] theorem State.setCore_mem (s : State) (c : Nat) (m : Core) : (s.setCore c m).mem = s.mem := rfl
@[simp] theorem State.setCore_poison (s : State) (c : Nat) (m : Core) : (s.setCore c m).poison = s.poison := rfl
@[simp] theorem State.setCore_groups (s : State) (c : Nat) (m : Core) : (s.setCore c m).groups = s.groups := rfl
@[simp] theorem State.setCore_teams (s : State) (c : Nat) (m : Core) : (s.setCore c m).teams = s.teams := rfl
@[simp] theorem State.setCore_launches (s : State) (c : Nat) (m : Core) : (s.setCore c m).launches = s.launches := rfl
@[simp] theorem State.setCore_dies (s : State) (c : Nat) (m : Core) : (s.setCore c m).dies = s.dies := rfl
@[simp] theorem State.setCore_fns (s : State) (c : Nat) (m : Core) : (s.setCore c m).fns = s.fns := rfl
@[simp] theorem State.setCore_vfs (s : State) (c : Nat) (m : Core) : (s.setCore c m).vfs = s.vfs := rfl
@[simp] theorem State.setCore_leaves (s : State) (c : Nat) (m : Core) : (s.setCore c m).leaves = s.leaves := rfl
@[simp] theorem State.setCore_accs (s : State) (c : Nat) (m : Core) : (s.setCore c m).accs = s.accs := rfl
@[simp] theorem State.setCore_jobs (s : State) (c : Nat) (m : Core) : (s.setCore c m).jobs = s.jobs := rfl
@[simp] theorem State.setCore_rems (s : State) (c : Nat) (m : Core) : (s.setCore c m).rems = s.rems := rfl
@[simp] theorem State.setCore_unposted (s : State) (c : Nat) (m : Core) : (s.setCore c m).unposted = s.unposted := rfl
@[simp] theorem State.setCore_dev (s : State) (c : Nat) (m : Core) : (s.setCore c m).dev = s.dev := rfl

@[simp] theorem State.modCore_tick (s : State) (c : Nat) (f : Core → Core) : (s.modCore c f).tick = s.tick := rfl
@[simp] theorem State.modCore_now (s : State) (c : Nat) (f : Core → Core) : (s.modCore c f).now = s.now := rfl
@[simp] theorem State.modCore_pending (s : State) (c : Nat) (f : Core → Core) : (s.modCore c f).pending = s.pending := rfl
@[simp] theorem State.modCore_nextId (s : State) (c : Nat) (f : Core → Core) : (s.modCore c f).nextId = s.nextId := rfl
@[simp] theorem State.modCore_inbox (s : State) (c : Nat) (f : Core → Core) : (s.modCore c f).inbox = s.inbox := rfl
@[simp] theorem State.modCore_input (s : State) (c : Nat) (f : Core → Core) : (s.modCore c f).input = s.input := rfl
@[simp] theorem State.modCore_limited (s : State) (c : Nat) (f : Core → Core) : (s.modCore c f).limited = s.limited := rfl
@[simp] theorem State.modCore_cur (s : State) (c : Nat) (f : Core → Core) : (s.modCore c f).cur = s.cur := rfl
@[simp] theorem State.modCore_cmd (s : State) (c : Nat) (f : Core → Core) : (s.modCore c f).cmd = s.cmd := rfl
@[simp] theorem State.modCore_mem (s : State) (c : Nat) (f : Core → Core) : (s.modCore c f).mem = s.mem := rfl
@[simp] theorem State.modCore_poison (s : State) (c : Nat) (f : Core → Core) : (s.modCore c f).poison = s.poison := rfl
@[simp] theorem State.modCore_groups (s : State) (c : Nat) (f : Core → Core) : (s.modCore c f).groups = s.groups := rfl
@[simp] theorem State.modCore_teams (s : State) (c : Nat) (f : Core → Core) : (s.modCore c f).teams = s.teams := rfl
@[simp] theorem State.modCore_launches (s : State) (c : Nat) (f : Core → Core) : (s.modCore c f).launches = s.launches := rfl
@[simp] theorem State.modCore_dies (s : State) (c : Nat) (f : Core → Core) : (s.modCore c f).dies = s.dies := rfl
@[simp] theorem State.modCore_fns (s : State) (c : Nat) (f : Core → Core) : (s.modCore c f).fns = s.fns := rfl
@[simp] theorem State.modCore_vfs (s : State) (c : Nat) (f : Core → Core) : (s.modCore c f).vfs = s.vfs := rfl
@[simp] theorem State.modCore_leaves (s : State) (c : Nat) (f : Core → Core) : (s.modCore c f).leaves = s.leaves := rfl
@[simp] theorem State.modCore_accs (s : State) (c : Nat) (f : Core → Core) : (s.modCore c f).accs = s.accs := rfl
@[simp] theorem State.modCore_jobs (s : State) (c : Nat) (f : Core → Core) : (s.modCore c f).jobs = s.jobs := rfl
@[simp] theorem State.modCore_rems (s : State) (c : Nat) (f : Core → Core) : (s.modCore c f).rems = s.rems := rfl
@[simp] theorem State.modCore_unposted (s : State) (c : Nat) (f : Core → Core) : (s.modCore c f).unposted = s.unposted := rfl
@[simp] theorem State.modCore_dev (s : State) (c : Nat) (f : Core → Core) : (s.modCore c f).dev = s.dev := rfl

@[simp] theorem State.setDie_tick (s : State) (d : Nat) (m : Die) : (s.setDie d m).tick = s.tick := rfl
@[simp] theorem State.setDie_now (s : State) (d : Nat) (m : Die) : (s.setDie d m).now = s.now := rfl
@[simp] theorem State.setDie_pending (s : State) (d : Nat) (m : Die) : (s.setDie d m).pending = s.pending := rfl
@[simp] theorem State.setDie_nextId (s : State) (d : Nat) (m : Die) : (s.setDie d m).nextId = s.nextId := rfl
@[simp] theorem State.setDie_inbox (s : State) (d : Nat) (m : Die) : (s.setDie d m).inbox = s.inbox := rfl
@[simp] theorem State.setDie_input (s : State) (d : Nat) (m : Die) : (s.setDie d m).input = s.input := rfl
@[simp] theorem State.setDie_limited (s : State) (d : Nat) (m : Die) : (s.setDie d m).limited = s.limited := rfl
@[simp] theorem State.setDie_cur (s : State) (d : Nat) (m : Die) : (s.setDie d m).cur = s.cur := rfl
@[simp] theorem State.setDie_cmd (s : State) (d : Nat) (m : Die) : (s.setDie d m).cmd = s.cmd := rfl
@[simp] theorem State.setDie_mem (s : State) (d : Nat) (m : Die) : (s.setDie d m).mem = s.mem := rfl
@[simp] theorem State.setDie_poison (s : State) (d : Nat) (m : Die) : (s.setDie d m).poison = s.poison := rfl
@[simp] theorem State.setDie_groups (s : State) (d : Nat) (m : Die) : (s.setDie d m).groups = s.groups := rfl
@[simp] theorem State.setDie_teams (s : State) (d : Nat) (m : Die) : (s.setDie d m).teams = s.teams := rfl
@[simp] theorem State.setDie_launches (s : State) (d : Nat) (m : Die) : (s.setDie d m).launches = s.launches := rfl
@[simp] theorem State.setDie_cores (s : State) (d : Nat) (m : Die) : (s.setDie d m).cores = s.cores := rfl
@[simp] theorem State.setDie_fns (s : State) (d : Nat) (m : Die) : (s.setDie d m).fns = s.fns := rfl
@[simp] theorem State.setDie_vfs (s : State) (d : Nat) (m : Die) : (s.setDie d m).vfs = s.vfs := rfl
@[simp] theorem State.setDie_leaves (s : State) (d : Nat) (m : Die) : (s.setDie d m).leaves = s.leaves := rfl
@[simp] theorem State.setDie_accs (s : State) (d : Nat) (m : Die) : (s.setDie d m).accs = s.accs := rfl
@[simp] theorem State.setDie_jobs (s : State) (d : Nat) (m : Die) : (s.setDie d m).jobs = s.jobs := rfl
@[simp] theorem State.setDie_rems (s : State) (d : Nat) (m : Die) : (s.setDie d m).rems = s.rems := rfl
@[simp] theorem State.setDie_unposted (s : State) (d : Nat) (m : Die) : (s.setDie d m).unposted = s.unposted := rfl
@[simp] theorem State.setDie_dev (s : State) (d : Nat) (m : Die) : (s.setDie d m).dev = s.dev := rfl

@[simp] theorem State.modDie_tick (s : State) (d : Nat) (f : Die → Die) : (s.modDie d f).tick = s.tick := rfl
@[simp] theorem State.modDie_now (s : State) (d : Nat) (f : Die → Die) : (s.modDie d f).now = s.now := rfl
@[simp] theorem State.modDie_pending (s : State) (d : Nat) (f : Die → Die) : (s.modDie d f).pending = s.pending := rfl
@[simp] theorem State.modDie_nextId (s : State) (d : Nat) (f : Die → Die) : (s.modDie d f).nextId = s.nextId := rfl
@[simp] theorem State.modDie_inbox (s : State) (d : Nat) (f : Die → Die) : (s.modDie d f).inbox = s.inbox := rfl
@[simp] theorem State.modDie_input (s : State) (d : Nat) (f : Die → Die) : (s.modDie d f).input = s.input := rfl
@[simp] theorem State.modDie_limited (s : State) (d : Nat) (f : Die → Die) : (s.modDie d f).limited = s.limited := rfl
@[simp] theorem State.modDie_cur (s : State) (d : Nat) (f : Die → Die) : (s.modDie d f).cur = s.cur := rfl
@[simp] theorem State.modDie_cmd (s : State) (d : Nat) (f : Die → Die) : (s.modDie d f).cmd = s.cmd := rfl
@[simp] theorem State.modDie_mem (s : State) (d : Nat) (f : Die → Die) : (s.modDie d f).mem = s.mem := rfl
@[simp] theorem State.modDie_poison (s : State) (d : Nat) (f : Die → Die) : (s.modDie d f).poison = s.poison := rfl
@[simp] theorem State.modDie_groups (s : State) (d : Nat) (f : Die → Die) : (s.modDie d f).groups = s.groups := rfl
@[simp] theorem State.modDie_teams (s : State) (d : Nat) (f : Die → Die) : (s.modDie d f).teams = s.teams := rfl
@[simp] theorem State.modDie_launches (s : State) (d : Nat) (f : Die → Die) : (s.modDie d f).launches = s.launches := rfl
@[simp] theorem State.modDie_cores (s : State) (d : Nat) (f : Die → Die) : (s.modDie d f).cores = s.cores := rfl
@[simp] theorem State.modDie_fns (s : State) (d : Nat) (f : Die → Die) : (s.modDie d f).fns = s.fns := rfl
@[simp] theorem State.modDie_vfs (s : State) (d : Nat) (f : Die → Die) : (s.modDie d f).vfs = s.vfs := rfl
@[simp] theorem State.modDie_leaves (s : State) (d : Nat) (f : Die → Die) : (s.modDie d f).leaves = s.leaves := rfl
@[simp] theorem State.modDie_accs (s : State) (d : Nat) (f : Die → Die) : (s.modDie d f).accs = s.accs := rfl
@[simp] theorem State.modDie_jobs (s : State) (d : Nat) (f : Die → Die) : (s.modDie d f).jobs = s.jobs := rfl
@[simp] theorem State.modDie_rems (s : State) (d : Nat) (f : Die → Die) : (s.modDie d f).rems = s.rems := rfl
@[simp] theorem State.modDie_unposted (s : State) (d : Nat) (f : Die → Die) : (s.modDie d f).unposted = s.unposted := rfl
@[simp] theorem State.modDie_dev (s : State) (d : Nat) (f : Die → Die) : (s.modDie d f).dev = s.dev := rfl

@[simp] theorem State.setFn_tick (s : State) (n : Nat) (m : Fn) : (s.setFn n m).tick = s.tick := rfl
@[simp] theorem State.setFn_now (s : State) (n : Nat) (m : Fn) : (s.setFn n m).now = s.now := rfl
@[simp] theorem State.setFn_pending (s : State) (n : Nat) (m : Fn) : (s.setFn n m).pending = s.pending := rfl
@[simp] theorem State.setFn_nextId (s : State) (n : Nat) (m : Fn) : (s.setFn n m).nextId = s.nextId := rfl
@[simp] theorem State.setFn_inbox (s : State) (n : Nat) (m : Fn) : (s.setFn n m).inbox = s.inbox := rfl
@[simp] theorem State.setFn_input (s : State) (n : Nat) (m : Fn) : (s.setFn n m).input = s.input := rfl
@[simp] theorem State.setFn_limited (s : State) (n : Nat) (m : Fn) : (s.setFn n m).limited = s.limited := rfl
@[simp] theorem State.setFn_cur (s : State) (n : Nat) (m : Fn) : (s.setFn n m).cur = s.cur := rfl
@[simp] theorem State.setFn_cmd (s : State) (n : Nat) (m : Fn) : (s.setFn n m).cmd = s.cmd := rfl
@[simp] theorem State.setFn_mem (s : State) (n : Nat) (m : Fn) : (s.setFn n m).mem = s.mem := rfl
@[simp] theorem State.setFn_poison (s : State) (n : Nat) (m : Fn) : (s.setFn n m).poison = s.poison := rfl
@[simp] theorem State.setFn_groups (s : State) (n : Nat) (m : Fn) : (s.setFn n m).groups = s.groups := rfl
@[simp] theorem State.setFn_teams (s : State) (n : Nat) (m : Fn) : (s.setFn n m).teams = s.teams := rfl
@[simp] theorem State.setFn_launches (s : State) (n : Nat) (m : Fn) : (s.setFn n m).launches = s.launches := rfl
@[simp] theorem State.setFn_cores (s : State) (n : Nat) (m : Fn) : (s.setFn n m).cores = s.cores := rfl
@[simp] theorem State.setFn_dies (s : State) (n : Nat) (m : Fn) : (s.setFn n m).dies = s.dies := rfl
@[simp] theorem State.setFn_vfs (s : State) (n : Nat) (m : Fn) : (s.setFn n m).vfs = s.vfs := rfl
@[simp] theorem State.setFn_leaves (s : State) (n : Nat) (m : Fn) : (s.setFn n m).leaves = s.leaves := rfl
@[simp] theorem State.setFn_accs (s : State) (n : Nat) (m : Fn) : (s.setFn n m).accs = s.accs := rfl
@[simp] theorem State.setFn_jobs (s : State) (n : Nat) (m : Fn) : (s.setFn n m).jobs = s.jobs := rfl
@[simp] theorem State.setFn_rems (s : State) (n : Nat) (m : Fn) : (s.setFn n m).rems = s.rems := rfl
@[simp] theorem State.setFn_unposted (s : State) (n : Nat) (m : Fn) : (s.setFn n m).unposted = s.unposted := rfl
@[simp] theorem State.setFn_dev (s : State) (n : Nat) (m : Fn) : (s.setFn n m).dev = s.dev := rfl

@[simp] theorem State.modFn_tick (s : State) (n : Nat) (f : Fn → Fn) : (s.modFn n f).tick = s.tick := rfl
@[simp] theorem State.modFn_now (s : State) (n : Nat) (f : Fn → Fn) : (s.modFn n f).now = s.now := rfl
@[simp] theorem State.modFn_pending (s : State) (n : Nat) (f : Fn → Fn) : (s.modFn n f).pending = s.pending := rfl
@[simp] theorem State.modFn_nextId (s : State) (n : Nat) (f : Fn → Fn) : (s.modFn n f).nextId = s.nextId := rfl
@[simp] theorem State.modFn_inbox (s : State) (n : Nat) (f : Fn → Fn) : (s.modFn n f).inbox = s.inbox := rfl
@[simp] theorem State.modFn_input (s : State) (n : Nat) (f : Fn → Fn) : (s.modFn n f).input = s.input := rfl
@[simp] theorem State.modFn_limited (s : State) (n : Nat) (f : Fn → Fn) : (s.modFn n f).limited = s.limited := rfl
@[simp] theorem State.modFn_cur (s : State) (n : Nat) (f : Fn → Fn) : (s.modFn n f).cur = s.cur := rfl
@[simp] theorem State.modFn_cmd (s : State) (n : Nat) (f : Fn → Fn) : (s.modFn n f).cmd = s.cmd := rfl
@[simp] theorem State.modFn_mem (s : State) (n : Nat) (f : Fn → Fn) : (s.modFn n f).mem = s.mem := rfl
@[simp] theorem State.modFn_poison (s : State) (n : Nat) (f : Fn → Fn) : (s.modFn n f).poison = s.poison := rfl
@[simp] theorem State.modFn_groups (s : State) (n : Nat) (f : Fn → Fn) : (s.modFn n f).groups = s.groups := rfl
@[simp] theorem State.modFn_teams (s : State) (n : Nat) (f : Fn → Fn) : (s.modFn n f).teams = s.teams := rfl
@[simp] theorem State.modFn_launches (s : State) (n : Nat) (f : Fn → Fn) : (s.modFn n f).launches = s.launches := rfl
@[simp] theorem State.modFn_cores (s : State) (n : Nat) (f : Fn → Fn) : (s.modFn n f).cores = s.cores := rfl
@[simp] theorem State.modFn_dies (s : State) (n : Nat) (f : Fn → Fn) : (s.modFn n f).dies = s.dies := rfl
@[simp] theorem State.modFn_vfs (s : State) (n : Nat) (f : Fn → Fn) : (s.modFn n f).vfs = s.vfs := rfl
@[simp] theorem State.modFn_leaves (s : State) (n : Nat) (f : Fn → Fn) : (s.modFn n f).leaves = s.leaves := rfl
@[simp] theorem State.modFn_accs (s : State) (n : Nat) (f : Fn → Fn) : (s.modFn n f).accs = s.accs := rfl
@[simp] theorem State.modFn_jobs (s : State) (n : Nat) (f : Fn → Fn) : (s.modFn n f).jobs = s.jobs := rfl
@[simp] theorem State.modFn_rems (s : State) (n : Nat) (f : Fn → Fn) : (s.modFn n f).rems = s.rems := rfl
@[simp] theorem State.modFn_unposted (s : State) (n : Nat) (f : Fn → Fn) : (s.modFn n f).unposted = s.unposted := rfl
@[simp] theorem State.modFn_dev (s : State) (n : Nat) (f : Fn → Fn) : (s.modFn n f).dev = s.dev := rfl

@[simp] theorem State.setVf_tick (s : State) (v : Nat) (m : Vf) : (s.setVf v m).tick = s.tick := rfl
@[simp] theorem State.setVf_now (s : State) (v : Nat) (m : Vf) : (s.setVf v m).now = s.now := rfl
@[simp] theorem State.setVf_pending (s : State) (v : Nat) (m : Vf) : (s.setVf v m).pending = s.pending := rfl
@[simp] theorem State.setVf_nextId (s : State) (v : Nat) (m : Vf) : (s.setVf v m).nextId = s.nextId := rfl
@[simp] theorem State.setVf_inbox (s : State) (v : Nat) (m : Vf) : (s.setVf v m).inbox = s.inbox := rfl
@[simp] theorem State.setVf_input (s : State) (v : Nat) (m : Vf) : (s.setVf v m).input = s.input := rfl
@[simp] theorem State.setVf_limited (s : State) (v : Nat) (m : Vf) : (s.setVf v m).limited = s.limited := rfl
@[simp] theorem State.setVf_cur (s : State) (v : Nat) (m : Vf) : (s.setVf v m).cur = s.cur := rfl
@[simp] theorem State.setVf_cmd (s : State) (v : Nat) (m : Vf) : (s.setVf v m).cmd = s.cmd := rfl
@[simp] theorem State.setVf_mem (s : State) (v : Nat) (m : Vf) : (s.setVf v m).mem = s.mem := rfl
@[simp] theorem State.setVf_poison (s : State) (v : Nat) (m : Vf) : (s.setVf v m).poison = s.poison := rfl
@[simp] theorem State.setVf_groups (s : State) (v : Nat) (m : Vf) : (s.setVf v m).groups = s.groups := rfl
@[simp] theorem State.setVf_teams (s : State) (v : Nat) (m : Vf) : (s.setVf v m).teams = s.teams := rfl
@[simp] theorem State.setVf_launches (s : State) (v : Nat) (m : Vf) : (s.setVf v m).launches = s.launches := rfl
@[simp] theorem State.setVf_cores (s : State) (v : Nat) (m : Vf) : (s.setVf v m).cores = s.cores := rfl
@[simp] theorem State.setVf_dies (s : State) (v : Nat) (m : Vf) : (s.setVf v m).dies = s.dies := rfl
@[simp] theorem State.setVf_fns (s : State) (v : Nat) (m : Vf) : (s.setVf v m).fns = s.fns := rfl
@[simp] theorem State.setVf_leaves (s : State) (v : Nat) (m : Vf) : (s.setVf v m).leaves = s.leaves := rfl
@[simp] theorem State.setVf_accs (s : State) (v : Nat) (m : Vf) : (s.setVf v m).accs = s.accs := rfl
@[simp] theorem State.setVf_jobs (s : State) (v : Nat) (m : Vf) : (s.setVf v m).jobs = s.jobs := rfl
@[simp] theorem State.setVf_rems (s : State) (v : Nat) (m : Vf) : (s.setVf v m).rems = s.rems := rfl
@[simp] theorem State.setVf_unposted (s : State) (v : Nat) (m : Vf) : (s.setVf v m).unposted = s.unposted := rfl
@[simp] theorem State.setVf_dev (s : State) (v : Nat) (m : Vf) : (s.setVf v m).dev = s.dev := rfl

@[simp] theorem State.modVf_tick (s : State) (v : Nat) (f : Vf → Vf) : (s.modVf v f).tick = s.tick := rfl
@[simp] theorem State.modVf_now (s : State) (v : Nat) (f : Vf → Vf) : (s.modVf v f).now = s.now := rfl
@[simp] theorem State.modVf_pending (s : State) (v : Nat) (f : Vf → Vf) : (s.modVf v f).pending = s.pending := rfl
@[simp] theorem State.modVf_nextId (s : State) (v : Nat) (f : Vf → Vf) : (s.modVf v f).nextId = s.nextId := rfl
@[simp] theorem State.modVf_inbox (s : State) (v : Nat) (f : Vf → Vf) : (s.modVf v f).inbox = s.inbox := rfl
@[simp] theorem State.modVf_input (s : State) (v : Nat) (f : Vf → Vf) : (s.modVf v f).input = s.input := rfl
@[simp] theorem State.modVf_limited (s : State) (v : Nat) (f : Vf → Vf) : (s.modVf v f).limited = s.limited := rfl
@[simp] theorem State.modVf_cur (s : State) (v : Nat) (f : Vf → Vf) : (s.modVf v f).cur = s.cur := rfl
@[simp] theorem State.modVf_cmd (s : State) (v : Nat) (f : Vf → Vf) : (s.modVf v f).cmd = s.cmd := rfl
@[simp] theorem State.modVf_mem (s : State) (v : Nat) (f : Vf → Vf) : (s.modVf v f).mem = s.mem := rfl
@[simp] theorem State.modVf_poison (s : State) (v : Nat) (f : Vf → Vf) : (s.modVf v f).poison = s.poison := rfl
@[simp] theorem State.modVf_groups (s : State) (v : Nat) (f : Vf → Vf) : (s.modVf v f).groups = s.groups := rfl
@[simp] theorem State.modVf_teams (s : State) (v : Nat) (f : Vf → Vf) : (s.modVf v f).teams = s.teams := rfl
@[simp] theorem State.modVf_launches (s : State) (v : Nat) (f : Vf → Vf) : (s.modVf v f).launches = s.launches := rfl
@[simp] theorem State.modVf_cores (s : State) (v : Nat) (f : Vf → Vf) : (s.modVf v f).cores = s.cores := rfl
@[simp] theorem State.modVf_dies (s : State) (v : Nat) (f : Vf → Vf) : (s.modVf v f).dies = s.dies := rfl
@[simp] theorem State.modVf_fns (s : State) (v : Nat) (f : Vf → Vf) : (s.modVf v f).fns = s.fns := rfl
@[simp] theorem State.modVf_leaves (s : State) (v : Nat) (f : Vf → Vf) : (s.modVf v f).leaves = s.leaves := rfl
@[simp] theorem State.modVf_accs (s : State) (v : Nat) (f : Vf → Vf) : (s.modVf v f).accs = s.accs := rfl
@[simp] theorem State.modVf_jobs (s : State) (v : Nat) (f : Vf → Vf) : (s.modVf v f).jobs = s.jobs := rfl
@[simp] theorem State.modVf_rems (s : State) (v : Nat) (f : Vf → Vf) : (s.modVf v f).rems = s.rems := rfl
@[simp] theorem State.modVf_unposted (s : State) (v : Nat) (f : Vf → Vf) : (s.modVf v f).unposted = s.unposted := rfl
@[simp] theorem State.modVf_dev (s : State) (v : Nat) (f : Vf → Vf) : (s.modVf v f).dev = s.dev := rfl

@[simp] theorem State.modLeaf_tick (s : State) (n : Nat) (f : Leaf → Leaf) : (s.modLeaf n f).tick = s.tick := by unfold State.modLeaf; split <;> rfl
@[simp] theorem State.modLeaf_now (s : State) (n : Nat) (f : Leaf → Leaf) : (s.modLeaf n f).now = s.now := by unfold State.modLeaf; split <;> rfl
@[simp] theorem State.modLeaf_pending (s : State) (n : Nat) (f : Leaf → Leaf) : (s.modLeaf n f).pending = s.pending := by unfold State.modLeaf; split <;> rfl
@[simp] theorem State.modLeaf_nextId (s : State) (n : Nat) (f : Leaf → Leaf) : (s.modLeaf n f).nextId = s.nextId := by unfold State.modLeaf; split <;> rfl
@[simp] theorem State.modLeaf_inbox (s : State) (n : Nat) (f : Leaf → Leaf) : (s.modLeaf n f).inbox = s.inbox := by unfold State.modLeaf; split <;> rfl
@[simp] theorem State.modLeaf_input (s : State) (n : Nat) (f : Leaf → Leaf) : (s.modLeaf n f).input = s.input := by unfold State.modLeaf; split <;> rfl
@[simp] theorem State.modLeaf_limited (s : State) (n : Nat) (f : Leaf → Leaf) : (s.modLeaf n f).limited = s.limited := by unfold State.modLeaf; split <;> rfl
@[simp] theorem State.modLeaf_cur (s : State) (n : Nat) (f : Leaf → Leaf) : (s.modLeaf n f).cur = s.cur := by unfold State.modLeaf; split <;> rfl
@[simp] theorem State.modLeaf_cmd (s : State) (n : Nat) (f : Leaf → Leaf) : (s.modLeaf n f).cmd = s.cmd := by unfold State.modLeaf; split <;> rfl
@[simp] theorem State.modLeaf_mem (s : State) (n : Nat) (f : Leaf → Leaf) : (s.modLeaf n f).mem = s.mem := by unfold State.modLeaf; split <;> rfl
@[simp] theorem State.modLeaf_poison (s : State) (n : Nat) (f : Leaf → Leaf) : (s.modLeaf n f).poison = s.poison := by unfold State.modLeaf; split <;> rfl
@[simp] theorem State.modLeaf_groups (s : State) (n : Nat) (f : Leaf → Leaf) : (s.modLeaf n f).groups = s.groups := by unfold State.modLeaf; split <;> rfl
@[simp] theorem State.modLeaf_teams (s : State) (n : Nat) (f : Leaf → Leaf) : (s.modLeaf n f).teams = s.teams := by unfold State.modLeaf; split <;> rfl
@[simp] theorem State.modLeaf_launches (s : State) (n : Nat) (f : Leaf → Leaf) : (s.modLeaf n f).launches = s.launches := by unfold State.modLeaf; split <;> rfl
@[simp] theorem State.modLeaf_cores (s : State) (n : Nat) (f : Leaf → Leaf) : (s.modLeaf n f).cores = s.cores := by unfold State.modLeaf; split <;> rfl
@[simp] theorem State.modLeaf_dies (s : State) (n : Nat) (f : Leaf → Leaf) : (s.modLeaf n f).dies = s.dies := by unfold State.modLeaf; split <;> rfl
@[simp] theorem State.modLeaf_fns (s : State) (n : Nat) (f : Leaf → Leaf) : (s.modLeaf n f).fns = s.fns := by unfold State.modLeaf; split <;> rfl
@[simp] theorem State.modLeaf_vfs (s : State) (n : Nat) (f : Leaf → Leaf) : (s.modLeaf n f).vfs = s.vfs := by unfold State.modLeaf; split <;> rfl
@[simp] theorem State.modLeaf_accs (s : State) (n : Nat) (f : Leaf → Leaf) : (s.modLeaf n f).accs = s.accs := by unfold State.modLeaf; split <;> rfl
@[simp] theorem State.modLeaf_jobs (s : State) (n : Nat) (f : Leaf → Leaf) : (s.modLeaf n f).jobs = s.jobs := by unfold State.modLeaf; split <;> rfl
@[simp] theorem State.modLeaf_rems (s : State) (n : Nat) (f : Leaf → Leaf) : (s.modLeaf n f).rems = s.rems := by unfold State.modLeaf; split <;> rfl
@[simp] theorem State.modLeaf_unposted (s : State) (n : Nat) (f : Leaf → Leaf) : (s.modLeaf n f).unposted = s.unposted := by unfold State.modLeaf; split <;> rfl
@[simp] theorem State.modLeaf_dev (s : State) (n : Nat) (f : Leaf → Leaf) : (s.modLeaf n f).dev = s.dev := by unfold State.modLeaf; split <;> rfl

@[simp] theorem State.setAcc_tick (s : State) (a : Nat) (m : Acc) : (s.setAcc a m).tick = s.tick := rfl
@[simp] theorem State.setAcc_now (s : State) (a : Nat) (m : Acc) : (s.setAcc a m).now = s.now := rfl
@[simp] theorem State.setAcc_pending (s : State) (a : Nat) (m : Acc) : (s.setAcc a m).pending = s.pending := rfl
@[simp] theorem State.setAcc_nextId (s : State) (a : Nat) (m : Acc) : (s.setAcc a m).nextId = s.nextId := rfl
@[simp] theorem State.setAcc_inbox (s : State) (a : Nat) (m : Acc) : (s.setAcc a m).inbox = s.inbox := rfl
@[simp] theorem State.setAcc_input (s : State) (a : Nat) (m : Acc) : (s.setAcc a m).input = s.input := rfl
@[simp] theorem State.setAcc_limited (s : State) (a : Nat) (m : Acc) : (s.setAcc a m).limited = s.limited := rfl
@[simp] theorem State.setAcc_cur (s : State) (a : Nat) (m : Acc) : (s.setAcc a m).cur = s.cur := rfl
@[simp] theorem State.setAcc_cmd (s : State) (a : Nat) (m : Acc) : (s.setAcc a m).cmd = s.cmd := rfl
@[simp] theorem State.setAcc_mem (s : State) (a : Nat) (m : Acc) : (s.setAcc a m).mem = s.mem := rfl
@[simp] theorem State.setAcc_poison (s : State) (a : Nat) (m : Acc) : (s.setAcc a m).poison = s.poison := rfl
@[simp] theorem State.setAcc_groups (s : State) (a : Nat) (m : Acc) : (s.setAcc a m).groups = s.groups := rfl
@[simp] theorem State.setAcc_teams (s : State) (a : Nat) (m : Acc) : (s.setAcc a m).teams = s.teams := rfl
@[simp] theorem State.setAcc_launches (s : State) (a : Nat) (m : Acc) : (s.setAcc a m).launches = s.launches := rfl
@[simp] theorem State.setAcc_cores (s : State) (a : Nat) (m : Acc) : (s.setAcc a m).cores = s.cores := rfl
@[simp] theorem State.setAcc_dies (s : State) (a : Nat) (m : Acc) : (s.setAcc a m).dies = s.dies := rfl
@[simp] theorem State.setAcc_fns (s : State) (a : Nat) (m : Acc) : (s.setAcc a m).fns = s.fns := rfl
@[simp] theorem State.setAcc_vfs (s : State) (a : Nat) (m : Acc) : (s.setAcc a m).vfs = s.vfs := rfl
@[simp] theorem State.setAcc_leaves (s : State) (a : Nat) (m : Acc) : (s.setAcc a m).leaves = s.leaves := rfl
@[simp] theorem State.setAcc_jobs (s : State) (a : Nat) (m : Acc) : (s.setAcc a m).jobs = s.jobs := rfl
@[simp] theorem State.setAcc_rems (s : State) (a : Nat) (m : Acc) : (s.setAcc a m).rems = s.rems := rfl
@[simp] theorem State.setAcc_unposted (s : State) (a : Nat) (m : Acc) : (s.setAcc a m).unposted = s.unposted := rfl
@[simp] theorem State.setAcc_dev (s : State) (a : Nat) (m : Acc) : (s.setAcc a m).dev = s.dev := rfl

@[simp] theorem State.modDev_tick (s : State) (f : Device → Device) : (s.modDev f).tick = s.tick := rfl
@[simp] theorem State.modDev_now (s : State) (f : Device → Device) : (s.modDev f).now = s.now := rfl
@[simp] theorem State.modDev_pending (s : State) (f : Device → Device) : (s.modDev f).pending = s.pending := rfl
@[simp] theorem State.modDev_nextId (s : State) (f : Device → Device) : (s.modDev f).nextId = s.nextId := rfl
@[simp] theorem State.modDev_inbox (s : State) (f : Device → Device) : (s.modDev f).inbox = s.inbox := rfl
@[simp] theorem State.modDev_input (s : State) (f : Device → Device) : (s.modDev f).input = s.input := rfl
@[simp] theorem State.modDev_limited (s : State) (f : Device → Device) : (s.modDev f).limited = s.limited := rfl
@[simp] theorem State.modDev_cur (s : State) (f : Device → Device) : (s.modDev f).cur = s.cur := rfl
@[simp] theorem State.modDev_cmd (s : State) (f : Device → Device) : (s.modDev f).cmd = s.cmd := rfl
@[simp] theorem State.modDev_mem (s : State) (f : Device → Device) : (s.modDev f).mem = s.mem := rfl
@[simp] theorem State.modDev_poison (s : State) (f : Device → Device) : (s.modDev f).poison = s.poison := rfl
@[simp] theorem State.modDev_groups (s : State) (f : Device → Device) : (s.modDev f).groups = s.groups := rfl
@[simp] theorem State.modDev_teams (s : State) (f : Device → Device) : (s.modDev f).teams = s.teams := rfl
@[simp] theorem State.modDev_launches (s : State) (f : Device → Device) : (s.modDev f).launches = s.launches := rfl
@[simp] theorem State.modDev_cores (s : State) (f : Device → Device) : (s.modDev f).cores = s.cores := rfl
@[simp] theorem State.modDev_dies (s : State) (f : Device → Device) : (s.modDev f).dies = s.dies := rfl
@[simp] theorem State.modDev_fns (s : State) (f : Device → Device) : (s.modDev f).fns = s.fns := rfl
@[simp] theorem State.modDev_vfs (s : State) (f : Device → Device) : (s.modDev f).vfs = s.vfs := rfl
@[simp] theorem State.modDev_leaves (s : State) (f : Device → Device) : (s.modDev f).leaves = s.leaves := rfl
@[simp] theorem State.modDev_accs (s : State) (f : Device → Device) : (s.modDev f).accs = s.accs := rfl
@[simp] theorem State.modDev_jobs (s : State) (f : Device → Device) : (s.modDev f).jobs = s.jobs := rfl
@[simp] theorem State.modDev_rems (s : State) (f : Device → Device) : (s.modDev f).rems = s.rems := rfl
@[simp] theorem State.modDev_unposted (s : State) (f : Device → Device) : (s.modDev f).unposted = s.unposted := rfl

@[simp] theorem State.send_tick (s : State) (m : Instr) (r : Option Route) : (s.send m r).tick = s.tick := rfl
@[simp] theorem State.send_now (s : State) (m : Instr) (r : Option Route) : (s.send m r).now = s.now := rfl
@[simp] theorem State.send_nextId (s : State) (m : Instr) (r : Option Route) : (s.send m r).nextId = s.nextId := rfl
@[simp] theorem State.send_inbox (s : State) (m : Instr) (r : Option Route) : (s.send m r).inbox = s.inbox := rfl
@[simp] theorem State.send_input (s : State) (m : Instr) (r : Option Route) : (s.send m r).input = s.input := rfl
@[simp] theorem State.send_limited (s : State) (m : Instr) (r : Option Route) : (s.send m r).limited = s.limited := rfl
@[simp] theorem State.send_cur (s : State) (m : Instr) (r : Option Route) : (s.send m r).cur = s.cur := rfl
@[simp] theorem State.send_cmd (s : State) (m : Instr) (r : Option Route) : (s.send m r).cmd = s.cmd := rfl
@[simp] theorem State.send_mem (s : State) (m : Instr) (r : Option Route) : (s.send m r).mem = s.mem := rfl
@[simp] theorem State.send_poison (s : State) (m : Instr) (r : Option Route) : (s.send m r).poison = s.poison := rfl
@[simp] theorem State.send_groups (s : State) (m : Instr) (r : Option Route) : (s.send m r).groups = s.groups := rfl
@[simp] theorem State.send_teams (s : State) (m : Instr) (r : Option Route) : (s.send m r).teams = s.teams := rfl
@[simp] theorem State.send_launches (s : State) (m : Instr) (r : Option Route) : (s.send m r).launches = s.launches := rfl
@[simp] theorem State.send_cores (s : State) (m : Instr) (r : Option Route) : (s.send m r).cores = s.cores := rfl
@[simp] theorem State.send_dies (s : State) (m : Instr) (r : Option Route) : (s.send m r).dies = s.dies := rfl
@[simp] theorem State.send_fns (s : State) (m : Instr) (r : Option Route) : (s.send m r).fns = s.fns := rfl
@[simp] theorem State.send_vfs (s : State) (m : Instr) (r : Option Route) : (s.send m r).vfs = s.vfs := rfl
@[simp] theorem State.send_leaves (s : State) (m : Instr) (r : Option Route) : (s.send m r).leaves = s.leaves := rfl
@[simp] theorem State.send_accs (s : State) (m : Instr) (r : Option Route) : (s.send m r).accs = s.accs := rfl
@[simp] theorem State.send_jobs (s : State) (m : Instr) (r : Option Route) : (s.send m r).jobs = s.jobs := rfl
@[simp] theorem State.send_rems (s : State) (m : Instr) (r : Option Route) : (s.send m r).rems = s.rems := rfl
@[simp] theorem State.send_unposted (s : State) (m : Instr) (r : Option Route) : (s.send m r).unposted = s.unposted := rfl
@[simp] theorem State.send_dev (s : State) (m : Instr) (r : Option Route) : (s.send m r).dev = s.dev := rfl

@[simp] theorem State.bump_tick (s : State) : (s.bump).tick = s.tick := rfl
@[simp] theorem State.bump_now (s : State) : (s.bump).now = s.now := rfl
@[simp] theorem State.bump_pending (s : State) : (s.bump).pending = s.pending := rfl
@[simp] theorem State.bump_inbox (s : State) : (s.bump).inbox = s.inbox := rfl
@[simp] theorem State.bump_input (s : State) : (s.bump).input = s.input := rfl
@[simp] theorem State.bump_limited (s : State) : (s.bump).limited = s.limited := rfl
@[simp] theorem State.bump_cur (s : State) : (s.bump).cur = s.cur := rfl
@[simp] theorem State.bump_cmd (s : State) : (s.bump).cmd = s.cmd := rfl
@[simp] theorem State.bump_mem (s : State) : (s.bump).mem = s.mem := rfl
@[simp] theorem State.bump_poison (s : State) : (s.bump).poison = s.poison := rfl
@[simp] theorem State.bump_groups (s : State) : (s.bump).groups = s.groups := rfl
@[simp] theorem State.bump_teams (s : State) : (s.bump).teams = s.teams := rfl
@[simp] theorem State.bump_launches (s : State) : (s.bump).launches = s.launches := rfl
@[simp] theorem State.bump_cores (s : State) : (s.bump).cores = s.cores := rfl
@[simp] theorem State.bump_dies (s : State) : (s.bump).dies = s.dies := rfl
@[simp] theorem State.bump_fns (s : State) : (s.bump).fns = s.fns := rfl
@[simp] theorem State.bump_vfs (s : State) : (s.bump).vfs = s.vfs := rfl
@[simp] theorem State.bump_leaves (s : State) : (s.bump).leaves = s.leaves := rfl
@[simp] theorem State.bump_accs (s : State) : (s.bump).accs = s.accs := rfl
@[simp] theorem State.bump_jobs (s : State) : (s.bump).jobs = s.jobs := rfl
@[simp] theorem State.bump_rems (s : State) : (s.bump).rems = s.rems := rfl
@[simp] theorem State.bump_unposted (s : State) : (s.bump).unposted = s.unposted := rfl
@[simp] theorem State.bump_dev (s : State) : (s.bump).dev = s.dev := rfl

@[simp] theorem State.rest_tick (s : State) : (s.rest).tick = s.tick := rfl
@[simp] theorem State.rest_now (s : State) : (s.rest).now = s.now := rfl
@[simp] theorem State.rest_pending (s : State) : (s.rest).pending = s.pending := rfl
@[simp] theorem State.rest_nextId (s : State) : (s.rest).nextId = s.nextId := rfl
@[simp] theorem State.rest_inbox (s : State) : (s.rest).inbox = s.inbox := rfl
@[simp] theorem State.rest_limited (s : State) : (s.rest).limited = s.limited := rfl
@[simp] theorem State.rest_mem (s : State) : (s.rest).mem = s.mem := rfl
@[simp] theorem State.rest_poison (s : State) : (s.rest).poison = s.poison := rfl
@[simp] theorem State.rest_groups (s : State) : (s.rest).groups = s.groups := rfl
@[simp] theorem State.rest_teams (s : State) : (s.rest).teams = s.teams := rfl
@[simp] theorem State.rest_launches (s : State) : (s.rest).launches = s.launches := rfl
@[simp] theorem State.rest_cores (s : State) : (s.rest).cores = s.cores := rfl
@[simp] theorem State.rest_dies (s : State) : (s.rest).dies = s.dies := rfl
@[simp] theorem State.rest_fns (s : State) : (s.rest).fns = s.fns := rfl
@[simp] theorem State.rest_vfs (s : State) : (s.rest).vfs = s.vfs := rfl
@[simp] theorem State.rest_leaves (s : State) : (s.rest).leaves = s.leaves := rfl
@[simp] theorem State.rest_accs (s : State) : (s.rest).accs = s.accs := rfl
@[simp] theorem State.rest_jobs (s : State) : (s.rest).jobs = s.jobs := rfl
@[simp] theorem State.rest_rems (s : State) : (s.rest).rems = s.rems := rfl
@[simp] theorem State.rest_unposted (s : State) : (s.rest).unposted = s.unposted := rfl
@[simp] theorem State.rest_dev (s : State) : (s.rest).dev = s.dev := rfl

@[simp] theorem State.charge_tick (s : State) (p : Payer) (c n : Nat) : (s.charge p c n).tick = s.tick := by unfold State.charge; split <;> rfl
@[simp] theorem State.charge_now (s : State) (p : Payer) (c n : Nat) : (s.charge p c n).now = s.now := by unfold State.charge; split <;> rfl
@[simp] theorem State.charge_pending (s : State) (p : Payer) (c n : Nat) : (s.charge p c n).pending = s.pending := by unfold State.charge; split <;> rfl
@[simp] theorem State.charge_nextId (s : State) (p : Payer) (c n : Nat) : (s.charge p c n).nextId = s.nextId := by unfold State.charge; split <;> rfl
@[simp] theorem State.charge_inbox (s : State) (p : Payer) (c n : Nat) : (s.charge p c n).inbox = s.inbox := by unfold State.charge; split <;> rfl
@[simp] theorem State.charge_input (s : State) (p : Payer) (c n : Nat) : (s.charge p c n).input = s.input := by unfold State.charge; split <;> rfl
@[simp] theorem State.charge_limited (s : State) (p : Payer) (c n : Nat) : (s.charge p c n).limited = s.limited := by unfold State.charge; split <;> rfl
@[simp] theorem State.charge_cur (s : State) (p : Payer) (c n : Nat) : (s.charge p c n).cur = s.cur := by unfold State.charge; split <;> rfl
@[simp] theorem State.charge_cmd (s : State) (p : Payer) (c n : Nat) : (s.charge p c n).cmd = s.cmd := by unfold State.charge; split <;> rfl
@[simp] theorem State.charge_mem (s : State) (p : Payer) (c n : Nat) : (s.charge p c n).mem = s.mem := by unfold State.charge; split <;> rfl
@[simp] theorem State.charge_poison (s : State) (p : Payer) (c n : Nat) : (s.charge p c n).poison = s.poison := by unfold State.charge; split <;> rfl
@[simp] theorem State.charge_groups (s : State) (p : Payer) (c n : Nat) : (s.charge p c n).groups = s.groups := by unfold State.charge; split <;> rfl
@[simp] theorem State.charge_teams (s : State) (p : Payer) (c n : Nat) : (s.charge p c n).teams = s.teams := by unfold State.charge; split <;> rfl
@[simp] theorem State.charge_launches (s : State) (p : Payer) (c n : Nat) : (s.charge p c n).launches = s.launches := by unfold State.charge; split <;> rfl
@[simp] theorem State.charge_cores (s : State) (p : Payer) (c n : Nat) : (s.charge p c n).cores = s.cores := by unfold State.charge; split <;> rfl
@[simp] theorem State.charge_dies (s : State) (p : Payer) (c n : Nat) : (s.charge p c n).dies = s.dies := by unfold State.charge; split <;> rfl
@[simp] theorem State.charge_fns (s : State) (p : Payer) (c n : Nat) : (s.charge p c n).fns = s.fns := by unfold State.charge; split <;> rfl
@[simp] theorem State.charge_vfs (s : State) (p : Payer) (c n : Nat) : (s.charge p c n).vfs = s.vfs := by unfold State.charge; split <;> rfl
@[simp] theorem State.charge_leaves (s : State) (p : Payer) (c n : Nat) : (s.charge p c n).leaves = s.leaves := by unfold State.charge; split <;> rfl
@[simp] theorem State.charge_accs (s : State) (p : Payer) (c n : Nat) : (s.charge p c n).accs = s.accs := by unfold State.charge; split <;> rfl
@[simp] theorem State.charge_jobs (s : State) (p : Payer) (c n : Nat) : (s.charge p c n).jobs = s.jobs := by unfold State.charge; split <;> rfl
@[simp] theorem State.charge_rems (s : State) (p : Payer) (c n : Nat) : (s.charge p c n).rems = s.rems := by unfold State.charge; split <;> rfl
@[simp] theorem State.charge_dev (s : State) (p : Payer) (c n : Nat) : (s.charge p c n).dev = s.dev := by unfold State.charge; split <;> rfl

@[simp] theorem State.chargeN_tick (s : State) (p : Payer) (c n : Nat) : (s.chargeN p c n).tick = s.tick := by unfold State.chargeN; split <;> rfl
@[simp] theorem State.chargeN_now (s : State) (p : Payer) (c n : Nat) : (s.chargeN p c n).now = s.now := by unfold State.chargeN; split <;> rfl
@[simp] theorem State.chargeN_pending (s : State) (p : Payer) (c n : Nat) : (s.chargeN p c n).pending = s.pending := by unfold State.chargeN; split <;> rfl
@[simp] theorem State.chargeN_nextId (s : State) (p : Payer) (c n : Nat) : (s.chargeN p c n).nextId = s.nextId := by unfold State.chargeN; split <;> rfl
@[simp] theorem State.chargeN_inbox (s : State) (p : Payer) (c n : Nat) : (s.chargeN p c n).inbox = s.inbox := by unfold State.chargeN; split <;> rfl
@[simp] theorem State.chargeN_input (s : State) (p : Payer) (c n : Nat) : (s.chargeN p c n).input = s.input := by unfold State.chargeN; split <;> rfl
@[simp] theorem State.chargeN_limited (s : State) (p : Payer) (c n : Nat) : (s.chargeN p c n).limited = s.limited := by unfold State.chargeN; split <;> rfl
@[simp] theorem State.chargeN_cur (s : State) (p : Payer) (c n : Nat) : (s.chargeN p c n).cur = s.cur := by unfold State.chargeN; split <;> rfl
@[simp] theorem State.chargeN_cmd (s : State) (p : Payer) (c n : Nat) : (s.chargeN p c n).cmd = s.cmd := by unfold State.chargeN; split <;> rfl
@[simp] theorem State.chargeN_mem (s : State) (p : Payer) (c n : Nat) : (s.chargeN p c n).mem = s.mem := by unfold State.chargeN; split <;> rfl
@[simp] theorem State.chargeN_poison (s : State) (p : Payer) (c n : Nat) : (s.chargeN p c n).poison = s.poison := by unfold State.chargeN; split <;> rfl
@[simp] theorem State.chargeN_groups (s : State) (p : Payer) (c n : Nat) : (s.chargeN p c n).groups = s.groups := by unfold State.chargeN; split <;> rfl
@[simp] theorem State.chargeN_teams (s : State) (p : Payer) (c n : Nat) : (s.chargeN p c n).teams = s.teams := by unfold State.chargeN; split <;> rfl
@[simp] theorem State.chargeN_launches (s : State) (p : Payer) (c n : Nat) : (s.chargeN p c n).launches = s.launches := by unfold State.chargeN; split <;> rfl
@[simp] theorem State.chargeN_cores (s : State) (p : Payer) (c n : Nat) : (s.chargeN p c n).cores = s.cores := by unfold State.chargeN; split <;> rfl
@[simp] theorem State.chargeN_dies (s : State) (p : Payer) (c n : Nat) : (s.chargeN p c n).dies = s.dies := by unfold State.chargeN; split <;> rfl
@[simp] theorem State.chargeN_fns (s : State) (p : Payer) (c n : Nat) : (s.chargeN p c n).fns = s.fns := by unfold State.chargeN; split <;> rfl
@[simp] theorem State.chargeN_vfs (s : State) (p : Payer) (c n : Nat) : (s.chargeN p c n).vfs = s.vfs := by unfold State.chargeN; split <;> rfl
@[simp] theorem State.chargeN_leaves (s : State) (p : Payer) (c n : Nat) : (s.chargeN p c n).leaves = s.leaves := by unfold State.chargeN; split <;> rfl
@[simp] theorem State.chargeN_accs (s : State) (p : Payer) (c n : Nat) : (s.chargeN p c n).accs = s.accs := by unfold State.chargeN; split <;> rfl
@[simp] theorem State.chargeN_jobs (s : State) (p : Payer) (c n : Nat) : (s.chargeN p c n).jobs = s.jobs := by unfold State.chargeN; split <;> rfl
@[simp] theorem State.chargeN_rems (s : State) (p : Payer) (c n : Nat) : (s.chargeN p c n).rems = s.rems := by unfold State.chargeN; split <;> rfl
@[simp] theorem State.chargeN_dev (s : State) (p : Payer) (c n : Nat) : (s.chargeN p c n).dev = s.dev := by unfold State.chargeN; split <;> rfl

@[simp] theorem State.countSkid_tick (s : State) (k : Nat) (m : BitVec 32) (i : Nat) : (s.countSkid k m i).tick = s.tick := rfl
@[simp] theorem State.countSkid_now (s : State) (k : Nat) (m : BitVec 32) (i : Nat) : (s.countSkid k m i).now = s.now := rfl
@[simp] theorem State.countSkid_pending (s : State) (k : Nat) (m : BitVec 32) (i : Nat) : (s.countSkid k m i).pending = s.pending := rfl
@[simp] theorem State.countSkid_nextId (s : State) (k : Nat) (m : BitVec 32) (i : Nat) : (s.countSkid k m i).nextId = s.nextId := rfl
@[simp] theorem State.countSkid_inbox (s : State) (k : Nat) (m : BitVec 32) (i : Nat) : (s.countSkid k m i).inbox = s.inbox := rfl
@[simp] theorem State.countSkid_input (s : State) (k : Nat) (m : BitVec 32) (i : Nat) : (s.countSkid k m i).input = s.input := rfl
@[simp] theorem State.countSkid_limited (s : State) (k : Nat) (m : BitVec 32) (i : Nat) : (s.countSkid k m i).limited = s.limited := rfl
@[simp] theorem State.countSkid_cur (s : State) (k : Nat) (m : BitVec 32) (i : Nat) : (s.countSkid k m i).cur = s.cur := rfl
@[simp] theorem State.countSkid_cmd (s : State) (k : Nat) (m : BitVec 32) (i : Nat) : (s.countSkid k m i).cmd = s.cmd := rfl
@[simp] theorem State.countSkid_mem (s : State) (k : Nat) (m : BitVec 32) (i : Nat) : (s.countSkid k m i).mem = s.mem := rfl
@[simp] theorem State.countSkid_poison (s : State) (k : Nat) (m : BitVec 32) (i : Nat) : (s.countSkid k m i).poison = s.poison := rfl
@[simp] theorem State.countSkid_groups (s : State) (k : Nat) (m : BitVec 32) (i : Nat) : (s.countSkid k m i).groups = s.groups := rfl
@[simp] theorem State.countSkid_teams (s : State) (k : Nat) (m : BitVec 32) (i : Nat) : (s.countSkid k m i).teams = s.teams := rfl
@[simp] theorem State.countSkid_launches (s : State) (k : Nat) (m : BitVec 32) (i : Nat) : (s.countSkid k m i).launches = s.launches := rfl
@[simp] theorem State.countSkid_cores (s : State) (k : Nat) (m : BitVec 32) (i : Nat) : (s.countSkid k m i).cores = s.cores := rfl
@[simp] theorem State.countSkid_dies (s : State) (k : Nat) (m : BitVec 32) (i : Nat) : (s.countSkid k m i).dies = s.dies := rfl
@[simp] theorem State.countSkid_fns (s : State) (k : Nat) (m : BitVec 32) (i : Nat) : (s.countSkid k m i).fns = s.fns := rfl
@[simp] theorem State.countSkid_vfs (s : State) (k : Nat) (m : BitVec 32) (i : Nat) : (s.countSkid k m i).vfs = s.vfs := rfl
@[simp] theorem State.countSkid_leaves (s : State) (k : Nat) (m : BitVec 32) (i : Nat) : (s.countSkid k m i).leaves = s.leaves := rfl
@[simp] theorem State.countSkid_jobs (s : State) (k : Nat) (m : BitVec 32) (i : Nat) : (s.countSkid k m i).jobs = s.jobs := rfl
@[simp] theorem State.countSkid_rems (s : State) (k : Nat) (m : BitVec 32) (i : Nat) : (s.countSkid k m i).rems = s.rems := rfl
@[simp] theorem State.countSkid_unposted (s : State) (k : Nat) (m : BitVec 32) (i : Nat) : (s.countSkid k m i).unposted = s.unposted := rfl
@[simp] theorem State.countSkid_dev (s : State) (k : Nat) (m : BitVec 32) (i : Nat) : (s.countSkid k m i).dev = s.dev := rfl

@[simp] theorem State.setTeam_group (s : State) (t : Nat) (m : Team) (j : Nat) : (s.setTeam t m).group j = s.group j := by simp [State.group]
@[simp] theorem State.modTeam_group (s : State) (t : Nat) (f : Team → Team) (j : Nat) : (s.modTeam t f).group j = s.group j := by simp [State.group]
@[simp] theorem State.setLaunch_group (s : State) (l : Nat) (m : Launch) (j : Nat) : (s.setLaunch l m).group j = s.group j := by simp [State.group]
@[simp] theorem State.modLaunch_group (s : State) (l : Nat) (f : Launch → Launch) (j : Nat) : (s.modLaunch l f).group j = s.group j := by simp [State.group]
@[simp] theorem State.setCore_group (s : State) (c : Nat) (m : Core) (j : Nat) : (s.setCore c m).group j = s.group j := by simp [State.group]
@[simp] theorem State.modCore_group (s : State) (c : Nat) (f : Core → Core) (j : Nat) : (s.modCore c f).group j = s.group j := by simp [State.group]
@[simp] theorem State.setDie_group (s : State) (d : Nat) (m : Die) (j : Nat) : (s.setDie d m).group j = s.group j := by simp [State.group]
@[simp] theorem State.modDie_group (s : State) (d : Nat) (f : Die → Die) (j : Nat) : (s.modDie d f).group j = s.group j := by simp [State.group]
@[simp] theorem State.setFn_group (s : State) (n : Nat) (m : Fn) (j : Nat) : (s.setFn n m).group j = s.group j := by simp [State.group]
@[simp] theorem State.modFn_group (s : State) (n : Nat) (f : Fn → Fn) (j : Nat) : (s.modFn n f).group j = s.group j := by simp [State.group]
@[simp] theorem State.setVf_group (s : State) (v : Nat) (m : Vf) (j : Nat) : (s.setVf v m).group j = s.group j := by simp [State.group]
@[simp] theorem State.modVf_group (s : State) (v : Nat) (f : Vf → Vf) (j : Nat) : (s.modVf v f).group j = s.group j := by simp [State.group]
@[simp] theorem State.modLeaf_group (s : State) (n : Nat) (f : Leaf → Leaf) (j : Nat) : (s.modLeaf n f).group j = s.group j := by simp [State.group]
@[simp] theorem State.setAcc_group (s : State) (a : Nat) (m : Acc) (j : Nat) : (s.setAcc a m).group j = s.group j := by simp [State.group]
@[simp] theorem State.modDev_group (s : State) (f : Device → Device) (j : Nat) : (s.modDev f).group j = s.group j := by simp [State.group]
@[simp] theorem State.send_group (s : State) (m : Instr) (r : Option Route) (j : Nat) : (s.send m r).group j = s.group j := by simp [State.group]
@[simp] theorem State.bump_group (s : State) (j : Nat) : (s.bump).group j = s.group j := by simp [State.group]
@[simp] theorem State.rest_group (s : State) (j : Nat) : (s.rest).group j = s.group j := by simp [State.group]
@[simp] theorem State.charge_group (s : State) (p : Payer) (c n : Nat) (j : Nat) : (s.charge p c n).group j = s.group j := by simp [State.group]
@[simp] theorem State.chargeN_group (s : State) (p : Payer) (c n : Nat) (j : Nat) : (s.chargeN p c n).group j = s.group j := by simp [State.group]
@[simp] theorem State.countSkid_group (s : State) (k : Nat) (m : BitVec 32) (i : Nat) (j : Nat) : (s.countSkid k m i).group j = s.group j := by simp [State.group]

@[simp] theorem State.setGroup_team (s : State) (k : Nat) (g : Group) (j : Nat) : (s.setGroup k g).team j = s.team j := by simp [State.team]
@[simp] theorem State.modGroup_team (s : State) (k : Nat) (f : Group → Group) (j : Nat) : (s.modGroup k f).team j = s.team j := by simp [State.team]
@[simp] theorem State.setLaunch_team (s : State) (l : Nat) (m : Launch) (j : Nat) : (s.setLaunch l m).team j = s.team j := by simp [State.team]
@[simp] theorem State.modLaunch_team (s : State) (l : Nat) (f : Launch → Launch) (j : Nat) : (s.modLaunch l f).team j = s.team j := by simp [State.team]
@[simp] theorem State.setCore_team (s : State) (c : Nat) (m : Core) (j : Nat) : (s.setCore c m).team j = s.team j := by simp [State.team]
@[simp] theorem State.modCore_team (s : State) (c : Nat) (f : Core → Core) (j : Nat) : (s.modCore c f).team j = s.team j := by simp [State.team]
@[simp] theorem State.setDie_team (s : State) (d : Nat) (m : Die) (j : Nat) : (s.setDie d m).team j = s.team j := by simp [State.team]
@[simp] theorem State.modDie_team (s : State) (d : Nat) (f : Die → Die) (j : Nat) : (s.modDie d f).team j = s.team j := by simp [State.team]
@[simp] theorem State.setFn_team (s : State) (n : Nat) (m : Fn) (j : Nat) : (s.setFn n m).team j = s.team j := by simp [State.team]
@[simp] theorem State.modFn_team (s : State) (n : Nat) (f : Fn → Fn) (j : Nat) : (s.modFn n f).team j = s.team j := by simp [State.team]
@[simp] theorem State.setVf_team (s : State) (v : Nat) (m : Vf) (j : Nat) : (s.setVf v m).team j = s.team j := by simp [State.team]
@[simp] theorem State.modVf_team (s : State) (v : Nat) (f : Vf → Vf) (j : Nat) : (s.modVf v f).team j = s.team j := by simp [State.team]
@[simp] theorem State.modLeaf_team (s : State) (n : Nat) (f : Leaf → Leaf) (j : Nat) : (s.modLeaf n f).team j = s.team j := by simp [State.team]
@[simp] theorem State.setAcc_team (s : State) (a : Nat) (m : Acc) (j : Nat) : (s.setAcc a m).team j = s.team j := by simp [State.team]
@[simp] theorem State.modDev_team (s : State) (f : Device → Device) (j : Nat) : (s.modDev f).team j = s.team j := by simp [State.team]
@[simp] theorem State.send_team (s : State) (m : Instr) (r : Option Route) (j : Nat) : (s.send m r).team j = s.team j := by simp [State.team]
@[simp] theorem State.bump_team (s : State) (j : Nat) : (s.bump).team j = s.team j := by simp [State.team]
@[simp] theorem State.rest_team (s : State) (j : Nat) : (s.rest).team j = s.team j := by simp [State.team]
@[simp] theorem State.charge_team (s : State) (p : Payer) (c n : Nat) (j : Nat) : (s.charge p c n).team j = s.team j := by simp [State.team]
@[simp] theorem State.chargeN_team (s : State) (p : Payer) (c n : Nat) (j : Nat) : (s.chargeN p c n).team j = s.team j := by simp [State.team]
@[simp] theorem State.countSkid_team (s : State) (k : Nat) (m : BitVec 32) (i : Nat) (j : Nat) : (s.countSkid k m i).team j = s.team j := by simp [State.team]

@[simp] theorem State.setGroup_launch (s : State) (k : Nat) (g : Group) (j : Nat) : (s.setGroup k g).launch j = s.launch j := by simp [State.launch]
@[simp] theorem State.modGroup_launch (s : State) (k : Nat) (f : Group → Group) (j : Nat) : (s.modGroup k f).launch j = s.launch j := by simp [State.launch]
@[simp] theorem State.setTeam_launch (s : State) (t : Nat) (m : Team) (j : Nat) : (s.setTeam t m).launch j = s.launch j := by simp [State.launch]
@[simp] theorem State.modTeam_launch (s : State) (t : Nat) (f : Team → Team) (j : Nat) : (s.modTeam t f).launch j = s.launch j := by simp [State.launch]
@[simp] theorem State.setCore_launch (s : State) (c : Nat) (m : Core) (j : Nat) : (s.setCore c m).launch j = s.launch j := by simp [State.launch]
@[simp] theorem State.modCore_launch (s : State) (c : Nat) (f : Core → Core) (j : Nat) : (s.modCore c f).launch j = s.launch j := by simp [State.launch]
@[simp] theorem State.setDie_launch (s : State) (d : Nat) (m : Die) (j : Nat) : (s.setDie d m).launch j = s.launch j := by simp [State.launch]
@[simp] theorem State.modDie_launch (s : State) (d : Nat) (f : Die → Die) (j : Nat) : (s.modDie d f).launch j = s.launch j := by simp [State.launch]
@[simp] theorem State.setFn_launch (s : State) (n : Nat) (m : Fn) (j : Nat) : (s.setFn n m).launch j = s.launch j := by simp [State.launch]
@[simp] theorem State.modFn_launch (s : State) (n : Nat) (f : Fn → Fn) (j : Nat) : (s.modFn n f).launch j = s.launch j := by simp [State.launch]
@[simp] theorem State.setVf_launch (s : State) (v : Nat) (m : Vf) (j : Nat) : (s.setVf v m).launch j = s.launch j := by simp [State.launch]
@[simp] theorem State.modVf_launch (s : State) (v : Nat) (f : Vf → Vf) (j : Nat) : (s.modVf v f).launch j = s.launch j := by simp [State.launch]
@[simp] theorem State.modLeaf_launch (s : State) (n : Nat) (f : Leaf → Leaf) (j : Nat) : (s.modLeaf n f).launch j = s.launch j := by simp [State.launch]
@[simp] theorem State.setAcc_launch (s : State) (a : Nat) (m : Acc) (j : Nat) : (s.setAcc a m).launch j = s.launch j := by simp [State.launch]
@[simp] theorem State.modDev_launch (s : State) (f : Device → Device) (j : Nat) : (s.modDev f).launch j = s.launch j := by simp [State.launch]
@[simp] theorem State.send_launch (s : State) (m : Instr) (r : Option Route) (j : Nat) : (s.send m r).launch j = s.launch j := by simp [State.launch]
@[simp] theorem State.bump_launch (s : State) (j : Nat) : (s.bump).launch j = s.launch j := by simp [State.launch]
@[simp] theorem State.rest_launch (s : State) (j : Nat) : (s.rest).launch j = s.launch j := by simp [State.launch]
@[simp] theorem State.charge_launch (s : State) (p : Payer) (c n : Nat) (j : Nat) : (s.charge p c n).launch j = s.launch j := by simp [State.launch]
@[simp] theorem State.chargeN_launch (s : State) (p : Payer) (c n : Nat) (j : Nat) : (s.chargeN p c n).launch j = s.launch j := by simp [State.launch]
@[simp] theorem State.countSkid_launch (s : State) (k : Nat) (m : BitVec 32) (i : Nat) (j : Nat) : (s.countSkid k m i).launch j = s.launch j := by simp [State.launch]

@[simp] theorem State.setGroup_core (s : State) (k : Nat) (g : Group) (j : Nat) : (s.setGroup k g).core j = s.core j := by simp [State.core]
@[simp] theorem State.modGroup_core (s : State) (k : Nat) (f : Group → Group) (j : Nat) : (s.modGroup k f).core j = s.core j := by simp [State.core]
@[simp] theorem State.setTeam_core (s : State) (t : Nat) (m : Team) (j : Nat) : (s.setTeam t m).core j = s.core j := by simp [State.core]
@[simp] theorem State.modTeam_core (s : State) (t : Nat) (f : Team → Team) (j : Nat) : (s.modTeam t f).core j = s.core j := by simp [State.core]
@[simp] theorem State.setLaunch_core (s : State) (l : Nat) (m : Launch) (j : Nat) : (s.setLaunch l m).core j = s.core j := by simp [State.core]
@[simp] theorem State.modLaunch_core (s : State) (l : Nat) (f : Launch → Launch) (j : Nat) : (s.modLaunch l f).core j = s.core j := by simp [State.core]
@[simp] theorem State.setDie_core (s : State) (d : Nat) (m : Die) (j : Nat) : (s.setDie d m).core j = s.core j := by simp [State.core]
@[simp] theorem State.modDie_core (s : State) (d : Nat) (f : Die → Die) (j : Nat) : (s.modDie d f).core j = s.core j := by simp [State.core]
@[simp] theorem State.setFn_core (s : State) (n : Nat) (m : Fn) (j : Nat) : (s.setFn n m).core j = s.core j := by simp [State.core]
@[simp] theorem State.modFn_core (s : State) (n : Nat) (f : Fn → Fn) (j : Nat) : (s.modFn n f).core j = s.core j := by simp [State.core]
@[simp] theorem State.setVf_core (s : State) (v : Nat) (m : Vf) (j : Nat) : (s.setVf v m).core j = s.core j := by simp [State.core]
@[simp] theorem State.modVf_core (s : State) (v : Nat) (f : Vf → Vf) (j : Nat) : (s.modVf v f).core j = s.core j := by simp [State.core]
@[simp] theorem State.modLeaf_core (s : State) (n : Nat) (f : Leaf → Leaf) (j : Nat) : (s.modLeaf n f).core j = s.core j := by simp [State.core]
@[simp] theorem State.setAcc_core (s : State) (a : Nat) (m : Acc) (j : Nat) : (s.setAcc a m).core j = s.core j := by simp [State.core]
@[simp] theorem State.modDev_core (s : State) (f : Device → Device) (j : Nat) : (s.modDev f).core j = s.core j := by simp [State.core]
@[simp] theorem State.send_core (s : State) (m : Instr) (r : Option Route) (j : Nat) : (s.send m r).core j = s.core j := by simp [State.core]
@[simp] theorem State.bump_core (s : State) (j : Nat) : (s.bump).core j = s.core j := by simp [State.core]
@[simp] theorem State.rest_core (s : State) (j : Nat) : (s.rest).core j = s.core j := by simp [State.core]
@[simp] theorem State.charge_core (s : State) (p : Payer) (c n : Nat) (j : Nat) : (s.charge p c n).core j = s.core j := by simp [State.core]
@[simp] theorem State.chargeN_core (s : State) (p : Payer) (c n : Nat) (j : Nat) : (s.chargeN p c n).core j = s.core j := by simp [State.core]
@[simp] theorem State.countSkid_core (s : State) (k : Nat) (m : BitVec 32) (i : Nat) (j : Nat) : (s.countSkid k m i).core j = s.core j := by simp [State.core]

@[simp] theorem State.setGroup_die (s : State) (k : Nat) (g : Group) (j : Nat) : (s.setGroup k g).die j = s.die j := by simp [State.die]
@[simp] theorem State.modGroup_die (s : State) (k : Nat) (f : Group → Group) (j : Nat) : (s.modGroup k f).die j = s.die j := by simp [State.die]
@[simp] theorem State.setTeam_die (s : State) (t : Nat) (m : Team) (j : Nat) : (s.setTeam t m).die j = s.die j := by simp [State.die]
@[simp] theorem State.modTeam_die (s : State) (t : Nat) (f : Team → Team) (j : Nat) : (s.modTeam t f).die j = s.die j := by simp [State.die]
@[simp] theorem State.setLaunch_die (s : State) (l : Nat) (m : Launch) (j : Nat) : (s.setLaunch l m).die j = s.die j := by simp [State.die]
@[simp] theorem State.modLaunch_die (s : State) (l : Nat) (f : Launch → Launch) (j : Nat) : (s.modLaunch l f).die j = s.die j := by simp [State.die]
@[simp] theorem State.setCore_die (s : State) (c : Nat) (m : Core) (j : Nat) : (s.setCore c m).die j = s.die j := by simp [State.die]
@[simp] theorem State.modCore_die (s : State) (c : Nat) (f : Core → Core) (j : Nat) : (s.modCore c f).die j = s.die j := by simp [State.die]
@[simp] theorem State.setFn_die (s : State) (n : Nat) (m : Fn) (j : Nat) : (s.setFn n m).die j = s.die j := by simp [State.die]
@[simp] theorem State.modFn_die (s : State) (n : Nat) (f : Fn → Fn) (j : Nat) : (s.modFn n f).die j = s.die j := by simp [State.die]
@[simp] theorem State.setVf_die (s : State) (v : Nat) (m : Vf) (j : Nat) : (s.setVf v m).die j = s.die j := by simp [State.die]
@[simp] theorem State.modVf_die (s : State) (v : Nat) (f : Vf → Vf) (j : Nat) : (s.modVf v f).die j = s.die j := by simp [State.die]
@[simp] theorem State.modLeaf_die (s : State) (n : Nat) (f : Leaf → Leaf) (j : Nat) : (s.modLeaf n f).die j = s.die j := by simp [State.die]
@[simp] theorem State.setAcc_die (s : State) (a : Nat) (m : Acc) (j : Nat) : (s.setAcc a m).die j = s.die j := by simp [State.die]
@[simp] theorem State.modDev_die (s : State) (f : Device → Device) (j : Nat) : (s.modDev f).die j = s.die j := by simp [State.die]
@[simp] theorem State.send_die (s : State) (m : Instr) (r : Option Route) (j : Nat) : (s.send m r).die j = s.die j := by simp [State.die]
@[simp] theorem State.bump_die (s : State) (j : Nat) : (s.bump).die j = s.die j := by simp [State.die]
@[simp] theorem State.rest_die (s : State) (j : Nat) : (s.rest).die j = s.die j := by simp [State.die]
@[simp] theorem State.charge_die (s : State) (p : Payer) (c n : Nat) (j : Nat) : (s.charge p c n).die j = s.die j := by simp [State.die]
@[simp] theorem State.chargeN_die (s : State) (p : Payer) (c n : Nat) (j : Nat) : (s.chargeN p c n).die j = s.die j := by simp [State.die]
@[simp] theorem State.countSkid_die (s : State) (k : Nat) (m : BitVec 32) (i : Nat) (j : Nat) : (s.countSkid k m i).die j = s.die j := by simp [State.die]

@[simp] theorem State.setGroup_fn (s : State) (k : Nat) (g : Group) (j : Nat) : (s.setGroup k g).fn j = s.fn j := by simp [State.fn]
@[simp] theorem State.modGroup_fn (s : State) (k : Nat) (f : Group → Group) (j : Nat) : (s.modGroup k f).fn j = s.fn j := by simp [State.fn]
@[simp] theorem State.setTeam_fn (s : State) (t : Nat) (m : Team) (j : Nat) : (s.setTeam t m).fn j = s.fn j := by simp [State.fn]
@[simp] theorem State.modTeam_fn (s : State) (t : Nat) (f : Team → Team) (j : Nat) : (s.modTeam t f).fn j = s.fn j := by simp [State.fn]
@[simp] theorem State.setLaunch_fn (s : State) (l : Nat) (m : Launch) (j : Nat) : (s.setLaunch l m).fn j = s.fn j := by simp [State.fn]
@[simp] theorem State.modLaunch_fn (s : State) (l : Nat) (f : Launch → Launch) (j : Nat) : (s.modLaunch l f).fn j = s.fn j := by simp [State.fn]
@[simp] theorem State.setCore_fn (s : State) (c : Nat) (m : Core) (j : Nat) : (s.setCore c m).fn j = s.fn j := by simp [State.fn]
@[simp] theorem State.modCore_fn (s : State) (c : Nat) (f : Core → Core) (j : Nat) : (s.modCore c f).fn j = s.fn j := by simp [State.fn]
@[simp] theorem State.setDie_fn (s : State) (d : Nat) (m : Die) (j : Nat) : (s.setDie d m).fn j = s.fn j := by simp [State.fn]
@[simp] theorem State.modDie_fn (s : State) (d : Nat) (f : Die → Die) (j : Nat) : (s.modDie d f).fn j = s.fn j := by simp [State.fn]
@[simp] theorem State.setVf_fn (s : State) (v : Nat) (m : Vf) (j : Nat) : (s.setVf v m).fn j = s.fn j := by simp [State.fn]
@[simp] theorem State.modVf_fn (s : State) (v : Nat) (f : Vf → Vf) (j : Nat) : (s.modVf v f).fn j = s.fn j := by simp [State.fn]
@[simp] theorem State.modLeaf_fn (s : State) (n : Nat) (f : Leaf → Leaf) (j : Nat) : (s.modLeaf n f).fn j = s.fn j := by simp [State.fn]
@[simp] theorem State.setAcc_fn (s : State) (a : Nat) (m : Acc) (j : Nat) : (s.setAcc a m).fn j = s.fn j := by simp [State.fn]
@[simp] theorem State.modDev_fn (s : State) (f : Device → Device) (j : Nat) : (s.modDev f).fn j = s.fn j := by simp [State.fn]
@[simp] theorem State.send_fn (s : State) (m : Instr) (r : Option Route) (j : Nat) : (s.send m r).fn j = s.fn j := by simp [State.fn]
@[simp] theorem State.bump_fn (s : State) (j : Nat) : (s.bump).fn j = s.fn j := by simp [State.fn]
@[simp] theorem State.rest_fn (s : State) (j : Nat) : (s.rest).fn j = s.fn j := by simp [State.fn]
@[simp] theorem State.charge_fn (s : State) (p : Payer) (c n : Nat) (j : Nat) : (s.charge p c n).fn j = s.fn j := by simp [State.fn]
@[simp] theorem State.chargeN_fn (s : State) (p : Payer) (c n : Nat) (j : Nat) : (s.chargeN p c n).fn j = s.fn j := by simp [State.fn]
@[simp] theorem State.countSkid_fn (s : State) (k : Nat) (m : BitVec 32) (i : Nat) (j : Nat) : (s.countSkid k m i).fn j = s.fn j := by simp [State.fn]

@[simp] theorem State.setGroup_vf (s : State) (k : Nat) (g : Group) (j : Nat) : (s.setGroup k g).vf j = s.vf j := by simp [State.vf]
@[simp] theorem State.modGroup_vf (s : State) (k : Nat) (f : Group → Group) (j : Nat) : (s.modGroup k f).vf j = s.vf j := by simp [State.vf]
@[simp] theorem State.setTeam_vf (s : State) (t : Nat) (m : Team) (j : Nat) : (s.setTeam t m).vf j = s.vf j := by simp [State.vf]
@[simp] theorem State.modTeam_vf (s : State) (t : Nat) (f : Team → Team) (j : Nat) : (s.modTeam t f).vf j = s.vf j := by simp [State.vf]
@[simp] theorem State.setLaunch_vf (s : State) (l : Nat) (m : Launch) (j : Nat) : (s.setLaunch l m).vf j = s.vf j := by simp [State.vf]
@[simp] theorem State.modLaunch_vf (s : State) (l : Nat) (f : Launch → Launch) (j : Nat) : (s.modLaunch l f).vf j = s.vf j := by simp [State.vf]
@[simp] theorem State.setCore_vf (s : State) (c : Nat) (m : Core) (j : Nat) : (s.setCore c m).vf j = s.vf j := by simp [State.vf]
@[simp] theorem State.modCore_vf (s : State) (c : Nat) (f : Core → Core) (j : Nat) : (s.modCore c f).vf j = s.vf j := by simp [State.vf]
@[simp] theorem State.setDie_vf (s : State) (d : Nat) (m : Die) (j : Nat) : (s.setDie d m).vf j = s.vf j := by simp [State.vf]
@[simp] theorem State.modDie_vf (s : State) (d : Nat) (f : Die → Die) (j : Nat) : (s.modDie d f).vf j = s.vf j := by simp [State.vf]
@[simp] theorem State.setFn_vf (s : State) (n : Nat) (m : Fn) (j : Nat) : (s.setFn n m).vf j = s.vf j := by simp [State.vf]
@[simp] theorem State.modFn_vf (s : State) (n : Nat) (f : Fn → Fn) (j : Nat) : (s.modFn n f).vf j = s.vf j := by simp [State.vf]
@[simp] theorem State.modLeaf_vf (s : State) (n : Nat) (f : Leaf → Leaf) (j : Nat) : (s.modLeaf n f).vf j = s.vf j := by simp [State.vf]
@[simp] theorem State.setAcc_vf (s : State) (a : Nat) (m : Acc) (j : Nat) : (s.setAcc a m).vf j = s.vf j := by simp [State.vf]
@[simp] theorem State.modDev_vf (s : State) (f : Device → Device) (j : Nat) : (s.modDev f).vf j = s.vf j := by simp [State.vf]
@[simp] theorem State.send_vf (s : State) (m : Instr) (r : Option Route) (j : Nat) : (s.send m r).vf j = s.vf j := by simp [State.vf]
@[simp] theorem State.bump_vf (s : State) (j : Nat) : (s.bump).vf j = s.vf j := by simp [State.vf]
@[simp] theorem State.rest_vf (s : State) (j : Nat) : (s.rest).vf j = s.vf j := by simp [State.vf]
@[simp] theorem State.charge_vf (s : State) (p : Payer) (c n : Nat) (j : Nat) : (s.charge p c n).vf j = s.vf j := by simp [State.vf]
@[simp] theorem State.chargeN_vf (s : State) (p : Payer) (c n : Nat) (j : Nat) : (s.chargeN p c n).vf j = s.vf j := by simp [State.vf]
@[simp] theorem State.countSkid_vf (s : State) (k : Nat) (m : BitVec 32) (i : Nat) (j : Nat) : (s.countSkid k m i).vf j = s.vf j := by simp [State.vf]

@[simp] theorem State.setGroup_leaf (s : State) (k : Nat) (g : Group) (j : Nat) : (s.setGroup k g).leaf j = s.leaf j := by simp [State.leaf]
@[simp] theorem State.modGroup_leaf (s : State) (k : Nat) (f : Group → Group) (j : Nat) : (s.modGroup k f).leaf j = s.leaf j := by simp [State.leaf]
@[simp] theorem State.setTeam_leaf (s : State) (t : Nat) (m : Team) (j : Nat) : (s.setTeam t m).leaf j = s.leaf j := by simp [State.leaf]
@[simp] theorem State.modTeam_leaf (s : State) (t : Nat) (f : Team → Team) (j : Nat) : (s.modTeam t f).leaf j = s.leaf j := by simp [State.leaf]
@[simp] theorem State.setLaunch_leaf (s : State) (l : Nat) (m : Launch) (j : Nat) : (s.setLaunch l m).leaf j = s.leaf j := by simp [State.leaf]
@[simp] theorem State.modLaunch_leaf (s : State) (l : Nat) (f : Launch → Launch) (j : Nat) : (s.modLaunch l f).leaf j = s.leaf j := by simp [State.leaf]
@[simp] theorem State.setCore_leaf (s : State) (c : Nat) (m : Core) (j : Nat) : (s.setCore c m).leaf j = s.leaf j := by simp [State.leaf]
@[simp] theorem State.modCore_leaf (s : State) (c : Nat) (f : Core → Core) (j : Nat) : (s.modCore c f).leaf j = s.leaf j := by simp [State.leaf]
@[simp] theorem State.setDie_leaf (s : State) (d : Nat) (m : Die) (j : Nat) : (s.setDie d m).leaf j = s.leaf j := by simp [State.leaf]
@[simp] theorem State.modDie_leaf (s : State) (d : Nat) (f : Die → Die) (j : Nat) : (s.modDie d f).leaf j = s.leaf j := by simp [State.leaf]
@[simp] theorem State.setFn_leaf (s : State) (n : Nat) (m : Fn) (j : Nat) : (s.setFn n m).leaf j = s.leaf j := by simp [State.leaf]
@[simp] theorem State.modFn_leaf (s : State) (n : Nat) (f : Fn → Fn) (j : Nat) : (s.modFn n f).leaf j = s.leaf j := by simp [State.leaf]
@[simp] theorem State.setVf_leaf (s : State) (v : Nat) (m : Vf) (j : Nat) : (s.setVf v m).leaf j = s.leaf j := by simp [State.leaf]
@[simp] theorem State.modVf_leaf (s : State) (v : Nat) (f : Vf → Vf) (j : Nat) : (s.modVf v f).leaf j = s.leaf j := by simp [State.leaf]
@[simp] theorem State.setAcc_leaf (s : State) (a : Nat) (m : Acc) (j : Nat) : (s.setAcc a m).leaf j = s.leaf j := by simp [State.leaf]
@[simp] theorem State.modDev_leaf (s : State) (f : Device → Device) (j : Nat) : (s.modDev f).leaf j = s.leaf j := by simp [State.leaf]
@[simp] theorem State.send_leaf (s : State) (m : Instr) (r : Option Route) (j : Nat) : (s.send m r).leaf j = s.leaf j := by simp [State.leaf]
@[simp] theorem State.bump_leaf (s : State) (j : Nat) : (s.bump).leaf j = s.leaf j := by simp [State.leaf]
@[simp] theorem State.rest_leaf (s : State) (j : Nat) : (s.rest).leaf j = s.leaf j := by simp [State.leaf]
@[simp] theorem State.charge_leaf (s : State) (p : Payer) (c n : Nat) (j : Nat) : (s.charge p c n).leaf j = s.leaf j := by simp [State.leaf]
@[simp] theorem State.chargeN_leaf (s : State) (p : Payer) (c n : Nat) (j : Nat) : (s.chargeN p c n).leaf j = s.leaf j := by simp [State.leaf]
@[simp] theorem State.countSkid_leaf (s : State) (k : Nat) (m : BitVec 32) (i : Nat) (j : Nat) : (s.countSkid k m i).leaf j = s.leaf j := by simp [State.leaf]

/-! ## A part after its own update -/

@[simp] theorem State.setGroup_group (s : State) (k : Nat) (g : Group) : (s.setGroup k g).group k = some g := by
  simp [State.group, State.setGroup]
theorem State.setGroup_group_ne (s : State) (k j : Nat) (g : Group) (h : j ≠ k) : (s.setGroup k g).group j = s.group j := by
  simp [State.group, State.setGroup, SMap.find_put_other _ _ _ _ h]
theorem State.modGroup_group (s : State) (k : Nat) (f : Group → Group) : (s.modGroup k f).group k = (s.group k).map f := by
  unfold State.modGroup
  split
  · rename_i g h; simp [h]
  · rename_i h; simp [h]
theorem State.modGroup_group_ne (s : State) (k j : Nat) (f : Group → Group) (h : j ≠ k) : (s.modGroup k f).group j = s.group j := by
  unfold State.modGroup
  split
  · exact State.setGroup_group_ne s k j _ h
  · rfl

@[simp] theorem State.setTeam_team (s : State) (t : Nat) (m : Team) : (s.setTeam t m).team t = some m := by
  simp [State.team, State.setTeam]
theorem State.setTeam_team_ne (s : State) (t j : Nat) (m : Team) (h : j ≠ t) : (s.setTeam t m).team j = s.team j := by
  simp [State.team, State.setTeam, SMap.find_put_other _ _ _ _ h]
theorem State.modTeam_team (s : State) (t : Nat) (f : Team → Team) : (s.modTeam t f).team t = (s.team t).map f := by
  unfold State.modTeam
  split
  · rename_i m h; simp [h]
  · rename_i h; simp [h]
theorem State.modTeam_team_ne (s : State) (t j : Nat) (f : Team → Team) (h : j ≠ t) : (s.modTeam t f).team j = s.team j := by
  unfold State.modTeam
  split
  · exact State.setTeam_team_ne s t j _ h
  · rfl

@[simp] theorem State.setLaunch_launch (s : State) (l : Nat) (m : Launch) : (s.setLaunch l m).launch l = some m := by
  simp [State.launch, State.setLaunch]
theorem State.setLaunch_launch_ne (s : State) (l j : Nat) (m : Launch) (h : j ≠ l) : (s.setLaunch l m).launch j = s.launch j := by
  simp [State.launch, State.setLaunch, SMap.find_put_other _ _ _ _ h]
theorem State.modLaunch_launch (s : State) (l : Nat) (f : Launch → Launch) : (s.modLaunch l f).launch l = (s.launch l).map f := by
  unfold State.modLaunch
  split
  · rename_i m h; simp [h]
  · rename_i h; simp [h]

@[simp] theorem State.setCore_core (s : State) (c : Nat) (m : Core) : (s.setCore c m).core c = m := by
  simp [State.core, State.setCore]
theorem State.setCore_core_ne (s : State) (c j : Nat) (m : Core) (h : j ≠ c) : (s.setCore c m).core j = s.core j := by
  simp [State.core, State.setCore, SMap.find_put_other _ _ _ _ h]
@[simp] theorem State.modCore_core (s : State) (c : Nat) (f : Core → Core) : (s.modCore c f).core c = f (s.core c) := by
  simp [State.modCore]
theorem State.modCore_core_ne (s : State) (c j : Nat) (f : Core → Core) (h : j ≠ c) : (s.modCore c f).core j = s.core j := by
  simp [State.modCore, State.setCore_core_ne _ _ _ _ h]

@[simp] theorem State.setDie_die (s : State) (c : Nat) (m : Die) : (s.setDie c m).die c = m := by
  simp [State.die, State.setDie]
theorem State.setDie_die_ne (s : State) (c j : Nat) (m : Die) (h : j ≠ c) : (s.setDie c m).die j = s.die j := by
  simp [State.die, State.setDie, SMap.find_put_other _ _ _ _ h]
@[simp] theorem State.modDie_die (s : State) (c : Nat) (f : Die → Die) : (s.modDie c f).die c = f (s.die c) := by
  simp [State.modDie]
theorem State.modDie_die_ne (s : State) (c j : Nat) (f : Die → Die) (h : j ≠ c) : (s.modDie c f).die j = s.die j := by
  simp [State.modDie, State.setDie_die_ne _ _ _ _ h]

@[simp] theorem State.setFn_fn (s : State) (c : Nat) (m : Fn) : (s.setFn c m).fn c = m := by
  simp [State.fn, State.setFn]
theorem State.setFn_fn_ne (s : State) (c j : Nat) (m : Fn) (h : j ≠ c) : (s.setFn c m).fn j = s.fn j := by
  simp [State.fn, State.setFn, SMap.find_put_other _ _ _ _ h]
@[simp] theorem State.modFn_fn (s : State) (c : Nat) (f : Fn → Fn) : (s.modFn c f).fn c = f (s.fn c) := by
  simp [State.modFn]
theorem State.modFn_fn_ne (s : State) (c j : Nat) (f : Fn → Fn) (h : j ≠ c) : (s.modFn c f).fn j = s.fn j := by
  simp [State.modFn, State.setFn_fn_ne _ _ _ _ h]

@[simp] theorem State.setVf_vf (s : State) (c : Nat) (m : Vf) : (s.setVf c m).vf c = m := by
  simp [State.vf, State.setVf]
theorem State.setVf_vf_ne (s : State) (c j : Nat) (m : Vf) (h : j ≠ c) : (s.setVf c m).vf j = s.vf j := by
  simp [State.vf, State.setVf, SMap.find_put_other _ _ _ _ h]
@[simp] theorem State.modVf_vf (s : State) (c : Nat) (f : Vf → Vf) : (s.modVf c f).vf c = f (s.vf c) := by
  simp [State.modVf]
theorem State.modVf_vf_ne (s : State) (c j : Nat) (f : Vf → Vf) (h : j ≠ c) : (s.modVf c f).vf j = s.vf j := by
  simp [State.modVf, State.setVf_vf_ne _ _ _ _ h]

end Sys2Proof.Machine
end

