-- ==== Sys2Proof/Laws/Issue.lean ====
section
/-! SUPPORT. What the issue of a word does once, whatever the word: `Op.run` of a word that can issue is the end of the issue on the
state that its body answers, and the end of an issue without a trap changes the frontier of the group and nothing that an
observer reads. -/

namespace Sys2Proof.Machine

open Sys2Proof

/-! ## Lane masks -/

theorem lanesOf_mem (m : BitVec 32) (i : Nat) : i ∈ lanesOf m ↔ i < 32 ∧ m.getLsbD i = true := by
  simp [lanesOf, List.mem_filter, List.mem_range]

theorem maskOf_aux (f : Nat → Bool) (l : List Nat) (m : BitVec 32) (i : Nat) :
    (l.foldl (fun m i => if f i then m ||| (1#32 <<< i) else m) m).getLsbD i =
      (m.getLsbD i || (decide (i < 32) && decide (i ∈ l) && f i)) := by
  induction l generalizing m with
  | nil => simp
  | cons a l ih =>
    simp only [List.foldl_cons]
    rw [ih]
    by_cases hi : i < 32
    · by_cases ha : i = a
      · subst ha
        by_cases hf : f i
        · simp [hf, hi]
        · simp [hf]
      · by_cases hf : f a
        · have h1 : (1#32 <<< a).getLsbD i = false := by
            simp only [BitVec.getLsbD_shiftLeft, BitVec.getLsbD_one]
            have : ¬ (i - a = 0 ∧ ¬ i < a) := by omega
            simp only [Bool.and_eq_false_iff, decide_eq_false_iff_not, Bool.not_eq_false']
            by_cases hlt : i < a
            · simp [hlt]
            · right; simp; omega
          simp [hf, BitVec.getLsbD_or, h1, ha]
        · simp [hf, ha]
    · have : ∀ (b : BitVec 32), b.getLsbD i = false := fun b => BitVec.getLsbD_of_ge b i (by omega)
      simp [this, hi]

/-- A lane lies in a mask made by a test exactly if the test holds. -/
@[simp] theorem maskOf_getLsbD (f : Nat → Bool) (i : Nat) : (maskOf f).getLsbD i = (decide (i < 32) && f i) := by
  rw [maskOf, maskOf_aux]
  by_cases h : i < 32 <;> simp [h]

theorem maskOf_false : maskOf (fun _ => false) = 0 := by
  apply BitVec.eq_of_getLsbD_eq
  intro i hi
  simp

theorem lowLane_mem {m : BitVec 32} (h : m ≠ 0) : lowLane m < 32 ∧ m.getLsbD (lowLane m) = true := by
  have hne : lanesOf m ≠ [] := by
    intro h0
    apply h
    apply BitVec.eq_of_getLsbD_eq
    intro i hi
    have hn : ¬ i ∈ lanesOf m := by simp [h0]
    rw [lanesOf_mem] at hn
    simpa [hi] using hn
  unfold lowLane
  cases hl : lanesOf m with
  | nil => exact absurd hl hne
  | cons a l =>
    have : a ∈ lanesOf m := by simp [hl]
    simpa using (lanesOf_mem m a).mp this

/-! ## The operand stage -/

/-- The causes of the operand stage. -/
theorem Use.laneTrap_cause (u : Use) (g : Group) (d : Bool) (i : Nat) (t : BitVec 8 × Nat × Nat) (h : u.laneTrap g d i = some t) :
    t.1 = 0x13 ∨ t.1 = 0x14 ∨ t.1 = 0x11 := by
  unfold Use.laneTrap at h
  split at h
  · cases h; simp
  · simp only at h
    split at h
    · cases h; simp
    · split at h
      · cases h; simp
      · cases h

/-- Without a trap of the operand stage no acting lane fails a check of it, and no uniform operand differs. -/
theorem State.operandStage_lanes (s : State) (u : Use) (c : Ctx) (d : Bool) (h : (s.operandStage u c d).2 = []) :
    (lanesOf c.pass).filterMap (fun i => (u.laneTrap c.g d i).map (fun t => (i, t))) = [] := by
  unfold State.operandStage at h
  split at h
  · cases h
  · simp only at h
    split at h
    · cases h
    simp only [List.append_eq_nil_iff] at h
    obtain ⟨⟨h13, h14⟩, h11⟩ := h
    generalize hL : (lanesOf c.pass).filterMap (fun i => (u.laneTrap c.g d i).map (fun t => (i, t))) = L at *
    have key : ∀ it ∈ L, it.2.1 = 0x13 ∨ it.2.1 = 0x14 ∨ it.2.1 = 0x11 := by
      intro it hit
      rw [← hL, List.mem_filterMap] at hit
      obtain ⟨i, -, hi⟩ := hit
      rw [Option.map_eq_some_iff] at hi
      obtain ⟨t, ht, rfl⟩ := hi
      exact Use.laneTrap_cause u c.g d i t ht
    have nofind : ∀ (cause : BitVec 8), L.find? (fun t => t.2.1 == cause) = none → ∀ it ∈ L, it.2.1 ≠ cause := by
      intro cause hf it hit
      have := List.find?_eq_none.mp hf it hit
      simpa using this
    have n13 : ∀ it ∈ L, it.2.1 ≠ 0x13 := by
      split at h13
      · cases h13
      · rename_i hf; exact nofind _ hf
    have n14 : ∀ it ∈ L, it.2.1 ≠ 0x14 := by
      split at h14
      · cases h14
      · rename_i hf; exact nofind _ hf
    have n11 : ∀ it ∈ L, it.2.1 ≠ 0x11 := by
      split at h11
      · cases h11
      · rename_i hf; exact nofind _ hf
    cases L with
    | nil => rfl
    | cons it L =>
      exfalso
      rcases key it (by simp) with hk | hk | hk
      · exact n13 it (by simp) hk
      · exact n14 it (by simp) hk
      · exact n11 it (by simp) hk

theorem State.operandStage_lane (s : State) (u : Use) (c : Ctx) (d : Bool) (h : (s.operandStage u c d).2 = []) (i : Nat)
    (hi : i ∈ lanesOf c.pass) : u.laneTrap c.g d i = none := by
  have := List.filterMap_eq_nil_iff.mp (State.operandStage_lanes s u c d h) i hi
  simpa using this

/-- Without a trap the operand stage leaves the context as it is. -/
theorem State.operandStage_quiet (s : State) (u : Use) (c : Ctx) (d : Bool) (h : (s.operandStage u c d).2 = []) :
    (s.operandStage u c d).1 = c := by
  have hnone := State.operandStage_lanes s u c d h
  unfold State.operandStage at h ⊢
  split at h
  · cases h
  · rename_i hm
    rw [if_neg hm]
    simp only at h ⊢
    split at h
    · cases h
    · rename_i hd
      rw [if_neg hd]
      have hall : ∀ b : BitVec 32, b &&& 4294967295#32 = b := fun b => BitVec.and_allOnes (x := b)
      rw [hnone]
      simp [maskOf_false, hall]

/-! ## The frontier -/

theorem placeEntry_mem (e x : Entry) (l : List Entry) : x ∈ placeEntry e l ↔ x = e ∨ x ∈ l := by
  induction l with
  | nil => simp [placeEntry]
  | cons f l ih =>
    simp only [placeEntry]
    split
    · simp
    · simp only [List.mem_cons, ih]
      constructor
      · rintro (h | h | h)
        · exact .inr (.inl h)
        · exact .inl h
        · exact .inr (.inr h)
      · rintro (h | h | h)
        · exact .inr (.inl h)
        · exact .inl h
        · exact .inr (.inr h)

/-- Some entry of a frontier holds the lanes of a mask at a place, priority and state. -/
def Holds (l : List Entry) (m : BitVec 32) (pc : VAddr) (prio : BitVec 8) (st : EState) : Prop :=
  ∃ e ∈ l, e.pc = pc ∧ e.prio = prio ∧ e.st = st ∧ ∀ i, m.getLsbD i = true → e.mask.getLsbD i = true

theorem Entry.merges_iff (a b : Entry) :
    a.merges b = true ↔ (a.prio = b.prio ∧ a.pc = b.pc ∧ a.st = b.st) ∧ (a.st = .ready ∨ a.st = .conv) := by
  simp [Entry.merges, Bool.and_eq_true, Bool.or_eq_true, and_assoc]

theorem mergeAll_spec (fs : List Entry) (e : Entry) (h : ∀ f ∈ fs, f.merges e = true) :
    let r := fs.foldl (fun a f => f.merge a) e
    r.pc = e.pc ∧ r.prio = e.prio ∧ r.st = e.st ∧ (∀ i, e.mask.getLsbD i = true → r.mask.getLsbD i = true) ∧
      ∀ f ∈ fs, ∀ i, f.mask.getLsbD i = true → r.mask.getLsbD i = true := by
  induction fs generalizing e with
  | nil => simp
  | cons f fs ih =>
    have hf := (Entry.merges_iff f e).mp (h f (by simp))
    have hm : ∀ g ∈ fs, g.merges (f.merge e) = true := by
      intro g hg
      have := (Entry.merges_iff g e).mp (h g (by simp [hg]))
      rw [Entry.merges_iff]
      simp only [Entry.merge]
      exact ⟨⟨this.1.1.trans hf.1.1.symm, this.1.2.1.trans hf.1.2.1.symm, this.1.2.2.trans hf.1.2.2.symm⟩, this.2⟩
    obtain ⟨h1, h2, h3, h4, h5⟩ := ih (f.merge e) hm
    simp only [List.foldl_cons]
    refine ⟨h1.trans ?_, h2.trans ?_, h3.trans ?_, ?_, ?_⟩
    · simpa [Entry.merge] using hf.1.2.1
    · simpa [Entry.merge] using hf.1.1
    · simpa [Entry.merge] using hf.1.2.2
    · intro i hi
      exact h4 i (by simp [Entry.merge, hi])
    · intro g hg i hi
      rcases List.mem_cons.mp hg with rfl | hg
      · exact h4 i (by simp [Entry.merge, hi])
      · exact h5 g hg i hi

/-- An inserted entry's lanes stand at its place. -/
theorem insertEntry_new (e : Entry) (l : List Entry) : Holds (insertEntry e l) e.mask e.pc e.prio e.st := by
  obtain ⟨h1, h2, h3, h4, -⟩ := mergeAll_spec (l.filter (fun f => f.merges e)) e (fun f hf => (List.mem_filter.mp hf).2)
  exact ⟨_, (placeEntry_mem _ _ _).mpr (.inl rfl), h1, h2, h3, h4⟩

/-- The lanes of an entry stay where they are when another is inserted. -/
theorem insertEntry_old (e f : Entry) (l : List Entry) (h : f ∈ l) : Holds (insertEntry e l) f.mask f.pc f.prio f.st := by
  by_cases hm : f.merges e = true
  · obtain ⟨h1, h2, h3, -, h5⟩ := mergeAll_spec (l.filter (fun f => f.merges e)) e (fun f hf => (List.mem_filter.mp hf).2)
    have hf := (Entry.merges_iff f e).mp hm
    exact ⟨_, (placeEntry_mem _ _ _).mpr (.inl rfl), h1.trans hf.1.2.1.symm, h2.trans hf.1.1.symm, h3.trans hf.1.2.2.symm,
      fun i hi => h5 f (List.mem_filter.mpr ⟨h, hm⟩) i hi⟩
  · exact ⟨f, (placeEntry_mem _ _ _).mpr (.inr (List.mem_filter.mpr ⟨h, by simpa using hm⟩)), rfl, rfl, rfl, fun _ hi => hi⟩

theorem Holds.insert {l : List Entry} {m : BitVec 32} {pc : VAddr} {prio : BitVec 8} {st : EState} (h : Holds l m pc prio st)
    (e : Entry) : Holds (insertEntry e l) m pc prio st := by
  obtain ⟨f, hf, h1, h2, h3, h4⟩ := h
  obtain ⟨x, hx, g1, g2, g3, g4⟩ := insertEntry_old e f l hf
  exact ⟨x, hx, g1.trans h1, g2.trans h2, g3.trans h3, fun i hi => g4 i (h4 i hi)⟩

/-- Adding wake records changes nothing else. -/
theorem Group.addWakes_same (ws : List Wake) (g : Group) :
    ws.foldl Group.addWake g = { g with wakes := (ws.foldl Group.addWake g).wakes } := by
  induction ws generalizing g with
  | nil => rfl
  | cons w ws ih => exact (ih (g.addWake w)).trans rfl

/-- What the parts of an issue leave alone. -/
theorem Group.place_same (g : Group) (e : Entry) (c : Bool) (ps : List Part) (t : Option Part) :
    g.place e c ps t = { g with entries := (g.place e c ps t).entries, wakes := (g.place e c ps t).wakes, issuing := none } := by
  unfold Group.place
  simp only
  rw [Group.addWakes_same]

/-- The lanes of every part that is not gone stand where the part says. -/
theorem Group.place_holds (g : Group) (e : Entry) (c : Bool) (ps : List Part) (p : Part) (hp : p ∈ ps) (hg : p.gone = false)
    (hm : p.mask ≠ 0) : Holds (g.place e c ps none).entries p.mask p.pc p.prio p.st := by
  simp only [Group.place]
  rw [Group.addWakes_same]
  simp only
  generalize hl : ps.filter (fun p => !p.gone && p.mask != 0) = live
  have hpl : p ∈ live := by rw [← hl]; exact List.mem_filter.mpr ⟨hp, by simpa [hg] using hm⟩
  generalize ((live.length + if (none : Option Part).isSome then 1 else 0) == 1) = single
  generalize g.fseqOf e c ps none = fseq
  clear hl
  have keep : ∀ (qs : List Part) (l : List Entry), Holds l p.mask p.pc p.prio p.st →
      Holds (qs.foldl (fun l p => insertEntry (partEntry e single fseq p) l) l) p.mask p.pc p.prio p.st := by
    intro qs
    induction qs with
    | nil => exact fun l h => h
    | cons q qs ih => exact fun l h => ih _ (h.insert _)
  generalize g.passedOver e.frag c = l
  induction live generalizing l with
  | nil => cases hpl
  | cons q live ih =>
    simp only [List.foldl_cons]
    rcases List.mem_cons.mp hpl with rfl | h
    · apply keep
      exact insertEntry_new (partEntry e single fseq p) l
    · exact ih h _

/-! ## The end of an issue -/

/-- What the end of an issue leaves alone: `t` is `s` with group `k` at `g`, and beside it only charges, the counts behind
accesses, the team's watchdog and the order of the section's groups may differ. -/
structure Tail (s t : State) (k : Nat) (g : Group) : Prop where
  group : t.group k = some g
  others : ∀ j, j ≠ k → t.group j = s.group j
  mem : t.mem = s.mem
  launches : t.launches = s.launches
  dies : t.dies = s.dies
  fns : t.fns = s.fns
  vfs : t.vfs = s.vfs
  leaves : t.leaves = s.leaves
  jobs : t.jobs = s.jobs
  rems : t.rems = s.rems
  dev : t.dev = s.dev
  poison : t.poison = s.poison
  pending : t.pending = s.pending
  nextId : t.nextId = s.nextId
  now : t.now = s.now
  tick : t.tick = s.tick
  inbox : t.inbox = s.inbox
  core : ∀ c, ∃ x, t.core c = { s.core c with sects := x }
  team : ∀ j, (t.team j).map (fun m => { m with idle := 0 }) = (s.team j).map (fun m => { m with idle := 0 })
  accs : t.accs.map (fun kv => (kv.1, { kv.2 with skid := [], fseq := none })) =
    s.accs.map (fun kv => (kv.1, { kv.2 with skid := [], fseq := none }))

theorem Tail.refl {s : State} {k : Nat} {g : Group} (h : s.group k = some g) : Tail s s k g :=
  { group := h, others := fun _ _ => rfl, mem := rfl, launches := rfl, dies := rfl, fns := rfl, vfs := rfl, leaves := rfl
    jobs := rfl, rems := rfl, dev := rfl, poison := rfl, pending := rfl, nextId := rfl, now := rfl, tick := rfl, inbox := rfl
    core := fun c => ⟨(s.core c).sects, rfl⟩, team := fun _ => rfl, accs := rfl }

theorem Tail.trans {s t r : State} {k : Nat} {g h : Group} (a : Tail s t k g) (b : Tail t r k h) : Tail s r k h :=
  { group := b.group, others := fun j hj => (b.others j hj).trans (a.others j hj), mem := b.mem.trans a.mem
    launches := b.launches.trans a.launches, dies := b.dies.trans a.dies, fns := b.fns.trans a.fns, vfs := b.vfs.trans a.vfs
    leaves := b.leaves.trans a.leaves, jobs := b.jobs.trans a.jobs, rems := b.rems.trans a.rems, dev := b.dev.trans a.dev
    poison := b.poison.trans a.poison, pending := b.pending.trans a.pending, nextId := b.nextId.trans a.nextId
    now := b.now.trans a.now, tick := b.tick.trans a.tick, inbox := b.inbox.trans a.inbox
    core := fun c => by
      obtain ⟨x, hx⟩ := a.core c
      obtain ⟨y, hy⟩ := b.core c
      exact ⟨y, by rw [hy, hx]⟩
    team := fun j => (b.team j).trans (a.team j)
    accs := b.accs.trans a.accs }

theorem Tail.setGroup (s : State) (k : Nat) (g : Group) : Tail s (s.setGroup k g) k g :=
  { Tail.refl (s := s.setGroup k g) (k := k) (g := g) (by simp) with
    others := fun j hj => State.setGroup_group_ne s k j g hj
    core := fun c => ⟨(s.core c).sects, by simp⟩
    team := fun j => by simp }

theorem Tail.charge {s : State} {k : Nat} {g : Group} (h : s.group k = some g) (p : Payer) (c n : Nat) : Tail s (s.charge p c n) k g :=
  { Tail.refl (s := s.charge p c n) (k := k) (g := g) (by simpa using h) with
    others := fun j _ => by simp
    mem := by simp, launches := by simp, dies := by simp, fns := by simp, vfs := by simp, leaves := by simp
    jobs := by simp, rems := by simp, dev := by simp, poison := by simp, pending := by simp, nextId := by simp, now := by simp
    tick := by simp, inbox := by simp
    core := fun c => ⟨(s.core c).sects, by simp⟩
    team := fun j => by simp
    accs := by simp }

theorem Tail.progress {s : State} {k : Nat} {g : Group} (h : s.group k = some g) (t : Nat) : Tail s (s.progress t) k g :=
  { Tail.refl (s := s.progress t) (k := k) (g := g) (by simpa [State.progress] using h) with
    others := fun j _ => by simp [State.progress]
    mem := by simp [State.progress], launches := by simp [State.progress], dies := by simp [State.progress]
    fns := by simp [State.progress], vfs := by simp [State.progress], leaves := by simp [State.progress]
    jobs := by simp [State.progress], rems := by simp [State.progress], dev := by simp [State.progress]
    poison := by simp [State.progress], pending := by simp [State.progress], nextId := by simp [State.progress]
    now := by simp [State.progress], tick := by simp [State.progress], inbox := by simp [State.progress]
    core := fun c => ⟨(s.core c).sects, by simp [State.progress]⟩
    team := fun j => by
      by_cases hj : j = t
      · subst hj
        rw [State.progress, State.modTeam_team]
        cases s.team j <;> rfl
      · rw [State.progress, State.modTeam_team_ne _ _ _ _ hj]
    accs := by simp [State.progress] }

theorem Tail.youngest {s : State} {k : Nat} {g : Group} (h : s.group k = some g) (pc : VAddr) : Tail s (s.youngest k pc) k g := by
  unfold State.youngest
  rw [h]
  simp only
  refine
    { Tail.refl (s := s.modCore g.core _) (k := k) (g := g) (by simpa using h) with
      others := fun j _ => by simp
      mem := by simp, launches := by simp, dies := by simp, fns := by simp, vfs := by simp, leaves := by simp
      jobs := by simp, rems := by simp, dev := by simp, poison := by simp, pending := by simp, nextId := by simp, now := by simp
      tick := by simp, inbox := by simp
      core := fun c => ?_
      team := fun j => by simp
      accs := by simp }
  by_cases hc : c = g.core
  · subst hc
    rw [State.modCore_core]
    exact ⟨_, rfl⟩
  · rw [State.modCore_core_ne _ _ _ _ hc]
    exact ⟨_, rfl⟩

theorem Tail.countSkid {s : State} {k : Nat} {g : Group} (h : s.group k = some g) (m : BitVec 32) (i : Nat) :
    Tail s (s.countSkid k m i) k g :=
  { Tail.refl (s := s.countSkid k m i) (k := k) (g := g) (by simpa using h) with
    others := fun j _ => by simp
    mem := by simp, launches := by simp, dies := by simp, fns := by simp, vfs := by simp, leaves := by simp
    jobs := by simp, rems := by simp, dev := by simp, poison := by simp, pending := by simp, nextId := by simp, now := by simp
    tick := by simp, inbox := by simp
    core := fun c => ⟨(s.core c).sects, by simp⟩
    team := fun j => by simp
    accs := by
      simp only [State.countSkid, List.map_map]
      apply List.map_congr_left
      rintro ⟨a, x⟩ -
      simp only [Function.comp]
      split <;> rfl }

theorem Tail.markParked {s : State} {k : Nat} {g : Group} (h : s.group k = some g) (id : Nat) (f : BitVec 5) :
    Tail s { s with accs := s.accs.map (fun (kv : Nat × Acc) =>
      (kv.1, if kv.2.grp == k && kv.2.issue == id then { kv.2 with fseq := some f } else kv.2)) } k g :=
  { Tail.refl (k := k) (g := g) (by simpa [State.group] using h) with
    accs := by
      simp only [List.map_map]
      apply List.map_congr_left
      rintro ⟨a, x⟩ -
      simp only [Function.comp]
      split <;> rfl }

theorem firstTrap_none (ps : List Part) (h : ∀ p ∈ ps, p.trap = none) : firstTrap ps = none := by
  have : ps.filter (fun p => p.trap.isSome && p.mask != 0) = [] := by
    rw [List.filter_eq_nil_iff]
    intro p hp
    simp [h p hp]
  unfold firstTrap
  rw [this]
  rfl

/-- The end of an issue without a trap: the frontier takes the parts, then the group settles. -/
theorem State.finish_quiet (s : State) (u : Use) (k : Nat) (e : Entry) (pass : BitVec 32) (id : Nat) (ps : List Part) (g : Group)
    (hg : s.group k = some g) (he : e.st = .ready) (ht : ∀ p ∈ ps, p.trap = none)
    (hs : (g.place e u.skips (settleTraps e none ps) none).supv e = false ∨ (settleTraps e none ps).length ≤ 1) :
    ∃ t, Tail s t k (g.place e u.skips (settleTraps e none ps) none) ∧
      s.finish u k e pass id ps = some ((t.settle k).stopAfter k e.frag) := by
  have hsupv : ∀ r, (g.place e u.skips r none).supv e = g.supv e := fun r => by rw [Group.place_same]; rfl
  have hspend : s.spendReplay k e = s := by simp [State.spendReplay, he]
  have hft := firstTrap_none ps ht
  have htr : ps.foldl (fun m p => if p.trap.isSome then m ||| p.mask else m) (0 : BitVec 32) = 0 := by
    clear hft hs
    induction ps with
    | nil => rfl
    | cons p ps ih =>
      simp only [List.foldl_cons, ht p (by simp), Option.isSome_none, Bool.false_eq_true, if_false]
      exact ih (fun q hq => ht q (by simp [hq]))
  unfold State.finish
  rw [hg, hspend]
  simp only [hft, htr, Option.isSome_none, Bool.false_and, Bool.false_eq_true, if_false, Nat.add_zero]
  have hcond : (g.supv e && decide (1 < (settleTraps e none ps).length)) = false := by
    rcases hs with h | h
    · rw [hsupv] at h; simp [h]
    · have : ¬ 1 < (settleTraps e none ps).length := by omega
      simp [this]
  simp only [hcond, Bool.false_eq_true, if_false]
  generalize g.place e u.skips (settleTraps e none ps) none = g2
  have h1 : Tail s (s.setGroup k g2) k g2 := Tail.setGroup s k g2
  refine ⟨_, ?_, rfl⟩
  have step1 : ∀ a : State, Tail s a k g2 → Tail s (a.youngest k e.pc) k g2 := fun a h => h.trans (Tail.youngest h.group e.pc)
  have step2 : ∀ (a : State) (m : BitVec 32) (i t : Nat), Tail s a k g2 → Tail s ((a.countSkid k m i).progress t) k g2 :=
    fun a m i t h => (h.trans (Tail.countSkid h.group m i)).trans (Tail.progress (Tail.countSkid h.group m i).group t)
  have step3 : ∀ (a : State) (p : Payer) (c n : Nat), Tail s a k g2 → Tail s (a.charge p c n) k g2 :=
    fun a p c n h => h.trans (Tail.charge h.group p c n)
  have step4 : ∀ (a : State) (i : Nat) (f : BitVec 5), Tail s a k g2 → Tail s { a with accs := a.accs.map (fun (kv : Nat × Acc) =>
      (kv.1, if kv.2.grp == k && kv.2.issue == i then { kv.2 with fseq := some f } else kv.2)) } k g2 :=
    fun a i f h => h.trans (Tail.markParked h.group i f)
  apply step1
  split
  · apply step2
    split
    · split
      · apply step3
        split
        · exact step4 _ _ _ h1
        · exact h1
      · split
        · exact step4 _ _ _ h1
        · exact h1
    · split
      · exact step4 _ _ _ h1
      · exact h1
  · split
    · split
      · apply step3
        split
        · exact step4 _ _ _ h1
        · exact h1
      · split
        · exact step4 _ _ _ h1
        · exact h1
    · split
      · exact step4 _ _ _ h1
      · exact h1

/-! ## The issue of a word -/

/-- Registers freed by honoured last uses. -/
def State.frees (s : State) (k : Nat) (ns : List Nat) : State := ns.foldl (fun s n => s.freeReg k n) s

/-- A word that issues: its body runs, and what it answers is the end of the issue. -/
theorem Site.issue_eq (x : Site) (s : State) (o : Op) (h : Issues x s o) (s' : State) (ps : List Part)
    (hb : runBody (x.ctx s o) o.body (s.bump.spend x.k x.e) = some (s', ps)) (hne : ps ≠ []) (ht : ∀ p ∈ ps, p.trap = none) :
    s.issue o.use o.body =
      (s'.frees x.k (o.use.lastUses x.g x.e (x.pass o))).finish o.use x.k x.e (x.pass o) s.nextId ps := by
  have hmode : o.use.mode.any (fun m => m != x.g.supv x.e) = false := by
    rcases h.mode with hm | hm <;> simp [hm]
  have hwhole : (x.g.supv x.e && x.pass o != 0 && x.pass o != x.e.mask) = false := by
    cases hs : x.g.supv x.e
    · simp
    · rcases h.whole hs with hp | hp <;> simp [hp]
  have hex : s.execute o.use o.body x.k x.g x.e x.l (x.pass o) =
      (s'.frees x.k (o.use.lastUses x.g x.e (x.pass o))).finish o.use x.k x.e (x.pass o) s.nextId ps := by
    have hq := State.operandStage_quiet s o.use (x.ctx s o) x.l.desc.deadtrap h.operands
    have hop := h.operands
    unfold State.execute
    simp only
    have e1 : s.operandStage o.use
        { k := x.k, g := x.g.replayView x.e, e := x.e, pass := x.pass o, stay := x.e.mask, lanes := x.pass o, id := s.nextId }
        x.l.desc.deadtrap = (x.ctx s o, []) := Prod.ext hq hop
    rw [e1]
    simp only
    rw [hb]
    have hall : ps.all (fun p => p.trap.isNone) = true := by
      rw [List.all_eq_true]
      intro p hp
      simp [ht p hp]
    cases ps with
    | nil => exact absurd rfl hne
    | cons p ps =>
      simp only [List.isEmpty_cons, Bool.false_and, Bool.false_eq_true, if_false, List.nil_append, hall, if_true,
        hwhole]
      rfl
  unfold State.issue
  rw [h.issuer]
  simp only [h.free, Option.isSome_none, Bool.and_false, h.check, Bool.false_eq_true, if_false]
  unfold State.onHouse
  simp only [Bool.not_false, if_true]
  unfold State.decodeStage
  have hor : (!skidRoom (s.openAccs x.k x.e.mask) ||
      o.use.order && (!(s.openAccs x.k x.e.mask).isEmpty || s.booksOut x.k x.e.mask) ||
      o.use.touches && (s.openAccs x.k x.e.mask).any (fun a => a.acq && a.lanes &&& x.pass o != 0)) = false := by
    have h1 : (o.use.order && (!(s.openAccs x.k x.e.mask).isEmpty || s.booksOut x.k x.e.mask)) = false := by
      cases ho : o.use.order
      · rfl
      · simp [h.order ho]
    have h2 : (o.use.touches && (s.openAccs x.k x.e.mask).any (fun a => a.acq && a.lanes &&& x.pass o != 0)) = false := by
      cases ho : o.use.touches
      · rfl
      · rw [h.acquires ho]; rfl
    rw [h.room, h1, h2]
    rfl
  have hp : x.g.passing o.use.g x.e.mask = x.pass o := rfl
  simp only [h.budget, hmode, Bool.or_self, Bool.false_eq_true, if_false, hp, hor, h.results, h.lines]
  exact hex

/-- The site of a word is its state's. -/
theorem Issues.facts {x : Site} {s : State} {o : Op} (h : Issues x s o) :
    s.group x.k = some x.g ∧ s.launch (launchOf x.k) = some x.l ∧ x.g.active = true ∧ x.e.st = .ready ∧ x.e ∈ x.g.entries ∧
      (∃ i, s.cur = some i ∧ i.grp = x.k ∧ x.g.entry i.frag = some x.e) := by
  have hi := h.issuer
  unfold State.issuer at hi
  split at hi
  · cases hi
  · rename_i i hc
    split at hi
    · cases hi
    · rename_i g hg
      split at hi
      · rename_i e l he hl
        split at hi
        · rename_i hm
          simp only [Option.some.injEq, Prod.mk.injEq] at hi
          obtain ⟨h1, h2, h3, h4⟩ := hi
          subst h2 h3 h4
          rw [← h1]
          simp only [State.mayTry, Bool.and_eq_true] at hm
          refine ⟨hg, hl, hm.1.1.1.1.1.1.1.1.1, h.ready, ?_, i, hc, rfl, he⟩
          exact List.mem_of_find?_eq_some he
        · cases hi
      · cases hi

/-- A group with a READY entry stays as it is when it settles. -/
theorem State.settle_ready (s : State) (k : Nat) (g : Group) (hg : s.group k = some g) (e : Entry) (he : e ∈ g.entries)
    (hr : e.st = .ready) : s.settle k = s := by
  unfold State.settle
  rw [hg]
  simp only
  split
  · rename_i h0; rw [h0] at he; cases he
  · rename_i a es ha
    have : (!(a :: es).all (fun x => x.st == .conv)) = true := by
      rw [← ha]
      simp only [Bool.not_eq_true', List.all_eq_false]
      exact ⟨e, he, by simp [hr]⟩
    rw [if_pos this]

/-- No stop, eviction or debugger step is under way. -/
theorem State.stopAfter_none (s : State) (k : Nat) (f : BitVec 5) (g : Group) (l : Launch) (hg : s.group k = some g)
    (hl : s.launch (launchOf k) = some l) (hr : l.st = .running) (hs : g.step = none) : s.stopAfter k f = s := by
  unfold State.stopAfter
  rw [hg, hl]
  simp [hs, Launch.lets, hr]

/-- The end of an issue whose lanes all stand READY at one place. -/
theorem State.finish_one (s : State) (u : Use) (k : Nat) (e : Entry) (pass : BitVec 32) (id : Nat) (p : Part) (g : Group) (l : Launch)
    (hg : s.group k = some g) (he : e.st = .ready) (hl : s.launch (launchOf k) = some l) (hr : l.st = .running) (hs : g.step = none)
    (hp : p.trap = none ∧ p.wake = none ∧ p.gone = false ∧ p.st = .ready) (hm : p.mask ≠ 0) :
    ∃ t, Tail s t k (g.place e u.skips [p] none) ∧ s.finish u k e pass id [p] = some t ∧ StandsAt t k p.mask p.pc p.prio := by
  have hset : settleTraps e none [p] = [p] := by
    have hm' : ¬ p.mask = 0#32 := hm
    obtain ⟨mask, pc, prio, st, gone, trap, wake, refused, stays⟩ := p
    obtain ⟨rfl, -, -, -⟩ := hp
    simp [settleTraps, hm', joinParts]
  obtain ⟨t, ht, hf⟩ := State.finish_quiet s u k e pass id [p] g hg he (by simp [hp.1]) (.inr (by simp [hset]))
  rw [hset] at ht
  obtain ⟨x, hx, x1, x2, x3, x4⟩ := Group.place_holds g e u.skips [p] p (by simp) hp.2.2.1 hm
  have hset' := State.settle_ready t k _ ht.group x hx (x3.trans hp.2.2.2)
  have hl' : t.launch (launchOf k) = some l := by rw [State.launch, ht.launches]; exact hl
  have hst := State.stopAfter_none t k e.frag _ l ht.group hl' hr (by rw [Group.place_same]; exact hs)
  refine ⟨t, ht, ?_, _, ht.group, ?_⟩
  · rw [hf, hset', hst]
  · intro i hi
    exact ⟨x, hx, x4 i hi, x3.trans hp.2.2.2, x1, x2⟩

@[simp] theorem State.spend_launch (s : State) (k : Nat) (e : Entry) (j : Nat) : (s.spend k e).launch j = s.launch j := by
  simp [State.spend]
@[simp] theorem State.spend_mem (s : State) (k : Nat) (e : Entry) : (s.spend k e).mem = s.mem := by simp [State.spend]

@[simp] theorem State.frees_launch (s : State) (k : Nat) (ns : List Nat) (j : Nat) : (s.frees k ns).launch j = s.launch j := by
  induction ns generalizing s with
  | nil => rfl
  | cons n ns ih => exact (ih (s.freeReg k n)).trans (by simp [State.freeReg])

/-- Freeing registers changes only their lines and DEAD bits. -/
theorem State.frees_group (s : State) (k : Nat) (ns : List Nat) (g : Group) (hg : s.group k = some g) :
    ∃ d ls, (s.frees k ns).group k = some { g with dead := d, lines := ls } := by
  induction ns generalizing s g with
  | nil => exact ⟨g.dead, g.lines, hg⟩
  | cons n ns ih =>
    have h1 : (s.freeReg k n).group k = some (g.setDead n) := by
      rw [State.freeReg, State.modGroup_group, hg]; rfl
    obtain ⟨d, ls, h⟩ := ih (s.freeReg k n) (g.setDead n) h1
    exact ⟨d, ls, h⟩

/-- A word whose body answers one place for all lanes retires there. -/
theorem Site.run_one (x : Site) (s : State) (o : Op) (h : Issues x s o) (s' : State) (p : Part) (g : Group)
    (hb : runBody (x.ctx s o) o.body (s.bump.spend x.k x.e) = some (s', [p]))
    (hg : s'.group x.k = some g) (hst : g.step = none) (hl : s'.launch (launchOf x.k) = some x.l)
    (hp : p.trap = none ∧ p.wake = none ∧ p.gone = false ∧ p.st = .ready) (hm : p.mask ≠ 0) :
    ∃ t g2, o.run s = .next t ∧ (s'.frees x.k (o.use.lastUses x.g x.e (x.pass o))).group x.k = some g2 ∧
      Tail (s'.frees x.k (o.use.lastUses x.g x.e (x.pass o))) t x.k (g2.place x.e o.use.skips [p] none) ∧
      StandsAt t x.k p.mask p.pc p.prio := by
  have hi := Site.issue_eq x s o h s' [p] hb (by simp) (by simp [hp.1])
  obtain ⟨d, ls, hg2⟩ := State.frees_group s' x.k (o.use.lastUses x.g x.e (x.pass o)) g hg
  obtain ⟨t, ht, hf, hs⟩ := State.finish_one (s'.frees x.k (o.use.lastUses x.g x.e (x.pass o))) o.use x.k x.e (x.pass o) s.nextId p
    _ x.l hg2 h.ready (by simpa using hl) h.running hst hp hm
  refine ⟨t, _, ?_, hg2, ht, hs⟩
  unfold Op.run
  rw [hi, hf]

end Sys2Proof.Machine
end

