-- ==== Sys2Proof/Laws/Write.lean ====
section
/-! SUPPORT. What writing a register does once: the vector, scalar, predicate and index registers, the latch, and the freeing of a
register, for an active group. -/

namespace Sys2Proof.Machine

open Sys2Proof

/-- `t` differs from `s` only in one group and in charges not yet posted. -/
structure Inside (s t : State) (k : Nat) : Prop where
  rest : t = { s with groups := t.groups, unposted := t.unposted }
  others : ∀ j, j ≠ k → t.group j = s.group j

theorem Inside.refl (s : State) (k : Nat) : Inside s s k := ⟨rfl, fun _ _ => rfl⟩

theorem Inside.trans {s t r : State} {k : Nat} (a : Inside s t k) (b : Inside t r k) : Inside s r k := by
  refine ⟨?_, fun j hj => (b.others j hj).trans (a.others j hj)⟩
  have ha := a.rest
  have hb := b.rest
  generalize hg : t.groups = tg at ha
  generalize hu : t.unposted = tu at ha
  rw [hb, ha]

theorem Inside.setGroup (s : State) (k : Nat) (g : Group) : Inside s (s.setGroup k g) k :=
  ⟨rfl, fun j hj => State.setGroup_group_ne s k j g hj⟩

theorem Inside.modGroup (s : State) (k : Nat) (f : Group → Group) : Inside s (s.modGroup k f) k := by
  refine ⟨?_, fun j hj => State.modGroup_group_ne s k j f hj⟩
  unfold State.modGroup
  split <;> rfl

theorem Inside.charge (s : State) (k : Nat) (p : Payer) (c n : Nat) : Inside s (s.charge p c n) k := by
  refine ⟨?_, fun j _ => by simp⟩
  unfold State.charge
  split <;> rfl

section
variable {s t : State} {k : Nat} (h : Inside s t k)
include h
theorem Inside.mem : t.mem = s.mem := by rw [h.rest]
theorem Inside.launches : t.launches = s.launches := by rw [h.rest]
theorem Inside.teams : t.teams = s.teams := by rw [h.rest]
theorem Inside.cores : t.cores = s.cores := by rw [h.rest]
theorem Inside.dies : t.dies = s.dies := by rw [h.rest]
theorem Inside.fns : t.fns = s.fns := by rw [h.rest]
theorem Inside.vfs : t.vfs = s.vfs := by rw [h.rest]
theorem Inside.leaves : t.leaves = s.leaves := by rw [h.rest]
theorem Inside.accs : t.accs = s.accs := by rw [h.rest]
theorem Inside.dev : t.dev = s.dev := by rw [h.rest]
theorem Inside.launch (j : Nat) : t.launch j = s.launch j := by rw [State.launch, State.launch, h.launches]
end

/-- What the record of an active group holds depends on its pages, on memory, on its core's L1 and on the launch. -/
theorem State.recordLanes_congr (s t : State) (k n : Nat) (g g' : Group) (ha : g.active = true) (hm : t.mem = s.mem)
    (hl : t.launches = s.launches) (hc : ∀ c, (t.core c).l1 = (s.core c).l1) (ha' : g'.active = g.active)
    (hp : g'.recPages = g.recPages) (hk : g'.core = g.core) : t.recordLanes k g' n = s.recordLanes k g n := by
  have hva : t.regVa k n = s.regVa k n := by simp only [State.regVa, State.recordVa, State.launch, hl]
  have hx : ∀ va, t.recXlat k g' va = s.recXlat k g va := fun va => by simp only [State.recXlat, ha', ha, if_true, hp]
  have hb : ∀ x va, t.recByte g'.core x va = s.recByte g.core x va := fun x va => by
    simp only [State.recByte, Core.l1Line, hc, hk, hm]
  simp only [State.recordLanes, hva, hx, hb]

/-- The value of a register of an active group depends on the group's lines, DEAD bits and record pages, on memory, on its core's L1
and on the launch. -/
theorem State.regData_congr (s t : State) (k n : Nat) (g g' : Group) (ha : g.active = true) (hm : t.mem = s.mem)
    (hl : t.launches = s.launches) (hc : ∀ c, (t.core c).l1 = (s.core c).l1) (ha' : g'.active = g.active)
    (hd : g'.dead.getLsbD n = g.dead.getLsbD n) (hln : SMap.find g'.lines n = SMap.find g.lines n) (hp : g'.recPages = g.recPages)
    (hk : g'.core = g.core) : t.regData k g' n = s.regData k g n := by
  unfold State.regData
  rw [hd, hln, State.recordLanes_congr s t k n g g' ha hm hl hc ha' hp hk]

/-- `g'` is `g` but for its frontier, wake records, lines and DEAD bits. -/
def SameButLines (g g' : Group) : Prop :=
  g' = { g with entries := g'.entries, wakes := g'.wakes, lines := g'.lines, dead := g'.dead }

theorem SameButLines.refl (g : Group) : SameButLines g g := rfl
theorem SameButLines.trans {a b c : Group} (h : SameButLines a b) (g : SameButLines b c) : SameButLines a c := by
  unfold SameButLines at *
  generalize b.entries = x1, b.wakes = x2, b.lines = x3, b.dead = x4 at h
  subst h
  exact g

theorem Group.clearDead_bit (g : Group) (n m : Nat) : (g.clearDead n).dead.getLsbD m = (g.dead.getLsbD m && !(decide (m = n))) := by
  unfold Group.clearDead
  simp only [BitVec.getLsbD_and, BitVec.getLsbD_not, BitVec.getLsbD_shiftLeft, BitVec.getLsbD_one]
  by_cases hm : m < 256
  · by_cases h : m = n
    · subst h; simp [hm]
    · have : ¬ (m - n = 0 ∧ ¬ m < n) := by omega
      by_cases hlt : m < n
      · simp [hm, h, hlt]
      · have : ¬ m - n = 0 := by omega
        simp [hm, h, hlt, this]
  · have : g.dead.getLsbD m = false := BitVec.getLsbD_of_ge _ _ (by omega)
    simp [this]

/-- The lanes laid over a store. -/
theorem overlaid_rd (m : BitVec 32) (a b : Store 32) (i : Nat) :
    Store.rd (overlaid m a b) i = if i < 32 ∧ m.getLsbD i = true then Store.rd a i else Store.rd b i := by
  unfold overlaid
  split
  · rename_i h
    exact Store.rd_wrs_mem ((lanesOf m).map (fun i => (i, Store.rd a i))) b (i, Store.rd a i)
      (List.mem_map.mpr ⟨i, (lanesOf_mem _ _).mpr h, rfl⟩) (by
        rw [List.pairwise_map]
        exact (List.nodup_range).filter _)
  · rename_i h
    apply Store.rd_wrs_other
    intro v hv
    obtain ⟨j, hj, rfl⟩ := List.mem_map.mp hv
    rintro rfl
    exact h ((lanesOf_mem _ _).mp hj)

/-- The value of a register whose line holds what `ln` says. -/
theorem State.regData_line (s : State) (k n : Nat) (g : Group) (ln : Line) (hd : g.dead.getLsbD n = false)
    (hl : SMap.find g.lines n = some ln) :
    s.regData k g n = if ln.st == .filling then overlaid ln.got ln.data (s.recordLanes k g n) else ln.data := by
  unfold State.regData
  simp [hd, hl]

theorem LineSt.dirty_filling : (LineSt.dirty == LineSt.filling) = false := rfl

/-- Everything that writing lanes of one register of an active group does. -/
theorem State.writeReg_spec (s : State) (k n : Nat) (full : Bool) (vals : List (Nat × BitVec 32)) (g : Group)
    (hg : s.group k = some g) (ha : g.active = true) :
    ∃ g', (s.writeReg k n full vals).group k = some g' ∧ SameButLines g g' ∧ Inside s (s.writeReg k n full vals) k ∧
      (∀ m, m ≠ n → (s.writeReg k n full vals).regData k g' m = s.regData k g m) ∧
      (∀ i, (∀ v ∈ vals, v.1 ≠ i) → full = false →
        Store.rd ((s.writeReg k n full vals).regData k g' n) i = Store.rd (s.regData k g n) i) ∧
      (vals.Pairwise (fun a b => a.1 ≠ b.1) → ∀ v ∈ vals, v.1 < 32 →
        Store.rd ((s.writeReg k n full vals).regData k g' n) v.1 = v.2) := by
  cases hv : vals with
  | nil =>
    have : s.writeReg k n full [] = s := by
      unfold State.writeReg; rw [hg]; simp
    rw [this]
    exact ⟨g, hg, SameButLines.refl g, Inside.refl s k, fun _ _ => rfl, fun _ _ _ => rfl, by simp⟩
  | cons v0 vs =>
    rw [← hv]
    have hne : vals.isEmpty = false := by rw [hv]; rfl
    generalize hln : s.merged k g n full vals = ln
    have hw : s.writeReg k n full vals = s.setGroup k { g.clearDead n with lines := SMap.put g.lines n ln } := by
      unfold State.writeReg
      rw [hg]
      simp only [hne, Bool.false_eq_true, if_false, ha, if_true, hln]
    rw [hw]
    have hin : Inside s (s.setGroup k { g.clearDead n with lines := SMap.put g.lines n ln }) k := Inside.setGroup _ _ _
    generalize hg' : ({ g.clearDead n with lines := SMap.put g.lines n ln } : Group) = g' at hin ⊢
    have hdead : g'.dead.getLsbD n = false := by
      rw [← hg']
      show (g.clearDead n).dead.getLsbD n = _
      rw [Group.clearDead_bit]
      simp
    have hfind : SMap.find g'.lines n = some ln := by
      rw [← hg']
      exact SMap.find_put_same _ _ _
    have hrec : (s.setGroup k g').recordLanes k g' n = s.recordLanes k g n :=
      State.recordLanes_congr _ _ k n g g' ha rfl rfl (fun _ => by simp) (by rw [← hg']; rfl) (by rw [← hg']; rfl) (by rw [← hg']; rfl)
    have hnew := State.regData_line (s.setGroup k g') k n g' ln hdead hfind
    rw [hrec] at hnew
    refine ⟨g', State.setGroup_group _ _ _, by rw [← hg']; rfl, hin, ?_, ?_, ?_⟩
    · intro m hm
      apply State.regData_congr _ _ _ _ _ _ ha hin.mem hin.launches (fun c => by simp)
      · rw [← hg']; rfl
      · rw [← hg']
        show (g.clearDead n).dead.getLsbD m = _
        rw [Group.clearDead_bit]
        simp [hm]
      · rw [← hg']
        exact SMap.find_put_other _ _ _ _ hm
      · rw [← hg']; rfl
      · rw [← hg']; rfl
    · intro i hi hfull
      have hnot : (maskOf (fun i => vals.any (fun v => v.1 == i))).getLsbD i = false := by
        rw [maskOf_getLsbD]
        have : vals.any (fun v => v.1 == i) = false := by
          rw [List.any_eq_false]
          intro v hv
          simpa using hi v hv
        simp [this]
      rw [hnew, ← hln]
      unfold State.merged Group.isDead
      cases hd : g.dead.getLsbD n
      · simp only [Bool.false_eq_true, if_false]
        cases hf : SMap.find g.lines n with
        | none =>
          have hold : s.regData k g n = s.recordLanes k g n := by
            unfold State.regData
            simp [hd, hf]
          simp only [hfull, Bool.false_eq_true, if_false, beq_self_eq_true, if_true, hold, overlaid_rd, hnot, and_false]
        | some l0 =>
          rw [State.regData_line s k n g l0 hd hf]
          cases hst : l0.st == LineSt.filling
          · simp only [hst, Bool.false_eq_true, if_false, LineSt.dirty_filling]
            exact Store.rd_wrs_other _ _ _ hi
          · simp only [if_true, overlaid_rd, BitVec.getLsbD_or, hnot, Bool.or_false, hst]
            split
            · exact Store.rd_wrs_other _ _ _ hi
            · rfl
      · simp only [if_true]
        have hold : s.regData k g n = [] := by
          unfold State.regData
          simp [hd]
        rw [hold]
        exact Store.rd_wrs_other _ _ _ hi
    · intro hp v hvm h32
      have hin' : (maskOf (fun i => vals.any (fun v => v.1 == i))).getLsbD v.1 = true := by
        rw [maskOf_getLsbD]
        have : vals.any (fun w => w.1 == v.1) = true := List.any_eq_true.mpr ⟨v, hvm, by simp⟩
        simp [this, h32]
      have hval : ∀ d, Store.rd (Store.wrs d vals) v.1 = v.2 := fun d => Store.rd_wrs_mem vals d v hvm hp
      rw [hnew, ← hln]
      unfold State.merged
      cases hd : g.isDead n
      · simp only [Bool.false_eq_true, if_false]
        cases hf : SMap.find g.lines n with
        | none =>
          cases full
          · simp only [Bool.false_eq_true, if_false, beq_self_eq_true, if_true, overlaid_rd, hin', h32, and_self, hval]
          · simp only [if_true]
            exact hval _
        | some l0 =>
          cases hst : l0.st == LineSt.filling
          · simp only [hst, Bool.false_eq_true, if_false, LineSt.dirty_filling]
            exact hval _
          · simp only [if_true, overlaid_rd, BitVec.getLsbD_or, hin', Bool.or_true, h32, and_self, hst, hval]
      · simp only [if_true]
        exact hval _

/-- Everything that writing `w` registers from `n` up does. -/
theorem State.putV_spec (s : State) (k n w : Nat) (full : Bool) (vals : List (Nat × Nat)) (g : Group)
    (hg : s.group k = some g) (ha : g.active = true) (hp : vals.Pairwise (fun a b => a.1 ≠ b.1)) :
    ∃ g', (s.putV k n w full vals).group k = some g' ∧ SameButLines g g' ∧ Inside s (s.putV k n w full vals) k ∧
      (∀ m, (m < n ∨ n + w ≤ m) → (s.putV k n w full vals).regData k g' m = s.regData k g m) ∧
      (∀ m i, (∀ v ∈ vals, v.1 ≠ i) → full = false →
        Store.rd ((s.putV k n w full vals).regData k g' m) i = Store.rd (s.regData k g m) i) ∧
      (∀ v ∈ vals, v.1 < 32 → ∀ j, j < w →
        Store.rd ((s.putV k n w full vals).regData k g' (n + j)) v.1 = BitVec.ofNat 32 (v.2 / 2 ^ (32 * j))) := by
  induction w with
  | zero =>
    exact ⟨g, hg, SameButLines.refl g, Inside.refl s k, fun _ _ => rfl, fun _ _ _ _ => rfl, fun _ _ _ j hj => by omega⟩
  | succ w ih =>
    obtain ⟨g1, h1, hs1, hi1, ho1, hn1, hv1⟩ := ih
    have hstep : s.putV k n (w + 1) full vals =
        (s.putV k n w full vals).writeReg k (n + w) full (vals.map (fun lv => (lv.1, BitVec.ofNat 32 (lv.2 / 2 ^ (32 * w))))) := by
      simp [State.putV, List.range_succ]
    have ha1 : g1.active = true := by rw [hs1]; exact ha
    obtain ⟨g2, h2, hs2, hi2, ho2, hn2, hv2⟩ := State.writeReg_spec (s.putV k n w full vals) k (n + w) full
      (vals.map (fun lv => (lv.1, BitVec.ofNat 32 (lv.2 / 2 ^ (32 * w))))) g1 h1 ha1
    rw [← hstep] at h2 hi2 ho2 hn2 hv2
    refine ⟨g2, h2, hs1.trans hs2, hi1.trans hi2, ?_, ?_, ?_⟩
    · intro m hm
      rw [ho2 m (by omega), ho1 m (by omega)]
    · intro m i hi hf
      by_cases hm : m = n + w
      · subst hm
        rw [hn2 i (by
          intro v hv
          obtain ⟨u, hu, rfl⟩ := List.mem_map.mp hv
          exact hi u hu) hf, hn1 _ i hi hf]
      · rw [ho2 m hm, hn1 m i hi hf]
    · intro v hv h32 j hj
      by_cases hjw : j = w
      · subst hjw
        have := hv2 (by
          rw [List.pairwise_map]
          exact hp) (v.1, BitVec.ofNat 32 (v.2 / 2 ^ (32 * j))) (List.mem_map.mpr ⟨v, hv, rfl⟩) h32
        exact this
      · rw [ho2 (n + j) (by omega)]
        exact hv1 v hv h32 j (by omega)

/-! ## Results -/

theorem wordsFrom_succ (f : Nat → BitVec 32) (n w : Nat) : wordsFrom f n (w + 1) = (f n).toNat + 2 ^ 32 * wordsFrom f (n + 1) w := by
  simp only [wordsFrom, List.range_succ_eq_map, List.foldr_cons, List.foldr_map, Nat.add_zero]
  congr 2
  apply congrArg (fun F => List.foldr F 0 (List.range w))
  funext i a
  rw [show n + Nat.succ i = n + 1 + i by omega]

/-- The words of a value, put together. -/
theorem wordsFrom_of (f : Nat → BitVec 32) (n w v : Nat) (h : ∀ j, j < w → f (n + j) = BitVec.ofNat 32 (v / 2 ^ (32 * j))) :
    wordsFrom f n w = v % 2 ^ (32 * w) := by
  induction w generalizing n v with
  | zero => simp [wordsFrom, Nat.mod_one]
  | succ w ih =>
    have h0 := h 0 (by omega)
    rw [Nat.add_zero] at h0
    rw [wordsFrom_succ, h0, ih (n + 1) (v / 2 ^ 32) (by
      intro j hj
      rw [show n + 1 + j = n + (j + 1) by omega, h (j + 1) (by omega), Nat.div_div_eq_div_mul, ← Nat.pow_add,
        show 32 * (j + 1) = 32 + 32 * j by omega])]
    simp only [Nat.mul_zero, Nat.pow_zero, Nat.div_one, BitVec.toNat_ofNat]
    rw [show 32 * (w + 1) = 32 + 32 * w by omega, Nat.pow_add, Nat.mod_mul]

theorem lanesOf_nodup (m : BitVec 32) : (lanesOf m).Nodup := (List.nodup_range).filter _

theorem lanePairs (m : BitVec 32) (f : Nat → Nat) : ((lanesOf m).map (fun i => (i, f i))).Pairwise (fun a b => a.1 ≠ b.1) := by
  rw [List.pairwise_map]
  exact lanesOf_nodup m

/-- `g'` is `g` but for its frontier, wake records and registers. -/
def SameButRegs (g g' : Group) : Prop :=
  g' = { g with
    entries := g'.entries, wakes := g'.wakes, lines := g'.lines, dead := g'.dead, s := g'.s, p := g'.p, x := g'.x
    latches := g'.latches }

theorem SameButRegs.refl (g : Group) : SameButRegs g g := rfl
theorem SameButRegs.trans {a b c : Group} (h : SameButRegs a b) (g : SameButRegs b c) : SameButRegs a c := by
  unfold SameButRegs at *
  generalize b.entries = x1, b.wakes = x2, b.lines = x3, b.dead = x4, b.s = x5, b.p = x6, b.x = x7, b.latches = x8 at h
  subst h
  exact g
theorem SameButLines.regs {a b : Group} (h : SameButLines a b) : SameButRegs a b := by
  unfold SameButLines at h
  unfold SameButRegs
  generalize b.entries = x1, b.wakes = x2, b.lines = x3, b.dead = x4 at h
  subst h
  rfl

/-- v registers that a result reaches in some lane. -/
def Ctx.reaches (c : Ctx) (u : Use) (m : Nat) : Prop :=
  match u.dst with
  | some (.v n) => n.toNat ≤ m ∧ m < n.toNat + u.dw
  | some (.vx i k) => ∃ l ∈ lanesOf c.lanes, c.g.indexed i k l ≤ m ∧ m < c.g.indexed i k l + u.dw
  | _ => False

/-- What a destination of `w` registers of a group holds in a lane; `o` is the group with the index registers as they stood. -/
def State.holds (t : State) (k : Nat) (o g : Group) (d : Dst) (w lane : Nat) : Nat :=
  match d with
  | .v n => t.vregs k g n.toNat w lane
  | .s n => wordsFrom g.sreg n.toNat w
  | .p n => if g.pred n.toNat lane then 1 else 0
  | .x n => (g.xreg n.toNat lane).toNat
  | .vx i j => t.vregs k g (o.indexed i j lane) w lane

/-- What writing a result does to a group: `g` before in state `s`, `g'` after in state `t`. -/
structure Wrote (c : Ctx) (u : Use) (s t : State) (g g' : Group) (f : Nat → Nat) : Prop where
  group : t.group c.k = some g'
  same : SameButRegs g g'
  inside : Inside s t c.k
  vector : ∀ m, ¬ c.reaches u m → t.regData c.k g' m = s.regData c.k g m
  idle : ∀ m i, c.lanes.getLsbD i = false → c.full u = false → Store.rd (t.regData c.k g' m) i = Store.rd (s.regData c.k g m) i
  scalar : ∀ m, (∀ n, u.dst = some (.s n) → m < n.toNat ∨ n.toNat + u.dw ≤ m) → g'.sreg m = g.sreg m
  predicate : ∀ m i, (∀ n, u.dst = some (.p n) → n.toNat ≠ m) ∨ c.lanes.getLsbD i = false → g'.pred m i = g.pred m i
  index : ∀ m i, i < 32 → (∀ n, u.dst = some (.x n) → n.toNat ≠ m) ∨ c.lanes.getLsbD i = false → g'.xreg m i = g.xreg m i
  latches : ∀ m, (∀ n, u.latch = some n → n.toNat ≠ m) → SMap.find g'.latches m = SMap.find g.latches m
  dst : ∀ d, u.dst = some d → ∀ i, i < 32 → c.lanes.getLsbD i = true →
    t.holds c.k c.g g' d u.dw i = takes d u.dw (f i) (f (lowLane c.lanes))
  latch : ∀ n, u.latch = some n → ∀ i, i < 32 → c.lanes.getLsbD i = true →
    (SMap.find g'.latches n.toNat).map (fun d => Store.rd d i) = some (BitVec.ofNat 32 (f i))

/-- The same without the latch. -/
theorem Wrote.withLatch {c : Ctx} {u : Use} {s t : State} {g g1 : Group} {f : Nat → Nat}
    (h : Wrote c { u with latch := none } s t g g1 f) (ha : g1.active = true) :
    ∃ g', Wrote c u s (match u.latch with
      | none => t
      | some n => t.modGroup c.k (fun g => g.capture n.toNat ((lanesOf c.lanes).map (fun i => (i, BitVec.ofNat 32 (f i)))))) g g' f := by
  cases hl : u.latch with
  | none =>
    have hu : { u with latch := none } = u := by rw [← hl]
    rw [hu] at h
    exact ⟨g1, h⟩
  | some n =>
    have hg := h.group
    have hmod : t.modGroup c.k (fun g => g.capture n.toNat ((lanesOf c.lanes).map (fun i => (i, BitVec.ofNat 32 (f i))))) =
        t.setGroup c.k (g1.capture n.toNat ((lanesOf c.lanes).map (fun i => (i, BitVec.ofNat 32 (f i))))) := by
      unfold State.modGroup; rw [hg]
    simp only [hmod]
    have hreg : ∀ m, (t.setGroup c.k (g1.capture n.toNat ((lanesOf c.lanes).map (fun i => (i, BitVec.ofNat 32 (f i)))))).regData c.k
        (g1.capture n.toNat ((lanesOf c.lanes).map (fun i => (i, BitVec.ofNat 32 (f i))))) m = t.regData c.k g1 m := fun m =>
      State.regData_congr _ _ _ _ _ _ ha rfl rfl (fun _ => by simp) rfl rfl rfl rfl rfl
    refine ⟨g1.capture n.toNat ((lanesOf c.lanes).map (fun i => (i, BitVec.ofNat 32 (f i)))),
      { group := State.setGroup_group _ _ _
        same := h.same.trans rfl
        inside := h.inside.trans (Inside.setGroup _ _ _)
        vector := fun m hm => by rw [hreg]; exact h.vector m hm
        idle := fun m i hi hf => by rw [hreg]; exact h.idle m i hi hf
        scalar := h.scalar
        predicate := h.predicate
        index := h.index
        latches := fun m hm => ?_
        dst := fun d hd i hi hb => ?_
        latch := fun n' hn i hi hb => ?_ }⟩
    · have := hm n hl
      simp only [Group.capture]
      rw [SMap.find_put_other _ _ _ _ (Ne.symm this)]
      exact h.latches m (by simp)
    · have h1 := h.dst d hd i hi hb
      rw [← h1]
      cases d <;> simp only [State.holds, State.vregs, hreg] <;> rfl
    · rw [hl] at hn
      cases hn
      simp only [Group.capture, SMap.find_put_same, Option.map_some]
      congr 1
      exact Store.rd_wrs_mem ((lanesOf c.lanes).map (fun i => (i, BitVec.ofNat 32 (f i)))) _ (i, BitVec.ofNat 32 (f i))
        (List.mem_map.mpr ⟨i, (lanesOf_mem _ _).mpr ⟨hi, hb⟩, rfl⟩)
        (by rw [List.pairwise_map]; exact lanesOf_nodup _)

/-- Writing the result of a word in its acting lanes: everything that it does to the group. -/
theorem Ctx.write_spec (c : Ctx) (u : Use) (s : State) (f : Nat → Nat) (g : Group) (hg : s.group c.k = some g)
    (ha : g.active = true) (hl : c.lanes ≠ 0) : ∃ g', Wrote c u s (c.write u s f) g g' f := by
  have hlane := lowLane_mem hl
  have hne : (lanesOf c.lanes).isEmpty = false := by
    cases h : lanesOf c.lanes with
    | nil =>
      have : lowLane c.lanes ∈ lanesOf c.lanes := (lanesOf_mem _ _).mpr hlane
      rw [h] at this; cases this
    | cons a l => rfl
  have hpair := lanePairs c.lanes f
  have hmem : ∀ i, i < 32 → c.lanes.getLsbD i = true → (i, f i) ∈ (lanesOf c.lanes).map (fun i => (i, f i)) := fun i hi hb =>
    List.mem_map.mpr ⟨i, (lanesOf_mem _ _).mpr ⟨hi, hb⟩, rfl⟩
  have hnot : ∀ i, c.lanes.getLsbD i = false → ∀ v ∈ (lanesOf c.lanes).map (fun i => (i, f i)), v.1 ≠ i := by
    intro i hi v hv hvi
    obtain ⟨j, hj, rfl⟩ := List.mem_map.mp hv
    simp only at hvi
    subst hvi
    rw [((lanesOf_mem _ _).mp hj).2] at hi
    cases hi
  -- the destination first
  suffices hd : ∃ g1, Wrote c { u with latch := none } s (match u.dst with
      | none => s
      | some (.v n) => s.putV c.k n.toNat u.dw (c.full u) ((lanesOf c.lanes).map (fun i => (i, f i)))
      | some (.s n) => s.putS c.k n.toNat u.dw (f (lowLane c.lanes))
      | some (.p n) => s.putP c.k n.toNat (((lanesOf c.lanes).map (fun i => (i, f i))).map (fun lv => (lv.1, lv.2 != 0)))
      | some (.x n) => s.putX c.k n.toNat ((lanesOf c.lanes).map (fun i => (i, f i)))
      | some (.vx i k) => ((lanesOf c.lanes).map (fun i => (i, f i))).foldl
          (fun s lv => s.putV c.k (c.g.indexed i k lv.1) u.dw false [lv]) s) g g1 f by
    obtain ⟨g1, h1⟩ := hd
    obtain ⟨g', h'⟩ := h1.withLatch (by rw [h1.same]; exact ha)
    refine ⟨g', ?_⟩
    unfold Ctx.write
    simp only [hne, Bool.false_eq_true, if_false, List.map_map] at h' ⊢
    exact h'
  cases hd : u.dst with
  | none =>
    exact ⟨g,
      { group := hg, same := SameButRegs.refl g, inside := Inside.refl s c.k, vector := fun _ _ => rfl, idle := fun _ _ _ _ => rfl
        scalar := fun _ _ => rfl, predicate := fun _ _ _ => rfl, index := fun _ _ _ _ => rfl, latches := fun _ _ => rfl
        dst := fun d h => by cases h
        latch := fun n h => by cases h }⟩
  | some d =>
    cases d with
    | v n =>
      obtain ⟨g1, h1, hs, hi, ho, hn, hv⟩ := State.putV_spec s c.k n.toNat u.dw (c.full u)
        ((lanesOf c.lanes).map (fun i => (i, f i))) g hg ha hpair
      have hr := hs.regs
      refine ⟨g1,
        { group := h1, same := hr, inside := hi
          vector := fun m hm => ho m (by
            simp only [Ctx.reaches] at hm
            omega)
          idle := fun m i hb hf => hn m i (hnot i hb) hf
          scalar := fun m _ => by rw [hs]; rfl
          predicate := fun m i _ => by rw [hs]; rfl
          index := fun m i _ _ => by rw [hs]; rfl
          latches := fun m _ => by rw [hs]
          dst := fun d h i hi' hb => ?_
          latch := fun n h => by cases h }⟩
      cases h
      simp only [State.holds, takes, State.vregs]
      exact wordsFrom_of _ _ _ _ (fun j hj => hv (i, f i) (hmem i hi' hb) hi' j hj)
    | s n =>
      have hput : s.putS c.k n.toNat u.dw (f (lowLane c.lanes)) = s.setGroup c.k { g with
          s := Store.wrs g.s ((List.range u.dw).map (fun i => (n.toNat + i, BitVec.ofNat 32 (f (lowLane c.lanes) / 2 ^ (32 * i))))) } := by
        unfold State.putS State.modGroup; rw [hg]
      simp only [hput]
      refine ⟨_,
        { group := State.setGroup_group _ _ _, same := rfl, inside := Inside.setGroup _ _ _
          vector := fun m _ => State.regData_congr _ _ _ _ _ _ ha rfl rfl (fun _ => by simp) rfl rfl rfl rfl rfl
          idle := fun m i _ _ => congrArg (fun d => Store.rd d i) (State.regData_congr _ _ _ _ _ _ ha rfl rfl (fun _ => by simp) rfl rfl rfl rfl rfl)
          scalar := fun m hm => ?_
          predicate := fun _ _ _ => rfl, index := fun _ _ _ _ => rfl, latches := fun _ _ => rfl
          dst := fun d h i hi' hb => ?_
          latch := fun n h => by cases h }⟩
      · simp only [Group.sreg]
        apply Store.rd_wrs_other
        intro kv hkv
        obtain ⟨j, hj, rfl⟩ := List.mem_map.mp hkv
        have : m < n.toNat ∨ n.toNat + u.dw ≤ m := hm n rfl
        have := List.mem_range.mp hj
        simp only
        omega
      · cases h
        simp only [State.holds, takes]
        apply wordsFrom_of
        intro j hj
        simp only [Group.sreg]
        exact Store.rd_wrs_mem ((List.range u.dw).map (fun i => (n.toNat + i, BitVec.ofNat 32 (f (lowLane c.lanes) / 2 ^ (32 * i))))) g.s
          (n.toNat + j, BitVec.ofNat 32 (f (lowLane c.lanes) / 2 ^ (32 * j))) (List.mem_map.mpr ⟨j, List.mem_range.mpr hj, rfl⟩)
          (by
            rw [List.pairwise_map]
            exact List.Pairwise.imp (fun h => by simpa using h) (List.nodup_range (n := u.dw)))
    | p n =>
      by_cases h7 : n.toNat = 7
      · have hput : s.putP c.k n.toNat (((lanesOf c.lanes).map (fun i => (i, f i))).map (fun lv => (lv.1, lv.2 != 0))) = s := by
          unfold State.putP; simp [h7]
        simp only [hput]
        have hn : n = 7 := by apply BitVec.eq_of_toNat_eq; simpa using h7
        refine ⟨g,
          { group := hg, same := SameButRegs.refl g, inside := Inside.refl s c.k, vector := fun _ _ => rfl, idle := fun _ _ _ _ => rfl
            scalar := fun _ _ => rfl, predicate := fun _ _ _ => rfl, index := fun _ _ _ _ => rfl, latches := fun _ _ => rfl
            dst := fun d h i hi' hb => ?_
            latch := fun n h => by cases h }⟩
        cases h
        simp [State.holds, takes, Group.pred, hn]
      · have hput : s.putP c.k n.toNat (((lanesOf c.lanes).map (fun i => (i, f i))).map (fun lv => (lv.1, lv.2 != 0))) =
            s.setGroup c.k { g with p := Store.wr g.p n.toNat (maskOf (fun i =>
              match (((lanesOf c.lanes).map (fun i => (i, f i))).map (fun lv => (lv.1, lv.2 != 0))).find? (fun v => v.1 == i) with
              | some v => v.2
              | none => (Store.rd g.p n.toNat).getLsbD i)) } := by
          unfold State.putP State.modGroup; rw [hg]; simp only [h7, if_false] <;> rfl
        have hfind : ∀ i, c.lanes.getLsbD i = false →
            (((lanesOf c.lanes).map (fun i => (i, f i))).map (fun lv => (lv.1, lv.2 != 0))).find? (fun v => v.1 == i) = none := by
          intro i hi
          rw [List.find?_eq_none]
          intro v hv
          obtain ⟨w, hw, rfl⟩ := List.mem_map.mp hv
          simpa using hnot i hi w hw
        have hfound : ∀ i, i < 32 → c.lanes.getLsbD i = true →
            (((lanesOf c.lanes).map (fun i => (i, f i))).map (fun lv => (lv.1, lv.2 != 0))).find? (fun v => v.1 == i) =
              some (i, f i != 0) := by
          intro i hi hb
          cases hf : (((lanesOf c.lanes).map (fun i => (i, f i))).map (fun lv => (lv.1, lv.2 != 0))).find? (fun v => v.1 == i) with
          | none =>
            have := List.find?_eq_none.mp hf (i, f i != 0) (List.mem_map.mpr ⟨(i, f i), hmem i hi hb, rfl⟩)
            simp at this
          | some v =>
            have hv := List.find?_some hf
            obtain ⟨w, hw, hwv⟩ := List.mem_map.mp (List.mem_of_find?_eq_some hf)
            obtain ⟨j, hj, rfl⟩ := List.mem_map.mp hw
            subst hwv
            simp only [beq_iff_eq] at hv
            subst hv
            rfl
        simp only [hput]
        refine ⟨_,
          { group := State.setGroup_group _ _ _, same := rfl, inside := Inside.setGroup _ _ _
            vector := fun m _ => State.regData_congr _ _ _ _ _ _ ha rfl rfl (fun _ => by simp) rfl rfl rfl rfl rfl
            idle := fun m i _ _ => congrArg (fun d => Store.rd d i) (State.regData_congr _ _ _ _ _ _ ha rfl rfl (fun _ => by simp) rfl rfl rfl rfl rfl)
            scalar := fun _ _ => rfl
            predicate := fun m i hm => ?_, index := fun _ _ _ _ => rfl, latches := fun _ _ => rfl
            dst := fun d h i hi' hb => ?_
            latch := fun n h => by cases h }⟩
        · simp only [Group.pred]
          split
          · rfl
          · by_cases hmn : m = n.toNat
            · subst hmn
              rw [Store.rd_wr_same, maskOf_getLsbD]
              rcases hm with hm | hm
              · exact absurd rfl (hm n rfl)
              · rw [hfind i hm]
                by_cases hi : i < 32
                · simp [hi]
                · simp [hi, BitVec.getLsbD_of_ge (Store.rd g.p n.toNat) i (by omega)]
            · rw [Store.rd_wr_other _ _ _ _ hmn]
        · cases h
          have hn : ¬ n = 7 := fun hc => h7 (by rw [hc]; rfl)
          simp only [State.holds, takes, Group.pred, h7, if_false, Store.rd_wr_same, maskOf_getLsbD, hfound i hi' hb, hi', decide_true,
            Bool.true_and]
          have hn' : ¬ n = 7#3 := hn
          by_cases hf : f i = 0 <;> simp [hf, hn']
    | x n =>
      have hput : s.putX c.k n.toNat ((lanesOf c.lanes).map (fun i => (i, f i))) = s.setGroup c.k { g with
          x := Store.wrs g.x (((lanesOf c.lanes).map (fun i => (i, f i))).map (fun lv => (n.toNat * 32 + lv.1, BitVec.ofNat 16 lv.2))) } := by
        unfold State.putX State.modGroup; rw [hg]
      simp only [hput]
      refine ⟨_,
        { group := State.setGroup_group _ _ _, same := rfl, inside := Inside.setGroup _ _ _
          vector := fun m _ => State.regData_congr _ _ _ _ _ _ ha rfl rfl (fun _ => by simp) rfl rfl rfl rfl rfl
          idle := fun m i _ _ => congrArg (fun d => Store.rd d i) (State.regData_congr _ _ _ _ _ _ ha rfl rfl (fun _ => by simp) rfl rfl rfl rfl rfl)
          scalar := fun _ _ => rfl
          predicate := fun _ _ _ => rfl, index := fun m i hi hm => ?_, latches := fun _ _ => rfl
          dst := fun d h i hi' hb => ?_
          latch := fun n h => by cases h }⟩
      · simp only [Group.xreg]
        apply Store.rd_wrs_other
        intro kv hkv
        obtain ⟨lv, hlv, rfl⟩ := List.mem_map.mp hkv
        obtain ⟨j, hj, rfl⟩ := List.mem_map.mp hlv
        have hj' := (lanesOf_mem _ _).mp hj
        simp only
        intro hc
        rcases hm with hm | hm
        · have := hm n rfl
          omega
        · have : j ≠ i := fun h => by rw [h, hm] at hj'; exact absurd hj'.2 (by simp)
          omega
      · cases h
        simp only [State.holds, takes, Group.xreg]
        have := Store.rd_wrs_mem (((lanesOf c.lanes).map (fun i => (i, f i))).map (fun lv => (n.toNat * 32 + lv.1, BitVec.ofNat 16 lv.2)))
          g.x (n.toNat * 32 + i, BitVec.ofNat 16 (f i)) (List.mem_map.mpr ⟨(i, f i), hmem i hi' hb, rfl⟩)
          (by
            rw [List.pairwise_map]
            exact List.Pairwise.imp (fun h => by simp only; omega) hpair)
        simp only at this
        rw [this, BitVec.toNat_ofNat]
    | vx a b =>
      -- the lanes one after another
      have fold : ∀ (ls : List Nat), ls.Nodup → ∀ (s : State) (g : Group), s.group c.k = some g → g.active = true → ∃ t g1,
          (ls.map (fun i => (i, f i))).foldl (fun s lv => s.putV c.k (c.g.indexed a b lv.1) u.dw false [lv]) s = t ∧
          t.group c.k = some g1 ∧ SameButLines g g1 ∧ Inside s t c.k ∧
          (∀ m, (∀ l ∈ ls, m < c.g.indexed a b l ∨ c.g.indexed a b l + u.dw ≤ m) → t.regData c.k g1 m = s.regData c.k g m) ∧
          (∀ m i, i ∉ ls → Store.rd (t.regData c.k g1 m) i = Store.rd (s.regData c.k g m) i) ∧
          (∀ i ∈ ls, i < 32 → ∀ j, j < u.dw →
            Store.rd (t.regData c.k g1 (c.g.indexed a b i + j)) i = BitVec.ofNat 32 (f i / 2 ^ (32 * j))) := by
        intro ls
        induction ls with
        | nil =>
          intro _ s g hg _
          exact ⟨s, g, rfl, hg, SameButLines.refl g, Inside.refl s c.k, fun _ _ => rfl, fun _ _ _ => rfl, by simp⟩
        | cons l ls ih =>
          intro hnd s g hg ha
          obtain ⟨hl', hnd'⟩ := List.nodup_cons.mp hnd
          obtain ⟨g1, h1, hs1, hi1, ho1, hn1, hv1⟩ := State.putV_spec s c.k (c.g.indexed a b l) u.dw false [(l, f l)] g hg ha (by simp)
          have ha1 : g1.active = true := by rw [hs1]; exact ha
          obtain ⟨t, g2, ht, h2, hs2, hi2, ho2, hn2, hv2⟩ := ih hnd' _ g1 h1 ha1
          refine ⟨t, g2, by simpa using ht, h2, hs1.trans hs2, hi1.trans hi2, ?_, ?_, ?_⟩
          · intro m hm
            rw [ho2 m (fun x hx => hm x (by simp [hx])), ho1 m (hm l (by simp))]
          · intro m i hi
            rw [hn2 m i (fun h => hi (by simp [h])), hn1 m i (by
              intro v hv
              simp only [List.mem_singleton] at hv
              subst hv
              exact fun h => hi (List.mem_cons.mpr (.inl h.symm))) rfl]
          · intro i hi h32 j hj
            rcases List.mem_cons.mp hi with rfl | hi
            · rw [hn2 _ i hl']
              exact hv1 (i, f i) (by simp) h32 j hj
            · exact hv2 i hi h32 j hj
      obtain ⟨t, g1, ht, h1, hs, hi, ho, hn, hv⟩ := fold (lanesOf c.lanes) (lanesOf_nodup _) s g hg ha
      simp only [ht]
      have hr := hs.regs
      refine ⟨g1,
        { group := h1, same := hr, inside := hi
          vector := fun m hm => ho m (fun l hl => by
            have : ¬ (c.g.indexed a b l ≤ m ∧ m < c.g.indexed a b l + u.dw) := fun h => hm ⟨l, hl, h⟩
            omega)
          idle := fun m i hb _ => hn m i (fun h => by
            have := ((lanesOf_mem _ _).mp h).2
            rw [hb] at this
            cases this)
          scalar := fun m _ => by rw [hs]; rfl
          predicate := fun m i _ => by rw [hs]; rfl
          index := fun m i _ _ => by rw [hs]; rfl
          latches := fun m _ => by rw [hs]
          dst := fun d h i hi' hb => ?_
          latch := fun n h => by cases h }⟩
      cases h
      simp only [State.holds, takes, State.vregs]
      exact wordsFrom_of _ _ _ _ (fun j hj => hv i ((lanesOf_mem _ _).mpr ⟨hi', hb⟩) hi' j hj)

/-- Writing a predicate in some lanes. -/
theorem State.putP_spec (s : State) (k n : Nat) (vals : List (Nat × Bool)) (g : Group) (hg : s.group k = some g) :
    ∃ p, (s.putP k n vals).group k = some { g with p := p } ∧ Inside s (s.putP k n vals) k ∧
      (∀ m i, m ≠ n ∨ (∀ v ∈ vals, v.1 ≠ i) → ({ g with p := p } : Group).pred m i = g.pred m i) := by
  unfold State.putP
  split
  · exact ⟨g.p, hg, Inside.refl s k, fun _ _ _ => rfl⟩
  · rename_i h7
    refine ⟨_, by rw [State.modGroup_group, hg]; rfl, Inside.modGroup s k _, ?_⟩
    intro m i hm
    simp only [Group.pred]
    split
    · rfl
    · by_cases hmn : m = n
      · subst hmn
        rw [Store.rd_wr_same, maskOf_getLsbD]
        rcases hm with hm | hm
        · exact absurd rfl hm
        · have hf : vals.find? (fun v => v.1 == i) = none := by
            rw [List.find?_eq_none]
            intro v hv
            simpa using hm v hv
          rw [hf]
          by_cases hi : i < 32
          · simp [hi]
          · simp [hi, BitVec.getLsbD_of_ge (Store.rd g.p m) i (by omega)]
      · rw [Store.rd_wr_other _ _ _ _ hmn]

/-- Writing scalars. -/
theorem State.putS_spec (s : State) (k n w v : Nat) (g : Group) (hg : s.group k = some g) :
    ∃ r, (s.putS k n w v).group k = some { g with s := r } ∧ Inside s (s.putS k n w v) k ∧
      (∀ m, m < n ∨ n + w ≤ m → Store.rd r m = g.sreg m) ∧ (∀ j, j < w → Store.rd r (n + j) = BitVec.ofNat 32 (v / 2 ^ (32 * j))) := by
  refine ⟨_, by rw [State.putS, State.modGroup_group, hg]; rfl, Inside.modGroup s k _, ?_, ?_⟩
  · intro m hm
    apply Store.rd_wrs_other
    intro kv hkv
    obtain ⟨j, hj, rfl⟩ := List.mem_map.mp hkv
    have := List.mem_range.mp hj
    simp only
    omega
  · intro j hj
    exact Store.rd_wrs_mem ((List.range w).map (fun i => (n + i, BitVec.ofNat 32 (v / 2 ^ (32 * i))))) g.s
      (n + j, BitVec.ofNat 32 (v / 2 ^ (32 * j))) (List.mem_map.mpr ⟨j, List.mem_range.mpr hj, rfl⟩)
      (by
        rw [List.pairwise_map]
        exact List.Pairwise.imp (fun h => by simpa using h) (List.nodup_range (n := w)))

/-- Freeing registers leaves every other register alone. -/
theorem State.frees_regData (s : State) (k : Nat) (ns : List Nat) (g : Group) (hg : s.group k = some g) (ha : g.active = true) :
    ∃ g', (s.frees k ns).group k = some g' ∧ SameButLines g g' ∧ Inside s (s.frees k ns) k ∧
      g'.entries = g.entries ∧ g'.wakes = g.wakes ∧
      ∀ m, m ∉ ns → (s.frees k ns).regData k g' m = s.regData k g m := by
  induction ns generalizing s g with
  | nil => exact ⟨g, hg, SameButLines.refl g, Inside.refl s k, rfl, rfl, fun _ _ => rfl⟩
  | cons n ns ih =>
    have h1 : (s.freeReg k n).group k = some (g.setDead n) := by
      rw [State.freeReg, State.modGroup_group, hg]; rfl
    have hi1 : Inside s (s.freeReg k n) k := Inside.modGroup s k _
    obtain ⟨g', h', hs', hi', he, hw, hr⟩ := ih (s.freeReg k n) (g.setDead n) h1 ha
    refine ⟨g', h', ?_, hi1.trans hi', he, hw, ?_⟩
    · exact SameButLines.trans (rfl : SameButLines g (g.setDead n)) hs'
    · intro m hm
      have hmn : m ≠ n := fun h => hm (by simp [h])
      have := hr m (fun h => hm (by simp [h]))
      rw [show (s.frees k (n :: ns)) = (s.freeReg k n).frees k ns from rfl, this]
      apply State.regData_congr _ _ _ _ _ _ ha hi1.mem hi1.launches (fun c => by simp [State.core, hi1.cores])
      · rfl
      · show (g.dead ||| (1#256 <<< n)).getLsbD m = _
        rw [BitVec.getLsbD_or]
        have : (1#256 <<< n).getLsbD m = false := by
          simp only [BitVec.getLsbD_shiftLeft, BitVec.getLsbD_one]
          by_cases hlt : m < n
          · simp [hlt]
          · have : ¬ m - n = 0 := by omega
            simp [this]
        rw [this, Bool.or_false]
      · exact SMap.find_del_other _ _ _ hmn
      · rfl
      · rfl

end Sys2Proof.Machine
end

