-- ==== Sys2Proof/Laws/Plain.lean ====
section
/-! SUPPORT. A word whose body writes registers and moves every lane on: that it retires, what it leaves alone, where its result
lands. -/

namespace Sys2Proof.Machine

open Sys2Proof

/-- The group of a site as its body finds it: what was kept for the entry is spent. -/
def Site.spent (x : Site) : Group :=
  { x.g with kept := x.g.kept.filter (fun y => y.lanes &&& x.e.mask == 0), issuing := some (x.e.frag, x.g.readyMask) }

/-- The state in which the body of a word runs. -/
def Site.start (x : Site) (s : State) : State := s.bump.spend x.k x.e

theorem Site.start_group {x : Site} {s : State} {o : Op} (h : Issues x s o) : (x.start s).group x.k = some x.spent := by
  have hg := h.facts.1
  rw [Site.start, State.spend, State.modGroup_group]
  simp [hg, Site.spent]

theorem Site.start_inside (x : Site) (s : State) : Inside s.bump (x.start s) x.k := Inside.modGroup _ _ _

theorem Site.start_eq (x : Site) (s : State) : x.start s = { s with nextId := s.nextId + 1, groups := (x.start s).groups } := by
  unfold Site.start State.spend State.modGroup
  split <;> rfl

@[simp] theorem Site.start_cores (x : Site) (s : State) : (x.start s).cores = s.cores := by rw [x.start_eq]
@[simp] theorem Site.start_mem (x : Site) (s : State) : (x.start s).mem = s.mem := by rw [x.start_eq]
@[simp] theorem Site.start_dies (x : Site) (s : State) : (x.start s).dies = s.dies := by rw [x.start_eq]
@[simp] theorem Site.start_launches (x : Site) (s : State) : (x.start s).launches = s.launches := by rw [x.start_eq]
@[simp] theorem Site.start_launch (x : Site) (s : State) (j : Nat) : (x.start s).launch j = s.launch j := by
  rw [State.launch, State.launch, x.start_launches]

theorem Site.start_group_ne (x : Site) (s : State) (j : Nat) (h : j ≠ x.k) : (x.start s).group j = s.group j := by
  rw [Site.start, State.spend, State.modGroup_group_ne _ _ _ _ h]
  simp

theorem Site.start_regData (x : Site) (s : State) (ha : x.g.active = true) (m : Nat) : (x.start s).regData x.k x.spent m = s.regData x.k x.g m := by
  apply State.regData_congr (ha := ha)
  · rw [x.start_eq]
  · rw [x.start_eq]
  · intro c
    simp only [State.core, x.start_cores]
  all_goals rfl

/-- What the body of a word did to its group, besides writing registers named by its use: nothing. -/
structure Plain (x : Site) (o : Op) (s s1 : State) (g1 : Group) : Prop where
  group : s1.group x.k = some g1
  step : g1.step = none
  active : g1.active = true
  inside : Inside (x.start s) s1 x.k
  vector : ∀ m, m ∉ o.use.vWritten x.g (lanesOf (x.pass o)) → s1.regData x.k g1 m = s.regData x.k x.g m
  idle : ∀ m i, x.g.live.getLsbD i = true → (x.pass o).getLsbD i = false →
    Store.rd (s1.regData x.k g1 m) i = Store.rd (s.regData x.k x.g m) i
  scalar : ∀ m, m ∉ o.use.sWritten → g1.sreg m = x.g.sreg m
  predicate : ∀ m i, (m ∉ o.use.pw ∧ ∀ d, o.use.dst = some (.p d) → d.toNat ≠ m) ∨ (x.pass o).getLsbD i = false →
    g1.pred m i = x.g.pred m i
  index : ∀ m i, i < 32 → (∀ d, o.use.dst = some (.x d) → d.toNat ≠ m) ∨ (x.pass o).getLsbD i = false → g1.xreg m i = x.g.xreg m i
  latches : ∀ m, (∀ d, o.use.latch = some d → d.toNat ≠ m) → SMap.find g1.latches m = SMap.find x.g.latches m

/-- How the state after a plain word stands to the state that its body left. -/
structure Ends (x : Site) (o : Op) (s1 t : State) (g1 g2 : Group) : Prop where
  group : t.group x.k = some g2
  same : g2 = { g1 with entries := g2.entries, wakes := g2.wakes, lines := g2.lines, dead := g2.dead, issuing := none }
  others : ∀ j, j ≠ x.k → t.group j = s1.group j
  mem : t.mem = s1.mem
  launches : t.launches = s1.launches
  dies : t.dies = s1.dies
  fns : t.fns = s1.fns
  vfs : t.vfs = s1.vfs
  leaves : t.leaves = s1.leaves
  dev : t.dev = s1.dev
  core : ∀ c, ∃ y, t.core c = { s1.core c with sects := y }
  vector : ∀ m, m ∉ o.use.lastUses x.g x.e (x.pass o) → t.regData x.k g2 m = s1.regData x.k g1 m

/-- A word whose body answers one place for all lanes: the state after it. -/
theorem Site.run_ends (x : Site) (s : State) (o : Op) (h : Issues x s o) (s1 : State) (p : Part) (g1 : Group)
    (hb : runBody (x.ctx s o) o.body (x.start s) = some (s1, [p]))
    (hg : s1.group x.k = some g1) (ha : g1.active = true) (hst : g1.step = none) (hl : s1.launch (launchOf x.k) = some x.l)
    (hp : p.trap = none ∧ p.wake = none ∧ p.gone = false ∧ p.st = .ready) (hm : p.mask ≠ 0) :
    ∃ t g2, o.run s = .next t ∧ Ends x o s1 t g1 g2 ∧ StandsAt t x.k p.mask p.pc p.prio := by
  obtain ⟨t, g3, hr, hg3, ht, hs⟩ := Site.run_one x s o h s1 p g1 hb hg hst hl hp hm
  obtain ⟨g4, hg4, hs4, hi4, -, -, hv4⟩ := State.frees_regData s1 x.k (o.use.lastUses x.g x.e (x.pass o)) g1 hg ha
  have h34 : g3 = g4 := by rw [hg3] at hg4; exact Option.some.inj hg4
  subst h34
  refine ⟨t, g3.place x.e o.use.skips [p] none, hr, ?_, hs⟩
  exact
    { group := ht.group
      same := by
        unfold SameButLines at hs4
        rw [Group.place_same]
        generalize g3.entries = a1, g3.wakes = a2, g3.lines = a3, g3.dead = a4 at hs4
        subst hs4
        rfl
      others := fun j hj => (ht.others j hj).trans (hi4.others j hj)
      mem := ht.mem.trans hi4.mem
      launches := ht.launches.trans hi4.launches
      dies := ht.dies.trans hi4.dies
      fns := ht.fns.trans hi4.fns
      vfs := ht.vfs.trans hi4.vfs
      leaves := ht.leaves.trans hi4.leaves
      dev := ht.dev.trans hi4.dev
      core := fun c => by
        obtain ⟨y, hy⟩ := ht.core c
        refine ⟨y, ?_⟩
        rw [hy]
        simp only [State.core, hi4.cores]
      vector := fun m hm' => by
        rw [← hv4 m hm']
        have ha3 : g3.active = true := by rw [hs4]; exact ha
        rw [Group.place_same]
        exact State.regData_congr _ _ _ _ _ _ ha3 ht.mem ht.launches
          (fun c => by obtain ⟨y, hy⟩ := ht.core c; rw [hy]) rfl rfl rfl rfl rfl }

/-- A plain word retires and keeps everything but its destinations and what its body did to the group's control registers. -/
theorem Site.run_plain (x : Site) (s : State) (o : Op) (h : Issues x s o) (s1 : State) (g1 : Group)
    (hb : runBody (x.ctx s o) o.body (x.start s) = some (s1, [(x.ctx s o).next])) (hp : Plain x o s s1 g1) :
    ∃ t g2, o.run s = .next t ∧ Ends x o s1 t g1 g2 ∧ x.retired t ∧ x.outside s t ∧ x.registers o s t := by
  have hsg := Site.start_group h
  have hl : s1.launch (launchOf x.k) = some x.l := by
    rw [hp.inside.launch, x.start_eq]
    exact h.facts.2.1
  obtain ⟨t, g2, hr, he, hs⟩ := Site.run_ends x s o h s1 (x.ctx s o).next g1 hb hp.group hp.active hp.step hl ⟨rfl, rfl, rfl, rfl⟩ h.lanes
  refine ⟨t, g2, hr, he, hs, ?_⟩
  have hmem : t.mem = s.mem := by rw [he.mem, hp.inside.mem, x.start_eq]
  have hcore : ∀ c, ∃ y, t.core c = { s.core c with sects := y } := fun c => by
    obtain ⟨y, hy⟩ := he.core c
    refine ⟨y, ?_⟩
    rw [hy]
    simp only [State.core, hp.inside.cores, x.start_cores]
  have hg := h.facts.1
  have hv : ∀ m i, t.vAt x.k m i = Store.rd (t.regData x.k g2 m) i := fun m i => by simp only [State.vAt, he.group]
  have hv' : ∀ m i, s.vAt x.k m i = Store.rd (s.regData x.k x.g m) i := fun m i => by simp only [State.vAt, hg]
  constructor
  · constructor
    · intro a; simp only [State.byteAt, hmem]
    · constructor
      · intro c; obtain ⟨y, hy⟩ := hcore c; rw [hy]
      · intro c; obtain ⟨y, hy⟩ := hcore c; rw [hy]
      · intro c; obtain ⟨y, hy⟩ := hcore c; rw [hy]
      · intro c; obtain ⟨y, hy⟩ := hcore c; rw [hy]
      · intro c; obtain ⟨y, hy⟩ := hcore c; rw [hy]
      · intro d; simp only [State.die, he.dies, hp.inside.dies, x.start_dies]
    · intro j hj; rw [he.others j hj, hp.inside.others j hj, x.start_group_ne s j hj]
    · refine ⟨?_, ?_, ?_, ?_, ?_, ?_⟩
      · rw [he.dev, hp.inside.dev, x.start_eq]
      · rw [he.dies, hp.inside.dies, x.start_eq]
      · rw [he.launches, hp.inside.launches, x.start_eq]
      · rw [he.vfs, hp.inside.vfs, x.start_eq]
      · rw [he.fns, hp.inside.fns, x.start_eq]
      · rw [he.leaves, hp.inside.leaves, x.start_eq]
  · constructor
    · intro n i hn hu
      rw [hv, hv', he.vector n hu, hp.vector n hn]
    · intro n i hi hb hu
      rw [hv, hv', he.vector n hu, hp.idle n i hi hb]
    · intro n hn
      have := hp.scalar n hn
      simp only [State.sAt, he.group, hg]
      rw [← this, he.same]
      rfl
    · intro n i hn
      have := hp.predicate n i hn
      simp only [State.pAt, he.group, hg]
      rw [← this, he.same]
      rfl
    · intro n i hi hn
      have := hp.index n i hi hn
      simp only [State.xAt, he.group, hg]
      rw [← this, he.same]
      rfl
    · intro n i hn
      have := hp.latches n hn
      simp only [State.lAt, he.group, hg]
      rw [← this, he.same]

/-- What a word leaves in the control registers is what its body left there. -/
theorem Ends.control {x : Site} {o : Op} {s1 t : State} {g1 g2 : Group} (he : Ends x o s1 t g1 g2) (qs : List Nat)
    (hf : g1.fmode = x.g.fmode) (hs : g1.status = x.g.status) (hx : g1.xlim = x.g.xlim) (hfr : g1.frame = x.g.frame)
    (hq : ∀ n, n ∉ qs → g1.reg n = x.g.reg n) : x.control t qs := by
  constructor
  · intro g hg
    rw [he.group] at hg
    cases hg
    rw [he.same]
    exact ⟨hf, hs, hx, hfr⟩
  · intro g hg n hn
    rw [he.group] at hg
    cases hg
    rw [← hq n hn, he.same]
    rfl

theorem SameButRegs.control {x : Site} {o : Op} {s1 t : State} {g1 g2 : Group} (hs : SameButRegs x.spent g1)
    (he : Ends x o s1 t g1 g2) : x.control t [] :=
  he.control [] (by rw [hs]; rfl) (by rw [hs]; rfl) (by rw [hs]; rfl) (by rw [hs]; rfl) (fun n _ => by rw [hs]; rfl)

/-! ## A result written by the body -/

theorem Group.replayView_fields (g : Group) (e : Entry) :
    (g.replayView e).entries = g.entries ∧ (g.replayView e).x = g.x ∧ (g.replayView e).p = g.p ∧ (g.replayView e).xlim = g.xlim ∧
      (g.replayView e).bud = g.bud ∧ (g.replayView e).latches = g.latches ∧ (g.replayView e).dead = g.dead ∧
      (g.replayView e).lines = g.lines ∧ (g.replayView e).fmode = g.fmode ∧ (g.replayView e).frame = g.frame ∧
      (g.replayView e).status = g.status ∧ (g.replayView e).core = g.core := by
  unfold Group.replayView
  split <;> exact ⟨rfl, rfl, rfl, rfl, rfl, rfl, rfl, rfl, rfl, rfl, rfl, rfl⟩

theorem Group.replayView_active (g : Group) (e : Entry) : (g.replayView e).active = g.active := by
  unfold Group.replayView
  split <;> rfl

theorem Group.replayView_indexed (g : Group) (e : Entry) (i : BitVec 2) (k : BitVec 6) (l : Nat) :
    (g.replayView e).indexed i k l = g.indexed i k l := by
  simp only [Group.indexed, Group.xreg, (g.replayView_fields e).2.1]

theorem Group.replayView_indexOk (g : Group) (e : Entry) (w j : Nat) : (g.replayView e).indexOk w j = g.indexOk w j := by
  obtain ⟨-, -, -, h1, h2, -⟩ := g.replayView_fields e
  simp only [Group.indexOk, h1, h2]

theorem Group.indexedV_mem (g : Group) (i : BitVec 2) (k : BitVec 6) (w : Nat) (ls : List Nat) (l : Nat) (hl : l ∈ ls)
    (hok : g.indexOk w (g.indexed i k l) = true) (m : Nat) (hm : g.indexed i k l ≤ m ∧ m < g.indexed i k l + w) :
    m ∈ g.indexedV i k w ls := by
  have aligned : ∀ j, g.indexOk w j = true → j % w = 0 := by
    intro j hj
    simp only [Group.indexOk, Bool.and_eq_true, beq_iff_eq] at hj
    exact hj.2
  -- every register of an in-bounds operand, once its first register is there
  let step := fun (rs : List Nat) (l : Nat) =>
    let j := g.indexed i k l
    if rs.contains j then rs else rs ++ (List.range w).map (· + j)
  have inv : ∀ (ls : List Nat), (∀ l ∈ ls, g.indexOk w (g.indexed i k l) = true) → ∀ rs : List Nat,
      (∀ j ∈ rs, j % w = 0 → ∀ d, d < w → j + d ∈ rs) →
      let r := ls.foldl step rs
      (∀ j ∈ rs, j ∈ r) ∧ (∀ j ∈ r, j % w = 0 → ∀ d, d < w → j + d ∈ r) ∧
        ∀ l ∈ ls, ∀ d, d < w → g.indexed i k l + d ∈ r := by
    intro ls
    induction ls with
    | nil => intro _ rs h; exact ⟨fun _ h => h, h, by simp⟩
    | cons a ls ih =>
      intro hok rs h
      have ha := hok a (by simp)
      have hstep : (∀ j ∈ rs, j ∈ step rs a) ∧ (∀ j ∈ step rs a, j % w = 0 → ∀ d, d < w → j + d ∈ step rs a) ∧
          ∀ d, d < w → g.indexed i k a + d ∈ step rs a := by
        simp only [step]
        split
        · rename_i hc
          have hc : g.indexed i k a ∈ rs := by simpa using hc
          exact ⟨fun _ h => h, h, fun d hd => h _ hc (aligned _ ha) d hd⟩
        · refine ⟨fun j hj => List.mem_append.mpr (.inl hj), ?_, ?_⟩
          · intro j hj hw d hd
            rcases List.mem_append.mp hj with hj | hj
            · exact List.mem_append.mpr (.inl (h j hj hw d hd))
            · obtain ⟨c, hc, rfl⟩ := List.mem_map.mp hj
              have hcw := List.mem_range.mp hc
              have hc0 : c = 0 := by
                have h1 := aligned _ ha
                have h2 : (c + g.indexed i k a) % w = c := by
                  rw [Nat.add_mod, h1, Nat.add_zero, Nat.mod_mod, Nat.mod_eq_of_lt hcw]
                rw [h2] at hw
                exact hw
              subst hc0
              refine List.mem_append.mpr (.inr (List.mem_map.mpr ⟨d, List.mem_range.mpr hd, ?_⟩))
              omega
          · intro d hd
            refine List.mem_append.mpr (.inr (List.mem_map.mpr ⟨d, List.mem_range.mpr hd, ?_⟩))
            omega
      obtain ⟨h1, h2, h3⟩ := ih (fun l hl => hok l (by simp [hl])) (step rs a) hstep.2.1
      refine ⟨fun j hj => h1 j (hstep.1 j hj), h2, ?_⟩
      intro l hl d hd
      rcases List.mem_cons.mp hl with rfl | hl
      · exact h1 _ (hstep.2.2 d hd)
      · exact h3 l hl d hd
  unfold Group.indexedV
  obtain ⟨-, -, h3⟩ := inv (ls.filter (fun l => g.indexOk w (g.indexed i k l))) (fun l hl => (List.mem_filter.mp hl).2) [] (by simp)
  have := h3 l (List.mem_filter.mpr ⟨hl, hok⟩) (m - g.indexed i k l) (by omega)
  rw [show g.indexed i k l + (m - g.indexed i k l) = m by omega] at this
  exact this

theorem foldr_congr {α β : Type} (l : List α) (f g : α → β → β) (b : β) (h : ∀ a ∈ l, ∀ r, f a r = g a r) :
    l.foldr f b = l.foldr g b := by
  induction l with
  | nil => rfl
  | cons a l ih =>
    simp only [List.foldr_cons]
    rw [ih (fun a ha => h a (by simp [ha])), h a (by simp)]

theorem orElse_none {α : Type} {a : Option α} {b : Unit → Option α} (h : a.orElse b = none) : b () = none := by
  cases a with
  | none => exact h
  | some v => cases h

/-- The registers that a word's result reaches are those that its use names. -/
theorem Issues.reaches {x : Site} {s : State} {o : Op} (h : Issues x s o) (m : Nat) (hm : (x.ctx s o).reaches o.use m) :
    m ∈ o.use.vWritten x.g (lanesOf (x.pass o)) := by
  unfold Use.vWritten
  unfold Ctx.reaches at hm
  cases hd : o.use.dst with
  | none => rw [hd] at hm; exact absurd hm id
  | some d =>
    rw [hd] at hm
    cases d with
    | v n =>
      simp only at hm
      refine List.mem_append.mpr (.inr ?_)
      simp only [directDst]
      exact List.mem_map.mpr ⟨m - n.toNat, List.mem_range.mpr (by omega), by omega⟩
    | vx a b =>
      simp only at hm
      obtain ⟨l, hl, hlm⟩ := hm
      refine List.mem_append.mpr (.inr ?_)
      have hlane := State.operandStage_lane s o.use (x.ctx s o) x.l.desc.deadtrap h.operands l hl
      have hg : (x.ctx s o).g = x.g.replayView x.e := rfl
      rw [hg, Group.replayView_indexed] at hlm
      refine Group.indexedV_mem x.g a b o.use.dw _ l hl ?_ m hlm
      unfold Use.laneTrap at hlane
      rw [hg] at hlane
      split at hlane
      · cases hlane
      · simp only at hlane
        split at hlane
        · cases hlane
        · split at hlane
          · cases hlane
          · rename_i hn
            rw [hd] at hn
            have this := orElse_none hn
            simp only at this
            split at this
            · rename_i hk
              rw [Group.replayView_indexed, Group.replayView_indexOk] at hk
              exact hk
            · cases this
    | s n => exact absurd hm id
    | p n => exact absurd hm id
    | x n => exact absurd hm id

theorem Site.ctx_live (x : Site) (s : State) (o : Op) : (x.ctx s o).g.live = x.g.live := by
  simp only [Site.ctx, Group.live, (x.g.replayView_fields x.e).1]

/-- A result written by the body is plain. -/
theorem Wrote.plain {x : Site} {s s1 : State} {o : Op} {g1 : Group} {f : Nat → Nat} (h : Issues x s o)
    (hw : Wrote (x.ctx s o) o.use (x.start s) s1 x.spent g1 f) : Plain x o s s1 g1 :=
  { group := hw.group, step := (by rw [hw.same]; exact h.free), active := (by rw [hw.same]; exact h.facts.2.2.1), inside := hw.inside
    vector := fun m hm => by
      have := hw.vector m (fun hr => hm (h.reaches m hr))
      exact this.trans (x.start_regData s h.facts.2.2.1 m)
    idle := fun m i hi hb => by
      have hf : (x.ctx s o).full o.use = false := by
        cases hc : (x.ctx s o).full o.use
        · rfl
        · exfalso
          simp only [Ctx.full, Bool.and_eq_true, beq_iff_eq] at hc
          have h1 : x.e.mask = x.g.live := by rw [← x.ctx_live s o]; exact hc.1.2
          have h2 : x.pass o = x.e.mask := hc.2
          rw [h2, h1, hi] at hb
          cases hb
      have := hw.idle m i hb hf
      exact this.trans (congrArg (fun d => Store.rd d i) (x.start_regData s h.facts.2.2.1 m))
    scalar := fun m hm => hw.scalar m (fun n hn => by
      have : ¬ (n.toNat ≤ m ∧ m < n.toNat + o.use.dw) := fun hc => hm (by
        unfold Use.sWritten
        rw [hn]
        refine List.mem_append.mpr (.inr (List.mem_map.mpr ⟨m - n.toNat, List.mem_range.mpr (by omega), by omega⟩)))
      omega)
    predicate := fun m i hm => hw.predicate m i (hm.imp (fun hc => hc.2) id)
    index := fun m i hi hm => hw.index m i hi hm
    latches := fun m hm => hw.latches m hm }

/-- A result that the body wrote is there at the end. -/
theorem Ends.lands {x : Site} {s s1 t : State} {o : Op} {g1 g2 : Group} {f : Nat → Nat} (h : Issues x s o)
    (hw : Wrote (x.ctx s o) o.use (x.start s) s1 x.spent g1 f) (he : Ends x o s1 t g1 g2) : x.lands o t f := by
  have hkeep : ∀ m, (x.ctx s o).reaches o.use m → t.regData x.k g2 m = s1.regData x.k g1 m := by
    intro m hm
    apply he.vector
    intro hu
    have hwr := h.reaches m hm
    unfold Use.lastUses at hu
    split at hu
    · cases hu
    · have := (List.mem_filter.mp hu).2
      simp only [Bool.not_eq_true', List.contains_eq_mem, decide_eq_false_iff_not] at this
      exact this hwr
  constructor
  · intro d hd i hi hb
    have hv := hw.dst d hd i hi hb
    refine Eq.trans ?_ hv
    unfold State.landed
    rw [he.group]
    have hk : (x.ctx s o).k = x.k := rfl
    cases d with
    | v n =>
      simp only [State.holds, State.vregs, hk]
      unfold wordsFrom
      apply foldr_congr
      intro j hj a
      simp only
      rw [hkeep (n.toNat + j) (by
        unfold Ctx.reaches; rw [hd]
        have := List.mem_range.mp hj
        exact ⟨by omega, by omega⟩)]
    | vx p q =>
      simp only [State.holds, State.vregs, hk]
      have hg : (x.ctx s o).g = x.g.replayView x.e := rfl
      rw [hg, Group.replayView_indexed]
      unfold wordsFrom
      apply foldr_congr
      intro j hj a
      simp only
      rw [hkeep (x.g.indexed p q i + j) (by
        unfold Ctx.reaches; rw [hd]
        have := List.mem_range.mp hj
        refine ⟨i, (lanesOf_mem _ _).mpr ⟨hi, hb⟩, ?_, ?_⟩
        · rw [hg, Group.replayView_indexed]; omega
        · rw [hg, Group.replayView_indexed]; omega)]
    | s n => simp only [State.holds]; rw [he.same]; rfl
    | p n => simp only [State.holds]; rw [he.same]; rfl
    | x n => simp only [State.holds]; rw [he.same]; rfl
  · intro n hn i hi hb
    have hv := hw.latch n hn i hi hb
    refine Eq.trans ?_ hv
    simp only [State.lAt, he.group]
    rw [he.same]

/-- With no lane acting nothing happens but that the lanes move on (R326). -/
theorem Site.plain_idle {x : Site} {s : State} {o : Op} (h : Issues x s o) (hp : x.pass o = 0) :
    runBody (x.ctx s o) o.body (x.start s) = some (x.start s, [(x.ctx s o).next]) ∧ Plain x o s (x.start s) x.spent := by
  have h0 : (x.ctx s o).lanes = 0 := hp
  have h1 : (x.ctx s o).stay ≠ 0 := h.lanes
  refine ⟨?_, ?_⟩
  · unfold runBody
    have h2 : ¬ (x.ctx s o).stay = 0#32 := h1
    simp [h0, h2]
  · exact
      { group := Site.start_group h, step := h.free, active := h.facts.2.2.1, inside := Inside.refl _ _
        vector := fun m _ => x.start_regData s h.facts.2.2.1 m
        idle := fun m i _ _ => congrArg (fun d => Store.rd d i) (x.start_regData s h.facts.2.2.1 m), scalar := fun _ _ => rfl
        predicate := fun _ _ _ => rfl, index := fun _ _ _ _ => rfl, latches := fun _ _ => rfl }

/-- A word whose body writes one result: it retires, its result lands, and it keeps everything else. -/
theorem Site.run_write (x : Site) (s : State) (o : Op) (f : Nat → Nat) (h : Issues x s o)
    (hb : x.pass o ≠ 0 → o.body (x.ctx s o) (x.start s) =
      (x.ctx s o).done ((x.ctx s o).write o.use (x.start s) f)) :
    ∃ t, o.run s = .next t ∧ x.retired t ∧ x.lands o t f ∧ x.keeps o s t := by
  by_cases hp : x.pass o = 0
  · obtain ⟨h1, h2⟩ := Site.plain_idle h hp
    obtain ⟨t, g2, hr, he, hs, hk1, hk2⟩ := Site.run_plain x s o h _ _ h1 h2
    refine ⟨t, hr, hs, ⟨?_, ?_⟩, hk1, hk2, SameButRegs.control (SameButRegs.refl x.spent) he⟩
    · intro d _ i _ hi; rw [hp] at hi; simp at hi
    · intro n _ i _ hi; rw [hp] at hi; simp at hi
  · have hg := Site.start_group h
    have ha : x.spent.active = true := h.facts.2.2.1
    obtain ⟨g1, hw⟩ := Ctx.write_spec (x.ctx s o) o.use (x.start s) f x.spent hg ha hp
    have hb' : runBody (x.ctx s o) o.body (x.start s) =
        some ((x.ctx s o).write o.use (x.start s) f, [(x.ctx s o).next]) := by
      have hl : ((x.ctx s o).lanes == 0) = false := by
        have : ¬ (x.ctx s o).lanes = 0#32 := hp
        simpa using this
      unfold runBody
      rw [hl, hb hp]
      rfl
    obtain ⟨t, g2, hr, he, hs, hk1, hk2⟩ := Site.run_plain x s o h _ _ hb' (hw.plain h)
    exact ⟨t, hr, hs, he.lands h hw, hk1, hk2, SameButRegs.control hw.same he⟩

/-- The value of a source is the same in the state in which the body runs. -/
theorem Site.val_start (x : Site) (s : State) (o : Op) (ha : x.g.active = true) (a : SrcUse) (i : Nat) :
    (x.ctx s o).val (x.start s) a i = x.val s o a i := by
  have hreg : ∀ m, (x.start s).regData (x.ctx s o).k (x.ctx s o).g m = s.regData (x.ctx s o).k (x.ctx s o).g m := fun m =>
    State.regData_congr _ _ _ _ _ _ (by rw [Site.ctx]; exact (x.g.replayView_active x.e).trans ha) (x.start_mem s) (x.start_launches s)
      (fun c => by simp only [State.core, x.start_cores]) rfl rfl rfl rfl rfl
  unfold Site.val Ctx.val State.srcVal State.vregs
  simp only [hreg]

end Sys2Proof.Machine
end

