-- ==== Sys2Proof/Tests/Slice0.lean ====
section
/-! SUPPORT. Tests of the model's own work: words written out from the encoding tables, terms that are not well formed, single
steps on small states, and for the statements of Certificates/Slice0 states and operands that meet their hypotheses. -/

namespace Sys2Proof.Tests

open Sys2Proof Sys2Proof.Machine

set_option maxRecDepth 20000
set_option exponentiation.threshold 4096

/-! ## Words written out from the encoding tables (R324 to R337 and the entries of chapters 16 to 19) -/

/-- An unguarded word by its fields: OPC (with LIT as 0x400), DST (with WBS as 0x400), SRC0, SRC1, SRC2 (or the literal, which
begins at the same bit), AUX, LU, QS, MOD, LD with LDE (R324). -/
def word (opc dst s0 s1 s2 aux lu qs md ld : Nat) : BitVec 96 :=
  BitVec.ofNat 96 (opc + 7 * 2 ^ 11 + dst * 2 ^ 15 + s0 * 2 ^ 26 + s1 * 2 ^ 36 + s2 * 2 ^ 46 + aux * 2 ^ 56 + lu * 2 ^ 78 + qs * 2 ^ 81 +
    md * 2 ^ 85 + ld * 2 ^ 91)

/-- The word decodes to the instruction, and the instruction encodes to the word. -/
def reads (p : BitVec 96 × Instr) : Bool :=
  (match decodeSlot p.1 with | .ok i => decide (i = p.2) | .error _ => false) && decide (p.2.encode = some p.1)

def G : Guard := { gp := 7, gn := false }
def A (d : Dst) (lu : BitVec 3 := 0) : Alu := { g := G, lu := lu, out := { dst := some d, latch := none } }
def C (lu : BitVec 3 := 0) : Ctl := { g := G, lu := lu }
def M (q : BitVec 4) (off : Src) (imm : BitVec 22) : MemOp := { q := q, off := off, imm := imm }

theorem test_decode_integer : [
    (0#96, Instr.nop),
    (word 0x001 0x001 0x002 0x103 0 0 0 0 4 0, .iadd (A (.v 1)) .s32 (.v 2) (.s 3)),
    (word 0x001 0x004 0x000 0x002 0x180 0 0 0 0x15 0, .iaddCc (A (.v 4)) 0 (.v 0) (.v 2) (.c .zero)),
    (word 0x001 0x005 0x001 0x003 0x211 2 0 0 0x15 0, .iaddCc (A (.v 5)) 2 (.v 1) (.v 3) (.p 1)),
    (word 0x402 0x101 0x102 0 0xFFFFFFFF 0 0 0 5 0, .isub (A (.s 1)) .z32 (.s 2) (.lit 0xFFFFFFFF)),
    (word 0x003 0x001 0x002 0x003 0x004 0 7 0 5 0, .imad (A (.v 1) 7) .z32 (.v 2) (.v 3) (.v 4)),
    (word 0x003 0x002 0x002 0x003 0x004 0 0 0 0x14 0, .imadWide (A (.v 2)) .s32 (.v 2) (.v 3) (.v 4)),
    (word 0x004 0x301 0x002 0x3C5 0 0 0 0 0x15 0, .imul (A (.vx 0 1)) .z32 true (.v 2) (.vx 3 5)),
    (word 0x005 0x222 0x002 0x003 0 0 0 0 0x14 0, .imnmx (A (.x 2)) .s32 true (.v 2) (.v 3)),
    (word 0x006 0x213 0x002 0x184 0 0 0 0 0x0C 0, .isetp (C) 3 .z32 .lt (.v 2) (.c .two)),
    (word 0x007 0x001 0x002 0x003 0x004 0 0 0 2 0, .idp4 (A (.v 1)) false true (.v 2) (.v 3) (.v 4)),
    (word 0x008 0x215 0x002 0x003 0x182 0xE8 0 0 6 0, .lop3 (A (.p 5)) 0xE8 (.v 2) (.v 3) (.c .negOne)),
    (word 0x009 0x001 0x202 0x003 0 0 0 0 6 0, .shl (A (.v 1)) (.l 2) (.v 3)),
    (word 0x00A 0x001 0x216 0x221 0 0 0 0 4 0, .shr (A (.v 1)) .s32 (.p 6) (.x 1)),
    (word 0x00B 0x001 0x002 0x003 0x004 0 0 0 5 0, .bfe (A (.v 1)) .z32 (.v 2) (.v 3) (.v 4)),
    (word 0x40C 0x001 0x002 0x003 0x0804 0 0 0 6 0, .bfi (A (.v 1)) (.v 2) (.v 3) (.lit 0x0804)),
    (word 0x00D 0x400 0x002 0 0 0 1 0 6 5, .brev { g := G, lu := 1, out := { dst := none, latch := some 1 } } (.v 2)),
    (word 0x00E 0x001 0x002 0 0 0 0 0 6 7, .clz { g := G, lu := 0, out := { dst := some (.v 1), latch := some 3 } } (.v 2)),
    (word 0x00F 0x400 0x002 0 0 0 0 0 6 0, .popc { g := G, lu := 0, out := { dst := none, latch := none } } (.v 2)),
    (word 0x010 0x002 0x004 0x003 0x181 0 0 0 0x17 0, .lea (A (.v 2)) .z64 (.v 4) (.v 3) (.c .one)),
    (word 0x011 0x001 0x002 0x003 0x004 0 0 0 6 0, .prmt (A (.v 1)) (.v 2) (.v 3) (.v 4)),
    (word 0x012 0x002 0x214 0x004 0x006 0 0 0 0x17 0, .sel (A (.v 2)) true true 4 (.v 4) (.v 6)),
    (word 0x013 0x004 0x108 0 0 0 0 0 8 0, .mov (A (.v 4)) .b128 (.s 8))].all reads = true := by decide

theorem test_decode_float : [
    (word 0x040 0x001 0x002 0x183 0 0 0 0 11 0, Instr.fadd (A (.v 1)) .f32 none (.v 2) (.c .half)),
    (word 0x041 0x002 0x004 0x106 0 1 0 0 0x2C 0, .fsub (A (.v 2)) .f64 (some .ru) (.v 4) (.s 6)),
    (word 0x442 0x001 0x002 0 0x40490FDB 0 0 0 11 0, .fmul (A (.v 1)) .f32 none (.v 2) (.lit 0x40490FDB)),
    (word 0x043 0x006 0x003 0x004 0x005 1 0 0 0x1B 0, .ffma (A (.v 6)) .f32 (some .rz) (.v 3) (.v 4) (.v 5)),
    (word 0x044 0x001 0x002 0x003 0 0 0 0 0x1B 0, .fmnmx (A (.v 1)) .f32 true (.v 2) (.v 3)),
    (word 0x045 0x211 0x002 0x004 0 0 0 0 0x0D 0, .fsetp (C) 1 .f64 .gt (.v 2) (.v 4)),
    (word 0x446 0x212 0x002 0 0x300 0 0 0 11 0, .fclass (A (.p 2)) .f32 (.v 2) (.lit 0x300)),
    (word 0x047 0x001 0x002 0x003 0x004 0 0 0 10 0, .fdot2 (A (.v 1)) .bf16 (.v 2) (.v 3) (.v 4)),
    (word 0x048 0x001 0x002 0 0 0 0 0 11 0, .sfnRcp (A (.v 1)) (.v 2)),
    (word 0x049 0x001 0x002 0 0 0 0 0 11 0, .sfnRsq (A (.v 1)) (.v 2)),
    (word 0x04A 0x001 0x002 0 0 0 0 0 11 0, .sfnSqrt (A (.v 1)) (.v 2)),
    (word 0x04B 0x001 0x002 0 0 0 0 0 11 0, .sfnExp2 (A (.v 1)) (.v 2)),
    (word 0x04C 0x001 0x002 0 0 0 0 0 11 0, .sfnLog2 (A (.v 1)) (.v 2)),
    (word 0x04D 0x001 0x002 0 0 0 0 0 11 0, .sfnSin (A (.v 1)) (.v 2)),
    (word 0x04E 0x001 0x002 0 0 0 0 0 11 0, .sfnCos (A (.v 1)) (.v 2)),
    (word 0x04F 0x001 0x002 0 0 0 0 0 11 0, .sfnTanh (A (.v 1)) (.v 2)),
    (word 0x050 0x001 0x002 0x003 0 0 0 0 9 0, .hadd2 (A (.v 1)) .f16 (.v 2) (.v 3)),
    (word 0x051 0x001 0x002 0x003 0 0 0 0 10 0, .hmul2 (A (.v 1)) .bf16 (.v 2) (.v 3)),
    (word 0x052 0x001 0x002 0x003 0x004 0 0 0 9 0, .hfma2 (A (.v 1)) .f16 (.v 2) (.v 3) (.v 4)),
    (word 0x080 0x001 0x000 0 0 (10 + 16 * 11) 0 0 0 0, .cvt (A (.v 1)) .bf16 .f32 none (.v 0)),
    (word 0x080 0x002 0x001 0 0 (12 + 16 * 4 + 256 * 3 + 1024) 0 0 0 0, .cvt (A (.v 2)) .f64 .s32 (some .rd) (.v 1)),
    (word 0x481 0x001 0x002 0 15 0 0 0 10 0, .cbenc (A (.v 1)) true (.v 2) (.lit 15)),
    (word 0x082 0x004 0x002 0x101 0 0 0 0 10 0, .cbdec (A (.v 4)) (.v 2) (.s 1))].all reads = true := by decide

theorem test_decode_group : [
    (word 0x0C0 0x001 0x002 0x003 0 (2 + 8 * 5 + 64) 0 0 0x16 0, Instr.shflIdx (A (.v 1)) true 2 (some 5) (.v 2) (.v 3)),
    (word 0x0C1 0x001 0x002 0x181 0 0 0 0 0x16 0, .shflUp (A (.v 1)) true 0 none (.v 2) (.c .one)),
    (word 0x4C2 0x001 0x002 0 4 0 0 0 6 0, .shflDown (A (.v 1)) false 0 none (.v 2) (.lit 4)),
    (word 0x0C3 0x001 0x002 0x103 0 1 0 0 6 0, .shflXor (A (.v 1)) false 1 none (.v 2) (.s 3)),
    (word 0x0C4 0x211 0x212 0 0 0 0 0 1 0, .voteAll (C) 1 true 2),
    (word 0x0C5 0x211 0x212 0 0 0 0 0 0 0, .voteAny (C) 1 false 2),
    (word 0x0C6 0x211 0x212 0 0 0 0 0 0 0, .voteUni (C) 1 false 2),
    (word 0x0C7 0x101 0x212 0 0 0 0 0 1 0, .ballot (A (.s 1)) true 2),
    (word 0x0C8 0x009 0x003 0 0 0 0 0 6 0, .matchAny (A (.v 9)) false (.v 3)),
    (word 0x0C9 0x009 0x004 0 0 3 0 0 7 0, .matchAll (A (.v 9)) true 3 (.v 4)),
    (word 0x0CA 0x104 0x000 0 0 0 0 0 11 0, .gred (A (.s 4)) .addF (.v 0)),
    (word 0x0CB 0x211 0 0 0 0 0 0 0 0, .elect G (.p 1))].all reads = true := by decide

theorem test_decode_control : [
    (word 0x100 0 0 0 128 (2 ^ 22 - 8 + 2) 0 0 0 0, Instr.bra G 0x3FFFFA 128),
    (word 0x101 0 0x002 0 7 0 1 0 0 0, .brx (C 1) (.v 2) 7),
    (word 0x102 0x102 0 0 96 8 0 0 0 0, .call G (.s 2) 8 96),
    (word 0x103 0 0x102 0 0 0 0 0 0 0, .ret G (.s 2)),
    (word 0x104 0 0 0 0 0 0 0 0 0, .exit G),
    (0x00003905, .conv),
    (word 0x106 0 0 0 0 0 0 0 0 0, .yield G),
    (word 0x107 0 0 0 0 0 0 0 0 0, .bkpt G),
    (word 0x508 0 0 0 17 0 0 0 0 0, .trap G (.lit 17)),
    (0x00003909, .tret),
    (0x002000000000000000003909, .tretSkip)].all reads = true := by decide

theorem test_decode_memory : [
    (word 0x140 0x002 0x005 0 0 16 1 8 7 0, Instr.ld (C 1) .b64 (some (.v 2)) (M 8 (.v 5) 16)),
    (word 0x140 0x400 0x180 0 0 (2 ^ 22 - 4) 0 8 0 0, .ld (C) .s8 none (M 8 (.c .zero) 0x3FFFFC)),
    (word 0x140 0x002 0x105 0 0 0xC00 0 0 0x16 0, .ldSupv (C) .b32 (some (.v 2)) (.s 5) 0xC00),
    (word 0x141 0 0x005 0x006 0 4 3 15 1 0, .st (C 3) .z8 (M 15 (.v 5) 4) (.v 6)),
    (word 0x541 0 0x005 0 77 0 0 15 7 0, .st (C) .b64 (M 15 (.v 5) 0) (.lit 77)),
    (word 0x141 0 0x180 0x006 0 0x998 0 0 0x17 0, .stSupv (C) .b64 (.c .zero) 0x998 (.v 6)),
    (word 0x542 0x010 0x180 0x103 0x25 0 0 15 13 0, .ldf G .c4 16 (M 15 (.c .zero) 0) 3 (.lit 0x25)),
    (word 0x143 0x010 0x102 0x103 0x104 64 0 15 10 0, .stf G .bf16 16 (M 15 (.s 2) 64) 3 (.s 4)),
    (word 0x144 0 0x005 0 0 4 1 2 0 0, .prefL1 (C 1) (M 2 (.v 5) 4)),
    (word 0x144 0 0x005 0 0 4 1 2 1 0, .prefL2 (C 1) (M 2 (.v 5) 4)),
    (word 0x548 0 0x180 0 3 0 0 15 0 0, .cbld (C) (M 15 (.c .zero) 0) (.lit 3)),
    (word 0x150 0x001 0x002 0x003 0 8 0 4 (1 + 4 * 4) 0, .atomAdd (C) .acq .device false (some (.v 1)) (M 4 (.v 2) 8) (.v 3)),
    (word 0x151 0x001 0x002 0x003 0 8 0 4 (3 + 4 * 6) 0, .atomMin (C) .acqrel .system false (some (.v 1)) (M 4 (.v 2) 8) (.v 3)),
    (word 0x152 0x001 0x002 0x003 0 8 0 4 (4 * 5 + 32) 0, .atomMax (C) .relaxed .tenant true (some (.v 1)) (M 4 (.v 2) 8) (.v 3)),
    (word 0x153 0x400 0x002 0x004 0 8 0 4 (2 + 32) 0, .atomAnd (C) .rel .group true none (M 4 (.v 2) 8) (.v 4)),
    (word 0x154 0x002 0x002 0x004 0 8 0 4 (4 + 32) 0, .atomOr (C) .relaxed .team true (some (.v 2)) (M 4 (.v 2) 8) (.v 4)),
    (word 0x155 0x001 0x002 0x004 0 8 0 4 8 0, .atomXor (C) .relaxed .cluster false (some (.v 1)) (M 4 (.v 2) 8) (.v 4)),
    (word 0x556 0x001 0x002 0 9 0 0 4 12 0, .atomExch (C) .relaxed .die false (some (.v 1)) (M 4 (.v 2) 0) (.lit 9)),
    (word 0x157 0x001 0x002 0x183 0 8 0 4 16 0, .atomAddf (C) .relaxed .device (some (.v 1)) (M 4 (.v 2) 8) (.c .half)),
    (word 0x158 0 0x002 0x004 0 8 0 4 (2 + 16 + 32) 0, .redAdd (C) .rel .device true (M 4 (.v 2) 8) (.v 4)),
    (word 0x159 0 0x002 0x004 0 8 0 4 16 0, .redMin (C) .relaxed .device false (M 4 (.v 2) 8) (.v 4)),
    (word 0x15A 0 0x002 0x004 0 8 0 4 (16 + 32) 0, .redMax (C) .relaxed .device true (M 4 (.v 2) 8) (.v 4)),
    (word 0x15B 0 0x002 0x004 0 8 0 4 16 0, .redAnd (C) .relaxed .device false (M 4 (.v 2) 8) (.v 4)),
    (word 0x15C 0 0x002 0x004 0 8 0 4 16 0, .redOr (C) .relaxed .device false (M 4 (.v 2) 8) (.v 4)),
    (word 0x15D 0 0x002 0x004 0 8 0 4 16 0, .redXor (C) .relaxed .device false (M 4 (.v 2) 8) (.v 4)),
    (word 0x15F 0 0x002 0x004 0 8 0 4 16 0, .redAddf (C) .relaxed .device (M 4 (.v 2) 8) (.v 4)),
    (word 0x160 0x001 0x002 0x003 0x004 8 7 4 16 0, .cas (C 7) .relaxed .device false (some (.v 1)) (M 4 (.v 2) 8) (.v 3) (.v 4))].all
    reads = true := by decide

theorem test_decode_borrow : [
    (word 0x580 0x101 0x102 0 256 0 0 4 0 0, Instr.borX (C) 1 4 2 (.lit 256)),
    (word 0x181 0x101 0x102 0x103 0 0 0 4 0 0, .borS (C) 1 4 2 (.s 3)),
    (word 0x182 0x101 0x102 0x103 0 0 0 4 0 0, .borA (C) 1 4 2 (.s 3)),
    (word 0x183 0x101 0x102 0x103 0 0 0 4 0 0, .borO (C) 1 4 2 (.s 3)),
    (word 0x184 0x101 0x102 0x103 0 0 0 4 0 0, .borXTry (C) 1 4 2 (.s 3)),
    (word 0x185 0x101 0x102 0x103 0 0 0 4 0 0, .borSTry (C) 1 4 2 (.s 3)),
    (word 0x186 0x101 0x102 0x103 0 0 0 4 0 0, .borATry (C) 1 4 2 (.s 3)),
    (word 0x187 0x101 0x102 0x103 0 0 0 4 0 0, .borOTry (C) 1 4 2 (.s 3)),
    (word 0x188 0 0x102 0x103 0 0 0 4 5 0, .rebor (C) 4 5 (.s 2) (.s 3)),
    (word 0x189 0 0x102 0x103 0 0 0 4 5 0, .reborS (C) 4 5 (.s 2) (.s 3)),
    (word 0x18A 0 0x102 0x103 0x104 0 0 4 5 0, .split G 4 5 (.s 2) (.s 3) (.s 4)),
    (word 0x18B 0 0 0 0 0 0 4 0 0, .join G 4),
    (word 0x18C 0 0 0 0 0 0 4 0 0, .retb G 4),
    (word 0x18D 0 0x180 0x103 0 0 0 4 9 0, .qset (C) .scr 4 (.c .zero) (.s 3)),
    (word 0x18D 0 0 0 0 0 0 4 0 0, .qsetEmpty G 4),
    (word 0x18E 0x101 0 0 0 7 0 4 0 0, .qinfo G 1 4 7)].all reads = true := by decide

theorem test_decode_sync : [
    (word 0x1C0 0x101 0x102 0x103 0 0 0 0 0 0, Instr.barArrive (C) (some 1) (.s 2) (.s 3)),
    (word 0x5C1 0 0x102 0 1 0 0 0 0 0, .barWait (C) (.s 2) (.lit 1)),
    (word 0x1C2 0 0x102 0x180 0 0 0 0 0 0, .barSync (C) (.s 2) (.c .zero)),
    (word 0x1C3 0 0x102 0x103 0 16 0 15 0 0, .mbarInit G (M 15 (.s 2) 16) (.s 3)),
    (word 0x1C4 0 0x102 0x103 0 16 0 15 0 0, .mbarExpect G (M 15 (.s 2) 16) (.s 3)),
    (word 0x1C5 0x400 0x102 0 0 16 0 15 0 0, .mbarArrive G none (M 15 (.s 2) 16)),
    (word 0x1C6 0x214 0x102 0x103 0 16 0 15 0 0, .mbarTrywait G 4 (M 15 (.s 2) 16) (.s 3)),
    (word 0x1C7 0 0x102 0x103 0 16 0 15 0 0, .mbarWait G (M 15 (.s 2) 16) (.s 3)),
    (word 0x1C8 0 0 0 0 0 0 0 24 0, .fence G .system),
    (word 0x1C9 0 0 0 0 0 0 0 0 0, .fenceLayout G),
    (word 0x1CA 0 0x180 0x104 0 8 0 3 16 0, .sigDec G .device (M 3 (.c .zero) 8) (.s 4)),
    (word 0x1CB 0 0x180 0x104 0 8 0 3 16 0, .sigAdd G .device (M 3 (.c .zero) 8) (.s 4)),
    (word 0x5CC 0 0x180 0 0xFFFFFFFF 0 0 3 24 0, .sigSet G .system (M 3 (.c .zero) 0) (.lit 0xFFFFFFFF)),
    (word 0x1CD 0 0x180 0x104 0 8 0 3 (3 + 8 * 4) 0, .sigw G .ge .device (M 3 (.c .zero) 8) (.s 4)),
    (word 0x1CE 0x108 0 0 0 0 0 0 0 0, .ftile G 8)].all reads = true := by decide

theorem test_decode_engines : [
    (word 0x200 0 0x105 0 0 0 0 13 0 0, Instr.mma G 13 (.s 5)),
    (word 0x601 0 0 0 63 0 0 0 0 0, .accZero G (.lit 63)),
    (word 0x202 0x010 0x101 0x102 0 0 0 0 11 0, .accLd G .f32 16 (.s 1) (.s 2)),
    (word 0x203 0 0x010 0x101 0x102 0 0 0 2 0, .accSt G .s16 16 (.s 1) (.s 2)),
    (word 0x204 0x103 0x180 0x101 0x102 64 0 15 0 0, .accDrain G .s8 (M 15 (.c .zero) 64) (.s 1) (.s 2) (.s 3)),
    (word 0x205 0x101 0x102 0x103 0x104 6 0 5 0 0, .copyLin (C) 1 5 6 (.s 2) (.s 3) (.s 4)),
    (word 0x206 0x101 0x180 0x108 0 6 0 5 0 0, .copyTileLd (C) 1 5 6 (.c .zero) 8),
    (word 0x207 0x101 0x180 0x108 0 6 0 5 0 0, .copyTileSt (C) 1 5 6 (.c .zero) 8),
    (word 0x208 0x101 0x180 0x102 0x104 6 0 5 0 0, .copyGather (C) 1 5 6 (.c .zero) (.s 2) 4),
    (word 0x215 0x101 0x102 0x103 0x104 6 0 5 0 0, .copyLinMb (C) (.s 1) 5 6 (.s 2) (.s 3) (.s 4)),
    (word 0x216 0 0x180 0x108 0 6 0 5 0 0, .copyTileLdMb (C) 5 6 (.c .zero) 8),
    (word 0x217 0 0x180 0x108 0 6 0 5 0 0, .copyTileStMb (C) 5 6 (.c .zero) 8),
    (word 0x218 0 0x180 0x102 0x108 6 0 5 0 0, .copyGatherMb (C) 5 6 (.c .zero) (.s 2) 8),
    (word 0x209 0x101 0x180 0x103 0 0 0 5 0 0, .sweepWb G 1 5 (.c .zero) (.s 3)),
    (word 0x20A 0x101 0x180 0x103 0 0 0 5 0 0, .sweepInv G 1 5 (.c .zero) (.s 3)),
    (word 0x20B 0x101 0x180 0x103 0 0 0 5 0 0, .sweepWbinv G 1 5 (.c .zero) (.s 3)),
    (word 0x219 0x101 0x180 0x103 0 0 0 5 0 0, .sweepWbMb G (.s 1) 5 (.c .zero) (.s 3)),
    (word 0x21A 0x101 0x180 0x103 0 0 0 5 0 0, .sweepInvMb G (.s 1) 5 (.c .zero) (.s 3)),
    (word 0x21B 0x101 0x180 0x103 0 0 0 5 0 0, .sweepWbinvMb G (.s 1) 5 (.c .zero) (.s 3))].all reads = true := by decide

theorem test_decode_remote_and_system : [
    (word 0x240 0x008 0x003 0 0 0x011 0 2 6 0, Instr.rld (C) .b32 17 8 2 (.v 3)),
    (word 0x241 0x111 0x003 0x008 0 0 0 2 7 0, .rst (C) .b64 17 2 (.v 3) 8),
    (0x000800000043103408843A42, .rmst (C) 8 (.s 2) 4 (.s 3) 12),
    (word 0x243 0x101 0 0 0 0 0 2 0 0, .rflush G 1 2),
    (word 0x644 0x101 0x102 0 0x80000000 0 0 0 0 0, .rflushMc (C) 1 (.s 2) (.lit 0x80000000)),
    (word 0x245 0 0x102 0 0 8 0 2 0 0, .migrateAddr 0 (M 2 (.s 2) 8)),
    (word 0x246 0 0 0 0 0 0 0 0 0, .migrateHome),
    (word 0x248 0x101 0x104 0 0 (6 + 16) 0 5 (11 + 32) 0, .collAllred (C) 1 .max .f32 true 5 6 4),
    (word 0x249 0x101 0x104 0 0 6 0 5 (4 + 16) 0, .collRedsc (C) 1 .min .s32 false 5 6 4),
    (word 0x24A 0x101 0x104 0 0 6 0 5 10 0, .collAllga (C) 1 .bf16 false 5 6 4),
    (word 0x24B 0x101 0x104 0 0 (6 + 16) 0 5 11 0, .collBcast (C) 1 .f32 true 5 6 4),
    (word 0x280 0x102 0 0 0 0x11 0 0 0 0, .rdsr (A (.s 2)) .time),
    (word 0x281 0 0x101 0 0 0x18 0 0 0 0, .wrsr (C) .fmode (.s 1)),
    (word 0x282 0x102 0 0 0 0 0 0 0 0, .mtrVf G 2),
    (word 0x283 0x102 0 0 0 0 0 0 0 0, .mtrLaunch G 2),
    (word 0x284 0x102 0 0 0 0 0 0 0 0, .mtrTeam G 2),
    (word 0x285 0x102 0 0 0 0 0 0 0 0, .mtrQuota G 2)].all reads = true := by decide

/-- The two FFMA examples of R338 with R362 and R394, the MATCH example of R419, and the guard's bits. -/
theorem test_decode_printed_words : [
    ((0x03600000010140400C033843 : BitVec 96), Instr.ffma (A (.v 6)) .f32 (some .rz) (.v 3) (.v 4) (.v 5)),
    (0x29604FF0000010500C035443, .ffma { g := { gp := 2, gn := true }, lu := 1, out := { dst := some (.v 6), latch := some 1 } }
      .f32 none (.v 3) (.s 5) (.lit 0x3FC00000)),
    (0x00C00000000000000C04B8C8, .matchAny (A (.v 9)) false (.v 3))].all reads = true := by decide

/-! ## Words that no form admits (R325 to R337, R361) -/

def refuses (w : BitVec 96) : Bool := match decodeSlot w with | .ok _ => false | .error _ => true

theorem test_refused_words : [
    word 0x000 0 0 0 0 0 0 0 0 0,           -- a NOP with GP
    word 0x001 0x001 0x002 0x103 0 0 0 0 4 0 ||| 0x800000000000000000000000, -- [95:94] nonzero
    word 0x001 0x001 0x002 0x103 0x001 0 0 0 4 0, -- SRC2 unused by IADD
    word 0x001 0x001 0x002 0x103 0 0 0 0 6 0,     -- type .B32 of IADD
    word 0x001 0x001 0x185 0x103 0 0 0 0 4 0,     -- a reserved source
    word 0x001 0x001 0x183 0x103 0 0 0 0 4 0,     -- 0.5 in an integer type
    word 0x001 0x180 0x002 0x103 0 0 0 0 4 0,     -- a constant as destination
    word 0x001 0x101 0x002 0x103 0 0 0 0 4 0,     -- an s destination of a per-lane form
    word 0x003 0x001 0x002 0x003 0x004 0 0 0 0x14 0, -- an odd register for IMAD.WIDE
    word 0x003 0x002 0x002 0x003 0x004 0 0 0 0x14 4, -- LDE of a 64-bit result
    word 0x408 0x001 0x002 0x003 5 0 0 0 6 0,     -- LOP3 with a literal
    word 0x443 0x006 0x003 0x004 5 0 0 0 0x1B 0,  -- a rounding suffix beside a literal
    word 0x140 0x002 0x200 0 0 0 0 8 7 0,         -- a latch in a memory-class instruction
    word 0x150 0x001 0x002 0x003 0 8 0 4 (4 * 7) 0, -- scope 7
    word 0x158 0 0x002 0x004 0 8 0 4 1 0,         -- RED with .ACQ
    word 0x0CB 0x001 0 0 0 0 0 0 0 0,             -- ELECT with a v destination
    word 0x1CE 0x109 0 0 0 0 0 0 0 0,             -- FTILE with s9
    word 0x105 0 0 0 0 0 0 0 0 0 ^^^ 0x800,       -- a guarded CONV
    word 0x280 0x001 0 0 0 0x10 0 0 0 0,          -- RDSR of a 64-bit register into one register
    word 0x281 0 0x101 0 0 0x00 0 0 0 0].all refuses = true := by decide

theorem test_unassigned_opc : [0x014, 0x053, 0x15E, 0x18F, 0x247, 0x2C0, 0x3FF].all (fun o =>
    match decodeSlot (word o 0 0 0 0 0 0 0 0 0) with | .ok i => decide (i = .unassignedOpc (word o 0 0 0 0 0 0 0 0 0)) | .error _ => false) = true := by
  decide
/-! ## Terms that are not well formed, one for each check -/

theorem test_ill_formed_refused : [
    Instr.iadd { A (.v 1) with g := { gp := 7, gn := true } } .s32 (.v 2) (.v 3),  -- a guard that is always false
    .iadd (A (.v 1) 4) .s32 (.v 2) (.v 3),                       -- a last-use flag without its source
    .iadd (A (.v 1)) .s32 (.lit 1) (.v 3),                       -- a literal that is not the last source
    .imadWide (A (.v 2)) .s32 (.v 2) (.v 3) (.v 5),              -- an odd 64-bit source
    .imadWide (A (.s 3)) .s32 (.s 2) (.s 3) (.s 4),              -- an odd 64-bit destination
    .imadWide (A (.v 2)) .s32 (.v 2) (.v 3) (.l 0),              -- a wide latch
    .imadWide (A (.v 2)) .s32 (.v 2) (.v 3) (.p 0),              -- a wide predicate
    .imadWide (A (.v 2)) .s32 (.v 2) (.v 3) (.x 0),              -- a wide x register
    .mov (A (.v 4)) .b128 (.lit 0),                              -- a 128-bit literal
    .imadWide (A (.x 0)) .s32 (.v 2) (.v 3) (.v 4),              -- a wide x destination
    .iadd (A (.v 1)) .s32 (.c .half) (.v 3),                     -- 0.5 in an integer type
    .iadd (A (.p 1)) .s32 (.v 2) (.v 3),                         -- a predicate destination
    .iadd (A (.s 1)) .s32 (.v 2) (.s 3),                         -- an s destination of a per-lane form
    .iadd { A (.x 1) with out := { dst := some (.x 1), latch := some 0 } } .s32 (.v 2) (.v 3), -- a latch beside an x destination
    .imadWide { A (.v 2) with out := { dst := some (.v 2), latch := some 0 } } .s32 (.v 2) (.v 3) (.v 4), -- a latch of 64 bits
    .iaddCc (A (.v 1)) 0 (.v 2) (.v 3) (.v 4),                   -- a carry in that is no predicate, 0 or 1
    .iaddCc (A (.v 1)) 0 (.v 2) (.lit 3) (.c .zero),             -- a literal in IADD.CC
    .fadd (A (.v 1)) .f32 (some .rz) (.v 2) (.lit 3),            -- a rounding beside a literal
    .cvt (A (.v 1)) .s32 .s32 none (.v 2),                       -- equal types
    .cvt (A (.v 1)) .s8 .f32 (some .rz) (.v 2),                  -- a rounding that CVT does not admit
    .cvt (A (.v 1)) .f32 .s32 none (.lit 2),                     -- a literal where AUX is in use
    .cbdec (A (.v 2)) (.v 2) (.s 1),                             -- CBDEC's destination aligned to 4
    .cbenc (A (.v 1)) true (.v 2) (.v 3),                        -- a slot number that is not uniform
    .shflIdx (A (.v 1)) true 6 none (.v 2) (.v 3),               -- a segment width code 6
    .shflIdx (A (.v 1)) true 1 none (.v 2) (.lit 3),             -- a literal beside a width
    .shflIdx (A (.v 1)) true 0 none (.v 2) (.x 3),               -- an x register as lane index
    .matchAny (A (.s 1)) false (.v 3),                           -- MATCH into an s register
    .matchAny (A (.v 1)) false (.lit 3),                         -- MATCH of a literal
    .gred (A (.x 1)) .addS (.v 3),                               -- GRED into an x register
    .gred (A (.v 1)) .addS (.s 3),                               -- GRED of a uniform source
    .elect G (.v 1),                                             -- ELECT into a v register
    .brx (C) (.v 1) 0,                                           -- an odd PC pair
    .call G (.x 0) 0 0,                                          -- a link in an x register
    .trap G (.v 0),                                              -- TRAP of a per-lane value
    .ld (C) .b64 (some (.v 1)) (M 8 (.v 5) 0),                   -- an odd 64-bit load
    .ld (C) .b32 (some (.s 1)) (M 8 (.v 5) 0),                   -- a load into an s register
    .ld (C) .b32 (some (.v 1)) (M 8 (.c .one) 0),                -- a constant offset other than 0x180
    .st (C) .b64 (M 8 (.v 5) 4) (.lit 1),                        -- an offset beside a literal
    .st (C) .z8 (M 8 (.v 5) 0) (.lit 1),                         -- a literal of a narrow store
    .st (C) .b32 (M 8 (.v 5) 0) (.l 1),                          -- a latch stored
    .ldf G .c4 16 (M 15 (.v 1) 0) 3 (.lit 0x25),                 -- a per-lane offset of a fragment
    .cbld (C) (M 15 (.c .zero) 0) (.v 3),                        -- a slot number that is not uniform
    .atomAdd (C) .acq .device true (some (.v 1)) (M 4 (.v 2) 8) (.v 4), -- an odd 64-bit old value
    .redAdd (C) .rel .device true (M 4 (.v 2) 8) (.v 3),         -- an odd 64-bit operand
    .cas (C) .relaxed .device false (some (.v 1)) (M 4 (.v 2) 0) (.lit 3) (.v 4), -- a literal compare value
    .borX (C) 1 4 3 (.s 5),                                      -- an odd base pair
    .borX (C) 1 4 2 (.v 5),                                      -- a length that is not uniform
    .rebor (C) 4 5 (.lit 2) (.s 3),                              -- a literal offset of REBOR
    .sigDec G .device (M 3 (.c .zero) 8) (.s 5),                 -- an odd pair of SIG
    .ftile G 9,                                                  -- FTILE into s9
    .rmst (C) 8 (.s 2) 4 (.s 3) 10,                              -- scalars not aligned to 4
    .collAllred (C) 1 .max .f32 true 5 6 3,                      -- scalars of COLL not aligned to 4
    .rdsr (A (.v 1)) .time,                                      -- a 64-bit register into an odd register
    .rdsr (A (.s 1)) .lane,                                      -- sr.lane into an s register
    .mtrVf G 3].all (fun i => !i.wf) = true := by decide
/-! ## Host commands (R270 to R275) -/

def readsCommand (p : BitVec 2048 × Instr) : Bool :=
  (match decodeCommand p.1 with | .ok i => decide (i = p.2) | .error _ => false) && decide (p.2.encodeCommand = some p.1)

/-- An entry by its 64-bit words. -/
def entry (ws : List Nat) : BitVec 2048 := BitVec.ofNat 2048 (ws.foldr (fun w a => w % 2 ^ 64 + 2 ^ 64 * a) 0)

/-- Command word of R270: TAG 77, vector 3, IRQ set. -/
def cw (op : Nat) : Nat := op + 2 ^ 8 + 3 * 2 ^ 9 + 77 * 2 ^ 32
def W : CmdWord := { irq := true, vec := 3, tag := 77 }

theorem test_decode_commands : [
    (entry [cw 2, 0x1000, 5, 3], Instr.waitsig W 0x1000 5 .ge),
    (entry [cw 3, 0x1008, 7, 0], .setsigSet W 0x1008 7),
    (entry [cw 3, 0x1008, 7, 1], .setsigAdd W 0x1008 7),
    (entry [cw 3, 0x1008, 7, 2], .setsigDec W 0x1008 7),
    (entry [cw 4, 0x1001, 0x2002, 0x300, 0x1010], .hcopy W 0x1001 0x2002 0x300 0x1010),
    (entry [cw 5, 9], .mark W 9),
    (entry [cw 6, 4, 1000], .resume W 4 1000),
    (entry [cw 1, 0x10040, 0x20000, 0x30000, 0x40008, 12 + 2 ^ 32 * 3, 2 + 2 ^ 8 * 1 + 2 ^ 32 * 168 + 2 ^ 48 * 96, 4096 + 2 ^ 32 * 64,
        32 + 2 ^ 32 * 128, 5 + 2 ^ 32 * 6, 7 + 2 ^ 32 * (1 + 2 ^ 16 * 4), 0x50, 0x60, 0x70, 0x80, 2 + 2 ^ 32 * 13, 500, 600 + 2 ^ 32 * 700],
      .launch W { code := 0x10040, ctxBase := 0x20000, ctxLen := 0x30000, sigAddr := 0x40008, gd := 12, prod := 3, crewN := 2, crewC := 1, regsP := 168, regsC := 96, ss := 4096, lp := 64, cs := 32, ds := 128, x := 5, y := 6, z := 7, grouped := true, w := 4, igd := 0x50, ix := 0x60, iy := 0x70, iz := 0x80, cores := 2, det := true, deadtrap := false, prodfirst := true, bpol := 1, budget := 500, wdog := 600, btime := 700 })].all readsCommand = true := by decide

theorem test_refused_commands : [entry [cw 7], entry [cw 2, 0x1004, 5, 3], entry [cw 2, 0x1000, 5, 6], entry [cw 3, 0x1008, 7, 3],
    entry [cw 5, 9, 1], entry [cw 5 + 2 ^ 20, 9], entry [cw 4, 0, 0, 1, 4]].all
    (fun w => match decodeCommand w with | .ok _ => false | .error _ => true) = true := by decide
/-! ## Single steps on small states; expected values from the worked examples of the rules named -/

/-- A part whose one active group, of 32 lanes and 256 registers, stands at 0x10000 and issues. -/
def base : State := { State.reset.withGroup 0 with cur := some { grp := bootGroup, frag := 0 } }

/-- The state with vector register `n` holding the values of a list in its first lanes, zero in the others. -/
def vals (n : Nat) (vs : List Nat) (s : State) : State :=
  s.putV bootGroup n 1 true ((List.range 32).map fun i => (i, (vs[i]?).getD 0))
def grp (f : Group → Group) (s : State) : State := s.modGroup bootGroup f
/-- p0 true in the first `n` lanes. -/
def first (n : Nat) (s : State) : State := s.putP bootGroup 0 ((List.range 32).map fun i => (i, decide (i < n)))

/-- The next state of a word satisfies a test. -/
def after (i : Instr) (s : State) (p : State → Bool) : Bool := match exec i s with | .next t => p t | _ => false

/-- Lanes of a register from lane 0. -/
def lanes (t : State) (n c : Nat) : List Nat := (List.range c).map fun i => (t.vAt bootGroup n i).toNat

def P0 : Guard := { gp := 0, gn := false }

theorem test_step_runs_a_placed_word : (match step (State.reset.withFetchWord 96 (word 0x001 0x105 0x184 0x181 0 0 0 0 4 0).toNat) with
    | .next t => t.sAt bootGroup 5 == 3 && ((t.group bootGroup).map fun g => g.entries.map Entry.pc) == some [0x10001]
    | _ => false) = true := by decide

theorem test_step_runs_a_placed_command : (match step (State.reset.withFetchWord 512 (entry [5, 9]).toNat) with
    | .next t => ((t.fn 0).queue 0).head == 1 && ((t.fn 0).queue 0).held.length == 1
    | _ => false) = true := by decide

/-- R406: the low half of 0x1FFFFFFFF + 0x300000001. -/
theorem test_iadd_cc_carries : after (.iaddCc (A (.v 4)) 0 (.v 0) (.v 2) (.c .zero)) (base |> vals 0 [0xFFFFFFFF] |> vals 2 [1]) (fun t =>
    lanes t 4 2 == [0, 0] && t.pAt bootGroup 0 0 && !t.pAt bootGroup 0 1) = true := by decide

/-- R372. -/
theorem test_bfe_signed : after (.bfe (A (.v 4)) .s32 (.v 0) (.v 1) (.lit 8)) (base |> vals 0 [0xF0A0, 0xF0A0] |> vals 1 [4, 8]) (fun t =>
    lanes t 4 2 == [0x0A, 0xFFFFFFF0]) = true := by decide

/-- R418: the majority of three. -/
theorem test_lop3_majority : after (.lop3 (A (.v 4)) 0xE8 (.v 0) (.v 1) (.v 2)) (base |> vals 0 [0b1100] |> vals 1 [0b1010] |> vals 2 [0b1001]) (fun t =>
    lanes t 4 1 == [0b1000]) = true := by decide

/-- R431. -/
theorem test_prmt_examples : after (.prmt (A (.v 4)) (.v 0) (.v 1) (.v 2)) (base |> vals 0 (List.replicate 5 0x44332211) |>
    vals 1 (List.replicate 5 0x88776655) |> vals 2 [0x03020100, 0x00010203, 0x06020400, 0x17171707, 0x08080805]) (fun t =>
    lanes t 4 5 == [0x44332211, 0x11223344, 0x77335511, 0xFFFFFF88, 0x66]) = true := by decide

/-- R390: 0x3F818000 rounds to 0x3F82. -/
theorem test_cvt_bf16 : after (.cvt (A (.v 4)) .bf16 .f32 none (.v 0)) (base |> vals 0 [0x3F818000]) (fun t => lanes t 4 1 == [0x3F82]) = true := by
  decide

/-- R399: zero times infinity, whatever is added, is the canonical NaN with FP_INVALID. -/
theorem test_ffma_invalid : after (.ffma (A (.v 4)) .f32 none (.v 0) (.v 1) (.v 2)) (base |> vals 0 [0] |> vals 1 [0x7F800000] |> vals 2 [0x3F800000])
    (fun t => lanes t 4 1 == [0x7FC00000] && ((t.group bootGroup).map fun g => g.fmode &&& 0x100) == some 0x100) = true := by decide

/-- R404: the fixed tree over 2^24, 1, 1, -2^24. -/
theorem test_gred_tree : after (.gred { A (.s 4) with g := P0 } .addF (.v 0)) (base |> vals 0 [0x4B800000, 0x3F800000, 0x3F800000, 0xCB800000] |> first 4)
    (fun t => t.sAt bootGroup 4 == 0x3F800000) = true := by decide

/-- R419. -/
theorem test_match_any : after (.matchAny { A (.v 9) with g := P0 } false (.v 3)) (base |> vals 3 [5, 3, 5, 5, 9, 3, 5, 9] |> first 8) (fun t =>
    lanes t 9 9 == [0x4D, 0x22, 0x4D, 0x4D, 0x90, 0x22, 0x4D, 0x90, 0]) = true := by decide

/-- R448: SHFL.UP.Z by 1. -/
theorem test_shfl_up : after (.shflUp (A (.v 2)) true 0 none (.v 1) (.c .one)) (base |> vals 1 [1, 2, 3, 4, 5]) (fun t =>
    lanes t 2 6 == [0, 1, 2, 3, 4, 5]) = true := by decide

/-- R379: the link word of a CALL at 0x40002 with priority 96. -/
theorem test_call_link : after (.call G (.s 2) 8 128) (base |> grp fun g => { g with entries := g.entries.map fun e => { e with pc := 0x40002, prio := 96 } })
    (fun t => t.sAt bootGroup 2 == 0x800303 && t.sAt bootGroup 3 == 0 &&
      ((t.group bootGroup).map fun g => g.entries.map fun e => (e.pc, e.prio)) == some [(0x40040, 128)]) = true := by decide

/-- R334: lane 1 reaches v65 beyond sr.xlim.HI and traps; lane 0 reads v15. -/
theorem test_indexed_operand : after (.mov { A (.v 4) with g := P0 } .b32 (.vx 1 5)) ((base |> vals 15 [7, 7] |> first 2 |>
    grp fun g => { g with xlim := 64, x := Store.wrs g.x [(32, 10), (33, 60)] }).modVf 0 fun v => { v with supvLen := 64 }) (fun t => lanes t 4 2 == [7, 0] &&
      ((t.group bootGroup).map fun g => (g.frame.cause, g.frame.faddr, g.frame.lanes)) == some (0x11, 65, 2)) = true := by decide

/-- R462, R249: the frame of a TRAP and the way to the routine. -/
theorem test_trap_enters_the_routine : after (.trap G (.lit 17)) (base.modVf 0 fun v => { v with supvLen := 64 }) (fun t =>
    ((t.group bootGroup).map fun g => (g.frame.cause, g.frame.pc, g.frame.info, g.frame.busy, g.entries.map Entry.pc)) ==
      some (0x30, 0x10000, 17, true, [supvBase])) = true := by decide

/-- R433, R457, R414: a store to the scratchpad and the load of its bytes, little-endian. -/
theorem test_store_then_load : after (.st { (C) with g := P0 } .b32 (M 15 (.c .zero) 0) (.v 1)) (base |> vals 1 [0x11223344] |> first 1) (fun t =>
    after (.ld { (C) with g := P0 } .z8 (some (.v 2)) (M 15 (.c .zero) 1)) { t with cur := some { grp := bootGroup, frag := 0 } } (fun u =>
      u.pending.isEmpty && lanes u 2 1 == [0x33])) = true := by decide

/-- R368: a guarded ATOM.ADD of one lane returns the old value. -/
theorem test_atom_add : after (.atomAdd { (C) with g := P0 } .relaxed .team false (some (.v 2)) (M 15 (.c .zero) 8) (.v 1)) (base |> vals 1 [5, 6] |> first 2)
    (fun t => lanes t 2 3 == [0, 5, 0] && t.localLoad bootGroup 0 .scr 8 4 == 11) = true := by decide
/-! ## Witnesses: for every statement of Obligations.lean with hypotheses, a state and operands that meet them together

`issuesAt` decides the hypotheses of the statements about words (`wordOp i s = some o` and `Issues x s o`) together with a test of
the further ones; `issuesAt_sound` says so. An input that an event acts on is placed by `given`. -/

/-- The word issues in the state, and its site passes a further test. -/
def issuesAt (s : State) (i : Instr) (p : Site → Op → Bool := fun _ _ => true) : Bool :=
  match s.issuer, wordOp i s with
  | some (k, g, e, l), some o =>
    let x : Site := { k := k, g := g, e := e, l := l }
    e.st == .ready && decide (l.st = .running) && g.step.isNone && !g.checkDue e && e.mask != 0 && !o.use.overBudget g.bud &&
      (o.use.mode == none || o.use.mode == some (g.supv e)) && (!g.supv e || x.pass o == 0 || x.pass o == e.mask) &&
      skidRoom (s.openAccs k e.mask) && (!o.use.order || ((s.openAccs k e.mask).isEmpty && !s.booksOut k e.mask)) &&
      (!o.use.touches || !(s.openAccs k e.mask).any fun a => a.acq && a.lanes &&& x.pass o != 0) && (o.use.awaits g (x.pass o)).isNone &&
      (o.use.misses g (x.pass o)).isEmpty && (s.operandStage o.use (x.ctx s o) l.desc.deadtrap).2.isEmpty && p x o
  | _, _ => false

theorem issuesAt_sound {s : State} {i : Instr} {p : Site → Op → Bool} (h : issuesAt s i p = true) :
    ∃ x o, wordOp i s = some o ∧ Issues x s o ∧ p x o = true := by
  unfold issuesAt at h
  split at h
  · rename_i k g e l o h1 h2
    simp only [Bool.and_eq_true, decide_eq_true_eq, bne_iff_ne, Bool.not_eq_true', List.isEmpty_iff, Option.isNone_iff_eq_none,
      Bool.or_eq_true, beq_iff_eq] at h
    obtain ⟨⟨⟨⟨⟨⟨⟨⟨⟨⟨⟨⟨⟨⟨r, a⟩, b⟩, c⟩, d⟩, e1⟩, f⟩, g1⟩, h3⟩, i1⟩, q⟩, j⟩, k1⟩, l1⟩, m⟩ := h
    refine ⟨{ k := k, g := g, e := e, l := l }, o, h2, ⟨⟨h1, r, a, b, c, d⟩, e1, f, ?_, h3, ?_, ?_, j, k1, l1⟩, m⟩
    · intro hs; simp_all
    · intro ho; simp_all
    · intro ht; exact q.resolve_left fun hn => by rw [hn] at ht; cases ht
  · simp at h

/-- A word that comes to its issue, with a test of its site. -/
def arrivesAt (s : State) (i : Instr) (p : Site → Op → Bool) : Bool :=
  match s.issuer, wordOp i s with
  | some (k, g, e, l), some o =>
    e.st == .ready && decide (l.st = .running) && g.step.isNone && !g.checkDue e && e.mask != 0 && p { k := k, g := g, e := e, l := l } o
  | _, _ => false

theorem arrivesAt_sound {s : State} {i : Instr} {p : Site → Op → Bool} (h : arrivesAt s i p = true) :
    ∃ x o, wordOp i s = some o ∧ Arrives x s ∧ p x o = true := by
  unfold arrivesAt at h
  split at h
  · rename_i k g e l o h1 h2
    simp only [Bool.and_eq_true, decide_eq_true_eq, bne_iff_ne, Bool.not_eq_true', Option.isNone_iff_eq_none, beq_iff_eq] at h
    obtain ⟨⟨⟨⟨⟨r, a⟩, b⟩, c⟩, d⟩, m⟩ := h
    exact ⟨{ k := k, g := g, e := e, l := l }, o, h2, ⟨h1, r, a, b, c, d⟩, m⟩
  · simp at h

def tidyB (x : Site) : Bool :=
  x.g.entries.all fun f => f.mask.getLsbD f.frag.toNat && (decide (f = x.e) || f.mask &&& x.e.mask == 0)

theorem tidyB_sound {x : Site} (h : tidyB x = true) : x.tidy := by
  intro f hf
  have := List.all_eq_true.1 h f hf
  simp only [Bool.and_eq_true, Bool.or_eq_true, decide_eq_true_eq, beq_iff_eq] at this
  exact ⟨this.1, fun hn => this.2.resolve_left hn⟩

/-- A trap of the entry is delivered at once. -/
def trapsB (s : State) (x : Site) : Bool :=
  !x.g.frame.busy && (s.vf (vfOf x.k)).hasSupv && !x.l.dbg && (s.openAccs x.k x.e.mask).isEmpty && tidyB x &&
    x.g.entries.all fun f => f.pc != supvBase

theorem trapsB_sound {s : State} {x : Site} (h : trapsB s x = true) : x.traps s := by
  simp only [trapsB, Bool.and_eq_true, Bool.not_eq_true', List.isEmpty_iff, List.all_eq_true, bne_iff_ne] at h
  exact ⟨h.1.1.1.1.1, h.1.1.1.1.2, h.1.1.1.2, h.1.1.2, tidyB_sound h.1.2, h.2⟩

/-- The access of every acting lane passes the checks of R95. -/
def reachesB (s : State) (x : Site) (o : Op) (m : MemOp) (kind : AccKind) (n : Nat) : Bool :=
  let r := x.region s o m
  r.kind != 0 && !r.pend && !r.lent && permits r.kind kind && decide (r.base.toNat + r.len.toNat ≤ 2 ^ 57) &&
    (r.kind != 4 || (apertureIdx r.base.toNat).isNone) && (lanesOf (x.pass o)).all fun i =>
      decide ((r.base.toNat : Int) ≤ x.ea s o m i) && decide (x.ea s o m i + n ≤ r.base.toNat + r.len.toNat) && decide (x.ea s o m i % (n : Int) = 0)

theorem lane_of {m : BitVec 32} {p : Nat → Bool} (h : (lanesOf m).all p = true) (i : Nat) (hi : m.getLsbD i = true) : p i = true := by
  refine List.all_eq_true.1 h i ?_
  simp only [lanesOf, List.mem_filter, List.mem_range]
  exact ⟨Nat.lt_of_not_le fun hn => by simp [BitVec.getLsbD_of_ge m i hn] at hi, hi⟩

theorem reachesB_sound {s : State} {x : Site} {o : Op} {m : MemOp} {kind : AccKind} {n : Nat} (h : reachesB s x o m kind n = true) :
    x.reaches s o m kind n := by
  simp only [reachesB, Bool.and_eq_true, Bool.or_eq_true, Bool.not_eq_true', bne_iff_ne, decide_eq_true_eq, Option.isNone_iff_eq_none] at h
  obtain ⟨⟨⟨⟨⟨⟨a, b⟩, c⟩, d⟩, e⟩, f⟩, g⟩ := h
  refine ⟨⟨a, b, c⟩, d, e, fun hk => f.resolve_left fun hn => hn hk, fun i hi => ?_, fun i hi => ?_⟩ <;>
    have := lane_of g i hi <;> simp only [Bool.and_eq_true, decide_eq_true_eq] at this
  · exact this.1
  · exact this.2

/-- The object of a barrier word lies in its register, aligned. -/
def objectB (s : State) (x : Site) (o : Op) (m : MemOp) : Bool :=
  let r := x.region s o m
  let ea := x.ea s o m (lowLane (x.pass o))
  (r.kind == 9 || r.kind == 10) && !r.pend && !r.lent && decide ((r.base.toNat : Int) ≤ ea) && decide (ea + 16 ≤ r.base.toNat + r.len.toNat) && decide (ea % 16 = 0)

theorem objectB_sound {s : State} {x : Site} {o : Op} {m : MemOp} (h : objectB s x o m = true) : x.object s o m := by
  simp only [objectB, Bool.and_eq_true, Bool.or_eq_true, Bool.not_eq_true', beq_iff_eq, decide_eq_true_eq] at h
  exact ⟨⟨h.1.1.1.1.1, h.1.1.1.1.2, h.1.1.1.2⟩, ⟨h.1.1.2, h.1.2⟩, h.2⟩

/-- The state in which an event acts on an input. -/
def given (x : Input) (s : State := State.reset) : State := { s with input := some x }

/-- Every statement whose hypotheses are an input alone is met by `given` at any state. -/
theorem witness_input (x : Input) (s : State) : (given x s).input = some x := rfl

/-- A supervisor routine for the VF of `base`. -/
def supv (s : State) : State := s.modVf 0 fun v => { v with supvLen := 64 }
/-- A region register of the group. -/
def reg (n : Nat) (r : Region) (s : State) : State := s.modGroup bootGroup fun g => { g with q := SMap.put g.q n r }
/-- Scalars of the group from `n` up. -/
def scal (n : Nat) (vs : List Nat) (s : State) : State :=
  s.modGroup bootGroup fun g => { g with s := Store.wrs g.s (vs.zipIdx.map fun vi => (n + vi.2, BitVec.ofNat 32 vi.1)) }
/-- The descriptor of the launch. -/
def desc (f : LaunchDesc → LaunchDesc) (s : State) : State :=
  s.setLaunch bootLaunch { bootLaunchState with desc := f bootDesc }
/-- Translations in the TLB of core 0. -/
def tlb (xs : List Xlat) (s : State) : State := s.modCore 0 fun c => { c with tlb := xs }
/-- A 64 KiB page of VF 0 at an address, at home there. -/
def page (cls : BitVec 2) (va : Nat := 0x40000) : Xlat :=
  { vf := 0, va := va, size := 65536, home := va, cls := cls, grain := 0, rd := true, wr := true, ex := true }
/-- An open range and held ranges of that page; the scratchpad is q15. -/
def openReg : Region := { base := 0x40000, len := 0x1000, kind := 4 }
def heldReg (k : BitVec 4) : Region := { base := 0x40000, len := 0x1000, kind := k, handle := 1 }

/-! ### Integer, floating-point and group words -/

theorem witness_integer : [ -- IntegerSumsAndProducts, ShiftsFieldsAndCounts, MovesAndSelections
    Instr.iadd (A (.v 1)) .s32 (.v 2) (.s 3), .isub (A (.s 1)) .z32 (.s 2) (.lit 9), .imad (A (.v 1)) .z32 (.v 2) (.v 3) (.v 4),
    .imadWide (A (.v 2)) .z32 (.v 2) (.v 3) (.v 4), .imadWide (A (.v 2)) .s32 (.v 2) (.v 3) (.v 4), .imul (A (.v 1)) .z32 false (.v 2) (.v 3),
    .imul (A (.v 1)) .z32 true (.v 2) (.v 3), .imul (A (.v 1)) .s32 true (.v 2) (.v 3), .imnmx (A (.x 2)) .s32 true (.v 2) (.v 3),
    .imnmx (A (.v 2)) .z32 false (.v 2) (.v 3), .idp4 (A (.v 1)) false true (.v 2) (.v 3) (.v 4), .shl (A (.v 1)) (.v 2) (.v 3),
    .shr (A (.v 1)) .z32 (.v 2) (.v 3), .shr (A (.v 1)) .s32 (.v 2) (.lit 32), .bfe (A (.v 1)) .z32 (.v 2) (.v 3) (.v 4),
    .bfi (A (.v 1)) (.v 2) (.v 3) (.v 4), .brev (A (.v 1)) (.v 2), .clz (A (.v 1)) (.v 2), .popc (A (.v 1)) (.v 2),
    .lop3 (A (.p 5)) 0xE8 (.v 2) (.v 3) (.c .negOne), .mov (A (.v 4)) .b128 (.s 8), .sel (A (.v 2)) true true 4 (.v 4) (.v 6),
    .lea (A (.v 1)) .b32 (.v 4) (.v 3) (.c .one), .lea (A (.v 2)) .z64 (.v 4) (.v 3) (.c .one), .lea (A (.v 2)) .s64 (.v 4) (.v 3) (.c .one),
    .prmt (A (.v 1)) (.v 2) (.v 3) (.v 4), .isetp (C) 3 .z32 .lt (.v 2) (.c .two), .isetp (C) 7 .s32 .ge (.v 2) (.v 3), .nop].all
    (issuesAt base) = true := by decide

theorem witness_AddWithCarry : [Instr.iaddCc (A (.v 4)) 0 (.v 0) (.v 2) (.c .zero), .iaddCc (A (.v 5)) 7 (.v 1) (.v 3) (.p 7),
    .iaddCc (A (.v 4)) 0 (.v 0) (.v 2) (.p 0)].all (fun i => i.wf && issuesAt base i) = true := by decide

theorem witness_ShufflesExchangeAmongParticipants : [Instr.shflIdx (A (.v 1)) true 2 (some 5) (.v 2) (.v 3),
    .shflUp (A (.v 1)) true 0 (some 7) (.v 2) (.c .one), .shflDown (A (.v 1)) false 5 none (.v 2) (.s 4), .shflXor (A (.v 1)) false 1 none (.v 2) (.s 3)].all
    (fun i => i.wf && issuesAt base i) = true := by decide

theorem witness_VotesMatchesAndElections : [Instr.voteAll (C) 1 true 2, .voteAny (C) 1 false 2, .voteUni (C) 7 false 2, .ballot (A (.s 1)) true 2,
    .matchAny (A (.v 9)) false (.v 3), .matchAll (A (.v 9)) true 3 (.v 4), .matchAll (A (.v 9)) false 7 (.v 4), .elect G (.p 1), .elect G (.s 1)].all
    (fun i => i.wf && issuesAt base i) = true := by decide

theorem witness_ReductionsOverAGroup : [GredOp.addS, .addZ, .and, .or, .addF].all (fun op => issuesAt base (.gred (A (.s 4)) op (.v 0))) = true := by
  decide

/-- Words of each form, exact and so free of exceptions; the last with all lanes of a guard off. -/
theorem witness_FloatingPointWordsRetire : [Instr.fadd (A (.v 1)) .f32 none (.v 2) (.c .half), .fsub (A (.v 2)) .f64 (some .ru) (.v 4) (.v 6),
    .fmul (A (.v 2)) .f64 none (.v 2) (.v 4), .ffma (A (.v 6)) .f32 (some .rz) (.v 3) (.v 4) (.v 5), .fmnmx (A (.v 1)) .f32 true (.v 2) (.v 3),
    .fsetp (C) 1 .f32 .gt (.v 2) (.v 4), .fdot2 (A (.v 1)) .bf16 (.v 2) (.v 3) (.v 4), .sfnRcp (A (.v 1)) (.c .half), .sfnSqrt (A (.v 1)) (.v 2),
    .hadd2 (A (.v 1)) .f16 (.v 2) (.v 3), .hmul2 (A (.v 1)) .bf16 (.v 2) (.v 3), .hfma2 (A (.v 1)) .f16 (.v 2) (.v 3) (.v 4),
    .cvt (A (.v 1)) .bf16 .f32 none (.v 0), .cvt (A (.v 2)) .f64 .s32 (some .rd) (.v 1), .fadd { A (.v 1) with g := P0 } .f32 none (.v 2) (.v 3)].all
    (fun i => issuesAt (grp (fun g => { g with fmode := 0x1F }) base) i fun x o => (List.range 32).all fun l =>
      match floatResult i x (grp (fun g => { g with fmode := 0x1F }) base) o l with | some r => r.flags &&& x.g.trapsOn == 0 | none => false) = true ∧
    issuesAt base (.fclass (A (.v 2)) .f32 (.v 2) (.lit 0x300)) = true := by decide

/-- A float result exists in lanes beyond 31 too; division by zero traps where FMODE enables it. -/
theorem witness_FloatingPointTrapsByLane :
    let s := base |> supv |> grp fun g => { g with fmode := 0x1F }
    issuesAt s (.sfnRcp (A (.v 1)) (.v 2)) (fun x o => trapsB s x && (match floatResult (.sfnRcp (A (.v 1)) (.v 2)) x s o 3 with
      | some r => (x.pass o).getLsbD 3 && r.flags &&& x.g.trapsOn != 0
      | none => false)) = true := by decide

theorem witness_NanAndInvalidResults : [(Fp.f16, 0x7C01), (Fp.f16, 0xFFFF), (Fp.bf16, 0x7F81), (Fp.f32, 0x7F800001), (Fp.f32, 0x7FC00000),
    (Fp.f64, 0x7FF0000000000001)].all (fun p => (Fp.decode p.1 p.2).isNan) = true ∧ (Fp.decode Fp.f32 0x7F800001).isSig = true ∧
    (Fp.decode Fp.f32 0x7FC00000).isSig = false := by decide

theorem witness_SpecialFunctionCases : [0x80000001, 0xBF800000, 0xFF800000].all (fun v => v / Fp.f32.signBit % 2 == 1 &&
    !(Fp.decode Fp.f32 v).isNan && !(Fp.decodeIn Fp.f32 false v).isZero) = true := by decide

theorem witness_ConversionsSaturate : numBits .s8 ≤ numBits .z32 ∧ numBits .s8 < numBits .s16 ∧ numFmt .f16 = some Fp.f16 ∧
    numFmt .f64 = some Fp.f64 ∧ (0x7C01 < 2 ^ numBits .f16 ∧ (Fp.decode Fp.f16 0x7C01).isNan = true) ∧
    (0x7FF8000000000000 < 2 ^ numBits .f64 ∧ (Fp.decode Fp.f64 0x7FF8000000000000).isNan = true) := by decide

theorem witness_CodebookWords : -- slots 0, 15 and 16
    [0, 15].all (fun k => issuesAt (scal 1 [k] base) (.cbdec (A (.v 4)) (.v 2) (.s 1)) (fun x o =>
      x.pass o != 0 && decide (x.uni (scal 1 [k] base) o (srcIn 1 (.s 1)) = k) && !(scal 1 [k] base).bookPending x.k k)) = true ∧
    issuesAt (base |> supv |> scal 1 [16]) (.cbdec (A (.v 4)) (.v 2) (.s 1)) (fun x o =>
      x.pass o != 0 && decide (x.uni (base |> supv |> scal 1 [16]) o (srcIn 1 (.s 1)) = 16) && trapsB (base |> supv |> scal 1 [16]) x) = true ∧
    [true, false].all (fun bf => issuesAt (scal 1 [15] base) (.cbenc (A (.v 1)) bf (.v 2) (.s 1)) (fun x o =>
      x.pass o != 0 && x.g.trapsOn == 0 && !(scal 1 [15] base).bookPending x.k 15)) = true ∧
    issuesAt (base |> supv |> scal 1 [16]) (.cbenc (A (.v 1)) true (.v 2) (.s 1)) (fun x o =>
      x.pass o != 0 && trapsB (base |> supv |> scal 1 [16]) x) = true := by decide

/-! ### Control flow and traps -/

/-- Every lane of a word's entry jumps somewhere that is, or is not, a bad target. -/
def jumpsB (s : State) (i : Instr) (want : Bool) (x : Site) (o : Op) : Bool :=
  (lanesOf (x.pass o)).all fun l => match branchOf i x s o l with | some j => j.bad == want | none => false

theorem witness_BranchesMoveTheirLanes :
    let s := base |> vals 2 (List.replicate 32 0x20000) |> scal 2 [0x80303]
    [Instr.bra G 8 7, .bra P0 8 7, .brx (C) (.v 2) 7, .call G (.s 4) 16 96, .ret G (.s 2)].all (fun i =>
      issuesAt s i fun x o => jumpsB s i false x o && x.g.supv x.e == false) = true := by decide

/-- Slot 5, the first that no line has; a byte offset; the first supervisor address; a slot of a cached line without TGT. -/
theorem witness_BadTargetsTrap :
    let s (v : Nat) := base |> supv |> vals 2 (List.replicate 32 (v % 2 ^ 32)) |> vals 3 (List.replicate 32 (v / 2 ^ 32))
    [0x20005, 0x20008, supvNat, 0x10001].all (fun v => issuesAt (s v) (.brx (C) (.v 2) 7) fun x o =>
      trapsB (s v) x && jumpsB (s v) (.brx (C) (.v 2) 7) true x o && x.pass o != 0) = true := by decide

def other (s : State) (f : Entry → Entry) : State := -- lane 31 split off as an entry of its own
  s.modGroup bootGroup fun g => { g with entries := g.entries.flatMap fun e =>
    [{ e with mask := 0x7FFFFFFF }, f { e with mask := 0x80000000, frag := 31 }] }

theorem witness_ConvAndExitShapeTheFrontier :
    issuesAt (other base fun e => { e with pc := 0x10001 }) .conv (fun x _ => tidyB x && x.g.entries.any fun f => decide (f ≠ x.e) && f.st != .conv) = true ∧
    issuesAt (other base fun e => { e with st := .conv }) .conv (fun x _ => tidyB x && x.g.entries.all fun f =>
      decide (f = x.e) || (f.st == .conv && f.pc == x.e.pc)) = true ∧
    (let s := other (supv base) fun e => { e with st := .conv, pc := 0x10001 }
     issuesAt s .conv (fun x _ => trapsB s x && (s.openAccs x.k x.g.live).isEmpty &&
      x.g.entries.all (fun f => decide (f = x.e) || f.st == .conv) &&
      x.g.entries.any fun f => decide (f ≠ x.e) && f.pc != x.e.pc) = true) ∧
    issuesAt (other base fun e => { e with st := .conv }) (.exit G) (fun x o => tidyB x && x.g.live &&& ~~~x.pass o != 0) = true ∧
    issuesAt base (.exit G) (fun x o => tidyB x && x.g.live &&& ~~~x.pass o == 0 && (x.g.replayView x.e).q.all fun kv => !kv.2.lent) = true := by
  decide

theorem witness_TrapsSaveAndVector :
    [Instr.trap P0 (.lit 5), .trap G (.lit 5), .bkpt G].all (fun i => issuesAt (first 3 (supv base)) i fun x o =>
      trapsB (first 3 (supv base)) x && x.pass o != 0) = true ∧
    [Instr.tret, .tretSkip].all (fun i => arrivesAt (supv base) i fun x o => trapsB (supv base) x && o.use.mode == some true) = true ∧
    arrivesAt (supv base |> grp fun g => { g with bud := 96 }) (.iadd (A (.v 96)) .s32 (.v 2) (.v 3)) (fun x o =>
      trapsB (supv base |> grp fun g => { g with bud := 96 }) x && o.use.overBudget x.g.bud) = true := by decide

/-- A group whose one entry runs the routine. -/
def inside : State := first 1 (supv base) |> grp fun g => { g with
  frame := { busy := true, pc := 0x10000, rpc := 0x10001, prio := 128 }, entries := g.entries.map fun e => { e with pc := supvBase } }

theorem witness_TrapsInSupervisorModeKill :
    let at_ (x : Site) : Bool := x.g.supv x.e && !x.l.dbg && tidyB x && (inside.openAccs x.k x.e.mask).isEmpty
    [Instr.exit G, .migrateHome, .join G 1].all (fun i => arrivesAt inside i fun x o => at_ x && o.use.mode == some false) = true ∧
    arrivesAt inside (.mov { A (.v 1) with g := P0 } .b32 (.v 2)) (fun x o => at_ x && !o.use.overBudget x.g.bud && o.use.mode == none &&
      x.pass o != 0 && x.pass o != x.e.mask && !inside.booksOut x.k x.e.mask && (o.use.awaits x.g (x.pass o)).isNone && (o.use.misses x.g (x.pass o)).isEmpty &&
      (inside.operandStage o.use (x.ctx inside o) x.l.desc.deadtrap).2.isEmpty) = true ∧
    [Instr.trap G (.lit 1), .bkpt G].all (fun i => issuesAt inside i fun x o => at_ x && x.pass o != 0) = true := by decide

/-- RPC in and beyond the slots of a line; PC in the last slot and before it, precise and not. -/
theorem witness_ReturnsFromTheRoutine :
    [0x10001, 0x10004, 0x10005, supvNat].all (fun pc => [Instr.tret, .tretSkip].all fun i =>
      issuesAt (inside |> grp fun g => { g with frame := { g.frame with rpc := BitVec.ofNat 57 pc } }) i fun x _ => x.g.frame.busy) = true ∧
    [0x10003, 0x10004].all (fun pc => [false, true].all fun imp =>
      issuesAt (inside |> grp fun g => { g with frame := { g.frame with pc := BitVec.ofNat 57 pc, impr := imp } }) .tretSkip) = true := by decide

/-- With and without another group on the ready list. -/
theorem witness_YieldGivesWay :
    let s2 := base.setGroup (bootGroup + 1) { bootLaunchState.newGroup 0 0 with queued := some 0 }
    issuesAt base (.yield G) (fun _ _ => base.groups.all fun kg => kg.2.queued.isNone) = true ∧
    issuesAt s2 (.yield G) (fun x o => x.pass o != 0 && (s2.groups.any fun kg => kg.2.core == x.g.core && kg.2.sect == x.g.sect && kg.2.queued.isSome) &&
      x.g.res != .ended && x.g.arrivals.isEmpty && x.g.move.isNone && !x.g.cfault &&
      (nextPc x.e.pc :: x.g.entries.map Entry.pc).all fun pc => !(s2.wordAt x.g x.k pc).any readsLatch) = true := by decide

/-! ### Memory -/

/-- The die scratchpad of a launch of 128 bytes in q5. -/
def dspBase : State := base |> desc (fun d => { d with ds := 128 }) |> reg 5 { kind := 11, len := 128, grain := 3 }

/-- Loads of the first and of the last bytes of the scratchpad, and of the last of the die scratchpad. -/
theorem witness_LocalLoadsReadTheirBytes :
    [(LdTy.b32, 4092), (.z8, 4095), (.b128, 0)].all (fun p => issuesAt base (.ld (C) p.1 (some (.v 4)) (M 15 (.c .zero) p.2)) fun x o =>
      reachesB base x o (M 15 (.c .zero) p.2) .load (ldBytes p.1) && (LSpace.ofKind (x.region base o (M 15 (.c .zero) p.2)).kind).isSome) = true ∧
    [0, 15].all (fun k => issuesAt (scal 1 [k] base) (.cbld (C) (M 15 (.c .zero) 4064) (.s 1)) fun x o =>
      reachesB (scal 1 [k] base) x o (M 15 (.c .zero) 4064) .load 32 && x.pass o != 0 && x.g.res != .guest &&
        decide (x.uni (scal 1 [k] base) o (srcIn 1 (.s 1)) ≤ 15) && !(scal 1 [k] base).bookPending x.k k) = true ∧
    issuesAt dspBase (.ld (C) .b32 (some (.v 4)) (M 5 (.c .zero) 124)) (fun x o => reachesB dspBase x o (M 5 (.c .zero) 124) .load 4 &&
      decide (LSpace.ofKind (x.region dspBase o (M 5 (.c .zero) 124)).kind = some .dsp) && x.pass o != 0) = true ∧
    issuesAt dspBase (.cbld (C) (M 5 (.c .zero) 96) (.lit 15)) (fun x o => reachesB dspBase x o (M 5 (.c .zero) 96) .load 32 && x.pass o != 0 &&
      decide (LSpace.ofKind (x.region dspBase o (M 5 (.c .zero) 96)).kind = some .dsp) && !dspBase.bookPending x.k 15 && x.g.res != .guest) = true ∧
    [Instr.prefL1 (C) (M 15 (.c .zero) 4095), .prefL2 (C) (M 15 (.c .zero) 4095)].all (fun i => issuesAt base i fun x o =>
      reachesB base x o (M 15 (.c .zero) 4095) .load 1) = true := by decide

theorem witness_LocalStoresWriteTheirBytes : [(StTy.b32, 4092), (.z8, 4095), (.b128, 0)].all (fun p =>
    issuesAt base (.st (C) p.1 (M 15 (.c .zero) p.2) (.v 4)) fun x o => reachesB base x o (M 15 (.c .zero) p.2) .store (stBytes p.1)) = true := by
  decide

/-- Every atomic word at the last place of the scratchpad. -/
theorem witness_LocalAtomicsActInLaneOrder :
    let m := M 15 (.c .zero) 4088
    [Instr.atomAdd (C) .acq .system false (some (.v 1)) m (.v 3), .atomMin (C) .relaxed .team false (some (.v 1)) m (.v 3),
      .atomMax (C) .relaxed .team true (some (.v 1)) m (.v 3), .atomAnd (C) .relaxed .team true (some (.v 2)) m (.v 4),
      .atomOr (C) .relaxed .team true (some (.v 2)) m (.v 4), .atomXor (C) .relaxed .team false none m (.v 4),
      .atomExch (C) .relaxed .team false (some (.v 1)) m (.lit 9), .atomAddf (C) .relaxed .team (some (.v 1)) m (.c .half),
      .redAdd (C) .rel .device true m (.v 4), .redMin (C) .relaxed .device false m (.v 4), .redMax (C) .relaxed .device true m (.v 4),
      .redAnd (C) .relaxed .device false m (.v 4), .redOr (C) .relaxed .device false m (.v 4), .redXor (C) .relaxed .device false m (.v 4),
      .redAddf (C) .relaxed .device m (.v 4), .cas (C) .relaxed .device false (some (.v 1)) m (.v 3) (.v 4)].all (fun i =>
        match atomicOf i with
        | some a => issuesAt base i fun x o => reachesB base x o a.mem .atomic (if a.wide then 8 else 4) && !base.isDet x.k
        | none => false) = true ∧
    issuesAt dspBase (.atomAdd (C) .relaxed .die false (some (.v 1)) (M 5 (.c .zero) 124) (.v 3)) (fun x o =>
      reachesB dspBase x o (M 5 (.c .zero) 124) .atomic 4 && !dspBase.isDet x.k && x.pass o != 0) = true := by decide

/-- The three policies at an EMPTY register, a store through S, and a misaligned access in bounds. -/
theorem witness_RefusedAccessesFollowThePolicy :
    [0, 1, 2, 3].all (fun b => let s := base |> supv |> desc (fun d => { d with bpol := b }) |> reg 2 (heldReg 2)
      issuesAt s (.ld (C) .b32 (some (.v 2)) (M 3 (.c .zero) 0)) (fun x o => trapsB s x && x.pass o != 0 &&
        (x.region s o (M 3 (.c .zero) 0)).kind == 0 && x.l.desc.bpol == b) &&
      issuesAt s (.st (C) .b32 (M 2 (.c .zero) 0) (.v 1)) (fun x o => trapsB s x && x.pass o != 0 &&
        !permits (x.region s o (M 2 (.c .zero) 0)).kind .store)) = true ∧
    [(1 : BitVec 22), 3, 4090].all (fun a => issuesAt (supv base) (.ld (C) .b32 (some (.v 2)) (M 15 (.c .zero) a)) fun x o =>
      trapsB (supv base) x && reachesB (supv base) x o (M 15 (.c .zero) a) .load 1 &&
        decide (x.ea (supv base) o (M 15 (.c .zero) a) 0 + 4 ≤ 4096) && decide (x.ea (supv base) o (M 15 (.c .zero) a) 0 % 4 ≠ 0)) = true := by decide

/-- The scalars, the last byte below the vector registers, and the last register of the record. -/
theorem witness_SupervisorAccessesReachTheRecord :
    [0x200, 0xBFC, 0xC00 + 128 * 255 + 124].all (fun a =>
      issuesAt inside (.ldSupv (C) .b32 (some (.v 2)) (.c .zero) (BitVec.ofNat 22 a)) (fun x _ =>
        decide (a + 4 ≤ 0xC00 + 128 * x.g.bud) && (x.g.replayView x.e).pend.isEmpty && !x.g.absent 255 && !x.g.filling 255) &&
      issuesAt inside (.stSupv (C) .b32 (.c .zero) (BitVec.ofNat 22 a) (.v 2)) (fun x o =>
        decide (a + 4 ≤ 0xC00 + 128 * x.g.bud) && (x.g.replayView x.e).pend.isEmpty &&
        match (lanesOf (x.pass o)).foldl (fun q i => q.bind fun s1 =>
          s1.supvWrite x.k a 4 (x.rd inside o 1 (.v 2) i 1 % 2 ^ 32)) (some inside) with
        | some t => (t.group x.k).isSome
        | none => false)) = true ∧ (inside.group bootGroup).isSome = true ∧
    (inside.supvWrite bootGroup (0x200 + 4 * 127) 4 0xFFFFFFFF).isSome = true := by decide

/-! ### Tensor words, crews and the gang saw -/

def fragmentB (s : State) (x : Site) (o : Op) (ty : FragTy) (d : Nat) (m : MemOp) (lay sk : Nat) (sp : LSpace) (kk n mem : Nat) : Bool :=
  let r := x.region s o m
  let ea := x.ea s o m (lowLane (x.pass o))
  decide (fragShape sk = some (kk, n, mem)) && !layBad lay 128 kk (fragBits ty) && decide (layEw lay = ewCode (fragBits ty)) &&
    decide (d + fragRegs kk (fragBits ty) n ≤ x.g.bud) && !r.pend && !r.lent && decide (LSpace.ofKind r.kind = some sp) && decide (sp = .scr ∨ sp = .clu) &&
    decide (0 ≤ ea) && (fragAll ea.toNat lay (fragBits ty) kk n mem).all fun a =>
      decide (r.base.toNat ≤ a.1 ∧ a.1 + (if fragBits ty = 16 then 2 else 1) ≤ r.base.toNat + r.len.toNat)

theorem fragmentB_sound {s : State} {x : Site} {o : Op} {ty : FragTy} {d : Nat} {m : MemOp} {lay sk : Nat} {sp : LSpace} {kk n mem : Nat}
    (h : fragmentB s x o ty d m lay sk sp kk n mem = true) : x.fragment s o ty d m lay sk sp kk n mem := by
  simp only [fragmentB, Bool.and_eq_true, Bool.not_eq_true', decide_eq_true_eq, List.all_eq_true] at h
  obtain ⟨⟨⟨⟨⟨⟨⟨⟨⟨a, b⟩, c⟩, e⟩, f⟩, f2⟩, g⟩, i⟩, j⟩, k⟩ := h
  exact ⟨a, ⟨b, c⟩, e, ⟨f, f2, g, i⟩, j, k⟩

/-- The last member's fragment of 4-bit codes, in the last registers and the last bytes of the scratchpad. -/
theorem witness_FragmentsLoadAndStore :
    let s := scal 3 [0x100, 0x7C] base
    [Instr.ldf G .c4 254 (M 15 (.c .zero) 2048) 3 (.s 4), .stf G .c4 254 (M 15 (.c .zero) 2048) 3 (.s 4)].all (fun i =>
      i.wf && issuesAt s i fun x o => x.pass o != 0 && decide (x.uni s o (srcIn 1 (.s 3)) = 0x100) && decide (x.uni s o (srcIn 2 (.s 4)) = 0x7C) &&
        fragmentB s x o .c4 254 (M 15 (.c .zero) 2048) 0x100 0x7C .scr 32 8 7 &&
        !s.tagsDiffer x.k .scr (laySpan 0x100) (fragBytes 2048 0x100 4 32 8 7)) = true := by decide

theorem witness_TheLayoutWordPlacesElements : layBad 0x100 128 32 4 = false ∧ layBad 0x80A 128 64 8 = false ∧ laySpan 0x80A ≠ 0 ∧
    layBad (0x800 + 2 ^ 7 + 2 ^ 3) 128 128 8 = false ∧ layT (0x800 + 2 ^ 7 + 2 ^ 3) = true := by decide

theorem drain_fits (i : Nat) (hi : i < 16384) : 0 ≤ drainPlace 0 0x808 8 i ∧ drainPlace 0 0x808 8 i + 8 / 8 ≤ 0 + 16400 := by
  simp [drainPlace, layPlace, layT, layPitch, laySpan, fld, Nat.mod_one]; omega

/-- A scratchpad that an INT8 tile and a barrier object behind it fill. -/
def drainBase : State := base |> desc (fun d => { d with ss := 16400 }) |> reg 15 { kind := 9, len := 16400, grain := 3 } |> scal 1 [63, 0x808, 16384]

/-- Tile 63; the last columns and rows of a tile in the last registers; the byte bounds of ACC.DRAIN are those of `drain_fits`. -/
theorem witness_AccumulatorWords :
    let s := base |> scal 1 [63, 96 + 120 * 2 ^ 8 + 8 * 2 ^ 16]
    let free (s : State) (x : Site) : Bool := !s.isGuest x.k x.g && !s.tileBusy (s.homeCore x.k) 63
    (Instr.accZero G (.s 1)).wf && issuesAt s (.accZero G (.s 1)) (fun x o => x.pass o != 0 && decide (x.uni s o (srcIn 0 (.s 1)) = 63) && free s x) &&
    [Instr.accLd G .f32 248 (.s 1) (.s 2), .accSt G .f32 248 (.s 1) (.s 2)].all (fun i => i.wf && issuesAt s i fun x o =>
      x.pass o != 0 && decide (accShape .f32 248 x.g.bud (96 + 120 * 2 ^ 8 + 8 * 2 ^ 16) = .inl (96, 120, 8)) && free s x) &&
    (Instr.accDrain G .s8 (M 15 (.c .zero) 0) (.s 1) (.s 2) (.s 3)).wf &&
    issuesAt drainBase (.accDrain G .s8 (M 15 (.c .zero) 0) (.s 1) (.s 2) (.s 3)) (fun x o =>
      let r := x.region drainBase o (M 15 (.c .zero) 0)
      x.pass o != 0 && decide (x.uni drainBase o (srcIn 1 (.s 1)) = 63) && decide (x.uni drainBase o (srcIn 2 (.s 2)) = 0x808) &&
        decide (x.uni drainBase o (srcIn 3 (.s 3)) = 16384) && !layBad 0x808 128 128 8 && decide (layEw 0x808 = ewCode 8) && !r.pend && !r.lent && r.kind == 9 &&
        r.base == 0 && decide (r.len.toNat = 16400) && decide (x.ea drainBase o (M 15 (.c .zero) 0) 0 = 0) &&
        decide (16384 + 16 ≤ drainBase.spaceLen x.k .scr) && drainBase.haulRoom (drainBase.homeCore x.k) && free drainBase x) = true := by decide

/-- A crew of two: groups 0 and 1, both active. -/
def crewDesc : LaunchDesc := { bootDesc with gd := 2, crewN := 2, crewC := 1 }
def crewLaunch : Launch := { bootLaunchState with desc := crewDesc, g := 2, c := 1 }
def mate : Group := { crewLaunch.newGroup 0 1 with started := true, res := .active, active := true }
def crew : State := (base.setLaunch bootLaunch crewLaunch).setGroup (bootGroup + 1) mate
/-- An arrival at MMA or FTILE. -/
def at_ (block : Option Nat) : Arrival := { pc := 0x10000, prio := 128, g := G, block := block, sd := 8 }
def mateAt (a : Arrival) (s : State) : State := s.modGroup (bootGroup + 1) fun g => { g with arrivals := [a] }

/-- A group of no crew; the first and the last member of a crew to arrive; answers of the yard with an ordinal and at its end. -/
theorem witness_TheYardAnswersInOrder :
    issuesAt base (.ftile G 8) (fun x o => x.pass o != 0 && (x.l.crewOf (groupNo x.k)).isNone) &&
    issuesAt crew (.ftile G 8) (fun x o => x.pass o != 0 && decide (x.l.crewOf (groupNo x.k) = some (0, 0)) && !crew.crewLost x.l (teamOf x.k) 0 &&
      x.g.arrivals.isEmpty && decide (1 ∈ x.l.members 0) && ((crew.group (bootGroup + 1)).map fun h => h.arrivals.isEmpty) == some true) &&
    issuesAt (mateAt (at_ none) crew) (.ftile G 8) (fun x _ => ((mateAt (at_ none) crew).team (teamOf x.k)).any (fun m => m.st == .running) && decide (((mateAt (at_ none) crew).modGroup x.k fun h =>
        { h with arrivals := h.arrivals ++ [at_ none] }).assembled x.l (teamOf x.k) 0 false = some [(bootGroup, at_ none), (bootGroup + 1, at_ none)]) &&
      [bootGroup, bootGroup + 1].all fun k => match (mateAt (at_ none) crew).group k with
        | some h => (h.arrivalEntry (at_ none)).any fun e => e.1.mask != 0
        | none => false) &&
    [0, 1].all (fun y => let s := base.setLaunch bootLaunch { bootLaunchState with asks := [[(bootGroup, 8)]], yard := y }
      decide ((s.launch bootLaunch).bind (fun l => l.asks.head?) = some [(bootGroup, (8 : BitVec 7))]) && (s.team bootTeam).isSome && (s.group bootGroup).isSome) &&
    !bootLaunchState.desc.grouped = true := by decide

theorem witness_CrewsMeetAndTheSawCaptures :
    let s := scal 5 [4032] crew
    let c := (mateAt (at_ (some 0)) crew) |> grp fun g => { g with arrivals := [at_ (some 0)] }
    let w := (crew |> grp fun g => { g with arrivals := [at_ (some 0)] }).modGroup (bootGroup + 1) fun g => { g with active := false, res := .pending }
    issuesAt s (.mma G 15 (.s 5)) (fun x o => x.pass o != 0 && decide ((x.g.replayView x.e).reg 15 = x.g.reg 15) && (x.g.reg 15).kind == 9 &&
      !(x.g.reg 15).pend && !(x.g.reg 15).lent && decide ((x.g.reg 15).base.toNat + x.rd s o 0 (.s 5) 0 + 64 = (x.g.reg 15).base.toNat + (x.g.reg 15).len.toNat) &&
      decide (x.l.crewOf (groupNo x.k) = some (0, 0)) && !s.isGuest x.k x.g && !s.crewLost x.l (teamOf x.k) 0 && x.g.arrivals.isEmpty && mate.arrivals.isEmpty) &&
    decide (c.assembled crewLaunch bootTeam 0 true = some [(bootGroup, at_ (some 0)), (bootGroup + 1, at_ (some 0))]) &&
    ((c.team bootTeam).map Team.st == some .running && (c.launch bootLaunch).map Launch.st == some .running) &&
    (!(c.core 0).sawHeld && !(c.core 0).retired && (c.core 0).saw.isEmpty && !c.dev.shut) &&
    (let b := readBlock (c.localLoad bootGroup 0 .scr 0 64)
     decide (mmaShape b.afmt b.bfmt = some (32, 15)) && !blockBad b 32 2 256 crewDesc &&
       (c.tagMembers [bootGroup, bootGroup + 1] 32 b.afmt b.asrc b.aoff b.alay).isEmpty &&
       (c.tagMembers [bootGroup, bootGroup + 1] 32 b.bfmt b.bsrc b.boff b.blay).isEmpty) &&
    [bootGroup, bootGroup + 1].all (fun k => match c.group k with
      | some g => ((g.arrivalEntry (at_ (some 0))).any fun e => e.1.mask != 0) && g.pend.isEmpty && g.step.isNone && g.lines.isEmpty &&
        ((readBlock (c.localLoad bootGroup 0 .scr 0 64)).regs 32 2).all fun n => !g.absent n && !g.filling n
      | none => false) &&
    (let v := w.modCore 0 fun c => { c with clock := 64 }
     ((v.group bootGroup).any fun g => g.active && g.arrivals.any fun a => decide (64 ≤ ((v.core 0).clock - a.at_).toNat)) &&
       ((v.group (bootGroup + 1)).any fun h => !h.active) && (crewLaunch.crewOf 0).isSome) = true := by decide

/-- Operations in FP8 and in INT8, with and without ACC. -/
def op1 (f : Nat) (acc : Bool) : MmaOp :=
  { team := bootTeam, members := [bootGroup], block := 0, afmt := f, bfmt := f, a := [], b := [], abook := [], bbook := [], tile := 63, accum := acc
    chk := true, inj := false, mboff := 0, mbclu := false, nomb := true }

theorem witness_TheSawCompletes :
    let s := base.modCore 0 fun c => { c with saw := [op1 0 false] }
    ((s.core 0).saw == [op1 0 false] && !(s.core 0).sawHeld && (s.core 0).hauls.isEmpty && (s.team (teamOf bootGroup)).map Team.core == some 0) &&
    (op1 3 false).isInt && (op1 4 true).isInt && !(op1 0 false).isInt = true := by decide

/-! ### Special registers -/

theorem witness_SpecialRegistersAndMeters :
    let d := base |> supv |> desc (fun d => { d with det := true })
    [SReg.lane, .time, .fmode, .faddr].all (fun r => issuesAt base (.rdsr (A (.v 2)) r) fun x _ => !sregNondet r || !base.isDet x.k) &&
    issuesAt d (.rdsr (A (.s 2)) .lane) && [SReg.clock, .time, .core, .die, .sect].all (fun r => issuesAt d (.rdsr (A (.s 2)) r) fun x o =>
      sregNondet r && d.isDet x.k && x.pass o != 0 && trapsB d x) &&
    arrivesAt base .nop (fun _ _ => true) && [WReg.fmode, .status, .xlim].all (fun r => issuesAt base (.wrsr (C) r (.lit 0xFFFFFFFF)) fun x o => x.pass o != 0) &&
    [Instr.mtrVf G 2, .mtrLaunch G 2, .mtrTeam G 2, .mtrQuota G 2].all (fun i =>
      issuesAt base i (fun x o => !x.l.desc.det && x.pass o != 0) && issuesAt d i fun x o => x.l.desc.det && x.pass o != 0 && trapsB d x) = true := by decide

/-! ### Borrowing -/

/-- A claim by its context, kind and .TRY. -/
def claimMsg (ctx : Nat) (k : HeldKind) (try_ : Bool) : ClaimMsg :=
  { base := 0x40000, len := 256, kind := k, try_ := try_, ctx := ctx, vf := 0, core := 0, q := 4, peer := none, importIdx := none }
def claimE (ctx : Nat) (k : HeldKind) (st : ClaimSt) : ClaimEntry :=
  { st := st, base := 0x40000, len := 256, kind := k, ctx := ctx, vf := 0, core := 0, q := 4 }
def claims (cs : SMap ClaimEntry) (s : State := base) : State := s.modDie 0 fun d => { d with claims := cs, claimSeq := 9 }

/-- Held borrows of one grain and of the whole page, waiting and not; open ones. -/
theorem witness_BorClaimsOrGrants :
    let fine (s : State) (x : Site) (o : Op) (cls : BitVec 2) (n : Nat) : Bool :=
      x.pass o != 0 && (x.g.reg 4).kind == 0 && !(x.g.reg 4).pend && decide (x.uni s o (srcIn 0 (.s 2) 2 .z64) = 0x40000) && canonical 0x40000 &&
        decide (x.rd s o 1 (.s 5) (lowLane (x.pass o)) = n) && !s.isDet x.k && decide (s.lookup x.g.core (vfOf x.k) 0x40000 = some (.ok (page cls) 0)) &&
        !isHost (page cls).home && decide (n % grainBytes 0 = 0) && decide (0x40000 + n ≤ (page cls).va + (page cls).size) &&
        !isPeer (page cls).home && !isPeer ((page cls).at 0x40000) && !s.returning x.g.core (vfOf x.k) 0x40000 n && decide (x.g.wakes.length < 8)
    [32, 65536].all (fun n =>
      let s (cls : BitVec 2) := base |> tlb [page cls] |> scal 2 [0x40000, 0] |> scal 5 [n]
      [Instr.borX (C) 1 4 2 (.s 5), .borS (C) 1 4 2 (.s 5), .borA (C) 1 4 2 (.s 5), .borXTry (C) 1 4 2 (.s 5), .borSTry (C) 1 4 2 (.s 5),
        .borATry (C) 1 4 2 (.s 5)].all (fun i => issuesAt (s 0) i fun x o => fine (s 0) x o 0 n) &&
      [Instr.borO (C) 1 4 2 (.s 5), .borOTry (C) 1 4 2 (.s 5)].all (fun i => issuesAt (s 1) i fun x o => fine (s 1) x o 1 n)) = true := by decide

/-- A table with all 65,536 entries taken. -/
theorem fresh_full (e : ClaimEntry) (n : Nat) : SMap.fresh ((List.range n).map fun i => (i, e)) 0 = n := by
  unfold SMap.fresh
  induction n with
  | zero => rfl
  | succ n ih => simp [List.range_succ, List.foldl_append, ih]

theorem full_conflicts : (65536 : Nat) ≤ SMap.fresh ((List.range 65536).map fun i => (i, claimE 7 .x .held)) 0 ∧
    ∃ c ∈ (List.range 65536).map fun i => (i, claimE 7 .x .held), c.2.conflicts 0x40000 256 .s 9 = true ∧ c.2.ctx ≠ bootGroup :=
  ⟨Nat.le_of_eq (fresh_full _ _).symm, (0, claimE 7 .x .held), List.mem_map.2 ⟨0, List.mem_range.2 (by decide), rfl⟩, by decide, by decide⟩

/-- An empty table, one's own conflict, another's with and without .TRY; releases with the generation and with another; waiting claims. -/
theorem witness_TheClaimTableDecides :
    let hits (s : State) (k : HeldKind) : Bool := (s.die 0).claims.any fun c => c.2.conflicts 0x40000 256 k (s.die 0).claimSeq
    let other := claims [(0, claimE 7 .x .held)]
    (!hits (claims []) .x && !hits (claims [(0, claimE 7 .s .held)]) .s && decide (SMap.fresh ((claims []).die 0).claims 0 < 65536)) &&
    (hits (claims [(0, claimE bootGroup .x .held)]) .x && (claims [(0, claimE bootGroup .x .held)]).dies.all fun d => d.2.claims.all fun c => c.2.ctx == bootGroup && c.2.st == .held) &&
    (hits other .x && hits other .s && [true, false].all (fun t => (claimMsg bootGroup .x t).peer.isNone)) &&
    (let s := claims [(0, claimE 7 .x .held), (1, { claimE 8 .s .wait with age := 10000000, ctx := bootGroup })]
     decide (SMap.find (s.die 0).claims 0 = some (claimE 7 .x .held)) && decide ((Store.rd (s.die 0).gens 0).toNat = 0) &&
       ((s.die 0).claims.any fun c => c.2.st == .wait && c.2.ctx == bootGroup && c.2.q == 4 && c.2.peer.isNone) &&
       (s.launch (launchOf bootGroup)).any (fun l => l.desc.btime == 0)) &&
    (let s := base.setLaunch bootLaunch { bootLaunchState with st := .killed 0x38 false }
     (s.launch bootLaunch).map Launch.st == some (.killed 0x38 false) && s.pending.isEmpty) = true := by decide

/-- A BOR that waits: its record, wake record and BLOCKED entry. -/
def waiting (code : BitVec 4) (w : Wake) (g : Group) : Group :=
  { g with wakes := [{ w with code := code, frag := 0 }], entries := g.entries.map fun e => { e with st := .blocked } }
def bored (bpol : BitVec 2) : State := base |> desc (fun d => { d with bpol := bpol }) |> grp fun g => { waiting 4 { code := 4, frag := 0, arg := 4 } g with
  bors := [(4, { region := heldReg 1, sd := 1, try_ := false, op := 1 })] }

theorem witness_BorAnswersAtTheCore :
    [0, 1].all (fun b => ((bored b).group bootGroup).any fun g => (SMap.find g.bors 4).isSome && g.cancelled.isEmpty &&
      decide ((g.wakes.filter fun w => w.code == 4 && w.arg.toNat == 4).length = 1) && g.issuing.isNone && (g.entry 0).any (fun e => g.supv e == false) &&
      ((bored b).launch (launchOf bootGroup)).any fun l => l.desc.bpol == b && l.st == .running) &&
    ((base |> grp fun g => { g with cancelled := [4 + 16 * 3] }).group bootGroup).any (fun g => g.cancelled.contains (4 + 16 * ((0x30001 : BitVec 24) >>> 16 &&& 7).toNat)) &&
    !(0x30001 : BitVec 24).getLsbD 23 && [1, 2].all (fun n =>
      let r : Return := { grp := bootGroup, base := 0, len := 32, kind := 1, handle := 0x30001, wbs := n }
      decide (SMap.find ((base.modCore 0 fun c => { c with rets := [(5, r)] }).core 0).rets 5 = some r) && r.kind != 3) &&
    (let y : L1Line := { line := 2, vf := 0, grain := 0, cls := 1, dirty := 1 }
     decide ((((base.modCore 0 fun c => { c with l1 := [y] }).core 0).l1.find? fun z => z.line == 2 && z.cls == 1 && z.dirty != 0) = some y) && !isPeer (2 * 512) && !isHost (2 * 512)) = true := by decide

theorem witness_RegionRegistersAreDerivedAndSet :
    let s := base |> reg 5 (heldReg 1) |> scal 2 [0xFE0, 32]
    let e := base |> scal 2 [0xFE0, 32]
    [Instr.rebor (C) 4 5 (.s 2) (.s 3), .reborS (C) 4 5 (.s 2) (.s 3)].all (fun i => issuesAt s i fun x o => x.pass o != 0 &&
      decide ((x.ctx s o).g.reg 5 = heldReg 1) && ((x.ctx s o).g.reg 4).kind == 0 && decide (x.uni s o (srcIn 0 (.s 2)) = 0xFE0) &&
      decide (x.uni s o (srcIn 1 (.s 3)) = 32) && decide (0xFE0 + 32 = (heldReg 1).len.toNat) && decide (0xFE0 % grainBytes 0 = 0)) &&
    issuesAt e (.qset (C) .scr 4 (.s 2) (.s 3)) (fun x o => x.pass o != 0 && decide (LSpace.ofKind (localKindCode .scr) = some .scr) &&
      ((x.ctx e o).g.reg 4).kind == 0 && !((x.ctx e o).g.reg 4).pend && !e.isGuest x.k x.g && decide (0xFE0 + 32 = e.spaceLen x.k .scr)) &&
    [4, 15].all (fun q => issuesAt base (.qsetEmpty G q) fun x o => x.pass o != 0 && (((x.ctx base o).g.reg q.toNat).kind == 0 ||
      (LSpace.ofKind ((x.ctx base o).g.reg q.toNat).kind).isSome) && !((x.ctx base o).g.reg q.toNat).pend) &&
    [0, 7].all (fun sel => issuesAt s (.qinfo G 1 5 sel) fun x o => x.pass o != 0 && !((x.ctx s o).g.reg 5).pend) &&
    ((heldReg 1).kind != 0 && ({} : Region).kind == 0) = true := by decide

/-- A SPLIT over both groups of a team into another register, its JOIN before and after the parts return, and each RETB. -/
theorem witness_SplitsJoinsAndReturns :
    let s := crew |> reg 5 (heldReg 1) |> scal 2 [0, 2, 4080]
    let lent := base |> reg 5 { heldReg 1 with lent := true, ph := true }
    let lent0 := base |> reg 5 { heldReg 1 with lent := true }
    issuesAt s (.split G 4 5 (.s 2) (.s 3) (.s 4)) (fun x o => x.pass o != 0 && decide ((x.ctx s o).g.reg 5 = heldReg 1) &&
      decide (x.uni s o (srcIn 0 (.s 2)) = 0) && decide (x.uni s o (srcIn 1 (.s 3)) = 2) && decide (x.uni s o (srcIn 2 (.s 4)) = 4080) &&
      decide (0 + 2 ≤ x.l.g) && !s.isGuest x.k x.g && decide (4080 + 16 ≤ s.spaceLen x.k .scr) && decide ((heldReg 1).len.toNat % (2 * grainBytes 0) = 0) &&
      [0, 1].all fun i => (s.group (groupKey (teamOf x.k) i)).any fun h => h.active && !s.isGuest (groupKey (teamOf x.k) i) h && h.res != .ended &&
        (h.reg 4).kind == 0 && !(h.reg 4).pend) &&
    issuesAt lent (.join G 5) (fun x o => x.pass o != 0 && ((x.ctx lent o).g.reg 5).lent && !objPhase (lent.objRd (lent.objAt x.k false 0)) && ((x.ctx lent o).g.reg 5).ph) &&
    issuesAt lent0 (.join G 5) (fun x o => x.pass o != 0 && !objPhase (lent0.objRd (lent0.objAt x.k false 0)) && !((x.ctx lent0 o).g.reg 5).ph && decide (x.g.wakes.length < 8)) &&
    [{ heldReg 1 with drv := true }, openReg, { heldReg 1 with part := true }, heldReg 2, heldReg 3].all (fun r => let t := base |> reg 5 r
      issuesAt t (.retb G 5) fun x o => x.pass o != 0 && decide ((x.ctx t o).g = x.g) && SMap.sorted x.g.q && decide (x.g.reg 5 = r) && !r.pend && !r.lent && r.kind != 0 &&
        !t.handleBusy x.g.core x.k r.handle && !(t.core x.g.core).unacked.contains (x.k, r.handle) && (t.openAccs x.k x.e.mask).isEmpty && !t.booksOut x.k x.e.mask) = true := by decide

/-! ### Synchronisation -/

/-- Barriers 0 and 15, with the arrival that completes them and one before it. -/
theorem witness_NamedBarriersCountArrivals :
    let s (k n : Nat) := crew |> scal 2 [k, n]
    [0, 15].all (fun k => [0, 1, 2].all fun n =>
      [Instr.barArrive (C) (some 1) (.s 2) (.s 3), .barWait (C) (.s 2) (.s 3), .barSync (C) (.s 2) (.s 3)].all fun i => issuesAt (s k n) i fun x o =>
        x.pass o != 0 && ((s k n).team (teamOf x.k)).isSome && decide (x.rd (s k n) o 0 (.s 2) 0 = k) && decide (x.rd (s k n) o 1 (.s 3) 0 = n) &&
          decide (n ≤ x.l.g) && decide (x.g.wakes.length < 8)) &&
    (let b : Bar := {}
     decide ((b.arrive 1 2).ph ≠ b.ph) && decide ((b.arrive 2 2).ph = b.ph) && decide ((b.arrive 0 1).ph ≠ b.ph)) = true := by decide

/-- Objects in the last 16 bytes of the scratchpad; the least and the greatest count; both phases. -/
theorem witness_BarrierObjectsCountArrivalsAndBytes :
    let s (c : Nat) := scal 2 [4080, c] base
    let m := M 15 (.s 2) 0
    [1, 2 ^ 20 - 1].all (fun c => issuesAt (s c) (.mbarInit G m (.s 3)) fun x o => x.pass o != 0 && objectB (s c) x o m &&
      decide (x.rd (s c) o 1 (.s 3) 0 = c)) &&
    [0, 1].all (fun c => [Instr.mbarExpect G m (.s 3), .mbarArrive G (some 1) m, .mbarTrywait G 7 m (.s 3), .mbarWait G m (.s 3)].all fun i =>
      issuesAt (s c) i fun x o => x.pass o != 0 && objectB (s c) x o m && !(s c).isDet x.k && decide (x.g.wakes.length < 8) &&
        !objPhase ((s c).objRd ((s c).objAt x.k false 4080))) &&
    -- the completing arrival, the one before it, and one too many
    [(2, 1), (2, 0), (1, 1)].all (fun p => decide (p.1 * 2 ^ 8 + p.2 * 2 ^ 32 < 2 ^ 128)) = true := by decide

/-- A record that the device does not reach lies apart from any address. -/
theorem apart_of_unreached {s : State} {k : Nat} {g : Group} (a n : Nat) (h : g.active = true) (hp : g.recPages = []) : s.recordApart k g a n := by
  intro r p hx; simp [State.recXlat, h, hp] at hx

def sigReg : Region := { openReg with len := 0x10000 }
/-- The last place of an open page; a comparison that holds and one that does not. -/
theorem witness_FencesAndSignals :
    let s := base |> tlb [page 1] |> reg 3 sigReg |> scal 4 [5, 0]
    let m := M 3 (.c .zero) 0xFFF8
    let fine (x : Site) (o : Op) : Bool :=
      let r := x.region s o m
      x.pass o != 0 && decide (r = sigReg) && (apertureIdx r.base.toNat).isNone && decide (x.ea s o m 0 = 0x4FFF8) && decide (lowLane (x.pass o) = 0) &&
        decide (s.lookup x.g.core (vfOf x.k) 0x4FFF8 = some (.ok (page 1) 0)) && ([Need.at_, .ld].all fun n => ((page 1).deny (s.vf (vfOf x.k)) (some 1) n).isNone) &&
        !s.hostFails ((page 1).at 0x4FFF8) 8 && x.g.active && x.g.recPages.isEmpty && x.g.wakes.isEmpty &&
        !isPeer (page 1).home && !isPeer ((page 1).at 0x4FFF8) && (s.core x.g.core).l1.isEmpty && (s.waitsigs fun _ _ => true).isEmpty &&
        (s.openAccs x.k x.e.mask).isEmpty && decide (x.g.wakes.length < 8)
    [Instr.fence G .group, .fence G .system, .fenceLayout G].all (fun i => issuesAt base i fun x o => x.pass o != 0) &&
    [Instr.sigDec G .device m (.s 4), .sigAdd G .system m (.s 4), .sigSet G .device m (.s 4), .sigw G .lt .device m (.s 4), .sigw G .ge .device m (.s 4)].all
      (fun i => issuesAt s i fine) && cmpHolds .lt (s.signalAt 0x4FFF8) 5 && !cmpHolds .ge (s.signalAt 0x4FFF8) 5 = true := by decide

/-! ### Engines and remote words -/

/-- Where a command reports: any token register; an aligned object in its space. -/
def reportsB (s : State) (x : Site) (sd : Option (BitVec 7)) (mb : Nat) : Bool :=
  sd.isSome || (decide (mb % 2 ^ 31 % 16 = 0) && decide (mb % 2 ^ 31 + 16 ≤ s.spaceLen x.k (mbSpace (decide (2 ^ 31 ≤ mb)))))

theorem reportsB_sound {s : State} {x : Site} {sd : Option (BitVec 7)} {mb : Nat} (h : reportsB s x sd mb = true) : ∃ d, x.reports s sd mb d := by
  cases sd with
  | some r => exact ⟨_, rfl⟩
  | none =>
    simp only [reportsB, Option.isSome_none, Bool.false_or, Bool.and_eq_true, decide_eq_true_eq] at h
    exact ⟨_, rfl, h⟩

/-- Copies within the scratchpad of one byte and up to its end, tile and gather copies, each form with a token and with an object in
the last place; the chunks of a linear copy. -/
theorem witness_TheHaulEngineCopies :
    let scr : Region := { kind := 9, len := 4096, grain := 3 }
    [1, 2048].all (fun n => let s := base |> scal 2 [0, 2048, n, 4080]
      [Instr.copyLin (C) 1 15 15 (.s 2) (.s 3) (.s 4), .copyLinMb (C) (.s 5) 15 15 (.s 2) (.s 3) (.s 4)].all fun i => issuesAt s i fun x o =>
        x.pass o != 0 && decide ((x.ctx s o).g.reg 15 = scr) && decide (x.rd s o 2 (.s 4) 0 = n) && (scr.extent .store 0 n).isNone &&
          (scr.extent .load 2048 n).isNone && reportsB s x none 4080 && s.haulRoom x.g.core) &&
    (let s := base |> reg 6 openReg |> scal 8 [0x40040, 0, 1, 2, 3, 4080]
     [Instr.copyTileLd (C) 1 15 6 (.c .zero) 8, .copyTileSt (C) 1 15 6 (.c .zero) 8, .copyTileLdMb (C) 15 6 (.c .zero) 8, .copyTileStMb (C) 15 6 (.c .zero) 8].all
       fun i => issuesAt s i fun x o => x.pass o != 0 && decide ((x.ctx s o).g.reg 15 = scr) && decide ((x.ctx s o).g.reg 6 = openReg) &&
         [AccKind.load, .store].all (fun k => (s.boxExtent x.g.core (vfOf x.k) scr k 0 0x40040).isNone && (openReg.extent k 0x40000 0).isNone) && decide (0x40040 % 64 = 0) && reportsB s x none 4080 && s.haulRoom x.g.core) &&
    [(1, 16), (4, 16)].all (fun p => let s := base |> reg 6 openReg |> scal 8 [4096 - 4 * p.1, p.1, p.2, 64, 0, 0]
      [Instr.copyGather (C) 1 15 6 (.c .zero) (.c .zero) 8, .copyGatherMb (C) 15 6 (.c .zero) (.c .zero) 8].all fun i => issuesAt s i fun x o =>
        x.pass o != 0 && decide ((x.ctx s o).g.reg 15 = scr) && decide ((x.ctx s o).g.reg 6 = openReg) && decide (4096 - 4 * p.1 + 4 * p.1 ≤ s.spaceLen x.k .scr) &&
          (scr.extent .store 0 (p.1 * p.2)).isNone && (openReg.extent .load 0x40000 0).isNone && reportsB s x none 0 && s.haulRoom x.g.core) &&
    [512, 513].all (fun n => let h : Haul := { form := .lin, grp := bootGroup, dst := scr, src := scr, dOff := 0, sOff := 2048, len := n, done := .token bootGroup 1 }
      let s := base.modCore 0 fun c => { c with hauls := [(1, h)] }
      decide (SMap.find (s.core 0).hauls 1 = some h) && !s.dev.shut && (s.launch (launchOf h.grp)).map Launch.st == some .running &&
        (s.team (teamOf h.grp)).map Team.st == some .running && decide (h.dOff + h.len ≤ h.sOff) && (s.group bootGroup).isSome && (s.core 0).rets.isEmpty) = true := by
  decide

def dirtyLine (vf : Nat) : L1Line :=
  { line := 512, vf := vf, views := [{ line := 512, page := 0x40000, size := 65536 }], grain := 0, cls := 1, valid := 0xFFFF, dirty := 0x8000, data := [(15, 9)], team := bootTeam }

theorem witness_TheSweepEngineWritesBack :
    let s := (base |> reg 5 openReg |> scal 2 [0xFE0, 32, 4080]).modCore 0 fun c => { c with l1 := [dirtyLine 0] }
    [Instr.sweepWb G 1 5 (.s 2) (.s 3), .sweepInv G 1 5 (.s 2) (.s 3), .sweepWbinv G 1 5 (.s 2) (.s 3), .sweepWbMb G (.s 4) 5 (.s 2) (.s 3),
      .sweepInvMb G (.s 4) 5 (.s 2) (.s 3), .sweepWbinvMb G (.s 4) 5 (.s 2) (.s 3)].all (fun i => issuesAt s i fun x o => x.pass o != 0 &&
        decide ((x.ctx s o).g.reg 5 = openReg) && (apertureIdx openReg.base.toNat).isNone && decide (x.rd s o 0 (.s 2) 0 = 0xFE0) &&
        decide (x.rd s o 1 (.s 3) 0 = 32) && decide (0xFE0 + 32 = openReg.len.toNat) && reportsB s x none 4080 && decide ((s.core x.g.core).sweeps.length < 8)) &&
    [512, 513].all (fun n => [SweepOp.wb, .inv].all fun op =>
      let w : Sweep := { op := op, grp := bootGroup, base := 0x40000, len := n, done := .token bootGroup 1, snap := [0x40000 + 15] }
      let t := s.modCore 0 fun c => { c with sweeps := [(1, w)] }
      decide (SMap.find (t.core 0).sweeps 1 = some w) && decide ((t.l1Lines 0 0 0x40000 512).map Prod.fst = [dirtyLine 0]) && !isPeer (512 * 512) && !isHost (512 * 512)) = true := by decide

/-- An import of VF 0 at index 3 and a multicast group 7 of two members. -/
def peers : State := base.modVf 0 (fun v => { v with imports := [(3, { rdev := 9, rvf := 2, rwin := 5, perm := 7, st := 1, len := 0x10000 })] })
def mcs : Mcast := { vf := 0, tmo := 1000, members := [{ dev := 0, vf := 0, win := 1 }, { dev := 9, vf := 2, win := 5 }] }
def grouped : State := { peers with dev := { peers.dev with mcasts := [(7, mcs)] } }
def remReg : Region := { base := BitVec.ofNat 57 (apertureBase + 3 * 2 ^ 40), len := 0x10000, kind := 4 }

theorem witness_RemoteWordsSendTheirRequests :
    let s := peers |> reg 2 remReg
    let a := apertureBase + 3 * 2 ^ 40 + 0xFFFC
    let p : Xlat := { vf := 0, va := apertureBase + 3 * 2 ^ 40, size := 65536, home := peerBase + 3 * 2 ^ 40, cls := 1, grain := 0, rd := true, wr := true, ex := true, rd1 := false, wr1 := false, ex1 := false }
    let r := grouped |> reg 4 remReg |> scal 2 [7, 0] |> scal 12 [0xFFF0, 256, 4032]
    let f (l : Nat) := grouped |> reg 2 remReg |> scal 2 [7, l]
    [Instr.rld (C) .b32 17 8 2 (.lit 0xFFFC), .rst (C) .b32 17 2 (.lit 0xFFFC) 8].all (fun i => issuesAt s i fun x o => x.pass o != 0 &&
      decide ((x.ctx s o).g.reg 2 = remReg) && (apertureIdx remReg.base.toNat).isSome && decide (x.rd s o 0 (.lit 0xFFFC) 31 = 0xFFFC) &&
      decide (a + 4 ≤ remReg.base.toNat + remReg.len.toNat) && decide (a % 4 = 0) && decide (s.walk (vfOf x.k) a = .ok p 0) &&
      [Need.ld, .st].all fun n => (p.deny (s.vf 0) (some 1) n).isNone) &&
    issuesAt r (.rmst (C) 8 (.s 2) 15 (.s 3) 12) (fun x o => x.pass o != 0 && decide (x.rd r o 0 (.s 2) 0 = 7) && decide (SMap.find r.dev.mcasts 7 = some mcs) &&
      decide (mcs.vf = vfOf x.k) && decide (LSpace.ofKind ((x.ctx r o).g.reg 15).kind = some .scr) && (((x.ctx r o).g.reg 15).extent .load 0 256).isNone &&
      decide (4032 + 64 ≤ r.spaceLen x.k .scr)) &&
    issuesAt s (.rflush G 1 2) (fun x o => x.pass o != 0 && decide ((x.ctx s o).g.reg 2 = remReg) && decide (apertureIdx remReg.base.toNat = some 3) &&
      (SMap.find (s.vf (vfOf x.k)).imports 3).isSome && !s.rmstOut (vfOf x.k)) &&
    issuesAt (base |> reg 2 remReg) (.rflush G 1 2) (fun x _ => (SMap.find ((base |> reg 2 remReg).vf (vfOf x.k)).imports 3).isNone &&
      !(base |> reg 2 remReg).remoteWaits x.g.core x.k) &&
    [0, 2 ^ 31].all (fun l => issuesAt (f l) (.rflushMc (C) 1 (.s 2) (.s 3)) fun x o => x.pass o != 0 && decide (x.rd (f l) o 0 (.s 2) 0 = 7) &&
      decide (x.rd (f l) o 1 (.s 3) 0 = l) && decide (0 + 64 ≤ (f l).spaceLen x.k .scr) && !(f l).remoteWaits x.g.core x.k && !(f l).rmstOut (vfOf x.k)) = true := by decide

/-- A COLL of two ranks in each form and FO, with the least count; the answer that delivers it. -/
theorem witness_CollectivesReduceInOrder :
    let s := { grouped with dev := { grouped.dev with mcasts := [(7, { mcs with members := [{ dev := 0, vf := 0, win := 1 }, { dev := 9, vf := 2, win := 5 }] })] } } |> scal 4 [7, 0, 2048, 2]
    [Instr.collAllred (C) 1 .sum .f32 true 15 15 4, .collRedsc (C) 1 .min .s32 false 15 15 4, .collAllga (C) 1 .bf16 false 15 15 4,
      .collBcast (C) 1 .f32 true 15 15 4].all (fun i => issuesAt s i fun x o => x.pass o != 0 && decide (((x.ctx s o).g.sreg 4).toNat = 7) &&
        decide (((x.ctx s o).g.sreg 7).toNat = 2) && decide (SMap.find s.dev.mcasts 7 = some mcs) && decide (s.rankIn mcs (vfOf x.k) = some 0) && !s.isDet x.k &&
        decide (LSpace.ofKind ((x.ctx s o).g.reg 15).kind = some .scr) && (List.range 4).all fun f => [2, 4].all fun w =>
          (((x.ctx s o).g.reg 15).extent .store 2048 (collSizes f 2 w 2 0).2).isNone && (((x.ctx s o).g.reg 15).extent .load 0 (collSizes f 2 w 2 0).1).isNone) &&
    [0, 1].all (fun form =>
      let own : CollPart := { rank := 0, form := form, op := .sum, ty := .s32, fo := true, e := 2, data := List.replicate 8 1, failed := none }
      let q := { own with rank := 1 }
      let o : RemOp := { kind := .coll form 7 0 2 4, grp := bootGroup, vf := 0, sd := 1, left := 1, bytes := 2, regs := [{ kind := 9, len := 4096, grain := 3 }] }
      let t := { grouped with rems := [(1, o)], dev := { grouped.dev with mcasts := [(7, { mcs with issued := 1, arrived := [(0, own)] })] } }
      let ps := [own, q].map fun p => if p.rank = 0 then own else p
      decide ((byRank ps).map (fun p => p.rank) = List.range 2) && decide (t.rankIn mcs 0 = some 0) && !t.remoteWaits o.core o.grp && (t.group o.grp).isSome &&
        (t.core o.core).rets.isEmpty && decide (own ∈ ps) && ps.all (fun p => p.failed.isNone && p.form == form && p.e == 2 && p.fo)) = true := by decide

/-! ### Movement and contexts -/

/-- A word that moves on (home of the page on this die, no candidate) and one that waits. -/
theorem witness_GroupsMoveBetweenCores :
    let far : Xlat := { page 1 with home := 3 * 96 * 2 ^ 30 }
    let s (x : Xlat) := base |> tlb [x] |> reg 2 openReg
    issuesAt (s (page 1)) (.migrateAddr 0 (M 2 (.c .zero) 0xFFF)) (fun x o => x.pass o != 0 && decide (x.g.entries.length = 1) &&
      decide (x.region (s (page 1)) o (M 2 (.c .zero) 0xFFF) = openReg) && !x.g.pinned && decide (x.ea (s (page 1)) o (M 2 (.c .zero) 0xFFF) 0 = 0x40FFF) &&
      decide ((s (page 1)).lookup x.g.core (vfOf x.k) 0x40FFF = some (.ok (page 1) 0)) && decide (homeDie ((page 1).at 0x40FFF) = dieOf x.g.core)) &&
    (issuesAt base .migrateHome (fun x o => decide (x.g.entries.length = 1) && !(x.ctx base o).g.pinned && !base.isGuest x.k x.g) &&
     issuesAt (base |> grp fun g => { g with res := .guest }) .migrateHome (fun x o => !(x.ctx base o).g.pinned && decide (x.g.wakes.length < 8) && x.g.res == .guest)) &&
    isDev far.home && decide (homeDie far.home ≠ dieOf 0) && [some (some far.home), some none].all (fun m => let t := base |> grp fun g => { waiting 8 { code := 8, frag := 0 } g with move := m }
      (t.group bootGroup).any fun g => !g.stopped && g.pend.isEmpty && g.move == m && decide (g.wakes.filter (fun v => v.code == 8) = g.wakes) && g.issuing.isNone) &&
    (base.accs.isEmpty && !base.dev.shut && (base.team bootTeam).map Team.st == some .running && (base.candidates bootLaunch (homeDie far.home)).isEmpty &&
      decide (base.bestCandidate (base.candidates bootLaunch (homeDie 0x40000)) = some 0)) &&
    (let t := base.modCore 0 fun c => { c with l1 := [dirtyLine 0] }
     decide ((t.l1Lines 0 0 0x40000 512).map Prod.fst = [dirtyLine 0])) = true := by decide

/-! ### Records, pages and host commands -/

/-- Page tables of VF 0 that map its first GiB to itself: stage 1 at 0x1000 with a class, stage 2 at 0x4000. -/
def tables (cls : Nat) : Memory :=
  [(0x1000, 0x2001), (0x2000, 0x3001), (0x3000, 0xC3 + 4 * cls), (0x4000, 0x5001), (0x5000, 0x6001), (0x6000, 0x1C3)].foldl
    (fun m e => Store.store m e.1 8 e.2) []
def gib (cls : BitVec 2) : Xlat :=
  { vf := 0, va := 0, size := 2 ^ 30, home := 0, cls := cls, grain := 0, rd := true, wr := true, ex := false, ex1 := false }
def leafConf : LeafConf := { parent := 0, cores := [0, 1], hbm := [], l2ways := [1], dsp := [65536], bandwidth := 1, time := 1000, pool := 8 }
def roots (s : State) : State :=
  (s.modVf 0 fun v => { v with live := true, en := true, s2root := 0x4000 }).modFn 0 fun f => { f with s1root := 0x1000 }
/-- A device that has come up, with one leaf of two cores, its VF 0 and that VF's open memory. -/
def hosted (s : State := State.reset) (cls : Nat := 1) : State :=
  { roots s with mem := tables cls, leaves := [(0, { conf := leafConf })], dev := { s.dev with ready := BitVec.allOnes 64 } }
/-- Queue 0 of VF 0. -/
def queue (q : Queue) (s : State) : State := s.modFn 0 fun f => f.setQueue 0 q
def q0 : Queue := { en := true, ring := 0x20000, cring := 0x30000 }

theorem witness_walks : (hosted).walk 0 0x20000 = .ok (gib 1) 15 ∧ (hosted base 2).walk 0 0x20000 = .ok (gib 2) 15 ∧
    ((gib 1).deny ((hosted).vf 0) (some 1) .ld).isNone ∧ ((gib 1).deny ((hosted).vf 0) (some 1) .st).isNone ∧
    ((gib 1).deny ((hosted).vf 0) (some 1) .at_).isNone ∧ isPeer (gib 1).home = false := by decide

/-- A group that waits for section 0, with a frontier in order and without; one that may leave; a fill, a load and a fetch. -/
theorem witness_ContextsComeAndGo :
    let rp : Xlat := { page 2 with va := 0x100000, size := 2 ^ 21, home := 0x100000 }
    let out := base |> grp (fun g => { g with active := false, res := .pending, queued := some 0 }) |> tlb [rp]
    let s := out.modCore 0 fun c => c.setSect 0 {}
    let fresh := s |> grp fun g => { g with started := false }
    let loads (s : State) : Option Bool := (s.group bootGroup).map fun g => match g.loadHeader (Store.slice s.mem 0x100000 hdrLen) with
      | .inl h => h.parts.isEmpty
      | .inr _ => false
    let left (ln : Line) := hosted base 2 |> grp fun g => { waiting 1 { code := 1, frag := 0 } g with lines := [(2, ln)], recPages := [gib 2] }
    let bad := s |> grp fun g => { g with entries := g.entries ++ g.entries }
    let rd : Pend := { reg := .v 2, kind := .load, op := 1, lanes := 0xFFFFFFFF }
    let fl := base |> grp fun g => { waiting 9 { code := 9, frag := 0, arg := 2 } g with lines := [(2, { st := .filling })] }
    let ac : Acc := { kind := .load, use := .word .nop, vf := 0, part := 0, core := 0, grp := bootGroup, page := 4, lanes := 1, st := .data, dst := [(0, 2)], w := 1 }
    [s, bad, fresh].all (fun s => SMap.sorted s.groups && decide (((s.core 0).sect 0).active.length < 8) && !s.dev.shut &&
      (s.nextReady 0 0).any (fun kg => kg.1 == bootGroup && kg.2.step.isNone && kg.2.parts.isEmpty) &&
      (s.launch (launchOf bootGroup)).any (fun l => decide (l.recVa 0 0 = 0x100000) && decide (recSize (l.budgetOf 0) ≤ 2 ^ 21)) &&
      (s.lookup 0 0 0x100000).any (fun r => match r with
        | .ok p _ => (p.deny (s.vf 0) (some 2) .ld).isNone && (p.deny (s.vf 0) (some 2) .st).isNone && decide (p.va ≤ 0x100000)
        | _ => false)) &&
    (loads s == some true && loads bad == some false && fresh.groups.all fun kg => !kg.2.started) &&
    [({ st := .clean, data := [(0, 7)] } : Line), { st := .dirty, data := [(0, 7)] }].all (fun ln => ((left ln).group bootGroup).any fun g =>
      (left ln).mayLeave bootGroup g && (left ln).hosts bootGroup g && g.wrote.isEmpty && (Store.slice (left ln).mem 0x100000 hdrLen).isEmpty &&
        decide ((left ln).recHomes bootGroup { g with active := false } 0 hdrLen = some [(0x100000, hdrLen)]) && (ln.newer == 0) == (ln.st == .clean) &&
        decide ((left ln).recXlat bootGroup g ((left ln).regVa bootGroup 2) = some (gib 2)) && decide ((gib 2).at ((left ln).regVa bootGroup 2) % 512 ≤ 384)) &&
    (fl.group bootGroup).any (fun g => g.active && g.filling 2 && (fl.core 0).l1.isEmpty) &&
    (let t : State := { base with accs := [(1, ac)] } |> grp fun g => { g with pend := [rd] }
     (SMap.find t.accs 1).any (fun a => a.st == .data && a.poison == 0) && (t.group bootGroup).any fun g => g.active) &&
    (let t := (base |> grp fun g => { g with entries := g.entries.map fun e => { e with pc := 0x40040 } }) |> tlb [page 3]
     (t.cached 0 0 0x40040).isNone && !(t.fetching 0 0 0x40040).isEmpty && decide (0x40040 < supvNat) &&
       decide (t.lookup 0 0 0x40040 = some (.ok (page 3) 0)) && ((page 3).deny (t.vf 0) none .ex).isNone) &&
    arrivesAt (supv base) .nop (fun x _ => trapsB (supv base) x) && noForm 0x30 && noForm 0x3FF = true := by decide

/-- A load that missed: its page walks, finds no leaf, or a malformed entry. -/
def missed (u : AccSt) (a : Nat) : Acc :=
  { kind := .load, use := .word (.ld (C) .b32 (some (.v 2)) (M 3 (.c .zero) 0)), vf := 0, part := 0, core := 0, grp := bootGroup, pc := 0x10000, page := a / 65536, lanes := 1, addrs := [(0, BitVec.ofNat 57 a)], region := openReg, st := u, n := 4, dst := [(0, 2)], w := 1, issue := 1 }
def walkState (a : Nat) : State :=
  { hosted base with accs := [(1, missed .walk a)], mem := Store.store (Store.store (tables 1) (0x2000 + 8) 8 0) (0x1000 + 8) 8 3 }.modDie 0
    fun d => { d with misses := [{ vf := 0, base := a, size := 65536, part := 0 }] }

theorem witness_PagesAreWalkedAndFaultsReported :
    let one (a : Nat) (s : State) : Bool := ((s.die 0).miss 0 a).any (fun m => decide (s.walking 0 m = [(1, missed .walk a)])) && (s.core 0).l1.isEmpty &&
      (s.die 0).roomFor 0 && (SMap.vals s.accs).all (fun b => b.st == .walk) && decide ((SMap.vals s.accs).length = 1) &&
      decide (((s.die 0).misses.filter fun m => m.part == 0 && m.faulted).length < 8) && (s.die 0).dropped.isEmpty && !s.hostFails a 4 && s.groups.all fun kg => frontierOk kg.2.entries && kg.2.entries.all fun e => e.mask.getLsbD e.frag.toNat
    let ft := hosted (supv base)
    let held : State := { ft with accs := [(1, missed (.fault 0x21 0) 0x40000)] } |> grp fun g => { g with held := [1] }
    let parked : State := { base with accs := [(1, missed .parked 0x40000)] } |> grp fun g => { g with cfault := true }
    let rec_ : FaultRec := { va := 0, cause := 0x20, access := .load, vf := 0, part := 0 }
    let ring := (hosted base).modFn 0 fun f => { f with ring := { k := 6, queue := [rec_] } }
    (one 0x40000 (walkState 0x40000) && decide ((walkState 0x40000).walk 0 0x40000 = .ok (gib 1) 15) && !(missed .walk 0x40000).again && !(missed .walk 0x40000).supv &&
      (gib 1).covers 0 0x40000 && decide ((gib 1).at 0x40000 % 4 = 0) &&
      ((gib 1).deny ((walkState 0x40000).vf 0) (some 1) .ld).isNone) &&
    (one (2 ^ 39) (walkState (2 ^ 39)) && match (walkState (2 ^ 39)).walk 0 (2 ^ 39) with | .retry 1 false _ => true | _ => false) &&
    (one (2 ^ 48) (walkState (2 ^ 48)) && match (walkState (2 ^ 48)).walk 0 (2 ^ 48) with | .term 5 _ _ => true | _ => false) &&
    ((held.group bootGroup).any fun g => g.held.head? == some 1 && !g.stopped && !g.frame.busy && g.entries.any fun e =>
      decide (g.entries.find? (fun e => e.mask &&& (1 &&& g.live) != 0) = some e) && held.trapReady 1 bootGroup g e &&
        trapsB { held with accs := [] } { k := bootGroup, g := g, e := e, l := bootLaunchState }) &&
    (let s : State := { hosted base with accs := [(1, missed .noEntry 0x40000)] }
     ((s.die 0).miss 0 0x40000).isNone && s.mayTake 0 0) &&
    (let s := ring.modDie 0 fun d => { d with buffers := [(0, [rec_])] }
     decide (((s.die 0).buffer 0).find? s.ringsRoom = some rec_) && s.rems.isEmpty) &&
    (let s := ring.modVf 0 fun v => { v with tdi := .run }
     decide ((s.fns.filter fun kv => s.reaches kv.1 && (!kv.2.ring.queue.isEmpty || !kv.2.ring2.queue.isEmpty)).map Prod.fst = [0])) &&
    (SMap.sorted parked.accs && (SMap.find parked.accs 1).any fun a => a.st == .parked && !a.again) &&
    [true, false].all (fun go => let s := hosted.modFn 0 fun f => { f with invGo := go, invNpg := 1 }
      (s.fn 0).invGo == go && !s.deferred 0 ((s.fn 0).invRange 0).2.1 ((s.fn 0).invRange 0).2.2) &&
    (let s := ((hosted base).modFn 0 fun f => { f with invGo := true, invVa := 0x40000, invNpg := 1 }).modCore 0 fun c => { c with l1 := [dirtyLine 0] }
     decide ((s.fn 0).invRange 0 = (0, 0x40000, 65536)) && !s.deferred 0 0x40000 65536 && !(s.fn 0).invIrq &&
       decide ((SMap.keys s.cores).flatMap (fun c => ((s.core c).l1.filter fun y => y.vf == 0 && y.views.any fun v => v.meets 0x40000 65536).map
         fun y => (c, y)) = [(0, dirtyLine 0)])) &&
    [openReg, heldReg 1].all (fun r => (hosted base |> reg 3 r).deferred 0 0x40000 65536 == (r.kind == 1)) && hosted.dev.mapReqs.isEmpty = true := by decide

theorem witness_HostCommandsRun :
    let cmd (i : Instr) : State := { hosted with cmd := some { fn := 0, queue := 0 } } |> queue { q0 with next := some i }
    let runs (i : Instr) (s : State) : Bool := decide (s.cmd = some { fn := 0, queue := 0 }) && decide (((s.fn 0).queue 0).next = some i) && !(s.vf 0).logging && !(s.vf 0).exhausted &&
      (s.die fwDie).misses.isEmpty && s.hostBad.isEmpty
    let d (n : Nat) : LaunchDesc := { bootDesc with cores := BitVec.ofNat 8 n }
    let job (k : JobKind) : State := { hosted with jobs := [(1, { kind := k, fn := 0, queue := 0, cmd := W })] }
    let stop : State := hosted.setLaunch (launchKey 0 5) { bootLaunchState with st := .stopped false }
    [0, 5].all (fun op => let s := { hosted with mem := Store.wr (tables 1) 0x20000 (BitVec.ofNat 8 op) } |> queue { q0 with tail := 1 }
      s.dispatches && s.chosen == some (0, 0, 0) && s.headOp 0 ((s.fn 0).queue 0) != 1 &&
        (match decodeCommand (BitVec.ofNat 2048 (Store.load s.mem 0x20000 64)) with | .ok _ => op == 5 | .error _ => op == 0)) &&
    [d 1, { d 1 with gd := 0 }].all (fun x => runs (.launch W x) (cmd (.launch W x)) && ((cmd (.launch W x)).leaf 0).isSome) &&
    (withinLimits (d 1) 2 && !withinLimits { d 1 with gd := 0 } 2) &&
    [(Cmp.ge, 0), (.ge, 1)].all (fun p => runs (.waitsig W 0x8000 p.2 p.1) (cmd (.waitsig W 0x8000 p.2 p.1))) &&
    [Instr.setsigSet W 0x8000 1, .setsigAdd W 0x8000 1, .setsigDec W 0x8000 1].all (fun i => runs i (cmd i) && ((cmd i).waitsigs fun _ _ => true).isEmpty) &&
    [0, 1, 2 ^ 40, 2 ^ 40 + 1].all (fun n => runs (.hcopy W 0x8000 0x9000 (BitVec.ofNat 64 n) 0) (cmd (.hcopy W 0x8000 0x9000 (BitVec.ofNat 64 n) 0))) &&
    [(1, false), (0x2000, true)].all (fun p => let s := job (.hcopy 0x8000 0xA000 p.1 0 0 p.2)
      (SMap.find s.jobs 1).any (fun j => j.stuck.isNone) && !s.dev.shut && decide (s.walk 0 0x8000 = .ok (gib 1) 15) && decide (s.walk 0 0xA000 = .ok (gib 1) 15)) &&
    runs (.mark W 9) (cmd (.mark W 9)) &&
    (let s := { stop with cmd := some { fn := 0, queue := 0 } } |> queue { q0 with next := some (.resume W 5 0) }
     runs (.resume W 5 0) s && (s.launch (launchKey 0 5)).any (fun m => m.st == .stopped false && m.budget == 0) && !(s.vf 0).exhausted) &&
    [false, true].all (fun irq => let s := ((hosted |> queue { q0 with held := [(0, { W with irq := irq })] }).modFn 0 fun f => { f with msix := [(4 * 3 + 3, 1)] }).modVf 0 fun v => { v with resident := true }
      let x := (s.fn 0).queue 0
      x.stuck.isNone && x.sz != 7 && decide ((x.cprod - x.ccons).toNat < x.size) && decide (s.walk 0 (x.cring + 32 * (x.cprod.toNat % x.size)) = .ok (gib 1) 15) &&
        !(s.fn 0).masked W.vec.toNat) &&
    (let s := { hosted base with mem := Store.store (Store.store (tables 1) 0x3008 8 0x400000C7) 0x6008 8 (2 ^ 51 + 0x1C3) }.modVf 0 fun v => { v with tdi := .run }
     (s.homeOf 0 0x40008000).any isHost && s.fns.all fun f => f.2.queues.all fun q => !q.2.read) &&
    (hosted.waitsigs fun f _ => f == 0).isEmpty = true := by decide

/-! ### Launches, energy and the log -/

/-- The boot launch on a hosted device, its launch, team and group changed. -/
def running (l : LaunchSt) (t : Team → Team) (g : Group → Group) (s : State := base) : State :=
  ((hosted s).setLaunch bootLaunch { bootLaunchState with st := l }).setTeam bootTeam (t { st := .running, core := 0 }) |> grp g
def idleGroup (g : Group) : Group := { g with active := false, res := .pending }
/-- A queue of class 3 with a LAUNCH that waits for cores. -/
def askFor (n : Nat) (ctx : Nat) (s : State) : State :=
  s.modFn 0 fun f => f.setQueue 1 { q0 with cls := 3, waiting := some (W, { bootDesc with cores := BitVec.ofNat 8 n, ctxLen := BitVec.ofNat 64 ctx }) }

theorem witness_LaunchesComeAndGo :
    let full : Leaf := { conf := leafConf, used := 2000000 }
    let two (s : State) : State := ({ s with vfs := s.vfs ++ [(1, { live := true, en := true })] } : State).modFn 1 fun f => f.setQueue 0 { q0 with tail := 1 }
    let saved : SaveFrame := {}
    -- cores granted: a context space too small, and large enough
    [131071, 131072].all (fun n => let s := askFor 1 n hosted
      (s.leaf 0).any (fun l => l.timeLeft && s.firstWaiting 0 l == some (0, 1) && s.coresFor l { bootDesc with ctxLen := BitVec.ofNat 64 n } == some [0] &&
        s.dspRoom 0 l 0 [0]) && s.dispatches && decide (1 * teamStride bootDesc = 131072) && !(s.vf 0).logging && (s.freshTag 0).isSome) &&
    (let s := (running .granted (fun t => { t with st := .placing }) id (base.setGroup bootGroup {}))
     (s.core 0).owner == some bootLaunch && s.scrubbed bootLaunch && (s.team bootTeam).map Team.st == some .placing) &&
    (let s := (running .running id fun g => { idleGroup g with res := .ended })
     s.teamOver bootTeam && (s.team bootTeam).any (fun m => s.clusterMates bootTeam m bootDesc == [bootTeam]) && s.teams.length == 1) &&
    (let s := (running .running id fun g => { idleGroup g with res := .ended }).setTeam (bootTeam + 1) {}
     s.teamOver bootTeam && (s.team bootTeam).any (fun m => s.clusterMates bootTeam m bootDesc == [bootTeam]) &&
       (s.team (bootTeam + 1)).any fun t => t.st != .done) &&
    ((running (.swept 9 true) id id).launch bootLaunch).any (fun l => l.st == .swept 9 true && l.desc.sigAddr == 0) &&
    (!(hosted.leaves.isEmpty) && decide ((hosted : State).dev.periodStart + 1000000 ≤ { (hosted : State) with now := 1000000 }.now)) &&
    (!full.timeLeft && !({ running .running id id with leaves := [(0, full)] }.runningOn 0 none).isEmpty) &&
    [true, false].all (fun b => let s := (if b then two else id) (running .running id id)
      (s.leaf 0).any fun l => l.timeLeft && s.turnOf 0 l == l.turn && s.hasLaunch l.turn && decide (l.sliceStart + (s.vf l.turn).slice.toNat * 1000 ≤ s.now) &&
        s.nextTurn 0 l.turn == (if b then some 1 else none)) &&
    [LaunchSt.evicting, .stopping true].all (fun st => let s := running st id idleGroup
      s.launchRests bootLaunch && s.poolFor 0 (s.teamsOf bootLaunch) && s.teamsOf bootLaunch == [bootTeam]) &&
    (let s := askFor 2 65536 (running .running id fun g => { waiting 1 { code := 1, frag := 0 } (idleGroup g) with res := .pending })
     (s.launch bootLaunch).any (fun l => s.outranked bootLaunch l && l.desc.cs == 0) && s.allWait bootTeam 0 && s.poolFor 0 [bootTeam] &&
       s.quiet (s.withTeam bootTeam 0)) &&
    (let s := running .running (fun t => { t with st := .saving }) idleGroup
     !s.allWait bootTeam 0 && s.poolFor 0 [bootTeam]) &&
    [none, some 1].all (fun into => let s := (running .evicted (fun t => { t with st := .saved, frame := some saved, to_ := into }) idleGroup).modCore 0 fun c => { c with owner := none }
      (s.leaf 0).any (fun l => l.timeLeft && s.turnOf 0 l == 0 && s.firstWaiting 0 l == none && s.placesFor l bootDesc [0] == some [0]) && s.dispatches &&
        s.serves 0 && (s.core 1).scrub.isNone && saved.rets.isEmpty) &&
    (let s := { running .evicting id id with now := 20000 }
     (s.launch bootLaunch).any (fun l => l.saving && decide (l.since + 20000 ≤ s.now)) && (s.group bootGroup).any fun g => g.active) &&
    (decide (4096 ≤ frameTags) && SMap.sorted (base.core 0).tiles) &&
    (let s := (running .running (fun t => { t with idle := 1000 }) id).setLaunch bootLaunch { bootLaunchState with desc := { bootDesc with wdog := 1 } }
     (s.team bootTeam).any (fun t => t.placed && decide ((1 : Nat) * 1000 ≤ t.idle)) && !s.teamEnded bootTeam &&
       (s.launch bootLaunch).any fun l => l.st == .running && l.desc.wdog == 1) = true := by decide

/-- A charge of the team below, at and above its launch's budget; one of the house account. -/
theorem witness_EnergyIsCharged :
    let c : Charge := { payer := .team bootTeam, cls := 0, nd := false, n := 1 }
    [0, 1].all (fun b => let s := { (running .running id id).setLaunch bootLaunch { bootLaunchState with budget := b, acctD := { nj := b } } with unposted := [c] }
      decide (s.unposted = [c]) && !s.badMeter c && (s.team bootTeam).any (fun t => t.st != .done) && (s.launch (teamLaunch bootTeam)).any fun l =>
        l.st == .running && decide (l.budget ≤ Acct.sum l.acctD l.acctN)) &&
    decide ({ hosted with unposted := [{ c with payer := .house }] }.unposted = [{ c with payer := .house }]) &&
    decide (({} : Acct).nj + (({} : Acct).fj + 1000000) / 1000000 < 2 ^ 64) &&
    (let s := { given (.sharedCosts [] [9] 1 2) (hosted.modVf 0 fun v => { v with runtime := [(0, 5)] }) with now := 1000000 }
     decide (s.dev.sharedAt + 1000000 ≤ s.now) && SMap.sorted s.vfs && ((s.leaves.find? fun kl => kl.2.conf.cores.contains 0).map Prod.fst == some 0) &&
       decide (((s.vfsOf 0).map fun v => (Store.rd (s.vf v).runtime 0).toNat).sum ≠ 0)) &&
    [(100, 99), (0, 1)].all (fun p => let s : State := { hosted.modVf 0 fun v => { v with dyn := 1 } with dev := { (hosted : State).dev with interval := p.2 }, now := 1000000 }
      decide (s.dev.intervalStart + 1000000 ≤ s.now) && s.unposted.isEmpty && SMap.sorted s.vfs && decide ((s.liveVfs.map fun v => (s.vf v).dyn).sum ≠ 0) &&
        (decide (absDiff p.1 p.2 * 50 ≤ p.1) != decide (p.1 < absDiff p.1 p.2 * 50))) &&
    (let l : Leaf := { conf := leafConf, window := [(0, 1001)] }
     SMap.sorted l.window && decide (l.windowAt + 1000 ≤ { (hosted : State) with now := 1000 }.now)) = true := by decide

def req (t : BitVec 8) : AuditReq := { typ := t, src := 0, vf := 0, part := 0, payload := 0 }
theorem witness_TheLogAndErrorsAreKept :
    let d (f : Device → Device) : State := hosted.modDev f
    let rec_ (n : Nat) : AuditRec := { seq := n, bytes := 0 }
    -- record 1,023 closes a block
    [5, 1023].all (fun n => let s := d fun d => { d with auditQ := [req 6], auditNext := n }
      s.dev.lost == 0 && (s.dev.auditQ.find? fun q => s.dev.auditRoom q.typ) == some (req 6)) &&
    (let s := d fun d => { d with lost := 3, audit := [rec_ 0] }
     s.dev.lost != 0 && decide (s.dev.audit.length < 16384)) &&
    ((d fun d => { d with auditNext := 1 }).dev.auditNext != 0) &&
    [ScrubSt.due bootLaunch, .record bootLaunch].all (fun x => let s := hosted.modCore 3 fun c => { c with scrub := some x }
      (s.core 3).scrub == some x && s.dev.auditQ.isEmpty && s.dev.lost == 0 && s.dev.auditRoom 0x05) &&
    (let s := given (.unitBringup 50)
     decide (50 ∉ s.dev.failed)) &&
    [Tdi.run, .unlocked].all (fun t => let s := hosted.modVf 0 fun v => { v with tdi := t }
      (s.vf 0).tdi == t && (s.launchesOf 0).isEmpty && (s.imageBytes 0 0x8000 1).isSome && (s.imageBytes 0 0x8000 64).isSome) = true := by decide

/-! ### Functions, the trusted interface, the debugger and peers -/

def partConf : PartConf := { cores := [0, 1], hbm := [], l2ways := [1], dsp := [65536], bandwidth := 1, time := 1000, pool := 8 }
theorem witness_FunctionsAreConfigured :
    let conf : PartitionConf := { parts := [(0, partConf)], leaves := [(0, { leafConf with hbm := List.replicate 16 2 })] }
    let conf := { conf with parts := [(0, { partConf with hbm := List.replicate 16 2 })] }
    let img : State := hosted.modDev fun d => { d with images := [7] }
    [0, 480].all (fun o => decide (o / 4 * 4 = 32 * (o / 32))) && [0x200, 0x23C].all (fun o => decide (o / 4 * 4 = 0x200 + 4 * ((o - 0x200) / 4))) &&
    ((hosted.waitsigs fun f _ => f == 0).isEmpty && !(hosted.vf 0).isLocked && (({ hosted.vf 0 with tdi := .locked } : Vf).isLocked)) &&
    (confOk (hosted : State).dev.ready conf && !confOk 0 conf && !(hosted : State).dev.auditFull && hosted.launches.isEmpty && !(running .running id id).launches.isEmpty) &&
    (!(img.vf 1).live && (img.leaf 0).isSome && img.dev.images.contains (BitVec.ofNat 8 7) && !(hosted : State).dev.images.contains 7 && (img.vf 0).live) &&
    (let s := hosted.modDev fun d => { d with releasing := [0], ckpts := [0] }
     s.dev.releasing.find? s.vfIdle == some 0 && s.dev.ckpts.find? s.drained == some 0 && s.input.isNone &&
       decide (s.walk 0 (s.vf 0).clog = .ok (gib 1) 15) && isDev (gib 1).home) = true := by decide

theorem witness_TheTrustedInterfaceAnswers :
    let at_ (p : Nat) (ses : Option (BitVec 32 × Bool)) : State := hosted.modDev fun d => { d with spdm := { phase := p, session := ses } }
    [0, 1, 2, 3].all (fun p => decide ((at_ p none).dev.spdm.phase = p)) &&
    [true, false].all (fun b => decide ((at_ 3 (some (5, b))).dev.spdm.session = some (5, b)) && (at_ 3 (some (5, b))).secured == b) && !(at_ 3 none).secured &&
    (((0x100 : BitVec 32).getLsbD 8 && (4 : BitVec 32).getLsbD 2 && (0x20 : BitVec 16).getLsbD 5 && (2 : BitVec 16).getLsbD 1) && !(0 : BitVec 32).getLsbD 8) &&
    ([0, 1, 32, 33, 0xFF].all fun op => decide ((BitVec.ofNat 8 op).toNat = op)) &&
    (let s := hosted.modDev fun d => { d with streams := [(255, { first := 1, last := 1, key := 0 })] }
     s.covering 0 == [255] && (s.vf 0).live && (s.vf 0).tdi == .unlocked && (SMap.find s.dev.streams 255).isSome) &&
    [Tdi.locked, .unlocked].all (fun t => ((hosted.modVf 0 fun v => { v with tdi := t }).vf 0).tdi == t) = true := by decide

def halted (f : Group → Group) : State := base |> grp fun g => f { g with active := false, res := .pending, stopped := true }

theorem entryAddr_low (t : Nat) {b lvl : Nat} (hb : b < 2 ^ 30) (hl : lvl ≤ 2) : entryAddr t b lvl = t := by
  have e0 : b / 2 ^ 48 = 0 := by omega
  have e1 : b / 2 ^ 39 = 0 := by omega
  have e2 : b / 2 ^ 30 = 0 := by omega
  obtain rfl | rfl | rfl : lvl = 0 ∨ lvl = 1 ∨ lvl = 2 := by omega
  · show t + 8 * (b / 2 ^ 48 % 512) = t; omega
  · show t + 8 * (b / 2 ^ 39 % 512) = t; omega
  · show t + 8 * (b / 2 ^ 30 % 512) = t; omega

/-- What the tables of class 2 say of an address of their GiB, in any memory that holds them. -/
theorem walk_of_tables {s : State} {v o : Nat} (h2 : (s.vf v).s2root = 0x4000) (h1 : (s.fn v).s1root.toNat = 0x1000)
    (hm : ∀ b, b < 0x7000 → Store.rd s.mem b = Store.rd (tables 2) b) (ho : o < 2 ^ 30) :
    s.walk v o = .ok { gib 2 with vf := v } 15 := by
  have ld (a : Nat) (ha : a + 8 ≤ 0x7000) : Store.load s.mem a 8 = Store.load (tables 2) a 8 := by
    unfold Store.load Store.bytes
    congr 1
    exact List.map_congr_left fun i hi => hm _ (by have := List.mem_range.1 hi; omega)
  have m2 : o % 1073741824 = o := by omega
  have o2 : o < 1073741824 := by omega
  have a1 : Store.load s.mem 0x1000 8 = 0x2001 := (ld _ (by omega)).trans (by decide)
  have a2 : Store.load s.mem 0x2000 8 = 0x3001 := (ld _ (by omega)).trans (by decide)
  have a3 : Store.load s.mem 0x3000 8 = 0xCB := (ld _ (by omega)).trans (by decide)
  have a4 : Store.load s.mem 0x4000 8 = 0x5001 := (ld _ (by omega)).trans (by decide)
  have a5 : Store.load s.mem 0x5000 8 = 0x6001 := (ld _ (by omega)).trans (by decide)
  have a6 : Store.load s.mem 0x6000 8 = 0x1C3 := (ld _ (by omega)).trans (by decide)
  have w2 (b n : Nat) (hb : b < 2 ^ 30) : s2Walk s.mem b 5 0 0x4000 n = .ok b (2 ^ 30) true true true false (n + 3) := by
    have e3 : b % 1073741824 = b := by omega
    simp [s2Walk, entryAddr_low _ hb, e3, show b < 1073741824 by omega, show lvlShift 2 = 30 from rfl, a4, a5, a6, fld, s2Bad, entryBad, entryOut, hbmTotal]
  have n1 : ¬ supvNat ≤ o := by rw [show supvNat = 0x1FFFFFFC0000000 from rfl]; omega
  have n2 : apertureIdx o = none := if_pos (by simp; left; rw [show apertureBase = 0x1F0000000000000 from rfl]; omega)
  simp [State.walk, n1, n2, h1, h2, s1Walk, entryAddr_low _ ho, m2, o2, show lvlShift 2 = 30 from rfl, a1, a2, a3, w2, fld, s1Bad, entryBad, entryOut, gib, ho]

/-- A halted group whose record lies in the GiB of the tables. -/
def recorded : State := hosted (halted id) 2
theorem witness_TheRecordLiesInOnePage : ∃ g p, recorded.group bootGroup = some g ∧ g.stopped = true ∧ g.active = false ∧ g.res ≠ .ended ∧
    g.started = true ∧ g.bud = 256 ∧ p.vf = vfOf bootGroup ∧ p.va ≤ recorded.recordVa bootGroup 0 ∧
    (∀ o, o < 0xC00 + 128 * g.bud → recorded.recordVa bootGroup o = recorded.recordVa bootGroup 0 + o ∧ recorded.recordVa bootGroup o < p.va + p.size ∧
      recorded.recXlat bootGroup g (recorded.recordVa bootGroup o) = some p ∧
      ∀ x ∈ (recorded.core g.core).l1, x.vf = vfOf bootGroup → x.line ≠ p.at (recorded.recordVa bootGroup o) / 512) ∧
    ∀ m : Memory, (∀ b, b < p.at (recorded.recordVa bootGroup 0) ∨ p.at (recorded.recordVa bootGroup 0) + (0xC00 + 128 * g.bud) ≤ b →
        Store.rd m b = recorded.byteAt b) → ∀ o, o < 0xC00 + 128 * g.bud →
      ({ recorded with mem := m }).walk (vfOf bootGroup) (recorded.recordVa bootGroup o) =
        recorded.walk (vfOf bootGroup) (recorded.recordVa bootGroup o) := by
  have hv (o : Nat) (h : o < 2 ^ 20) : recorded.recordVa bootGroup o = 0x100000 + o := by
    have : recorded.recordVa bootGroup o = (0x100000 + o) % 2 ^ 57 := rfl
    omega
  have hg : (recorded.group bootGroup).isSome = true := by decide
  obtain ⟨g, hg⟩ := Option.isSome_iff_exists.1 hg
  have hw (m : Memory) (hm : ∀ b, b < 0x7000 → Store.rd m b = Store.rd (tables 2) b) (o : Nat) (h : o < 2 ^ 20) :
      ({ recorded with mem := m }).walk 0 (0x100000 + o) = .ok (gib 2) 15 :=
    walk_of_tables (s := { recorded with mem := m }) (show (recorded.vf 0).s2root = 0x4000 by decide) (show (recorded.fn 0).s1root.toNat = 0x1000 by decide) hm (by omega)
  have hf : ∀ g', recorded.group bootGroup = some g' → g'.stopped = true ∧ g'.active = false ∧ g'.res ≠ .ended ∧ g'.started = true ∧ g'.bud = 256 ∧
      (recorded.core g'.core).l1 = [] := by
    have : ((recorded.group bootGroup).all fun g' => g'.stopped && !g'.active && g'.res != .ended && g'.started && g'.bud == 256 &&
      (recorded.core g'.core).l1.isEmpty) = true := by decide
    intro g' h; simpa [h, and_assoc] using this
  obtain ⟨f1, f2, f3, f4, f5, f6⟩ := hf g hg
  refine ⟨g, (gib 2), hg, f1, f2, f3, f4, f5, by decide, by decide, ?_, ?_⟩
  · intro o ho
    have ho : o < 2 ^ 20 := by omega
    refine ⟨by rw [hv o ho, hv 0 (by omega)], by rw [hv o ho]; show _ < 0 + 2 ^ 30; omega, ?_, by simp [f6]⟩
    have hx := hw (tables 2) (fun _ _ => rfl) o ho
    have hx : recorded.walk (vfOf bootGroup) (0x100000 + o) = .ok (gib 2) 15 := hx
    have hd : (((gib 2).deny (recorded.vf (vfOf bootGroup)) (some 2) .ld).orElse (fun _ =>
      (gib 2).deny (recorded.vf (vfOf bootGroup)) (some 2) .st)).isNone = true := by decide
    rw [hv o ho]; simp only [State.recXlat, f2, hx, hd, if_true]; rfl
  · intro m hm o ho
    have ho : o < 2 ^ 20 := by omega
    have h0 : (gib 2).at (recorded.recordVa bootGroup 0) = 0x100000 := by decide
    rw [h0] at hm
    rw [hv o ho]
    exact (hw m (fun b hb => hm b (by omega)) o ho).trans (hw (tables 2) (fun _ _ => rfl) o ho).symm

theorem witness_TheDebuggerStopsAndWrites :
    let inert (s : State) : Bool := (s.group bootGroup).any fun g => g.stopped && !g.active && g.res != .ended
    let park := { halted (fun g => { g with entries := g.entries.map fun e => { e with st := .parked } }) with accs := [(1, { missed .parked 0x40000 with lanes := 0xFFFFFFFF })] }
    let bw := hosted (halted fun g => { waiting 4 { code := 4, frag := 0, arg := 4 } g with bors := [(4, { region := heldReg 1, sd := 1, try_ := false, op := 1 })] })
    let peerReg : Region := { heldReg 1 with base := 0x1F0030000000000 }
    let far := (halted fun g => { waiting 4 { code := 4, frag := 0, arg := 4 } g with bors := [(4, { region := peerReg, sd := 1, try_ := false, op := 1 })] }).modVf 0
      fun v => { v with imports := [(3, { st := 1, rdev := 9, rvf := 2, rwin := 5, held := true, perm := 7, len := 0x10000 })] }
    ((base.group bootGroup).any (fun g => base.stopReady bootGroup g && g.active) && [DebugScope.group bootGroup, .team bootTeam, .launch bootLaunch].all fun w =>
      DebugScope_has w bootGroup && DebugScope_launch w == bootLaunch) &&
    (let s := base |> grp fun g => { g with stopped := true }
     SMap.sorted s.groups && ((s.groups.find? fun kg => kg.2.active && kg.2.stopped && kg.2.step.isNone && s.stopReady kg.1 kg.2).map Prod.fst == some bootGroup)) &&
    (inert (halted fun g => { g with dead := 0 }) && ((halted fun g => { g with dead := 0 }).group bootGroup).any fun g => decide (0xC00 + 128 * g.bud - 4 + 4 ≤ 0xC00 + 128 * g.bud) && g.started && g.pend.isEmpty &&
      decide (255 < g.bud) && g.lines.isEmpty && !g.isDead 255 && !g.filling 255) &&
    ((halted fun g => { g with pend := [{ reg := .s 127, kind := .token, op := 1, lanes := 1 }] }).group bootGroup).any (fun g => g.pend.any fun p => p.kind == .token && p.reg == .s 127) &&
    ((halted fun g => { g with res := .ended }).group bootGroup).any (fun g => g.res == .ended) &&
    ((halted id).group bootGroup).any (fun g => (g.entry 0).any (fun e => e.st == .ready) && !g.cfault && g.move.isNone && g.queued.isNone) &&
    (inert park && SMap.sorted park.accs && (park.group bootGroup).any fun g => (g.entry 0).any fun e => e.st == .parked &&
      decide ((g.entries.map Entry.frag).Nodup) && park.accs.all fun kv => kv.2.cancels && kv.2.vf == vfOf bootGroup && kv.2.lanes &&& ~~~e.mask == 0) &&
    [bw, far].all (fun s => inert s && (s.group bootGroup).any fun g => (SMap.find g.bors 4).isSome && g.wakes.all fun w => w.code == 4 && (g.entry w.frag).any fun e => e.st == .blocked) &&
    decide (bw.borHome bootGroup (heldReg 1) = some (0, false)) && decide (far.borHome bootGroup peerReg = some (8, true)) &&
      decide (apertureIdx peerReg.base.toNat = some 3) && ((SMap.find (far.vf (vfOf bootGroup)).imports 3).isSome) = true := by
  decide

theorem witness_PeersExchangeRequests :
    let ex : Export := { base := 0x10000, len := 0x10000, rd := true, wr := true, st := 1, pdev := 9, pvf := 2 }
    let offer : ExportReq := { base := 0x10000, len := 0x10000, held := false, rd := true, wr := true, at_ := false, pdev := 9, pvf := 2 }
    let want : ImportReq := { rdev := 9, rvf := 2, rwin := 5, held := false, perm := 7, grain := 0, pgsz := 0, len := 0x10000, tmo := 100, named := true }
    let open_ (f : Vf → Vf) : State := hosted.modVf 0 f
    let r : Req := { seq := 4, kind := .write 0 [1], win := 5, op := 1, firstAt := 0 }
    let o : RemOp := { kind := .rst, grp := bootGroup, vf := 0, sd := 1, left := 1, bytes := 1 }
    let c : Conn := { vf := 0, dev := 9, rvf := 2 }
    let con (c : Conn) (s : State) : State := s.modDev fun d => { d with conns := [(connKey 0 9 2, c)] }
    (offer.base.toNat % 65536 == 0 && offer.len.toNat % 65536 == 0 && (hosted.vf 0).live && (SMap.find (hosted.vf 0).exports 4095).isNone &&
      (hosted.pageKinds 0 0x20000 2 0x10000).any (exportPagesOk false)) &&
    (want.named && decide (100 ≤ want.tmo.toNat) && (SMap.find (hosted.vf 0).imports 4094).isNone) &&
    [1, 2].all (fun st => let s := open_ fun v => { v with imports := [(3, { st := st, rdev := 9, rvf := 2, rwin := 5 })], exports := [(5, { ex with st := st })] }
      (SMap.find (s.vf 0).imports 3).any (fun i => i.st == st) && (SMap.find (s.vf 0).exports 5).any (fun e => e.st == st) &&
        !s.peerClaims (peerMark (connKey 0 9 2) 5) && !s.flushDue 0 9 2 5) &&
    (let s := { (open_ fun v => { v with exports := [(5, { ex with st := 2 })] }).modDie 0 fun d => { d with claims := [(0, { claimE 7 .x .held with peer := some (peerMark (connKey 0 9 2) 5) })] } with now := 1000000 }
     (SMap.find (s.vf 0).exports 5).any (fun e => !e.swept && decide (e.since + 1000000 ≤ s.now)) && (s.dies.all fun d => d.2.claims.all fun c => c.2.st != .wait)) &&
    (let s := { hosted with mem := Store.store (tables 1) 0x8000 8 (9 + 2 * 2 ^ 10 + 5 * 2 ^ 20) }
     decide ((List.range 1).map (fun i => Member_ofBits (Store.load s.mem (0x8000 + 8 * i) 8)) = [some { dev := 9, vf := 2, win := 5 }]) &&
       s.memberOk 0 { dev := 9, vf := 2, win := 5 }) &&
    -- numbers below, in and above the window, and one answered
    [(4 : BitVec 32), 0xFFFFFFFF, 4095, 4096].all (fun seq => let s := con { c with answered := [(4, .ok, [])] } (open_ fun v => { v with exports := [(5, ex)] })
      (SMap.find s.dev.conns (connKey 0 9 2)).any (fun c => !c.ended && !c.spilled && c.low == 0 && (c.answered.find? fun x => x.1 == 4).isSome) &&
        !s.inService (connKey 0 9 2) 0 9 2 5 seq && decide (s.walk 0 (ex.base.toNat + 0xFFFF) = .ok (gib 1) 15) && decide (0xFFFF + 1 ≤ ex.len.toNat) &&
        [Need.ld, .st].all fun n => ((gib 1).deny (s.vf 0) (some 1) n).isNone) &&
    [50000, 1000000].all (fun now => let s := { con { c with sent := [r] } (hosted base) with rems := [(1, o)], now := now }
      (SMap.find s.dev.conns (connKey 0 9 2)).any (fun c => decide (c.sent = [r]) && c.queue.isEmpty && !c.ended && !c.spilled) && (s.group o.grp).isSome &&
        !s.remoteWaits o.core o.grp && (s.die 0).roomFor (s.leafOf o.grp) && decide (r.sentAt + 50000 ≤ s.now) &&
        (decide (s.now < r.firstAt + r.tmo * 1000) == (now == 50000)) && decide ((s.dev.conns.filter fun x => x.2.dev == 9).map Prod.fst = [connKey 0 9 2])) &&
    (con { c with spilled := true } hosted).dev.conns.all (fun x => x.2.spilled) = true := by decide

/-! ### Steps -/

def placed : State := State.reset.withFetchWord 96 (word 0x001 0x105 0x184 0x181 0 0 0 0 4 0).toNat
theorem witness_StepsKeepTheMemoryForm : placed.safe = true ∧ (hosted base).safe = true ∧ (match step placed with | .next _ => true | _ => false) = true := by
  decide

theorem witness_AStepRunsTheDecodedWord :
    let r : State := { placed with cur := some { grp := bootGroup, frag := 0 } }
    (!placed.postDue && placed.tries.length == 1 && placed.tries.all fun c => !placed.isHeld c.2) &&
    r.issuer.any (fun x => x.1 == bootGroup && (match r.cached x.2.1.core (vfOf x.1) (pcLine x.2.2.1.pc) with
      | some line => decide (line.line < supvNat) && !lineBad line.data && !line.bad.getLsbD 0 &&
          (match decodeSlot (lineSlot line.data 0) with | .ok _ => true | .error _ => false)
      | none => false)) = true := by decide

end Sys2Proof.Tests
end

/-! ## What a step does (chapter 2, execution model; R28, R321)

How `step`, `happen` and `run` hang together: what a chosen try is, and what each kind of candidate runs. -/

namespace Sys2Proof.Machine

open Sys2Proof

/-- What is chosen of some tries is the answer of one of them. -/
theorem choose_mem {n : Nat} {l : List (Cand × Host.Outcome State Fault Refusal)} {o : Host.Outcome State Fault Refusal}
    (h : choose n l = some o) : ∃ c, (c, o) ∈ l := by
  match l, h with
  | [x], h =>
    cases h
    exact ⟨x.1, by simp⟩
  | x :: y :: l, h =>
    simp only [choose, Option.some.injEq] at h
    subst h
    generalize Config.pick n % (x :: y :: l).length = i
    cases hi : (x :: y :: l)[i]? with
    | none => exact ⟨x.1, by simp⟩
    | some z => exact ⟨z.1, List.mem_of_getElem? hi⟩

/-- A try is a candidate with the answer of its run. -/
theorem State.run_of_mem_tries {s : State} {c : Cand} {o : Host.Outcome State Fault Refusal} (h : (c, o) ∈ s.tries) :
    s.run c = some o := by
  obtain ⟨c', -, hc⟩ := List.mem_filterMap.mp h
  obtain ⟨o', ho, heq⟩ := Option.map_eq_some_iff.mp hc
  cases heq
  exact ho

theorem noteLimited_next {ts : List Nat} {o : Host.Outcome State Fault Refusal} {t : State} (h : noteLimited ts o = .next t) :
    ∃ u, o = .next u ∧ t = { u with limited := ts } := by
  cases o with
  | next u => cases h; exact ⟨u, rfl, rfl⟩
  | fault f => cases h
  | refused r => cases h

/-- One enabled candidate that no limiter holds is what happens. -/
theorem State.happen_single {s : State} {c : Cand} {o : Host.Outcome State Fault Refusal} (hp : s.postDue = false)
    (ht : s.tries = [(c, o)]) (hh : s.isHeld o = false) : s.happen = noteLimited [] o := by
  simp [State.happen, hp, ht, hh, choose]

/-- What happens is nothing, or the answer of one candidate's run. -/
theorem State.happen_next {s t : State} (h : s.happen = .next t) :
    (∃ ts : List Nat, t = { s with limited := ts }) ∨
      ∃ (c : Cand) (u : State) (ts : List Nat), s.run c = some (.next u) ∧ t = { u with limited := ts } := by
  unfold State.happen at h
  split at h
  · cases hr : s.run (.event .posting) with
    | none =>
      rw [hr] at h
      cases h
      exact .inl ⟨s.limited, rfl⟩
    | some o =>
      rw [hr] at h
      obtain rfl : o = .next t := h
      exact .inr ⟨_, t, t.limited, hr, rfl⟩
  · obtain ⟨u, hu, rfl⟩ := noteLimited_next h
    cases hc : choose s.tick (s.tries.filter fun x => !s.isHeld x.2) with
    | none =>
      rw [hc] at hu
      cases hu
      exact .inl ⟨_, rfl⟩
    | some o =>
      rw [hc] at hu
      obtain rfl : o = .next u := hu
      obtain ⟨c, hm⟩ := choose_mem hc
      exact .inr ⟨c, u, _, State.run_of_mem_tries (List.mem_filter.mp hm).1, rfl⟩

/-- No device under thermal shutdown has an issuing entry (R28). -/
theorem State.issuer_awake {s : State} {k : Nat} {g : Group} {e : Entry} {l : Launch} (h : s.issuer = some (k, g, e, l)) :
    s.dev.shut = false := by
  unfold State.issuer at h
  split at h
  · cases h
  · split at h
    · cases h
    · split at h
      · split at h
        · rename_i hm
          cases hs : s.dev.shut with
          | false => rfl
          | true => simp [State.mayTry, hs] at hm
        · cases h
      · cases h

/-- A cached line that R245, item 1 lets pass gives the entry the word of its slot. -/
theorem State.slotOf_word (s : State) (g : Group) (e : Entry) (l : ILine) (hs : l.line < supvNat ∨ g.supv e = true)
    (hb : lineBad l.data = false) (hp : l.bad.getLsbD (e.pc &&& 7).toNat = false) :
    s.slotOf g e l = .inl (lineSlot l.data (e.pc &&& 7).toNat) := by
  have hsup : (decide (supvNat ≤ l.line) && !g.supv e) = false := by
    rcases hs with hs | hs
    · simp [Nat.not_le.mpr hs]
    · simp [hs]
  simp only [State.slotOf, hsup, hb, hp, Bool.false_eq_true, if_false]

/-- The run of an entry whose slot decodes is the execution of the instruction, with the entry as the issuing one. -/
theorem State.run_word {s : State} {k : Nat} {frag : BitVec 5} {g : Group} {e : Entry} {l : Launch} {line : ILine} {i : Instr}
    (hi : ({ s with cur := some { grp := k, frag := frag } } : State).issuer = some (k, g, e, l))
    (hc : ({ s with cur := some { grp := k, frag := frag } } : State).cached g.core (vfOf k) (pcLine e.pc) = some line)
    (hs : line.line < supvNat ∨ g.supv e = true) (hb : lineBad line.data = false)
    (hp : line.bad.getLsbD (e.pc &&& 7).toNat = false) (hd : decodeSlot (lineSlot line.data (e.pc &&& 7).toNat) = .ok i) :
    s.run (.word k frag) = settleOut (exec i { s with cur := some { grp := k, frag := frag } }) := by
  have hshut : s.dev.shut = false := have h := State.issuer_awake hi; h
  have hword : s.runWord k frag = exec i { s with cur := some { grp := k, frag := frag } } := by
    simp only [State.runWord, hi, hc, State.slotOf_word _ g e line hs hb hp, hd]
  simp only [State.run, hshut, hword, Bool.false_and, Bool.false_eq_true, if_false]

/-- Settles O5: each clause is the lemma about the part of the schedule that it speaks of. -/
theorem aStepRunsTheDecodedWord : Obligations.AStepRunsTheDecodedWord := by
  unfold Obligations.AStepRunsTheDecodedWord
  refine ⟨fun _ => rfl, fun s c o => State.happen_single, fun s t => State.happen_next, ?word, ?command, ?input, ?message, ?event,
    ?shut, fun _ => rfl, fun _ => rfl⟩
  case word => exact fun s k frag g e l line i hi hc hs hb hp hd => State.run_word hi hc hs hb hp hd
  case command => intro s f q i h; simp [State.run, h]
  case input => intro s x i h hx; simp [State.run, h, hx]
  case message => intro s n i h; simp [State.run, h]
  case event => intro s i h; simp [State.run, h]
  case shut => intro s c h hc; simp [State.run, h, hc]

end Sys2Proof.Machine

/-! ## Maps built from lists -/

namespace Sys2Proof

/-- Looking up in a map whose values are the images of another's. -/
theorem SMap.find_map {α β : Type} (m : SMap α) (f : α → β) (k : Nat) :
    SMap.find (m.map fun kv => (kv.1, f kv.2)) k = (SMap.find m k).map f := by
  induction m with
  | nil => rfl
  | cons kv m ih =>
    simp only [List.map_cons, SMap.find]
    split
    · rfl
    · exact ih

/-- Looking up a key of a table made from a list of keys. -/
theorem SMap.find_table {α : Type} (l : List Nat) (f : Nat → Option α) (k : Nat) :
    SMap.find (l.filterMap fun i => (f i).map fun v => (i, v)) k = if k ∈ l then f k else none := by
  induction l with
  | nil => rfl
  | cons i l ih =>
    cases hf : f i with
    | none =>
      by_cases hk : k = i
      · subst hk; simp [hf, ih]
      · simp [hf, ih, hk]
    | some v =>
      by_cases hk : k = i
      · subst hk; simp [SMap.find, hf]
      · simp [SMap.find, hf, ih, hk]

/-- The same where every key has a value. -/
theorem SMap.find_tableAll {α : Type} (l : List Nat) (f : Nat → α) (k : Nat) :
    SMap.find (l.map fun i => (i, f i)) k = if k ∈ l then some (f k) else none := by
  have h := SMap.find_table l (fun i => some (f i)) k
  simpa only [Option.map_some, List.filterMap_eq_map'] using h

/-- Looking up a key after a table has been put into a map. -/
theorem SMap.find_putAll {α : Type} (l : List Nat) (f : Nat → α) (m : SMap α) (k : Nat) :
    SMap.find (l.foldl (fun m i => SMap.put m i (f i)) m) k = if k ∈ l then some (f k) else SMap.find m k := by
  induction l generalizing m with
  | nil => rfl
  | cons i l ih =>
    rw [List.foldl_cons, ih, SMap.find_put]
    by_cases hk : k = i
    · subst hk; simp
    · simp [hk]

theorem SMap.sorted_putAll {α : Type} (l : List Nat) (f : Nat → α) (m : SMap α) (h : SMap.sorted m = true) :
    SMap.sorted (l.foldl (fun m i => SMap.put m i (f i)) m) = true := by
  induction l generalizing m with
  | nil => exact h
  | cons i l ih => exact ih _ (SMap.sorted_put m i (f i) h)

/-- The keys of a sorted map rise. -/
theorem SMap.sorted_pairwise {α : Type} {m : SMap α} (h : SMap.sorted m = true) : m.Pairwise fun a b => a.1 < b.1 := by
  induction m with
  | nil => exact List.Pairwise.nil
  | cons kv m ih =>
    obtain ⟨ha, hs⟩ := (SMap.sorted_cons kv.1 kv.2 m).mp h
    exact List.pairwise_cons.mpr ⟨ha, ih hs⟩

/-- What is found at a key stands in the map. -/
theorem SMap.mem_of_find {α : Type} {m : SMap α} {k : Nat} {v : α} (h : SMap.find m k = some v) : (k, v) ∈ m := by
  induction m with
  | nil => cases h
  | cons kv m ih =>
    simp only [SMap.find] at h
    split at h
    · rename_i hk
      cases h
      exact List.mem_cons.mpr (.inl (by rw [hk]))
    · exact List.mem_cons_of_mem _ (ih h)

end Sys2Proof

/-! ## Words whose bodies reach beyond their group

A body that loads a codebook or puts a result under way changes more than its group's registers. What such a word leaves of the
registers, and of what it put under way, once for every word. -/

namespace Sys2Proof.Machine

open Sys2Proof

/-- `g1` in `s1`, as a body left it, holds the registers of the site but for what the word's use names: `Plain` without its claim on
the rest of the state. -/
structure KeepsRegs (x : Site) (o : Op) (s s1 : State) (g1 : Group) : Prop where
  group : s1.group x.k = some g1
  active : g1.active = true
  vector : ∀ m, m ∉ o.use.vWritten x.g (lanesOf (x.pass o)) → s1.regData x.k g1 m = s.regData x.k x.g m
  idle : ∀ m i, x.g.live.getLsbD i = true → (x.pass o).getLsbD i = false →
    Store.rd (s1.regData x.k g1 m) i = Store.rd (s.regData x.k x.g m) i
  scalar : ∀ m, m ∉ o.use.sWritten → g1.sreg m = x.g.sreg m
  predicate : ∀ m i, (m ∉ o.use.pw ∧ ∀ d, o.use.dst = some (.p d) → d.toNat ≠ m) ∨ (x.pass o).getLsbD i = false →
    g1.pred m i = x.g.pred m i
  index : ∀ m i, i < 32 → (∀ d, o.use.dst = some (.x d) → d.toNat ≠ m) ∨ (x.pass o).getLsbD i = false → g1.xreg m i = x.g.xreg m i
  latches : ∀ m, (∀ d, o.use.latch = some d → d.toNat ≠ m) → SMap.find g1.latches m = SMap.find x.g.latches m

/-- A body that has done nothing yet. -/
theorem KeepsRegs.start {x : Site} {s : State} {o : Op} (h : Issues x s o) : KeepsRegs x o s (x.start s) x.spent :=
  { group := Site.start_group h, active := h.facts.2.2.1
    vector := fun m _ => x.start_regData s h.facts.2.2.1 m
    idle := fun m i _ _ => congrArg (fun d => Store.rd d i) (x.start_regData s h.facts.2.2.1 m), scalar := fun _ _ => rfl
    predicate := fun _ _ _ => rfl, index := fun _ _ _ _ => rfl, latches := fun _ _ => rfl }

/-- What changes neither memory, launches, an L1 nor the group's registers keeps the registers. -/
theorem KeepsRegs.next {x : Site} {s s1 s2 : State} {o : Op} {g1 g2 : Group} (h : KeepsRegs x o s s1 g1)
    (hg : s2.group x.k = some g2) (hp : g2 = { g1 with pend := g2.pend }) (hm : s2.mem = s1.mem) (hl : s2.launches = s1.launches)
    (hc : ∀ c, (s2.core c).l1 = (s1.core c).l1) : KeepsRegs x o s s2 g2 := by
  have hreg : ∀ m, s2.regData x.k g2 m = s1.regData x.k g1 m := fun m =>
    State.regData_congr s1 s2 x.k m g1 g2 h.active hm hl hc (by rw [hp]) (by rw [hp]) (by rw [hp]) (by rw [hp]) (by rw [hp])
  exact
    { group := hg, active := by rw [hp]; exact h.active
      vector := fun m hw => (hreg m).trans (h.vector m hw)
      idle := fun m i hi hb => by rw [hreg]; exact h.idle m i hi hb
      scalar := fun m hw => by rw [hp]; exact h.scalar m hw
      predicate := fun m i hw => by rw [hp]; exact h.predicate m i hw
      index := fun m i hi hw => by rw [hp]; exact h.index m i hi hw
      latches := fun m hw => by rw [hp]; exact h.latches m hw }

/-- The registers that a body kept are kept by the word. -/
theorem Ends.registers {x : Site} {o : Op} {s s1 t : State} {g1 g2 : Group} (h : Issues x s o) (he : Ends x o s1 t g1 g2)
    (hk : KeepsRegs x o s s1 g1) : x.registers o s t := by
  have hg := h.facts.1
  have new : ∀ m i, t.vAt x.k m i = Store.rd (t.regData x.k g2 m) i := fun m i => by simp only [State.vAt, he.group]
  have old : ∀ m i, s.vAt x.k m i = Store.rd (s.regData x.k x.g m) i := fun m i => by simp only [State.vAt, hg]
  have same := he.same
  constructor
  case vector => intro n i hn hu; rw [new, old, he.vector n hu, hk.vector n hn]
  case vectorIdle => intro n i hi hb hu; rw [new, old, he.vector n hu, hk.idle n i hi hb]
  case scalar =>
    intro n hn
    simp only [State.sAt, he.group, hg]
    rw [← hk.scalar n hn, same]
    rfl
  case predicate =>
    intro n i hn
    simp only [State.pAt, he.group, hg]
    rw [← hk.predicate n i hn, same]
    rfl
  case index =>
    intro n i hi hn
    simp only [State.xAt, he.group, hg]
    rw [← hk.index n i hi hn, same]
    rfl
  case latches =>
    intro n i hn
    simp only [State.lAt, he.group, hg]
    rw [← hk.latches n hn, same]

/-- `t` differs from `s` only in one group, in charges not yet posted and in what is under way: `Inside` with accesses, messages
and numbers left open. -/
structure Afoot (s t : State) (k : Nat) : Prop where
  rest : t = { s with groups := t.groups, unposted := t.unposted, accs := t.accs, pending := t.pending, nextId := t.nextId }
  others : ∀ j, j ≠ k → t.group j = s.group j

theorem Afoot.trans {s t r : State} {k : Nat} (a : Afoot s t k) (b : Afoot t r k) : Afoot s r k := by
  refine ⟨?_, fun j hj => (b.others j hj).trans (a.others j hj)⟩
  have ha := a.rest
  have hb := b.rest
  generalize t.groups = x1, t.unposted = x2, t.accs = x3, t.pending = x4, t.nextId = x5 at ha
  rw [hb, ha]

theorem Inside.afoot {s t : State} {k : Nat} (h : Inside s t k) : Afoot s t k := by
  refine ⟨?_, h.others⟩
  have hr := h.rest
  generalize t.groups = x1, t.unposted = x2 at hr
  rw [hr]

theorem Site.start_afoot (x : Site) (s : State) : Afoot s (x.start s) x.k :=
  ⟨by rw [x.start_eq], fun j hj => x.start_group_ne s j hj⟩

section
variable {s t : State} {k : Nat} (h : Afoot s t k)
include h
theorem Afoot.mem : t.mem = s.mem := by rw [h.rest]
theorem Afoot.cores : t.cores = s.cores := by rw [h.rest]
theorem Afoot.dies : t.dies = s.dies := by rw [h.rest]
theorem Afoot.teams : t.teams = s.teams := by rw [h.rest]
theorem Afoot.launches : t.launches = s.launches := by rw [h.rest]
theorem Afoot.launch (j : Nat) : t.launch j = s.launch j := by rw [State.launch, State.launch, h.launches]
theorem Afoot.core (c : Nat) : t.core c = s.core c := by rw [State.core, State.core, h.cores]
end

/-- A word whose body stays within its group and what is under way changes nothing outside. -/
theorem Ends.outside {x : Site} {o : Op} {s s1 t : State} {g1 g2 : Group} (he : Ends x o s1 t g1 g2) (ha : Afoot s s1 x.k) :
    x.outside s t := by
  have core : ∀ c, ∃ y, t.core c = { s.core c with sects := y } := fun c => by
    obtain ⟨y, hy⟩ := he.core c
    exact ⟨y, by rw [hy, ha.core]⟩
  refine ⟨fun a => ?memory, ⟨fun c => ?_, fun c => ?_, fun c => ?_, fun c => ?_, fun c => ?_, fun d => ?dsp⟩, fun j hj => ?groups,
    ?dev, ?dies, ?launches, ?vfs, ?fns, ?leaves⟩
  case memory => simp only [State.byteAt, he.mem, ha.mem]
  case dsp => simp only [State.die, he.dies, ha.dies]
  case groups => rw [he.others j hj, ha.others j hj]
  case dev => rw [he.dev, ha.rest]
  case dies => rw [he.dies, ha.rest]
  case launches => rw [he.launches, ha.rest]
  case vfs => rw [he.vfs, ha.rest]
  case fns => rw [he.fns, ha.rest]
  case leaves => rw [he.leaves, ha.rest]
  all_goals
    obtain ⟨y, hy⟩ := core c
    rw [hy]

/-- A word whose body keeps the registers retires and keeps them. -/
theorem Site.run_regs (x : Site) (s : State) (o : Op) (h : Issues x s o) (s1 : State) (g1 : Group)
    (hb : runBody (x.ctx s o) o.body (x.start s) = some (s1, [(x.ctx s o).next])) (hk : KeepsRegs x o s s1 g1)
    (hst : g1.step = none) (hl : s1.launches = s.launches) :
    ∃ t g2, o.run s = .next t ∧ Ends x o s1 t g1 g2 ∧ x.retired t ∧ x.registers o s t := by
  have hl' : s1.launch (launchOf x.k) = some x.l := by rw [State.launch, hl]; exact h.facts.2.1
  obtain ⟨t, g2, hr, he, hs⟩ :=
    Site.run_ends x s o h s1 (x.ctx s o).next g1 hb hk.group hk.active hst hl' ⟨rfl, rfl, rfl, rfl⟩ h.lanes
  exact ⟨t, g2, hr, he, hs, he.registers h hk⟩

/-! ### What is under way -/

/-- What a word's body put under way is under way after the word: its messages, and its accesses but for the counts of
instructions retired behind them and the number of their fragments. -/
theorem Site.run_afoot (x : Site) (s : State) (o : Op) (h : Issues x s o) (s1 : State) (g1 : Group)
    (hb : runBody (x.ctx s o) o.body (x.start s) = some (s1, [(x.ctx s o).next])) (hg : s1.group x.k = some g1)
    (hst : g1.step = none) (hl : s1.launches = s.launches) {t : State} (hr : o.run s = .next t) :
    t.pending = s1.pending ∧ ∀ id a, SMap.find s1.accs id = some a →
      ∃ b, SMap.find t.accs id = some b ∧ b = { a with skid := b.skid, fseq := b.fseq } := by
  have hl' : s1.launch (launchOf x.k) = some x.l := by rw [State.launch, hl]; exact h.facts.2.1
  obtain ⟨t', g2, hr', hg2, ht, -⟩ := Site.run_one x s o h s1 (x.ctx s o).next g1 hb hg hst hl' ⟨rfl, rfl, rfl, rfl⟩ h.lanes
  rw [hr] at hr'
  cases hr'
  -- freeing registers touches the group alone
  have hf : ∀ (ns : List Nat) (s : State), Inside s (s.frees x.k ns) x.k := by
    intro ns
    induction ns with
    | nil => exact fun s => Inside.refl s x.k
    | cons n ns ih => exact fun s => (Inside.modGroup s x.k _).trans (ih (s.freeReg x.k n))
  have hfree := hf (o.use.lastUses x.g x.e (x.pass o)) s1
  refine ⟨by rw [ht.pending, hfree.rest], fun id a ha => ?_⟩
  have haccs := congrArg (fun m : SMap Acc => SMap.find m id) (ht.accs.trans (by rw [hfree.accs]))
  simp only [SMap.find_map _ (fun a : Acc => { a with skid := [], fseq := none }), ha, Option.map_some] at haccs
  obtain ⟨b, hb, heq⟩ := Option.map_eq_some_iff.mp haccs
  exact ⟨b, hb, congrArg (fun c : Acc => { c with skid := b.skid, fseq := b.fseq }) heq⟩

end Sys2Proof.Machine

/-! ## Loads from local memory (R95, R126, R364, R414) -/

namespace Sys2Proof.Machine

open Sys2Proof

/-! ### The checks of R95 -/

/-- An access of which every lane lies in its register and is aligned passes the checks with every acting lane. -/
theorem Ctx.checkWith_pass (c : Ctx) (s : State) (r : Region) (ea : Nat → Int) (n algn : Nat) (hk : r.kind ≠ 0) (hp : r.pend = false)
    (hin : ∀ i, c.lanes.getLsbD i = true → (r.base.toNat : Int) ≤ ea i ∧ ea i + n ≤ r.base.toNat + r.len.toNat)
    (hal : ∀ i, c.lanes.getLsbD i = true → ea i % (algn : Int) = 0) :
    c.checkWith s r false ea n algn = (s, [], c.lanes) := by
  have empty : ∀ p : Nat → Bool, (∀ i, c.lanes.getLsbD i = true → p i = false) →
      maskOf (fun i => c.lanes.getLsbD i && p i) = 0 := by
    intro p h
    rw [← maskOf_false]
    congr 1
    funext i
    cases hi : c.lanes.getLsbD i with
    | false => rfl
    | true => simp [h i hi]
  have hout : maskOf (fun i => c.lanes.getLsbD i && (decide (ea i < r.base.toNat) || decide ((r.base.toNat : Int) + r.len.toNat < ea i + n))) = 0 :=
    empty _ fun i hi => by
      obtain ⟨h1, h2⟩ := hin i hi
      simp [Int.not_lt.mpr h1, Int.not_lt.mpr h2]
  have hmis : maskOf (fun i => c.lanes.getLsbD i && ea i % (algn : Int) != 0) = 0 :=
    empty _ fun i hi => by simp [hal i hi]
  have hk' : (r.kind == 0) = false := by simpa using hk
  have hall : ∀ b : BitVec 32, b &&& ~~~(0 : BitVec 32) = b := fun b => BitVec.and_allOnes (x := b)
  unfold Ctx.checkWith
  simp only [hk', hp, Bool.or_self, Bool.false_eq_true, if_false, hout, beq_self_eq_true, if_true, hall, hmis]

/-- A local kind is one of 8 to 11 (R92). -/
theorem LSpace.ofKind_local {k : BitVec 4} (h : (LSpace.ofKind k).isSome = true) : k ≠ 0 ∧ k ≠ 4 := by
  constructor <;> rintro rfl <;> cases h

section
variable {x : Site} {s : State} {o : Op} {m : MemOp} {kind : AccKind} {n : Nat}

/-- Local accesses that reach their bytes pass the checks of R95 at those addresses and at any the same condition holds of. -/
theorem Site.reaches.check (h : x.reaches s o m kind n) (hl : (LSpace.ofKind (x.region s o m).kind).isSome = true) (s' : State)
    (ea : Nat → Int) (hea : ∀ i, (x.pass o).getLsbD i = true → ∃ j, (x.pass o).getLsbD j = true ∧ ea i = x.ea s o m j) :
    (x.ctx s o).check s' (x.region s o m) kind ea n n = (s', [], (x.ctx s o).lanes) := by
  obtain ⟨h0, h4⟩ := LSpace.ofKind_local hl
  have h4' : ((x.region s o m).kind == 4) = false := by simpa using h4
  unfold Ctx.check
  rw [h.permits, h.held.2.2, h4']
  refine Ctx.checkWith_pass _ _ _ _ _ _ h.held.1 h.held.2.1 (fun i hi => ?_) (fun i hi => ?_)
  · obtain ⟨j, hj, e⟩ := hea i hi
    rw [e]
    exact h.bounds j hj
  · obtain ⟨j, hj, e⟩ := hea i hi
    rw [e]
    exact h.aligned j hj

/-- The address of a lane that reaches its bytes is a natural number of 57 bits. -/
theorem Site.reaches.address (h : x.reaches s o m kind n) (hn : 0 < n) {i : Nat} (hi : (x.pass o).getLsbD i = true) :
    (BitVec.ofNat 57 (x.ea s o m i).toNat).toNat = (x.ea s o m i).toNat ∧ ((x.ea s o m i).toNat : Int) = x.ea s o m i := by
  obtain ⟨h1, h2⟩ := h.bounds i hi
  have h3 := h.small
  have hlt : (x.ea s o m i).toNat < 2 ^ 57 := by omega
  exact ⟨by rw [BitVec.toNat_ofNat, Nat.mod_eq_of_lt hlt], by omega⟩

end

/-! ### The bytes of local memory -/

/-- What local memory holds for a group depends on where its team and launch stand and on the cores and dies. -/
theorem State.localLoad_congr {s t : State} (hm : t.teams = s.teams) (hl : t.launches = s.launches) (hc : t.cores = s.cores)
    (hd : t.dies = s.dies) (k lane : Nat) (sp : LSpace) (off n : Nat) : t.localLoad k lane sp off n = s.localLoad k lane sp off n := by
  have hat : ∀ a, t.localAt k lane sp a = s.localAt k lane sp a := fun a => by
    simp only [State.localAt, State.team, State.launch, State.dspBase, State.die, hm, hl, hd]
  have hrd : ∀ u a, t.unitRd u a = s.unitRd u a := fun u a => by
    cases u <;> simp only [State.unitRd, State.core, State.die, hc, hd]
  simp only [State.localLoad, State.localBytes, hat, hrd]

/-- The bytes that an acting lane reads are those before the issue. -/
theorem Afoot.localLoad {s t : State} {k : Nat} (h : Afoot s t k) (j lane : Nat) (sp : LSpace) (off n : Nat) :
    t.localLoad j lane sp off n = s.localLoad j lane sp off n :=
  State.localLoad_congr h.teams h.launches h.cores h.dies j lane sp off n

/-! ### A result under way -/

/-- The access of a result under way (R23, R76). -/
def Acc.coming (a : Acc) (supv : Bool) (vs : SMap Nat) : Acc :=
  { a with
    supv := supv, st := .data, res := a.words vs, poison := 0, long := true
    book := a.book.map (fun b => (b.1, BitVec.ofNat 256 ((SMap.find vs (lowLane a.lanes)).getD 0))) }

/-- A result from a die scratchpad: its access and its arrival are under way, its registers are marked, nothing else changes. -/
theorem State.farResult_eq (s : State) (a : Acc) (vs : SMap Nat) :
    s.farResult a vs =
      ((((s.bump.setAcc s.nextId { a with supv := s.inRoutine a }).modGroup a.grp
        fun g => { g with pend := g.pend ++ a.pends s.nextId }).setAcc s.nextId (a.coming (s.inRoutine a) vs)).send
          (.loadComplete s.nextId)) := by
  have hf : ∀ t : State, t.accs = (s.bump.setAcc s.nextId { a with supv := s.inRoutine a }).accs →
      (SMap.find t.accs s.nextId).getD a = { a with supv := s.inRoutine a } := by
    intro t ht
    rw [ht]
    simp [State.setAcc]
  unfold State.farResult State.track
  simp only
  rw [hf _ (by simp)]
  rfl

/-- The whole of what a result from a die scratchpad leaves. -/
theorem State.farResult_spec (s : State) (a : Acc) (vs : SMap Nat) (g : Group) (hg : s.group a.grp = some g) :
    let t := s.farResult a vs
    Afoot s t a.grp ∧ t.group a.grp = some { g with pend := g.pend ++ a.pends s.nextId } ∧
      { instr := .loadComplete s.nextId } ∈ t.pending ∧ SMap.find t.accs s.nextId = some (a.coming (s.inRoutine a) vs) := by
  intro t
  have ht : t = s.farResult a vs := rfl
  rw [State.farResult_eq] at ht
  refine ⟨⟨?_, fun j hj => ?_⟩, ?_, ?_, ?_⟩
  · rw [ht]
    unfold State.modGroup
    split <;> rfl
  · rw [ht]
    simp [State.modGroup_group_ne _ _ _ _ hj]
  · rw [ht]
    simp [State.modGroup_group, hg]
  · rw [ht]
    simp [State.send]
  · rw [ht]
    simp [State.setAcc]

/-! ### The access itself -/

/-- The values that some lanes read from local memory, as the access gathers them. -/
def State.localValues (s : State) (k : Nat) (sp : LSpace) (lanes : List Nat) (adr : Nat → Nat) (n : Nat) (f : Nat → Nat) : SMap Nat :=
  lanes.foldl (fun vs i => SMap.put vs i (f (s.localLoad k i sp (adr i) n))) []

theorem State.find_localValues (s : State) (k : Nat) (sp : LSpace) (lanes : List Nat) (adr : Nat → Nat) (n : Nat) (f : Nat → Nat) (i : Nat) :
    SMap.find (s.localValues k sp lanes adr n f) i = if i ∈ lanes then some (f (s.localLoad k i sp (adr i) n)) else none :=
  SMap.find_putAll lanes (fun i => f (s.localLoad k i sp (adr i) n)) [] i

/-- Reading one value after another changes the state for none of them. -/
theorem foldl_putValues (s : State) (f : State → Nat → Nat) (l : List Nat) (vs : SMap Nat) :
    l.foldl (fun (sv : State × SMap Nat) i => (sv.1, SMap.put sv.2 i (f sv.1 i))) (s, vs) =
      (s, l.foldl (fun vs i => SMap.put vs i (f s i)) vs) := by
  induction l generalizing vs with
  | nil => rfl
  | cons i l ih => exact ih _

/-- A load from local memory is charged and gathers the bytes of its lanes; nothing else happens to the state. -/
theorem Ctx.accessLocal_ld (c : Ctx) (s : State) (t : LdTy) (sp : LSpace) (a : Acc) (m : BitVec 32)
    (ha : ∀ i ∈ lanesOf m, (SMap.find a.addrs i).isSome = true) :
    c.accessLocal s (.ld t) sp a m = (s.chargeLocal c.k sp a.n ((lanesOf m).map fun i => (i, a.addr i)),
      (s.chargeLocal c.k sp a.n ((lanesOf m).map fun i => (i, a.addr i))).localValues c.k sp (lanesOf m) a.addr a.n (ldImage t)) := by
  have hl : (lanesOf m).filter (fun i => (SMap.find a.addrs i).isSome) = lanesOf m := List.filter_eq_self.mpr ha
  unfold Ctx.accessLocal
  simp only [hl]
  exact foldl_putValues _ (fun s i => ldImage t (s.localLoad c.k i sp (a.addr i) a.n)) _ _

/-- A codebook load from local memory reads the bytes at the address of its one lane. -/
theorem Ctx.accessLocal_cbld (c : Ctx) (s : State) (sp : LSpace) (a : Acc) (m : BitVec 32) (i : Nat)
    (ha : (lanesOf m).filter (fun j => (SMap.find a.addrs j).isSome) = [i]) :
    c.accessLocal s .cbld sp a m = (s.chargeLocal c.k sp a.n [(i, a.addr i)],
      [(i, (s.chargeLocal c.k sp a.n [(i, a.addr i)]).localLoad c.k i sp (a.addr i) a.n)]) := by
  unfold Ctx.accessLocal
  simp only [ha]
  rfl

theorem State.chargeLocal_inside (s : State) (k : Nat) (sp : LSpace) (n : Nat) (offs : List (Nat × Nat)) (j : Nat) :
    Inside s (s.chargeLocal k sp n offs) j := Inside.charge s j _ _ _

/-! ### LD -/

/-- The access record of a load's acting lanes. -/
def Ctx.loadAcc (c : Ctx) (s : State) (u : Use) (i : Instr) (t : LdTy) (r : Region) (adr : Nat → Nat) : Acc :=
  { kind := .load, use := .word i, vf := vfOf c.k, part := s.leafOf c.k, core := c.g.core, grp := c.k, pc := c.e.pc, page := 0
    lanes := c.lanes, addrs := (lanesOf c.lanes).map (fun l => (l, BitVec.ofNat 57 (adr l))), region := r, frag := c.e.frag
    issue := c.id, n := ldBytes t, dst := (lanesOf c.lanes).filterMap (fun l => (c.dstReg u.dst l).map (fun d => (l, d)))
    w := u.dw, full := c.full u && c.lanes == c.lanes }

/-- The state in which a local load has charged its accesses. -/
def Ctx.loadCharged (c : Ctx) (s : State) (sp : LSpace) (a : Acc) : State :=
  s.chargeLocal c.k sp a.n ((lanesOf c.lanes).map fun l => (l, a.addr l))

/-- The values that a local load reads. -/
def Ctx.loadValues (c : Ctx) (s : State) (sp : LSpace) (t : LdTy) (a : Acc) : SMap Nat :=
  (c.loadCharged s sp a).localValues c.k sp (lanesOf c.lanes) a.addr a.n (ldImage t)

/-- A mask without its lanes that are not its own is itself. -/
theorem stay_of_none_refused (stay lanes : BitVec 32) : stay &&& ~~~(lanes &&& ~~~lanes) = stay := by
  rw [BitVec.and_not_self]
  exact BitVec.and_allOnes (x := stay)

/-- A load through a local register that passes the checks with every lane: it writes what it reads, or puts it under way. -/
theorem Ctx.access_ld (c : Ctx) (s : State) (u : Use) (i : Instr) (t : LdTy) (q : BitVec 4) (ea : Nat → Int) (sp : LSpace)
    (hk : LSpace.ofKind (c.g.reg q.toNat).kind = some sp)
    (hc : c.check s (c.g.reg q.toNat) .load ea (ldBytes t) (ldBytes t) = (s, [], c.lanes)) (hne : c.lanes ≠ 0) :
    let a := c.loadAcc s u i t (c.g.reg q.toNat) (fun l => (ea l).toNat)
    c.access s u i (.ld t) false q ea (fun _ => 0) (fun _ => 0) =
      c.done (if sp == .dsp then (c.loadCharged s sp a).farResult a (c.loadValues s sp t a)
        else c.write u (c.loadCharged s sp a) (fun l => (SMap.find (c.loadValues s sp t a) l).getD 0)) := by
  intro a
  have haddr : ∀ l ∈ lanesOf c.lanes, (SMap.find a.addrs l).isSome = true := by
    intro l hl
    have := SMap.find_tableAll (lanesOf c.lanes) (fun l => BitVec.ofNat 57 (ea l).toNat) l
    rw [if_pos hl] at this
    exact this ▸ rfl
  have hloc := Ctx.accessLocal_ld c s t sp a c.lanes haddr
  have hz : (c.lanes == 0) = false := beq_eq_false_iff_ne.mpr hne
  have hdet : (s.isDet c.k && detAtomic (.ld t) (c.g.reg q.toNat).kind) = false := Bool.and_false _
  unfold Ctx.access
  simp only [MK.kind, MK.bytes, hc, hz, Bool.false_eq_true, if_false, hdet, hk, stay_of_none_refused, List.nil_append]
  have hacc : (c.accessLocal s (.ld t) sp a c.lanes) = (c.loadCharged s sp a, c.loadValues s sp t a) := hloc
  simp only [a, Ctx.loadAcc] at hacc ⊢
  rw [hacc]
  cases sp <;> rfl

/-- A write that follows charges is a write. -/
theorem Wrote.charged {c : Ctx} {u : Use} {s0 s t : State} {g g' : Group} {f : Nat → Nat} (h : Wrote c u s t g g' f)
    (hi : Inside s0 s c.k) (ha : g.active = true) : Wrote c u s0 t g g' f := by
  have hreg : ∀ m, s.regData c.k g m = s0.regData c.k g m := fun m =>
    State.regData_congr _ _ _ _ _ _ ha hi.mem hi.launches (fun j => by simp only [State.core, hi.cores]) rfl rfl rfl rfl rfl
  exact
    { h with
      inside := hi.trans h.inside
      vector := fun m hm => (h.vector m hm).trans (hreg m)
      idle := fun m i hi hf => by rw [h.idle m i hi hf, hreg] }

/-! ### Words whose bodies charge and then write or put under way -/

section
variable {x : Site} {s : State} {o : Op}

/-- With no lane acting a word retires, lands nothing and keeps everything. -/
theorem Site.run_idle (h : Issues x s o) (hp : x.pass o = 0) :
    ∃ t, o.run s = .next t ∧ x.retired t ∧ (∀ f, x.lands o t f) ∧ x.keeps o s t := by
  obtain ⟨h1, h2⟩ := Site.plain_idle h hp
  obtain ⟨t, g2, hr, he, hs, hout, hregs⟩ := Site.run_plain x s o h _ _ h1 h2
  have none : ∀ i, (x.pass o).getLsbD i = true → False := fun i hi => by rw [hp] at hi; simp at hi
  exact ⟨t, hr, hs, fun f => ⟨fun d _ i _ hi => (none i hi).elim, fun n _ i _ hi => (none i hi).elim⟩, hout, hregs,
    SameButRegs.control (SameButRegs.refl x.spent) he⟩

/-- With a lane acting the body runs. -/
theorem Site.runBody_acting (hp : x.pass o ≠ 0) : runBody (x.ctx s o) o.body (x.start s) = o.body (x.ctx s o) (x.start s) := by
  have hl : ((x.ctx s o).lanes == 0) = false := beq_eq_false_iff_ne.mpr hp
  unfold runBody
  rw [hl]
  rfl

/-- A word whose body charges and then writes one result: it retires, its result lands, and it keeps everything else. -/
theorem Site.run_chargeWrite {s0 : State} {f : Nat → Nat} (h : Issues x s o) (hp : x.pass o ≠ 0) (hi : Inside (x.start s) s0 x.k)
    (hg : s0.group x.k = some x.spent) (hb : o.body (x.ctx s o) (x.start s) = (x.ctx s o).done ((x.ctx s o).write o.use s0 f)) :
    ∃ t, o.run s = .next t ∧ x.retired t ∧ x.lands o t f ∧ x.keeps o s t := by
  have ha : x.spent.active = true := h.facts.2.2.1
  obtain ⟨g1, hw⟩ := Ctx.write_spec (x.ctx s o) o.use s0 f x.spent hg ha hp
  have hw' := hw.charged hi ha
  obtain ⟨t, g2, hr, he, hs, hout, hregs⟩ :=
    Site.run_plain x s o h _ _ ((Site.runBody_acting hp).trans hb) (hw'.plain h)
  exact ⟨t, hr, hs, he.lands h hw', hout, hregs, SameButRegs.control hw'.same he⟩

/-- A word whose body charges and then puts a result under way: it retires and keeps everything; the access and its arrival are under
way. -/
theorem Site.run_far {s0 : State} {a : Acc} {vs : SMap Nat} (h : Issues x s o) (hp : x.pass o ≠ 0) (hi : Inside (x.start s) s0 x.k)
    (hg : s0.group x.k = some x.spent) (hk : a.grp = x.k)
    (hb : o.body (x.ctx s o) (x.start s) = (x.ctx s o).done (s0.farResult a vs)) :
    ∃ t, o.run s = .next t ∧ x.retired t ∧ x.keeps o s t ∧ ∃ id b sv, { instr := .loadComplete id } ∈ t.pending ∧
      SMap.find t.accs id = some b ∧ b = { a.coming sv vs with skid := b.skid, fseq := b.fseq } := by
  obtain ⟨hfoot, hgrp, hmsg, hacc⟩ := State.farResult_spec s0 a vs x.spent (by rw [hk]; exact hg)
  rw [hk] at hfoot hgrp
  have hfoot' : Afoot s (s0.farResult a vs) x.k := ((x.start_afoot s).trans hi.afoot).trans hfoot
  have hkeep : KeepsRegs x o s (s0.farResult a vs) { x.spent with pend := x.spent.pend ++ a.pends s0.nextId } :=
    (KeepsRegs.start h).next hgrp rfl (hfoot.mem.trans hi.mem) (hfoot.launches.trans hi.launches)
      (fun c => by rw [hfoot.core, hi.afoot.core])
  have hrun := (Site.runBody_acting hp).trans hb
  obtain ⟨t, g2, hr, he, hs, hregs⟩ := Site.run_regs x s o h _ _ hrun hkeep h.free hfoot'.launches
  obtain ⟨hpend, haccs⟩ := Site.run_afoot x s o h _ _ hrun hgrp h.free hfoot'.launches hr
  obtain ⟨b, hb1, hb2⟩ := haccs _ _ hacc
  exact ⟨t, hr, hs, ⟨he.outside hfoot', hregs, he.control [] rfl rfl rfl rfl fun _ _ => rfl⟩, _, b, _, by rw [hpend]; exact hmsg, hb1, hb2⟩

/-- A result is that of any function with the same values in the acting lanes. -/
theorem Site.lands.congr {t : State} {f f' : Nat → Nat} (h : x.lands o t f) (hf : ∀ i, (x.pass o).getLsbD i = true → f i = f' i) :
    x.lands o t f' := by
  have low : ∀ i, (x.pass o).getLsbD i = true → f (lowLane (x.pass o)) = f' (lowLane (x.pass o)) := fun i hi =>
    hf _ (lowLane_mem (fun h0 => by rw [h0] at hi; simp at hi)).2
  exact ⟨fun d hd i hi hb => by rw [← hf i hb, ← low i hb]; exact h.dst d hd i hi hb,
    fun n hn i hi hb => by rw [← hf i hb]; exact h.latch n hn i hi hb⟩

end

/-- The words of a result, by register and lane (R23). -/
theorem Acc.words_rd (a : Acc) (vs : SMap Nat) (hs : SMap.sorted vs = true) (hk : ∀ v ∈ vs, v.1 < 32) {i v r j : Nat}
    (hv : SMap.find vs i = some v) (hr : SMap.find a.dst i = some r) (hj : j < a.w) :
    Store.rd (a.words vs) ((r + j) * 32 + i) = BitVec.ofNat 32 (v / 2 ^ (32 * j)) := by
  have hmem := SMap.mem_of_find hv
  refine Store.rd_wrs_mem _ [] ((r + j) * 32 + i, BitVec.ofNat 32 (v / 2 ^ (32 * j))) ?_ ?_
  · refine List.mem_flatMap.mpr ⟨(i, v), hmem, ?_⟩
    simp only [hr]
    exact List.mem_map.mpr ⟨j, List.mem_range.mpr hj, rfl⟩
  · -- words of one lane differ by the register, those of two by the lane
    rw [List.pairwise_flatMap]
    refine ⟨fun u hu => ?_, ?_⟩
    · split
      · rw [List.pairwise_map]
        exact List.Pairwise.imp (fun {p q} h e => by simp only at e; omega) (List.pairwise_lt_range (n := a.w))
      · exact List.Pairwise.nil
    · refine List.Pairwise.imp_of_mem (fun {p q} hp hq hlt => ?_) (SMap.sorted_pairwise hs)
      have h1 := hk p hp
      have h2 := hk q hq
      intro y hy z hz
      split at hy
      · split at hz
        · obtain ⟨b, -, rfl⟩ := List.mem_map.mp hy
          obtain ⟨c, -, rfl⟩ := List.mem_map.mp hz
          simp only
          omega
        · cases hz
      · cases hy

end Sys2Proof.Machine

/-! ### LD at its site -/

namespace Sys2Proof

/-- Keys below a bound stay below it where only such keys are put. -/
theorem SMap.lt_of_mem_putAll {α : Type} {b : Nat} {l : List Nat} (f : Nat → α) {m : SMap α} (hl : ∀ j ∈ l, j < b)
    (hm : ∀ v ∈ m, v.1 < b) : ∀ v ∈ l.foldl (fun m j => SMap.put m j (f j)) m, v.1 < b := by
  induction l generalizing m with
  | nil => exact hm
  | cons j l ih =>
    refine ih (fun k hk => hl k (List.mem_cons_of_mem _ hk)) fun v hv => ?_
    rcases SMap.mem_put m j (f j) v hv with rfl | hv
    · exact hl j (List.mem_cons.mpr (.inl rfl))
    · exact hm v hv

end Sys2Proof

namespace Sys2Proof.Machine

open Sys2Proof

theorem ldBytes_pos (t : LdTy) : 0 < ldBytes t := by cases t <;> decide

/-- The access record of a load at its site. -/
def Site.loadAcc (x : Site) (s : State) (o : Op) (i : Instr) (t : LdTy) (m : MemOp) : Acc :=
  (x.ctx s o).loadAcc (x.start s) o.use i t (x.region s o m) (fun l => (x.ea s o m l).toNat)

/-- The values that a local load reads at its site. -/
def Site.loadValues (x : Site) (s : State) (o : Op) (i : Instr) (t : LdTy) (m : MemOp) (sp : LSpace) : SMap Nat :=
  (x.ctx s o).loadValues (x.start s) sp t (x.loadAcc s o i t m)

section
variable {x : Site} {s : State} {o : Op} {m : MemOp}

/-- The body's address of a memory operand is the site's. -/
theorem Site.memEa_start (h : Issues x s o) (m : MemOp) : (x.ctx s o).memEa (x.start s) m = x.ea s o m := by
  funext i
  have hv := x.val_start s o h.facts.2.2.1 (srcIn 0 m.off) i
  simp only [Ctx.memEa, Ctx.ea, hv]
  rfl

variable {t : LdTy} {sp : LSpace} {i : Instr}

/-- The state in which a local load has charged its accesses differs from that before the issue in the site's group and in charges. -/
theorem Site.loadCharged_inside (a : Acc) : Inside (x.start s) ((x.ctx s o).loadCharged (x.start s) sp a) x.k :=
  State.chargeLocal_inside _ _ _ _ _ _

theorem Site.loadCharged_group (h : Issues x s o) (a : Acc) :
    ((x.ctx s o).loadCharged (x.start s) sp a).group x.k = some x.spent := by
  simp only [Ctx.loadCharged, State.chargeLocal, State.charge_group]
  exact Site.start_group h

/-- The address of a load's access in an acting lane. -/
theorem Site.loadAcc_addr (hr : x.reaches s o m .load (ldBytes t)) {l : Nat} (hl : l ∈ lanesOf (x.pass o)) :
    (x.loadAcc s o i t m).addr l = (x.ea s o m l).toNat := by
  have hf := SMap.find_tableAll (lanesOf (x.pass o)) (fun l => BitVec.ofNat 57 (x.ea s o m l).toNat) l
  rw [if_pos hl] at hf
  exact (congrArg (fun v => (v.getD 0).toNat) hf).trans (hr.address (ldBytes_pos t) ((lanesOf_mem _ _).mp hl).2).1

/-- What a load reads in an acting lane: the extended bytes at the lane's address, as they were before the issue. -/
theorem Site.find_loadValues (hr : x.reaches s o m .load (ldBytes t)) {l : Nat} (hl : l ∈ lanesOf (x.pass o)) :
    SMap.find (x.loadValues s o i t m sp) l = some (ldImage t (s.localLoad x.k l sp (x.ea s o m l).toNat (ldBytes t))) := by
  have hfoot : Afoot s ((x.ctx s o).loadCharged (x.start s) sp (x.loadAcc s o i t m)) x.k :=
    (x.start_afoot s).trans (Site.loadCharged_inside _).afoot
  have hf := State.find_localValues ((x.ctx s o).loadCharged (x.start s) sp (x.loadAcc s o i t m)) x.k sp (lanesOf (x.pass o))
    (x.loadAcc s o i t m).addr (ldBytes t) (ldImage t) l
  rw [if_pos hl, Site.loadAcc_addr hr hl, hfoot.localLoad] at hf
  exact hf

/-- The values read stand in lane order, one for each acting lane. -/
theorem Site.loadValues_lanes : SMap.sorted (x.loadValues s o i t m sp) = true ∧ ∀ v ∈ x.loadValues s o i t m sp, v.1 < 32 := by
  exact ⟨SMap.sorted_putAll _ _ [] rfl, SMap.lt_of_mem_putAll _ (fun j hj => ((lanesOf_mem _ _).mp hj).1) (fun v hv => by cases hv)⟩

end

section
variable {c : Ctl} {t : LdTy} {d : Option Dst} {m : MemOp} {x : Site} {s : State} {sp : LSpace} {o : Op}

/-- What a load's body does in local memory: it writes what it reads, or puts it under way. -/
theorem ld_body (ho : o = opLd c t d m) (h : Issues x s o) (hsp : LSpace.ofKind (x.region s o m).kind = some sp)
    (hr : x.reaches s o m .load (ldBytes t)) (hp : x.pass o ≠ 0) :
    let a := x.loadAcc s o (.ld c t d m) t m
    let u := (x.ctx s o).loadCharged (x.start s) sp a
    let vs := x.loadValues s o (.ld c t d m) t m sp
    o.body (x.ctx s o) (x.start s) = (x.ctx s o).done (if sp == .dsp then u.farResult a vs
      else (x.ctx s o).write o.use u (fun l => (SMap.find vs l).getD 0)) := by
  intro a u vs
  have hbody : o.body (x.ctx s o) (x.start s) = (x.ctx s o).access (x.start s) o.use (.ld c t d m) (.ld t) false m.q
      ((x.ctx s o).memEa (x.start s) m) (fun _ => 0) (fun _ => 0) := by
    subst ho
    rfl
  rw [hbody, Site.memEa_start h m]
  exact Ctx.access_ld (x.ctx s o) (x.start s) o.use (.ld c t d m) t m.q (x.ea s o m) sp hsp
    (hr.check (by rw [hsp]; rfl) _ _ fun l hl => ⟨l, hl, rfl⟩) hp

/-- The values that a load reads, by acting lane. -/
theorem Site.loadValues_acting {i : Instr} (hr : x.reaches s o m .load (ldBytes t)) (l : Nat) (hl : (x.pass o).getLsbD l = true) :
    SMap.find (x.loadValues s o i t m sp) l = some (ldImage t (s.localLoad x.k l sp (x.ea s o m l).toNat (ldBytes t))) :=
  Site.find_loadValues hr ((lanesOf_mem _ _).mpr ⟨BitVec.lt_of_getLsbD hl, hl⟩)

/-- The register that an acting lane of a load names. -/
theorem Site.loadAcc_dst {i : Instr} (hu : o.use.dst = d) {l n : Nat} (hl : (x.pass o).getLsbD l = true)
    (hn : (x.ctx s o).dstReg d l = some n) : SMap.find (x.loadAcc s o i t m).dst l = some n := by
  have hf := SMap.find_table (lanesOf (x.pass o)) (fun l => (x.ctx s o).dstReg d l) l
  rw [if_pos ((lanesOf_mem _ _).mpr ⟨BitVec.lt_of_getLsbD hl, hl⟩), hn] at hf
  subst hu
  exact hf

end

/-- What LD does in local memory: the extended bytes land, or are under way from a die scratchpad. -/
theorem ld_local {c : Ctl} {t : LdTy} {d : Option Dst} {m : MemOp} {x : Site} {s : State} {sp : LSpace}
    (h : Issues x s (opLd c t d m)) (hsp : LSpace.ofKind (x.region s (opLd c t d m) m).kind = some sp)
    (hr : x.reaches s (opLd c t d m) m .load (ldBytes t)) :
    let o := opLd c t d m
    let got (i : Nat) : Nat := ldImage t (s.localLoad x.k i sp (x.ea s o m i).toNat (ldBytes t))
    ∃ r, o.run s = .next r ∧ x.retired r ∧ x.keeps o s r ∧ (sp ≠ .dsp → x.lands o r got) ∧
      (sp = .dsp → x.pass o ≠ 0 → x.comes s o r d (ldWidth t) got) := by
  intro o got
  by_cases hp : x.pass o = 0
  · obtain ⟨r, hrun, hret, hland, hkeep⟩ := Site.run_idle h hp
    exact ⟨r, hrun, hret, hkeep, fun _ => hland got, fun _ hp' => absurd hp hp'⟩
  · have hbody := ld_body rfl h hsp hr hp
    dsimp only at hbody
    by_cases hd : sp = .dsp
    · rw [if_pos (beq_iff_eq.mpr hd)] at hbody
      obtain ⟨r, hrun, hret, hkeep, id, b, sv, hmsg, hacc, hb⟩ :=
        Site.run_far h hp (Site.loadCharged_inside _) (Site.loadCharged_group h _) rfl hbody
      refine ⟨r, hrun, hret, hkeep, fun hn => absurd hd hn, fun _ _ => ⟨id, b, hmsg, hacc, by rw [hb]; rfl, by rw [hb]; rfl,
        by rw [hb]; rfl, by rw [hb]; rfl, fun l n j hl hn hj => ?_⟩⟩
      obtain ⟨hsorted, hlanes⟩ := Site.loadValues_lanes (x := x) (s := s) (o := o) (m := m) (t := t) (sp := sp) (i := .ld c t d m)
      rw [hb]
      exact Acc.words_rd _ _ hsorted hlanes (Site.loadValues_acting hr l hl) (Site.loadAcc_dst rfl hl hn) hj
    · rw [if_neg fun e => hd (beq_iff_eq.mp e)] at hbody
      obtain ⟨r, hrun, hret, hland, hkeep⟩ :=
        Site.run_chargeWrite h hp (Site.loadCharged_inside _) (Site.loadCharged_group h _) hbody
      exact ⟨r, hrun, hret, hkeep, fun _ => hland.congr fun l hl => by rw [Site.loadValues_acting hr l hl]; rfl,
        fun hd' => absurd hd' hd⟩

/-! ### CBLD -/

/-- The access record of a codebook load of a slot from an address. -/
def Ctx.bookAcc (y : Ctx) (s : State) (i : Instr) (r : Region) (k : Nat) (a : Int) : Acc :=
  { kind := .load, use := .word i, vf := vfOf y.k, part := s.leafOf y.k, core := y.g.core, grp := y.k, pc := y.e.pc, page := 0
    lanes := y.lanes, addrs := [(lowLane y.lanes, BitVec.ofInt 57 a)], region := r, frag := y.e.frag, issue := y.id, n := 32
    book := some (k, 0) }

/-- A codebook load by no guest, through a local register, with a slot up to 15 that none is loading and an address that passes the
checks: it performs its access and fills the slot, or puts the bytes under way to it. -/
theorem Ctx.cbld_local (y : Ctx) (s : State) (c : Ctl) (m : MemOp) (sk : Src) (k : Nat) (a : Int) (sp : LSpace)
    (hslot : y.uni s (srcIn 1 sk) = k)
    (hea : y.ea s (y.g.reg m.q.toNat).base.toNat { srcIn 0 m.off with uni := true } m.imm (lowLane y.lanes) = a) (hk : k ≤ 15)
    (hcheck : y.check s (y.g.reg m.q.toNat) .load (fun _ => a) 32 32 = (s, [], y.lanes)) (hne : y.lanes ≠ 0) (hguest : y.g.res ≠ .guest)
    (hbook : s.bookPending y.k k = false) (hsp : LSpace.ofKind (y.g.reg m.q.toNat).kind = some sp) :
    let b := y.bookAcc s (.cbld c m sk) (y.g.reg m.q.toNat) k a
    let r := y.accessLocal s .cbld sp b y.lanes
    (opCbld c m sk).body y s = y.done (if sp == .dsp then r.1.farResult b r.2
      else r.1.putBook y.g.core k ((SMap.find r.2 (lowLane y.lanes)).getD 0)) := by
  have hz : (y.lanes == 0) = false := beq_eq_false_iff_ne.mpr hne
  have hg : (y.g.res == .guest) = false := beq_eq_false_iff_ne.mpr hguest
  simp only [opCbld, word, hslot, hea, if_neg (Nat.not_lt.mpr hk), hcheck, hz, State.isGuest, hg, hbook, hsp, Bool.false_eq_true, if_false]
  rfl

/-- The access record of a codebook load of a slot, at the address of its lowest acting lane. -/
def Site.bookAcc (x : Site) (s : State) (o : Op) (i : Instr) (m : MemOp) (k : Nat) : Acc :=
  (x.ctx s o).bookAcc (x.start s) i (x.region s o m) k (x.ea s o m (lowLane (x.pass o)))

/-- The state in which a codebook load has charged its access. -/
def Site.bookCharged (x : Site) (s : State) (o : Op) (m : MemOp) (sp : LSpace) : State :=
  (x.start s).chargeLocal x.k sp 32 [(lowLane (x.pass o), (x.ea s o m (lowLane (x.pass o))).toNat)]

/-- The 32 bytes that a codebook load reads. -/
def Site.bookBytes (x : Site) (s : State) (o : Op) (m : MemOp) (sp : LSpace) : Nat :=
  s.localLoad x.k (lowLane (x.pass o)) sp (x.ea s o m (lowLane (x.pass o))).toNat 32

/-- The lanes of a mask that are one of its lanes. -/
theorem lanesOf_filter_one {m : BitVec 32} {i : Nat} (h : i ∈ lanesOf m) : (lanesOf m).filter (fun j => j == i) = [i] := by
  rw [List.filter_beq, (lanesOf_nodup m).count, if_pos h]
  rfl

section
variable {x : Site} {s : State} {c : Ctl} {m : MemOp} {sk : Src} {sp : LSpace}

theorem Site.bookCharged_inside (o : Op) : Inside (x.start s) (x.bookCharged s o m sp) x.k :=
  State.chargeLocal_inside _ _ _ _ _ _

theorem Site.bookCharged_group {o : Op} (h : Issues x s o) : (x.bookCharged s o m sp).group x.k = some x.spent := by
  simp only [Site.bookCharged, State.chargeLocal, State.charge_group]
  exact Site.start_group h

variable {o : Op} {i : Instr} {k : Nat}

/-- The address of a codebook load's access. -/
theorem Site.bookAcc_addr (hr : x.reaches s o m .load 32) (hp : x.pass o ≠ 0) :
    (x.bookAcc s o i m k).addr (lowLane (x.pass o)) = (x.ea s o m (lowLane (x.pass o))).toNat := by
  obtain ⟨h1, h2⟩ := hr.address (by decide) (lowLane_mem hp).2
  have hfind : SMap.find (x.bookAcc s o i m k).addrs (lowLane (x.pass o)) =
      some (BitVec.ofInt 57 (x.ea s o m (lowLane (x.pass o)))) := if_pos rfl
  rw [Acc.addr, hfind]
  show (BitVec.ofInt 57 (x.ea s o m (lowLane (x.pass o)))).toNat = _
  rw [← h2, BitVec.ofInt_natCast, h2, h1]

/-- Of the acting lanes, the lowest alone has an address. -/
theorem Site.bookAcc_lanes (hp : x.pass o ≠ 0) :
    (lanesOf (x.pass o)).filter (fun j => (SMap.find (x.bookAcc s o i m k).addrs j).isSome) = [lowLane (x.pass o)] := by
  rw [← lanesOf_filter_one ((lanesOf_mem _ _).mpr (lowLane_mem hp))]
  congr 1
  funext j
  by_cases hj : j = lowLane (x.pass o) <;> simp [Site.bookAcc, Ctx.bookAcc, Site.ctx, SMap.find, hj]

/-- The access of a codebook load: charged, and its 32 bytes as they were before the issue. -/
theorem Site.book_accessLocal (hr : x.reaches s o m .load 32) (hp : x.pass o ≠ 0) :
    (x.ctx s o).accessLocal (x.start s) .cbld sp (x.bookAcc s o i m k) (x.pass o) =
      (x.bookCharged s o m sp, [(lowLane (x.pass o), x.bookBytes s o m sp)]) := by
  have hfoot : Afoot s (x.bookCharged s o m sp) x.k := (x.start_afoot s).trans (Site.bookCharged_inside o).afoot
  rw [Ctx.accessLocal_cbld (x.ctx s o) (x.start s) sp (x.bookAcc s o i m k) (x.pass o) _ (Site.bookAcc_lanes hp),
    Site.bookAcc_addr hr hp]
  exact congrArg (fun v => (x.bookCharged s o m sp, [(lowLane (x.pass o), v)])) (hfoot.localLoad _ _ _ _ _)

/-- The group of an issue's context is the site's in its residency and its core. -/
theorem Site.ctx_res : (x.ctx s o).g.res = x.g.res := by
  show (x.g.replayView x.e).res = _
  unfold Group.replayView
  split <;> rfl

theorem Site.ctx_core : (x.ctx s o).g.core = x.g.core := by
  obtain ⟨-, -, -, -, -, -, -, -, -, -, -, hc⟩ := x.g.replayView_fields x.e
  exact hc

/-- What a codebook load's body does in local memory: it fills the slot, or puts the bytes under way to it. -/
theorem cbld_body (ho : o = opCbld c m sk) (hk0 : x.uni s o (srcIn 1 sk) = k) (h : Issues x s o)
    (hsp : LSpace.ofKind (x.region s o m).kind = some sp) (hr : x.reaches s o m .load 32) (hp : x.pass o ≠ 0)
    (hguest : x.g.res ≠ .guest) (hk : k ≤ 15) (hbook : s.bookPending x.k k = false) :
    o.body (x.ctx s o) (x.start s) = (x.ctx s o).done (if sp == .dsp then
        (x.bookCharged s o m sp).farResult (x.bookAcc s o (.cbld c m sk) m k) [(lowLane (x.pass o), x.bookBytes s o m sp)]
      else (x.bookCharged s o m sp).putBook x.g.core k (x.bookBytes s o m sp)) := by
  have hslot : (x.ctx s o).uni (x.start s) (srcIn 1 sk) = k := (x.val_start s o h.facts.2.2.1 (srcIn 1 sk) _).trans hk0
  have hea : (x.ctx s o).ea (x.start s) ((x.ctx s o).g.reg m.q.toNat).base.toNat { srcIn 0 m.off with uni := true } m.imm
      (lowLane (x.ctx s o).lanes) = x.ea s o m (lowLane (x.pass o)) := congrFun (Site.memEa_start h m) _
  have hcheck : (x.ctx s o).check (x.start s) (x.region s o m) .load (fun _ => x.ea s o m (lowLane (x.pass o))) 32 32 =
      (x.start s, [], (x.ctx s o).lanes) :=
    hr.check (by rw [hsp]; rfl) _ _ (fun _ _ => ⟨_, (lowLane_mem hp).2, rfl⟩)
  have hpend : (x.start s).bookPending x.k k = false := by
    rw [x.start_eq]
    exact hbook
  have hbody := Ctx.cbld_local (x.ctx s o) (x.start s) c m sk k _ sp hslot hea hk hcheck hp (by rwa [Site.ctx_res]) hpend hsp
  rw [← ho] at hbody
  refine hbody.trans ?_
  have haccess : (x.ctx s o).accessLocal (x.start s) .cbld sp ((x.ctx s o).bookAcc (x.start s) (.cbld c m sk)
      ((x.ctx s o).g.reg m.q.toNat) k (x.ea s o m (lowLane (x.pass o)))) (x.ctx s o).lanes =
        (x.bookCharged s o m sp, [(lowLane (x.pass o), x.bookBytes s o m sp)]) := Site.book_accessLocal hr hp
  have hv : (SMap.find [(lowLane (x.pass o), x.bookBytes s o m sp)] (lowLane (x.ctx s o).lanes)).getD 0 = x.bookBytes s o m sp := by
    simp [SMap.find, Site.ctx]
  rw [haccess]
  simp only [hv, Site.ctx_core, Site.bookAcc, Site.region]

end

/-- The cells of a core's codebooks after one slot is filled (R177). -/
theorem State.putBook_books (s : State) (core slot v n : Nat) :
    Store.rd ((s.putBook core slot v).core core).books n =
      if 16 * slot ≤ n ∧ n < 16 * slot + 16 then BitVec.ofNat 16 (v / 2 ^ (16 * (n - 16 * slot)))
      else Store.rd (s.core core).books n := by
  simp only [State.putBook, State.modCore_core]
  split
  · rename_i hn
    have hkey : slot * 16 + (n - 16 * slot) = n := by omega
    have := Store.rd_wrs_mem ((List.range 16).map (fun i => (slot * 16 + i, BitVec.ofNat 16 (v / 2 ^ (16 * i))))) (s.core core).books
      (n, BitVec.ofNat 16 (v / 2 ^ (16 * (n - 16 * slot))))
      (List.mem_map.mpr ⟨n - 16 * slot, List.mem_range.mpr (by omega), by rw [hkey]⟩)
      (by
        rw [List.pairwise_map]
        exact List.Pairwise.imp (fun {p q} h e => by simp only at e; omega) (List.pairwise_lt_range (n := 16)))
    exact this
  · rename_i hn
    refine Store.rd_wrs_other _ _ _ fun kv hkv => ?_
    obtain ⟨i, hi, rfl⟩ := List.mem_map.mp hkv
    have := List.mem_range.mp hi
    simp only
    omega

/-- Filling a slot changes nothing of a core but its codebooks. -/
theorem State.putBook_core (s : State) (core slot v c : Nat) :
    ∃ b, (s.putBook core slot v).core c = { s.core c with books := b } := by
  by_cases hc : c = core
  · subst hc
    exact ⟨_, State.modCore_core s c _⟩
  · exact ⟨(s.core c).books, State.modCore_core_ne s core c _ hc⟩

/-- Local memories with the same scratchpads, cluster slices and die scratchpads hold the same bytes. -/
theorem SameLocals.of_units {s t : State} (hs : ∀ c, (t.core c).scratch = (s.core c).scratch) (hc : ∀ c, (t.core c).clu = (s.core c).clu)
    (hd : ∀ d, (t.die d).dsp = (s.die d).dsp) : SameLocals s t := by
  intro u a
  cases u with
  | scr c => simp only [State.unitRd, hs]
  | clu c => simp only [State.unitRd, hc]
  | dsp d => simp only [State.unitRd, hd]

/-- A word whose body charges and then fills a slot of its core: it retires, keeps registers and memory, and the slot holds the
value. -/
theorem Site.run_fillBook {x : Site} {s s0 : State} {o : Op} {k v : Nat} (h : Issues x s o) (hp : x.pass o ≠ 0)
    (hi : Inside (x.start s) s0 x.k) (hg : s0.group x.k = some x.spent)
    (hb : o.body (x.ctx s o) (x.start s) = (x.ctx s o).done (s0.putBook x.g.core k v)) :
    ∃ t, o.run s = .next t ∧ x.retired t ∧ x.registers o s t ∧ (∀ a, t.byteAt a = s.byteAt a) ∧ SameLocals s t ∧
      ∀ n, Store.rd (t.core x.g.core).books n = if 16 * k ≤ n ∧ n < 16 * k + 16 then
        BitVec.ofNat 16 (v / 2 ^ (16 * (n - 16 * k))) else Store.rd (s.core x.g.core).books n := by
  have hfoot : Afoot s s0 x.k := (x.start_afoot s).trans hi.afoot
  have hput : ∀ c, ∃ b, (s0.putBook x.g.core k v).core c = { s.core c with books := b } := fun c => by
    obtain ⟨b, h⟩ := State.putBook_core s0 x.g.core k v c
    exact ⟨b, by rw [h, hfoot.core]⟩
  have hregs : KeepsRegs x o s (s0.putBook x.g.core k v) x.spent :=
    (KeepsRegs.start h).next (by simp only [State.putBook, State.modCore_group, hg]) rfl hi.mem hi.launches fun c => by
      obtain ⟨b, h⟩ := hput c
      rw [h]
      simp only [State.core, x.start_cores]
  obtain ⟨t, g2, hrun, he, hret, hreg⟩ :=
    Site.run_regs x s o h _ x.spent ((Site.runBody_acting hp).trans hb) hregs h.free hfoot.launches
  refine ⟨t, hrun, hret, hreg, fun a => ?memory, .of_units (fun c => ?scratch) (fun c => ?clu) (fun d => ?dsp), fun n => ?slot⟩
  case memory => exact congrArg (fun m => Store.rd m a) (he.mem.trans hfoot.mem)
  case scratch =>
    obtain ⟨y, hy⟩ := he.core c
    obtain ⟨b, h⟩ := hput c
    rw [hy, h]
  case clu =>
    obtain ⟨y, hy⟩ := he.core c
    obtain ⟨b, h⟩ := hput c
    rw [hy, h]
  case dsp => exact congrArg (fun m => ((SMap.find m d).getD {}).dsp) (he.dies.trans hfoot.dies)
  case slot =>
    obtain ⟨y, hy⟩ := he.core x.g.core
    rw [hy, ← hfoot.core x.g.core]
    exact State.putBook_books s0 x.g.core k v n

/-- What CBLD does in local memory: the slot holds the 32 bytes at the address, or they are under way to it from a die scratchpad. -/
theorem cbld_local {c : Ctl} {m : MemOp} {sk : Src} {x : Site} {s : State} {sp : LSpace} {o : Op} {k : Nat} (ho : o = opCbld c m sk)
    (hk0 : x.uni s o (srcIn 1 sk) = k) (h : Issues x s o) (hsp : LSpace.ofKind (x.region s o m).kind = some sp)
    (hr : x.reaches s o m .load 32) (hp : x.pass o ≠ 0) (hguest : x.g.res ≠ .guest) (hk : k ≤ 15) (hbook : s.bookPending x.k k = false) :
    ∃ t, o.run s = .next t ∧ x.retired t ∧ x.registers o s t ∧ (∀ a, t.byteAt a = s.byteAt a) ∧ SameLocals s t ∧
      (sp ≠ .dsp → ∀ n, Store.rd (t.core x.g.core).books n = if 16 * k ≤ n ∧ n < 16 * k + 16 then
        BitVec.ofNat 16 (x.bookBytes s o m sp / 2 ^ (16 * (n - 16 * k))) else Store.rd (s.core x.g.core).books n) ∧
      (sp = .dsp → (∀ c, (t.core c).books = (s.core c).books) ∧ ∃ id a, { instr := .loadComplete id } ∈ t.pending ∧
        SMap.find t.accs id = some a ∧ a.st = .data ∧ a.book = some (k, BitVec.ofNat 256 (x.bookBytes s o m sp))) := by
  have hbody := cbld_body ho hk0 h hsp hr hp hguest hk hbook
  by_cases hd : sp = .dsp
  · rw [if_pos (beq_iff_eq.mpr hd)] at hbody
    obtain ⟨t, hrun, hret, hkeep, id, b, sv, hmsg, hacc, hb2⟩ :=
      Site.run_far h hp (Site.bookCharged_inside o) (Site.bookCharged_group h) rfl hbody
    have hloc := hkeep.outside.locals
    have hv : (SMap.find [(lowLane (x.pass o), x.bookBytes s o m sp)] (lowLane (x.pass o))).getD 0 = x.bookBytes s o m sp := by
      simp [SMap.find]
    refine ⟨t, hrun, hret, hkeep.registers, hkeep.outside.memory, .of_units hloc.scratch hloc.clu hloc.dsp, fun hn => absurd hd hn,
      fun _ => ⟨hloc.books, id, b, hmsg, hacc, by rw [hb2]; rfl, ?_⟩⟩
    rw [hb2]
    exact congrArg (fun v => some (k, BitVec.ofNat 256 v)) hv
  · rw [if_neg (fun e => hd (beq_iff_eq.mp e))] at hbody
    obtain ⟨t, hrun, hret, hreg, hmem, hloc, hslot⟩ := Site.run_fillBook h hp (Site.bookCharged_inside o) (Site.bookCharged_group h) hbody
    exact ⟨t, hrun, hret, hreg, hmem, hloc, fun _ => hslot, fun hd' => absurd hd' hd⟩

/-! ### PREF -/

/-- A prefetch through a local register that passes the checks with every lane does nothing (R430). -/
theorem Ctx.prefetch_local (c : Ctx) (s : State) (m : MemOp) (l2 : Bool) (hk : (LSpace.ofKind (c.g.reg m.q.toNat).kind).isSome = true)
    (hc : c.check s (c.g.reg m.q.toNat) .load (c.memEa s m) 1 1 = (s, [], c.lanes)) : c.prefetch s m l2 = c.done s := by
  simp only [Ctx.prefetch, hc, hk, if_true, stay_of_none_refused, List.nil_append]
  rfl

/-- A word whose body only lets the lanes move on retires and keeps everything. -/
theorem Site.run_nothing {x : Site} {s : State} {o : Op} (h : Issues x s o)
    (hb : x.pass o ≠ 0 → o.body (x.ctx s o) (x.start s) = (x.ctx s o).done (x.start s)) :
    ∃ t, o.run s = .next t ∧ x.retired t ∧ x.keeps o s t := by
  by_cases hp : x.pass o = 0
  · obtain ⟨t, hrun, hret, -, hkeep⟩ := Site.run_idle h hp
    exact ⟨t, hrun, hret, hkeep⟩
  · have hst : (x.start s).launches = s.launches := x.start_launches s
    obtain ⟨t, g2, hrun, he, hret, hreg⟩ := Site.run_regs x s o h _ _ ((Site.runBody_acting hp).trans (hb hp)) (.start h) h.free hst
    exact ⟨t, hrun, hret, he.outside (x.start_afoot s), hreg, SameButRegs.control (SameButRegs.refl x.spent) he⟩

/-- PREF through a local register retires and changes nothing. -/
theorem pref_local {m : MemOp} {x : Site} {s : State} {o : Op} {l2 : Bool} (h : Issues x s o)
    (ho : o.body = fun x s => x.prefetch s m l2) (hl : (LSpace.ofKind (x.region s o m).kind).isSome = true)
    (hr : x.reaches s o m .load 1) : ∃ t, o.run s = .next t ∧ x.retired t ∧ x.keeps o s t := by
  refine Site.run_nothing h fun _ => ?_
  rw [ho]
  refine Ctx.prefetch_local (x.ctx s o) (x.start s) m l2 hl ?_
  rw [Site.memEa_start h m]
  exact hr.check hl _ _ (fun l hl => ⟨l, hl, rfl⟩)

/-- Settles O26: LD, CBLD and PREF each by the lemma about their bodies in local memory. -/
theorem localLoadsReadTheirBytes : Obligations.LocalLoadsReadTheirBytes := by
  unfold Obligations.LocalLoadsReadTheirBytes
  refine ⟨?ld, ?cbld, ?pref, fun v => ⟨rfl, rfl, rfl, rfl, rfl, rfl, rfl⟩⟩
  case ld =>
    intro c t d m x s o sp hw h hsp hr
    cases hw
    exact ld_local h hsp hr
  case cbld =>
    intro c m sk x s o sp hw h hsp hr hp hguest k hk hbook got
    cases hw
    exact cbld_local rfl rfl h hsp hr hp hguest hk hbook
  case pref =>
    intro c m x s o hl hr i hi hw h
    rcases List.mem_cons.mp hi with rfl | hi
    · cases hw
      exact pref_local (l2 := false) h rfl hl hr
    · obtain rfl := List.mem_singleton.mp hi
      cases hw
      exact pref_local (l2 := true) h rfl hl hr

end Sys2Proof.Machine

/-! ## What a save leaves alone

The accounts of the VFs, launches and teams, the launches and teams themselves and the rest of the device stand outside what the
save of a group writes: its record, the caches on the way, the counted charges, a peer's connection, a leaf's limiter. -/

namespace Sys2Proof.Machine

open Sys2Proof

/-- A state without the parts that the save of a group may write. -/
def State.ledger (s : State) : State :=
  { s with groups := [], cores := [], dies := [], leaves := [], mem := [], poison := [], unposted := [],
           dev := { s.dev with conns := [] } }

/-- What every step of a fold leaves, the fold leaves. -/
theorem foldl_keeps {α β : Type} (p : State → β) {f : State → α → State} (h : ∀ s a, p (f s a) = p s) (l : List α) (s : State) :
    p (l.foldl f s) = p s := by
  induction l generalizing s with
  | nil => rfl
  | cons a l ih => rw [List.foldl_cons, ih, h]

section Parts
variable (s : State)

@[simp] theorem State.setGroup_ledger (k : Nat) (g : Group) : (s.setGroup k g).ledger = s.ledger := rfl

@[simp] theorem State.modGroup_ledger (k : Nat) (f : Group → Group) : (s.modGroup k f).ledger = s.ledger := by
  unfold State.modGroup; split <;> rfl

@[simp] theorem State.modCore_ledger (c : Nat) (f : Core → Core) : (s.modCore c f).ledger = s.ledger := rfl

@[simp] theorem State.modDie_ledger (d : Nat) (f : Die → Die) : (s.modDie d f).ledger = s.ledger := rfl

@[simp] theorem State.modLeaf_ledger (n : Nat) (f : Leaf → Leaf) : (s.modLeaf n f).ledger = s.ledger := by
  unfold State.modLeaf; split <;> rfl

@[simp] theorem State.homeWrite_ledger (kvs : List (Nat × Byte)) : (s.homeWrite kvs).ledger = s.ledger := rfl

@[simp] theorem State.homePaste_ledger (h n : Nat) (t : Store 8) : (s.homePaste h n t).ledger = s.ledger := rfl

@[simp] theorem State.charge_ledger (p : Payer) (cls n : Nat) : (s.charge p cls n).ledger = s.ledger := by
  unfold State.charge; split <;> rfl

@[simp] theorem State.chargeTile_ledger (p : Payer) (cls n tile : Nat) : (s.chargeTile p cls n tile).ledger = s.ledger := by
  unfold State.chargeTile; split <;> rfl

@[simp] theorem State.chargeMsg_ledger (p : Payer) (hops : Nat) : (s.chargeMsg p hops).ledger = s.ledger :=
  s.charge_ledger p 20 hops

@[simp] theorem State.chargeData_ledger (p : Payer) (hops n : Nat) : (s.chargeData p hops n).ledger = s.ledger := by
  simp [State.chargeData]

@[simp] theorem State.moved_ledger (leaf ctl n : Nat) : (s.moved leaf ctl n).ledger = s.ledger := by
  unfold State.moved; split <;> simp

end Parts

/-! ### The way home of written bytes -/

@[simp] theorem State.l2Touch_ledger (s : State) (p : Payer) (leaf line : Nat) (bytes : BitVec 512) (write : Bool) :
    (s.l2Touch p leaf line bytes write).ledger = s.ledger := by
  unfold State.l2Touch
  dsimp only
  split
  · simp only [State.modDie_ledger, apply_ite State.ledger, State.moved_ledger, State.chargeTile_ledger, ite_self]
  · split <;>
      simp only [State.modDie_ledger, apply_ite State.ledger, State.moved_ledger, State.chargeTile_ledger, ite_self]

@[simp] theorem State.chargeWrites_ledger (s : State) (p : Payer) (leaf core : Nat) (bs : Blocks) :
    (s.chargeWrites p leaf core bs).ledger = s.ledger := by
  refine foldl_keeps State.ledger (fun s bs => ?_) _ _
  simp [apply_ite State.ledger, foldl_keeps State.ledger]

@[simp] theorem State.peerSend_ledger (s : State) (vf win : Nat) (kind : ReqKind) (op part first last : Nat) :
    (s.peerSend vf win kind op part first last).ledger = s.ledger := by
  unfold State.peerSend
  split
  · rfl
  · exact State.moved_ledger _ _ _ _

@[simp] theorem State.writeBack_ledger (s : State) (core : Nat) (x : L1Line) (m : BitVec 512) (op : Nat) :
    (s.writeBack core x m op).ledger = s.ledger := by
  unfold State.writeBack
  dsimp only
  split
  · rfl
  · split
    · simp
    · split
      · rw [foldl_keeps State.ledger fun s i => by rw [State.peerSend_ledger, State.charge_ledger], State.chargeWrites_ledger]
      · simp

@[simp] theorem State.l1Room_ledger (s : State) (core line : Nat) : (s.l1Room core line).ledger = s.ledger := by
  unfold State.l1Room
  dsimp only
  split
  · rfl
  · split <;> simp

@[simp] theorem State.l1Get_ledger (s : State) (core : Nat) (x : Xlat) (va : Nat) : (s.l1Get core x va).1.ledger = s.ledger := by
  unfold State.l1Get
  dsimp only
  split <;> simp

@[simp] theorem State.l1Store_ledger (s : State) (team core : Nat) (x : Xlat) (va n v : Nat) :
    (s.l1Store team core x va n v).ledger = s.ledger := by
  simp [State.l1Store]

@[simp] theorem State.l1Range_ledger (s : State) (core vf a n : Nat) (wb inv : Bool) :
    (s.l1Range core vf a n wb inv).ledger = s.ledger := by
  refine foldl_keeps State.ledger (fun s x => ?_) _ _
  cases wb <;> simp

/-! ### The record of a group -/

@[simp] theorem State.recStore_ledger (s : State) (k : Nat) (g : Group) (x : Xlat) (va n v : Nat) :
    (s.recStore k g x va n v).ledger = s.ledger := by
  unfold State.recStore; split <;> simp

@[simp] theorem State.putLanes_ledger (s : State) (k : Nat) (g : Group) (x : Xlat) (n : Nat) (m : BitVec 32) (d : Store 32) :
    (s.putLanes k g x n m d).ledger = s.ledger := by
  unfold State.putLanes
  split
  · simp
  · exact foldl_keeps State.ledger (fun s i => by simp) _ _

@[simp] theorem State.writeBackLines_ledger (s : State) (k : Nat) : (s.writeBackLines k).ledger = s.ledger := by
  unfold State.writeBackLines
  split
  · rfl
  · simp only [State.setGroup_ledger, State.charge_ledger]
    refine foldl_keeps State.ledger (fun s kv => ?_) _ _
    split <;> simp

@[simp] theorem State.scatter_ledger (s : State) (all : Bool) (old new : Store 8) (b : Nat) (hs : List (Nat × Nat)) :
    (s.scatter all old new b hs).ledger = s.ledger := by
  induction hs generalizing s b with
  | nil => rfl
  | cons hn hs ih =>
    rw [State.scatter, ih]
    refine foldl_keeps State.ledger (fun s i => ?_) _ _
    simp [apply_ite State.ledger]

@[simp] theorem State.putHeader_ledger (s : State) (k : Nat) (all : Bool) : (s.putHeader k all).ledger = s.ledger := by
  unfold State.putHeader
  split
  · rfl
  · split <;> simp

@[simp] theorem State.deactivate_ledger (s : State) (k : Nat) : (s.deactivate k).ledger = s.ledger := by
  unfold State.deactivate; split <;> simp

@[simp] theorem State.fullSave_ledger (s : State) (k : Nat) : (s.fullSave k).ledger = s.ledger := by
  unfold State.fullSave
  split
  · rfl
  · split <;> simp [State.remove]

/-- The stop of a launch's groups leaves the ledger. -/
@[simp] theorem State.stopGroups_ledger (s : State) (l : Nat) : (s.stopGroups l).ledger = s.ledger := by
  refine foldl_keeps State.ledger (fun s k => ?_) _ _
  dsimp only
  split
  · split <;> simp
  · simp

end Sys2Proof.Machine

/-! ## Declaring exhaustion (R236, R237) -/

namespace Sys2Proof.Machine

open Sys2Proof

/-- The ledger without the launches: what a declaration leaves alone. -/
def State.meters (s : State) : State := { s.ledger with launches := [] }

theorem meters_now {s t : State} (h : s.meters = t.meters) : s.now = t.now :=
  show s.meters.now = t.meters.now from congrArg _ h

theorem meters_teams {s t : State} (h : s.meters = t.meters) : s.teams = t.teams :=
  show s.meters.teams = t.meters.teams from congrArg _ h

theorem meters_team {s t : State} (h : s.meters = t.meters) (k : Nat) : s.team k = t.team k := by
  simp [State.team, meters_teams h]

theorem meters_vfs {s t : State} (h : s.meters = t.meters) : s.vfs = t.vfs :=
  show s.meters.vfs = t.meters.vfs from congrArg _ h

theorem meters_vf {s t : State} (h : s.meters = t.meters) (v : Nat) : s.vf v = t.vf v := by
  simp [State.vf, meters_vfs h]

/-- The device but for its connections. -/
theorem meters_dev {s t : State} (h : s.meters = t.meters) : { s.dev with conns := [] } = { t.dev with conns := [] } :=
  show s.meters.dev = t.meters.dev from congrArg _ h

/-- Every team of a launch is done. -/
def State.teamsDone (s : State) (l : Nat) : Bool := 
  (s.teamsOf l).all fun t => match s.team t with | some x => x.st == .done | none => true

theorem teamsDone_congr {s t : State} (h : s.teams = t.teams) (l : Nat) : s.teamsDone l = t.teamsDone l := by
  simp [State.teamsDone, State.teamsOf, State.team, h]

/-- A launch with an unfinished team is not done. -/
theorem teamsDone_eq_false {s : State} {k : Nat} {y : Team} (h : s.team k = some y) (hy : y.st ≠ .done) :
    s.teamsDone (teamLaunch k) = false := by
  have hk : k ∈ s.teamsOf (teamLaunch k) :=
    List.mem_filter.mpr ⟨List.mem_map.mpr ⟨(k, y), SMap.mem_of_find h, rfl⟩, beq_self_eq_true _⟩
  exact List.all_eq_false.mpr ⟨k, hk, by simp [h, hy]⟩

/-- A launch after exhaustion has been declared for it. -/
def Launch.declared (m : Launch) (done quota : Bool) (now : Nat) : Launch :=
  match m.st with
  | .running => if done then { m with overrun := true } else { m with st := .stopping quota, since := now }
  | .evicting | .evicted | .granted => { m with st := .stopping quota, since := now }
  | _ => m

section Declared
variable (m : Launch) (done quota : Bool) (now : Nat)

@[simp] theorem Launch.declared_acctD : (m.declared done quota now).acctD = m.acctD := by
  unfold Launch.declared
  split <;> simp only [apply_ite Launch.acctD, ite_self]

@[simp] theorem Launch.declared_acctN : (m.declared done quota now).acctN = m.acctN := by
  unfold Launch.declared
  split <;> simp only [apply_ite Launch.acctN, ite_self]

theorem Launch.declared_running (h : m.st = .running) : m.declared false quota now = { m with st := .stopping quota, since := now } := by
  simp [Launch.declared, h]

theorem Launch.declared_stopping (q : Bool) (h : m.st = .stopping q) : m.declared done quota now = m := by
  simp [Launch.declared, h]

/-- A second declaration of the same kind changes nothing. -/
theorem Launch.declared_declared : (m.declared done quota now).declared done quota now = m.declared done quota now := by
  cases h : m.st <;> cases done <;> simp [Launch.declared, h]

end Declared

theorem State.stopGroups_launch (s : State) (l j : Nat) : (s.stopGroups l).launch j = s.launch j := by
  have h : (s.stopGroups l).launches = s.launches :=
    show (s.stopGroups l).ledger.launches = s.ledger.launches from congrArg _ (s.stopGroups_ledger l)
  rw [State.launch, State.launch, h]

@[simp] theorem State.setLaunch_meters (s : State) (l : Nat) (m : Launch) : (s.setLaunch l m).meters = s.meters := rfl

theorem meters_of_ledger {s t : State} (h : s.ledger = t.ledger) : s.meters = t.meters := by
  rw [State.meters, State.meters, h]

/-- A declaration is the declared launch, its groups stopped or not. -/
theorem State.declare_cases (s : State) (l : Nat) (quota : Bool) :
    (s.launch l = none ∧ s.declare l quota = s) ∨
    ∃ m, s.launch l = some m ∧
      (s.declare l quota = s ∧ m.declared (s.teamsDone l) quota s.now = m ∨
        s.declare l quota = s.setLaunch l (m.declared (s.teamsDone l) quota s.now) ∨
        s.declare l quota = (s.setLaunch l (m.declared (s.teamsDone l) quota s.now)).stopGroups l) := by
  unfold State.declare
  cases h : s.launch l with
  | none => exact .inl ⟨rfl, rfl⟩
  | some m =>
    refine .inr ⟨m, rfl, ?_⟩
    dsimp only
    cases hs : m.st <;> dsimp only
    case running =>
      cases hd : s.teamsDone l with
      | true => exact .inr (.inl ((if_pos hd).trans (by simp [Launch.declared, hs])))
      | false => exact .inr (.inr ((if_neg (ne_true_of_eq_false hd)).trans (by simp [Launch.declared, hs])))
    case granted | evicting | evicted => exact .inr (.inl (by simp [Launch.declared, hs]))
    case stopping | stopped | killed | swept => exact .inl ⟨rfl, by simp [Launch.declared, hs]⟩

@[simp] theorem State.declare_meters (s : State) (l : Nat) (quota : Bool) : (s.declare l quota).meters = s.meters := by
  obtain ⟨-, h⟩ | ⟨m, -, ⟨h, -⟩ | h | h⟩ := s.declare_cases l quota <;> rw [h]
  · exact s.setLaunch_meters _ _
  · exact (meters_of_ledger (State.stopGroups_ledger _ _)).trans (s.setLaunch_meters _ _)

/-- A declaration turns the launch that it names into the declared one and no other. -/
theorem State.declare_launch (s : State) (l : Nat) (quota : Bool) (j : Nat) :
    (s.declare l quota).launch j =
      if j = l then (s.launch j).map fun m => m.declared (s.teamsDone j) quota s.now else s.launch j := by
  by_cases hj : j = l
  · subst hj
    rw [if_pos rfl]
    obtain ⟨hl, h⟩ | ⟨m, hl, ⟨h, hm⟩ | h | h⟩ := s.declare_cases j quota
    · simp [h, hl]
    · simp [h, hl, hm]
    · simp [h, hl]
    · simp [h, hl, State.stopGroups_launch]
  · rw [if_neg hj]
    obtain ⟨-, h⟩ | ⟨m, -, ⟨h, -⟩ | h | h⟩ := s.declare_cases l quota <;> rw [h]
    · exact State.setLaunch_launch_ne _ _ _ _ hj
    · rw [State.stopGroups_launch, State.setLaunch_launch_ne _ _ _ _ hj]

/-- Declarations for several launches. -/
theorem State.declareAll_launch (ls : List Nat) (quota : Bool) (s : State) (j : Nat) :
    (ls.foldl (fun s l => s.declare l quota) s).launch j =
      if j ∈ ls then (s.launch j).map fun m => m.declared (s.teamsDone j) quota s.now else s.launch j := by
  induction ls generalizing s with
  | nil => rfl
  | cons l ls ih =>
    have hm := s.declare_meters l quota
    rw [List.foldl_cons, ih, State.declare_launch, teamsDone_congr (meters_teams hm), meters_now hm]
    by_cases hj : j = l
    · subst hj
      cases s.launch j <;> simp [Launch.declared_declared]
    · simp [hj]

theorem State.checkBudget_meters (s : State) (l : Nat) : (s.checkAccounts (some l) none).meters = s.meters := by
  unfold State.checkAccounts
  dsimp only
  split
  · split
    · exact s.declare_meters l false
    · rfl
  · rfl

theorem State.checkQuota_meters (s : State) (v : Nat) : (s.checkAccounts none (some v)).meters = s.meters := by
  unfold State.checkAccounts
  dsimp only
  split
  · exact foldl_keeps State.meters (fun s l => s.declare_meters l true) _ s
  · rfl

/-- The checks of the accounts leave the meters. -/
@[simp] theorem State.checkAccounts_meters (s : State) (l v : Option Nat) : (s.checkAccounts l v).meters = s.meters := by
  cases l with
  | none =>
    cases v with
    | none => rfl
    | some v => exact s.checkQuota_meters v
  | some l =>
    cases v with
    | none => exact s.checkBudget_meters l
    | some v => exact ((s.checkAccounts (some l) none).checkQuota_meters v).trans (s.checkBudget_meters l)

@[simp] theorem State.checkQuotas_meters (s : State) : s.checkQuotas.meters = s.meters :=
  foldl_keeps State.meters (fun s v => s.checkAccounts_meters none (some v)) _ s

/-- A launch after the checks of its account and of its VF's quota. -/
def Launch.checked (m : Launch) (f : Vf) (done : Bool) (now : Nat) : Launch :=
  let m := if m.exhausted then m.declared done false now else m
  if f.exhausted then m.declared done true now else m

section Checked
variable (m : Launch) (f : Vf) (done : Bool) (now : Nat)

@[simp] theorem Launch.checked_acctD : (m.checked f done now).acctD = m.acctD := by
  simp [Launch.checked, apply_ite Launch.acctD]

@[simp] theorem Launch.checked_acctN : (m.checked f done now).acctN = m.acctN := by
  simp [Launch.checked, apply_ite Launch.acctN]

/-- A running launch with an unfinished team whose account has reached its budget is stopping, whatever the quota. -/
theorem Launch.checked_spent (hr : m.st = .running) (h : m.exhausted = true) :
    m.checked f false now = { m with st := .stopping false, since := now } := by
  simp [Launch.checked, h, Launch.declared_running _ _ _ hr, Launch.declared_stopping]

theorem Launch.checked_over (hr : m.st = .running) (h : m.exhausted = false) (hf : f.exhausted = true) :
    m.checked f false now = { m with st := .stopping true, since := now } := by
  simp [Launch.checked, h, hf, Launch.declared_running _ _ _ hr]

theorem Launch.checked_unspent (h : m.exhausted = false) (hf : f.exhausted = false) : m.checked f done now = m := by
  simp [Launch.checked, h, hf]

end Checked

/-- A launch after the checks that follow a posting to its account. -/
theorem State.checkAccounts_launch {s : State} {l : Nat} {m : Launch} (h : s.launch l = some m) :
    (s.checkAccounts (some l) (some (launchVf l))).launch l = some (m.checked (s.vf (launchVf l)) (s.teamsDone l) s.now) := by
  have hkey {t : State} {x : Launch} (hx : t.launch l = some x) :
      l ∈ (SMap.keys t.launches).filter fun j => launchVf j == launchVf l :=
    List.mem_filter.mpr ⟨List.mem_map.mpr ⟨(l, x), SMap.mem_of_find hx, rfl⟩, beq_self_eq_true _⟩
  unfold State.checkAccounts Launch.checked
  simp only [h]
  cases he : m.exhausted with
  | false =>
    cases hf : (s.vf (launchVf l)).exhausted with
    | false => simp [hf, h]
    | true => simp only [hf, if_true, Bool.false_eq_true, if_false, State.declareAll_launch, if_pos (hkey h), h, Option.map_some]
  | true =>
    have hm := s.declare_meters l false
    have hl : (s.declare l false).launch l = some (m.declared (s.teamsDone l) false s.now) := by
      simp [State.declare_launch, h]
    simp only [if_true, meters_vf hm]
    cases hf : (s.vf (launchVf l)).exhausted with
    | false => simp [hl]
    | true =>
      simp only [if_true, State.declareAll_launch, if_pos (hkey hl), hl, Option.map_some, teamsDone_congr (meters_teams hm),
        meters_now hm]

/-- Where neither account has reached its bound, the checks change nothing. -/
theorem State.checkAccounts_eq_self {s : State} {l : Nat} {m : Launch} (h : s.launch l = some m) (hm : m.exhausted = false)
    {v : Nat} (hv : (s.vf v).exhausted = false) : s.checkAccounts (some l) (some v) = s := by
  simp [State.checkAccounts, h, hm, hv]

end Sys2Proof.Machine

/-! ## POSTING (R229, R235, R236) -/

namespace Sys2Proof.Machine

open Sys2Proof

/-- A launch with a charge in its D or N part. -/
def Launch.charged (nd : Bool) (n : Nat) (x : Launch) : Launch :=
  if nd then { x with acctN := x.acctN.add n } else { x with acctD := x.acctD.add n }

/-- A team with a charge in its D or N part. -/
def Team.charged (nd : Bool) (n : Nat) (x : Team) : Team :=
  if nd then { x with acctN := x.acctN.add n } else { x with acctD := x.acctD.add n }

/-- The accounts of a team, its launch and its VF charged. -/
def State.chargedTeam (s : State) (k : Nat) (nd : Bool) (n : Nat) : State :=
  (((s.modVf (launchVf (teamLaunch k)) fun f => f.spend n).modDev fun d => { d with interval := d.interval + n }).modLaunch
    (teamLaunch k) (Launch.charged nd n)).modTeam k (Team.charged nd n)

theorem State.postOne_team {s : State} {c : Charge} {k : Nat} (hb : s.badMeter c = false) (hp : c.payer = .team k) :
    s.postOne c = (s.chargedTeam k c.nd (c.n * (s.vf (launchVf (teamLaunch k))).coefOf c.cls), some (teamLaunch k),
      some (launchVf (teamLaunch k))) := by
  unfold State.postOne
  simp only [hb, hp, Bool.false_eq_true, if_false]
  rfl

/-- The house account charged. -/
def State.chargedHouse (s : State) (n : Nat) : State :=
  s.modDev fun d => { d with house := d.house.add n, interval := d.interval + n }

theorem State.postOne_house {s : State} {c : Charge} (hp : c.payer = .house) :
    s.postOne c = (s.chargedHouse (c.n * Config.coef c.cls), none, none) := by
  unfold State.postOne
  simp only [hp, ite_self]
  rfl

/-- The state in which a posting takes the charges up. -/
def State.postStart (s : State) : State := { s.modDev (fun d => { d with lastPost := s.now }) with unposted := [] }

section
variable (s : State)
theorem State.postStart_vf (v : Nat) : s.postStart.vf v = s.vf v := rfl
theorem State.postStart_team (k : Nat) : s.postStart.team k = s.team k := rfl
theorem State.postStart_launch (l : Nat) : s.postStart.launch l = s.launch l := rfl
theorem State.postStart_now : s.postStart.now = s.now := rfl
end

theorem State.posting_one {s : State} {c : Charge} (h : s.unposted = [c]) :
    s.posting = some ((s.postStart.postOne c).1.checkAccounts (s.postStart.postOne c).2.1 (s.postStart.postOne c).2.2) := by
  unfold State.posting
  simp only [h]
  rfl

section Charged
variable {s : State} {k : Nat} (nd : Bool) (n : Nat)

theorem State.chargedTeam_vf : (s.chargedTeam k nd n).vf (launchVf (teamLaunch k)) = (s.vf (launchVf (teamLaunch k))).spend n := by
  simp [State.chargedTeam]

theorem State.chargedTeam_launch {x : Launch} (h : s.launch (teamLaunch k) = some x) :
    (s.chargedTeam k nd n).launch (teamLaunch k) = some (x.charged nd n) := by
  simp [State.chargedTeam, State.modLaunch_launch, h]

theorem State.chargedTeam_team {y : Team} (h : s.team k = some y) : (s.chargedTeam k nd n).team k = some (y.charged nd n) := by
  simp [State.chargedTeam, State.modTeam_team, h]

theorem State.chargedTeam_now : (s.chargedTeam k nd n).now = s.now := by simp [State.chargedTeam]

theorem State.chargedTeam_dev :
    (s.chargedTeam k nd n).dev = { s.dev with interval := s.dev.interval + n } := by simp [State.chargedTeam, State.modDev]

theorem State.chargedTeam_unposted : (s.chargedTeam k nd n).unposted = s.unposted := by simp [State.chargedTeam]

end Charged

theorem Launch.charged_st (nd : Bool) (n : Nat) (x : Launch) : (x.charged nd n).st = x.st := by cases nd <;> rfl
theorem Launch.charged_budget (nd : Bool) (n : Nat) (x : Launch) : (x.charged nd n).budget = x.budget := by cases nd <;> rfl
theorem Team.charged_st (nd : Bool) (n : Nat) (x : Team) : (x.charged nd n).st = x.st := by cases nd <;> rfl

theorem Launch.charged_accts (nd : Bool) (n : Nat) (x : Launch) :
    if nd = true then (x.charged nd n).acctD = x.acctD ∧ (x.charged nd n).acctN = x.acctN.add n
    else (x.charged nd n).acctD = x.acctD.add n ∧ (x.charged nd n).acctN = x.acctN := by
  cases nd <;> exact ⟨rfl, rfl⟩

theorem Team.charged_accts (nd : Bool) (n : Nat) (x : Team) :
    if nd = true then (x.charged nd n).acctD = x.acctD ∧ (x.charged nd n).acctN = x.acctN.add n
    else (x.charged nd n).acctD = x.acctD.add n ∧ (x.charged nd n).acctN = x.acctN := by
  cases nd <;> exact ⟨rfl, rfl⟩

theorem Launch.exhausted_iff (m : Launch) : m.exhausted = true ↔ m.budget ≠ 0 ∧ m.budget ≤ Acct.sum m.acctD m.acctN := by
  simp [Launch.exhausted]

/-- Whether a charge exhausts a launch is read off the launch after the checks. -/
theorem Launch.exhausted_charged_iff (x : Launch) (nd : Bool) (n : Nat) (f : Vf) (done : Bool) (now : Nat) :
    (x.charged nd n).exhausted = true ↔ x.budget ≠ 0 ∧
      x.budget ≤ Acct.sum ((x.charged nd n).checked f done now).acctD ((x.charged nd n).checked f done now).acctN := by
  rw [Launch.exhausted_iff, Launch.charged_budget, Launch.checked_acctD, Launch.checked_acctN]

theorem Vf.exhausted_iff (f : Vf) : f.exhausted = true ↔ f.quota ≠ 0 ∧ f.quota.toNat * 1000000 ≤ f.used := by
  simp [Vf.exhausted]

/-- The state after a charge of a team has been posted: its accounts charged, the launch checked against budget and quota. -/
def State.postedTeam (s : State) (k : Nat) (nd : Bool) (n : Nat) : State :=
  (s.postStart.chargedTeam k nd n).checkAccounts (some (teamLaunch k)) (some (launchVf (teamLaunch k)))

theorem exec_posting_team {s : State} {c : Charge} {k : Nat} (hu : s.unposted = [c]) (hp : c.payer = .team k)
    (hb : s.badMeter c = false) :
    exec .posting s = .next (s.postedTeam k c.nd (c.n * (s.vf (launchVf (teamLaunch k))).coefOf c.cls)) := by
  have hb' : s.postStart.badMeter c = false := hb
  have hpost := State.posting_one hu
  rw [State.postOne_team hb' hp] at hpost
  exact congrArg event hpost

section Posted
variable (s : State) (k : Nat) (nd : Bool) (n : Nat)

theorem State.postedTeam_meters : (s.postedTeam k nd n).meters = (s.postStart.chargedTeam k nd n).meters :=
  State.checkAccounts_meters _ _ _

theorem State.postedTeam_lastPost : (s.postedTeam k nd n).dev.lastPost = s.now := by
  have h := congrArg Device.lastPost (meters_dev (s.postedTeam_meters k nd n))
  rw [State.chargedTeam_dev] at h
  exact h

theorem State.postedTeam_vf :
    (s.postedTeam k nd n).vf (launchVf (teamLaunch k)) = (s.vf (launchVf (teamLaunch k))).spend n := by
  rw [meters_vf (s.postedTeam_meters k nd n), State.chargedTeam_vf, State.postStart_vf]

variable {s k}

theorem State.postedTeam_team {y : Team} (h : s.team k = some y) : (s.postedTeam k nd n).team k = some (y.charged nd n) := by
  rw [meters_team (s.postedTeam_meters k nd n), State.chargedTeam_team nd n ((s.postStart_team k).trans h)]

theorem State.postedTeam_launch {x : Launch} (h : s.launch (teamLaunch k) = some x) :
    (s.postedTeam k nd n).launch (teamLaunch k) =
      some ((x.charged nd n).checked ((s.vf (launchVf (teamLaunch k))).spend n)
        ((s.postStart.chargedTeam k nd n).teamsDone (teamLaunch k)) s.now) := by
  have hl := State.checkAccounts_launch (State.chargedTeam_launch nd n ((s.postStart_launch _).trans h))
  rwa [State.chargedTeam_vf, State.chargedTeam_now, State.postStart_vf, State.postStart_now] at hl

/-- Where the team that pays is unfinished, the check does not find its launch done. -/
theorem State.chargedTeam_unfinished {y : Team} (h : s.team k = some y) (hy : y.st ≠ .done) :
    (s.chargedTeam k nd n).teamsDone (teamLaunch k) = false :=
  teamsDone_eq_false (State.chargedTeam_team nd n h) (by rwa [Team.charged_st])

/-- A charge that exhausts nothing leaves only the accounts charged. -/
theorem State.postedTeam_eq {x : Launch} (h : s.launch (teamLaunch k) = some x) (hx : (x.charged nd n).exhausted = false)
    (hf : ((s.vf (launchVf (teamLaunch k))).spend n).exhausted = false) :
    s.postedTeam k nd n = s.postStart.chargedTeam k nd n :=
  State.checkAccounts_eq_self (State.chargedTeam_launch nd n ((s.postStart_launch _).trans h)) hx
    (by rwa [State.chargedTeam_vf, State.postStart_vf])

end Posted

/-- A charge of the house. -/
theorem exec_posting_house {s : State} {c : Charge} (hu : s.unposted = [c]) (hp : c.payer = .house) :
    exec .posting s = .next (s.postStart.chargedHouse (c.n * Config.coef c.cls)) := by
  have hpost := State.posting_one hu
  rw [State.postOne_house hp] at hpost
  exact congrArg event hpost

/-- Below its largest value an account keeps every fJ (R230). -/
theorem Acct.add_total (a : Acct) (c : Nat) (h : a.nj + (a.fj + c) / 1000000 < 2 ^ 64) :
    (a.add c).nj * 1000000 + (a.add c).fj = a.nj * 1000000 + a.fj + c ∧ (a.add c).fj < 1000000 := by
  simp only [Acct.add]
  omega

end Sys2Proof.Machine

/-! ## Dividing costs among VFs (R232, R234) -/

namespace Sys2Proof

/-- The keys of some entries of a sorted map are distinct. -/
theorem SMap.nodup_keys {α : Type} {m : SMap α} (h : SMap.sorted m = true) (p : Nat × α → Bool) :
    ((m.filter p).map Prod.fst).Nodup :=
  List.pairwise_map.mpr (((SMap.sorted_pairwise h).filter p).imp fun h => Nat.ne_of_lt h)

/-- Where nothing is found, no entry has the key. -/
theorem SMap.ne_of_find_none {α : Type} {m : SMap α} {k : Nat} (h : SMap.find m k = none) : ∀ kv ∈ m, kv.1 ≠ k := by
  induction m with
  | nil => simp
  | cons x m ih =>
    simp only [SMap.find] at h
    split at h
    · cases h
    · rename_i hk
      exact List.forall_mem_cons.mpr ⟨Ne.symm hk, ih h⟩

/-- A store made from another by a function on its cells. -/
theorem Store.rd_wrs_map {w : Nat} {m : Store w} (hs : SMap.sorted m = true) (f : BitVec w → BitVec w) (hf : f 0 = 0) (c : Nat) :
    Store.rd (Store.wrs [] (m.map fun kv => (kv.1, f kv.2))) c = f (Store.rd m c) := by
  cases h : SMap.find m c with
  | some v =>
    have hmem : (c, f v) ∈ m.map fun kv => (kv.1, f kv.2) := List.mem_map.mpr ⟨(c, v), SMap.mem_of_find h, rfl⟩
    have hne : (m.map fun kv => (kv.1, f kv.2)).Pairwise fun a b => a.1 ≠ b.1 :=
      List.pairwise_map.mpr ((SMap.sorted_pairwise hs).imp fun h => Nat.ne_of_lt h)
    rw [Store.rd_wrs_mem _ [] _ hmem hne]
    simp [Store.rd, h]
  | none =>
    rw [Store.rd_wrs_other]
    · simpa [Store.rd, h, SMap.find] using hf.symm
    · intro kv hkv
      obtain ⟨x, hx, rfl⟩ := List.mem_map.mp hkv
      exact SMap.ne_of_find_none h x hx

end Sys2Proof

namespace Sys2Proof.Machine

open Sys2Proof

theorem State.nodup_vfsOf {s : State} (h : SMap.sorted s.vfs = true) (n : Nat) : (s.vfsOf n).Nodup := SMap.nodup_keys h _
theorem State.nodup_liveVfs {s : State} (h : SMap.sorted s.vfs = true) : s.liveVfs.Nodup := SMap.nodup_keys h _

theorem foldl_add_eq_sum {α : Type} (f : α → Nat) (l : List α) : l.foldl (fun a x => a + f x) 0 = (l.map f).sum := by
  rw [List.sum_eq_foldl, List.foldl_map]

/-- Steps that each treat one VF leave the VFs that none of them names. -/
theorem foldl_vf_other {f : State → Nat × Nat → State} (hf : ∀ s x u, u ≠ x.1 → (f s x).vf u = s.vf u) (ws : List (Nat × Nat))
    (s : State) {v : Nat} (hv : v ∉ ws.map Prod.fst) : (ws.foldl f s).vf v = s.vf v := by
  induction ws generalizing s with
  | nil => rfl
  | cons w ws ih =>
    obtain ⟨hw, hws⟩ := not_or.mp fun h => hv (List.mem_cons.mpr h)
    rw [List.foldl_cons, ih _ hws, hf _ _ _ hw]

/-- Steps that each treat one VF, no VF twice, give each what its own step gives. -/
theorem foldl_vf_own {f : State → Nat × Nat → State} {g : Nat → Vf → Vf} (hf : ∀ s x u, u ≠ x.1 → (f s x).vf u = s.vf u)
    (hg : ∀ s x, (f s x).vf x.1 = g x.2 (s.vf x.1)) (ws : List (Nat × Nat)) (s : State) (hn : (ws.map Prod.fst).Nodup)
    {w : Nat × Nat} (hw : w ∈ ws) : (ws.foldl f s).vf w.1 = g w.2 (s.vf w.1) := by
  induction ws generalizing s with
  | nil => cases hw
  | cons x ws ih =>
    obtain ⟨hx, hn⟩ := List.nodup_cons.mp hn
    rcases List.mem_cons.mp hw with rfl | hw
    · rw [List.foldl_cons, foldl_vf_other hf ws _ hx, hg]
    · have hne : w.1 ≠ x.1 := fun h => hx (h ▸ List.mem_map_of_mem hw)
      rw [List.foldl_cons, ih _ hn hw, hf _ _ _ hne]

/-- The firmware's update of every VF. -/
def State.mapVfs (s : State) (f : Vf → Vf) : State := { s with vfs := s.vfs.map fun kv => (kv.1, f kv.2) }

theorem State.mapVfs_vf (s : State) {f : Vf → Vf} (hf : f {} = {}) (v : Nat) : (s.mapVfs f).vf v = f (s.vf v) := by
  simp only [State.vf, State.mapVfs, SMap.find_map]
  cases SMap.find s.vfs v
  · exact hf.symm
  · rfl

/-! ### A share of a cost -/

/-- A VF with a share of a cost. -/
def Vf.shared (c : Nat) (f : Vf) : Vf := { f with acct := f.acct.add c, used := if f.quota = 0 then f.used else f.used + c }

theorem State.shareVf_vf (s : State) (v c : Nat) : (s.shareVf v c).vf v = (s.vf v).shared c := by
  simp [State.shareVf, Vf.shared]

theorem State.shareVf_vf_ne (s : State) (v c u : Nat) (h : u ≠ v) : (s.shareVf v c).vf u = s.vf u := by
  simp [State.shareVf, State.modVf_vf_ne _ _ _ _ h]

@[simp] theorem State.shareVf_house (s : State) (v c : Nat) : (s.shareVf v c).dev.house = s.dev.house := rfl
@[simp] theorem State.shareHouse_vf (s : State) (c v : Nat) : (s.shareHouse c).vf v = s.vf v := rfl
@[simp] theorem State.shareHouse_house (s : State) (c : Nat) : (s.shareHouse c).dev.house = s.dev.house.add c := rfl

/-- Each VF bears its truncated share. -/
theorem State.divide_vf (s : State) (cost total : Nat) (ws : List (Nat × Nat)) (hn : (ws.map Prod.fst).Nodup) {w : Nat × Nat}
    (hw : w ∈ ws) : (s.divide cost total ws).vf w.1 = (s.vf w.1).shared (cost * w.2 / total) := by
  unfold State.divide
  rw [State.shareHouse_vf]
  refine foldl_vf_own (g := Vf.shared) (fun s x u => State.shareVf_vf_ne s x.1 x.2 u) (fun s x => State.shareVf_vf s x.1 x.2)
    _ s ?_ (w := (w.1, cost * w.2 / total)) (List.mem_map.mpr ⟨w, hw, rfl⟩)
  rwa [List.map_map]

/-- What truncation leaves of the cost is the house's. -/
theorem State.divide_house (s : State) (cost total : Nat) (ws : List (Nat × Nat)) :
    (s.divide cost total ws).dev.house = s.dev.house.add (cost - (ws.map fun w => cost * w.2 / total).sum) := by
  unfold State.divide
  rw [State.shareHouse_house, foldl_add_eq_sum, List.map_map,
    foldl_keeps (fun s => s.dev.house) (fun s (x : Nat × Nat) => State.shareVf_house s x.1 x.2)]
  rfl

/-! ### SHARED_COSTS -/

/-- The leakage of a core is divided by the run time of the VFs of its leaf. -/
theorem State.coreCost_eq {s : State} {c cost n : Nat} {l : Leaf}
    (h : s.leaves.find? (fun kl => kl.2.conf.cores.contains c) = some (n, l)) {ran : Nat → Nat}
    (hran : ∀ v, ran v = (Store.rd (s.vf v).runtime c).toNat) (ht : ((s.vfsOf n).map ran).sum ≠ 0) :
    s.coreCost c cost = s.divide cost ((s.vfsOf n).map ran).sum ((s.vfsOf n).map fun v => (v, ran v)) := by
  have hne : (s.vfsOf n).isEmpty = false := by
    cases hv : s.vfsOf n with
    | nil => simp [hv] at ht
    | cons v vs => rfl
  have hsum : ((s.vfsOf n).map fun v => (v, ran v)).foldl (fun a x => a + x.2) 0 = ((s.vfsOf n).map ran).sum := by
    rw [foldl_add_eq_sum, List.map_map]; rfl
  simp only [State.coreCost, h, ← hran, hne, hsum, ht, if_false, Bool.false_eq_true]

/-- The state in which SHARED_COSTS has divided the costs of stacks and cores. -/
def State.costsDivided (s : State) (perStack perCore : List Nat) : State :=
  perCore.zipIdx.foldl (fun s ci => s.coreCost ci.2 ci.1)
    (perStack.zipIdx.foldl (fun s ci => s.stackCost ci.2 ci.1) (s.modDev fun d => { d with sharedAt := s.now }))

theorem exec_sharedCosts {s : State} {perStack perCore : List Nat} {uncore firmware : Nat}
    (h : s.input = some (.sharedCosts perStack perCore uncore firmware)) (ht : s.dev.sharedAt + 1000000 ≤ s.now) :
    ∃ t, exec .sharedCosts s = .next t ∧ (∀ v, t.vf v = { (s.costsDivided perStack perCore).vf v with runtime := [] }) ∧
      t.dev.house = ((s.costsDivided perStack perCore).dev.house.add uncore).add firmware := by
  have hx : s.sharedCosts = some ((((s.costsDivided perStack perCore).shareHouse uncore).shareHouse firmware).mapVfs
      fun f => { f with runtime := [] }).checkQuotas := by
    unfold State.sharedCosts
    rw [h]
    exact if_neg (Nat.not_lt.mpr ht)
  refine ⟨_, congrArg event hx, fun v => ?_, ?_⟩
  · rw [meters_vf (State.checkQuotas_meters _), State.mapVfs_vf _ rfl, State.shareHouse_vf, State.shareHouse_vf]
  · exact congrArg Device.house (meters_dev (State.checkQuotas_meters _))

/-- The leakage of core 0, the uncore and the firmware's work are all of an interval's costs. -/
theorem sharedCosts_of_core {s : State} {cost uncore firmware n : Nat} {l : Leaf} {ran : Nat → Nat}
    (hin : s.input = some (.sharedCosts [] [cost] uncore firmware)) (hat : s.dev.sharedAt + 1000000 ≤ s.now)
    (hs : SMap.sorted s.vfs = true) (hl : s.leaves.find? (fun kl => kl.2.conf.cores.contains 0) = some (n, l))
    (hran : ∀ v, ran v = (Store.rd (s.vf v).runtime 0).toNat) (hsum : ((s.vfsOf n).map ran).sum ≠ 0) :
    ∃ t, exec .sharedCosts s = .next t ∧
      (∀ v ∈ s.vfsOf n, (t.vf v).acct = (s.vf v).acct.add (cost * ran v / ((s.vfsOf n).map ran).sum) ∧ (t.vf v).runtime = []) ∧
      t.dev.house = ((s.dev.house.add (cost - ((s.vfsOf n).map fun v => cost * ran v / ((s.vfsOf n).map ran).sum).sum)).add
        uncore).add firmware := by
  obtain ⟨t, ht, hv, hh⟩ := exec_sharedCosts hin hat
  have hd : s.costsDivided [] [cost] =
      (s.modDev fun d => { d with sharedAt := s.now }).divide cost ((s.vfsOf n).map ran).sum ((s.vfsOf n).map fun v => (v, ran v)) :=
    State.coreCost_eq (s := s.modDev fun d => { d with sharedAt := s.now }) hl hran hsum
  rw [hd] at hv hh
  refine ⟨t, ht, fun v hmem => ?_, ?_⟩
  · have hn : (((s.vfsOf n).map fun v => (v, ran v)).map Prod.fst).Nodup := by
      simpa [List.map_map, Function.comp_def] using State.nodup_vfsOf hs n
    rw [hv, State.divide_vf _ cost _ _ hn (w := (v, ran v)) (List.mem_map_of_mem hmem)]
    exact ⟨rfl, rfl⟩
  · rw [hh, State.divide_house, List.map_map]
    rfl

/-- The power of stack 0 is all of an interval's costs. -/
theorem sharedCosts_of_stack {s : State} {cost uncore firmware : Nat}
    (hin : s.input = some (.sharedCosts [cost] [] uncore firmware)) (hat : s.dev.sharedAt + 1000000 ≤ s.now)
    (hs : SMap.sorted s.vfs = true) :
    ∃ t, exec .sharedCosts s = .next t ∧
      ∀ v ∈ s.liveVfs, (t.vf v).acct = (s.vf v).acct.add (cost * s.bytesOn v 0 / (48 * 2 ^ 30)) := by
  obtain ⟨t, ht, hv, -⟩ := exec_sharedCosts hin hat
  have hd : s.costsDivided [cost] [] = (s.modDev fun d => { d with sharedAt := s.now }).divide cost (48 * 2 ^ 30)
      (s.liveVfs.map fun v => (v, s.bytesOn v 0)) := rfl
  refine ⟨t, ht, fun v hmem => ?_⟩
  have hn : ((s.liveVfs.map fun v => (v, s.bytesOn v 0)).map Prod.fst).Nodup := by
    simpa [List.map_map, Function.comp_def] using State.nodup_liveVfs hs
  rw [hv, hd, State.divide_vf _ cost _ _ hn (w := (v, s.bytesOn v 0)) (List.mem_map_of_mem hmem)]
  simp only [State.modDev_vf, Vf.shared]

end Sys2Proof.Machine

/-! ## RECONCILIATION (R233, R234) -/

namespace Sys2Proof.Machine

open Sys2Proof

/-- An account with a part of the residual: less where less was measured than charged. -/
def Acct.settled (neg : Bool) (c : Nat) (a : Acct) : Acct := if neg then a.sub c else a.add c

/-- A VF with a part of the residual. -/
def Vf.settled (neg : Bool) (c : Nat) (f : Vf) : Vf := if neg then { f with acct := f.acct.sub c } else f.shared c

theorem Vf.settled_acct (neg : Bool) (c : Nat) (f : Vf) : (f.settled neg c).acct = f.acct.settled neg c := by
  cases neg <;> rfl

theorem State.residualVf_vf (s : State) (neg : Bool) (v c : Nat) : (s.residualVf v neg c).vf v = (s.vf v).settled neg c := by
  cases neg <;> simp [State.residualVf, State.shareVf_vf, Vf.settled]

theorem State.residualVf_vf_ne (s : State) (neg : Bool) (v c u : Nat) (h : u ≠ v) : (s.residualVf v neg c).vf u = s.vf u := by
  cases neg <;> simp [State.residualVf, State.shareVf_vf_ne, State.modVf_vf_ne, h]

/-- Of the device, a VF's part of the residual changes the charges of the interval only. -/
theorem State.residualVf_dev (s : State) (neg : Bool) (v c : Nat) :
    { (s.residualVf v neg c).dev with interval := 0 } = { s.dev with interval := 0 } := by
  cases neg <;> rfl

theorem State.residualVf_now (s : State) (neg : Bool) (v c : Nat) : (s.residualVf v neg c).now = s.now := by
  cases neg <;> rfl

theorem State.residualHouse_house (s : State) (neg : Bool) (c : Nat) :
    (s.residualHouse neg c).dev.house = s.dev.house.settled neg c := rfl

/-- The VFs' parts of the residual by their dynamic charges. -/
def State.residualShares (s : State) (r total : Nat) : List (Nat × Nat) := s.liveVfs.map fun v => (v, r * (s.vf v).dyn / total)

/-- The residual divided by dynamic charges, what truncation leaves of it the house's. -/
def State.residualDivided (s : State) (neg : Bool) (r total : Nat) : State :=
  ((s.residualShares r total).foldl (fun s x => s.residualVf x.1 neg x.2) s).residualHouse neg
    (r - (s.residualShares r total).foldl (fun a x => a + x.2) 0)

section Divided
variable (s : State) (neg : Bool) (r total : Nat)

variable {s} in
theorem State.residualDivided_vf (hs : SMap.sorted s.vfs = true) {v : Nat} (hv : v ∈ s.liveVfs) :
    (s.residualDivided neg r total).vf v = (s.vf v).settled neg (r * (s.vf v).dyn / total) := by
  refine foldl_vf_own (g := Vf.settled neg) (fun s x u => State.residualVf_vf_ne s neg x.1 x.2 u)
    (fun s x => State.residualVf_vf s neg x.1 x.2) _ s ?_ (w := (v, r * (s.vf v).dyn / total)) (List.mem_map_of_mem hv)
  simpa [State.residualShares, Function.comp_def] using State.nodup_liveVfs hs

theorem State.residualDivided_now : (s.residualDivided neg r total).now = s.now :=
  foldl_keeps State.now (fun s (x : Nat × Nat) => State.residualVf_now s neg x.1 x.2) _ s

theorem State.residualDivided_dev :
    { (s.residualDivided neg r total).dev with interval := 0 } =
      { s.dev with interval := 0, house := s.dev.house.settled neg (r - (s.liveVfs.map fun v => r * (s.vf v).dyn / total).sum) } := by
  have hd := foldl_keeps (fun s => { s.dev with interval := 0 })
    (fun s (x : Nat × Nat) => State.residualVf_dev s neg x.1 x.2) (s.residualShares r total) s
  have hsum : (s.residualShares r total).foldl (fun a x => a + x.2) 0 = (s.liveVfs.map fun v => r * (s.vf v).dyn / total).sum := by
    rw [foldl_add_eq_sum, State.residualShares, List.map_map]; rfl
  rw [State.residualDivided, hsum]
  exact congrArg (fun d : Device => { d with house := d.house.settled neg (r - (s.liveVfs.map fun v => r * (s.vf v).dyn / total).sum) }) hd

theorem State.residualDivided_house : (s.residualDivided neg r total).dev.house =
    s.dev.house.settled neg (r - (s.liveVfs.map fun v => r * (s.vf v).dyn / total).sum) := by
  have h := congrArg Device.house (s.residualDivided_dev neg r total)
  exact h

theorem State.residualDivided_meterLog : (s.residualDivided neg r total).dev.meterLog = s.dev.meterLog := by
  have h := congrArg Device.meterLog (s.residualDivided_dev neg r total)
  exact h

end Divided

/-- Every weighbridge under test: the list of units under test is all that changes. -/
theorem State.testWeighbridges_eq (s : State) : ∃ us, s.testWeighbridges = s.modDev fun d => { d with testing := us } := by
  unfold State.testWeighbridges
  suffices h : ∀ (ts : List Nat) (s : State),
      ∃ us, ts.foldl (fun s t => s.outOfService (.weighbridge t)) s = s.modDev fun d => { d with testing := us } from h _ s
  intro ts
  induction ts with
  | nil => exact fun s => ⟨s.dev.testing, rfl⟩
  | cons t ts ih =>
    intro s
    obtain ⟨us, h⟩ := ih (s.outOfService (.weighbridge t))
    exact ⟨us, by rw [List.foldl_cons, h]; rfl⟩

/-- An interval marked in the meter log, its record requested and the weighbridges under test. -/
def State.intervalMarked (s : State) (neg : Bool) (r : Nat) : State :=
  (s.testWeighbridges.audit 0x09 srcErrors noVf noPart (s.dev.intervalStart + r / 1000000 * 2 ^ 64 + (if neg then 2 ^ 128 else 0))).modDev
    fun d => { d with meterLog := d.meterLog ++ [d.intervalStart] }

theorem State.intervalMarked_eq (s : State) (neg : Bool) (r : Nat) : ∃ us a, a.typ = 0x09 ∧
    s.intervalMarked neg r = s.modDev fun d =>
      { d with testing := us, auditQ := d.auditQ ++ [a], meterLog := d.meterLog ++ [d.intervalStart] } := by
  obtain ⟨us, h⟩ := s.testWeighbridges_eq
  exact ⟨us, _, rfl, by rw [State.intervalMarked, h]; rfl⟩

/-- The end of an interval: its charges count no more and the quotas are checked. -/
def State.intervalEnded (s : State) : State :=
  ((s.mapVfs fun f => { f with dyn := 0 }).modDev fun d => { d with interval := 0, intervalStart := s.now }).checkQuotas

theorem State.intervalEnded_vf (s : State) (v : Nat) : s.intervalEnded.vf v = { s.vf v with dyn := 0 } := by
  rw [State.intervalEnded, meters_vf (State.checkQuotas_meters _), State.modDev_vf, State.mapVfs_vf _ rfl]

theorem State.intervalEnded_dev (s : State) :
    { s.intervalEnded.dev with conns := [] } = { s.dev with interval := 0, intervalStart := s.now, conns := [] } :=
  meters_dev (State.checkQuotas_meters _)

theorem State.intervalEnded_house (s : State) : s.intervalEnded.dev.house = s.dev.house := by
  have h := congrArg Device.house s.intervalEnded_dev
  exact h

theorem State.intervalEnded_meterLog (s : State) : s.intervalEnded.dev.meterLog = s.dev.meterLog := by
  have h := congrArg Device.meterLog s.intervalEnded_dev
  exact h

theorem State.intervalEnded_auditQ (s : State) : s.intervalEnded.dev.auditQ = s.dev.auditQ := by
  have h := congrArg Device.auditQ s.intervalEnded_dev
  exact h

/-- The residual of an interval settled: divided where it is within 2% and there are dynamic charges, else the house's. -/
def State.residualSettled (s : State) (em : Nat) : State :=
  let neg := decide (em < s.dev.interval)
  let r := absDiff em s.dev.interval
  let total := (s.liveVfs.map fun v => (s.vf v).dyn).sum
  if decide (r * 50 ≤ em) && total != 0 then s.residualDivided neg r total else s.residualHouse neg r

/-- What is settled of an interval: the state whose end RECONCILIATION answers. -/
def State.reconciled (s : State) (em : Nat) : State :=
  if decide (absDiff em s.dev.interval * 50 ≤ em) then s.residualSettled em
  else (s.residualSettled em).intervalMarked (decide (em < s.dev.interval)) (absDiff em s.dev.interval)

/-- RECONCILIATION where nothing is left to post. -/
theorem exec_reconciliation {s : State} {em : Nat} (h : s.input = some (.reconciliation em))
    (ht : s.dev.intervalStart + 1000000 ≤ s.now) (hu : s.unposted = []) :
    exec .reconciliation s = .next (s.reconciled em).intervalEnded := by
  have hp : s.posting.getD s = s := by simp [State.posting, hu]
  have hr : s.reconcile = some (s.reconciled em).intervalEnded := by
    unfold State.reconcile
    rw [h]
    refine (if_neg (Nat.not_lt.mpr ht)).trans ?_
    rw [hp, State.reconciled, State.residualSettled, ← foldl_add_eq_sum]
    rfl
  exact congrArg event hr

section Reconciled
variable {s : State} {em : Nat}

theorem State.residualSettled_near (hr : absDiff em s.dev.interval * 50 ≤ em) (ht : (s.liveVfs.map fun v => (s.vf v).dyn).sum ≠ 0) :
    s.residualSettled em = s.residualDivided (decide (em < s.dev.interval)) (absDiff em s.dev.interval)
      (s.liveVfs.map fun v => (s.vf v).dyn).sum := by
  simp [State.residualSettled, hr, ht]

theorem State.residualSettled_far (hr : em < absDiff em s.dev.interval * 50) :
    s.residualSettled em = s.residualHouse (decide (em < s.dev.interval)) (absDiff em s.dev.interval) := by
  simp [State.residualSettled, Nat.not_le.mpr hr]

theorem State.reconciled_near (hr : absDiff em s.dev.interval * 50 ≤ em) (ht : (s.liveVfs.map fun v => (s.vf v).dyn).sum ≠ 0) :
    s.reconciled em = s.residualDivided (decide (em < s.dev.interval)) (absDiff em s.dev.interval)
      (s.liveVfs.map fun v => (s.vf v).dyn).sum := by
  rw [State.reconciled, if_pos (decide_eq_true hr), State.residualSettled_near hr ht]

theorem State.reconciled_now (s : State) (em : Nat) : (s.reconciled em).now = s.now := by
  have hset : (s.residualSettled em).now = s.now := by
    unfold State.residualSettled
    dsimp only
    split
    · exact s.residualDivided_now _ _ _
    · rfl
  unfold State.reconciled
  split
  · exact hset
  · obtain ⟨us, a, -, h⟩ := (s.residualSettled em).intervalMarked_eq (decide (em < s.dev.interval)) (absDiff em s.dev.interval)
    rw [h]
    exact hset

/-- Beyond 2% the residual is the house's, the interval is marked and a record of it requested. -/
theorem State.reconciled_far (hr : em < absDiff em s.dev.interval * 50) : ∃ us a, a.typ = 0x09 ∧
    s.reconciled em = (s.residualHouse (decide (em < s.dev.interval)) (absDiff em s.dev.interval)).modDev fun d =>
      { d with testing := us, auditQ := d.auditQ ++ [a], meterLog := d.meterLog ++ [d.intervalStart] } := by
  rw [State.reconciled, if_neg (by simpa using hr), State.residualSettled_far hr]
  exact State.intervalMarked_eq _ _ _

/-- Within 2% each VF bears its part of the residual and the house what is left. -/
theorem State.intervalEnded_near (hs : SMap.sorted s.vfs = true) {r total : Nat} (hr : r = absDiff em s.dev.interval)
    (ht : total = (s.liveVfs.map fun v => (s.vf v).dyn).sum) (hnear : r * 50 ≤ em) (hne : total ≠ 0) :
    let neg := decide (em < s.dev.interval)
    let t := (s.reconciled em).intervalEnded
    (∀ v ∈ s.liveVfs, (t.vf v).acct = (s.vf v).acct.settled neg (r * (s.vf v).dyn / total)) ∧
      t.dev.house = s.dev.house.settled neg (r - (s.liveVfs.map fun v => r * (s.vf v).dyn / total).sum) ∧
      t.dev.meterLog = s.dev.meterLog := by
  subst hr ht
  simp only [State.intervalEnded_vf, State.intervalEnded_house, State.intervalEnded_meterLog, State.reconciled_near hnear hne,
    State.residualDivided_house, State.residualDivided_meterLog]
  refine ⟨fun v hv => ?_, trivial, trivial⟩
  rw [State.residualDivided_vf _ _ _ hs hv, Vf.settled_acct]

/-- Beyond 2% the VFs bear nothing, the house all of it, and the interval is marked and recorded. -/
theorem State.intervalEnded_far (hfar : em < absDiff em s.dev.interval * 50) :
    let t := (s.reconciled em).intervalEnded
    (∀ v, (t.vf v).acct = (s.vf v).acct) ∧
      t.dev.house = s.dev.house.settled (decide (em < s.dev.interval)) (absDiff em s.dev.interval) ∧
      t.dev.meterLog = s.dev.meterLog ++ [s.dev.intervalStart] ∧ ∃ a ∈ t.dev.auditQ, a.typ = 0x09 := by
  obtain ⟨us, a, ha, h⟩ := State.reconciled_far hfar
  simp only [State.intervalEnded_vf, State.intervalEnded_house, State.intervalEnded_meterLog, State.intervalEnded_auditQ, h]
  exact ⟨fun v => rfl, rfl, rfl, a, List.mem_append_right _ (List.mem_singleton.mpr rfl), ha⟩

end Reconciled

end Sys2Proof.Machine

/-! ## Throttling, shutdown and the limiters (R25, R27, R28, R278) -/

namespace Sys2Proof.Machine

open Sys2Proof

/-- A step of a die's clock: to the floor and then idle slots, or the same way back (R25). -/
theorem Die.step_clock (d : Die) (down : Bool) :
    ((d.step down).throttle, (d.step down).idleSlots) =
      (if down = true then (if d.throttle < 36 then (d.throttle + 1, d.idleSlots) else (d.throttle, true))
      else if d.idleSlots = true then (d.throttle, false) else (d.throttle - 1, false)) := by
  cases down with
  | true => by_cases h : d.throttle < 36 <;> simp [Die.step, throttleFloor, h]
  | false => cases h : d.idleSlots <;> simp [Die.step, h]

theorem Die.step_claims (d : Die) (down : Bool) : (d.step down).claims = d.claims := by
  simp only [Die.step, apply_ite Die.claims, ite_self]

theorem getLsbD_oneShiftLeft (k i : Nat) (hi : i < 64) : (1#64 <<< k).getLsbD i = (i == k) := by
  rw [Bool.eq_iff_iff]
  simp [hi]
  omega

/-- The bit of the ready map that stands for a die. -/
theorem dieReady_getLsbD (d i : Nat) (hi : i < 64) :
    (dieReady d).getLsbD i = ((decide (d < 8) && i == 9 + d) || (d == 8 && i == 33)) := by
  unfold dieReady
  split
  · rename_i h
    simp [getLsbD_oneShiftLeft _ _ hi, h, Nat.ne_of_lt h]
  · rename_i h
    split
    · rename_i h8
      simp only [getLsbD_oneShiftLeft _ _ hi, h8]
      simp
    · rename_i h8
      simp [h, h8]

/-- The ready map once the bits of some dies are cleared. -/
theorem foldl_dieReady_getLsbD (dies : List Nat) (r : BitVec 64) (i : Nat) (hi : i < 64) :
    (dies.foldl (fun r d => r &&& ~~~dieReady d) r).getLsbD i =
      (r.getLsbD i && !dies.any fun d => (decide (d < 8) && i == 9 + d) || (d == 8 && i == 33)) := by
  induction dies generalizing r with
  | nil => simp
  | cons d dies ih =>
    rw [List.foldl_cons, ih, BitVec.getLsbD_and, BitVec.getLsbD_not, dieReady_getLsbD d i hi, List.any_cons]
    simp [hi, Bool.and_assoc]

/-- The window of a limiter as the next begins: what was moved beyond the share counts against it (R278). -/
def Leaf.nextWindow (l : Leaf) : Store 64 :=
  Store.wrs [] (l.window.map fun kv => (kv.1, BitVec.ofNat 64 (kv.2.toNat - l.share)))

theorem Leaf.rd_nextWindow {l : Leaf} (hs : SMap.sorted l.window = true) (c : Nat) :
    (Store.rd l.nextWindow c).toNat = (Store.rd l.window c).toNat - l.conf.bandwidth * 1000 := by
  let f (v : BitVec 64) : BitVec 64 := BitVec.ofNat 64 (v.toNat - l.share)
  have hf : f 0 = 0 := by simp [f]
  rw [Leaf.nextWindow, Store.rd_wrs_map hs f hf, BitVec.toNat_ofNat, Nat.mod_eq_of_lt (by omega)]
  rfl

theorem State.modLeaf_leaf {s : State} {n : Nat} {l : Leaf} (h : s.leaf n = some l) (f : Leaf → Leaf) :
    (s.modLeaf n f).leaf n = some (f l) := by
  simp only [State.modLeaf, h]
  exact SMap.find_put_same s.leaves n (f l)

theorem exec_rateLimiterWindow {s : State} {n : Nat} {l : Leaf} (hl : s.leaf n = some l) (hw : l.window ≠ [])
    (ht : l.windowAt + 1000 ≤ s.now) :
    exec (.rateLimiterWindow n) s = .next (s.modLeaf n fun l => { l with window := l.nextWindow, windowAt := s.now }) := by
  have h : s.newWindow n = some (s.modLeaf n fun l => { l with window := l.nextWindow, windowAt := s.now }) := by
    unfold State.newWindow
    simp only [hl]
    exact if_neg (by simp [hw, ht])
  exact congrArg event h

end Sys2Proof.Machine

/-! ## Energy is charged (R25, R27, R28, R229 to R237, R278) -/

namespace Sys2Proof.Machine

open Sys2Proof

/-- Settles O55, clause by clause: what each event answers is the charged, divided or settled state above; the checks of budgets and
quotas that follow it touch launches and what a save writes, and no account. -/
theorem energyIsCharged : Obligations.EnergyIsCharged := by
  unfold Obligations.EnergyIsCharged
  refine ⟨?team, ?house, fun a c h => Acct.add_total a c h, ?core, ?stack, ?residual, ?throttle, ?shutdown, ?quota, ?window⟩
  case team =>
    intro s c k x y hu hp hb hy hx v m used accounts
    have hv : (s.postedTeam k c.nd m).vf v = (s.vf v).spend m := s.postedTeam_vf k c.nd m
    refine ⟨_, _, _, exec_posting_team hu hp hb, s.postedTeam_lastPost k c.nd m, congrArg Vf.acct hv, congrArg Vf.used hv,
      congrArg Vf.dyn hv, State.postedTeam_launch c.nd m hx, ?_, State.postedTeam_team c.nd m hy, Team.charged_accts c.nd m y, ?_⟩
    · rw [Launch.checked_acctD, Launch.checked_acctN]
      exact Launch.charged_accts c.nd m x
    · intro spent over_
      have hspent : (x.charged c.nd m).exhausted = true ↔ spent := x.exhausted_charged_iff c.nd m _ _ _
      have hover : ((s.vf v).spend m).exhausted = true ↔ over_ := Vf.exhausted_iff _
      have hr (h : x.st = .running) : (x.charged c.nd m).st = .running := (x.charged_st c.nd m).trans h
      have hd (h : y.st ≠ .done) := State.chargedTeam_unfinished (s := s.postStart) c.nd m hy h
      refine ⟨fun hrun hdone hs => ?_, fun hrun hdone hs ho => ?_, fun hs ho => ?_⟩
      · rw [hd hdone, Launch.checked_spent _ _ _ (hr hrun) (hspent.mpr hs)]
        exact ⟨rfl, rfl⟩
      · rw [hd hdone, Launch.checked_over _ _ _ (hr hrun) (Bool.eq_false_iff.mpr (mt hspent.mp hs)) (hover.mpr ho)]
        exact ⟨rfl, rfl⟩
      · have hs' := Bool.eq_false_iff.mpr (mt hspent.mp hs)
        have ho' := Bool.eq_false_iff.mpr (mt hover.mp ho)
        rw [Launch.checked_unspent _ _ _ _ hs' ho', State.postedTeam_eq _ _ hx hs' ho', State.chargedTeam_unposted]
        exact ⟨x.charged_st c.nd m, rfl⟩
  case house => exact fun s c hu hp => ⟨_, exec_posting_house hu hp, rfl, rfl, rfl, rfl⟩
  case core =>
    intro s cost uncore firmware n l hin hat hs hl ran total ht
    exact sharedCosts_of_core hin hat hs hl (fun _ => rfl) ht
  case stack => exact fun s cost uncore firmware hin hat hs => sharedCosts_of_stack hin hat hs
  case residual =>
    intro s em hin hat hu hs r total share put
    have hput : put = fun a n => a.settled (decide (em < s.dev.interval)) n := by
      funext a n; simp [Acct.settled, put]
    have hdev := (s.reconciled em).intervalEnded_dev
    rw [hput]
    exact ⟨_, exec_reconciliation hin hat hu, congrArg Device.interval hdev,
      (congrArg Device.intervalStart hdev).trans (s.reconciled_now em), fun v => congrArg Vf.dyn (State.intervalEnded_vf _ v),
      State.intervalEnded_near hs rfl rfl, State.intervalEnded_far⟩
  case throttle =>
    intro s die down cause hin
    have hx : s.throttleStep = some ((s.modDie die fun d => d.step down).modDev fun d =>
        { d with throttleLog := d.throttleLog ++ [(cause, die, s.now)] }) := by
      simp only [State.throttleStep, hin]
    refine ⟨_, congrArg event hx, ?_⟩
    simp only [State.modDev_die, State.modDie_die]
    exact ⟨Die.step_clock _ _, Die.step_claims _ _, rfl⟩
  case shutdown =>
    intro s dies hin
    have hx : s.thermalShutdown = some ((s.audit 0x0A srcErrors noVf noPart (dies.foldl (fun a d => a ||| 2 ^ d) 0)).modDev fun x =>
        { x with shut := true, ready := dies.foldl (fun r d => r &&& ~~~dieReady d) x.ready }) := by
      simp only [State.thermalShutdown, hin]
    exact ⟨_, congrArg event hx, rfl, fun i hi => foldl_dieReady_getLsbD dies s.dev.ready i hi,
      ⟨_, List.mem_append_right _ (List.mem_singleton.mpr rfl), rfl⟩, rfl, fun _ => rfl⟩
  case quota =>
    intro s v quota hin
    have hx : s.quotaWrite = some (s.modVf v fun f => f.setQuota quota) := by simp only [State.quotaWrite, hin]
    exact ⟨_, congrArg event hx, State.modVf_vf s v _, fun u hu => State.modVf_vf_ne s v u _ hu⟩
  case window =>
    intro s n l hl hne hs hat
    exact ⟨_, _, exec_rateLimiterWindow hl hne hat, State.modLeaf_leaf hl _, rfl, fun c => Leaf.rd_nextWindow hs c⟩

end Sys2Proof.Machine
